-- ==== Sys2Proof/Word.lean ====
section
/-! DEFINITION. The word types of the model and its plainest data shapes.

Registers and addresses are 64 bits wide (R6, R118), instruction words too (R60); memory is bytes (R4).
`Tbl` is the model's sparse table: pairs of a key and a value in rising key order; its reads and writes
stand in Machine/Tables.lean. -/

namespace Sys2Proof

/-- A 64-bit register, address or instruction word. -/
abbrev Word := BitVec 64

/-- One byte of memory. -/
abbrev Byte := BitVec 8

/-- A sparse table from natural keys: pairs in rising key order. -/
abbrev Tbl (α : Type) := List (Nat × α)

/-- A set of naturals: a list in rising order without repeats. -/
abbrev NatSet := List Nat

end Sys2Proof
end

