-- ==== Sys2Proof/Config.lean ====
section
/-! DEFINITION. What a device fixes for good (fuses, straps) and the values that the spec leaves open. None of the
constants here has a body, so no proof can rest on a particular value. -/

namespace Sys2Proof.Config

/-- The physical quad that test chose as spare on each slab die (R18); used modulo 8. (DESIGN CHOICE, log entry 73.) -/
opaque spareQuad : Nat → Nat

/-- Whether a physical quad of a die holds a paired slab (R19, R25). (DESIGN CHOICE, log entry 73.) -/
opaque paired : Nat → Nat → Bool

/-- A stream of values that nothing constrains: the n-th value the spec leaves open.
(DESIGN CHOICE, log entries 18, 56, 58, 66, 67, 72, 76, 80, 86.) -/
opaque freeValue : Nat → BitVec 64

/-- An SLH-DSA-SHAKE-256f signature as a number (R396): the seed of the boot's attestation key and the signed bytes. The spec takes
it from FIPS 205. (DEDUCED, log entry 72.) -/
opaque sign : Nat → List (BitVec 8) → Nat

/-- Whether an SLH-DSA-SHAKE-256s signature holds (R396): the public key, the signature and the signed bytes. The spec takes it
from FIPS 205. (DEDUCED, log entry 72.) -/
opaque slhVerify : List (BitVec 8) → List (BitVec 8) → List (BitVec 8) → Bool

/-- The 32-byte digest of the firmware's public key that the fuses hold (R396). (DESIGN CHOICE, log entry 72.) -/
opaque keyDigest : Nat

/-- The certificate of the identity key, by Hartunath (R396). (DESIGN CHOICE, log entry 72.) -/
opaque identityCert : List (BitVec 8)

/-- The certificate of a boot's attestation key under the identity key, by the key's seed (R396). (DESIGN CHOICE, log entry 72.) -/
opaque attestCert : Nat → List (BitVec 8)

/-- Hartunath's PCI-SIG vendor ID, which R389 names and gives no number for. (DESIGN CHOICE, log entry 68.) -/
opaque vendorId : BitVec 16

/-- The order of the vertices of a child cell whose order R298 does not give: 0 the middle triangle of a prism, 1 the base of
the inverted pyramid, 2 + i the tetrahedron 6 + i of a pyramid; each names one of the possible orders.
(DESIGN CHOICE, log entry 37.) -/
opaque childOrder : Nat → Nat

/-- What an expression of `meras` gives where R79 states no result: 0 a quotient and 1 a remainder by zero, 2 and 3 a shift
by a count outside 0 to 63. (DESIGN CHOICE, log entry 81.) -/
opaque merasOpen : Nat → BitVec 64 → BitVec 64 → BitVec 64

end Sys2Proof.Config
end

