-- ==== Sys2Proof/Machine/Tables.lean ====
section
/-! DEFINITION. Reads and writes of sparse tables and number sets, and small list helpers. -/

namespace Sys2Proof.Machine

/-- The entry of table `t` at key `k`, if one is listed. -/
def tfind {α : Type} (k : Nat) : Tbl α → Option α
  | [] => none
  | (j, v) :: t => if j = k then some v else tfind k t

/-- The entry of table `t` at key `k`, or `d` where none is listed. -/
def tget {α : Type} (d : α) (k : Nat) (t : Tbl α) : α := (tfind k t).getD d

/-- Table `t` with `v` at key `k`. -/
def tset {α : Type} (k : Nat) (v : α) : Tbl α → Tbl α
  | [] => [(k, v)]
  | (j, w) :: t => if j = k then (k, v) :: t else if k < j then (k, v) :: (j, w) :: t else (j, w) :: tset k v t

/-- Table `t` without the key `k`. -/
def tdel {α : Type} (k : Nat) : Tbl α → Tbl α
  | [] => []
  | (j, w) :: t => if j = k then tdel k t else (j, w) :: tdel k t

/-- The set `s` with `k`. -/
def sadd (k : Nat) : NatSet → NatSet
  | [] => [k]
  | j :: t => if j = k then j :: t else if k < j then k :: j :: t else j :: sadd k t

/-- The set `s` without `k`. -/
def sdel (k : Nat) : NatSet → NatSet
  | [] => []
  | j :: t => if j = k then sdel k t else j :: sdel k t

/-- Whether `k` is in the set. -/
def smem (k : Nat) (s : NatSet) : Bool := s.contains k

/-- `sadd` for every member of a list. -/
def saddAll (ks : List Nat) (s : NatSet) : NatSet := ks.foldl (fun acc k => sadd k acc) s

/-- `sdel` for every member of a list. -/
def sdelAll (ks : List Nat) (s : NatSet) : NatSet := ks.foldl (fun acc k => sdel k acc) s

/-- The numbers `a, a + 1, …, a + n - 1`. -/
def nrange (a n : Nat) : List Nat := (List.range n).map (a + ·)

/-- The lowest member of a list of naturals. -/
def lmin? : List Nat → Option Nat
  | [] => none
  | k :: t => match lmin? t with
    | none => some k
    | some j => some (min k j)

/-- The index of the first member of a list that meets `p`. -/
def lidx {α : Type} (p : α → Bool) : List α → Option Nat
  | [] => none
  | a :: t => if p a then some 0 else (lidx p t).map (· + 1)

/-- The list with its member at index `n` replaced. -/
def lset {α : Type} (n : Nat) (v : α) : List α → List α
  | [] => []
  | a :: t => match n with
    | 0 => v :: t
    | m + 1 => a :: lset m v t

/-- Insertion into a list sorted by `le`, after equals (so a stable sort). -/
def linsert {α : Type} (le : α → α → Bool) (v : α) : List α → List α
  | [] => [v]
  | a :: t => if le a v then a :: linsert le v t else v :: a :: t

/-- A stable insertion sort. -/
def lsort {α : Type} (le : α → α → Bool) (l : List α) : List α :=
  l.foldl (fun acc a => linsert le a acc) []

/-- Two sorted lists as one sorted list; `fuel` is at least their joint length. -/
def lmerge (le : Int → Int → Bool) : Nat → List Int → List Int → List Int
  | 0, a, b => a ++ b
  | _ + 1, [], b => b
  | _ + 1, a, [] => a
  | fuel + 1, x :: a, y :: b => if le x y then x :: lmerge le fuel a (y :: b) else y :: lmerge le fuel (x :: a) b

/-- A list of integers in rising order; `fuel` bounds the depth of halving. -/
def lrising : Nat → List Int → List Int
  | 0, l => l
  | fuel + 1, l =>
    if l.length ≤ 1 then l
    else
      let h := l.length / 2
      lmerge (fun a b => decide (a ≤ b)) l.length (lrising fuel (l.take h)) (lrising fuel (l.drop h))

/-- Whether two members of a list of at most 2^64 integers lie closer together than n. (DESIGN CHOICE, log entry 80.) -/
def anyClose (n : Nat) (l : List Int) : Bool :=
  let r := lrising 64 l
  (r.zip (r.drop 1)).any fun p => decide (p.2 - p.1 < n)

/-- Drops repeats, keeping first places. -/
def ldedup {α : Type} [DecidableEq α] (l : List α) : List α :=
  (l.foldl (fun (acc : List α) a => if acc.contains a then acc else a :: acc) []).reverse

/-- The members that occur after the first `n`, in consecutive chunks of `k` (fuel-bounded). -/
def lchunks {α : Type} (k : Nat) : Nat → List α → List (List α)
  | 0, _ => []
  | f + 1, l => if l.isEmpty then [] else l.take k :: lchunks k f (l.drop k)

/-- Little-endian bytes of a number: the `n` low bytes. -/
def natBytes : Nat → Nat → List Byte
  | 0, _ => []
  | n + 1, v => BitVec.ofNat 8 v :: natBytes n (v / 256)

/-- The number that little-endian bytes hold. -/
def bytesNat : List Byte → Nat
  | [] => 0
  | b :: t => b.toNat + 256 * bytesNat t

/-- Bits [lo + n - 1 : lo] of a number. -/
def nbits (v lo n : Nat) : Nat := v / 2 ^ lo % 2 ^ n

/-- Sign extension of the low `w` bits of a number, as an integer. -/
def sextNat (w v : Nat) : Int :=
  let u := v % 2 ^ w
  if w = 0 then 0 else if u < 2 ^ (w - 1) then (u : Int) else (u : Int) - (2 ^ w : Nat)

/-- An integer modulo `2 ^ w`, as a natural. -/
def wrapInt (w : Nat) (i : Int) : Nat := (i % ((2 ^ w : Nat) : Int)).toNat

end Sys2Proof.Machine
end

