-- ==== Sys2Proof/Machine/Mesh.lean ====
section
/-! DEFINITION. Meshes as data: cells and their refinement, neighbours, the face table, folios, the bytes of an object, and
the rules of MADAPT, MCOLOR, MCUT and MMIGRATE (R298 to R303, R313 to R318). -/

namespace Sys2Proof.Machine

/-! Command blocks (R309). -/

/-- The operations by number. -/
def tMbuild : Nat := 0
def tMadapt : Nat := 1
def tMcolor : Nat := 2
def tMcut : Nat := 3
def tMmigrate : Nat := 4
def tMghost : Nat := 5

/-- Field k of a command block: CW, MESH, DST, DLEN, ARG0 to ARG3. -/
def blkNat (b : List Byte) (k : Nat) : Nat := bytesNat ((b.drop (8 * k)).take 8)
def blkWord (b : List Byte) (k : Nat) : Word := BitVec.ofNat 64 (blkNat b k)

/-- Fields of the MIG word. -/
def migP (w : Nat) : Nat := nbits w 0 16
def migNcomp (w : Nat) : Nat := nbits w 16 6 + 1
def migEsz (w : Nat) : Nat := if nbits w 22 1 = 1 then 8 else 4
def migDepth (w : Nat) : Nat := nbits w 24 2

/-! Cells (R298). -/

/-- A vertex as a weighted mean of root vertex identifiers; the weights sum to `meshUnit`. -/
abbrev MVert := Tbl Nat

/-- The weight of a root vertex in itself: 8 to the depth of a mesh, so that every mean is exact. -/
def meshUnit : Nat := 8 ^ 15

/-- The mean of vertices. (DEDUCED, log entry 36.) -/
def vAvg (ps : List MVert) : MVert :=
  (ps.foldl (fun acc p => p.foldl (fun acc q => tset q.1 (tget 0 q.1 acc + q.2) acc) acc) []).map fun q =>
    (q.1, q.2 / ps.length)

/-- Vertices of a kind. -/
def kindVerts : Nat → Nat
  | 0 => 4
  | 1 => 8
  | 2 => 6
  | _ => 5

/-- Local faces of a kind, each with its vertices in the order of R298. -/
def kindFaces : Nat → List (List Nat)
  | 0 => [[1, 2, 3], [0, 2, 3], [0, 1, 3], [0, 1, 2]]
  | 1 => [[0, 2, 4, 6], [1, 3, 5, 7], [0, 1, 4, 5], [2, 3, 6, 7], [0, 1, 2, 3], [4, 5, 6, 7]]
  | 2 => [[0, 1, 2], [3, 4, 5], [0, 1, 3, 4], [1, 2, 4, 5], [2, 0, 5, 3]]
  | _ => [[0, 1, 2, 3], [0, 1, 4], [1, 2, 4], [2, 3, 4], [3, 0, 4]]

def kidCount (kind : Nat) : Nat := if kind = 3 then 10 else 8

/-- Children in curve order (R299). -/
def kidOrder (kind : Nat) : List Nat := if kind = 1 then [0, 1, 3, 2, 6, 7, 5, 4] else nrange 0 (kidCount kind)

def kidKind (kind k : Nat) : Nat := if kind = 3 ∧ 6 ≤ k then 0 else kind

/-- One of the orders of a list; `fuel` is its length. -/
def permGo {α : Type} : Nat → Nat → List α → List α
  | 0, _, _ => []
  | fuel + 1, i, l =>
    let k := i % l.length
    (l.drop k).take 1 ++ permGo fuel (i / l.length) (l.take k ++ l.drop (k + 1))

def permOf {α : Type} (i : Nat) (l : List α) : List α := permGo l.length i l

/-- One of the cycle orders of four vertices. (DESIGN CHOICE, log entry 37.) -/
def cycleOf {α : Type} (i : Nat) (l : List α) : List α :=
  let r := l.drop (i % 4) ++ l.take (i % 4)
  if i / 4 % 2 = 1 then r.reverse else r

/-- The vertices of child k (R298). (DEDUCED, log entry 36; DESIGN CHOICE, log entry 37.) -/
def kidVerts (kind : Nat) (vs : List MVert) (k : Nat) : List MVert :=
  let v (i : Nat) : MVert := vs.getD i []
  let avg (is : List Nat) : MVert := vAvg (is.map v)
  let m (i j : Nat) : MVert := avg [i, j]
  match kind with
  | 0 => match k with
    | 4 => [m 0 1, m 0 2, m 0 3, m 1 3]
    | 5 => [m 0 1, m 0 2, m 1 2, m 1 3]
    | 6 => [m 0 2, m 0 3, m 1 3, m 2 3]
    | 7 => [m 0 2, m 1 2, m 1 3, m 2 3]
    | _ => (nrange 0 4).map (m k)
  | 1 => (nrange 0 8).map fun j => avg ((nrange 0 8).filter fun p => [1, 2, 4].all fun a =>
      p / a % 2 == k / a % 2 || p / a % 2 == j / a % 2)
  | 2 =>
    let t := k % 4
    let tri : List (List Nat) := if t < 3 then (nrange 0 3).map fun j => [t, j]
      else permOf (Config.childOrder 0 % 6) [[0, 1], [1, 2], [0, 2]]
    let layer (zs : List Nat) : List MVert := tri.map fun is => avg (is.flatMap fun i => zs.map fun z => i + 3 * z)
    if k / 4 = 0 then layer [0] ++ layer [0, 1] else layer [0, 1] ++ layer [1]
  | _ =>
    let c := avg [0, 1, 2, 3]
    match k with
    | 4 => (nrange 0 4).map (m · 4) ++ [v 4]
    | 5 => cycleOf (Config.childOrder 1 % 8) ((nrange 0 4).map (m · 4)) ++ [c]
    | _ =>
      if k < 4 then ((nrange 0 4).map fun j => if j = (k + 2) % 4 then c else m k j) ++ [m k 4]
      else
        let i := k - 6
        let j := (i + 1) % 4
        permOf (Config.childOrder (2 + i) % 24) [m i j, c, m i 4, m j 4]

/-- The corners of a face's sub-faces by number, from the face's vertices in their order (R298). -/
def subFaces (kind : Nat) (pts : List MVert) : List (List MVert) :=
  let p (i : Nat) : MVert := pts.getD i []
  let m (i j : Nat) : MVert := vAvg [p i, p j]
  if pts.length = 3 then [[p 0, m 0 1, m 0 2], [p 1, m 0 1, m 1 2], [p 2, m 0 2, m 1 2], [m 0 1, m 0 2, m 1 2]]
  else (nrange 0 4).map fun q =>
    let far := if kind = 3 then (q + 2) % 4 else 3 - q
    vAvg pts :: ((nrange 0 4).filter (· != far)).map (m q)

/-- Equal vertex sets. -/
def sameFace (a b : List MVert) : Bool := a.length == b.length && a.all b.contains

/-- A cell: its root, path from the root down, kind, vertices, and boundary tags of its faces. -/
structure MCell where
  root : Nat
  path : List Nat
  kind : Nat
  verts : List MVert
  tags : List Nat
  deriving DecidableEq, Repr

def MCell.level (c : MCell) : Nat := c.path.length

def MCell.faces (c : MCell) : List (List MVert) := (kindFaces c.kind).map fun f => f.map fun i => c.verts.getD i []

/-- Child k of a cell; a face on a parent's face inherits its tag (R298). -/
def MCell.kid (c : MCell) (k : Nat) : MCell :=
  let kind := kidKind c.kind k
  let vs := kidVerts c.kind c.verts k
  let subs := c.faces.map (subFaces c.kind)
  let tag (f : List MVert) : Nat := ((lidx (fun ss => ss.any (sameFace f)) subs).map fun i => c.tags.getD i 0).getD 0
  { root := c.root, path := c.path ++ [k], kind := kind, verts := vs,
    tags := ((kindFaces kind).map fun f => f.map fun i => vs.getD i []).map tag }

/-- A root record's fields (R301). -/
def rootKind (b : List Byte) : Nat := (b.headD 0).toNat
def rootVert (b : List Byte) (i : Nat) : Nat := bytesNat ((b.drop (4 + 4 * i)).take 4)
def rootTag (b : List Byte) (f : Nat) : Nat := bytesNat ((b.drop (36 + 2 * f)).take 2)

/-- The value that stands for no cell, and for a cell outside a part object (R299). -/
def noCell : Nat := 0xFFFFFFFF
def outsideCell : Nat := 0xFFFFFFFE

/-- A root record that R301 and R313 allow. -/
def goodRoot (b : List Byte) : Bool :=
  let n := kindVerts (rootKind b)
  let ids := (nrange 0 8).map (rootVert b)
  decide (rootKind b ≤ 3) && ((b.drop 1).take 3).all (· == 0) && (ids.take n).all (· != noCell) &&
    (ids.drop n).all (· == noCell) && (ldedup (ids.take n)).length == n

/-- The cell of a root. -/
def rootCell (b : List Byte) (i : Nat) : MCell :=
  { root := i, path := [], kind := rootKind b, verts := (nrange 0 (kindVerts (rootKind b))).map fun j => [(rootVert b j, meshUnit)],
    tags := (nrange 0 (kindFaces (rootKind b)).length).map (rootTag b) }

/-- The cell that a path leads to. -/
def leafCell (roots : List (List Byte)) (root : Nat) (path : List Nat) : MCell :=
  path.foldl MCell.kid (rootCell (roots.getD root []) root)

/-! Neighbours (R299, R302). -/

/-- What lies across a face: a boundary with its tag, one neighbour (cell, local face, whether it is coarser, and the
sub-face of its face), or four by sub-face. -/
inductive Nbr
  | edge (tag : Nat)
  | one (n nf : Nat) (coarser : Bool) (quad : Nat)
  | four (l : List (Nat × Nat))
  deriving DecidableEq, Repr

/-- A face of a cell: the cell, the face, and its vertices. -/
structure FaceAt where
  c : Nat
  f : Nat
  key : List MVert
  deriving DecidableEq, Repr

/-- Every face of every cell. -/
def allFaces (cells : List MCell) : List FaceAt :=
  cells.zipIdx.flatMap fun p => p.1.faces.zipIdx.map fun q => ⟨p.2, q.2, q.1⟩

/-- The neighbours of a face: of its own size, on a coarser cell's face, or one on each sub-face. -/
def nbrAt (cells : List MCell) (fs : List FaceAt) (x : FaceAt) : Nbr :=
  let kind (c : Nat) : Nat := ((cells[c]?).map (·.kind)).getD 0
  let others := fs.filter fun y => y.c != x.c
  match others.find? (fun y => sameFace x.key y.key) with
  | some y => .one y.c y.f false 0
  | none =>
    match others.findSome? fun y => (lidx (sameFace x.key) (subFaces (kind y.c) y.key)).map fun q => (y, q) with
    | some (y, q) => .one y.c y.f true q
    | none =>
      let finer := (subFaces (kind x.c) x.key).map fun k => others.find? fun y => sameFace k y.key
      if finer.all (·.isSome) then .four (finer.map fun y => (y.map fun y => (y.c, y.f)).getD (noCell, 0))
      else .edge ((((cells[x.c]?).map (·.tags)).getD []).getD x.f 0)

/-- The neighbours of every cell by local face. -/
def meshNbrs (cells : List MCell) : List (List Nbr) :=
  let fs := allFaces cells
  (nrange 0 cells.length).map fun c => (fs.filter (·.c == c)).map (nbrAt cells fs)

/-- Whether one face set occurs three times or more (R313). -/
def crowdedFace (cells : List MCell) : Bool :=
  let fs := allFaces cells
  fs.any fun x => decide (2 < (fs.filter fun y => sameFace x.key y.key).length)

/-- The neighbours' cell numbers. -/
def Nbr.cells : Nbr → List Nat
  | .edge _ => []
  | .one n _ _ _ => [n]
  | .four l => l.map (·.1)

/-! Objects (R300 to R303). -/

/-- The contents of an object: root records, cells (root, kind, level, PATH), neighbours, owned cells, ghost records, and
the part's place. -/
structure MObj where
  roots : List (List Byte)
  cells : List (Nat × Nat × Nat × Nat)
  nbrs : List (List Nbr)
  nown : Nat
  ghosts : List (Nat × Nat)
  part : Nat
  npart : Nat
  gdepth : Nat
  deriving DecidableEq, Repr

/-- PATH (R301). -/
def pathNat (path : List Nat) : Nat := (path.zipIdx.map fun p => p.1 * 16 ^ p.2).sum

/-- A path from PATH and a level. -/
def natPath (level n : Nat) : List Nat := (nrange 0 level).map fun l => n / 16 ^ l % 16

/-- A whole mesh from its cells. -/
def wholeObj (roots : List (List Byte)) (cells : List MCell) : MObj :=
  { roots := roots, cells := cells.map fun c => (c.root, c.kind, c.level, pathNat c.path), nbrs := meshNbrs cells,
    nown := cells.length, ghosts := [], part := 0, npart := 1, gdepth := 0 }

/-- A face record (R302). -/
structure FaceRec where
  owner : Nat
  nbr : Nat
  oface : Nat
  nface : Nat
  flags : Nat
  quad : Nat
  btag : Nat
  deriving DecidableEq, Repr

/-- The face table: by owner, local face and sub-face. A face towards a cell outside a part has no record (R302, R306).
(DEDUCED, log entry 39.) -/
def objFaces (o : MObj) : List FaceRec :=
  o.nbrs.zipIdx.flatMap fun p => p.1.zipIdx.flatMap fun x =>
    let c := p.2
    let own (n : Nat) : Bool := decide (c < n) && n != outsideCell
    match x.1 with
    | .edge t => [⟨c, noCell, x.2, 0xFF, 1, 0, t⟩]
    | .one n nf co q => if own n then [⟨c, n, x.2, nf, if co then 2 else 0, q, 0⟩] else []
    | .four l => l.zipIdx.filterMap fun y => if own y.1.1 then some ⟨c, y.1.1, x.2, y.1.2, 4, y.2, 0⟩ else none

/-- A varint (R303); `fuel` bounds its bytes. (DEDUCED, log entry 38.) -/
def varint : Nat → Nat → List Byte
  | 0, _ => []
  | fuel + 1, n => if n < 128 then [BitVec.ofNat 8 n] else BitVec.ofNat 8 (n % 128 + 128) :: varint fuel (n / 128)

/-- `zz(n − c)` (R303). -/
def zigzag (n c : Nat) : Nat := if c ≤ n then 2 * (n - c) else 2 * (c - n) - 1

/-- The entry of a cell in its folio's stream (R303). (DEDUCED, log entry 38.) -/
def folioEntry (c : Nat) (ns : List Nbr) : List Byte :=
  let code (x : Nbr) : Nat := match x with
    | .edge _ => 0
    | .one .. => 1
    | .four _ => 2
  natBytes 2 ((ns.zipIdx.map fun p => code p.1 * 4 ^ p.2).sum) ++ ns.flatMap fun x =>
    match x with
    | .edge t => varint 5 t
    | .one n nf co q => varint 5 (zigzag n c) ++ [BitVec.ofNat 8 (nf + (if co then 8 else 0) + 16 * q)]
    | .four l => l.flatMap fun y => varint 5 (zigzag y.1 c) ++ [BitVec.ofNat 8 y.2]

/-- A folio: its first cell, how many cells, and its stream. -/
structure Folio where
  first : Nat
  n : Nat
  bytes : List Byte
  deriving DecidableEq, Repr

/-- The folios, last first: an entry that does not fit starts the next folio (R303). -/
def packFolios (es : List (List Byte)) : List Folio :=
  (es.zipIdx.foldl (fun (acc : List Folio) e =>
    match acc with
    | f :: t => if f.bytes.length + e.1.length ≤ 248 then { f with n := f.n + 1, bytes := f.bytes ++ e.1 } :: t
      else ⟨e.2, 1, e.1⟩ :: acc
    | [] => [⟨e.2, 1, e.1⟩]) []).reverse

/-- Bytes filled with zeros to a multiple of 256 (R300). -/
def pad256 (b : List Byte) : List Byte := b ++ List.replicate ((256 - b.length % 256) % 256) 0

/-- The bytes of an object (R300 to R303). -/
def objBytes (o : MObj) : List Byte :=
  let faces := objFaces o
  let folios := packFolios (o.nbrs.zipIdx.map fun p => folioEntry p.2 p.1)
  let parts : List (List Byte) := [
    pad256 o.roots.flatten,
    pad256 (o.cells.flatMap fun c => natBytes 4 c.1 ++ natBytes 4 (c.2.1 + 16 * c.2.2.1) ++ natBytes 8 c.2.2.2),
    pad256 (faces.flatMap fun f => natBytes 4 f.owner ++ natBytes 4 f.nbr ++
      [BitVec.ofNat 8 f.oface, BitVec.ofNat 8 f.nface, BitVec.ofNat 8 f.flags, BitVec.ofNat 8 f.quad] ++ natBytes 4 f.btag),
    pad256 (folios.flatMap fun f => natBytes 4 f.first),
    folios.flatMap fun f => natBytes 4 f.first ++ natBytes 2 f.n ++ natBytes 2 f.bytes.length ++ f.bytes ++
      List.replicate (248 - f.bytes.length) 0,
    pad256 (o.ghosts.flatMap fun g => natBytes 4 g.1 ++ natBytes 4 g.2)]
  let offs := (nrange 0 6).map fun i => 256 + ((parts.take i).map List.length).sum
  let size := 256 + (parts.map List.length).sum
  let maxlvl := o.cells.foldl (fun a c => max a c.2.2.1) 0
  let kinds := (((nrange 0 4).filter fun k => o.cells.any fun c => c.2.1 == k).map (2 ^ ·)).sum
  let header := natBytes 4 o.roots.length ++ natBytes 4 o.cells.length ++ natBytes 4 faces.length ++
    natBytes 4 folios.length ++ natBytes 4 o.nown ++ natBytes 4 o.ghosts.length ++ natBytes 2 o.part ++
    natBytes 2 o.npart ++ [BitVec.ofNat 8 maxlvl, BitVec.ofNat 8 kinds, BitVec.ofNat 8 o.gdepth, 0] ++
    offs.flatMap (natBytes 8) ++ natBytes 8 size
  pad256 header ++ parts.flatten

/-- Numbers of an object's header (R300). -/
def objNat (b : List Byte) (o n : Nat) : Nat := bytesNat ((b.drop o).take n)
def objNroot (b : List Byte) : Nat := objNat b 0 4
def objNcell (b : List Byte) : Nat := objNat b 4 4
def objNface (b : List Byte) : Nat := objNat b 8 4
def objNfolio (b : List Byte) : Nat := objNat b 12 4
def objNown (b : List Byte) : Nat := objNat b 16 4
def objNghost (b : List Byte) : Nat := objNat b 20 4
def objPart (b : List Byte) : Nat := objNat b 24 2
def objNpart (b : List Byte) : Nat := objNat b 26 2
/-- ROOTOFF, CELLOFF, FACEOFF, DIROFF, FOLIOOFF, GHOSTOFF and SIZE, by number. -/
def objOff (b : List Byte) (k : Nat) : Nat := objNat b (32 + 8 * k) 8

/-- The root records of an object, and its cells with their geometry. -/
def objRoots (b : List Byte) : List (List Byte) :=
  (nrange 0 (objNroot b)).map fun i => (b.drop (objOff b 0 + 48 * i)).take 48

def objCells (b : List Byte) : List MCell :=
  let roots := objRoots b
  (nrange 0 (objNcell b)).map fun i =>
    let r := (b.drop (objOff b 1 + 16 * i)).take 16
    leafCell roots (objNat r 0 4) (natPath (objNat r 4 1 / 16) (objNat r 8 8))

/-! MADAPT (R314, R315). -/

/-- The kind at the end of a path. -/
def pathKind (kind : Nat) (path : List Nat) : Nat := path.foldl kidKind kind

/-- The coarsening groups that flags propose: the cells of one parent in child order (R314, rule 2). -/
def coarsenGroups (roots : List (List Byte)) (cells : List MCell) (flags : List Nat) : List (List Nat) :=
  let at_ (r : Nat) (p : List Nat) : Option Nat := lidx (fun (c : MCell) => c.root == r && c.path == p) cells
  cells.filterMap fun c =>
    if c.path.getLast? = some 0 then
      let up := c.path.dropLast
      let kids := (nrange 0 (kidCount (pathKind (rootKind (roots.getD c.root [])) up))).map fun k => at_ c.root (up ++ [k])
      if kids.all fun k => (k.map fun i => flags.getD i 0 == 2).getD false then some (kids.filterMap id) else none
    else none

/-- Where MADAPT's rules stand: the new level of each cell and the groups that stand. -/
structure AdaptSt where
  lvl : List Nat
  groups : List (List Nat)
  deriving DecidableEq, Repr

/-- A group is cancelled: its cells keep their old level. -/
def AdaptSt.cancel (a : AdaptSt) (old : List Nat) (g : List Nat) : AdaptSt :=
  ⟨g.foldl (fun l c => lset c (old.getD c 0) l) a.lvl, a.groups.filter (· != g)⟩

/-- One pass of rules 3 and 4 (R314). -/
def adaptPass (old : List Nat) (adj : List (List Nat)) (a : AdaptSt) : AdaptSt :=
  let lv (a : AdaptSt) (c : Nat) : Nat := a.lvl.getD c 0
  let a := a.groups.foldl (fun a g =>
    if g.any fun c => (adj.getD c []).any fun d => decide (old.getD c 0 + 1 ≤ lv a d) then a.cancel old g else a) a
  (nrange 0 old.length).foldl (fun a c =>
    if (adj.getD c []).any fun d => decide (lv a c + 2 ≤ lv a d) then
      match a.groups.find? (·.contains c) with
      | some g => a.cancel old g
      | none => if lv a c = old.getD c 0 then { a with lvl := lset c (lv a c + 1) a.lvl } else a
    else a) a

/-- Passes until nothing more can change. -/
def adaptLoop (old : List Nat) (adj : List (List Nat)) : Nat → AdaptSt → AdaptSt
  | 0, a => a
  | fuel + 1, a => adaptLoop old adj fuel (adaptPass old adj a)

/-- The new levels and the groups that stand (R314). -/
def adaptLevels (roots : List (List Byte)) (cells : List MCell) (nbrs : List (List Nbr)) (flags : List Nat) : AdaptSt :=
  let old := cells.map MCell.level
  let adj := nbrs.map fun ns => (ns.flatMap Nbr.cells).filter (· < cells.length)
  let groups := coarsenGroups roots cells flags
  let lvl := old.zipIdx.map fun p =>
    if groups.any (·.contains p.2) then p.1 - 1
    else if flags.getD p.2 0 = 1 ∧ p.1 < 15 then p.1 + 1 else p.1
  adaptLoop old adj (3 * cells.length + 1) ⟨lvl, groups⟩

/-- A remap record: rule, sources and FP32 weights (R315). -/
structure Remap where
  rule : Nat
  srcs : List Nat
  wts : List Nat
  deriving DecidableEq, Repr

/-- k/4 as an FP32 word. -/
def quarterFp (k : Nat) : Nat :=
  match k with
  | 0 => 0
  | 1 => 0x3E800000
  | 2 => 0x3F000000
  | 3 => 0x3F400000
  | _ => 0x3F800000

/-- The record of child k of a refined cell (R315). -/
def kidRemap (c : MCell) (num : Nat) (ns : List Nbr) (interp : Bool) (k : Nat) : Remap :=
  if !interp then ⟨0, [num], []⟩
  else
    let kf := (c.kid k).faces
    let others := (c.faces.zip ns).filterMap fun p =>
      match lidx (fun sub => kf.any (sameFace sub)) (subFaces c.kind p.1), p.2 with
      | none, _ => none
      | _, .edge _ => none
      | _, .one n _ _ _ => some n
      | some q, .four l => (l[q]?).map (·.1)
    ⟨2, num :: others, quarterFp (4 - others.length) :: others.map fun _ => quarterFp 1⟩

/-- The new cells with their remap records, in curve order (R299, R314, R315). -/
def adaptCells (cells : List MCell) (nbrs : List (List Nbr)) (a : AdaptSt) (interp : Bool) (roots : List (List Byte)) :
    List (MCell × Remap) :=
  cells.zipIdx.flatMap fun p =>
    let c := p.1
    match a.groups.find? (·.contains p.2) with
    | some g => if g.all (p.2 ≤ ·) then [(leafCell roots c.root c.path.dropLast, ⟨1, g, []⟩)] else []
    | none =>
      if c.level < a.lvl.getD p.2 0 then
        (kidOrder c.kind).map fun k => (c.kid k, kidRemap c p.2 (nbrs.getD p.2 []) interp k)
      else [(c, ⟨0, [p.2], []⟩)]

/-- The header of a remap list (R315). -/
def remapHead (nrec nold nnew size256 : Nat) : List Byte :=
  natBytes 4 nrec ++ natBytes 4 nold ++ natBytes 4 nnew ++ natBytes 4 size256

/-- A remap record of new cell i (R315). -/
def remapRec (i : Nat) (r : Remap) : List Byte :=
  natBytes 4 i ++ [BitVec.ofNat 8 r.rule, BitVec.ofNat 8 r.srcs.length, 0, 0] ++
    ((nrange 0 10).map fun k => natBytes 4 (r.srcs.getD k 0)).flatten ++
    ((nrange 0 10).map fun k => natBytes 4 (r.wts.getD k 0)).flatten ++ List.replicate 8 0

/-! MCOLOR and MCUT (R316, R317). -/

/-- The lowest number that a list lacks. -/
def lowestFree (l : List Nat) : Nat := ((nrange 0 (l.length + 1)).find? fun k => !l.contains k).getD 0

/-- Colours of faces given by their cells, in order; the table holds the colours that each cell has met (R316). -/
def colourFaces (fs : List (Nat × Nat)) : List Nat :=
  (fs.foldl (fun (acc : List Nat × Tbl (List Nat)) f =>
    let seen (c : Nat) : List Nat := if c = noCell then [] else tget [] c acc.2
    let k := lowestFree (seen f.1 ++ seen f.2)
    let put (t : Tbl (List Nat)) (c : Nat) : Tbl (List Nat) := if c = noCell then t else tset c (k :: tget [] c t) t
    (acc.1 ++ [k], put (put acc.2 f.1) f.2)) ([], [])).1

/-- The sums of weights below each cell, from S(0) on. -/
def prefixSums (w : List Nat) : List Nat := (nrange 0 (w.length + 1)).map fun c => (w.take c).sum

/-- Part starts (R317). -/
def partStarts (w : List Nat) (p : Nat) : List Nat :=
  let s := prefixSums w
  let total := s.getD w.length 0
  (nrange 0 (p + 1)).map fun k =>
    if k = 0 then 0 else if k = p then w.length
    else ((nrange 0 (w.length + 1)).find? fun c => decide (k * total ≤ s.getD c 0 * p)).getD w.length

/-! MMIGRATE (R318). -/

/-- Cells outside a set that share a face with a member of it. -/
def borderOf (nbrs : List (List Nbr)) (inside : Nat → Bool) (from_ : List Nat) : List Nat :=
  let n := nbrs.length
  lsort (fun a b => decide (a ≤ b))
    (ldedup ((from_.flatMap fun c => (nbrs.getD c []).flatMap Nbr.cells).filter fun d => d < n && !inside d))

/-- The ghosts of the part that owns cells lo to hi − 1 (R318). -/
def ghostCells (nbrs : List (List Nbr)) (lo hi gdepth : Nat) : List Nat :=
  let own (c : Nat) : Bool := decide (lo ≤ c) && decide (c < hi)
  let g1 := borderOf nbrs own (nrange lo (hi - lo))
  if gdepth < 2 then g1
  else lsort (fun a b => decide (a ≤ b)) (g1 ++ borderOf nbrs (fun c => own c || g1.contains c) g1)

/-- The part object that owns cells lo to hi − 1 of a whole mesh, and its cells by their whole numbers (R318). (DEDUCED, log entry 39.) -/
def partObj (roots : List (List Byte)) (cells : List MCell) (nbrs : List (List Nbr)) (starts : List Nat) (p gdepth : Nat) :
    MObj × List Nat :=
  let lo := starts.getD p 0
  let hi := starts.getD (p + 1) 0
  let ghosts := ghostCells nbrs lo hi gdepth
  let mine := nrange lo (hi - lo) ++ ghosts
  let local_ (n : Nat) : Nat := (lidx (· == n) mine).getD outsideCell
  let cellAt (c : Nat) : MCell := (cells[c]?).getD ⟨0, [], 0, [], []⟩
  let rs := lsort (fun a b => decide (a ≤ b)) (ldedup (mine.map fun c => (cellAt c).root))
  let ownerOf (c : Nat) : Nat := ((nrange 0 (starts.length - 1)).find? fun k =>
    decide (starts.getD k 0 ≤ c) && decide (c < starts.getD (k + 1) 0)).getD 0
  ({ roots := rs.map fun r => roots.getD r []
     cells := mine.map fun c => let x := cellAt c; ((lidx (· == x.root) rs).getD 0, x.kind, x.level, pathNat x.path)
     nbrs := mine.map fun c => (nbrs.getD c []).map fun x => match x with
       | .edge t => .edge t
       | .one n nf co q => .one (local_ n) nf co q
       | .four l => .four (l.map fun y => (local_ y.1, y.2))
     nown := hi - lo
     ghosts := ghosts.map fun c => (c - starts.getD (ownerOf c) 0, ownerOf c)
     part := p
     npart := starts.length - 1
     gdepth := gdepth }, mine)

end Sys2Proof.Machine
end

