-- ==== Sys2Proof/Syntax.lean ====
section
/-! DEFINITION. The syntax of the machine: the eight instruction formats of R65 and one constructor for every row of
the opcode table. A row that is an instruction carries the fields of its format; what an event says stands in an
`Occasion`. Which field values are legal for which row stands in WellFormed.lean. -/

namespace Sys2Proof

/-- Format A, scalar three-operand (R65, R66). -/
structure FmtA where
  xd : BitVec 6
  xa : BitVec 6
  xb : BitVec 6
  xc : BitVec 6
  opv : BitVec 11
  t : BitVec 4
  imm16 : BitVec 16
  deriving DecidableEq, Repr

/-- Format B, scalar immediate (R65, R66). -/
structure FmtB where
  xd : BitVec 6
  xa : BitVec 6
  imm32 : BitVec 32
  opv : BitVec 7
  t : BitVec 4
  deriving DecidableEq, Repr

/-- Format J, branch and block (R65). -/
structure FmtJ where
  xa : BitVec 6
  xb : BitVec 6
  cond : BitVec 3
  disp40 : BitVec 40
  deriving DecidableEq, Repr

/-- Format V, vector (R65, R66); q holds the ring flags of vd, va, vb, vc from bit 3 down. -/
structure FmtV where
  vd : BitVec 6
  va : BitVec 6
  vb : BitVec 6
  vc : BitVec 6
  m : BitVec 4
  xl : BitVec 6
  rm : BitVec 3
  grp : BitVec 2
  opv : BitVec 8
  q : BitVec 4
  t : BitVec 4
  deriving DecidableEq, Repr

/-- Format M, memory (R65); xs is the field that names a scalar or an index register. -/
structure FmtM where
  v : BitVec 6
  xbase : BitVec 6
  xs : BitVec 6
  m : BitVec 4
  o : BitVec 1
  d : BitVec 1
  scope : BitVec 3
  cache : BitVec 2
  stream : BitVec 2
  seg : BitVec 8
  imm16 : BitVec 16
  deriving DecidableEq, Repr

/-- Format X, matrix (R65, R66); rsv is the reserved pair of fn bits, q the ring flags of va and vb. -/
structure FmtX where
  ad : BitVec 3
  va : BitVec 6
  vb : BitVec 6
  m : BitVec 4
  xl : BitVec 6
  rep : BitVec 4
  xs : BitVec 6
  opv : BitVec 12
  rsv : BitVec 2
  q : BitVec 2
  t : BitVec 4
  deriving DecidableEq, Repr

/-- Format E, engine (R65, R66). -/
structure FmtE where
  xd : BitVec 6
  xa : BitVec 6
  xb : BitVec 6
  xc : BitVec 6
  unit : BitVec 7
  fn : BitVec 24
  deriving DecidableEq, Repr

/-- Format Y, system and sync (R65, R66). -/
structure FmtY where
  xd : BitVec 6
  xa : BitVec 6
  imm8 : BitVec 8
  scope : BitVec 3
  fn : BitVec 32
  deriving DecidableEq, Repr

/-- A fabric transaction (R369, R370). `lcn` is the logical chip number the sender meant; `crc` is the integrity tag that it
carries (R371); `more` says that further transactions of the same single-copy atomic unit follow (R250).
(DESIGN CHOICE, log entry 84.) -/
structure Txn where
  kind : Nat
  sport : Nat
  dport : Nat
  lcn : Nat
  wseq : Nat
  addr : Nat
  dom : BitVec 12
  key : Nat
  nbyte : Nat
  op : Nat
  ty : Nat
  ben : List Bool
  operand : Word
  cmpval : Word
  origPort : Nat
  origSeq : Nat
  pmask : List Nat
  data : List Byte
  crc : Nat
  more : Bool
  deriving DecidableEq, Repr

/-- What arrives from other chips for an engine command: the data bytes of its remote reads in element order, the
numbers of the elements whose data came poisoned, and the parts that other chips sealed (R227, R318). (DESIGN CHOICE, log entry 13.) -/
structure EngineIn where
  data : List Byte
  poisoned : List Nat
  parts : List Nat
  deriving DecidableEq, Repr

/-- What the management ring tells about the device a change names (R385): its port is enabled, it is a replica,
it shadows already, it fell silent. -/
structure RingIn where
  enabled : Bool
  rep : Bool
  shadowing : Bool
  silent : Bool
  deriving DecidableEq, Repr

/-- What an event of the outside, or of a unit that acts on its own, says beside its name: the numbers and data that
its row speaks of. Each event's constructor names the fields it reads; the rest are zero. -/
structure Occasion where
  /-- who asks: a host port 0 or 1, or 2 for the management interface -/
  who : Nat
  /-- the number the event is about: a port, queue, LCN, gang, context number, die, BAU, slot or offset -/
  n : Nat
  /-- a second number: a channel, index, working quad or port -/
  k : Nat
  /-- a third number -/
  j : Nat
  /-- the value written -/
  value : Word
  flag : Bool
  flag2 : Bool
  /-- the bytes of a fabric transaction that arrives -/
  wire : List Byte
  env : EngineIn
  ring : RingIn
  /-- data of a host write; a host read has none -/
  data : Option (List Byte)
  nonce : BitVec 256
  deriving DecidableEq, Repr

/-- One constructor for every row of the opcode table: first the instructions (R69), then the events. An event takes what
it says from the machine's current `Occasion`. -/
inductive Instr
  /-- ADD (R110). -/
  | add (f : FmtA)
  /-- SUB (R110). -/
  | sub (f : FmtA)
  /-- MUL (R110). -/
  | mul (f : FmtA)
  /-- MULH (R110). -/
  | mulh (f : FmtA)
  /-- DIV (R111). -/
  | div (f : FmtA)
  /-- REM (R111). -/
  | rem (f : FmtA)
  /-- AND (R110). -/
  | and (f : FmtA)
  /-- OR (R110). -/
  | or (f : FmtA)
  /-- XOR (R110). -/
  | xor (f : FmtA)
  /-- SHL (R110). -/
  | shl (f : FmtA)
  /-- SHR (R110). -/
  | shr (f : FmtA)
  /-- SRA (R110). -/
  | sra (f : FmtA)
  /-- ROTL (R110). -/
  | rotl (f : FmtA)
  /-- MIN (R110). -/
  | min (f : FmtA)
  /-- MAX (R110). -/
  | max (f : FmtA)
  /-- CMP (R113). -/
  | cmp (f : FmtA)
  /-- SEL (R113). -/
  | sel (f : FmtA)
  /-- CLZ (R110). -/
  | clz (f : FmtA)
  /-- CTZ (R110). -/
  | ctz (f : FmtA)
  /-- POPC (R110). -/
  | popc (f : FmtA)
  /-- BEXT (R113). -/
  | bext (f : FmtA)
  /-- BINS (R113). -/
  | bins (f : FmtA)
  /-- LEA (R113). -/
  | lea (f : FmtA)
  /-- ADDI (R112). -/
  | addi (f : FmtB)
  /-- ANDI (R112). -/
  | andi (f : FmtB)
  /-- ORI (R112). -/
  | ori (f : FmtB)
  /-- XORI (R112). -/
  | xori (f : FmtB)
  /-- SHLI (R112). -/
  | shli (f : FmtB)
  /-- SHRI (R112). -/
  | shri (f : FmtB)
  /-- SRAI (R112). -/
  | srai (f : FmtB)
  /-- CMPI (R112). -/
  | cmpi (f : FmtB)
  /-- MOVHI (R112). -/
  | movhi (f : FmtB)
  /-- MOVI (R112). -/
  | movi (f : FmtB)
  /-- FADD (R115). -/
  | fadd (f : FmtA)
  /-- FSUB (R115). -/
  | fsub (f : FmtA)
  /-- FMUL (R115). -/
  | fmul (f : FmtA)
  /-- FDIV (R115). -/
  | fdiv (f : FmtA)
  /-- FSQRT (R115). -/
  | fsqrt (f : FmtA)
  /-- FFMA (R115). -/
  | ffma (f : FmtA)
  /-- FMIN (R115). -/
  | fmin (f : FmtA)
  /-- FMAX (R115). -/
  | fmax (f : FmtA)
  /-- FCMP (R116). -/
  | fcmp (f : FmtA)
  /-- FCVT (R117). -/
  | fcvt (f : FmtA)
  /-- FCLASS (R116). -/
  | fclass (f : FmtA)
  /-- FSGN (R116). -/
  | fsgn (f : FmtA)
  /-- LD (R118). -/
  | ld (f : FmtM)
  /-- ST (R118). -/
  | st (f : FmtM)
  /-- AMO (R121). -/
  | amo (f : FmtA)
  /-- CAS (R121). -/
  | cas (f : FmtA)
  /-- LDW (R122). -/
  | ldw (f : FmtB)
  /-- MFSR (R123). -/
  | mfsr (f : FmtB)
  /-- MTSR (R123). -/
  | mtsr (f : FmtB)
  /-- BREV (R110). -/
  | brev (f : FmtA)
  /-- BC (R125). -/
  | bc (f : FmtJ)
  /-- BAL (R125). -/
  | bal (f : FmtJ)
  /-- JR (R125). -/
  | jr (f : FmtJ)
  /-- JALR (R125). -/
  | jalr (f : FmtJ)
  /-- LOOP (R125). -/
  | loop (f : FmtJ)
  /-- EXIT (R126). -/
  | exit (f : FmtY)
  /-- NOP (R126). -/
  | nop (f : FmtY)
  /-- VFETCH (R93). -/
  | vfetch (f : FmtJ)
  /-- VPBR (R96). -/
  | vpbr (f : FmtJ)
  /-- VJOIN (R97). -/
  | vjoin (f : FmtY)
  /-- SETVL (R128). -/
  | setvl (f : FmtA)
  /-- VCFG (R88). -/
  | vcfg (f : FmtA)
  /-- VADD (R140). -/
  | vadd (f : FmtV)
  /-- VSUB (R140). -/
  | vsub (f : FmtV)
  /-- VMUL (R140). -/
  | vmul (f : FmtV)
  /-- VMULH (R143). -/
  | vmulh (f : FmtV)
  /-- VDIV (R143). -/
  | vdiv (f : FmtV)
  /-- VREM (R143). -/
  | vrem (f : FmtV)
  /-- VMIN (R144). -/
  | vmin (f : FmtV)
  /-- VMAX (R144). -/
  | vmax (f : FmtV)
  /-- VABS (R144). -/
  | vabs (f : FmtV)
  /-- VNEG (R144). -/
  | vneg (f : FmtV)
  /-- VFMA (R140). -/
  | vfma (f : FmtV)
  /-- VFMS (R140). -/
  | vfms (f : FmtV)
  /-- VFNMA (R140). -/
  | vfnma (f : FmtV)
  /-- VFNMS (R140). -/
  | vfnms (f : FmtV)
  /-- VSQRT (R141). -/
  | vsqrt (f : FmtV)
  /-- VRSQRT (R141). -/
  | vrsqrt (f : FmtV)
  /-- VRCP (R141). -/
  | vrcp (f : FmtV)
  /-- VAVG (R140). -/
  | vavg (f : FmtV)
  /-- VCLAMP (R144). -/
  | vclamp (f : FmtV)
  /-- VSCALB (R141). -/
  | vscalb (f : FmtV)
  /-- VLOGB (R141). -/
  | vlogb (f : FmtV)
  /-- VCLASS (R144). -/
  | vclass (f : FmtV)
  /-- VAND (R145). -/
  | vand (f : FmtV)
  /-- VOR (R145). -/
  | vor (f : FmtV)
  /-- VXOR (R145). -/
  | vxor (f : FmtV)
  /-- VNOT (R145). -/
  | vnot (f : FmtV)
  /-- VANDN (R145). -/
  | vandn (f : FmtV)
  /-- VSHL (R145). -/
  | vshl (f : FmtV)
  /-- VSHR (R145). -/
  | vshr (f : FmtV)
  /-- VSRA (R145). -/
  | vsra (f : FmtV)
  /-- VROTL (R145). -/
  | vrotl (f : FmtV)
  /-- VCLZ (R145). -/
  | vclz (f : FmtV)
  /-- VPOPC (R145). -/
  | vpopc (f : FmtV)
  /-- VBREV (R145). -/
  | vbrev (f : FmtV)
  /-- VCMP (R146). -/
  | vcmp (f : FmtV)
  /-- VSEL (R147). -/
  | vsel (f : FmtV)
  /-- VMERGE (R147). -/
  | vmerge (f : FmtV)
  /-- VBCAST (R148). -/
  | vbcast (f : FmtV)
  /-- VRAMP (R148). -/
  | vramp (f : FmtV)
  /-- VMOVX (R148). -/
  | vmovx (f : FmtV)
  /-- VINSX (R148). -/
  | vinsx (f : FmtV)
  /-- VMOV (R148). -/
  | vmov (f : FmtV)
  /-- VMAND (R149). -/
  | vmand (f : FmtV)
  /-- VMOR (R149). -/
  | vmor (f : FmtV)
  /-- VMXOR (R149). -/
  | vmxor (f : FmtV)
  /-- VMNOT (R149). -/
  | vmnot (f : FmtV)
  /-- VMANDN (R149). -/
  | vmandn (f : FmtV)
  /-- VMPOP (R149). -/
  | vmpop (f : FmtV)
  /-- VMFIRST (R149). -/
  | vmfirst (f : FmtV)
  /-- VMSETF (R149). -/
  | vmsetf (f : FmtV)
  /-- VMMOV (R149). -/
  | vmmov (f : FmtV)
  /-- VMTOX (R149). -/
  | vmtox (f : FmtV)
  /-- VMFROMX (R149). -/
  | vmfromx (f : FmtV)
  /-- VCVT (R156). -/
  | vcvt (f : FmtV)
  /-- VPACK_QUANT (R158). -/
  | vpackQuant (f : FmtV)
  /-- VPACK_DENSE (R159). -/
  | vpackDense (f : FmtV)
  /-- VUNPACK (R159). -/
  | vunpack (f : FmtV)
  /-- VREDSUM (R160). -/
  | vredsum (f : FmtV)
  /-- VREDMIN (R161). -/
  | vredmin (f : FmtV)
  /-- VREDMAX (R161). -/
  | vredmax (f : FmtV)
  /-- VREDDOT (R160). -/
  | vreddot (f : FmtV)
  /-- VSCAN (R163). -/
  | vscan (f : FmtV)
  /-- VWELF (R164). -/
  | vwelf (f : FmtV)
  /-- VWMERGE (R165). -/
  | vwmerge (f : FmtV)
  /-- VTOPK (R166). -/
  | vtopk (f : FmtV)
  /-- VPERM (R167). -/
  | vperm (f : FmtV)
  /-- VSHUF (R167). -/
  | vshuf (f : FmtV)
  /-- VSLIDEUP (R167). -/
  | vslideup (f : FmtV)
  /-- VSLIDEDN (R167). -/
  | vslidedn (f : FmtV)
  /-- VCOMPRESS (R168). -/
  | vcompress (f : FmtV)
  /-- VEXPAND (R168). -/
  | vexpand (f : FmtV)
  /-- VLUT (R167). -/
  | vlut (f : FmtV)
  /-- VREDLOG (R161). -/
  | vredlog (f : FmtV)
  /-- VREDARG (R162). -/
  | vredarg (f : FmtV)
  /-- VLD (R182). -/
  | vld (f : FmtM)
  /-- VST (R182). -/
  | vst (f : FmtM)
  /-- VLDS (R182). -/
  | vlds (f : FmtM)
  /-- VSTS (R182). -/
  | vsts (f : FmtM)
  /-- VLSEG (R183). -/
  | vlseg (f : FmtM)
  /-- VSSEG (R183). -/
  | vsseg (f : FmtM)
  /-- VLBLK (R184). -/
  | vlblk (f : FmtM)
  /-- VSBLK (R184). -/
  | vsblk (f : FmtM)
  /-- VGATHW (R185). -/
  | vgathw (f : FmtM)
  /-- VGATH (R186). -/
  | vgath (f : FmtM)
  /-- VSCAT (R187). -/
  | vscat (f : FmtM)
  /-- VSCADD (R188). -/
  | vscadd (f : FmtM)
  /-- VAMO (R189). -/
  | vamo (f : FmtM)
  /-- QLD (R182). -/
  | qld (f : FmtM)
  /-- QLDS (R182). -/
  | qlds (f : FmtM)
  /-- QST (R182). -/
  | qst (f : FmtM)
  /-- QSTS (R182). -/
  | qsts (f : FmtM)
  /-- QGATH (R186). -/
  | qgath (f : FmtM)
  /-- VPREF (R190). -/
  | vpref (f : FmtM)
  /-- OXADD (R205). -/
  | oxadd (f : FmtX)
  /-- OXSUB (R205). -/
  | oxsub (f : FmtX)
  /-- OXWGT (R208). -/
  | oxwgt (f : FmtX)
  /-- MLDFF (R211). -/
  | mldff (f : FmtM)
  /-- MTALLOC (R196). -/
  | mtalloc (f : FmtE)
  /-- MTFREE (R196). -/
  | mtfree (f : FmtE)
  /-- MTLD (R212). -/
  | mtld (f : FmtM)
  /-- MTST (R212). -/
  | mtst (f : FmtM)
  /-- MTZERO (R213). -/
  | mtzero (f : FmtE)
  /-- MTMOV (R213). -/
  | mtmov (f : FmtE)
  /-- MWFILL (R209). -/
  | mwfill (f : FmtE)
  /-- MWINV (R210). -/
  | mwinv (f : FmtE)
  /-- MTROW (R214). -/
  | mtrow (f : FmtE)
  /-- CSTREAM (R222). -/
  | cstream (f : FmtE)
  /-- CTENSOR (R225). -/
  | ctensor (f : FmtE)
  /-- CREMAP (R238). -/
  | cremap (f : FmtE)
  /-- CWAIT (R231). -/
  | cwait (f : FmtE)
  /-- CSTAT (R232). -/
  | cstat (f : FmtE)
  /-- CHINT (R237). -/
  | chint (f : FmtE)
  /-- PBINV (R236). -/
  | pbinv (f : FmtE)
  /-- BKOP_ADD (R265). -/
  | bkopAdd (f : FmtE)
  /-- BKOP_MIN (R265). -/
  | bkopMin (f : FmtE)
  /-- BKOP_MAX (R265). -/
  | bkopMax (f : FmtE)
  /-- BKOP_FMA (R265). -/
  | bkopFma (f : FmtE)
  /-- BKOP_SCADD (R265). -/
  | bkopScadd (f : FmtE)
  /-- BKOP_ROWRED (R265). -/
  | bkopRowred (f : FmtE)
  /-- BKOP_ISCAT (R265). -/
  | bkopIscat (f : FmtE)
  /-- BKFENCE (R269). -/
  | bkfence (f : FmtY)
  /-- MBUILD (R313). -/
  | mbuild (f : FmtE)
  /-- MADAPT (R314). -/
  | madapt (f : FmtE)
  /-- MCOLOR (R316). -/
  | mcolor (f : FmtE)
  /-- MCUT (R317). -/
  | mcut (f : FmtE)
  /-- MMIGRATE (R318). -/
  | mmigrate (f : FmtE)
  /-- MGHOST (R319). -/
  | mghost (f : FmtE)
  /-- VNBR (R306). -/
  | vnbr (f : FmtM)
  /-- VFACE (R306). -/
  | vface (f : FmtM)
  /-- MFREE (R297). -/
  | mfree (f : FmtE)
  /-- MQUERY_WAIT (R320). -/
  | mqueryWait (f : FmtE)
  /-- MQUERY_COUNT (R320). -/
  | mqueryCount (f : FmtE)
  /-- TSUBMIT (R340). -/
  | tsubmit (f : FmtE)
  /-- TSIGNAL_PROGRESS (R341). -/
  | tsignalProgress (f : FmtE)
  /-- TSIGNAL_WRITE (R341). -/
  | tsignalWrite (f : FmtE)
  /-- TSIGNAL_ADD (R341). -/
  | tsignalAdd (f : FmtE)
  /-- TSTAT_WAIT (R342). -/
  | tstatWait (f : FmtE)
  /-- TSTAT_QUEUE (R342). -/
  | tstatQueue (f : FmtE)
  /-- TSTAT_HANDLE (R342). -/
  | tstatHandle (f : FmtE)
  /-- FENCE (R248). -/
  | fence (f : FmtY)
  /-- SBAR (R245). -/
  | sbar (f : FmtY)
  /-- VFBAR (R258). -/
  | vfbar (f : FmtY)
  /-- BSYNC (R258). -/
  | bsync (f : FmtY)
  /-- BARRIVE (R258). -/
  | barrive (f : FmtY)
  /-- BINIT (R257). -/
  | binit (f : FmtY)
  /-- RAMO (R382). -/
  | ramo (f : FmtA)
  /-- FSTAT (R383). -/
  | fstat (f : FmtE)
  /-- FREPLAY (R384). -/
  | freplay (f : FmtE)
  /-- FDISCARD (R384). -/
  | fdiscard (f : FmtE)
  /-- SWAPID_BIND (R385). -/
  | swapidBind (f : FmtE)
  /-- SWAPID_SHADOW (R385). -/
  | swapidShadow (f : FmtE)
  /-- SWAPID_UNSHADOW (R385). -/
  | swapidUnshadow (f : FmtE)
  /-- SWAPID_ASSUME (R381). -/
  | swapidAssume (f : FmtE)
  /-- SWAPID_UNBIND (R385). -/
  | swapidUnbind (f : FmtE)
  /-- XPROBE (R279). -/
  | xprobe (f : FmtA)
  /-- XINV (R280). -/
  | xinv (f : FmtA)
  /-- XINVALL (R280). -/
  | xinvall (f : FmtY)
  /-- TRAP (R364). -/
  | trap (f : FmtY)
  /-- TRET (R356). -/
  | tret (f : FmtY)
  /-- VSAVE (R360). -/
  | vsave (f : FmtE)
  /-- VRSTOR (R360). -/
  | vrstor (f : FmtE)
  /-- SSAVE (R361). -/
  | ssave (f : FmtE)
  /-- SRSTOR (R361). -/
  | srstor (f : FmtE)
  /-- IDLE (R364). -/
  | idle (f : FmtY)
  /-- DENYLOG_READ (R291). -/
  | denylogRead (f : FmtB)
  /-- UNASSIGNED_OPCODE (R69): a word whose opcode the map does not assign. -/
  | unassignedOpcode (op : BitVec 8) (payload : BitVec 55)
  /-- BLOCK_ENTRY (R61); the current thread enters the block at its pc. -/
  | blockEntry
  /-- VP_COHORT_ISSUE (R94); the current thread is the computer. -/
  | vpCohortIssue
  /-- VFETCH_COMPLETE (R93); of the current triad. -/
  | vfetchComplete
  /-- VCFG_RENDEZVOUS (R88). -/
  | vcfgRendezvous
  /-- VECTOR_ISSUE (R92); n: the core. -/
  | vectorIssue
  /-- RING_WAIT_RELEASE (R91). -/
  | ringWaitRelease
  /-- VECTOR_INSTRUCTION_COMPLETE (R57); n: the context number. -/
  | vectorInstructionComplete
  /-- MTALLOC_WAIT_RELEASE (R196). -/
  | mtallocWaitRelease
  /-- MWFILL_COMPLETE (R209); of the current thread. -/
  | mwfillComplete
  /-- CHANNEL_BUSY_RELEASE (R216). -/
  | channelBusyRelease
  /-- COPY_COMMAND_COMPLETE (R217); n: the context number, k: the channel, env: remote data. -/
  | copyCommandComplete
  /-- ENGINE_FAULT_PAUSE (R284); n: the context number, k: the channel, env: remote data. -/
  | engineFaultPause
  /-- WATERMARK_WAIT_RELEASE (R229). -/
  | watermarkWaitRelease
  /-- CWAIT_RELEASE (R231). -/
  | cwaitRelease
  /-- BKOP_QUEUE_ADMISSION (R264). -/
  | bkopQueueAdmission
  /-- BAU_APPLY (R267); n: the BAU. -/
  | bauApply
  /-- BKFENCE_RELEASE (R269). -/
  | bkfenceRelease
  /-- TOPOLOGY_QUEUE_ADMISSION (R308). -/
  | topologyQueueAdmission
  /-- TOPOLOGY_COMMAND_COMPLETE (R311); n: the die, k: which running command, env: remote data. -/
  | topologyCommandComplete
  /-- MFREE_RELEASE (R297). -/
  | mfreeRelease
  /-- MQUERY_WAIT_RELEASE (R320). -/
  | mqueryWaitRelease
  /-- TSUBMIT_SPACE_RELEASE (R340). -/
  | tsubmitSpaceRelease
  /-- TSTAT_WAIT_RELEASE (R342). -/
  | tstatWaitRelease
  /-- FENCE_RELEASE (R249). -/
  | fenceRelease
  /-- BARRIER_WAIT_RELEASE (R258). -/
  | barrierWaitRelease
  /-- BARRIER_DEADLOCK (R259); n: the core. -/
  | barrierDeadlock
  /-- FREPLAY_COMPLETE (R384). -/
  | freplayComplete
  /-- IDENTITY_CHANGE_APPLY (R385); ring: what the ring tells; flag: a change of another device, n: its LCN, k: its port, j: its OP,
  flag2: FORCE. -/
  | identityChangeApply
  /-- TRAP_ENTRY (R348). -/
  | trapEntry
  /-- PREEMPTED_GANG_RESUME (R365); n: the gang entry. -/
  | preemptedGangResume
  /-- QUAD_REBIND (R24); n: the die, k: the working quad, j: the mode. -/
  | quadRebind
  /-- RECORD_TAKE (R328); n: the queue. -/
  | recordTake
  /-- ZERO_GANG_COMPLETE (R329); n: the queue. -/
  | zeroGangComplete
  /-- ADMISSION (R330). -/
  | admission
  /-- GANG_PLACEMENT (R331). -/
  | gangPlacement
  /-- TRIAD_START (R333); n: the gang entry. -/
  | triadStart
  /-- TRIAD_RETIRE (R85); n: the context number. -/
  | triadRetire
  /-- WATCHDOG_LIMIT_EXPIRY (R338); n: the queue. -/
  | watchdogLimitExpiry
  /-- WATCHDOG_GRACE_EXPIRY (R338); n: the queue. -/
  | watchdogGraceExpiry
  /-- HEARTBEAT_SEND (R376). -/
  | heartbeatSend
  /-- PEER_SILENCE_EXPIRY (R376); n: the LCN, or with flag the port of a replica. -/
  | peerSilenceExpiry
  /-- DEATH_NOTICE (R376); n: the LCN, or with flag the port of a replica. -/
  | deathNotice
  /-- FRAME_ARBITRATION (R372); env: parts: what other inputs request, as input + 144·(output + 144·flits); flag: slice k
  sends the CRC of the grants in data, or none for no data. -/
  | frameArbitration
  /-- DOMAIN_RESET (R373); flag: slice k alone disagreed. -/
  | domainReset
  /-- DOMAIN_RESET_RETRAINED (R373). -/
  | domainResetRetrained
  /-- FABRIC_READ (R374); txn. -/
  | fabricRead
  /-- READ_RESPONSE (R371); txn. -/
  | readResponse
  /-- FABRIC_WRITE (R374); txn. -/
  | fabricWrite
  /-- RETURNING_ATOMIC (R374); txn. -/
  | returningAtomic
  /-- ATOMIC_RESPONSE (R382); txn. -/
  | atomicResponse
  /-- FABRIC_ACK (R374); txn. -/
  | fabricAck
  /-- FABRIC_NACK (R374); txn. -/
  | fabricNack
  /-- HEARTBEAT (R376); txn. -/
  | heartbeat
  /-- SHADOW_WRITE (R380); txn. -/
  | shadowWrite
  /-- RESULT_LOG_READ (R374); txn. -/
  | resultLogRead
  /-- SHADOW_SWEEP_COMPLETE (R380); n: the LCN. -/
  | shadowSweepComplete
  /-- REPLAY_ROOM_RELEASE (R375). -/
  | replayRoomRelease
  /-- EXPANDER_READ_TIMEOUT (R388); n: the port, k: the context number, j: the channel. -/
  | expanderReadTimeout
  /-- HOST_CXL_MEM_REQUEST (R386); who: the port, n: the address, data: the bytes of a write. -/
  | hostCxlMemRequest
  /-- SEM_ACQUIRE (R393); who, value. -/
  | semAcquire
  /-- SEM_RELEASE (R393); who, value. -/
  | semRelease
  /-- SEM_RENEW (R393); who, value. -/
  | semRenew
  /-- SEM_LEASE_LAPSE (R393). -/
  | semLeaseLapse
  /-- ISOCLR (R388); who, n: the port. -/
  | isoclr
  /-- POOL_WRITE (R390); who, value. -/
  | poolWrite
  /-- IDCMD_BIND (R390); who, n: the LCN, k: the port. -/
  | idcmdBind
  /-- IDCMD_SHADOW (R390); who, n: the LCN, k: the port. -/
  | idcmdShadow
  /-- IDCMD_UNSHADOW (R390); who, n: the LCN. -/
  | idcmdUnshadow
  /-- IDCMD_ASSUME (R390); who, n: the LCN, flag: force. -/
  | idcmdAssume
  /-- IDCMD_UNBIND (R390); who, n: the LCN. -/
  | idcmdUnbind
  /-- PWRLIM_WRITE (R391); who, value. -/
  | pwrlimWrite
  /-- KEY_LOAD (R390); who, n: the slot. -/
  | keyLoad
  /-- KEY_EMPTY (R390); who, n: the slot. -/
  | keyEmpty
  /-- QUEUE_ENABLE (R323); who, n: the queue, value. -/
  | queueEnable
  /-- QUEUE_RESET (R323); who, n: the queue, value. -/
  | queueReset
  /-- QUEUE_DOORBELL (R321); who, n: the queue, value. -/
  | queueDoorbell
  /-- ATTESTATION_QUOTE (R396); nonce. -/
  | attestationQuote
  /-- CONTROL_REGISTER_WRITE (R390); who, n: the offset, value. -/
  | controlRegisterWrite
  /-- DEVICE_RESET (R387); flag, flag2: the straps of ports 0 and 1 say expander. -/
  | deviceReset
  /-- FIRMWARE_VERIFY (R396); flag: the signature holds. -/
  | firmwareVerify
  /-- REDUCED_SERVICE_START (R395). -/
  | reducedServiceStart
  /-- FULL_SERVICE_START (R395). -/
  | fullServiceStart
  /-- POWER_LIMIT_THROTTLE (R28). -/
  | powerLimitThrottle
  /-- THERMAL_THROTTLE (R398). -/
  | thermalThrottle
  /-- THERMAL_TRIP (R398). -/
  | thermalTrip
  /-- D3HOT_ENTRY (R397). -/
  | d3hotEntry
  /-- POWER_REMOVAL (R397). -/
  | powerRemoval
  /-- FABRIC_PORT_UP (R367); n: the port that link training gave. -/
  | fabricPortUp
  /-- CXL_LINK_UP (R388); n: the port. -/
  | cxlLinkUp
  /-- RESULT_LOG_AGEING (R374). -/
  | resultLogAgeing
  /-- SWAP_MARK_RECEIPT (R381); n: the LCN, k: the mark. -/
  | swapMarkReceipt
  /-- HBM_TRAINING_FAILED (R394). -/
  | hbmTrainingFailed
  /-- FULL_RATE_TRAINING_COMPLETE (R395). -/
  | fullRateTrainingComplete
  /-- D3HOT_EXIT (R397). -/
  | d3hotExit
  deriving DecidableEq, Repr

end Sys2Proof
end

