-- ==== Sys2Proof/WellFormed.lean ====
section
/-! DEFINITION. Which field values are legal for which instruction: the checks that trap ILLOP at decode, the first
group of R77 (reserved fields and OPV of R13, R68 and R70, and the codes that R67 marks ILLOP). Checks that trap PRIV
or ILLOPND need the issuing thread and stand with the meanings. -/

namespace Sys2Proof

/-- Why a word is refused at decode. Every one of them traps ILLOP (R13, R67, R69, R70). -/
inductive Reject
  /-- a reserved field or bit is not zero (R13, R68) -/
  | reservedField
  /-- a type code that the entry does not take (R67, R109, R114) -/
  | typeCode
  /-- an OPV or sub-operation value that the entry does not define (R70) -/
  | opvValue
  /-- a condition, scope, cache, rounding or width code that R67 marks ILLOP -/
  | codedField
  /-- a shift count, bit field or state register number outside its range (R112, R113, R123) -/
  | operandRange
  /-- not an instruction: an event row has no word -/
  | notAWord
  deriving DecidableEq, Repr

/-- The first refusal of a list of checks, if any. -/
def firstBad : List (Bool × Reject) → Option Reject
  | [] => none
  | (ok, r) :: t => if ok then firstBad t else some r

def isIntT (t : BitVec 4) : Bool := t.toNat ≤ 7 || t == 15#4
def isFpT (t : BitVec 4) : Bool := 8 ≤ t.toNat && t.toNat ≤ 11
def isAnyT (t : BitVec 4) : Bool := t.toNat ≤ 11
def isLegT (t : BitVec 4) : Bool := t.toNat ≤ 11 || t == 15#4

/-- The width in bits that an integer type code gives; 15 means 64 (R109). -/
def intTWidth (t : BitVec 4) : Nat :=
  match t.toNat with
  | 0 | 4 => 8
  | 1 | 5 => 16
  | 2 | 6 => 32
  | _ => 64

def scopeOk (s : BitVec 3) : Bool := s.toNat ≤ 5

/-- A register field that holds a number below 2^k has its high bits reserved (R68). -/
def fits (k : Nat) (f : BitVec 6) : Bool := f.toNat < 2 ^ k

/-- A vector field: with its ring flag set it names a ring in its low three bits (R66, R68). -/
def ringFits (q : Bool) (f : BitVec 6) : Bool := !q || f.toNat < 8

/-- Three-operand integer rows (R110): OPV up to `maxOpv`, xc and imm16 reserved, xb too when `one`. -/
def wfAlu (f : FmtA) (maxOpv : Nat) (one : Bool) : Option Reject :=
  firstBad [(isIntT f.t, .typeCode), (f.opv.toNat ≤ maxOpv, .opvValue),
    (f.xc == 0#6 && f.imm16 == 0#16 && (!one || f.xb == 0#6), .reservedField)]

/-- Immediate rows with an integer type (R112). -/
def wfImm (f : FmtB) (maxOpv : Nat) : Option Reject :=
  firstBad [(isIntT f.t, .typeCode), (f.opv.toNat ≤ maxOpv, .opvValue)]

/-- Immediate shifts: imm32 lies in 0 to w − 1 (R112). -/
def wfShiftImm (f : FmtB) : Option Reject :=
  firstBad [(isIntT f.t, .typeCode), (f.opv == 0#7, .opvValue), (f.imm32.toNat < intTWidth f.t, .operandRange)]

/-- The subfields of OPV in a scalar floating-point word (R114). -/
def fpSub (f : FmtA) : Nat := f.opv.toNat / 256
def fpFtz (f : FmtA) : Bool := f.opv.toNat / 32 % 2 == 1
def fpDaz (f : FmtA) : Bool := f.opv.toNat / 16 % 2 == 1
def fpSat (f : FmtA) : Bool := f.opv.toNat / 8 % 2 == 1
def fpRm (f : FmtA) : Nat := f.opv.toNat % 8

/-- Rounding scalar floating-point rows (R114, R115). -/
def wfFp (f : FmtA) (maxSub : Nat) (useB useC : Bool) : Option Reject :=
  firstBad [(isFpT f.t, .typeCode), (fpSub f ≤ maxSub, .opvValue), (fpRm f != 6, .codedField),
    (f.opv.toNat / 64 % 4 == 0 && f.imm16 == 0#16 && (useB || f.xb == 0#6) && (useC || f.xc == 0#6), .reservedField)]

/-- FCMP, FCLASS and FSGN: SAT, FTZ and RM are reserved (R116). -/
def wfFpBits (f : FmtA) (maxSub : Nat) (useB daz : Bool) : Option Reject :=
  firstBad [(isFpT f.t, .typeCode), (fpSub f ≤ maxSub, .opvValue),
    (f.opv.toNat % 256 / 32 == 0 && f.opv.toNat % 16 == 0 && (daz || !fpDaz f) && f.imm16 == 0#16 &&
      (useB || f.xb == 0#6) && f.xc == 0#6, .reservedField)]

/-- The types of the scalar atomics (R121). -/
def atomicT (t : BitVec 4) : Bool := t == 2#4 || t == 3#4 || t == 6#4 || t == 7#4 || t == 8#4 || t == 9#4

/-- Whether R121's table allows an operation for a type. -/
def atomicOpOk (op : Nat) (t : BitVec 4) : Bool :=
  if op ≤ 5 then t.toNat ≤ 7 else if op = 6 then true else if op = 7 then (t == 8#4 || t == 9#4) else false

/-- The subfields of seg (R67). -/
def segNf (f : FmtM) : Nat := f.seg.toNat / 32
def segWm (f : FmtM) : Nat := f.seg.toNat / 8 % 4
def segWr (f : FmtM) : Nat := f.seg.toNat / 2 % 4
def segS (f : FmtM) : Bool := f.seg.toNat % 2 == 1

/-- Coded fields of format M (R67). -/
def wfM (f : FmtM) : List (Bool × Reject) :=
  [(scopeOk f.scope, .codedField), (f.cache != 3#2, .codedField)]

/-- Vector memory rows with the seg field of R67: NF zero unless `nf`, S zero when WR = WM. -/
def wfVm (f : FmtM) (nf ring : Bool) (extra : Bool) : Option Reject :=
  firstBad (wfM f ++ [((nf || segNf f == 0) && !(segWr f == segWm f && segS f) && ringFits ring f.v && extra,
    .reservedField)])

/-- The kinds of format-V fields: unused, a vector register or ring, a mask, a scalar. -/
inductive VUse
  | no | vec | mask | scal
  deriving DecidableEq, Repr

/-- A format-V field against its use (R68, R139). -/
def useOk (u : VUse) (f : BitVec 6) (q : Bool) : Bool :=
  match u with
  | .no => f == 0#6 && !q
  | .vec => ringFits q f
  | .mask => fits 4 f && !q
  | .scal => !q

def qd (f : FmtV) : Bool := f.q.getLsbD 3
def qa (f : FmtV) : Bool := f.q.getLsbD 2
def qb (f : FmtV) : Bool := f.q.getLsbD 1
def qc (f : FmtV) : Bool := f.q.getLsbD 0

/-- Format-V rows (R139, R151): the uses of vd, va, vb, vc, whether the row reads a legend, whether it rounds,
whether its type code and its OPV are legal. -/
def wfV (f : FmtV) (d a b c : VUse) (legend rounds tOk opvOk : Bool) : Option Reject :=
  firstBad [(tOk, .typeCode), (opvOk, .opvValue), (if rounds then f.rm != 6#3 else f.rm == 7#3, .codedField),
    (useOk d f.vd (qd f) && useOk a f.va (qa f) && useOk b f.vb (qb f) && useOk c f.vc (qc f) &&
      (legend || f.xl == 0#6), .reservedField)]

/-- Mask rows 0x80 to 0x8A: T 15, rm 7, xl, grp and Q reserved (R149). -/
def wfMask (f : FmtV) (d a b : VUse) (opvOk : Bool) : Option Reject :=
  match wfV f d a b .no false false (f.t == 15#4) opvOk with
  | none => firstBad [(f.grp == 0#2, .reservedField)]
  | r => r

def fnBits (f : FmtE) (lo n : Nat) : Nat := f.fn.toNat / 2 ^ lo % 2 ^ n

/-- Format-E rows: the unused registers, unit bits and fn bits are zero. -/
def wfE (f : FmtE) (useD useA useB useC : Bool) (unitBits fnUsed : Nat) (more : List (Bool × Reject)) : Option Reject :=
  firstBad (more ++ [((useD || f.xd == 0#6) && (useA || f.xa == 0#6) && (useB || f.xb == 0#6) && (useC || f.xc == 0#6) &&
    f.unit.toNat < 2 ^ unitBits && f.fn.toNat < 2 ^ fnUsed, .reservedField)])

/-- Format-Y rows. -/
def wfY (f : FmtY) (useD useA useImm useScope : Bool) (fnUsed : Nat) (more : Bool) : Option Reject :=
  firstBad [(!useScope || scopeOk f.scope, .codedField),
    ((useD || f.xd == 0#6) && (useA || f.xa == 0#6) && (useImm || f.imm8 == 0#8) && (useScope || f.scope == 0#3) &&
      f.fn.toNat < 2 ^ fnUsed && more, .reservedField)]

/-- Bank commands (R263): the row's OP, FMT other than 3, RED used by ROWRED only. -/
def wfBkop (f : FmtE) (op : Nat) (useB useU red : Bool) : Option Reject :=
  firstBad [(fnBits f 0 4 == op, .opvValue), (fnBits f 4 2 != 3, .codedField), (fnBits f 6 2 != 3, .codedField),
    ((useB || f.xb == 0#6) && (useU || f.unit == 0#7) && f.unit.toNat < 64 && (red || fnBits f 6 2 == 0) &&
      f.fn.toNat < 1024, .reservedField)]

/-- The state register numbers that R107 assigns. -/
def stateRegOk (n : Nat) : Bool := n ≤ 0x020 || (0x800 ≤ n && n ≤ 0x80A)

/-- The number field of MFSR and MTSR (R123). -/
def stateRegNo (f : FmtB) : Nat := f.imm32.toNat % 4096

/-- MFSR and MTSR words (R123). -/
def wfSr (f : FmtB) (unused : BitVec 6) : Option Reject :=
  firstBad [(f.opv == 0#7, .opvValue), (f.t == 15#4, .typeCode),
    (f.imm32.toNat < 4096 && unused == 0#6, .reservedField), (stateRegOk (stateRegNo f), .operandRange)]

/-- Bit-field rows: pos + len at most 64, imm16[15:12] reserved (R113). -/
def wfField (f : FmtA) (maxOpv : Nat) (useB : Bool) : Option Reject :=
  firstBad [(f.t == 15#4, .typeCode), (f.opv.toNat ≤ maxOpv, .opvValue),
    (f.xc == 0#6 && (useB || f.xb == 0#6) && f.imm16.toNat < 4096, .reservedField),
    (f.imm16.toNat % 64 + f.imm16.toNat / 64 % 64 + 1 ≤ 64, .operandRange)]

/-- The opcodes that the map assigns (R69, R70). -/
def assignedOp (op : Nat) : Bool :=
  (0x01 ≤ op && op ≤ 0x2D) || (0x30 ≤ op && op ≤ 0x37) || (0x40 ≤ op && op ≤ 0x49) || (0x50 ≤ op && op ≤ 0x7B) || (0x80 ≤ op && op ≤ 0x8A)
  || (0x90 ≤ op && op ≤ 0xA3) || (0xA8 ≤ op && op ≤ 0xBA) || (0xC0 ≤ op && op ≤ 0xCC) || (0xD0 ≤ op && op ≤ 0xD6) || op == 0xD8 || (0xDA ≤ op && op ≤ 0xE6) || (0xE8 ≤ op && op ≤ 0xF6) || (0xF8 ≤ op && op ≤ 0xFE)

/-- The first check of the ILLOP group of R77 that a word's fields fail, if any. Event rows are no words. -/
def illegal : Instr → Option Reject
  | .add f | .sub f | .mul f => wfAlu f 1 false
  | .mulh f | .div f | .rem f | .and f | .or f | .xor f | .shl f | .shr f | .sra f | .rotl f | .min f | .max f =>
    wfAlu f 0 false
  | .clz f | .ctz f | .popc f | .brev f => wfAlu f 0 true
  | .cmp f => firstBad [(isIntT f.t, .typeCode), (f.opv.toNat < 8, .reservedField), (f.opv.toNat != 7, .codedField),
      (f.xc == 0#6 && f.imm16 == 0#16, .reservedField)]
  | .sel f => firstBad [(f.t == 15#4, .typeCode), (f.opv == 0#11, .opvValue), (f.imm16 == 0#16, .reservedField)]
  | .lea f => firstBad [(f.t == 15#4, .typeCode), (f.opv.toNat < 4, .opvValue), (f.xc == 0#6, .reservedField)]
  | .bext f => wfField f 1 false
  | .bins f => wfField f 0 true
  | .addi f => wfImm f 1
  | .andi f | .ori f | .xori f => wfImm f 0
  | .shli f | .shri f | .srai f => wfShiftImm f
  | .cmpi f => firstBad [(isIntT f.t, .typeCode), (f.opv.toNat < 8, .reservedField), (f.opv.toNat != 7, .codedField)]
  | .movi f => firstBad [(f.t == 15#4, .typeCode), (f.opv == 0#7, .opvValue), (f.xa == 0#6, .reservedField)]
  | .movhi f => firstBad [(f.t == 15#4, .typeCode), (f.opv == 0#7, .opvValue)]
  | .fadd f | .fsub f | .fmul f | .fdiv f => wfFp f 0 true false
  | .fsqrt f => wfFp f 0 false false
  | .ffma f => wfFp f 0 true true
  | .fmin f | .fmax f => wfFp f 1 true false
  | .fcmp f => wfFpBits f 4 true true
  | .fclass f => wfFpBits f 0 false false
  | .fsgn f => wfFpBits f 2 true true
  | .fcvt f => firstBad [(isAnyT f.t && f.imm16.toNat % 16 ≤ 11, .typeCode), (fpSub f == 0, .opvValue),
      (fpRm f != 6, .codedField),
      (f.opv.toNat / 64 % 4 == 0 && f.imm16.toNat < 16 && f.xb == 0#6 && f.xc == 0#6, .reservedField)]
  | .ld f => firstBad (wfM f ++ [(f.m == 0#4 && f.o == 0#1 && f.d == 0#1 && segNf f == 0 && segWr f == 0 &&
      !(segWm f == 3 && segS f), .reservedField)])
  | .st f => firstBad (wfM f ++ [(f.m == 0#4 && f.o == 0#1 && f.d == 0#1 && segNf f == 0 && segWr f == 0 &&
      !(segS f), .reservedField)])
  | .amo f => firstBad [(atomicT f.t && atomicOpOk (f.opv.toNat % 16) f.t, .typeCode),
      (f.opv.toNat / 16 % 8 ≤ 5, .codedField), (f.opv.toNat < 128 && f.xc == 0#6, .reservedField)]
  | .cas f => firstBad [(atomicT f.t, .typeCode), (f.opv.toNat % 16 == 0, .opvValue),
      (f.opv.toNat / 16 % 8 ≤ 5, .codedField), (f.opv.toNat < 128, .reservedField)]
  | .ldw f => firstBad [(isLegT f.t, .typeCode), (f.opv.toNat < 8, .reservedField)]
  | .mfsr f => firstBad [(stateRegNo f != 0x809, .notAWord)] |>.orElse fun _ => wfSr f f.xa
  | .denylogRead f => firstBad [(stateRegNo f == 0x809, .notAWord)] |>.orElse fun _ => wfSr f f.xa
  | .mtsr f => wfSr f f.xd
  | .bc f => firstBad [(f.cond != 7#3, .codedField)]
  | .bal f | .jr f | .loop f => firstBad [(f.xb == 0#6 && f.cond == 0#3, .reservedField)]
  | .jalr f => firstBad [(f.cond == 0#3, .reservedField)]
  | .exit f | .nop f | .vjoin f | .tret f | .idle f => wfY f false false false false 0 true
  | .vfetch f => firstBad [(f.cond.toNat ≤ 3, .codedField), (fits 4 f.xa, .reservedField)]
  | .vpbr f => firstBad [(f.cond != 7#3, .codedField)]
  | .setvl f => firstBad [(isAnyT f.t, .typeCode), (f.opv == 0#11, .opvValue), (f.xb == 0#6 && f.xc == 0#6, .reservedField)]
  | .vcfg f => firstBad [(f.t == 15#4, .typeCode), (f.opv == 0#11, .opvValue),
      (f.xb == 0#6 && f.xc == 0#6 && f.imm16 == 0#16, .reservedField)]
  | .vadd f | .vsub f | .vmul f | .vdiv f | .vrem f | .vavg f | .vscalb f =>
    wfV f .vec .vec .vec .no true true (isLegT f.t) (f.opv == 0#8)
  | .vmulh f => wfV f .vec .vec .vec .no true false (isLegT f.t) (f.opv == 0#8)
  | .vmin f | .vmax f => wfV f .vec .vec .vec .no true false (isLegT f.t) (f.opv.toNat ≤ 1)
  | .vabs f | .vneg f | .vsqrt f | .vrsqrt f | .vrcp f | .vlogb f =>
    wfV f .vec .vec .no .no true true (isLegT f.t) (f.opv == 0#8)
  | .vfma f | .vfms f | .vfnma f | .vfnms f => wfV f .vec .vec .vec .vec true true (isLegT f.t) (f.opv == 0#8)
  | .vclamp f => wfV f .vec .vec .vec .vec true false (isLegT f.t) (f.opv == 0#8)
  | .vclass f => wfV f .vec .vec .no .no true false (isLegT f.t) (f.opv == 0#8)
  | .vand f | .vor f | .vxor f | .vandn f => wfV f .vec .vec .vec .no false false (isAnyT f.t) (f.opv == 0#8)
  | .vnot f => wfV f .vec .vec .no .no false false (isAnyT f.t) (f.opv == 0#8)
  | .vshl f | .vshr f | .vsra f | .vrotl f => wfV f .vec .vec .vec .no false false (f.t.toNat ≤ 7) (f.opv == 0#8)
  | .vclz f | .vpopc f | .vbrev f => wfV f .vec .vec .no .no false false (f.t.toNat ≤ 7) (f.opv == 0#8)
  | .vcmp f => wfV f .mask .vec .vec .no true false (isLegT f.t) (f.opv.toNat < 7)
  | .vsel f => wfV f .vec .vec .vec .vec false false (isAnyT f.t) (f.opv == 0#8)
  | .vmerge f => wfV f .vec .vec .vec .mask false false (isAnyT f.t) (f.opv == 0#8)
  | .vbcast f => wfV f .vec .scal .no .no false false (isAnyT f.t) (f.opv == 0#8)
  | .vramp f => wfV f .vec .scal .scal .no false false (f.t.toNat ≤ 7) (f.opv.toNat ≤ 1)
  | .vmovx f => wfV f .scal .vec .scal .no false false (isAnyT f.t) (f.opv == 0#8)
  | .vinsx f => wfV f .vec .scal .scal .no false false (isAnyT f.t) (f.opv == 0#8)
  | .vmov f => wfV f .vec .vec .no .no false false (isAnyT f.t) (f.opv == 0#8)
  | .vmand f | .vmor f | .vmxor f | .vmandn f => wfMask f .mask .mask .mask (f.opv == 0#8)
  | .vmnot f | .vmmov f => wfMask f .mask .mask .no (f.opv == 0#8)
  | .vmpop f | .vmfirst f => wfMask f .scal .mask .no (f.opv == 0#8)
  | .vmsetf f => wfMask f .mask .mask .no (f.opv.toNat ≤ 1)
  | .vmtox f => wfMask f .scal .mask .scal (f.opv == 0#8)
  | .vmfromx f => wfMask f .mask .scal .scal (f.opv == 0#8)
  | .vcvt f => wfV f .vec .vec .no .no true true (isLegT f.t) (f.opv == 0#8)
  | .vpackQuant f => wfV f .vec .vec .no .no true true (isFpT f.t || f.t == 15#4) (f.opv == 0#8)
  | .vpackDense f => wfV f .vec .vec .no .no true false (f.t == 15#4) (f.opv == 1#8)
  | .vunpack f => wfV f .vec .vec .no .no true false (f.t == 15#4) (f.opv == 0#8)
  | .vredsum f => wfV f .vec .vec .no .no true true (isLegT f.t) (f.opv == 0#8)
  | .vredmin f | .vredmax f =>
    wfV f .vec .vec .no .no true false (f.t.toNat ≤ 3 || isFpT f.t || f.t == 15#4) (f.opv.toNat ≤ 1)
  | .vreddot f => wfV f .vec .vec .vec .no true true (isLegT f.t) (f.opv == 0#8)
  | .vscan f => wfV f .vec .vec .no .no true true (isLegT f.t) (f.opv.toNat < 6)
  | .vwelf f => wfV f .vec .vec .no .no true true (f.t == 8#4 || f.t == 9#4 || f.t == 15#4) (f.opv == 0#8)
  | .vwmerge f => wfV f .vec .vec .vec .no true true (f.t == 8#4 || f.t == 9#4 || f.t == 15#4) (f.opv == 0#8)
  | .vtopk f => wfV f .vec .vec .scal .scal true false (isLegT f.t) (f.opv.toNat ≤ 3)
  | .vperm f | .vlut f => wfV f .vec .vec .vec .no false false (isAnyT f.t) (f.opv == 0#8)
  | .vshuf f => wfV f .vec .vec .scal .no false false (isAnyT f.t) (f.opv.toNat ≤ 2)
  | .vslideup f | .vslidedn f => wfV f .vec .vec .scal .no false false (isAnyT f.t) (f.opv == 0#8)
  | .vcompress f => wfV f .vec .vec .mask .scal false false (isAnyT f.t) (f.opv == 0#8)
  | .vexpand f => wfV f .vec .vec .mask .no false false (isAnyT f.t) (f.opv == 0#8)
  | .vredlog f => wfV f .vec .vec .no .no false false (isAnyT f.t) (f.opv.toNat ≤ 2)
  | .vredarg f => wfV f .scal .vec .no .no true false (f.t.toNat ≤ 3 || isFpT f.t || f.t == 15#4) (f.opv.toNat ≤ 3)
  | .vld f | .vst f | .vlds f | .vsts f | .vgath f | .vscat f => wfVm f false false true
  | .vlseg f | .vsseg f => wfVm f true false true
  | .vlblk f | .vsblk f => firstBad (wfM f ++ [(segNf f == 0, .reservedField)])
  | .vgathw f => wfVm f false false (f.imm16.toNat / 16 % 8 == 0)
  | .vscadd f => firstBad (wfM f ++ [(segNf f == 0 && ringFits false f.v && f.imm16.toNat / 16 % 64 == 0, .reservedField)])
  | .vamo f => match wfVm f false false (f.imm16.toNat / 2 % 128 == 0) with
    | none => firstBad [(atomicT (BitVec.ofNat 4 (f.imm16.toNat / 4096)) &&
        atomicOpOk (f.imm16.toNat / 256 % 16) (BitVec.ofNat 4 (f.imm16.toNat / 4096)), .typeCode)]
    | r => r
  | .qld f | .qlds f | .qst f | .qsts f | .qgath f => wfVm f false true true
  | .vpref f => firstBad [(f.cache != 3#2, .codedField), (f.v == 0#6 && f.scope == 0#3 && f.o == 0#1 && f.d == 0#1 &&
      segNf f == 0 && segWr f == 0 && !(segS f), .reservedField)]
  | .oxadd f | .oxsub f => firstBad [(isFpT f.t || f.t == 15#4, .typeCode),
      (f.rsv == 0#2 && f.opv.toNat < 128 && f.opv.toNat / 2 % 2 == 0 && ringFits (f.q.getLsbD 1) f.va &&
        ringFits (f.q.getLsbD 0) f.vb, .reservedField)]
  | .oxwgt f => firstBad [(isFpT f.t || f.t == 15#4, .typeCode),
      (f.rsv == 0#2 && f.opv.toNat < 128 && !(f.q.getLsbD 0) && ringFits (f.q.getLsbD 1) f.va, .reservedField)]
  | .mldff f => wfVm f false false (f.imm16.toNat < 64)
  | .mtalloc f => wfE f true false false false 0 11 []
  | .mtfree f => wfE f true false false false 0 9 []
  | .mtld f | .mtst f => wfVm f false false (fits 3 f.v)
  | .mtzero f => wfE f false false false false 3 0 []
  | .mtmov f => wfE f false false false false 3 5 [(fnBits f 3 2 != 3, .opvValue)]
  | .mwfill f => wfE f true true true true 0 0 []
  | .mwinv f => wfE f false true true false 0 0 []
  | .mtrow f => wfE f true false true false 3 1 []
  | .cstream f => wfE f true true true true 4 5 [(!(fnBits f 0 2 == fnBits f 2 2 && fnBits f 4 1 == 1), .reservedField)]
  | .ctensor f => wfE f true true true true 4 3 []
  | .cremap f => wfE f true true true true 4 7 []
  | .cwait f => wfE f true false false false 0 16 []
  | .cstat f => wfE f true false false false 4 0 []
  | .chint f => wfE f true true true false 0 2 []
  | .pbinv f => wfE f false false false false 0 4 []
  | .bkopAdd f => wfBkop f 0 true false false
  | .bkopMin f => wfBkop f 1 true false false
  | .bkopMax f => wfBkop f 2 true false false
  | .bkopFma f => wfBkop f 3 true true false
  | .bkopScadd f => wfBkop f 4 true true false
  | .bkopRowred f => wfBkop f 5 false true true
  | .bkopIscat f => wfBkop f 6 true true false
  | .bkfence f => wfY f true false false true 0 true
  | .mbuild f | .madapt f | .mcolor f | .mcut f | .mmigrate f | .mghost f | .mfree f => wfE f true true false false 0 0 []
  | .vnbr f => firstBad (wfM f ++ [(f.seg.toNat / 8 % 8 != 7, .codedField),
      (f.seg.toNat % 8 == 0 && f.imm16.toNat < 32 && ringFits (f.seg.toNat ≥ 128) f.v, .reservedField)])
  | .vface f => firstBad (wfM f ++ [(f.seg.toNat / 8 % 8 != 7, .codedField),
      (f.seg.toNat % 8 == 0 && f.imm16 == 0#16 && ringFits (f.seg.toNat ≥ 128) f.v, .reservedField)])
  | .mqueryWait f => wfE f true true false false 0 4 [(fnBits f 0 4 == 0, .opvValue)]
  | .mqueryCount f => wfE f true true false false 0 4 [(fnBits f 0 4 != 0 && fnBits f 0 4 ≤ 7, .opvValue)]
  | .tsubmit f => wfE f true true false false 7 1 []
  | .tsignalProgress f => wfE f true false false false 0 2 [(fnBits f 0 2 == 0, .opvValue)]
  | .tsignalWrite f => wfE f true true true false 0 2 [(fnBits f 0 2 == 1, .opvValue)]
  | .tsignalAdd f => wfE f true true true false 0 2 [(fnBits f 0 2 == 2, .opvValue)]
  | .tstatWait f => wfE f true true false false 0 4 [(fnBits f 0 4 == 0, .opvValue)]
  | .tstatQueue f => wfE f true false false false 7 4 [(fnBits f 0 4 == 1, .opvValue)]
  | .tstatHandle f => wfE f true false false false 5 4 [(2 ≤ fnBits f 0 4 && fnBits f 0 4 ≤ 5, .opvValue)]
  | .fence f => wfY f true false false true 0 true
  | .sbar f => wfY f false false true true 0 (f.imm8.toNat < 16)
  | .vfbar f => wfY f true false true true 1 true
  | .bsync f => wfY f true true true false 1 (f.fn == 1#32 || f.xa == 0#6)
  | .barrive f => wfY f true false true false 0 true
  | .binit f => wfY f true true true false 0 true
  | .ramo f => firstBad [(atomicT f.t && (f.opv.toNat % 16 == 8 || atomicOpOk (f.opv.toNat % 16) f.t), .typeCode),
      (f.opv.toNat < 16 && (f.opv.toNat % 16 == 8 || f.xc == 0#6), .reservedField)]
  | .fstat f => wfE f true true (fnBits f 0 4 == 2 || fnBits f 0 4 == 3) false 0 4 [(fnBits f 0 4 ≤ 4, .opvValue)]
  | .freplay f | .fdiscard f => wfE f true true false false 0 0 []
  | .swapidBind f => wfE f true true true false 0 3 [(fnBits f 0 3 == 0, .opvValue)]
  | .swapidShadow f => wfE f true true true false 0 3 [(fnBits f 0 3 == 1, .opvValue)]
  | .swapidUnshadow f => wfE f true true false false 0 3 [(fnBits f 0 3 == 2, .opvValue)]
  | .swapidAssume f => wfE f true true false false 0 4 [(fnBits f 0 3 == 3, .opvValue)]
  | .swapidUnbind f => wfE f true true false false 0 3 [(fnBits f 0 3 == 4, .opvValue)]
  | .xprobe f => firstBad [(f.t == 15#4, .typeCode), (f.opv.toNat < 4 && f.xb == 0#6 && f.xc == 0#6, .reservedField)]
  | .xinv f => firstBad [(f.t == 15#4, .typeCode), (f.opv.toNat % 8 ≤ 5, .codedField),
      (f.opv.toNat < 16 && f.xd == 0#6 && f.xc == 0#6, .reservedField)]
  | .xinvall f => wfY f false true false true 1 (f.fn == 0#32 || f.xa == 0#6)
  | .trap f => wfY f false false true false 0 true
  | .vsave f | .ssave f | .srstor f => wfE f true true false false 0 0 []
  | .vrstor f => wfE f true true false false 0 1 [(f.fn == 0#24 || f.xa == 0#6, .reservedField)]
  | .unassignedOpcode op _ => if assignedOp op.toNat then some .notAWord else none
  | _ => some .notAWord

/-- The fields of a word's instruction are legal (R13, R67, R68, R70). -/
def wellFormed (i : Instr) : Bool := (illegal i).isNone

end Sys2Proof
end

