-- ==== Sys2Proof/Decode.lean ====
section
/-! DEFINITION. The decoder and the encoder: formats (R65, R66), the opcode map (R69), the variants that one opcode's
OPV selects, and the word of a well-formed instruction. -/

namespace Sys2Proof

/-- Bits [lo + n - 1 : lo] of a word as a field of n bits. -/
abbrev fld (w : Word) (lo n : Nat) : BitVec n := w.extractLsb' lo n

/-- E, the end-of-block bit (R60). -/
def wordE (w : Word) : Bool := w.getLsbD 63

/-- The primary opcode, bits [62:55] (R60). -/
def wordOp (w : Word) : BitVec 8 := fld w 55 8

/-- The fields of format A (R65, R66). -/
def unpackA (w : Word) : FmtA := ⟨fld w 49 6, fld w 43 6, fld w 37 6, fld w 31 6, fld w 20 11, fld w 16 4, fld w 0 16⟩

/-- The fields of format B (R65, R66). -/
def unpackB (w : Word) : FmtB := ⟨fld w 49 6, fld w 43 6, fld w 11 32, fld w 4 7, fld w 0 4⟩

/-- The fields of format J (R65). -/
def unpackJ (w : Word) : FmtJ := ⟨fld w 49 6, fld w 43 6, fld w 40 3, fld w 0 40⟩

/-- The fields of format V (R65, R66). -/
def unpackV (w : Word) : FmtV :=
  ⟨fld w 49 6, fld w 43 6, fld w 37 6, fld w 31 6, fld w 27 4, fld w 21 6, fld w 18 3, fld w 16 2, fld w 8 8, fld w 4 4, fld w 0 4⟩

/-- The fields of format M (R65). -/
def unpackM (w : Word) : FmtM :=
  ⟨fld w 49 6, fld w 43 6, fld w 37 6, fld w 33 4, fld w 32 1, fld w 31 1, fld w 28 3, fld w 26 2, fld w 24 2, fld w 16 8, fld w 0 16⟩

/-- The fields of format X (R65, R66). -/
def unpackX (w : Word) : FmtX :=
  ⟨fld w 52 3, fld w 46 6, fld w 40 6, fld w 36 4, fld w 30 6, fld w 26 4, fld w 20 6, fld w 8 12, fld w 6 2, fld w 4 2, fld w 0 4⟩

/-- The fields of format E (R65, R66). -/
def unpackE (w : Word) : FmtE := ⟨fld w 49 6, fld w 43 6, fld w 37 6, fld w 31 6, fld w 24 7, fld w 0 24⟩

/-- The fields of format Y (R65, R66). -/
def unpackY (w : Word) : FmtY := ⟨fld w 49 6, fld w 43 6, fld w 35 8, fld w 32 3, fld w 0 32⟩

/-- Bits [54:0] of a format-A word. -/
def packA (f : FmtA) : BitVec 55 := f.xd ++ f.xa ++ f.xb ++ f.xc ++ f.opv ++ f.t ++ f.imm16

/-- Bits [54:0] of a format-B word. -/
def packB (f : FmtB) : BitVec 55 := f.xd ++ f.xa ++ f.imm32 ++ f.opv ++ f.t

/-- Bits [54:0] of a format-J word. -/
def packJ (f : FmtJ) : BitVec 55 := f.xa ++ f.xb ++ f.cond ++ f.disp40

/-- Bits [54:0] of a format-V word. -/
def packV (f : FmtV) : BitVec 55 := f.vd ++ f.va ++ f.vb ++ f.vc ++ f.m ++ f.xl ++ f.rm ++ f.grp ++ f.opv ++ f.q ++ f.t

/-- Bits [54:0] of a format-M word. -/
def packM (f : FmtM) : BitVec 55 :=
  f.v ++ f.xbase ++ f.xs ++ f.m ++ f.o ++ f.d ++ f.scope ++ f.cache ++ f.stream ++ f.seg ++ f.imm16

/-- Bits [54:0] of a format-X word. -/
def packX (f : FmtX) : BitVec 55 := f.ad ++ f.va ++ f.vb ++ f.m ++ f.xl ++ f.rep ++ f.xs ++ f.opv ++ f.rsv ++ f.q ++ f.t

/-- Bits [54:0] of a format-E word. -/
def packE (f : FmtE) : BitVec 55 := f.xd ++ f.xa ++ f.xb ++ f.xc ++ f.unit ++ f.fn

/-- Bits [54:0] of a format-Y word. -/
def packY (f : FmtY) : BitVec 55 := f.xd ++ f.xa ++ f.imm8 ++ f.scope ++ f.fn

/-- Puts E, an opcode and bits [54:0] together (R60). -/
def joinWord (e : Bool) (op : BitVec 8) (p : BitVec 55) : Word := BitVec.ofBool e ++ op ++ p


/-- MFSR: the register number 0x809 is the row of the deny log (R107, R291). -/
def rawMfsr (f : FmtB) : Instr := if stateRegNo f = 0x809 then .denylogRead f else .mfsr f

/-- VPACK: OPV 1 is the dense form (R160). -/
def rawVpack (f : FmtV) : Instr := if f.opv = 1#8 then .vpackDense f else .vpackQuant f

/-- BKOP: fn[3:0] is the operation (R263). -/
def rawBkop (f : FmtE) : Instr :=
  match fnBits f 0 4 with
  | 1 => .bkopMin f
  | 2 => .bkopMax f
  | 3 => .bkopFma f
  | 4 => .bkopScadd f
  | 5 => .bkopRowred f
  | 6 => .bkopIscat f
  | _ => .bkopAdd f

/-- MQUERY: fn[3:0] 0 waits, 1 to 7 read a field (R320). -/
def rawMquery (f : FmtE) : Instr := if fnBits f 0 4 = 0 then .mqueryWait f else .mqueryCount f

/-- TSIGNAL: fn[1:0] selects the form (R341). -/
def rawTsignal (f : FmtE) : Instr :=
  match fnBits f 0 2 with
  | 1 => .tsignalWrite f
  | 2 => .tsignalAdd f
  | _ => .tsignalProgress f

/-- TSTAT: fn[3:0] selects the form (R342). -/
def rawTstat (f : FmtE) : Instr :=
  match fnBits f 0 4 with
  | 0 => .tstatWait f
  | 1 => .tstatQueue f
  | _ => .tstatHandle f

/-- SWAPID: fn[2:0] selects the change (R385). -/
def rawSwapid (f : FmtE) : Instr :=
  match fnBits f 0 3 with
  | 0 => .swapidBind f
  | 1 => .swapidShadow f
  | 2 => .swapidUnshadow f
  | 3 => .swapidAssume f
  | _ => .swapidUnbind f

/-- The row that a word's opcode and variant name, its fields not yet checked (R69). -/
def rawDecode (w : Word) : Instr :=
  match (wordOp w).toNat with
  | 0x01 => .add (unpackA w)
  | 0x02 => .sub (unpackA w)
  | 0x03 => .mul (unpackA w)
  | 0x04 => .mulh (unpackA w)
  | 0x05 => .div (unpackA w)
  | 0x06 => .rem (unpackA w)
  | 0x07 => .and (unpackA w)
  | 0x08 => .or (unpackA w)
  | 0x09 => .xor (unpackA w)
  | 0x0A => .shl (unpackA w)
  | 0x0B => .shr (unpackA w)
  | 0x0C => .sra (unpackA w)
  | 0x0D => .rotl (unpackA w)
  | 0x0E => .min (unpackA w)
  | 0x0F => .max (unpackA w)
  | 0x10 => .cmp (unpackA w)
  | 0x11 => .sel (unpackA w)
  | 0x12 => .clz (unpackA w)
  | 0x13 => .ctz (unpackA w)
  | 0x14 => .popc (unpackA w)
  | 0x15 => .bext (unpackA w)
  | 0x16 => .bins (unpackA w)
  | 0x17 => .lea (unpackA w)
  | 0x18 => .addi (unpackB w)
  | 0x19 => .andi (unpackB w)
  | 0x1A => .ori (unpackB w)
  | 0x1B => .xori (unpackB w)
  | 0x1C => .shli (unpackB w)
  | 0x1D => .shri (unpackB w)
  | 0x1E => .srai (unpackB w)
  | 0x1F => .cmpi (unpackB w)
  | 0x20 => .movhi (unpackB w)
  | 0x21 => .movi (unpackB w)
  | 0x22 => .fadd (unpackA w)
  | 0x23 => .fsub (unpackA w)
  | 0x24 => .fmul (unpackA w)
  | 0x25 => .fdiv (unpackA w)
  | 0x26 => .fsqrt (unpackA w)
  | 0x27 => .ffma (unpackA w)
  | 0x28 => .fmin (unpackA w)
  | 0x29 => .fmax (unpackA w)
  | 0x2A => .fcmp (unpackA w)
  | 0x2B => .fcvt (unpackA w)
  | 0x2C => .fclass (unpackA w)
  | 0x2D => .fsgn (unpackA w)
  | 0x30 => .ld (unpackM w)
  | 0x31 => .st (unpackM w)
  | 0x32 => .amo (unpackA w)
  | 0x33 => .cas (unpackA w)
  | 0x34 => .ldw (unpackB w)
  | 0x35 => rawMfsr (unpackB w)
  | 0x36 => .mtsr (unpackB w)
  | 0x37 => .brev (unpackA w)
  | 0x40 => .bc (unpackJ w)
  | 0x41 => .bal (unpackJ w)
  | 0x42 => .jr (unpackJ w)
  | 0x43 => .jalr (unpackJ w)
  | 0x44 => .loop (unpackJ w)
  | 0x45 => .exit (unpackY w)
  | 0x46 => .vfetch (unpackJ w)
  | 0x47 => .vpbr (unpackJ w)
  | 0x48 => .vjoin (unpackY w)
  | 0x49 => .nop (unpackY w)
  | 0x50 => .setvl (unpackA w)
  | 0x51 => .vcfg (unpackA w)
  | 0x52 => .vadd (unpackV w)
  | 0x53 => .vsub (unpackV w)
  | 0x54 => .vmul (unpackV w)
  | 0x55 => .vmulh (unpackV w)
  | 0x56 => .vdiv (unpackV w)
  | 0x57 => .vrem (unpackV w)
  | 0x58 => .vmin (unpackV w)
  | 0x59 => .vmax (unpackV w)
  | 0x5A => .vabs (unpackV w)
  | 0x5B => .vneg (unpackV w)
  | 0x5C => .vfma (unpackV w)
  | 0x5D => .vfms (unpackV w)
  | 0x5E => .vfnma (unpackV w)
  | 0x5F => .vfnms (unpackV w)
  | 0x60 => .vsqrt (unpackV w)
  | 0x61 => .vrsqrt (unpackV w)
  | 0x62 => .vrcp (unpackV w)
  | 0x63 => .vavg (unpackV w)
  | 0x64 => .vclamp (unpackV w)
  | 0x65 => .vscalb (unpackV w)
  | 0x66 => .vlogb (unpackV w)
  | 0x67 => .vclass (unpackV w)
  | 0x68 => .vand (unpackV w)
  | 0x69 => .vor (unpackV w)
  | 0x6A => .vxor (unpackV w)
  | 0x6B => .vnot (unpackV w)
  | 0x6C => .vandn (unpackV w)
  | 0x6D => .vshl (unpackV w)
  | 0x6E => .vshr (unpackV w)
  | 0x6F => .vsra (unpackV w)
  | 0x70 => .vrotl (unpackV w)
  | 0x71 => .vclz (unpackV w)
  | 0x72 => .vpopc (unpackV w)
  | 0x73 => .vbrev (unpackV w)
  | 0x74 => .vcmp (unpackV w)
  | 0x75 => .vsel (unpackV w)
  | 0x76 => .vmerge (unpackV w)
  | 0x77 => .vbcast (unpackV w)
  | 0x78 => .vramp (unpackV w)
  | 0x79 => .vmovx (unpackV w)
  | 0x7A => .vinsx (unpackV w)
  | 0x7B => .vmov (unpackV w)
  | 0x80 => .vmand (unpackV w)
  | 0x81 => .vmor (unpackV w)
  | 0x82 => .vmxor (unpackV w)
  | 0x83 => .vmnot (unpackV w)
  | 0x84 => .vmandn (unpackV w)
  | 0x85 => .vmpop (unpackV w)
  | 0x86 => .vmfirst (unpackV w)
  | 0x87 => .vmsetf (unpackV w)
  | 0x88 => .vmmov (unpackV w)
  | 0x89 => .vmtox (unpackV w)
  | 0x8A => .vmfromx (unpackV w)
  | 0x90 => .vcvt (unpackV w)
  | 0x91 => rawVpack (unpackV w)
  | 0x92 => .vunpack (unpackV w)
  | 0x93 => .vredsum (unpackV w)
  | 0x94 => .vredmin (unpackV w)
  | 0x95 => .vredmax (unpackV w)
  | 0x96 => .vreddot (unpackV w)
  | 0x97 => .vscan (unpackV w)
  | 0x98 => .vwelf (unpackV w)
  | 0x99 => .vwmerge (unpackV w)
  | 0x9A => .vtopk (unpackV w)
  | 0x9B => .vperm (unpackV w)
  | 0x9C => .vshuf (unpackV w)
  | 0x9D => .vslideup (unpackV w)
  | 0x9E => .vslidedn (unpackV w)
  | 0x9F => .vcompress (unpackV w)
  | 0xA0 => .vexpand (unpackV w)
  | 0xA1 => .vlut (unpackV w)
  | 0xA2 => .vredlog (unpackV w)
  | 0xA3 => .vredarg (unpackV w)
  | 0xA8 => .vld (unpackM w)
  | 0xA9 => .vst (unpackM w)
  | 0xAA => .vlds (unpackM w)
  | 0xAB => .vsts (unpackM w)
  | 0xAC => .vlseg (unpackM w)
  | 0xAD => .vsseg (unpackM w)
  | 0xAE => .vlblk (unpackM w)
  | 0xAF => .vsblk (unpackM w)
  | 0xB0 => .vgathw (unpackM w)
  | 0xB1 => .vgath (unpackM w)
  | 0xB2 => .vscat (unpackM w)
  | 0xB3 => .vscadd (unpackM w)
  | 0xB4 => .vamo (unpackM w)
  | 0xB5 => .qld (unpackM w)
  | 0xB6 => .qlds (unpackM w)
  | 0xB7 => .qst (unpackM w)
  | 0xB8 => .qsts (unpackM w)
  | 0xB9 => .qgath (unpackM w)
  | 0xBA => .vpref (unpackM w)
  | 0xC0 => .oxadd (unpackX w)
  | 0xC1 => .oxsub (unpackX w)
  | 0xC2 => .oxwgt (unpackX w)
  | 0xC3 => .mldff (unpackM w)
  | 0xC4 => .mtalloc (unpackE w)
  | 0xC5 => .mtfree (unpackE w)
  | 0xC6 => .mtld (unpackM w)
  | 0xC7 => .mtst (unpackM w)
  | 0xC8 => .mtzero (unpackE w)
  | 0xC9 => .mtmov (unpackE w)
  | 0xCA => .mwfill (unpackE w)
  | 0xCB => .mwinv (unpackE w)
  | 0xCC => .mtrow (unpackE w)
  | 0xD0 => .cstream (unpackE w)
  | 0xD1 => .ctensor (unpackE w)
  | 0xD2 => .cremap (unpackE w)
  | 0xD3 => .cwait (unpackE w)
  | 0xD4 => .cstat (unpackE w)
  | 0xD5 => .chint (unpackE w)
  | 0xD6 => .pbinv (unpackE w)
  | 0xD8 => rawBkop (unpackE w)
  | 0xDA => .mbuild (unpackE w)
  | 0xDB => .madapt (unpackE w)
  | 0xDC => .mcolor (unpackE w)
  | 0xDD => .mcut (unpackE w)
  | 0xDE => .mmigrate (unpackE w)
  | 0xDF => .mghost (unpackE w)
  | 0xE0 => .vnbr (unpackM w)
  | 0xE1 => .vface (unpackM w)
  | 0xE2 => .mfree (unpackE w)
  | 0xE3 => rawMquery (unpackE w)
  | 0xE4 => .tsubmit (unpackE w)
  | 0xE5 => rawTsignal (unpackE w)
  | 0xE6 => rawTstat (unpackE w)
  | 0xE8 => .fence (unpackY w)
  | 0xE9 => .sbar (unpackY w)
  | 0xEA => .bkfence (unpackY w)
  | 0xEB => .vfbar (unpackY w)
  | 0xEC => .bsync (unpackY w)
  | 0xED => .barrive (unpackY w)
  | 0xEE => .binit (unpackY w)
  | 0xEF => .ramo (unpackA w)
  | 0xF0 => .fstat (unpackE w)
  | 0xF1 => .freplay (unpackE w)
  | 0xF2 => .fdiscard (unpackE w)
  | 0xF3 => rawSwapid (unpackE w)
  | 0xF4 => .xprobe (unpackA w)
  | 0xF5 => .xinv (unpackA w)
  | 0xF6 => .xinvall (unpackY w)
  | 0xF8 => .trap (unpackY w)
  | 0xF9 => .tret (unpackY w)
  | 0xFA => .vsave (unpackE w)
  | 0xFB => .vrstor (unpackE w)
  | 0xFC => .ssave (unpackE w)
  | 0xFD => .srstor (unpackE w)
  | 0xFE => .idle (unpackY w)
  | _ => .unassignedOpcode (wordOp w) (fld w 0 55)

/-- Decoding a word: its instruction, or the name of the ILLOP check that it fails (R13, R67, R68, R70, R77). (DEDUCED, log entry 79.) -/
def decode (w : Word) : Except Reject Instr :=
  match illegal (rawDecode w) with
  | none => .ok (rawDecode w)
  | some r => .error r

/-- The word of eight little-endian bytes (R4, R60); missing bytes read as 0. -/
def wordOfBytes (bs : List Byte) : Word :=
  BitVec.ofNat 64 ((bs.take 8).foldr (fun b acc => b.toNat + 256 * acc) 0)

/-- Decoding the eight bytes of a word. -/
def decodeBytes (bs : List Byte) : Except Reject Instr := decode (wordOfBytes bs)

/-- The opcode and bits [54:0] of an instruction; an event has none. -/
def encodeParts : Instr → Option (BitVec 8 × BitVec 55)
  | .add f => some (0x01#8, packA f)
  | .sub f => some (0x02#8, packA f)
  | .mul f => some (0x03#8, packA f)
  | .mulh f => some (0x04#8, packA f)
  | .div f => some (0x05#8, packA f)
  | .rem f => some (0x06#8, packA f)
  | .and f => some (0x07#8, packA f)
  | .or f => some (0x08#8, packA f)
  | .xor f => some (0x09#8, packA f)
  | .shl f => some (0x0A#8, packA f)
  | .shr f => some (0x0B#8, packA f)
  | .sra f => some (0x0C#8, packA f)
  | .rotl f => some (0x0D#8, packA f)
  | .min f => some (0x0E#8, packA f)
  | .max f => some (0x0F#8, packA f)
  | .cmp f => some (0x10#8, packA f)
  | .sel f => some (0x11#8, packA f)
  | .clz f => some (0x12#8, packA f)
  | .ctz f => some (0x13#8, packA f)
  | .popc f => some (0x14#8, packA f)
  | .bext f => some (0x15#8, packA f)
  | .bins f => some (0x16#8, packA f)
  | .lea f => some (0x17#8, packA f)
  | .addi f => some (0x18#8, packB f)
  | .andi f => some (0x19#8, packB f)
  | .ori f => some (0x1A#8, packB f)
  | .xori f => some (0x1B#8, packB f)
  | .shli f => some (0x1C#8, packB f)
  | .shri f => some (0x1D#8, packB f)
  | .srai f => some (0x1E#8, packB f)
  | .cmpi f => some (0x1F#8, packB f)
  | .movhi f => some (0x20#8, packB f)
  | .movi f => some (0x21#8, packB f)
  | .fadd f => some (0x22#8, packA f)
  | .fsub f => some (0x23#8, packA f)
  | .fmul f => some (0x24#8, packA f)
  | .fdiv f => some (0x25#8, packA f)
  | .fsqrt f => some (0x26#8, packA f)
  | .ffma f => some (0x27#8, packA f)
  | .fmin f => some (0x28#8, packA f)
  | .fmax f => some (0x29#8, packA f)
  | .fcmp f => some (0x2A#8, packA f)
  | .fcvt f => some (0x2B#8, packA f)
  | .fclass f => some (0x2C#8, packA f)
  | .fsgn f => some (0x2D#8, packA f)
  | .ld f => some (0x30#8, packM f)
  | .st f => some (0x31#8, packM f)
  | .amo f => some (0x32#8, packA f)
  | .cas f => some (0x33#8, packA f)
  | .ldw f => some (0x34#8, packB f)
  | .mfsr f => some (0x35#8, packB f)
  | .mtsr f => some (0x36#8, packB f)
  | .brev f => some (0x37#8, packA f)
  | .bc f => some (0x40#8, packJ f)
  | .bal f => some (0x41#8, packJ f)
  | .jr f => some (0x42#8, packJ f)
  | .jalr f => some (0x43#8, packJ f)
  | .loop f => some (0x44#8, packJ f)
  | .exit f => some (0x45#8, packY f)
  | .nop f => some (0x49#8, packY f)
  | .vfetch f => some (0x46#8, packJ f)
  | .vpbr f => some (0x47#8, packJ f)
  | .vjoin f => some (0x48#8, packY f)
  | .setvl f => some (0x50#8, packA f)
  | .vcfg f => some (0x51#8, packA f)
  | .vadd f => some (0x52#8, packV f)
  | .vsub f => some (0x53#8, packV f)
  | .vmul f => some (0x54#8, packV f)
  | .vmulh f => some (0x55#8, packV f)
  | .vdiv f => some (0x56#8, packV f)
  | .vrem f => some (0x57#8, packV f)
  | .vmin f => some (0x58#8, packV f)
  | .vmax f => some (0x59#8, packV f)
  | .vabs f => some (0x5A#8, packV f)
  | .vneg f => some (0x5B#8, packV f)
  | .vfma f => some (0x5C#8, packV f)
  | .vfms f => some (0x5D#8, packV f)
  | .vfnma f => some (0x5E#8, packV f)
  | .vfnms f => some (0x5F#8, packV f)
  | .vsqrt f => some (0x60#8, packV f)
  | .vrsqrt f => some (0x61#8, packV f)
  | .vrcp f => some (0x62#8, packV f)
  | .vavg f => some (0x63#8, packV f)
  | .vclamp f => some (0x64#8, packV f)
  | .vscalb f => some (0x65#8, packV f)
  | .vlogb f => some (0x66#8, packV f)
  | .vclass f => some (0x67#8, packV f)
  | .vand f => some (0x68#8, packV f)
  | .vor f => some (0x69#8, packV f)
  | .vxor f => some (0x6A#8, packV f)
  | .vnot f => some (0x6B#8, packV f)
  | .vandn f => some (0x6C#8, packV f)
  | .vshl f => some (0x6D#8, packV f)
  | .vshr f => some (0x6E#8, packV f)
  | .vsra f => some (0x6F#8, packV f)
  | .vrotl f => some (0x70#8, packV f)
  | .vclz f => some (0x71#8, packV f)
  | .vpopc f => some (0x72#8, packV f)
  | .vbrev f => some (0x73#8, packV f)
  | .vcmp f => some (0x74#8, packV f)
  | .vsel f => some (0x75#8, packV f)
  | .vmerge f => some (0x76#8, packV f)
  | .vbcast f => some (0x77#8, packV f)
  | .vramp f => some (0x78#8, packV f)
  | .vmovx f => some (0x79#8, packV f)
  | .vinsx f => some (0x7A#8, packV f)
  | .vmov f => some (0x7B#8, packV f)
  | .vmand f => some (0x80#8, packV f)
  | .vmor f => some (0x81#8, packV f)
  | .vmxor f => some (0x82#8, packV f)
  | .vmnot f => some (0x83#8, packV f)
  | .vmandn f => some (0x84#8, packV f)
  | .vmpop f => some (0x85#8, packV f)
  | .vmfirst f => some (0x86#8, packV f)
  | .vmsetf f => some (0x87#8, packV f)
  | .vmmov f => some (0x88#8, packV f)
  | .vmtox f => some (0x89#8, packV f)
  | .vmfromx f => some (0x8A#8, packV f)
  | .vcvt f => some (0x90#8, packV f)
  | .vpackQuant f => some (0x91#8, packV f)
  | .vpackDense f => some (0x91#8, packV f)
  | .vunpack f => some (0x92#8, packV f)
  | .vredsum f => some (0x93#8, packV f)
  | .vredmin f => some (0x94#8, packV f)
  | .vredmax f => some (0x95#8, packV f)
  | .vreddot f => some (0x96#8, packV f)
  | .vscan f => some (0x97#8, packV f)
  | .vwelf f => some (0x98#8, packV f)
  | .vwmerge f => some (0x99#8, packV f)
  | .vtopk f => some (0x9A#8, packV f)
  | .vperm f => some (0x9B#8, packV f)
  | .vshuf f => some (0x9C#8, packV f)
  | .vslideup f => some (0x9D#8, packV f)
  | .vslidedn f => some (0x9E#8, packV f)
  | .vcompress f => some (0x9F#8, packV f)
  | .vexpand f => some (0xA0#8, packV f)
  | .vlut f => some (0xA1#8, packV f)
  | .vredlog f => some (0xA2#8, packV f)
  | .vredarg f => some (0xA3#8, packV f)
  | .vld f => some (0xA8#8, packM f)
  | .vst f => some (0xA9#8, packM f)
  | .vlds f => some (0xAA#8, packM f)
  | .vsts f => some (0xAB#8, packM f)
  | .vlseg f => some (0xAC#8, packM f)
  | .vsseg f => some (0xAD#8, packM f)
  | .vlblk f => some (0xAE#8, packM f)
  | .vsblk f => some (0xAF#8, packM f)
  | .vgathw f => some (0xB0#8, packM f)
  | .vgath f => some (0xB1#8, packM f)
  | .vscat f => some (0xB2#8, packM f)
  | .vscadd f => some (0xB3#8, packM f)
  | .vamo f => some (0xB4#8, packM f)
  | .qld f => some (0xB5#8, packM f)
  | .qlds f => some (0xB6#8, packM f)
  | .qst f => some (0xB7#8, packM f)
  | .qsts f => some (0xB8#8, packM f)
  | .qgath f => some (0xB9#8, packM f)
  | .vpref f => some (0xBA#8, packM f)
  | .oxadd f => some (0xC0#8, packX f)
  | .oxsub f => some (0xC1#8, packX f)
  | .oxwgt f => some (0xC2#8, packX f)
  | .mldff f => some (0xC3#8, packM f)
  | .mtalloc f => some (0xC4#8, packE f)
  | .mtfree f => some (0xC5#8, packE f)
  | .mtld f => some (0xC6#8, packM f)
  | .mtst f => some (0xC7#8, packM f)
  | .mtzero f => some (0xC8#8, packE f)
  | .mtmov f => some (0xC9#8, packE f)
  | .mwfill f => some (0xCA#8, packE f)
  | .mwinv f => some (0xCB#8, packE f)
  | .mtrow f => some (0xCC#8, packE f)
  | .cstream f => some (0xD0#8, packE f)
  | .ctensor f => some (0xD1#8, packE f)
  | .cremap f => some (0xD2#8, packE f)
  | .cwait f => some (0xD3#8, packE f)
  | .cstat f => some (0xD4#8, packE f)
  | .chint f => some (0xD5#8, packE f)
  | .pbinv f => some (0xD6#8, packE f)
  | .bkopAdd f => some (0xD8#8, packE f)
  | .bkopMin f => some (0xD8#8, packE f)
  | .bkopMax f => some (0xD8#8, packE f)
  | .bkopFma f => some (0xD8#8, packE f)
  | .bkopScadd f => some (0xD8#8, packE f)
  | .bkopRowred f => some (0xD8#8, packE f)
  | .bkopIscat f => some (0xD8#8, packE f)
  | .bkfence f => some (0xEA#8, packY f)
  | .mbuild f => some (0xDA#8, packE f)
  | .madapt f => some (0xDB#8, packE f)
  | .mcolor f => some (0xDC#8, packE f)
  | .mcut f => some (0xDD#8, packE f)
  | .mmigrate f => some (0xDE#8, packE f)
  | .mghost f => some (0xDF#8, packE f)
  | .vnbr f => some (0xE0#8, packM f)
  | .vface f => some (0xE1#8, packM f)
  | .mfree f => some (0xE2#8, packE f)
  | .mqueryWait f => some (0xE3#8, packE f)
  | .mqueryCount f => some (0xE3#8, packE f)
  | .tsubmit f => some (0xE4#8, packE f)
  | .tsignalProgress f => some (0xE5#8, packE f)
  | .tsignalWrite f => some (0xE5#8, packE f)
  | .tsignalAdd f => some (0xE5#8, packE f)
  | .tstatWait f => some (0xE6#8, packE f)
  | .tstatQueue f => some (0xE6#8, packE f)
  | .tstatHandle f => some (0xE6#8, packE f)
  | .fence f => some (0xE8#8, packY f)
  | .sbar f => some (0xE9#8, packY f)
  | .vfbar f => some (0xEB#8, packY f)
  | .bsync f => some (0xEC#8, packY f)
  | .barrive f => some (0xED#8, packY f)
  | .binit f => some (0xEE#8, packY f)
  | .ramo f => some (0xEF#8, packA f)
  | .fstat f => some (0xF0#8, packE f)
  | .freplay f => some (0xF1#8, packE f)
  | .fdiscard f => some (0xF2#8, packE f)
  | .swapidBind f => some (0xF3#8, packE f)
  | .swapidShadow f => some (0xF3#8, packE f)
  | .swapidUnshadow f => some (0xF3#8, packE f)
  | .swapidAssume f => some (0xF3#8, packE f)
  | .swapidUnbind f => some (0xF3#8, packE f)
  | .xprobe f => some (0xF4#8, packA f)
  | .xinv f => some (0xF5#8, packA f)
  | .xinvall f => some (0xF6#8, packY f)
  | .trap f => some (0xF8#8, packY f)
  | .tret f => some (0xF9#8, packY f)
  | .vsave f => some (0xFA#8, packE f)
  | .vrstor f => some (0xFB#8, packE f)
  | .ssave f => some (0xFC#8, packE f)
  | .srstor f => some (0xFD#8, packE f)
  | .idle f => some (0xFE#8, packY f)
  | .denylogRead f => some (0x35#8, packB f)
  | .unassignedOpcode op p => some (op, p)
  | _ => none

/-- The word of an instruction, with its E bit; an event has none. -/
def encode (e : Bool) (i : Instr) : Option Word := (encodeParts i).map fun p => joinWord e p.1 p.2

/-- The instruction the decoder reads from a table word: bit 0 is the least significant bit of the word (R60), and the
bits above `nbits` are 0. -/
def decodeTableWord (nbits w : Nat) : Option Instr :=
  match decode (BitVec.ofNat 64 (w % 2 ^ nbits)) with
  | .ok i => some i
  | .error _ => none

end Sys2Proof
end

