-- ==== Sys2Proof/Machine/Num.lean ====
section
/-! DEFINITION. Number formats, exact values, rounding and random bits (chapter 02_numbers, R30 to R53). -/

namespace Sys2Proof.Machine

/-- The element formats of R41: the codes 0x00 to 0x0C, then the integers 0x10 to 0x17. -/
inductive Fmt
  | fp32 | fp64 | fp16 | bf16 | e4m3 | e5m2 | e3m2 | e2m3 | e2m1 | px9 | px6 | px4 | e8m0
  | i8 | i16 | i32 | i64 | n8 | n16 | n32 | n64
  deriving DecidableEq, Repr

/-- The rounding modes of R45. -/
inductive RMode
  | rne | rtz | rup | rdn | rna | sr
  deriving DecidableEq, Repr

/-- The format a legend code names; reserved codes name none (R41). -/
def fmtOfCode : Nat → Option Fmt
  | 0x00 => some .fp32 | 0x01 => some .fp64 | 0x02 => some .fp16 | 0x03 => some .bf16
  | 0x04 => some .e4m3 | 0x05 => some .e5m2 | 0x06 => some .e3m2 | 0x07 => some .e2m3
  | 0x08 => some .e2m1 | 0x09 => some .px9 | 0x0A => some .px6 | 0x0B => some .px4
  | 0x0C => some .e8m0
  | 0x10 => some .i8 | 0x11 => some .i16 | 0x12 => some .i32 | 0x13 => some .i64
  | 0x14 => some .n8 | 0x15 => some .n16 | 0x16 => some .n32 | 0x17 => some .n64
  | _ => none

/-- The rounding mode a code names; 6 and 7 name none (R45). -/
def rmodeOfCode : Nat → Option RMode
  | 0 => some .rne | 1 => some .rtz | 2 => some .rup | 3 => some .rdn | 4 => some .rna | 5 => some .sr
  | _ => none

/-- The format a type code T names (R8, R67); 12 to 15 name none. -/
def fmtOfT : Nat → Option Fmt
  | 0 => some .i8 | 1 => some .i16 | 2 => some .i32 | 3 => some .i64
  | 4 => some .n8 | 5 => some .n16 | 6 => some .n32 | 7 => some .n64
  | 8 => some .fp64 | 9 => some .fp32 | 10 => some .fp16 | 11 => some .bf16
  | _ => none

/-- The width in bits of one element of a format in a register (R41). -/
def Fmt.width : Fmt → Nat
  | .fp64 | .i64 | .n64 => 64
  | .fp32 | .i32 | .n32 => 32
  | .fp16 | .bf16 | .i16 | .n16 => 16
  | _ => 8

/-- A floating-point code, 0x00 to 0x0B (R140). -/
def Fmt.isF : Fmt → Bool
  | .fp32 | .fp64 | .fp16 | .bf16 | .e4m3 | .e5m2 | .e3m2 | .e2m3 | .e2m1 | .px9 | .px6 | .px4 => true
  | _ => false

/-- An integer code (R140). -/
def Fmt.isI : Fmt → Bool
  | .i8 | .i16 | .i32 | .i64 | .n8 | .n16 | .n32 | .n64 => true
  | _ => false

/-- A signed integer format. -/
def Fmt.signedI : Fmt → Bool
  | .i8 | .i16 | .i32 | .i64 => true
  | _ => false

/-- The narrow formats to which the scale mode applies, codes 0x04 to 0x0B (R44). -/
def Fmt.narrow : Fmt → Bool
  | .e4m3 | .e5m2 | .e3m2 | .e2m3 | .e2m1 | .px9 | .px6 | .px4 => true
  | _ => false

/-- The narrow elements of vector registers, one byte each: those and E8M0, codes 0x04 to 0x0C (R37, R159). -/
def Fmt.dense (f : Fmt) : Bool := f.narrow || f == .e8m0

/-- A paired-exponent format (R35). -/
def Fmt.isPx : Fmt → Bool
  | .px9 | .px6 | .px4 => true
  | _ => false

/-- The width in bits of one code of a format: for the narrow ones the code width of R159, else the
register width. -/
def Fmt.codeWidth : Fmt → Nat
  | .e3m2 | .e2m3 => 6
  | .px6 => 5
  | .e2m1 => 4
  | .px4 => 3
  | f => f.width

/-- Exponent bits of the formats of R30 (0 elsewhere). -/
def Fmt.ebits : Fmt → Nat
  | .fp64 => 11 | .fp32 => 8 | .fp16 => 5 | .bf16 => 8 | .e4m3 => 4 | .e5m2 => 5
  | .e3m2 => 3 | .e2m3 => 2 | .e2m1 => 2 | _ => 0

/-- Fraction bits of the formats of R30, and g of R35 for the PX formats. -/
def Fmt.fbits : Fmt → Nat
  | .fp64 => 52 | .fp32 => 23 | .fp16 => 10 | .bf16 => 7 | .e4m3 => 3 | .e5m2 => 2
  | .e3m2 => 2 | .e2m3 => 3 | .e2m1 => 1 | .px9 => 6 | .px6 => 3 | .px4 => 1 | _ => 0

/-- The exponent bias (R30). -/
def Fmt.bias : Fmt → Nat
  | .fp64 => 1023 | .fp32 => 127 | .fp16 => 15 | .bf16 => 127 | .e4m3 => 7 | .e5m2 => 15
  | .e3m2 => 3 | .e2m3 => 1 | .e2m1 => 1 | _ => 0

/-- The formats whose all-ones exponent holds infinity and NaN (R30). -/
def Fmt.ieee : Fmt → Bool
  | .fp64 | .fp32 | .fp16 | .bf16 | .e5m2 => true
  | _ => false

/-- Whether the format has a NaN code (R30, R47). -/
def Fmt.hasNan (f : Fmt) : Bool := f.ieee || f == .e4m3

/-- Whether the format has an infinity (R30). -/
def Fmt.hasInf (f : Fmt) : Bool := f.ieee

/-- The formats to which DAZ and FTZ apply (R46). -/
def Fmt.flushable (f : Fmt) : Bool := f.ieee || f == .e4m3

/-- The place of the sign bit of a floating-point code (R144). -/
def Fmt.signBit (f : Fmt) : Nat := f.codeWidth - 1

/-- The canonical NaN of a format (R31). -/
def Fmt.qnan (f : Fmt) : Nat :=
  match f with
  | .e4m3 => 0x7F
  | _ => if f.ieee then (2 ^ f.ebits - 1) * 2 ^ f.fbits + 2 ^ (f.fbits - 1) else 0

/-- The events of R54 as a bit set in VSTAT order: IV, DZ, OF, UF, NX, SAT. -/
abbrev Ev := BitVec 6

def evIV : Ev := 0x01#6
def evDZ : Ev := 0x02#6
def evOF : Ev := 0x04#6
def evUF : Ev := 0x08#6
def evNX : Ev := 0x10#6
def evSAT : Ev := 0x20#6

/-- A magnitude: the exact number num / den, or its square root when `root` holds. -/
structure Mag where
  num : Nat
  den : Nat
  root : Bool := false
  deriving DecidableEq, Repr

/-- An exact value that arithmetic works on (R9): a NaN (signalling or quiet), an infinity or a number. -/
inductive Val
  | nan (sig : Bool)
  | inf (neg : Bool)
  | fin (neg : Bool) (m : Mag)
  deriving DecidableEq, Repr

/-- Multiplies a magnitude by 2 ^ k. -/
def Mag.scale (m : Mag) (k : Int) : Mag :=
  let k' := if m.root then 2 * k else k
  if 0 ≤ k' then { m with num := m.num * 2 ^ k'.toNat } else { m with den := m.den * 2 ^ (-k').toNat }

/-- A zero of a sign. -/
def zeroV (neg : Bool) : Val := .fin neg ⟨0, 1, false⟩

/-- Integer square root by binary digits, highest first; `f` bounds the digit place. -/
def isqrtGo (n : Nat) : Nat → Nat → Nat
  | 0, r => r
  | f + 1, r => let t := r + 2 ^ f; isqrtGo n f (if t * t ≤ n then t else r)

/-- The integer square root of `n`. -/
def isqrt (n : Nat) : Nat := isqrtGo n (Nat.log2 n / 2 + 1) 0

/-- The floor of `m` times 2 ^ k, and whether nothing was dropped. -/
def Mag.floorAt (m : Mag) (k : Int) : Nat × Bool :=
  let s := m.scale k
  let q := s.num / s.den
  if m.root then
    let r := isqrt q
    (r, r * r == q && s.num % s.den == 0)
  else (q, s.num % s.den == 0)

/-- floor(log2) of a positive rational. -/
def ratLog2 (num den : Nat) : Int :=
  let k : Int := (Nat.log2 num : Int) - (Nat.log2 den : Int)
  let ge := if 0 ≤ k then decide (den * 2 ^ k.toNat ≤ num) else decide (den ≤ num * 2 ^ (-k).toNat)
  if ge then k else k - 1

/-- floor(log2 m) of a non-zero magnitude. -/
def Mag.log2 (m : Mag) : Int :=
  let k := ratLog2 m.num m.den
  if m.root then k / 2 else k

/-- The 64 random bits of R52. -/
def rbitsRound (k : Word) (q : Word × Word × Word × Word) : Word × Word × Word × Word :=
  let (a, b, c, d) := q
  let a := a + b + k
  let d := (d ^^^ a).rotateLeft 32
  let c := c + d
  let b := (b ^^^ c).rotateLeft 24
  let a := a + b
  let d := (d ^^^ a).rotateLeft 16
  let c := c + d
  let b := (b ^^^ c).rotateLeft 63
  (a, b, c, d)

/-- `rbits(seed, lane, elem, sn)` of R52. -/
def rbits (seed : Word) (lane elem : Nat) (sn : Word) : Word :=
  let b : Word := (BitVec.ofNat 64 lane <<< 32) ^^^ BitVec.ofNat 64 elem
  let q0 := (seed, b, sn, 0x9E3779B97F4A7C15#64)
  let q1 := rbitsRound 0xD1B54A32D192ED03#64 q0
  let q2 := rbitsRound 0xAEF17502108EF2D9#64 q1
  let q3 := rbitsRound 0xDB4F0B9175AE2165#64 q2
  let (a, b, c, d) := rbitsRound 0x8BB84B93962EACC9#64 q3
  a ^^^ b ^^^ c ^^^ d

/-- What rounding needs beside the value: the effective mode, SAT and FTZ of the legend in force, and the low 32 random
bits (R47, R48). -/
structure RCtx where
  mode : RMode
  sat : Bool
  ftz : Bool
  low32 : Nat := 0
  deriving DecidableEq, Repr

/-- `rnd_grid` on a grid of spacing 2 ^ e: the number of grid steps in the rounded magnitude, and whether it is
exact (R47, R48). The magnitude's sign is `neg`. -/
def rndGrid (c : RCtx) (neg : Bool) (m : Mag) (e : Int) : Nat × Bool :=
  let (t, ex) := m.floorAt (32 - e)
  let q := t / 2 ^ 32
  let f := t % 2 ^ 32
  if f = 0 ∧ ex then (q, true)
  else
    let half := 2 ^ 31
    let up : Bool := match c.mode with
      | .rne => decide (half < f) || (f == half && (!ex || q % 2 == 1))
      | .rtz => false
      | .rup => !neg
      | .rdn => neg
      | .rna => decide (half ≤ f)
      | .sr =>
        if neg then
          -- lo is the value further from zero; f of R48 counts from it
          let g := 2 ^ 32 - (f + if ex then 0 else 1)
          !(decide (c.low32 < g))
        else decide (c.low32 < f)
    (if up then q + 1 else q, false)

/-- The exponent of the largest binade of a format (R30), or −g's counterpart for PX. -/
def Fmt.emax (f : Fmt) : Int :=
  if f.ieee then (2 ^ f.ebits - 2 : Nat) - (f.bias : Int)
  else (2 ^ f.ebits - 1 : Nat) - (f.bias : Int)

/-- The steps of the largest finite magnitude at its own spacing (R30, R35). -/
def Fmt.qmax (f : Fmt) : Nat :=
  match f with
  | .e4m3 => 14
  | _ => 2 ^ (f.fbits + 1) - 1

/-- log2 of the smallest normal value (R30). -/
def Fmt.minExp (f : Fmt) : Int := 1 - (f.bias : Int)

/-- log2 of the spacing of the largest binade. -/
def Fmt.topStep (f : Fmt) : Int := if f.isPx then -(f.fbits : Int) else f.emax - (f.fbits : Int)

/-- log2 of the spacing of a format's grid at a non-zero magnitude (R47). -/
def Fmt.step (f : Fmt) (m : Mag) : Int :=
  if f.isPx then -(f.fbits : Int)
  else max (min m.log2 f.emax - (f.fbits : Int)) (f.minExp - (f.fbits : Int))

/-- Places the sign of a code. -/
def Fmt.signed (f : Fmt) (neg : Bool) (code : Nat) : Nat := if neg then code + 2 ^ f.signBit else code

/-- The code of the magnitude `q` steps of 2 ^ e, at most the largest finite one. -/
def Fmt.codeOf (f : Fmt) (q : Nat) (e : Int) : Nat :=
  if f.isPx then q
  else (e - (f.minExp - (f.fbits : Int))).toNat * 2 ^ f.fbits + q

/-- The code of the largest finite value of a sign. -/
def Fmt.maxCode (f : Fmt) (neg : Bool) : Nat := f.signed neg (f.codeOf f.qmax f.topStep)

/-- The code of an infinity. -/
def Fmt.infCode (f : Fmt) (neg : Bool) : Nat := f.signed neg ((2 ^ f.ebits - 1) * 2 ^ f.fbits)

/-- `overflow` of R47. -/
def overflowF (f : Fmt) (c : RCtx) (neg : Bool) : Nat × Ev :=
  if c.sat || !f.hasNan then (f.maxCode neg, evOF ||| evNX ||| evSAT)
  else if c.mode == .rtz || (c.mode == .rup && neg) || (c.mode == .rdn && !neg) then (f.maxCode neg, evOF ||| evNX)
  else if f.hasInf then (f.infCode neg, evOF ||| evNX)
  else (f.qnan, evOF ||| evNX)

/-- `round` of R47 for the floating-point formats. -/
def roundF (f : Fmt) (c : RCtx) : Val → Nat × Ev
  | .nan _ => if f.hasNan then (f.qnan, 0) else (0, evIV)
  | .inf neg =>
    if f.hasInf then (f.infCode neg, 0)
    else if c.sat || !f.hasNan then (f.maxCode neg, evSAT)
    else (f.qnan, evIV)
  | .fin neg m =>
    if m.num = 0 then (f.signed neg 0, 0)
    else
      let tiny : Bool := !f.isPx && decide (m.log2 < f.minExp)
      if c.ftz && f.flushable && tiny then (f.signed neg 0, evUF ||| evNX)
      else
        let (qt, et) := m.floorAt (- f.topStep)
        let above : Bool := decide (f.qmax < qt) || (qt == f.qmax && !et)
        if c.mode == .sr && above then overflowF f c neg
        else
          let e := f.step m
          let (q, ex) := rndGrid c neg m e
          let nx := if ex then 0 else evNX
          let uf := if !ex && (if f.isPx then q == 0 else tiny) then evUF else 0
          if e = f.topStep ∧ f.qmax < q then
            let (code, ev) := overflowF f c neg
            (code, nx ||| uf ||| ev)
          else (f.signed neg (f.codeOf q e), nx ||| uf)

/-- The lowest value of an integer format (R38). -/
def Fmt.loInt (f : Fmt) : Int := if f.signedI then -((2 ^ (f.width - 1) : Nat) : Int) else 0

/-- The highest value of an integer format (R38). -/
def Fmt.hiInt (f : Fmt) : Int := if f.signedI then ((2 ^ (f.width - 1) : Nat) : Int) - 1 else ((2 ^ f.width : Nat) : Int) - 1

/-- The clamp or wrap of an exact integer into an integer format (R47, R142). -/
def fitInt (f : Fmt) (sat : Bool) (y : Int) : Nat × Ev :=
  if y < f.loInt ∨ f.hiInt < y then
    if sat then (wrapInt f.width (if 0 < y then f.hiInt else f.loInt), evSAT)
    else (wrapInt f.width y, evOF)
  else (wrapInt f.width y, 0)

/-- `round_int` of R47. -/
def roundI (f : Fmt) (c : RCtx) : Val → Nat × Ev
  | .nan _ => (0, evIV)
  | .inf neg => (wrapInt f.width (if neg then f.loInt else f.hiInt), evIV)
  | .fin neg m =>
    let (q, ex) := if m.num = 0 then (0, true) else rndGrid c neg m 0
    let y : Int := if neg then -(q : Int) else q
    let (code, ev) := fitInt f c.sat y
    (code, ev ||| if ex then 0 else evNX)

/-- Rounding to E8M0 (R34). -/
def roundE8 (c : RCtx) : Val → Nat × Ev
  | .nan _ => (255, evIV)
  | .inf neg => if neg then (255, evIV) else if c.sat then (254, evSAT) else (255, evIV)
  | .fin neg m =>
    if neg || m.num == 0 then (255, evIV)
    else
      let k := m.log2
      let (t, ex) := m.floorAt (1 - k)      -- |x| / 2^k in halves: 2 or 3
      let pow : Bool := t == 2 && ex
      let r : Int := match c.mode with
        | .rtz | .rdn => k
        | .rup => if pow then k else k + 1
        | _ => if t ≥ 3 then k + 1 else k
      let code := r + 127
      if code > 254 then (if c.sat then (254, evOF ||| evNX ||| evSAT) else (255, evOF ||| evNX))
      else if code < 0 then (0, evUF ||| evNX)
      else (code.toNat, if pow && r == k then 0 else evNX)

/-- `round(fmt, x, mode)` of R47, with R34 for E8M0: the code in the format's register width, and the events. -/
def roundTo (f : Fmt) (c : RCtx) (x : Val) : Nat × Ev :=
  if f.isI then roundI f c x else if f == .e8m0 then roundE8 c x else roundF f c x

/-- A power of two as a magnitude. -/
def pow2Mag (k : Int) : Mag := (Mag.mk 1 1 false).scale k

/-- The exact value of an unscaled code of a floating-point format (R30, R31, R35); PX codes without scale and shift. -/
def decodeF (f : Fmt) (code : Nat) : Val :=
  let neg := code / 2 ^ f.signBit % 2 == 1
  if f.isPx then .fin neg ((Mag.mk (code % 2 ^ f.signBit) 1 false).scale (-(f.fbits : Int)))
  else
    let E := code / 2 ^ f.fbits % 2 ^ f.ebits
    let F := code % 2 ^ f.fbits
    if f.ieee && E == 2 ^ f.ebits - 1 then
      if F == 0 then .inf neg else .nan (F / 2 ^ (f.fbits - 1) % 2 == 0)
    else if f == .e4m3 && E == 15 && F == 7 then .nan false
    else if E == 0 then .fin neg ((Mag.mk F 1 false).scale (f.minExp - (f.fbits : Int)))
    else .fin neg ((Mag.mk (F + 2 ^ f.fbits) 1 false).scale ((E : Int) - f.bias - (f.fbits : Int)))

/-- Whether a code is subnormal (non-zero with a zero exponent field; R30, R144). -/
def subnormalCode (f : Fmt) (code : Nat) : Bool :=
  f.ebits != 0 && code / 2 ^ f.fbits % 2 ^ f.ebits == 0 && code % 2 ^ f.fbits != 0

/-- The scale of one element: the power of two it is multiplied by, or NaN (R33, R35, R44). -/
inductive EScale
  | pow (k : Int)
  | nan
  deriving DecidableEq, Repr

/-- `value(F, ...)` of R140 from the element's code: DAZ (R46) and scale (R44) applied. `mx` says that an E4M3 or
E5M2 code is an MX element, which DAZ leaves alone (R46). -/
def valueOf (f : Fmt) (daz mx : Bool) (sc : EScale) (code : Nat) : Val :=
  if f.isI then
    if f.signedI then let i := sextNat f.width code; .fin (decide (i < 0)) ⟨i.natAbs, 1, false⟩
    else .fin false ⟨code, 1, false⟩
  else if f == .e8m0 then
    if code == 255 then .nan false else .fin false (pow2Mag ((code : Int) - 127))
  else
    match sc with
    | .nan => .nan false
    | .pow k =>
      if daz && f.flushable && !mx && subnormalCode f code then zeroV (code / 2 ^ f.signBit % 2 == 1)
      else match decodeF f code with
        | .fin neg m => .fin neg (m.scale k)
        | v => v

/-- The plain value of a code with no scale. -/
def plainVal (f : Fmt) (daz : Bool) (code : Nat) : Val := valueOf f daz false (.pow 0) code

def Val.isNan : Val → Bool
  | .nan _ => true
  | _ => false

def Val.isSig : Val → Bool
  | .nan s => s
  | _ => false

def Val.isZero : Val → Bool
  | .fin _ m => m.num == 0
  | _ => false

def Val.isInf : Val → Bool
  | .inf _ => true
  | _ => false

def Val.isNeg : Val → Bool
  | .inf n => n
  | .fin n _ => n
  | .nan _ => false

/-- Negates a value. -/
def Val.negate : Val → Val
  | .inf n => .inf (!n)
  | .fin n m => .fin (!n) m
  | v => v

/-- IV when one of the inputs is a signalling NaN (R31). -/
def sigEv (vs : List Val) : Ev := if vs.any Val.isSig then evIV else 0

/-- The signed numerator of a finite value over a common denominator. -/
def signedNum (neg : Bool) (n : Nat) : Int := if neg then -(n : Int) else n

/-- The exact sum of two finite values; a zero sum takes the sign IEEE 754 gives it (R32). -/
def addFin (mode : RMode) (na : Bool) (a : Mag) (nb : Bool) (b : Mag) : Val :=
  if a.num = 0 ∧ b.num = 0 then zeroV (if na = nb then na else mode == .rdn)
  else if a.num = 0 then .fin nb b
  else if b.num = 0 then .fin na a
  else
    let n := signedNum na (a.num * b.den) + signedNum nb (b.num * a.den)
    if n = 0 then zeroV (mode == .rdn) else .fin (decide (n < 0)) ⟨n.natAbs, a.den * b.den, false⟩

/-- The exact product of two finite values. -/
def mulFin (na : Bool) (a : Mag) (nb : Bool) (b : Mag) : Val := .fin (na != nb) ⟨a.num * b.num, a.den * b.den, false⟩

/-- a + b with the events of R54. -/
def addV (mode : RMode) (a b : Val) : Val × Ev :=
  match a, b with
  | .nan s, y => (.nan false, if s || y.isSig then evIV else 0)
  | _, .nan s => (.nan false, if s then evIV else 0)
  | .inf na, .inf nb => if na = nb then (.inf na, 0) else (.nan false, evIV)
  | .inf na, .fin _ _ => (.inf na, 0)
  | .fin _ _, .inf nb => (.inf nb, 0)
  | .fin na ma, .fin nb mb => (addFin mode na ma nb mb, 0)

/-- a × b with the events of R54. -/
def mulV (a b : Val) : Val × Ev :=
  match a, b with
  | .nan s, y => (.nan false, if s || y.isSig then evIV else 0)
  | _, .nan s => (.nan false, if s then evIV else 0)
  | .inf na, .inf nb => (.inf (na != nb), 0)
  | .inf na, .fin nb m => if m.num = 0 then (.nan false, evIV) else (.inf (na != nb), 0)
  | .fin na m, .inf nb => if m.num = 0 then (.nan false, evIV) else (.inf (na != nb), 0)
  | .fin na ma, .fin nb mb => (mulFin na ma nb mb, 0)

/-- a / b with the events of R54. -/
def divV (a b : Val) : Val × Ev :=
  match a, b with
  | .nan s, y => (.nan false, if s || y.isSig then evIV else 0)
  | _, .nan s => (.nan false, if s then evIV else 0)
  | .inf _, .inf _ => (.nan false, evIV)
  | .inf na, .fin nb _ => (.inf (na != nb), 0)
  | .fin na _, .inf nb => (zeroV (na != nb), 0)
  | .fin na ma, .fin nb mb =>
    if mb.num = 0 then (if ma.num = 0 then (.nan false, evIV) else (.inf (na != nb), evDZ))
    else (.fin (na != nb) ⟨ma.num * mb.den, ma.den * mb.num, false⟩, 0)

/-- a × b + c with one exact result; 0 × ∞ raises IV even when c is a quiet NaN (R115, R140). -/
def fmaV (mode : RMode) (a b c : Val) : Val × Ev :=
  let sg := sigEv [a, b, c]
  let bad : Bool := (a.isZero && b.isInf) || (a.isInf && b.isZero)
  if bad then (.nan false, sg ||| evIV)
  else if a.isNan || b.isNan || c.isNan then (.nan false, sg)
  else
    let (p, _) := mulV a b
    let (s, e) := addV mode p c
    (s, sg ||| e)

/-- √a with the events of R54 and R141. -/
def sqrtV : Val → Val × Ev
  | .nan s => (.nan false, if s then evIV else 0)
  | .inf neg => if neg then (.nan false, evIV) else (.inf false, 0)
  | .fin neg m =>
    if m.num = 0 then (zeroV neg, 0)
    else if neg then (.nan false, evIV)
    else (.fin false { m with root := true }, 0)

/-- 1/√a (R141). -/
def rsqrtV : Val → Val × Ev
  | .nan s => (.nan false, if s then evIV else 0)
  | .inf neg => if neg then (.nan false, evIV) else (zeroV false, 0)
  | .fin neg m =>
    if m.num = 0 then (.inf neg, evDZ)
    else if neg then (.nan false, evIV)
    else (.fin false ⟨m.den, m.num, true⟩, 0)

/-- 1/a (R141). -/
def rcpV : Val → Val × Ev
  | .nan s => (.nan false, if s then evIV else 0)
  | .inf neg => (zeroV neg, 0)
  | .fin neg m => if m.num = 0 then (.inf neg, evDZ) else (.fin neg ⟨m.den, m.num, false⟩, 0)

/-- floor(log2 |a|) (R141). -/
def logbV : Val → Val × Ev
  | .nan s => (.nan false, if s then evIV else 0)
  | .inf _ => (.inf false, 0)
  | .fin _ m =>
    if m.num = 0 then (.inf true, evDZ)
    else let k := m.log2; (.fin (decide (k < 0)) ⟨k.natAbs, 1, false⟩, 0)

/-- The integer a finite value holds (its denominator is 1). -/
def Val.toInt : Val → Int
  | .fin neg m => let n := m.num / m.den; if neg then -(n : Int) else n
  | _ => 0

/-- An integer as a value. -/
def intVal (i : Int) : Val := .fin (decide (i < 0)) ⟨i.natAbs, 1, false⟩

/-- a × 2^b (R141). -/
def scalbV (a : Val) (b : Int) : Val × Ev :=
  match a with
  | .nan s => (.nan false, if s then evIV else 0)
  | .inf n => (.inf n, 0)
  | .fin neg m => if m.num = 0 then (.fin neg m, 0) else (.fin neg (m.scale b), 0)

/-- Exact comparison of two values that are not NaN; −0 and +0 are equal (R32). -/
def cmpV (a b : Val) : Ordering :=
  match a, b with
  | .inf na, .inf nb => if na = nb then .eq else if na then .lt else .gt
  | .inf na, _ => if na then .lt else .gt
  | _, .inf nb => if nb then .gt else .lt
  | .fin na ma, .fin nb mb => compare (signedNum na (ma.num * mb.den)) (signedNum nb (mb.num * ma.den))
  | _, _ => .eq

/-- The bits a saturating value v would need at 2^b beyond which every rounding agrees: VSCALB's exponent is bounded so
that exact numbers stay small (R141 computes a × 2^b exactly; beyond the bound the rounded result no longer changes). -/
def clampExp (b : Int) : Int := max (-8192) (min 8192 b)

/-- The one-hot class of R116 for a code of a format with scale `sc` (R144). -/
def classOf (f : Fmt) (sc : EScale) (code : Nat) : Nat :=
  if sc == .nan then 2 ^ 9
  else match decodeF f code with
    | .nan true => 2 ^ 8
    | .nan false => 2 ^ 9
    | .inf true => 2 ^ 0
    | .inf false => 2 ^ 7
    | .fin neg m =>
      if m.num = 0 then (if neg then 2 ^ 3 else 2 ^ 4)
      else if subnormalCode f code then (if neg then 2 ^ 2 else 2 ^ 5)
      else (if neg then 2 ^ 1 else 2 ^ 6)

/-- The selection of FMIN and FMAX (R115): the chosen source's bits, or the canonical NaN; R144 gives +0 and IV where the
format has no NaN code. `av`, `bv` are the values after DAZ. -/
def selMinMax (f : Fmt) (isMax prop : Bool) (av bv : Val) (a b : Nat) : Nat × Ev :=
  let sg := sigEv [av, bv]
  let nanOut : Nat × Ev := if f.hasNan then (f.qnan, sg) else (0, sg ||| evIV)
  if av.isNan && bv.isNan then nanOut
  else if av.isNan then (if prop then nanOut else (b, sg))
  else if bv.isNan then (if prop then nanOut else (a, sg))
  else match cmpV av bv with
    | .eq => (a, sg)
    | .lt => (if isMax then b else a, sg)
    | .gt => (if isMax then a else b, sg)

/-- A leaf or node of the summation tree (R53): its value, the lowest active leaf under it, and whether a poisoned leaf
lies under it. -/
structure TNode (α : Type) where
  val : α
  low : Nat
  pois : Bool
  deriving DecidableEq, Repr

/-- One level of the tree: pairs of nodes combined (R53). -/
def treePairs {α β : Type} (f : Nat → TNode α → TNode α → TNode α × β) (lvl : Nat) :
    List (Option (TNode α)) → List (Option (TNode α)) × List β
  | [] => ([], [])
  | [a] => ([a], [])
  | a :: b :: t =>
    let (ns, es) := treePairs f lvl t
    match a, b with
    | none, y => (y :: ns, es)
    | x, none => (x :: ns, es)
    | some x, some y => let (n, e) := f lvl x y; (some n :: ns, e :: es)

/-- The tree above a level, to its root; `fuel` is the number of levels left (R53). -/
def treeUp {α β : Type} (f : Nat → TNode α → TNode α → TNode α × β) :
    Nat → Nat → List (Option (TNode α)) → List β → Option (TNode α) × List β
  | 0, _, ns, es => (ns.headD none, es)
  | fuel + 1, lvl, ns, es =>
    let (ns', es') := treePairs f lvl ns
    treeUp f fuel (lvl + 1) ns' (es ++ es')

/-- The number of levels of the tree over n leaves: log2 of P (R53). -/
def treeLevels (n : Nat) : Nat := if n ≤ 1 then 0 else Nat.log2 (n - 1) + 1

/-- The summation tree of R53 over leaves padded with ABSENT to a power of two. -/
def treeOf {α β : Type} (f : Nat → TNode α → TNode α → TNode α × β) (leaves : List (Option (TNode α))) :
    Option (TNode α) × List β :=
  let n := leaves.length
  let k := treeLevels n
  treeUp f k 1 (leaves ++ List.replicate (2 ^ k - n) none) []

end Sys2Proof.Machine
end

