-- ==== Sys2Proof/Machine/State.lean ====
section
/-! DEFINITION. The state of the device as plain data: everything the spec gives the machine, and the few fields the
model needs to say what happens next. Also the reasons a step can stop, and the state after reset. -/

namespace Sys2Proof.Machine

/-- Why the machine stops with a fault. -/
inductive Fault
  /-- A host or a fabric transaction names a local physical address at which R271 places no memory. Raised by
  HOST_CXL_MEM_REQUEST and the fabric events at a home. Safe: the device's own accesses never reach such an address,
  since an entry that names one is a bad entry. -/
  | noMemory
  deriving DecidableEq, Repr

/-- Why an instruction has no meaning here. -/
inductive Refusal
  /-- The instruction of this mnemonic is not modelled. Raised by `exec` alone, in the arms that stand refused. Safe:
  the machine stops. -/
  | notModelled (mnemonic : String)
  deriving DecidableEq, Repr

/-- The three roles of a triad (R6, "Triads and their three roles"). -/
inductive Role
  | loader | computer | storer
  deriving DecidableEq, Repr

/-- The number of a role: 0 loader, 1 computer, 2 storer (R349). -/
def Role.num : Role → Nat
  | .loader => 0
  | .computer => 1
  | .storer => 2

/-- The three roles in their order. -/
def roles : List Role := [.loader, .computer, .storer]

/-- The contents of a vector register, ring entry or mask: bit i of the number is bit i of the register (R129, R132). -/
abbrev Bits := Nat

/-- A thread: a role of the triad with a context number (R347). -/
structure Tid where
  ctxn : Nat
  role : Role
  deriving DecidableEq, Repr

/-- One trap that a role has met: what its role block will record (R352, R353). -/
structure TrapPost where
  cls : Nat
  sub : Nat := 0
  elem : Nat := 0
  unit : Nat := 0
  eng : Bool := false
  faddr : Word := 0
  npage : Nat := 0
  pages : List (Nat × Nat) := []
  resume : Word := 0
  cont : Bool := false
  reissue : Bool := false
  cnt : List Nat := []
  held : BitVec 6 := 0
  hix : List Nat := []
  /-- the engine command that met it, by its order (R284) -/
  cmd : Option Nat := none
  deriving DecidableEq, Repr

/-- One VP of a VFETCH: its pc, live bit and SR count (R93, R49). -/
structure Vp where
  pc : Word
  live : Bool
  sr : Nat
  deriving DecidableEq, Repr

/-- A VFETCH in progress (R93 to R95): EW, the number of VPs, the VPs by index, the events so far with their lowest
index by class, and the blocks its cohorts have entered. -/
structure VpState where
  ew : Nat
  total : Nat
  vps : Tbl Vp
  held : BitVec 6
  hix : List Nat
  blocks : Tbl (List Word)
  /-- the pc of the cohort that issues next -/
  cohort : Option Word
  /-- SN as it stood at the issue of the VFETCH (R50) -/
  sn : Word
  /-- the VP whose cohort issued last (R94) -/
  lastVp : Nat
  deriving DecidableEq, Repr

/-- One entry of a ring: its bits and its poisoned EGs (R90). `open_` marks an entry that an instruction stopped by a page
fault holds and goes on filling (R91, R282). -/
structure RingEnt where
  bits : Bits
  pois : NatSet
  open_ : Bool := false
  deriving DecidableEq, Repr

/-- The vector state of a slot (R357). `pois` holds 64·k + g for each poisoned EG g of vk. -/
structure VecState where
  v : Tbl Bits
  pois : NatSet
  m : Tbl Bits
  rings : Tbl (List RingEnt)
  cfg : Word
  vp : Option VpState
  deriving DecidableEq, Repr

/-- What an access carries of its thread (R275): privilege, SY_PTBASE, SY_DOMAIN.TAG and SY_KEYSEL.PTKEY. -/
structure Cred where
  priv : Bool
  ptbase : Word
  tag : Nat
  ptkey : Nat
  deriving DecidableEq, Repr

/-- Conditions that a command has met, by R219: the statuses other than DONE. -/
abbrev StatSet := List Nat

/-- A bank command (R264 to R267). `tid` is none once its gang was killed; `order` is its place among those that wait; `pages`
gives for each 64 KiB granule that it touches its frame and key slot; `left` names the BAUs that have not applied their
part; `sums` holds the row results of ROWRED that are computed and not all written; `entry` is its invocation. -/
structure BankCmd where
  tid : Option Tid
  entry : Nat
  core : Nat
  asid : Nat
  order : Nat
  op : Nat
  fmt : Nat
  red : Nat
  d : Nat
  s : Nat
  n : Nat
  u : Nat
  alpha : Word
  idx : List Nat
  vals : List (Nat × Bool)
  pages : Tbl (Nat × Nat)
  left : NatSet
  sums : Tbl (Nat × Bool)
  met : StatSet
  deriving DecidableEq, Repr

/-- What a role waits for at a stalled instruction. -/
inductive Stall
  /-- entries of the rings that it reads, and room in the one it writes (R91) -/
  | ring (reads : List Nat) (write : Option Nat)
  /-- the other roles' VCFG (R88); the word and the register that takes the old one -/
  | vcfg (w : Word) (xd : Nat)
  /-- the VPs of its VFETCH (R93) -/
  | vfetch (f : FmtJ)
  /-- a tile slot (R196) -/
  | mtalloc (f : FmtE)
  /-- a weight-buffer granule whose fill is pending, or an earlier tile instruction of its triad (R196, R209, R215) -/
  | granule
  /-- the windows that its lane groups have not performed yet (R130, R180) -/
  | windows
  /-- its own fill of weight-buffer granules (R209) -/
  | mwfill (f : FmtE)
  /-- its copy channel (R216) -/
  | channel (c : Nat)
  /-- a watermark (R229) -/
  | watermark
  /-- copy channels (R231) -/
  | cwait (f : FmtE)
  /-- room in the queues of bank units (R264) -/
  | bkop (c : BankCmd) (xd : Nat)
  /-- the application of its bank commands (R269) -/
  | bkfence (f : FmtY)
  /-- room in the topology engine's queue (R308); the mesh entry that the command found sealed, and those that it builds -/
  | topo (f : FmtE) (op : Nat) (blk : List Byte) (mesh : Option Nat) (build : List Nat)
  /-- the readers of a mesh object; none once its entry is free (R297) -/
  | mfree (f : FmtE) (ent : Option Nat)
  /-- a completion word (R320, R342) -/
  | mquery (f : FmtE)
  | tstat (f : FmtE)
  /-- room in a ring of task records (R340) -/
  | tsubmit (f : FmtE) (recd : List Byte)
  /-- acknowledgement of its remote stores (R248) -/
  | fence (f : FmtY)
  /-- the vector instructions of its slot, before VSAVE (R360) -/
  | vsave
  /-- acknowledgement of its remote stores in the streams of a mask, before SBAR, VFBAR, TSIGNAL, XINV or XINVALL goes on -/
  | drain (mask : Nat)
  /-- a barrier phase (R258); the status that its fence gave -/
  | barrier (cell : Nat) (phase : Nat) (xd : Nat) (peer : Bool)
  /-- accesses made through entries that an XINV or XINVALL dropped: writes and reads by their numbers, bank commands by order
  (R280) -/
  | xinv (writes bank reads : List Nat)
  /-- remote read data (R191, R253) -/
  | remote
  /-- the response to a remote atomic (R382); of a TSIGNAL `add`, the status of its fence, which xd takes (R341) -/
  | atomic (lcn wseq : Nat) (xd : Nat) (t : Nat) (ea : Word) (fence : Option Nat)
  /-- responses to the remote elements of a VAMO with RET: the register and element width that take the old values, the
  elements sent (LCN, WSEQ, element), the results so far (element, bits, poison), and a page fault to report (R189, R377) -/
  | vatomic (v w : Nat) (wait : List (Nat × Nat × Nat)) (got : List (Nat × Nat × Bool)) (post : Option TrapPost)
  /-- room in the replay buffer for a number of flits (R375) -/
  | replay (flits : Nat)
  /-- acknowledgement of replayed writes (R384) -/
  | freplay (f : FmtE) (last : Nat)
  /-- a result-log answer (R383) -/
  | fstat (f : FmtE)
  /-- an identity change on the management ring (R385) -/
  | swapid (xd : Nat)
  deriving DecidableEq, Repr

/-- How a role resumes after TRET (R354 to R356): CONT or REISSUE, the counters, the held events and their indices, the
phase that a barrier wait awaits and FPEER. -/
structure Resume where
  cont : Bool
  reissue : Bool
  cnt : List Nat
  held : BitVec 6
  hix : List Nat
  phase : Nat
  fpeer : Bool
  deriving DecidableEq, Repr

/-- A line read from another chip: its bytes and whether it came poisoned (R191, R371). -/
structure RLine where
  data : List Byte
  pois : Bool
  deriving DecidableEq, Repr

/-- A tile instruction that was issued and is not complete (R215): its place in the order of issue, the slots that it names and the
ranges of weight-buffer bytes, by offset and length. -/
structure TileUse where
  order : Nat
  slots : List Nat
  bytes : List (Nat × Nat)
  deriving DecidableEq, Repr

/-- One role of a triad: registers (R105), VL (R127), privilege (R106), the block it runs (R61), and how it waits. -/
structure RoleState where
  x : Tbl Word
  pc : Word
  blkBase : Word
  blk : List Word
  vl : Nat
  priv : Bool
  ended : Bool
  inHandler : Bool
  stall : Option Stall
  resume : Option Resume
  /-- a trap of this role that the triad has not stopped for yet -/
  trap : Option TrapPost
  /-- asynchronous traps that wait for an instruction boundary (R345) -/
  async : List TrapPost
  /-- remote lines that have arrived for the instruction at pc, by line number; where its elements are performed in order, the
  data of each access by `accKey` (R244) -/
  rbuf : Tbl RLine
  /-- remote lines asked for and not yet here -/
  want : NatSet
  /-- statuses of bank commands joined by no BKFENCE yet (R269) -/
  bank : List Nat
  /-- the (kind, frame) pairs that the instruction at pc has logged (R291) -/
  logged : List (Nat × Nat)
  /-- the tile instruction at pc, once issued -/
  tile : Option TileUse
  /-- the mesh entry that the VNBR or VFACE at pc found sealed (R297) -/
  mesh : Option Nat
  /-- the engine command whose fault the role's record reports, by its order (R284) -/
  reported : Option Nat
  deriving DecidableEq, Repr

/-- A window binding (R233). -/
structure Win where
  base : Word
  size : Nat
  deriving DecidableEq, Repr

/-- A stream descriptor (R326): its four words. -/
structure Desc where
  w0 : Word
  w1 : Word
  w2 : Word
  w3 : Word
  deriving DecidableEq, Repr

/-- The operands of a copy command (R222, R225, R238). -/
inductive CopyOp
  | stream (src dst : Word) (stride : Int) (n wm wr : Nat) (sx : Bool)
  | tensor (blk : List Byte) (sadd dadd : Word)
  | remap (recs old new : Word) (f64 : Bool) (ncomp : Nat)
  deriving DecidableEq, Repr

/-- What an engine read gives: its bytes, and whether they are poisoned or denied. -/
structure Got where
  bytes : List Byte
  pois : Bool
  denied : Bool
  deriving DecidableEq, Repr

/-- A part of an engine command that is done, with what it gave: a command that goes on after a pause does not do it again
(R284). -/
inductive EngStep
  | read (g : Got)
  | write (ok : Bool)
  /-- which bytes a write that meets an earlier one leaves to it (R225, R238) -/
  | choice (bytes : List Bool)
  /-- it stopped here: a lost peer or an isolated port -/
  | stop
  /-- where a part object goes: nowhere, to another chip, or here under a mesh entry (R318) -/
  | entry (i : Option (Option Nat))
  deriving DecidableEq, Repr

/-- A copy command in flight (R217, R227, R230). `prog` elements have been reached; `missed` are those that were not written;
`ended` says that no element is left; `faulted` that it waits for the service of a translation fault; `order` is its place
among the engine commands of the device. -/
structure CopyCmd where
  op : CopyOp
  role : Role
  cred : Cred
  order : Nat
  prog : Nat
  missed : NatSet
  ended : Bool
  faulted : Bool
  met : StatSet
  logged : List (Nat × Nat)
  reads : List (Nat × Nat)
  writes : List (Nat × Nat)
  /-- remote stores of its thread that come before it, by number (R251) -/
  after : List Nat
  /-- the counts NREC, NOLD and NNEW of its remap list, once known (R238) -/
  hdr : Option (Nat × Nat × Nat)
  /-- what is done of the element that it has reached -/
  log : List EngStep := []
  /-- the sheet granules that it has read (R226) -/
  sheet : Tbl Got := []
  /-- destinations written, where a later element may name one again (R225, R238) -/
  news : List Int := []
  deriving DecidableEq, Repr

/-- A copy channel: completion word fields (R217), watermark (R228) and the command in flight. -/
structure Chan where
  donen : Nat
  status : Nat
  wmA : Bool
  mark : Nat
  dhi : Nat
  cmd : Option CopyCmd
  deriving DecidableEq, Repr

/-- A started triad (R84, R104, R333). -/
structure Triad where
  core : Nat
  slot : Nat
  gang : Nat
  queue : Nat
  gangId : Nat
  gangs : Nat
  triadId : Nat
  loader : RoleState
  computer : RoleState
  storer : RoleState
  vstat : Word
  eix : List Word
  seed : Word
  sn : Word
  ptbase : Word
  tag : Nat
  ptkey : Nat
  traprec : Word
  wins : Tbl Win
  streams : Tbl Desc
  chans : Tbl Chan
  /-- the role that trapped first, while the triad stops (R349) -/
  trapper : Option Role
  /-- the role in a handler, while one is -/
  handling : Option Role
  parked : Bool
  /-- a forced pre-emption waits (R338) -/
  wdog : Bool
  /-- the roles of its latest issues to the vector unit, the last one first (R92) -/
  issued : List Role
  deriving DecidableEq, Repr

/-- A vector slot of a core: the owner of its vector state (R357) and that state. -/
structure Slot where
  owner : Option Nat
  vec : VecState
  deriving DecidableEq, Repr

/-- A bound barrier cell (R255). -/
structure Cell where
  gang : Nat
  name : Nat
  expect : Nat
  arrived : Nat
  phase : Nat
  deriving DecidableEq, Repr

/-- A cached entry of a translation cache (R277): the ASID, the level, the page or node that va names, the entry. -/
structure Tlb where
  asid : Nat
  level : Nat
  page : Nat
  ent : Word
  deriving DecidableEq, Repr

/-- An entry of the parameter-block cache (R235). -/
structure PBlk where
  /-- the invocation whose window it is -/
  entry : Option Nat
  win : Nat
  off : Nat
  data : List Byte
  deriving DecidableEq, Repr

/-- What a core holds: SY_TRAPVEC (R346), barrier cells (R255), caches (R277, R235) and the slot served last (R92). -/
structure Core where
  trapvec : Word
  cells : Tbl Cell
  tlb : List Tlb
  pblk : List PBlk
  lastSlot : Nat
  deriving DecidableEq, Repr

/-- A held or dirty sheet unit (R173). -/
structure SheetUnit where
  gang : Option Nat
  tag : Nat
  deriving DecidableEq, Repr

/-- A tile slot of one slab (R193 to R196): its shape, holder (context number), the gang that kept it, its rows
(a row that is not listed holds +0), and the row flags. -/
structure Tile where
  fp64 : Bool
  holder : Option Nat
  kept : Option Nat
  rows : Tbl (List Nat)
  flags : NatSet
  deriving DecidableEq, Repr

/-- The weight buffer of one slab (R195): bytes, poisoned granules and pending granules. -/
structure WBuf where
  bytes : List Host.Cell
  pois : NatSet
  pend : NatSet
  deriving DecidableEq, Repr

/-- An entry of the mesh table that is building or sealed (R295). -/
structure MeshEnt where
  isSealed : Bool
  /-- the object's first frame -/
  base : Nat
  /-- its physical extents: first address and bytes -/
  exts : List (Nat × Nat)
  tag : Nat
  deriving DecidableEq, Repr

/-- A topology-engine command (R308 to R312). `busy` says that its completion word shows BUSY; `result` is its COUNT once all
its writes are made. -/
structure TopoCmd where
  tid : Tid
  /-- the core it was issued on -/
  core : Nat
  op : Nat
  blk : List Byte
  cred : Cred
  order : Nat
  /-- the mesh entries it builds, and the one it reads -/
  build : List Nat
  mesh : Option Nat
  faulted : Bool
  ended : Bool
  busy : Bool
  /-- its gang was killed: it makes no access but the last (R308) -/
  aborted : Bool
  result : Option Nat
  met : StatSet
  logged : List (Nat × Nat)
  /-- what it has done, while it waits for service or for room (R284) -/
  log : List EngStep
  sheet : Tbl Got
  deriving DecidableEq, Repr

/-- The topology engine of a die (R308). -/
structure Topo where
  queue : List TopoCmd
  running : List TopoCmd
  deriving DecidableEq, Repr

/-- The fields of a task record (R325). -/
structure Rec where
  prog : List Word
  shape : Word
  sheet : Word
  seed : Word
  ptbase : Word
  ctx : Word
  cw : Word
  streams : Tbl Desc
  wins : Tbl Win
  deriving DecidableEq, Repr

/-- A submission queue (R321 to R323, R327, R330, R336). -/
structure Queue where
  base : Word
  en : Bool
  state : Nat
  dom : Nat
  devsub : Bool
  privok : Bool
  serial : Bool
  cwlost : Bool
  cls : Nat
  quant : Nat
  log2sz : Nat
  head : Nat
  tail : Nat
  fault : Word
  seq : Nat
  inh : Rec
  taken : Bool
  /-- a checked record at Q_HEAD that waits, with its length in bytes -/
  ready : Option (Rec × Nat)
  deficit : Nat
  /-- the entry of its latest invocation (R329, R330) -/
  last : Option Nat
  wdEn : Bool
  wdStage : Nat
  wdGrace : Nat
  wdLimit : Nat
  /-- ns counted without progress (R337), and ns since a pre-emption was forced -/
  wdNs : Nat
  wdForced : Option Nat
  deriving DecidableEq, Repr

/-- A scoreboard entry (R330, R334). -/
structure Entry where
  rcd : Rec
  queue : Nat
  cls : Nat
  order : Nat
  placed : Nat
  retired : Nat
  killedGangs : Nat
  dropped : Bool
  fills : StatSet
  deriving DecidableEq, Repr

/-- A resident gang (R101, R331). -/
structure Gang where
  entry : Nat
  gangId : Nat
  tag : Nat
  cores : List Nat
  slots : List (Nat × Nat)
  soff : Nat
  slen : Nat
  k : Nat
  ctxns : List Nat
  retired : Nat
  started : Bool
  preempted : Bool
  deriving DecidableEq, Repr

/-- An identity-table entry (R366). -/
structure Ident where
  state : Nat
  shv : Bool
  cur : Bool
  shport : Nat
  port : Nat
  deriving DecidableEq, Repr

/-- SY_IDTAB (R367). -/
structure IdTab where
  fen : Bool
  rep : Bool
  shd : Bool
  cur : Bool
  fst : Nat
  shlcn : Nat
  port : Nat
  lcn : Nat
  deriving DecidableEq, Repr

/-- A transaction in the replay buffer (R375): its home, owner (none: an engine) and whether it is abandoned (R377).
`returns` says that a role waits for its answer. -/
structure Replay where
  /-- its number among the transactions that this device has sent -/
  num : Nat
  lcn : Nat
  txn : Txn
  owner : Option Tid
  returns : Bool
  abandoned : Bool
  /-- the address stream of the access (R242) -/
  stream : Nat
  /-- the engine command that made it, by its order, and the element that it wrote -/
  cmd : Option Nat
  elem : Nat
  /-- the core and the ASID under which its address was translated (R280) -/
  via : Option (Nat × Nat)
  /-- the invocation that made it (R334) -/
  entry : Option Nat
  /-- the queue whose completion word it is (R335) -/
  cw : Option Nat
  deriving DecidableEq, Repr

/-- An entry of the replay buffer for a transaction to a home. -/
def Replay.of (lcn : Nat) (t : Txn) : Replay :=
  { num := 0, lcn := lcn, txn := t, owner := none, returns := false, abandoned := false, stream := 0, cmd := none, elem := 0, via := none,
    entry := none, cw := none }

/-- A read that was sent and not answered (R373): its number among the transactions sent, and the core and the ASID under which its
address was translated (R280). -/
structure OutRead where
  lcn : Nat
  txn : Txn
  tid : Tid
  num : Nat
  /-- where its first line goes in the buffer of the thread that asked -/
  slot : Nat
  via : Option (Nat × Nat)
  deriving DecidableEq, Repr

/-- An entry of the result log (R374). -/
structure LogEnt where
  sport : Nat
  wseq : Nat
  old : Word
  time : Nat
  deriving DecidableEq, Repr

/-- A change that travels on the management ring (R385); `asker` is a thread, or none for a host. -/
structure Change where
  op : Nat
  force : Bool
  lcn : Nat
  port : Nat
  asker : Option Tid
  deriving DecidableEq, Repr

/-- The fabric side of the device (R366 to R381). -/
structure Fabric where
  idtab : IdTab
  idents : Tbl Ident
  wseq : Tbl Nat
  replay : List Replay
  reads : List OutRead
  nextNum : Nat
  expect : Tbl Nat
  lseq : Tbl Nat
  rlog : List LogEnt
  heldAtomics : List Txn
  /-- parts of units that are not whole yet, as they arrived (R250) -/
  heldUnits : List Txn
  marks : Tbl Nat
  known : NatSet
  /-- LCNs that were taken over and whose swap mark has not arrived (R381) -/
  awaited : NatSet
  /-- swap marks that this device has published on the ring: LCN, source port, mark (R381) -/
  swapMarks : List (Nat × Nat × Nat)
  ring : List Change
  heard : Tbl Nat
  hbLast : Nat
  frame : Nat
  /-- paths that carry a transaction: input, output, frames left (R372) -/
  paths : List (Nat × Nat × Nat)
  grants : Tbl Nat
  resets : List (Nat × Option Nat)
  fenced : List Nat
  stopped : Bool
  /-- acknowledgements that wait for the replica: source port and WSEQ of the write, WSEQ of its forward (R380) -/
  shadowWait : List (Nat × Nat × Nat)
  /-- the next line that the shadow sweep sends, while one is under way (R380) -/
  sweep : Option Nat
  /-- ports that the slices have disabled (R376) -/
  disabled : NatSet
  /-- errors on one lane that were corrected (R373) -/
  corrected : Nat
  out : List Txn
  notices : List Nat
  deriving DecidableEq, Repr

/-- A CXL port (R387, R388, R390). -/
structure Port where
  expander : Bool
  link : Bool
  iso : Bool
  deriving DecidableEq, Repr

/-- SY_SEM (R392); `remNs` counts the lease in nanoseconds. -/
structure Sem where
  owner : Nat
  takes : Nat
  lease : Nat
  remNs : Nat
  deriving DecidableEq, Repr

/-- A vendor-defined message that goes out on a port: its code, vendor, subtype byte and payload (R389). -/
structure VendorMsg where
  port : Nat
  code : BitVec 8
  vendor : BitVec 16
  subtype : BitVec 8
  payload : BitVec 128
  deriving DecidableEq, Repr

/-- What a host's read is answered: the port, the bytes, and the lines among them that are poisoned (R386). -/
structure HostAnswer where
  port : Nat
  data : List Byte
  poisoned : List Nat
  deriving DecidableEq, Repr

/-- The I/O die: ports, control registers, semaphore, bring-up and power (R386 to R398). -/
structure IoDie where
  port0 : Port
  port1 : Port
  pool : Word
  poolSet : Bool
  pwrlim : Nat
  sem : Sem
  keydata : List Byte
  idcmd : Nat
  mbox : List Byte
  mrs : List (List Byte)
  /-- the seed of the attestation key that the firmware made at this boot (R396) -/
  attest : Nat
  stage : Nat
  code : Nat
  trained : Nat
  /-- the arithmetic clock in steps of 93.75 MHz: 16 is 1.5 GHz (R28) -/
  clock : Nat
  hbmFull : Bool
  admitPaused : Bool
  /-- 0 D0, 1 D3hot, 2 D3cold (R397) -/
  power : Nat
  fatal : Bool
  hints : List VendorMsg
  answers : List HostAnswer
  deriving DecidableEq, Repr

/-- Memory and what stands beside its bytes: poisoned lines, lines with an uncorrectable error, and the key each line
of HBM4E or an expander was written under; the lines that a host holds, by port, and those that were recalled from one (R386).
Local physical addresses come first; atlas address t stands at 2^44 + t. -/
structure Mem where
  cells : List Host.Cell
  pois : NatSet
  ue : NatSet
  keyed : Tbl Nat
  held : Tbl Nat
  recalls : List (Nat × Nat)
  deriving DecidableEq, Repr

/-- What happens next, when something other than the current thread acts. -/
inductive Pick
  /-- a thread takes a step -/
  | run (t : Tid)
  /-- the shadow sweep sends a line (R380) -/
  | sweep
  /-- an event of the table happens, with what it says -/
  | event (i : Instr) (o : Occasion)
  /-- time passes, in ns -/
  | tick (ns : Nat)
  deriving DecidableEq, Repr

/-- The state of the device. What follows `io` is the model's own. (DESIGN CHOICE, log entry 74.) -/
structure State where
  mem : Mem
  time : Nat
  triads : Tbl Triad
  slots : Tbl Slot
  cores : Tbl Core
  /-- binding mode by 7·die + working quad (R21) -/
  modes : Tbl Nat
  /-- by 64·(28·die + w) + unit (R173) -/
  units : Tbl SheetUnit
  /-- dies whose sheets have been zeroed since reset (R173) -/
  zeroed : NatSet
  /-- by 8·(28·die + w) + slot number (R193) -/
  tiles : Tbl Tile
  /-- by 28·die + w (R195) -/
  wbufs : Tbl WBuf
  bank : List BankCmd
  topos : Tbl Topo
  meshes : Tbl MeshEnt
  queues : Tbl Queue
  entries : Tbl Entry
  gangs : Tbl Gang
  /-- the queue of each class that was served last (R330) -/
  lastQueue : Tbl Nat
  deny : List Word
  denyLost : Nat
  /-- key material of the key slots that hold a key (R292); slot 0 is never empty -/
  keys : Tbl Nat
  fab : Fabric
  io : IoDie
  /-- the current thread -/
  cur : Tid
  /-- what the event that happens says -/
  occ : Occasion
  /-- what happens before anything else -/
  agenda : List Pick
  /-- whose turn it is among the threads and the events of the device -/
  turn : Nat
  /-- how many open values were used; the next is `Config.freeValue fresh` -/
  fresh : Nat
  /-- numbers for gangs, entries and engine commands in their order -/
  serial : Nat
  /-- how many windows each lane group performs of the vector memory instruction whose turn it is: two bits for each; none,
  all (R130) -/
  slip : Option Word
  deriving DecidableEq, Repr

def RoleState.start (pc : Word) (priv : Bool) : RoleState :=
  { x := [], pc := pc, blkBase := 0, blk := [], vl := 0, priv := priv, ended := false, inHandler := false, stall := none,
    resume := none, trap := none, async := [], rbuf := [], want := [], bank := [], logged := [], tile := none, mesh := none,
    reported := none }

/-- The default configuration word (R87). -/
def defaultCfg : Word := 0x55000982#64

/-- The vector state at triad start (R84). -/
def VecState.start : VecState := ⟨[], [], [], [], defaultCfg, none⟩

def Slot.init : Slot := ⟨none, VecState.start⟩

def Chan.init : Chan := ⟨0, 0, false, 0, 0, none⟩

def Core.init : Core := ⟨0, [], [], [], 3⟩

def Tile.init : Tile := ⟨false, none, none, [], []⟩

def WBuf.init : WBuf := ⟨[], [], []⟩

def Topo.init : Topo := ⟨[], []⟩

def Rec.init : Rec := ⟨[0, 0, 0], 0, 0, 0, 0, 0, 0, [], []⟩

/-- A queue after reset (R322, R327, R336). (DESIGN CHOICE, log entry 6.) -/
def Queue.init : Queue :=
  { base := 0, en := false, state := 0, dom := 0, devsub := false, privok := false, serial := false, cwlost := false,
    cls := 0, quant := 0x1000, log2sz := 12, head := 0, tail := 0, fault := 0, seq := 0, inh := Rec.init, taken := false,
    ready := none, deficit := 0, last := none, wdEn := true, wdStage := 0, wdGrace := 1000, wdLimit := 100000, wdNs := 0,
    wdForced := none }

def Ident.init : Ident := ⟨0, false, false, 0, 0⟩

def Fabric.init : Fabric :=
  { idtab := ⟨false, false, false, false, 0, 0, 0, 0⟩, idents := [], wseq := [], replay := [], reads := [], nextNum := 0,
    expect := [], lseq := [], rlog := [], heldAtomics := [], heldUnits := [], marks := [], known := [], awaited := [],
    swapMarks := [], ring := [], heard := [], hbLast := 0,
    frame := 0, paths := [], grants := [], resets := [], fenced := [], stopped := false, shadowWait := [], sweep := none, disabled := [],
    corrected := 0, out := [], notices := [] }

/-- Memory that lists nothing. -/
def Mem.none : Mem := ⟨[], [], [], [], [], []⟩

def Port.init : Port := ⟨false, false, false⟩

def IoDie.init : IoDie :=
  { port0 := Port.init, port1 := Port.init, pool := 0, poolSet := false, pwrlim := 2400, sem := ⟨0, 0, 100, 0⟩,
    keydata := List.replicate 64 0, idcmd := 0, mbox := [], mrs := List.replicate 8 (List.replicate 64 0), attest := 0, stage := 0,
    code := 0, trained := 0, clock := 16, hbmFull := false, admitPaused := false, power := 0, fatal := false, hints := [], answers := [] }

def Txn.none : Txn := ⟨0, 0, 0, 0, 0, 0, 0, 0, 0, 0, 0, [], 0, 0, 0, 0, [], [], 0, false⟩

/-- An occasion that says nothing. -/
def Occasion.none : Occasion :=
  ⟨0, 0, 0, 0, 0, false, false, [], ⟨[], [], []⟩, ⟨false, false, false, false⟩, Option.none, 0⟩

/-- The device right after reset (R387 and the reset values that each register's table gives). Values that the spec
does not state are named in the assumption log. (DEDUCED, log entry 1; DESIGN CHOICE, log entries 5, 6, 7.) -/
def State.reset : State :=
  { mem := Mem.none, time := 0, triads := [], slots := [], cores := [], modes := [], units := [], zeroed := [],
    tiles := [], wbufs := [], bank := [], topos := [], meshes := [], queues := [], entries := [], gangs := [],
    lastQueue := [], deny := [], denyLost := 0, keys := [], fab := Fabric.init, io := IoDie.init,
    cur := ⟨0, .computer⟩, occ := Occasion.none, agenda := [], turn := 0, fresh := 0, serial := 0, slip := none }

end Sys2Proof.Machine
end

