-- ==== Sys2Proof/Machine/Flits.lean ====
section
/-! DEFINITION. How a fabric transaction is written down: the route header (R369), the command flit (R370), the data and the
integrity tag (R371). -/

namespace Sys2Proof

open Machine

/-! The route header (R369). -/

/-- The class of a transaction by its kind (R369). -/
def vclass (kind : Nat) : Nat :=
  if kind = 1 ∨ kind = 4 then 1 else if kind = 5 ∨ kind = 6 then 2 else if kind = 7 then 3 else 0

/-- The CRC-4 with polynomial x^4 + x + 1 and initial value 0 over bits [11:0], most significant bit first (R369).
(DEDUCED, log entry 84.) -/
def crc4 (n : Nat) : Nat :=
  (nrange 0 12).foldl (fun c k =>
    let top := (c / 8 + nbits n (11 - k) 1) % 2
    c % 8 * 2 ^^^ (if top = 1 then 3 else 0)) 0

/-- The route header of a transaction: RCHK, VCL, zero and DPORT (R369). -/
def routeWord (cls port : Nat) : Nat :=
  let low := cls * 2 ^ 10 + port % 256
  crc4 low * 2 ^ 12 + low

/-- Whether a received route header checks (R369). -/
def routeOk (w : Nat) : Bool := decide (w < 2 ^ 16) && w / 2 ^ 12 == crc4 w

def Txn.route (t : Txn) : Nat := routeWord (vclass t.kind) t.dport

/-! The command flit (R370). -/

/-- A list of bit numbers as a number, and a list of flags with the first one in bit 0. -/
def bitSet (l : List Nat) : Nat := ((ldedup l).map fun k => 2 ^ k).sum
def flagBits (l : List Bool) : Nat := (l.zipIdx.map fun p => if p.1 then 2 ^ p.2 else 0).sum

/-- ARG: operation and T of an atomic, origin of a shadow write. -/
def Txn.arg (t : Txn) : Nat :=
  if t.kind = 8 then t.origPort % 256 + t.origSeq % 2 ^ 32 * 2 ^ 8 else t.op % 16 + t.ty % 16 * 16

/-- Bytes 0 to 59 of the command flit. -/
def Txn.command (t : Txn) : List Byte :=
  natBytes 1 t.kind ++ natBytes 1 t.sport ++ natBytes 2 t.nbyte ++ natBytes 4 t.wseq ++
    natBytes 8 (t.addr % 2 ^ 44 + t.dom.toNat * 2 ^ 44 + t.key % 2 ^ 7 * 2 ^ 56) ++ natBytes 8 t.arg ++
    natBytes 8 (flagBits (t.ben.take 64)) ++ natBytes 8 t.operand.toNat ++ natBytes 8 t.cmpval.toNat ++
    natBytes 8 (bitSet (t.pmask.filter fun k => decide (k < 64))) ++ natBytes 4 0

/-! The integrity tag (R371). -/

/-- The CRC-32C of bytes (R371). (PRESUMED, log entry 84.) -/
def crc32c (bs : List Byte) : Nat :=
  (bs.foldl (fun (c : Nat) (b : Byte) =>
    (nrange 0 8).foldl (fun (c : Nat) _ => if c % 2 = 1 then (c / 2) ^^^ 0x82F63B78 else c / 2) (c ^^^ b.toNat))
    0xFFFFFFFF) ^^^ 0xFFFFFFFF

/-- The tag that a transaction must carry. -/
def Txn.tag (t : Txn) : Nat := crc32c (t.command ++ t.data)

/-- Whether the tag that a transaction carries checks (R371). -/
def Txn.tagOk (t : Txn) : Bool := t.crc == t.tag

/-- A transaction with its tag. -/
def Txn.sealed (t : Txn) : Txn := { t with crc := t.tag }

/-! Whole transactions. -/

/-- Data flits of n bytes. -/
def dataFlits (n : Nat) : Nat := (n + 63) / 64

/-- The flits of a transaction: route, command, data, and a tag flit with data (R369). -/
def flitsOf (t : Txn) : Nat := if t.data = [] then 2 else 3 + dataFlits t.data.length

/-- The flits of a write of n bytes, and of an atomic. -/
def writeFlits (n : Nat) : Nat := 3 + dataFlits n
def atomicFlits : Nat := 2

/-- A transaction as bytes: the route header, the command flit, the data filled up to flits, and the tag flit where there is
data (R369 to R371). -/
def Txn.wire (t : Txn) : List Byte :=
  natBytes 2 t.route ++ t.command ++
    (if t.data = [] then natBytes 4 t.crc
     else natBytes 4 0 ++ t.data ++ List.replicate (64 * dataFlits t.data.length - t.data.length) 0 ++ natBytes 64 t.crc)

/-- The bits of a number below n that are set. -/
def setBits (n v : Nat) : List Nat := (nrange 0 n).filter v.testBit

/-- A transaction as its receiver reads it from bytes (R369 to R371); a read names how many bytes it asks for and carries none.
`more` is told beside it. (DEDUCED, log entry 84.) -/
def Txn.parse (bs : List Byte) (more : Bool) : Txn :=
  let num (at_ n : Nat) : Nat := bytesNat ((bs.drop at_).take n)
  let kind := num 2 1
  let nbyte := num 4 2
  let carried := if kind = 0 then 0 else nbyte
  let addr := num 10 8
  let arg := num 18 8
  let shadow := kind == 8
  let single := (kind == 2 || shadow) && decide (nbyte ≤ 64)
  { kind := kind, sport := num 3 1, dport := num 0 2 % 256, lcn := 0, wseq := num 6 4, addr := addr % 2 ^ 44,
    dom := BitVec.ofNat 12 (nbits addr 44 12), key := nbits addr 56 7, nbyte := nbyte,
    op := if shadow then 0 else arg % 16, ty := if shadow then 0 else nbits arg 4 4,
    ben := if single then (nrange 0 nbyte).map (num 26 8).testBit else [],
    operand := BitVec.ofNat 64 (num 34 8), cmpval := BitVec.ofNat 64 (num 42 8),
    origPort := if shadow then arg % 256 else 0, origSeq := if shadow then nbits arg 8 32 else 0,
    pmask := setBits 64 (num 50 8), data := (bs.drop 66).take carried,
    crc := if carried = 0 then num 62 4 else num (66 + 64 * dataFlits carried) 4, more := more }

/-- The transaction that the event of the moment brings. -/
def Machine.State.arrival (s : State) : Txn := Txn.parse s.occ.wire s.occ.flag

end Sys2Proof
end

