-- ==== Sys2Proof/Machine/Xts.lean ====
section
/-! DEFINITION. AES-256 in XTS mode over a 64-byte line (R292): the cipher of FIPS 197 and the mode of IEEE 1619, which the spec
names. -/

namespace Sys2Proof.Machine

/-! The field of AES. -/

def xtime (a : Byte) : Byte := (a <<< (1 : Nat)) ^^^ (if a.getLsbD 7 then 0x1B#8 else 0)

def gmul (a b : Byte) : Byte :=
  ((nrange 0 8).foldl (fun (p : Byte × Byte) i => (if b.getLsbD i then p.1 ^^^ p.2 else p.1, xtime p.2)) (0, a)).1

/-- The inverse of a byte, and 0 of 0: its 254th power. -/
def ginv (a : Byte) : Byte :=
  ((nrange 0 7).foldl (fun (p : Byte × Byte) _ => let q := gmul p.2 p.2; (gmul p.1 q, q)) (1, a)).1

def subByte (a : Byte) : Byte :=
  let b := ginv a
  b ^^^ b.rotateLeft 1 ^^^ b.rotateLeft 2 ^^^ b.rotateLeft 3 ^^^ b.rotateLeft 4 ^^^ 0x63#8

def unsubByte (a : Byte) : Byte := ginv (a.rotateLeft 1 ^^^ a.rotateLeft 3 ^^^ a.rotateLeft 6 ^^^ 0x05#8)

def xorBytes (a b : List Byte) : List Byte := a.zipWith (· ^^^ ·) b

/-! The cipher. -/

/-- The 60 words of four bytes that a 32-byte key expands to. -/
def keyWords (key : List Byte) : List (List Byte) :=
  (nrange 8 52).foldl (fun ws i =>
    let prev := ws.getD (i - 1) []
    let t := if i % 8 = 0 then xorBytes ((prev.drop 1 ++ prev.take 1).map subByte)
          [(nrange 1 (i / 8 - 1)).foldl (fun c _ => xtime c) 1, 0, 0, 0]
      else if i % 8 = 4 then prev.map subByte
      else prev
    ws ++ [xorBytes (ws.getD (i - 8) []) t]) (lchunks 4 8 key)

/-- The key of a round. -/
def roundKey (ws : List (List Byte)) (r : Nat) : List Byte := ((ws.drop (4 * r)).take 4).flatten

/-- Byte i of a block stands in row i mod 4 of column i / 4; row r turns by r columns, one way or the other. -/
def shiftRows (b : List Byte) : List Byte := (nrange 0 16).map fun i => b.getD ((i + 4 * (i % 4)) % 16) 0
def unshiftRows (b : List Byte) : List Byte := (nrange 0 16).map fun i => b.getD ((i + 16 - 4 * (i % 4)) % 16) 0

/-- Each column multiplied by the circulant matrix with a given first row. -/
def mixWith (row : List Byte) (b : List Byte) : List Byte :=
  (nrange 0 16).map fun i => (nrange 0 4).foldl (fun a k => a ^^^ gmul (row.getD ((k + 4 - i % 4) % 4) 0) (b.getD (i / 4 * 4 + k) 0)) 0

def encBlock (ws : List (List Byte)) (b : List Byte) : List Byte :=
  let mid := (nrange 1 13).foldl (fun b r => xorBytes (mixWith [2, 3, 1, 1] (shiftRows (b.map subByte))) (roundKey ws r))
    (xorBytes b (roundKey ws 0))
  xorBytes (shiftRows (mid.map subByte)) (roundKey ws 14)

def decBlock (ws : List (List Byte)) (b : List Byte) : List Byte :=
  let mid := (nrange 1 13).foldl (fun b r => mixWith [14, 11, 13, 9] (xorBytes ((unshiftRows b).map unsubByte) (roundKey ws (14 - r))))
    (xorBytes b (roundKey ws 14))
  xorBytes ((unshiftRows mid).map unsubByte) (roundKey ws 0)

/-! The mode. -/

/-- A tweak times the primitive element. -/
def nextTweak (t : List Byte) : List Byte :=
  let n := 2 * bytesNat t
  natBytes 16 (if 2 ^ 128 ≤ n then (n - 2 ^ 128) ^^^ 0x87 else n)

/-- The blocks of a line, each under its tweak. -/
def xtsBlocks (f : List Byte → List Byte) : List (List Byte) → List Byte → List Byte
  | [], _ => []
  | b :: bs, t => xorBytes (f (xorBytes b t)) t ++ xtsBlocks f bs (nextTweak t)

/-- A line encrypted or decrypted under the two keys of a slot, the data key first; the tweak is the line's number (R292).
(PRESUMED, log entry 72.) -/
def xtsLine (dec : Bool) (keys line : Nat) (bs : List Byte) : List Byte :=
  let ks := natBytes 64 keys
  let ws := keyWords (ks.take 32)
  let t := encBlock (keyWords (ks.drop 32)) (natBytes 16 (line % 2 ^ 38))
  natBytes 64 (bytesNat (xtsBlocks (if dec then decBlock ws else encBlock ws) (lchunks 16 4 bs) t))

end Sys2Proof.Machine
end

