-- ==== Sys2Proof/Machine/Mem.lean ====
section
/-! DEFINITION. Memory as a sparse list of bytes in canonical form: reads, writes, poison by line (R261) and the key a
line was written under (R292). -/

namespace Sys2Proof.Machine

/-- The byte at an address; an unlisted address reads 0. (DESIGN CHOICE, log entry 5.) -/
def memByte (m : List Host.Cell) (a : Nat) : Byte := tget 0 a m

/-- The n bytes from address a. (DESIGN CHOICE, log entry 5.) -/
def memRead (m : List Host.Cell) (a n : Nat) : List Byte :=
  let c := m.filter fun p => a ≤ p.1 && p.1 < a + n
  (nrange a n).map (memByte c)

/-- The listed cells of bytes stored from address a: zeros are not listed. -/
def cellsOf : Nat → List Byte → List Host.Cell
  | _, [] => []
  | a, b :: t => if b = 0 then cellsOf (a + 1) t else (a, b) :: cellsOf (a + 1) t

/-- Memory after storing bytes from address a. -/
def memWrite (m : List Host.Cell) (a : Nat) (bs : List Byte) : List Host.Cell :=
  m.filter (fun p => p.1 < a) ++ cellsOf a bs ++ m.filter (fun p => a + bs.length ≤ p.1)

/-- Addresses strictly rise from `lo`, and no listed byte is 0. -/
def cellsWf : Nat → List Host.Cell → Bool
  | _, [] => true
  | lo, (a, b) :: t => decide (lo ≤ a) && b != 0 && cellsWf (a + 1) t

/-- The canonical form of memory. (DESIGN CHOICE, log entry 5.) -/
def Mem.wf (m : Mem) : Bool := cellsWf 0 m.cells

/-- Where atlas address 0 stands in the model's memory (R169). -/
def atlasBase : Nat := 2 ^ 44

/-- The 64-byte lines that n bytes from a touch. -/
def linesOf (a n : Nat) : List Nat := if n = 0 then [] else nrange (a / 64) ((a + n - 1) / 64 + 1 - a / 64)

/-- The lines that n bytes from a cover whole. -/
def wholeLines (a n : Nat) : List Nat :=
  let lo := (a + 63) / 64
  nrange lo ((a + n) / 64 - lo)

/-- Which port stands before a local physical address, if one does (R271). -/
def portOf (pa : Nat) : Option Nat := if pa / 2 ^ 42 = 1 then some 0 else if pa / 2 ^ 42 = 2 then some 1 else none

def IoDie.port (d : IoDie) (p : Nat) : Port := if p = 0 then d.port0 else d.port1

def IoDie.setPort (d : IoDie) (p : Nat) (v : Port) : IoDie := if p = 0 then { d with port0 := v } else { d with port1 := v }

/-- Whether a local physical address lies in HBM4E (R260). -/
def inHbm (pa : Nat) : Bool := pa < 2 ^ 39

/-- Whether a local physical address lies in expander memory (R271). -/
def inExpander (s : State) (pa : Nat) : Bool :=
  match portOf pa with
  | some p => (s.io.port p).expander
  | none => false

/-- Whether the bytes at an address are encrypted in memory: HBM4E and expander lines (R292). -/
def encrypted (s : State) (pa : Nat) : Bool := inHbm pa || inExpander s pa

/-- The identity of the key that a key slot holds: 0 for slot 0, which applies no encryption (R390). -/
def keyId (s : State) (slot : Nat) : Nat :=
  if slot = 0 then 0 else match tfind slot s.keys with
    | some k => k + 1
    | none => 0

/-- Whether a key slot is empty; slot 0 never is (R390). -/
def slotEmpty (s : State) (slot : Nat) : Bool := slot != 0 && (tfind slot s.keys).isNone

/-- The plain bytes of a line under a key: as stored when it was written under that key, else the stored bytes encrypted under
the key that they were written with and decrypted under this one; identity 0 applies no encryption (R292). (DEDUCED, log
entry 72.) -/
def linePlain (m : Mem) (line key : Nat) : List Byte :=
  let raw := memRead m.cells (line * 64) 64
  let k := tget 0 line m.keyed
  if k = key then raw
  else
    let kept := if k = 0 then raw else xtsLine false (k - 1) line raw
    if key = 0 then kept else xtsLine true (key - 1) line kept

/-- A line brought under a key, its plain bytes kept. -/
def rekey (m : Mem) (line key : Nat) : Mem :=
  if tget 0 line m.keyed = key then m
  else { m with
    cells := memWrite m.cells (line * 64) (linePlain m line key)
    keyed := if key = 0 then tdel line m.keyed else tset line key m.keyed }

/-- The plain bytes that n bytes at a local physical address hold under a key slot. -/
def physRead (s : State) (pa n slot : Nat) : List Byte :=
  let key := if encrypted s pa then keyId s slot else 0
  if (linesOf pa n).all (fun l => tget 0 l s.mem.keyed == key) then memRead s.mem.cells pa n
  else (((linesOf pa n).map (fun l => linePlain s.mem l key)).flatten.drop (pa % 64)).take n

/-- The identity-table entry of an LCN (R366). -/
def State.ident (s : State) (lcn : Nat) : Ident := tget Ident.init lcn s.fab.idents

/-- The port of the replica that shadows this device, if one does (R380). -/
def shadowPort (s : State) : Option Nat :=
  let e := s.ident s.fab.idtab.lcn
  if e.state = 1 ∧ e.shv ∧ !s.fab.idtab.rep ∧ e.port = s.fab.idtab.port then some e.shport else none

/-- The place of the replica among the homes of `wseq` and `replay`. (DEDUCED, log entry 63.) -/
def shadowKey : Nat := 128

/-- A source port that names no device: the forwards of the device's own writes carry it. -/
def noPort : Nat := 255

/-- A transaction joins what the port puts out. -/
def putOut (s : State) (t : Txn) : State := { s with fab := { s.fab with out := s.fab.out ++ [t] } }

/-- Sends a transaction with its integrity tag (R371). -/
def sendTxn (s : State) (t : Txn) : State := putOut s t.sealed

/-- The next write sequence number of a home (R374). -/
def nextWseq (s : State) (lcn : Nat) : Nat := tget 0 lcn s.fab.wseq

/-- The mark of a write that was never sent: it waits for FREPLAY, or for the swap mark of its home, to number it (R378, R381,
R384). -/
def unsent : Nat := 2 ^ 32

/-- A write or atomic takes the next WSEQ of its home, joins the replay buffer and is sent (R374, R375). While the swap mark of an
LCN that was taken over has not arrived, it is held back (R381). (DEDUCED, log entry 78.) -/
def sendHeld (s : State) (r : Replay) : State :=
  let w := nextWseq s r.lcn
  let t := { r.txn with wseq := w }.sealed
  let hold (t : Txn) : State := { s with fab := { s.fab with
    replay := s.fab.replay ++ [{ r with num := s.fab.nextNum, txn := t }]
    nextNum := s.fab.nextNum + 1 } }
  if smem r.lcn s.fab.awaited then hold { r.txn with wseq := unsent }
  else
    let s := hold t
    putOut { s with fab := { s.fab with wseq := tset r.lcn ((w + 1) % 2 ^ 32) s.fab.wseq } } t

/-- Sends a shadow write to the replica: it is held in the replay buffer like every write (R374, R375, R380). (DEDUCED, log entry 63.) -/
def shadowSend (s : State) (port : Nat) (t : Txn) : State :=
  sendHeld s (Replay.of shadowKey { t with kind := 8, sport := s.fab.idtab.port, dport := port, lcn := shadowKey })

/-- Forwards bytes written to HBM4E to the replica, when there is one, line by line (R380). (DEDUCED, log entry 63.) -/
def shadowLines (s : State) (port slot : Nat) (pois : Bool) : Nat → Nat → List Byte → State
  | 0, _, _ => s
  | fuel + 1, pa, bs =>
    if bs.isEmpty then s
    else
      let n := min bs.length (64 - pa % 64)
      let s := shadowSend s port { Txn.none with
        addr := pa, key := slot, nbyte := n, data := bs.take n, ben := List.replicate n true,
        pmask := if pois then [0] else [], origPort := noPort }
      shadowLines s port slot pois fuel (pa + n) (bs.drop n)

/-- The same for a write that may touch no HBM4E or have no replica. -/
def shadowWrite (s : State) (pa slot : Nat) (bs : List Byte) (pois : Bool) : State :=
  match shadowPort s with
  | none => s
  | some p => if inHbm pa then shadowLines s p slot pois (bs.length / 64 + 2) pa bs else s

/-- Lines that a device agent writes leave the host that holds them, by a back-invalidate snoop (R386). (DEDUCED, log entry 68.) -/
def Mem.recall (m : Mem) (lines : List Nat) : Mem :=
  { m with
    held := m.held.filter fun h => !lines.contains h.1
    recalls := m.recalls ++ (m.held.filter fun h => lines.contains h.1) }

/-- Memory after bytes are stored at a local physical address under a key. A line that the write covers whole becomes clean;
a line stored in part keeps its poison (R261). -/
def Mem.store (m : Mem) (pa : Nat) (bs : List Byte) (key : Nat) : Mem :=
  let m := (linesOf pa bs.length).foldl (fun m l => rekey m l key) m
  let clean := wholeLines pa bs.length
  { m.recall (linesOf pa bs.length) with cells := memWrite m.cells pa bs, pois := sdelAll clean m.pois, ue := sdelAll clean m.ue }

/-- Whether a local address lies behind an isolated expander port (R388). -/
def isolated (s : State) (pa : Nat) : Bool :=
  match portOf pa with
  | some p => (s.io.port p).expander && (s.io.port p).iso
  | none => false

/-- Storing bytes at a local physical address under a key slot. Writes behind an isolated expander port are dropped
(R388). -/
def physWrite (s : State) (pa : Nat) (bs : List Byte) (slot : Nat) : State :=
  if isolated s pa || bs.isEmpty then s
  else
    let key := if encrypted s pa then keyId s slot else 0
    shadowWrite { s with mem := s.mem.store pa bs key } pa slot bs false

/-- Marks the lines of n bytes poisoned (R261); a replica takes each line with its key slot and its poison (R380). Behind an
isolated expander port nothing is written (R388). (DEDUCED, log entry 63.) -/
def physPoison (s : State) (pa n slot : Nat) : State :=
  if isolated s pa then s
  else
    let s := { s with mem := { s.mem.recall (linesOf pa n) with pois := saddAll (linesOf pa n) s.mem.pois } }
    if (shadowPort s).isNone then s
    else (linesOf pa n).foldl (fun s l => shadowWrite s (64 * l) slot (physRead s (64 * l) 64 slot) true) s

/-- How data reads: clean, poisoned, or meeting an uncorrectable HBM4E error (R119, R261). -/
inductive Quality
  | clean | poisoned | uncorrectable
  deriving DecidableEq, Repr

/-- The quality of n bytes at a local physical address; a read behind an isolated expander port is poisoned (R388). -/
def physQuality (s : State) (pa n : Nat) : Quality :=
  if (linesOf pa n).any (fun l => smem l s.mem.ue) then .uncorrectable
  else if isolated s pa || (linesOf pa n).any (fun l => smem l s.mem.pois) then .poisoned
  else .clean

/-- The number that n bytes at a local physical address hold, little-endian (R4). -/
def physNat (s : State) (pa n slot : Nat) : Nat := bytesNat (physRead s pa n slot)

/-- Whether n bytes at a local physical address meet a sealed mesh extent (R296). -/
def inSealed (s : State) (pa n : Nat) : Bool :=
  s.meshes.any fun e => e.2.isSealed && e.2.exts.any fun x => decide (x.1 < pa + n) && decide (pa < x.1 + x.2)

/-- The runs of bytes that a mask names, by offset and length. -/
def maskRuns : Nat → List Bool → List (Nat × Nat)
  | _, [] => []
  | o, false :: t => maskRuns (o + 1) t
  | o, true :: t => match maskRuns (o + 1) t with
    | (p, n) :: u => if p = o + 1 then (o, n + 1) :: u else (o, 1) :: (p, n) :: u
    | [] => [(o, 1)]

/-- Storing bytes that the device writes on its own: those of sealed extents are not written (R296). -/
def storeOwn (s : State) (pa : Nat) (bs : List Byte) (slot : Nat) : State :=
  if !inSealed s pa bs.length then physWrite s pa bs slot
  else (maskRuns 0 ((nrange 0 bs.length).map fun i => !inSealed s (pa + i) 1)).foldl (fun s r =>
    physWrite s (pa + r.1) ((bs.drop r.1).take r.2) slot) s

end Sys2Proof.Machine
end

