-- ==== Sys2Proof/Machine/Regs.lean ====
section
/-! DEFINITION. Reading and writing what threads, triads, cores and slots hold. Every register has its one home, and all
accesses go through the accessors here. -/

namespace Sys2Proof.Machine

/-- A role's state in its triad. -/
def Triad.role (t : Triad) : Role → RoleState
  | .loader => t.loader
  | .computer => t.computer
  | .storer => t.storer

/-- A triad with one role's state replaced. -/
def Triad.setRole (t : Triad) (r : Role) (v : RoleState) : Triad :=
  match r with
  | .loader => { t with loader := v }
  | .computer => { t with computer := v }
  | .storer => { t with storer := v }

/-- A scalar register; x0 reads 0 (R6). -/
def RoleState.xr (r : RoleState) (n : Nat) : Word := if n = 0 then 0 else tget 0 n r.x

/-- Writing a scalar register; a write to x0 is discarded (R6). -/
def RoleState.setXr (r : RoleState) (n : Nat) (v : Word) : RoleState := if n = 0 then r else { r with x := tset n v r.x }

/-- The state of a triad that is not there: every accessor of an absent triad reads it. -/
def Triad.none : Triad :=
  { core := 0, slot := 0, gang := 0, queue := 0, gangId := 0, gangs := 0, triadId := 0,
    loader := RoleState.start 0 false, computer := RoleState.start 0 false, storer := RoleState.start 0 false,
    vstat := 0, eix := [0, 0, 0, 0, 0, 0], seed := 0, sn := 0, ptbase := 0, tag := 0, ptkey := 0, traprec := 0,
    wins := [], streams := [], chans := [], trapper := .none, handling := .none, parked := false, wdog := false, issued := [] }

/-- The triad with a context number. -/
def State.triad (s : State) (c : Nat) : Triad := tget Triad.none c s.triads

/-- A triad is started under a context number. -/
def State.Has (s : State) (c : Nat) : Prop := (tfind c s.triads).isSome = true

/-- Changing a triad that is there. -/
def State.modTriad (s : State) (c : Nat) (f : Triad → Triad) : State :=
  match tfind c s.triads with
  | some t => { s with triads := tset c (f t) s.triads }
  | none => s

/-- Changing one role of a triad. -/
def State.modRole (s : State) (t : Tid) (f : RoleState → RoleState) : State :=
  s.modTriad t.ctxn fun tr => tr.setRole t.role (f (tr.role t.role))

/-- A thread's state. -/
def State.thread (s : State) (t : Tid) : RoleState := (s.triad t.ctxn).role t.role

/-- The current triad. -/
def State.tr (s : State) : Triad := s.triad s.cur.ctxn

/-- The current thread. -/
def State.th (s : State) : RoleState := s.thread s.cur

/-- A scalar register of the current thread. -/
def State.x (s : State) (n : BitVec 6) : Word := s.th.xr n.toNat

/-- Writing a scalar register of the current thread. -/
def State.setX (s : State) (n : BitVec 6) (v : Word) : State := s.modRole s.cur fun r => r.setXr n.toNat v

def State.modTr (s : State) (f : Triad → Triad) : State := s.modTriad s.cur.ctxn f

def State.modTh (s : State) (f : RoleState → RoleState) : State := s.modRole s.cur f

/-- The core with a COREID. -/
def State.core (s : State) (c : Nat) : Core := tget Core.init c s.cores

def State.modCore (s : State) (c : Nat) (f : Core → Core) : State := { s with cores := tset c (f (s.core c)) s.cores }

/-- The key of slot j of a core. -/
def slotKey (core slot : Nat) : Nat := 4 * core + slot

/-- A vector slot. -/
def State.slot (s : State) (k : Nat) : Slot := tget Slot.init k s.slots

def State.modSlot (s : State) (k : Nat) (f : Slot → Slot) : State := { s with slots := tset k (f (s.slot k)) s.slots }

def Triad.slotKey (t : Triad) : Nat := Machine.slotKey t.core t.slot

/-- The vector state of the current triad's slot. -/
def State.vec (s : State) : VecState := (s.slot s.tr.slotKey).vec

def State.modVec (s : State) (f : VecState → VecState) : State :=
  s.modSlot s.tr.slotKey fun k => { k with vec := f k.vec }

/-- The die of a core (R22). -/
def dieOf (core : Nat) : Nat := core / 28

/-- The binding mode of the quad of a core (R21). -/
def State.mode (s : State) (core : Nat) : Nat := tget 0 (7 * dieOf core + core % 28 / 4) s.modes

/-- The places of the slabs bound to the core that leads from a place, or none where no core leads (R21). -/
def slabPlaces (mode place : Nat) : List Nat :=
  match mode, place with
  | 1, 0 => [0, 1]
  | 1, 1 => []
  | 2, 2 => [2, 3]
  | 2, 3 => []
  | 3, 0 => [0, 1]
  | 3, 2 => [2, 3]
  | 3, _ => []
  | 4, 0 => [0, 1, 2, 3]
  | 4, _ => []
  | _, p => [p]

/-- The working slabs bound to a core, as numbers 28·die + w in rising order (R21, R22). -/
def State.slabs (s : State) (core : Nat) : List Nat :=
  let w := core % 28
  (slabPlaces (s.mode core) (w % 4)).map fun p => 28 * dieOf core + 4 * (w / 4) + p

/-- The number s of slabs bound to a core. -/
def State.bound (s : State) (core : Nat) : Nat := (s.slabs core).length

/-- VLMAX at an element width in bits (R103). -/
def vlmax (slabs width : Nat) : Nat := 32768 * slabs / width

/-- What an access carries of a thread (R275). -/
def Triad.cred (t : Triad) (r : Role) : Cred := ⟨(t.role r).priv, t.ptbase, t.tag, t.ptkey⟩

def State.cred (s : State) : Cred := s.tr.cred s.cur.role

/-- Bit 17 of VSTAT (R55). -/
def vstatDeny : Word := 0x20000#64
/-- Bit 16 of VSTAT (R55). -/
def vstatPwoob : Word := 0x10000#64
/-- Bit 18 of VSTAT (R55). -/
def vstatPeer : Word := 0x40000#64

/-- Sets bits of a triad's VSTAT. -/
def State.orVstat (s : State) (c : Nat) (w : Word) : State := s.modTriad c fun t => { t with vstat := t.vstat ||| w }

/-- The first 128-byte boundary above an address (R62, R125). -/
def nextBlock (pc : Word) : Word := (pc / 128#64 + 1#64) * 128#64

/-- Whether the word at pc is the last of its block (R61). -/
def RoleState.lastWord (r : RoleState) : Bool := decide (r.blk.length ≤ (r.pc - r.blkBase).toNat / 8 + 1)

/-- The successor of the word at pc (R344). -/
def RoleState.successor (r : RoleState) : Word := if r.lastWord then nextBlock r.pc else r.pc + 8#64

/-- A role whose instruction is done: nothing of its waits is left. (DEDUCED, log entry 46.) -/
def RoleState.settle (r : RoleState) : RoleState :=
  { r with stall := none, resume := none, rbuf := [], want := [], logged := [], tile := none, mesh := none }

/-- A role that goes on at the successor of its word (R62). -/
def RoleState.advance (r : RoleState) : RoleState :=
  { r.settle with pc := r.successor, blk := if r.lastWord then [] else r.blk }

/-- A role that goes to a block. -/
def RoleState.goto (r : RoleState) (a : Word) : RoleState := { r.settle with pc := a, blk := [] }

/-- The current thread goes on at the successor of its word. -/
def State.advance (s : State) : State := s.modTh RoleState.advance

/-- The current thread goes to a block. -/
def State.goto (s : State) (a : Word) : State := s.modTh fun r => r.goto a

/-- The current thread stalls at its word. -/
def State.stallOn (s : State) (w : Stall) : State := s.modTh fun r => { r with stall := some w }

/-- Writes a register and goes on: the end of most scalar instructions. -/
def State.done (s : State) (n : BitVec 6) (v : Word) : State := (s.setX n v).advance

/-- A free value of the spec, and the state in which it is used up. (DESIGN CHOICE, log entries 18, 58.) -/
def State.free (s : State) : Word × State := (Config.freeValue s.fresh, { s with fresh := s.fresh + 1 })

/-- An open order of things: by free values (R101 and R189 leave the order open). (DESIGN CHOICE, log entries 56, 80.) -/
def preferred {α : Type} (s : State) (off : Nat) (key : α → Nat) (l : List α) : List α :=
  lsort (fun a b => decide ((Config.freeValue (s.fresh + off + key a)).toNat ≤ (Config.freeValue (s.fresh + off + key b)).toNat)) l

/-- Sign extension of imm16 to 64 bits (R67). -/
def sext16 (i : BitVec 16) : Word := i.signExtend 64

/-- Sign extension of imm32 to 64 bits (R67). -/
def sext32 (i : BitVec 32) : Word := i.signExtend 64

/-- The byte displacement of disp40 (R67): 8 × a signed word count. -/
def dispBytes (d : BitVec 40) : Word := d.signExtend 64 * 8#64

end Sys2Proof.Machine
end

