-- ==== Sys2Proof/Machine/Space.lean ====
section
/-! DEFINITION. Addresses, page tables, translation, migration pulls, denial and the deny log (chapter 13_pages), and the
atlas checks of R170. -/

namespace Sys2Proof.Machine

/-- The kinds of access (R275). -/
inductive Acc
  | ld | st | rmw | fetch
  deriving DecidableEq, Repr

/-- The three kinds of address of R118. -/
inductive Space
  | virt (va : Nat)
  | atlas (t : Nat)
  | noncanon
  deriving DecidableEq, Repr

/-- The class of an address (R118, R178). -/
def classify (a : Word) : Space :=
  let n := a.toNat
  if n / 2 ^ 57 = 0 then .virt n
  else if n / 2 ^ 57 = 0x7F ∧ n / 2 ^ 29 % 2 ^ 28 = 0 then .atlas (n % 2 ^ 29)
  else .noncanon

/-- The index of a level (R273). -/
def walkIndex (lvl va : Nat) : Nat :=
  match lvl with
  | 5 => nbits va 48 9
  | 4 => nbits va 39 9
  | 3 => nbits va 30 9
  | 2 => nbits va 21 9
  | _ => nbits va 16 5

/-- log2 of the page that a leaf at a level maps (R273). -/
def pageShift (lvl : Nat) : Nat :=
  match lvl with
  | 3 => 30
  | 2 => 21
  | _ => 16

def entV (e : Nat) : Bool := e % 2 == 1
def entL (e : Nat) : Bool := e / 2 % 2 == 1
def entW (e : Nat) : Bool := e / 4 % 2 == 1
def entX (e : Nat) : Bool := e / 8 % 2 == 1
def entP (e : Nat) : Bool := e / 16 % 2 == 1
def entMig (e : Nat) : Nat := nbits e 7 2
def entKey (e : Nat) : Nat := nbits e 9 7
def entDom (e : Nat) : Nat := nbits e 52 12

/-- Whether a 52-bit physical address names memory (R271). -/
def namesMemory (pa : Nat) : Bool :=
  if pa / 2 ^ 51 % 2 = 1 then nbits pa 39 5 == 0
  else nbits pa 44 7 == 0 && (nbits pa 42 2 == 1 || nbits pa 42 2 == 2 || nbits pa 39 5 == 0)

/-- Whether a 52-bit physical address is local HBM4E. (DEDUCED, log entry 48.) -/
def localHbm (pa : Nat) : Bool := pa < 2 ^ 39

/-- A bad pointer entry at a level (R274). -/
def badPointer (lvl e : Nat) : Bool :=
  nbits e 52 12 != 0 || nbits e 2 6 != 0 || lvl == 1 || !localHbm (nbits e 8 44 * 256) ||
    (lvl != 2 && nbits e 8 4 != 0)

/-- A bad leaf entry at a level, its migration record apart (R271, R273, R274). -/
def badLeaf (lvl e : Nat) : Bool :=
  lvl == 4 || lvl == 5 || nbits e 5 2 != 0 || decide (2 ≤ entMig e) || (entMig e == 1 && lvl != 1) ||
    (lvl == 2 && nbits e 16 5 != 0) || (lvl == 3 && nbits e 16 14 != 0) ||
    (if entMig e = 1 then nbits e 44 8 != 0 || !localHbm (nbits e 16 28 * 256) else !namesMemory (nbits e 16 36 * 65536))

/-- Whether n bytes of HBM4E read clean. -/
def cleanAt (s : State) (pa n : Nat) : Bool := physQuality s pa n == .clean

/-- The fields NEWF and OLDF of a migration record, when it is good (R285); none makes its leaf a bad entry. (DEDUCED, log entry 47.) -/
def migRecord (s : State) (ptkey recAt : Nat) : Option (Nat × Nat) :=
  let bs := physRead s recAt 128 ptkey
  let newf := bytesNat (bs.take 8)
  let oldf := bytesNat ((bs.drop 8).take 8)
  if cleanAt s recAt 256 && (bs.drop 16).all (· == 0) && newf % 65536 == 0 && oldf % 65536 == 0 &&
      decide (newf < 2 ^ 52) && localHbm newf && decide (oldf < 2 ^ 51) && namesMemory oldf then some (newf, oldf) else none

/-- What a walk or a cached leaf gives. -/
inductive Walk
  | fault (cause : Nat)
  | leaf (lvl ent : Nat)
  deriving DecidableEq, Repr

/-- The walk from a level's node down (R275); `fuel` is the number of levels left. (DEDUCED, log entry 48.) -/
def walkFrom (s : State) (ptkey va : Nat) : Nat → Nat → Nat → Walk
  | 0, _, _ => .fault 3
  | fuel + 1, lvl, node =>
    let at_ := node + 8 * walkIndex lvl va
    if !localHbm node || !cleanAt s at_ 8 then .fault 3
    else
      let e := physNat s at_ 8 ptkey
      if !entV e then .fault 1
      else if entL e then
        if badLeaf lvl e || (entMig e == 1 && (migRecord s ptkey (nbits e 16 28 * 256)).isNone) then .fault 3
        else .leaf lvl e
      else if badPointer lvl e then .fault 3
      else walkFrom s ptkey va fuel (lvl - 1) (nbits e 8 44 * 256)

/-- SY_PTBASE.ASID (R272). -/
def asidOf (ptbase : Word) : Nat := nbits ptbase.toNat 52 12

/-- SY_PTBASE.ROOT as an address (R272). -/
def rootOf (ptbase : Word) : Nat := nbits ptbase.toNat 8 44 * 256

/-- A cached leaf that serves va, if the core holds one (R277). (DEDUCED, log entry 45.) -/
def cachedLeaf (s : State) (core asid va : Nat) : Option (Nat × Nat) :=
  ((s.core core).tlb.find? fun t => t.asid == asid && entL t.ent.toNat && t.page == va / 2 ^ pageShift t.level).map
    fun t => (t.level, t.ent.toNat)

/-- Looks va up: the core's cached leaf, or a walk whose leaf the core then caches (R275, R277). (DEDUCED, log entry 45.) -/
def lookup (s : State) (core : Nat) (c : Cred) (va : Nat) : Walk × State :=
  match cachedLeaf s core (asidOf c.ptbase) va with
  | some (lvl, e) => (.leaf lvl e, s)
  | none =>
    match walkFrom s c.ptkey va 5 5 (rootOf c.ptbase) with
    | .leaf lvl e =>
      (.leaf lvl e, s.modCore core fun k =>
        { k with tlb := ⟨asidOf c.ptbase, lvl, va / 2 ^ pageShift lvl, BitVec.ofNat 64 e⟩ :: k.tlb })
    | w => (w, s)

/-- Pulls the line of va on a migrating page when it is absent (R286). (DEDUCED, log entry 47.) -/
def pullLine (s : State) (ptkey key recAt newf oldf va : Nat) : State :=
  let i := va % 65536 / 64
  let vb := recAt + 128 + i / 8
  let valid := (physRead s vb 1 ptkey).headD 0
  if valid.toNat / 2 ^ (i % 8) % 2 = 1 then s
  else
    let off := i * 64
    let q := physQuality s (oldf + off) 64
    let bs := physRead s (oldf + off) 64 key
    let s := storeOwn s (newf + off) bs key
    let s := if q = .clean || inSealed s (newf + off) 64 then s else physPoison s (newf + off) 64 key
    storeOwn s vb [valid ||| BitVec.ofNat 8 (2 ^ (i % 8))] ptkey

/-- The result of translate (R275). -/
inductive TRes
  | fault (cause : Nat)
  | ok (pa key dom : Nat) (denied : Bool) (lvl ent : Nat)
  deriving DecidableEq, Repr

/-- `translate(va, acc)` of R275 for a virtual address; `pull` says that the access touches its line (R286). (DEDUCED, log entry 47.) -/
def translate (s : State) (core : Nat) (c : Cred) (va : Nat) (acc : Acc) (pull : Bool) : TRes × State :=
  match lookup s core c va with
  | (.fault k, s) => (.fault k, s)
  | (.leaf lvl e, s) =>
    let recAt := nbits e 16 28 * 256
    let mig := if entMig e = 1 then migRecord s c.ptkey recAt else none
    let frame := match mig with
      | some (newf, _) => newf
      | none => nbits e 16 36 * 65536
    let denied := entDom e != c.tag
    if entMig e = 1 ∧ mig.isNone then (.fault 3, s)
    else if entP e && !c.priv then (.fault 2, s)
    else if (acc == .st || acc == .rmw) && !entW e then (.fault 2, s)
    else if acc == .fetch && !entX e then (.fault 2, s)
    else if frame / 2 ^ 51 = 0 && encrypted s frame && slotEmpty s (entKey e) then (.fault 4, s)
    else if denied && acc == .fetch then (.fault 6, s)
    else
      let s := match mig with
        | some (newf, oldf) => if pull then pullLine s c.ptkey (entKey e) recAt newf oldf va else s
        | none => s
      (.ok (frame + va % 2 ^ pageShift lvl) (entKey e) (entDom e) denied lvl e, s)

/-- Where an access goes. -/
inductive Loc
  /-- local: address in the model's memory, key slot, bits [51:16] of the page's frame -/
  | here (pa key frame : Nat)
  /-- remote: the 52-bit physical address, key slot (R271) -/
  | far (pa key : Nat)
  /-- denied by domain; the frame's bits [51:16] (R289) -/
  | denied (frame : Nat)
  /-- a fault of a cause of R276 -/
  | fault (cause : Nat)
  deriving DecidableEq, Repr

/-- The unit of a sheet that an atlas address lies in, as a key of `units` (R169, R173); none where SLAB is 28 to 31. -/
def atlasUnit (t : Nat) : Option Nat :=
  let w := nbits t 22 5
  if w < 28 then some (64 * (28 * nbits t 27 2 + w) + nbits t 16 6) else none

/-- Whether an access of a domain to atlas address t makes an atlas fault (R170). -/
def atlasFault (s : State) (tag t : Nat) : Bool :=
  match atlasUnit t with
  | none => true
  | some u => match tfind u s.units with
    | some v => !(v.gang.isSome && v.tag == tag)
    | none => true

/-- Where an access to an address goes (R118, R170, R275). -/
def locate (s : State) (core : Nat) (c : Cred) (a : Word) (acc : Acc) (pull : Bool) : Loc × State :=
  match classify a with
  | .noncanon => (.fault 5, s)
  | .atlas t => (if atlasFault s c.tag t then .fault 7 else .here (atlasBase + t) 0 0, s)
  | .virt va =>
    match translate s core c va acc pull with
    | (.fault k, s) => (.fault k, s)
    | (.ok pa key _ denied lvl _, s) =>
      let frame := (pa - va % 2 ^ pageShift lvl) / 65536
      (if denied then .denied frame else if pa / 2 ^ 51 = 1 then .far pa key else .here pa key frame, s)

/-- Whether an address is virtual: what reads and writes through `translate(va, …)` alone takes no other (R233, R275). -/
def isVirt (a : Word) : Bool :=
  match classify a with
  | .virt _ => true
  | _ => false

/-- Bytes that stand at local addresses, permitted and clean; none where they do not. `fuel` bounds the lines. -/
def peekBytes (s : State) (core : Nat) (c : Cred) : Nat → Word → Nat → Option (List Byte)
  | 0, _, n => if n = 0 then some [] else none
  | fuel + 1, a, n =>
    if n = 0 then some []
    else
      let k := min n (64 - a.toNat % 64)
      match (locate s core c a .ld false).1, peekBytes s core c fuel (a + BitVec.ofNat 64 k) (n - k) with
      | .here pa key _, some t => if physQuality s pa k = .clean then some (physRead s pa k key ++ t) else none
      | _, _ => none

/-- The same whatever their domain and their quality, for virtual addresses. -/
def peekPlain (s : State) (core : Nat) (c : Cred) (a : Word) (n : Nat) : Option (List Byte) :=
  match classify a with
  | .virt va => match (translate s core c va .ld false).1 with
    | .ok pa key _ _ _ _ => some (physRead s pa n key)
    | .fault _ => none
  | _ => none

/-- n bytes from an address, where they can be seen without an access. -/
def peek (s : State) (core : Nat) (c : Cred) (a : Word) (n : Nat) : Option (List Byte) := peekBytes s core c (n / 64 + 2) a n

/-- The kinds of deny-log entries (R291). -/
def kLoad : Nat := 1
def kStore : Nat := 2
def kEngine : Nat := 3
def kPwoob : Nat := 4
def kLost : Nat := 5

/-- A deny-log entry (R291). -/
def denyEntry (kind role dom core slot payload : Nat) : Word :=
  BitVec.ofNat 64 (kind * 2 ^ 61 + role * 2 ^ 59 + dom * 2 ^ 47 + core * 2 ^ 40 + slot * 2 ^ 38 + payload % 2 ^ 36)

/-- Appends to the deny log, or counts the entry as lost (R291). -/
def denyPush (s : State) (e : Word) : State :=
  let n := s.deny.length
  if s.denyLost = 0 then
    if n < 4096 then { s with deny := s.deny ++ [e] } else { s with denyLost := 1 }
  else if n + 2 ≤ 4096 then
    { s with deny := s.deny ++ [denyEntry kLost 0 0 0 0 s.denyLost, e], denyLost := 0 }
  else { s with denyLost := min (s.denyLost + 1) (2 ^ 36 - 1) }

/-- An entry of a thread's triad (R291). -/
def denyOf (s : State) (t : Tid) (kind payload : Nat) : Word :=
  let tr := s.triad t.ctxn
  denyEntry kind t.role.num tr.tag tr.core tr.slot payload

/-- One distinct (kind, frame) pair of an instruction, logged when it is new (R291). -/
def denyOnce (s : State) (t : Tid) (kind payload : Nat) (seen : List (Nat × Nat)) : State × List (Nat × Nat) :=
  if seen.contains (kind, payload) then (s, seen)
  else (denyPush s (denyOf s t kind payload), (kind, payload) :: seen)

/-- A denied access of the current thread: VSTAT.DENY and one log entry (R289). -/
def State.denied (s : State) (kind frame : Nat) : State :=
  denyPush (s.orVstat s.cur.ctxn vstatDeny) (denyOf s s.cur kind frame)

/-- Drops a core's cached entries that meet a test (R280). -/
def dropTlb (s : State) (core : Nat) (p : Tlb → Bool) : State :=
  s.modCore core fun k => { k with tlb := k.tlb.filter fun t => !p t }

end Sys2Proof.Machine
end

