-- ==== Sys2Proof/Machine/Remote.lean ====
section
/-! DEFINITION. The thread's side of the fabric: transactions sent, the replay buffer, remote reads and writes
(R191, R253, R370 to R378). -/

namespace Sys2Proof.Machine

/-- The LCN of a remote physical address (R271). -/
def lcnOf (pa : Nat) : Nat := nbits pa 44 7

/-- Whether an LCN is lost or unbound (R377). -/
def gone (s : State) (lcn : Nat) : Bool := (s.ident lcn).state != 1

/-- Whether a triad owns abandoned writes to an LCN (R378). -/
def ownsAbandoned (s : State) (ctxn lcn : Nat) : Bool :=
  s.fab.replay.any fun r => r.abandoned && r.lcn == lcn && (r.owner.map (·.ctxn)) == some ctxn

/-- Whether a thread's accesses to an LCN behave as to a lost one (R377, R378). (DEDUCED, log entry 10.) -/
def cutOff (s : State) (t : Tid) (lcn : Nat) : Bool := gone s lcn || ownsAbandoned s t.ctxn lcn

/-- Flits in use in the replay buffer (R375). -/
def replayUsed (s : State) : Nat := (s.fab.replay.map fun r => flitsOf r.txn).sum

/-- Whether the 16 MiB replay buffer has room for more flits (R375). -/
def replayRoom (s : State) (flits : Nat) : Bool := replayUsed s + flits ≤ 262144

/-- The flits that the forwards of n bytes stored at a local address take: none without a replica (R375, R380). -/
def forwardFlits (s : State) (pa n : Nat) : Nat :=
  if (shadowPort s).isSome && inHbm pa then writeFlits 1 * (linesOf pa n).length else 0

/-- Whether the forwards of n bytes stored at a local address find room (R375). (DEDUCED, log entry 85.) -/
def forwardRoom (s : State) (pa n : Nat) : Bool := (shadowPort s).isNone || replayRoom s (forwardFlits s pa n)

/-- A transaction of this device to an LCN, without its data. -/
def txnTo (s : State) (kind lcn pa key tag : Nat) : Txn :=
  { Txn.none with kind := kind, sport := s.fab.idtab.port, dport := (s.ident lcn).port, lcn := lcn, addr := pa % 2 ^ 44,
                  dom := BitVec.ofNat 12 tag, key := key }

/-- The core and the ASID under which a thread's addresses are translated (R280). -/
def viaOf (s : State) (t : Tid) : Option (Nat × Nat) :=
  (tfind t.ctxn s.triads).map fun tr => (tr.core, asidOf tr.ptbase)

/-- The scoreboard entry of a thread's invocation. -/
def entryOf (s : State) (t : Tid) : Option Nat :=
  (tfind t.ctxn s.triads).bind fun tr => (tfind tr.gang s.gangs).map (·.entry)

/-- Puts a write or atomic into the replay buffer and sends it with the next WSEQ (R374, R375), or abandons it at once when
its home is cut off for its owner (R377). -/
def sendWseq (s : State) (t : Txn) (owner : Option Tid) (stream : Nat) (returns : Bool) : State :=
  let r := { Replay.of t.lcn t with
    owner := owner, returns := returns, stream := stream, entry := owner.bind (entryOf s), via := owner.bind (viaOf s) }
  let cut := match owner with
    | some o => cutOff s o t.lcn
    | none => gone s t.lcn
  if !cut then sendHeld s r
  else if owner.isSome ∧ !returns then
    { s with fab := { s.fab with replay := s.fab.replay ++ [{ r with txn := { t with wseq := unsent }, abandoned := true }] } }
  else s

/-- A write of bytes to an LCN: one line with its byte enables, or whole lines (R370). -/
def writeTxn (s : State) (pa key tag : Nat) (bs : List Byte) (poisoned more : Bool) : Txn :=
  { txnTo s 2 (lcnOf pa) pa key tag with
    nbyte := bs.length, data := bs, ben := if bs.length ≤ 64 then List.replicate bs.length true else [],
    pmask := if poisoned then nrange 0 (dataFlits bs.length) else [], more := more }

/-- A write of bytes to a remote address (R370, R374); `more` says that the unit that it belongs to goes on (R250).
(DEDUCED, log entry 11.) -/
def sendWrite (s : State) (owner : Option Tid) (stream tag pa key : Nat) (bs : List Byte) (poisoned : Bool)
    (more : Bool := false) : State :=
  sendWseq s (writeTxn s pa key tag bs poisoned more) owner stream false

/-- Whether the remote lines that an instruction reads have all arrived for the thread. (DEDUCED, log entry 9.) -/
def linesHere (s : State) (t : Tid) (pas : List Nat) : Bool :=
  pas.all fun pa => (tfind (pa / 64) (s.thread t).rbuf).isSome

/-- Whether a line of a thread's buffer has neither arrived nor been asked for. -/
def unasked (s : State) (t : Tid) (slot : Nat) : Bool :=
  (tfind slot (s.thread t).rbuf).isNone && !smem slot (s.thread t).want

/-- Asks a home for whole lines from an address with one read (R370, R374), which go into the thread's buffer from a place on;
lines of a home that is cut off come at once, zero and poisoned (R377). (DEDUCED, log entry 9.) -/
def askRun (s : State) (t : Tid) (tag pa key lines slot : Nat) (more : Bool := false) : State :=
  if !unasked s t slot then s
  else if cutOff s t (lcnOf pa) then
    s.modRole t fun r => { r with rbuf := (nrange slot lines).foldl (fun b l => tset l ⟨List.replicate 64 0, true⟩ b) r.rbuf }
  else
    let q := { txnTo s 0 (lcnOf pa) (pa / 64 * 64) key tag with nbyte := 64 * lines, more := more }.sealed
    let s := putOut (s.modRole t fun r => { r with want := saddAll (nrange slot lines) r.want }) q
    { s with fab := { s.fab with
      reads := s.fab.reads ++ [⟨lcnOf pa, q, t, s.fab.nextNum, slot, viaOf s t⟩], nextNum := s.fab.nextNum + 1 } }

/-- Asks for the remote lines of addresses that have not arrived, one read for each; `unit` says that they are read together, as
one single-copy atomic unit (R250). (DEDUCED, log entries 9, 84.) -/
def askLines (s : State) (t : Tid) (tag : Nat) (lines : List (Nat × Nat)) (unit : Bool := false) : State :=
  match lines with
  | [] => s
  | (pa, key) :: rest =>
    let more := unit && rest.any fun q => lcnOf q.1 == lcnOf pa && q.1 / 64 != pa / 64 && unasked s t (q.1 / 64)
    askLines (askRun s t tag pa key 1 (pa / 64) more) t tag rest unit

/-- The bytes of remote lines that have arrived, from a physical address. (DEDUCED, log entries 9, 10.) -/
def farRead (s : State) (t : Tid) (pa n : Nat) : List Byte :=
  let r := (s.thread t).rbuf
  ((((linesOf pa n).map fun l => (tget ⟨List.replicate 64 0, true⟩ l r).data).flatten).drop (pa % 64)).take n

/-- Whether bytes of remote lines came poisoned. -/
def farPoisoned (s : State) (t : Tid) (pa n : Nat) : Bool :=
  (linesOf pa n).any fun l => (tget ⟨[], true⟩ l (s.thread t).rbuf).pois

/-- Remote writes of a thread that are neither acknowledged nor abandoned (R249). -/
def unacked (s : State) (t : Tid) : Bool := s.fab.replay.any fun r => !r.abandoned && r.owner == some t

/-- The same for the streams of a mask (R245). -/
def unackedIn (s : State) (t : Tid) (mask : Nat) : Bool :=
  s.fab.replay.any fun r => !r.abandoned && r.owner == some t && nbits mask r.stream 1 == 1

/-- Whether an earlier remote write of a thread was abandoned (R249). -/
def lostStores (s : State) (t : Tid) : Bool := s.fab.replay.any fun r => r.abandoned && r.owner == some t

/-- Forgets the reads that a thread still waits for. -/
def dropReads (s : State) (t : Tid) : State :=
  { s with fab := { s.fab with reads := s.fab.reads.filter fun r => r.tid != t } }

end Sys2Proof.Machine
end

