-- ==== Sys2Proof/Machine/Ops.lean ====
section
/-! DEFINITION. The shared operations: completion statuses and words, the release of what a triad holds, the killing of a
gang, taking a trap (R348 to R353) and the return from one (R356). -/

namespace Sys2Proof.Machine

/-! Completion statuses (R218) and their priority (R219). -/

def stDone : Nat := 0
def stPartial : Nat := 1
def stPoisoned : Nat := 2
def stTimeout : Nat := 3
def stPeerLost : Nat := 4
def stRange : Nat := 5
def stDenied : Nat := 6
def stIsolated : Nat := 7
def stKilled : Nat := 8
def stAborted : Nat := 9

/-- The statuses of R219 from the highest row down. -/
def statusOrder : List Nat := [9, 4, 7, 3, 1, 2, 6, 5, 0]

/-- The status of the highest row of R219 among those met; DONE where none is. -/
def topStatus (met : StatSet) : Nat := (statusOrder.find? fun k => met.contains k).getD 0

/-- A completion word: BUSY, a count and a status (R217, R311, R334). -/
def statusWord (busy : Bool) (count status : Nat) : Word :=
  BitVec.ofNat 64 ((if busy then 2 ^ 63 else 0) + count % 2 ^ 32 * 2 ^ 8 + status % 2 ^ 8)

/-- What became of a store that the device makes on its own (R311, R335). -/
inductive Stored
  | ok | faulted | denied (frame : Nat) | lost
  deriving DecidableEq, Repr

/-- Stores a .n64 word for the device itself, under a thread's credentials (R311, R335); `virt` says that only a virtual address
takes it (R275). No core's cache takes part. -/
def deviceStore (s : State) (core : Nat) (c : Cred) (va : Word) (w : Word) (virt : Bool := false) : Stored × State :=
  let cores := s.cores
  match (if isVirt va || !virt then locate s core c va .st true else (.fault 5, s)) with
  | (.fault _, s) => (.faulted, { s with cores := cores })
  | (.denied f, s) => (.denied f, { s with cores := cores })
  | (.far pa key, s) =>
    let s := { s with cores := cores }
    if gone s (lcnOf pa) then (.lost, s) else (.ok, sendWrite s none 0 c.tag pa key (natBytes 8 w.toNat) false)
  | (.here pa key fr, s) =>
    let s := { s with cores := cores }
    if inSealed s pa 8 then (.denied fr, s)
    else match portOf pa with
      | some p => if (s.io.port p).expander && (s.io.port p).iso then (.lost, s)
        else (.ok, physWrite s pa (natBytes 8 w.toNat) key)
      | none => (.ok, physWrite s pa (natBytes 8 w.toNat) key)

def State.queue (s : State) (q : Nat) : Queue := tget Queue.init q s.queues

def State.modQueue (s : State) (q : Nat) (f : Queue → Queue) : State := { s with queues := tset q (f (s.queue q)) s.queues }

/-- CTX.TAG, CTX.PTKEY and CTX.PRIV of a record (R325). -/
def Rec.tag (r : Rec) : Nat := nbits r.ctx.toNat 0 12
def Rec.ptkey (r : Rec) : Nat := nbits r.ctx.toNat 12 7
def Rec.priv (r : Rec) : Bool := nbits r.ctx.toNat 19 1 == 1
def Rec.gangs (r : Rec) : Nat := nbits r.shape.toNat 0 17
def Rec.k (r : Rec) : Nat := nbits r.shape.toNat 17 7
def Rec.slabs (r : Rec) : Nat := 2 ^ nbits r.shape.toNat 24 2
def Rec.soff (r : Rec) : Nat := nbits r.sheet.toNat 0 6
def Rec.slen (r : Rec) : Nat := nbits r.sheet.toNat 6 7
def Rec.cred (r : Rec) : Cred := ⟨r.priv, r.ptbase, r.tag, r.ptkey⟩

/-- Whether a completion word finds room: one that goes to another chip needs it in the replay buffer (R375). -/
def cwRoom (s : State) (r : Rec) : Bool :=
  r.cw == 0 || !isVirt r.cw || (match (locate s 0 r.cred r.cw .st false).1 with
    | .far pa _ => gone s (lcnOf pa) || replayRoom s (writeFlits 8)
    | _ => true)

/-- Writes an invocation's completion word (R335). (DEDUCED, log entry 59.) -/
def writeCw (s : State) (q : Nat) (r : Rec) (w : Word) : State :=
  if r.cw = 0 then s
  else match deviceStore s 0 r.cred r.cw w true with
    | (.ok, t) =>
      let old := s.fab.replay.length
      { t with fab := { t.fab with
        replay := t.fab.replay.take old ++ (t.fab.replay.drop old).map fun x => if x.lcn < 128 then { x with cw := some q } else x } }
    | (.denied f, s) =>
      denyPush (s.modQueue q fun k => { k with cwlost := true }) (denyEntry kStore 0 r.tag 0 0 f)
    | (_, s) => s.modQueue q fun k => { k with cwlost := true }

/-- A progress event of a queue (R337). -/
def progress (s : State) (q : Nat) : State := s.modQueue q fun k => { k with wdNs := 0, wdStage := 0 }

/-- Once every triad of a queue has stopped for a forced pre-emption, STAGE becomes 1 and the count restarts (R338). -/
def wdogSettle (s : State) (q : Nat) : State :=
  if (s.queue q).wdForced.isSome && !(s.triads.any fun p => p.2.queue == q && p.2.wdog) then
    s.modQueue q fun k => { k with wdStage := 1, wdNs := 0, wdForced := none }
  else s

/-- Whether writes of an invocation are still to be performed: bank commands that its killed gangs left, and remote writes that
are neither acknowledged nor abandoned (R334). -/
def entryBusy (s : State) (e : Nat) : Bool :=
  s.bank.any (fun c => c.entry == e) || s.fab.replay.any fun r => !r.abandoned && r.entry == some e

/-- Ends an invocation whose gangs have all retired or been killed: its word is written and its entry freed (R334). An
invocation that the watchdog killed is no progress (R338). -/
def finishInvocation (s : State) (e : Nat) : State :=
  match tfind e s.entries with
  | none => s
  | some v =>
    if (v.retired + v.killedGangs = v.rcd.gangs ∨ (v.dropped ∧ v.retired + v.killedGangs = v.placed)) ∧ !entryBusy s e ∧ cwRoom s v.rcd then
      let status := if v.killedGangs ≠ 0 ∨ v.dropped then stKilled else topStatus v.fills
      let s := writeCw s v.queue v.rcd (statusWord false v.retired status)
      let s := { s with entries := tdel e s.entries }
      if v.dropped then s else progress s v.queue
    else s

/-- Ends every invocation that waited for its last writes (R334). -/
def settleEntries (s : State) : State := s.entries.foldl (fun s p => finishInvocation s p.1) s

/-- The row of tile slots, by key 8·slab + k. -/
def tileKey (slab k : Nat) : Nat := 8 * slab + k

def State.tile (s : State) (key : Nat) : Tile := tget Tile.init key s.tiles

/-- Releases every tile slot that a triad holds, without KEEP (R197). -/
def releaseTiles (s : State) (ctxn : Nat) : State :=
  { s with tiles := s.tiles.map fun p => if p.2.holder = some ctxn then (p.1, { p.2 with holder := none, kept := none }) else p }

/-- Entries of the mesh table that commands have taken which did not come to start become free (R295, R348). -/
def freeStalled (s : State) (ctxn : Nat) : State :=
  let t := s.triad ctxn
  let es := roles.flatMap fun r => match (t.role r).stall with
    | some (.topo _ _ _ _ build) => build
    | _ => []
  if es.isEmpty then s else { s with meshes := es.foldl (fun m e => tdel e m) s.meshes }

/-- What every retired or killed triad gives back: its slot's vector state (R358), its tile slots (R197), its context
number (R347), its abandoned writes (R378), mesh entries that a command of it took and that waits (R295, R348); and, with the last
triad of the invocation on the core, its parameter blocks (R235). -/
def dropTriad (s : State) (ctxn : Nat) : State :=
  let s := freeStalled (releaseTiles s ctxn) ctxn
  let t := s.triad ctxn
  let e := entryOf s ⟨ctxn, .computer⟩
  let last := !(s.triads.any fun p => p.1 != ctxn && p.2.core == t.core && entryOf s ⟨p.1, .computer⟩ == e)
  let s := s.modCore t.core fun k => { k with pblk := k.pblk.filter fun b => !(last && b.entry == e) }
  let mine (o : Option Tid) : Bool := (o.map (·.ctxn)) == some ctxn
  { s with
    triads := tdel ctxn s.triads
    slots := s.slots.map fun p => if p.2.owner = some ctxn then (p.1, { p.2 with owner := none }) else p
    fab := { s.fab with
      replay := (s.fab.replay.filter fun r => !(r.abandoned && mine r.owner)).map fun r =>
        if mine r.owner then { r with owner := none } else r
      reads := s.fab.reads.filter fun r => r.tid.ctxn != ctxn } }

/-- Releases the barrier cells of a gang on a core (R255). -/
def releaseCells (s : State) (core gang : Nat) : State :=
  s.modCore core fun k => { k with cells := k.cells.filter fun p => p.2.gang != gang }

/-- A byte of a sealed object as it stands, through its extents. -/
def extByte (s : State) (exts : List (Nat × Nat)) (off : Nat) : Byte :=
  match exts with
  | [] => 0
  | (pa, n) :: t => if off < n then memByte s.mem.cells (pa + off) else extByte s t (off - n)

/-- The number that n bytes of the object of a mesh entry hold. -/
def extNat (s : State) (e n off : Nat) : Nat :=
  bytesNat ((nrange off n).map (extByte s ((tget ⟨false, 0, [], 0⟩ e s.meshes).exts)))

/-- The arrays that a topology-engine command may read or write, by address and bytes; where a length is not known the array runs
to the end of its sheet (R309, R316 to R319). (DEDUCED, log entry 27.) -/
def topoArrays (s : State) (c : TopoCmd) : List (Word × Nat) :=
  let w (k : Nat) : Nat := blkNat c.blk k
  let at_ (k n : Nat) : Word × Nat := (blkWord c.blk k, n)
  let hd (off : Nat) : Nat := (c.mesh.map fun e => extNat s e 4 off).getD 0
  let part := migP (w 7)
  let elt := migNcomp (w 7) * migEsz (w 7)
  let flds : List (Word × Nat) := (nrange 0 part).filterMap fun k =>
    (peek s c.core c.cred (blkWord c.blk (if c.op = 4 then 5 else 4) + BitVec.ofNat 64 (32 * k)) 24).map fun b =>
      let a := BitVec.ofNat 64 (bytesNat (b.drop 16))
      (a, if c.op = 4 then hd 4 * elt else 2 ^ 22 - a.toNat % 2 ^ 22)
  at_ 0 8 :: match c.op with
    | 0 => [at_ 4 (48 * w 5)]
    | 1 => [at_ 4 (hd 4), at_ 5 (16 + 96 * w 6)]
    | 2 => [at_ 4 (2 * hd 8)]
    | 3 => [at_ 4 (4 * hd 4), at_ 6 (4 * (w 5 + 1))]
    | 4 => [at_ 4 (4 * (part + 1)), at_ 5 (32 * part), at_ 6 (hd 4 * elt)] ++ flds
    | _ => at_ 4 (32 * part) :: flds

/-- The sheet bytes that an engine command in flight names: those of copy commands and of topology-engine commands (R173). -/
def namedSpans (s : State) : List (Nat × Nat) :=
  (s.triads.flatMap fun p => p.2.chans.flatMap fun c => match c.2.cmd with
    | some m => m.reads ++ m.writes
    | none => []) ++
  (s.topos.flatMap fun p => (p.2.queue ++ p.2.running).flatMap fun c => (topoArrays s c).filterMap fun x =>
    match classify x.1 with
    | .atlas t => if x.2 = 0 then none else some (t, t + x.2 - 1)
    | _ => none)

/-- Whether an engine command in flight names a 64 KiB unit of a sheet (R173). -/
def unitNamed (s : State) (u : Nat) : Bool :=
  let lo := (u / 64 / 28 * 2 ^ 27) + (u / 64 % 28 * 2 ^ 22) + u % 64 * 2 ^ 16
  (namedSpans s).any fun x => decide (x.1 < lo + 65536) && decide (lo ≤ x.2)

/-- Releases the sheet units whose gang is no more and that no engine command names (R173). -/
def releaseUnits (s : State) : State :=
  { s with units := s.units.map fun p => match p.2.gang with
    | some g => if (tfind g s.gangs).isNone && !unitNamed s p.1 then (p.1, { p.2 with gang := none }) else p
    | none => p }

/-- The last write of a command whose gang was killed, its completion word ABORTED; the entries that it builds become free
(R295, R308). -/
def abortWord (s : State) (c : TopoCmd) : State :=
  let s := (deviceStore s c.core c.cred (blkWord c.blk 0) (statusWord false 0 stAborted)).2
  { s with meshes := c.build.foldl (fun m e => tdel e m) s.meshes }

/-- A MADAPT that ends before its new mesh is known leaves the header of its remap list: NREC, NNEW and SIZE/256 are 0 (R315). -/
def abortHead (s : State) (c : TopoCmd) : State :=
  if c.op = tMadapt ∧ c.busy ∧ c.result.isNone then
    let n := (c.mesh.map fun e => extNat s e 4 4).getD 0
    let h := remapHead 0 n 0 0
    let a := blkWord c.blk 5
    let s := (deviceStore s c.core c.cred a (BitVec.ofNat 64 (bytesNat (h.take 8)))).2
    (deviceStore s c.core c.cred (a + 8#64) (BitVec.ofNat 64 (bytesNat (h.drop 8)))).2
  else s

/-- Stops the topology-engine commands of a triad: each completes ABORTED once the writes that it has made are acknowledged
(R252, R308, R315). (DEDUCED, log entry 28.) -/
def abortTopo (s : State) (ctxn : Nat) : State :=
  let mine (c : TopoCmd) : Bool := c.tid.ctxn == ctxn
  let pending (c : TopoCmd) : Bool := s.fab.replay.any fun r => !r.abandoned && r.cmd == some c.order
  let cmds := s.topos.flatMap fun p => (p.2.queue ++ p.2.running).filter mine
  let s' := cmds.foldl abortHead s
  let s' := { s' with topos := s'.topos.map fun p =>
    (p.1, ⟨p.2.queue.filter fun c => !mine c,
      p.2.running.filter (fun c => !mine c) ++ ((p.2.queue ++ p.2.running).filter fun c => mine c && pending c).map
        fun c => { c with aborted := true, faulted := false }⟩) }
  (cmds.filter fun c => !pending c).foldl abortWord s'

/-- Kills a gang: its triads stop, its commands end ABORTED, and everything it holds is released (R216, R269, R308,
R334, R338). (DEDUCED, log entry 28.) -/
def killGang (s : State) (g : Nat) : State :=
  match tfind g s.gangs with
  | none => s
  | some v =>
    let live := v.ctxns.filter fun c => (tfind c s.triads).any fun t => t.gang == g
    let s := live.foldl (fun s c => dropTriad (abortTopo s c) c) s
    let s := { s with bank := s.bank.map fun b => if (b.tid.map (live.contains ·.ctxn)).getD false then { b with tid := none, met := stAborted :: b.met } else b }
    let s := v.cores.foldl (fun s c => releaseCells s c g) s
    let s := releaseUnits { s with
      gangs := tdel g s.gangs
      entries := s.entries.map fun p => if p.1 = v.entry then (p.1, { p.2 with killedGangs := p.2.killedGangs + 1 }) else p }
    let q := (tfind v.entry s.entries).map (·.queue)
    let s := finishInvocation s v.entry
    match q with
    | some q => wdogSettle s q
    | none => s

/-! The context area (R351 to R353). -/

def wordBytes (w : Word) : List Byte := natBytes 8 w.toNat

/-- SY_TRAPREC.AREA as an address (R347). -/
def areaOf (traprec : Word) : Nat := nbits traprec.toNat 12 40 * 4096

/-- TRAPW of a post (R353). -/
def trapWord (p : TrapPost) : Word :=
  BitVec.ofNat 64 (2 ^ 63 + (if p.eng then 2 ^ 62 else 0) + p.unit % 256 * 2 ^ 44 + p.sub % 16 * 2 ^ 40 +
    p.elem % 2 ^ 32 * 2 ^ 8 + p.cls % 16)

/-- An EIX-format word of an index list: the element with V, or 0 where none was captured (R56). -/
def hixWord (held : BitVec 6) (hix : List Nat) (c : Nat) : Word :=
  if held.getLsbD c then BitVec.ofNat 64 (2 ^ 63 + hix.getD c 0 % 2 ^ 32) else 0

/-- What a stopped role keeps for its return: from its own trap, else from an instruction it was to continue or reissue,
else from a wait that goes on (R354). -/
structure Kept where
  resume : Word
  cont : Bool
  reissue : Bool
  fpeer : Bool
  elem : Nat
  cnt : List Nat
  held : BitVec 6
  hix : List Nat
  deriving DecidableEq, Repr

/-- What the role block says of the way on (R354, R355). -/
def keptOf (r : RoleState) (p : Option TrapPost) : Kept :=
  let base : Kept := match r.resume with
    | some m => ⟨r.pc, m.cont, m.reissue, m.fpeer, m.phase, m.cnt, m.held, m.hix⟩
    | none => match r.stall with
      | some (.vfetch _) => ⟨r.pc, true, false, false, 0, [], 0, []⟩
      | some (.barrier _ ph _ peer) => ⟨r.pc, true, false, peer, ph, [], 0, []⟩
      | _ => ⟨r.pc, false, false, false, 0, [], 0, []⟩
  match p with
  | none => base
  | some q =>
    if q.cont || q.reissue then ⟨q.resume, q.cont, q.reissue, false, q.elem, q.cnt, q.held, q.hix⟩
    else if q.resume = r.pc then
      let waits := match r.stall with
        | some (.barrier ..) => true
        | some (.vfetch _) => false
        | _ => base.cont && base.cnt.all (· == 0)
      { base with elem := if waits then base.elem else q.elem }
    else ⟨q.resume, false, false, false, q.elem, [], 0, []⟩

/-- RSTATE (R352). -/
def rstateWord (r : RoleState) (k : Kept) : Word :=
  BitVec.ofNat 64 ((if r.ended then 1 else 0) + (if r.priv then 2 else 0) + (if k.cont then 4 else 0) +
    (if k.reissue then 8 else 0) + (if k.fpeer then 32 else 0))

/-- A role block, 1,024 bytes (R352). -/
def roleBlock (r : RoleState) (p : Option TrapPost) : List Byte :=
  let k := keptOf r p
  let trapw : Word := match p with
    | some q => trapWord { q with elem := k.elem }
    | none => BitVec.ofNat 64 (k.elem % 2 ^ 32 * 2 ^ 8)
  let q : TrapPost := p.getD { cls := 0 }
  ((nrange 0 64).map fun i => wordBytes (r.xr i)).flatten ++
    wordBytes k.resume ++ natBytes 8 r.vl ++ wordBytes (rstateWord r k) ++ wordBytes trapw ++ wordBytes q.faddr ++
    natBytes 8 q.npage ++
    ((nrange 0 32).map fun i => natBytes 4 (k.cnt.getD i 0)).flatten ++
    natBytes 8 k.held.toNat ++ ((nrange 0 6).map fun c => wordBytes (hixWord k.held k.hix c)).flatten ++
    List.replicate 24 0 ++
    ((nrange 0 16).map fun i => let e := q.pages.getD i (0, 0); natBytes 8 e.1 ++ natBytes 8 e.2).flatten

/-- The header, 256 bytes (R351). -/
def areaHeader (t : Triad) (ctxn : Nat) (h : Role) (wdog : Bool) : List Byte :=
  natBytes 8 (ctxn % 4096 + h.num * 2 ^ 12 + if wdog then 2 ^ 14 else 0) ++ wordBytes t.vstat ++
    ((nrange 0 6).map fun c => wordBytes (t.eix.getD c 0)).flatten ++ wordBytes t.seed ++ wordBytes t.sn ++
    wordBytes t.ptbase ++ natBytes 8 t.tag ++ natBytes 8 t.ptkey ++ List.replicate 152 0

/-- The context area of a triad, 4,096 bytes. -/
def areaBytes (t : Triad) (ctxn : Nat) (h : Role) (wdog : Bool) : List Byte :=
  areaHeader t ctxn h wdog ++ (roles.map fun r => roleBlock (t.role r) (t.role r).trap).flatten ++
    List.replicate 768 0

/-- Whether a role is at no instruction boundary: a tile instruction, a remote atomic, a replay, a query or an identity change of
it is under way and ends by itself (R206, R215, R348, R382 to R385). (DEDUCED, log entry 28.) -/
def inFlight (r : RoleState) : Bool :=
  r.trap.isNone && (r.tile.isSome || match r.stall with
    | some (.atomic ..) | some (.vatomic ..) | some (.mwfill _) | some (.freplay ..) | some (.fstat _) | some (.swapid _) => true
    | _ => false)

/-- The handler address of a class: BASE + 128·CLASS (R346, R348). -/
def handlerPc (trapvec : Word) (cls : Nat) : Word := BitVec.ofNat 64 (nbits trapvec.toNat 11 46 * 2 ^ 11 + 128 * cls)

/-- A stopped role: its stalls are abandoned (R348); what its record reports of an engine command is kept (R284). -/
def RoleState.stopped (r : RoleState) : RoleState :=
  { r.settle with trap := none, blk := [], reported := r.trap.bind (·.cmd) }

/-- The stopped role in which the handler runs: privileged, at the handler's address, registers kept (R348). -/
def RoleState.handle (r : RoleState) (pc : Word) : RoleState := { r with pc := pc, priv := true, inHandler := true, ended := false }

/-- The events that a VFETCH in progress holds pass to the computer's role state, where its block records them (R352, R355). -/
def holdVpEvents (s : State) (ctxn : Nat) : State :=
  let t := s.triad ctxn
  let sl := s.slot t.slotKey
  match t.computer.stall, sl.vec.vp with
  | some (.vfetch _), some v =>
    if sl.owner = some ctxn then
      let r := t.computer
      let m : Resume := r.resume.getD ⟨true, false, [], 0, [], 0, false⟩
      let ix := (nrange 0 6).map fun c =>
        if v.held.getLsbD c then (if m.held.getLsbD c then min (m.hix.getD c 0) (v.hix.getD c 0) else v.hix.getD c 0)
        else m.hix.getD c 0
      (s.modTriad ctxn fun t => { t with computer := { r with resume := some { m with held := m.held ||| v.held, hix := ix } } }).modSlot
        t.slotKey fun k => { k with vec := { k.vec with vp := some { v with held := 0, hix := [], cohort := none } } }
    else s
  | _, _ => s

/-- Takes the traps that a triad's roles have posted (R348): the context area is written and the handling role enters the
handler, or the gang is killed where no handler or area is set. While a role of the triad is not at an instruction boundary
the traps wait. (DEDUCED, log entry 28.) -/
def takeTrap (s : State) (ctxn : Nat) : State :=
  match tfind ctxn s.triads with
  | none => s
  | some t =>
    match t.trapper with
    | none => s
    | some h =>
      if roles.any (fun r => inFlight (t.role r)) then s
      else
        let vec := (s.core t.core).trapvec
        if vec.getLsbD 63 && t.traprec.getLsbD 63 then
          let cls := ((t.role h).trap.map (·.cls)).getD 0
          let wd := t.wdog && cls != 10
          let s := freeStalled (holdVpEvents s ctxn) ctxn
          let t := s.triad ctxn
          let s := storeOwn s (areaOf t.traprec) (areaBytes t ctxn h wd) 0
          let s := s.modTriad ctxn fun t =>
            let t := { t with loader := t.loader.stopped, computer := t.computer.stopped, storer := t.storer.stopped }
            { t.setRole h ((t.role h).handle (handlerPc vec cls)) with
              trapper := none, handling := some h, wdog := false }
          wdogSettle (roles.foldl (fun s r => dropReads s ⟨ctxn, r⟩) s) t.queue
        else killGang s t.gang

/-- Posts a trap of a role: the first one to trap will handle it (R349). A trap raised in a handler kills the gang (R350).
(DEDUCED, log entry 28.) -/
def postTrap (s : State) (t : Tid) (p : TrapPost) : State :=
  let tr := s.triad t.ctxn
  if (tr.role t.role).inHandler then killGang s tr.gang
  else s.modTriad t.ctxn fun tr =>
    { tr.setRole t.role { tr.role t.role with trap := some p, tile := none } with trapper := tr.trapper <|> some t.role }

/-- The current thread's instruction traps (R348). (DEDUCED, log entry 28.) -/
def State.raise (s : State) (p : TrapPost) : State := takeTrap (postTrap s s.cur p) s.cur.ctxn

/-- A trap that ends the instruction at pc: return comes back to it (R344). -/
def State.trap (s : State) (cls sub elem : Nat) (faddr : Word) : State :=
  s.raise { cls := cls, sub := sub, elem := elem, faddr := faddr, resume := s.th.pc }

/-- A trap after completion: the instruction's effects stand, and return goes on at the successor (R105, R344). -/
def State.trapAfter (s : State) (cls elem : Nat) (faddr : Word) : State :=
  let s := s.advance
  s.raise { cls := cls, elem := elem, faddr := faddr, resume := s.th.pc }

/-! The classes of R344. -/

def cILLOP : Nat := 0
def cILLOPND : Nat := 1
def cPRIV : Nat := 2
def cALIGN : Nat := 3
def cPGFAULT : Nat := 4
def cPARAM : Nat := 5
def cPOISON : Nat := 6
def cUE : Nat := 7
def cFPX : Nat := 8
def cVSWITCH : Nat := 9
def cWDOG : Nat := 10
def cBARRIER : Nat := 11
def cFABRIC : Nat := 12
def cCALL : Nat := 13

def State.trapIllop (s : State) : State := s.trap cILLOP 0 0 0
/-- ILLOPND at decode (R77, R353). (DEDUCED, log entry 29.) -/
def State.trapDecode (s : State) : State := s.trap cILLOPND 0 0 0
/-- ILLOPND at dispatch (R353). -/
def State.trapDispatch (s : State) : State := s.trap cILLOPND 1 0 0
def State.trapPriv (s : State) : State := s.trap cPRIV 0 0 0
def State.trapAlign (s : State) (a : Word) (elem : Nat) : State := s.trap cALIGN 0 elem a
def State.trapPage (s : State) (cause : Nat) (a : Word) (elem : Nat) : State := s.trap cPGFAULT cause elem a

/-! The return (R356). -/

/-- What TRET finds wrong with a role block read from the area: a RESUME that is no multiple of 8 in a role that has not
ended, a reserved bit, a counter above 512, or a counter of a lane that the binding lacks (R356). (DEDUCED, log entry 32.) -/
def badRoleBlock (lanes : Nat) (b : List Byte) : Bool :=
  let w (o : Nat) : Nat := bytesNat ((b.drop o).take 8)
  let rstate := w 0x210
  let trapw := w 0x218
  let cnt := (nrange 0 32).map fun i => bytesNat ((b.drop (0x230 + 4 * i)).take 4)
  (rstate % 2 == 0 && w 0x200 % 8 != 0) || decide (64 ≤ rstate) ||
    nbits trapw 52 10 != 0 || nbits trapw 4 4 != 0 ||
    decide (2 ^ 15 ≤ w 0x208) || decide (2 ^ 32 ≤ w 0x228) || decide (64 ≤ w 0x2B0) ||
    ((b.drop 0x2E8).take 24).any (· != 0) ||
    ((nrange 0 6).any fun c => nbits (w (0x2B8 + 8 * c)) 32 31 != 0) ||
    cnt.any (fun c => decide (512 < c)) || (cnt.drop lanes).any (· != 0) ||
    ((nrange 0 16).any fun i => decide (8 ≤ w (0x308 + 16 * i)))

/-- What TRET finds wrong with the header. (DEDUCED, log entry 32.) -/
def badHeader (b : List Byte) : Bool :=
  let w (o : Nat) : Nat := bytesNat ((b.drop o).take 8)
  decide (2 ^ 15 ≤ w 0) || nbits (w 8) 19 45 != 0 || nbits (w 8) 14 2 != 0 || nbits (w 8) 6 2 != 0 ||
    ((nrange 0 6).any fun c => nbits (w (0x10 + 8 * c)) 32 31 != 0) ||
    nbits (w 0x50) 0 8 != 0 || decide (2 ^ 12 ≤ w 0x58) || decide (2 ^ 7 ≤ w 0x60) ||
    ((b.drop 0x68).take 152).any (· != 0)

/-- A role as its block restores it (R356). -/
def restoreRole (r : RoleState) (b : List Byte) : RoleState :=
  let w (o : Nat) : Nat := bytesNat ((b.drop o).take 8)
  let rstate := w 0x210
  let ended := rstate % 2 == 1
  let cont := nbits rstate 2 1 == 1
  let reissue := nbits rstate 3 1 == 1
  let xs := (nrange 1 63).map fun i => (i, BitVec.ofNat 64 (w (8 * i)))
  { r.stopped with
    x := xs.filter fun p => p.2 != 0
    pc := BitVec.ofNat 64 (w 0x200)
    vl := w 0x208
    priv := nbits rstate 1 1 == 1
    ended := ended
    inHandler := false
    resume := if !ended && (cont || reissue) then
        some ⟨cont, reissue, (nrange 0 32).map fun i => bytesNat ((b.drop (0x230 + 4 * i)).take 4),
          BitVec.ofNat 6 (w 0x2B0), (nrange 0 6).map fun c => nbits (w (0x2B8 + 8 * c)) 0 32,
          nbits (w 0x218) 8 16, nbits rstate 5 1 == 1⟩
      else none }

/-- The command whose fault a role's record reports goes on after TRET (R284), or ends PARTIAL when the handler set ENDCMD. -/
def releaseEngine (s : State) (ctxn : Nat) (area : List Byte) : State :=
  roles.foldl (fun s r =>
    let b := area.drop (0x100 + 0x400 * r.num)
    let tw := bytesNat ((b.drop 0x218).take 8)
    match ((s.triad ctxn).role r).reported with
    | none => s
    | some k =>
      let fin := nbits tw 62 2 == 3 && nbits (bytesNat ((b.drop 0x210).take 8)) 4 1 == 1
      let s := s.modTriad ctxn fun t => { t with chans := t.chans.map fun p => (p.1, { p.2 with cmd := p.2.cmd.map fun c =>
        if c.order = k then { c with faulted := false, met := if fin then stPartial :: c.met else c.met } else c }) }
      { s with topos := s.topos.map fun p => (p.1, { p.2 with running := p.2.running.map fun c =>
        if c.order = k then { c with faulted := false, ended := fin } else c }) }) s

/-- The triad as its area restores it (R356): header, then each role. -/
def restoreTriad (t : Triad) (area : List Byte) : Triad :=
  let w (o : Nat) : Word := BitVec.ofNat 64 (bytesNat ((area.drop o).take 8))
  let blk (r : Role) : List Byte := (area.drop (0x100 + 0x400 * r.num)).take 1024
  { t with
    vstat := w 8, eix := (nrange 0 6).map fun c => w (0x10 + 8 * c), seed := w 0x40, sn := w 0x48, ptbase := w 0x50,
    tag := nbits (w 0x58).toNat 0 12, ptkey := nbits (w 0x60).toNat 0 7,
    loader := restoreRole t.loader (blk .loader), computer := restoreRole t.computer (blk .computer),
    storer := restoreRole t.storer (blk .storer), handling := none, parked := false }

/-- The return of a triad from its handler or from parking (R356, R365): the area is checked, and the roles go on as it
says; a bad area kills the gang. -/
def returnTriad (s : State) (ctxn : Nat) : State :=
  match tfind ctxn s.triads with
  | none => s
  | some t =>
    let area := physRead s (areaOf t.traprec) 4096 0
    let lanes := 8 * s.bound t.core
    if badHeader area || (roles.any fun r => badRoleBlock lanes ((area.drop (0x100 + 0x400 * r.num)).take 1024)) ||
        (area.drop 0xD00).any (· != 0) then killGang s t.gang
    else (releaseEngine s ctxn area).modTriad ctxn fun t => restoreTriad t area

end Sys2Proof.Machine
end

