-- ==== Sys2Proof/Machine/Operands.lean ====
section
/-! DEFINITION. The operand forms: integer widths and extension by T (R109), conditions (R67), scalar memory addresses
(R118), register groups and partitions (R74 to R76, R87), and elements, EGs and companions of vector operands
(R37, R44, R129, R138). -/

namespace Sys2Proof.Machine

/-! Scalar operands. -/

/-- The width in bits that a type code gives; 15 means .i64 (R109). -/
def tWidth (t : BitVec 4) : Nat :=
  match t.toNat with
  | 0 | 4 => 8
  | 1 | 5 | 10 | 11 => 16
  | 2 | 6 | 9 => 32
  | _ => 64

/-- Whether an integer type code is signed (R109). -/
def tSigned (t : BitVec 4) : Bool := t.toNat ≤ 3 || t == 15#4

/-- The value of the low w bits of a register, signed or unsigned by T (R109). -/
def intOf (t : BitVec 4) (v : Word) : Int :=
  if tSigned t then sextNat (tWidth t) v.toNat else ((v.toNat % 2 ^ tWidth t : Nat) : Int)

/-- A result of width w extended to 64 bits by T (R109). -/
def extT (t : BitVec 4) (n : Nat) : Word :=
  if tSigned t then BitVec.ofInt 64 (sextNat (tWidth t) n) else BitVec.ofNat 64 (n % 2 ^ tWidth t)

/-- An exact integer reduced modulo 2^w and extended (R109). -/
def wrapT (t : BitVec 4) (i : Int) : Word := extT t (wrapInt (tWidth t) i)

/-- The lowest and highest value of T (R110). -/
def loT (t : BitVec 4) : Int := if tSigned t then -((2 ^ (tWidth t - 1) : Nat) : Int) else 0
def hiT (t : BitVec 4) : Int := if tSigned t then ((2 ^ (tWidth t - 1) : Nat) : Int) - 1 else ((2 ^ tWidth t : Nat) : Int) - 1

/-- An exact integer into T, saturating or not (R109, R110). -/
def fitT (t : BitVec 4) (sat : Bool) (i : Int) : Word := if sat then wrapT t (max (loT t) (min (hiT t) i)) else wrapT t i

/-- The extension of a loaded or atomic value: integer T by sign, floating point with zeros (R121, R122). -/
def extLoad (t : BitVec 4) (n : Nat) : Word := extT t n

/-- A condition between two values of w bits (R67, R113). -/
def condHolds (c w a b : Nat) : Bool :=
  let a := a % 2 ^ w
  let b := b % 2 ^ w
  match c with
  | 0 => a == b
  | 1 => a != b
  | 2 => decide (sextNat w a < sextNat w b)
  | 3 => decide (sextNat w b ≤ sextNat w a)
  | 4 => decide (a < b)
  | 5 => decide (b ≤ a)
  | _ => true

/-- `x[xbase] + x[xs] + sext(imm16)` (R118). -/
def State.eaM (s : State) (f : FmtM) : Word := s.x f.xbase + s.x f.xs + sext16 f.imm16

/-! Partitions and groups. -/

def cfgNL (cfg : Word) : Nat := nbits cfg.toNat 0 5 * 4
def cfgNC (cfg : Word) : Nat := nbits cfg.toNat 5 5 * 4
def cfgNS (cfg : Word) : Nat := nbits cfg.toNat 10 5 * 4

/-- The partition of a role: its first register and how many (R87). -/
def partition (cfg : Word) : Role → Nat × Nat
  | .loader => (0, cfgNL cfg)
  | .computer => (cfgNL cfg, cfgNC cfg)
  | .storer => (cfgNL cfg + cfgNC cfg, cfgNS cfg)

/-- Whether n registers from v lie in a role's partition (R74, R75). -/
def inPart (cfg : Word) (r : Role) (v n : Nat) : Bool :=
  let p := partition cfg r
  decide (p.1 ≤ v) && decide (v + n ≤ p.1 + p.2)

/-- The direction of ring q: writing role, reading role (R87). -/
def ringDir (cfg : Word) (q : Nat) : Role × Role :=
  match nbits cfg.toNat (16 + 2 * q) 2 with
  | 0 => (.loader, .computer)
  | 1 => (.computer, .storer)
  | 2 => (.loader, .storer)
  | _ => (.computer, .loader)

def ringWriter (cfg : Word) (r : Role) (q : Nat) : Bool := (ringDir cfg q).1 == r
def ringReader (cfg : Word) (r : Role) (q : Nat) : Bool := (ringDir cfg q).2 == r

/-- A register set of an instruction: its first register and its size (R75, R76). -/
structure RegSet where
  base : Nat
  size : Nat
  deriving DecidableEq, Repr

/-- Two sets are disjoint or identical (R76). -/
def RegSet.fine (a b : RegSet) : Bool :=
  decide (a = b) || decide (a.base + a.size ≤ b.base) || decide (b.base + b.size ≤ a.base)

/-- A group of g registers is aligned and in the partition (R75). -/
def groupOk (cfg : Word) (r : Role) (v g : Nat) : Bool := v % g == 0 && inPart cfg r v g

/-! Elements of vector registers. -/

/-- Bits [lo + w - 1 : lo] of a register. -/
def bitsAt (b : Bits) (lo w : Nat) : Nat := (b >>> lo) % 2 ^ w

/-- A register with bits [lo + w - 1 : lo] replaced. -/
def setBitsAt (b : Bits) (lo w v : Nat) : Bits :=
  ((b >>> (lo + w)) <<< (lo + w)) + ((v % 2 ^ w) <<< lo) + b % 2 ^ lo

/-- Element e of w bits (R129). -/
def elemAt (b : Bits) (w e : Nat) : Nat := bitsAt b (e * w) w

def setElem (b : Bits) (w e v : Nat) : Bits := setBitsAt b (e * w) w v

/-- The bits of a vector register. -/
def VecState.reg (v : VecState) (k : Nat) : Bits := tget 0 k v.v

/-- A mask register; m0 reads as all ones (R132). -/
def VecState.maskBit (v : VecState) (k e : Nat) : Bool := k == 0 || (tget 0 k v.m).testBit e

/-- The whole bits of a mask register. -/
def VecState.mask (v : VecState) (k : Nat) : Bits := if k = 0 then 2 ^ 16384 - 1 else tget 0 k v.m

/-- Writes bit e of a mask register. -/
def setBit (b : Bits) (e : Nat) (v : Bool) : Bits := setBitsAt b e 1 (if v then 1 else 0)

/-- `eg(e)` at an element width (R129). -/
def egOf (w e : Nat) : Nat := e * w / 2048

/-- The key of EG g of vk in `pois` (R138). -/
def egKey (k g : Nat) : Nat := 64 * k + g

/-- A source or destination operand: registers, or the entry of a ring. -/
inductive Opnd
  | reg (v : Nat)
  | ring (q : Nat)
  deriving DecidableEq, Repr

def opnd (q : Bool) (f : BitVec 6) : Opnd := if q then .ring (f.toNat % 8) else .reg f.toNat

/-- The bits of register j of an operand group, or of a ring's oldest entry. -/
def VecState.opBits (v : VecState) (o : Opnd) (j : Nat) : Bits :=
  match o with
  | .reg k => v.reg (k + j)
  | .ring q => (((tget [] q v.rings).head?).map (·.bits)).getD 0

/-- Whether EG g of register j of an operand is poisoned. -/
def VecState.opPois (v : VecState) (o : Opnd) (j g : Nat) : Bool :=
  match o with
  | .reg k => smem (egKey (k + j) g) v.pois
  | .ring q => (((tget [] q v.rings).head?).map fun e => smem g e.pois).getD false

/-- The UNIT of a POISON trap that names an operand (R353). -/
def Opnd.unit (o : Opnd) (j : Nat) : Nat :=
  match o with
  | .reg k => k + j
  | .ring q => 0x40 + q

end Sys2Proof.Machine
end

