-- ==== Sys2Proof/Machine/Flags.lean ====
section
/-! DEFINITION. Events: their capture by class and lowest index, the merge into VSTAT and the EIX registers (R54 to R58),
the FPX trap (R59), and the rounding context that scalar words and legends give (R45, R48 to R51, R114). -/

namespace Sys2Proof.Machine

/-- The events of an instruction: the classes raised and the lowest index of each (R57). -/
structure Evs where
  ev : Ev
  ix : List Nat
  deriving DecidableEq, Repr

def Evs.none : Evs := ⟨0, [0, 0, 0, 0, 0, 0]⟩

/-- Adds the events of one element. -/
def Evs.add (a : Evs) (e : Ev) (i : Nat) : Evs :=
  if e = 0 then a
  else ⟨a.ev ||| e, (nrange 0 6).map fun c =>
    if e.getLsbD c then (if a.ev.getLsbD c then min (a.ix.getD c 0) i else i) else a.ix.getD c 0⟩

/-- Two sets of events together. -/
def Evs.join (a b : Evs) : Evs :=
  ⟨a.ev ||| b.ev, (nrange 0 6).map fun c =>
    match a.ev.getLsbD c, b.ev.getLsbD c with
    | true, true => min (a.ix.getD c 0) (b.ix.getD c 0)
    | true, false => a.ix.getD c 0
    | _, _ => b.ix.getD c 0⟩

/-- An EIX register after a merge: it captures when V was 0 (R57). -/
def eixMerge (old : Word) (raised : Bool) (i : Nat) : Word :=
  if raised && !old.getLsbD 63 then BitVec.ofNat 64 (2 ^ 63 + i % 2 ^ 32) else old

/-- The merge of an instruction's events into its triad (R57). -/
def Triad.merge (t : Triad) (e : Evs) : Triad :=
  { t with
    vstat := t.vstat ||| BitVec.setWidth 64 e.ev
    eix := (nrange 0 6).map fun c => eixMerge (t.eix.getD c 0) (e.ev.getLsbD c) (e.ix.getD c 0) }

/-- The enable bits of VSTAT by class (R55). -/
def enabled (vstat : Word) : Ev := vstat.extractLsb' 8 6

/-- Merges, and says whether an enabled event traps FPX (R57, R59). -/
def State.merge (s : State) (e : Evs) : State := s.modTr fun t => t.merge e

/-- The end of an instruction that raises events: merge, then FPX or on to the successor (R59). -/
def State.finish (s : State) (e : Evs) : State :=
  let s := s.merge e
  if enabled s.tr.vstat &&& e.ev ≠ 0 then s.trapAfter cFPX 0 0 else s.advance

/-- SN advances (R50). -/
def State.bumpSn (s : State) (n : Nat) : State := s.modTr fun t => { t with sn := t.sn + BitVec.ofNat 64 n }

/-- The seed that a seed select chooses (R51). -/
def seedFor (t : Triad) (ssel : Nat) (stw : Word) : Word :=
  match ssel with
  | 0 => t.seed
  | 1 => t.seed ^^^ stw
  | _ => t.seed ^^^ stw ^^^ (BitVec.ofNat 64 t.gangId <<< 16) ^^^ (BitVec.ofNat 64 t.triadId <<< 32)

/-- The low 32 random bits of a result (R48, R49). -/
def low32 (seed : Word) (lane elem : Nat) (sn : Word) : Nat := (rbits seed lane elem sn).toNat % 2 ^ 32

end Sys2Proof.Machine
end

