-- ==== Sys2Proof/Machine/Access.lean ====
section
/-! DEFINITION. The scalar thread's accesses to memory: loads, stores and atomics with every check of R118 to R121, R229,
R253, R289, R296 and R377, and the fence that other instructions contain. -/

namespace Sys2Proof.Machine

/-- The result of a part of an instruction: a value to go on with, or the state in which the instruction ended early (a
trap was taken, or the role stalls). -/
inductive Res (α : Type)
  | ok (a : α) (s : State)
  | stop (s : State)
  deriving DecidableEq, Repr

/-- Whether an access of n bytes at an atlas address waits for a watermark of the triad (R229). (DEDUCED, log entry 22.) -/
def heldByMark (t : Triad) (a n : Nat) : Bool :=
  t.chans.any fun p => p.2.wmA && decide (p.2.mark < a + n) && decide (a ≤ p.2.dhi)

/-- The same for an address in the model's memory. (DEDUCED, log entry 22.) -/
def markHolds (s : State) (pa n : Nat) : Bool := decide (atlasBase ≤ pa) && heldByMark s.tr (pa - atlasBase) n

/-- Loads n ≤ 8 bytes at an aligned address for the current thread (R118, R119, R229, R289). (DESIGN CHOICE, log entry 8.) -/
def loadBytes (s : State) (a : Word) (n : Nat) : Res (List Byte) :=
  if a.toNat % n ≠ 0 then .stop (s.trapAlign a 0)
  else match locate s s.tr.core s.cred a .ld true with
    | (.fault c, s) => .stop (s.trapPage c a 0)
    | (.denied f, s) => .ok (List.replicate n 0) (s.denied kLoad f)
    | (.far pa key, s) =>
      let s := askLines s s.cur s.tr.tag [(pa, key)]
      if linesHere s s.cur [pa] then
        if farPoisoned s s.cur pa n then .stop (s.trap cPOISON 0 0 a) else .ok (farRead s s.cur pa n) s
      else .stop (s.stallOn .remote)
    | (.here pa key _, s) =>
      if markHolds s pa n then .stop (s.stallOn .watermark)
      else match physQuality s pa n with
        | .poisoned => .stop (s.trap cPOISON 0 0 a)
        | .uncorrectable => .stop (s.trap cUE 0 0 a)
        | .clean => .ok (physRead s pa n key) s

/-- Stores up to 8 bytes at an aligned address for the current thread (R118, R229, R289, R296, R375, R377). (DESIGN CHOICE, log entry 8.) -/
def storeBytes (s : State) (a : Word) (bs : List Byte) (stream : Nat) : Res Unit :=
  if a.toNat % bs.length ≠ 0 then .stop (s.trapAlign a 0)
  else match locate s s.tr.core s.cred a .st true with
    | (.fault c, s) => .stop (s.trapPage c a 0)
    | (.denied f, s) => .ok () (s.denied kStore f)
    | (.far pa key, s) =>
      if replayRoom s (writeFlits bs.length) then .ok () (sendWrite s (some s.cur) stream s.tr.tag pa key bs false)
      else .stop (s.stallOn (.replay (writeFlits bs.length)))
    | (.here pa key fr, s) =>
      if markHolds s pa bs.length then .stop (s.stallOn .watermark)
      else if !forwardRoom s pa bs.length then .stop (s.stallOn (.replay (forwardFlits s pa bs.length)))
      else if inSealed s pa bs.length then .ok () (s.denied kStore fr)
      else .ok () (physWrite s pa bs key)

/-- The new value of an atomic (R121, R382): operations 0 to 7, and 8 for compare-and-swap. -/
def atomicNew (op : Nat) (t : BitVec 4) (old b cmp : Nat) : Nat :=
  let w := tWidth t
  let o := old % 2 ^ w
  let v := b % 2 ^ w
  match op with
  | 0 => (o + v) % 2 ^ w
  | 1 => o &&& v
  | 2 => o ||| v
  | 3 => o ^^^ v
  | 4 => if (if tSigned t then decide (sextNat w v < sextNat w o) else decide (v < o)) then v else o
  | 5 => if (if tSigned t then decide (sextNat w o < sextNat w v) else decide (o < v)) then v else o
  | 6 => v
  | 7 =>
    let f := (fmtOfT t.toNat).getD .fp32
    let r := addV .rne (plainVal f false o) (plainVal f false v)
    (roundTo f ⟨.rne, false, false, 0⟩ r.1).1
  | _ => if o = cmp % 2 ^ w then v else o

/-- A FABRIC trap that waits for the instruction boundary after the atomic at pc (R377, R379). (DEDUCED, log entry 10.) -/
def fabricPost (sub wseq : Nat) (ea resume : Word) : TrapPost :=
  { cls := cFABRIC, sub := sub, elem := wseq, faddr := ea, resume := resume }

/-- What the status of a fence does to VSTAT (R248). -/
def peerNote (s : State) (ctxn st : Nat) : State := if st = stPeerLost then s.orVstat ctxn vstatPeer else s

/-- A remote atomic of the current thread: sent as a returning atomic, or FABRIC pending where its home is cut off
(R121, R377, R379, R382). `fence` is the status of the fence before a TSIGNAL `add`, which xd takes instead of the old value
(R341). (DEDUCED, log entry 11.) -/
def remoteAtomic (s : State) (op : Nat) (t : BitVec 4) (pa key : Nat) (ea b cmp : Word) (xd : BitVec 6)
    (fence : Option Nat := none) : State :=
  let lcn := lcnOf pa
  if cutOff s s.cur lcn then
    let s := (peerNote s s.cur.ctxn (fence.getD 0)).advance
    s.modTh fun r => { r with async := r.async ++ [fabricPost 2 0 ea r.pc] }
  else if !replayRoom s atomicFlits || smem lcn s.fab.awaited then s.stallOn (.replay atomicFlits)
  else
    let w := nextWseq s lcn
    let q := { txnTo s 3 lcn pa key s.tr.tag with op := op, ty := t.toNat, operand := b, cmpval := cmp, nbyte := 0 }
    (sendWseq s q (some s.cur) 0 true).stallOn (.atomic lcn w xd.toNat t.toNat ea fence)

/-- The read-modify-write of AMO, CAS, RAMO and TSIGNAL `add` for the current thread (R121, R382): xd takes the old value.
(DESIGN CHOICE, log entry 8.) -/
def atomicAt (s : State) (a : Word) (op : Nat) (t : BitVec 4) (b cmp : Word) (xd : BitVec 6) : State :=
  let n := tWidth t / 8
  if a.toNat % n ≠ 0 then s.trapAlign a 0
  else match locate s s.tr.core s.cred a .rmw true with
    | (.fault c, s) => s.trapPage c a 0
    | (.denied f, s) => (s.denied kStore f).done xd 0
    | (.far pa key, s) => remoteAtomic s op t pa key a b cmp xd
    | (.here pa key fr, s) =>
      if markHolds s pa n then s.stallOn .watermark
      else if !forwardRoom s pa n then s.stallOn (.replay (forwardFlits s pa n))
      else if inSealed s pa n then (s.denied kStore fr).done xd 0
      else match physQuality s pa n with
        | .poisoned => s.trap cPOISON 0 0 a
        | .uncorrectable => s.trap cUE 0 0 a
        | .clean =>
          let old := physNat s pa n key
          (physWrite s pa (natBytes n (atomicNew op t old b.toNat cmp.toNat)) key).done xd (extLoad t old)

/-- The status of a fence of a thread whose remote stores have all been acknowledged or abandoned (R248, R249). -/
def fenceStatus (s : State) (t : Tid) : Nat := if lostStores s t then stPeerLost else stDone

/-- The effect of a fence at its end: VSTAT.PEER after PEER_LOST (R248). -/
def fenceEnd (s : State) (t : Tid) : State := if lostStores s t then s.orVstat t.ctxn vstatPeer else s

/-- The bytes of a whole range that a scalar or system instruction reads at once through translation: the first fault of its
addresses in rising order, or for each byte run of at most 64 bytes within a line where it lies. -/
inductive Piece
  | here (pa key : Nat) (n : Nat) (frame : Nat)
  | far (pa key : Nat) (n : Nat)
  | denied (frame n : Nat)
  deriving DecidableEq, Repr

/-- Where each line-sized piece of a range lies (R118, R178); `virt` says that only virtual addresses do (R275). `fuel` bounds the
number of pieces. -/
def locateRange (core : Nat) (c : Cred) (acc : Acc) (virt : Bool) : Nat → State → Word → Nat → Except (Nat × Word × State) (List Piece × State)
  | 0, s, _, _ => .ok ([], s)
  | fuel + 1, s, a, n =>
    if n = 0 then .ok ([], s)
    else
      let k := min n (64 - a.toNat % 64)
      match (if virt && !isVirt a then (.fault 5, s) else locate s core c a acc true) with
      | (.fault cause, s) => .error (cause, a, s)
      | (l, s) =>
        let p : Piece := match l with
          | .here pa key fr => .here pa key k fr
          | .far pa key => .far pa key k
          | .denied f => .denied f k
          | .fault _ => .denied 0 k
        match locateRange core c acc virt fuel s (a + BitVec.ofNat 64 k) (n - k) with
        | .ok (ps, s) => .ok (p :: ps, s)
        | .error e => .error e

/-- The pieces of a range of n bytes. -/
def pieces (s : State) (core : Nat) (c : Cred) (acc : Acc) (a : Word) (n : Nat) (virt : Bool := false) :
    Except (Nat × Word × State) (List Piece × State) :=
  locateRange core c acc virt (n / 64 + 2) s a n

def Piece.len : Piece → Nat
  | .here _ _ n _ => n
  | .far _ _ n => n
  | .denied _ n => n

/-- The remote addresses of pieces. -/
def farOf (ps : List Piece) : List (Nat × Nat) := ps.filterMap fun p =>
  match p with
  | .far pa key _ => some (pa, key)
  | _ => none

/-- The bytes of a piece; a denied piece reads zero (R289). -/
def pieceRead (s : State) (t : Tid) : Piece → List Byte
  | .here pa key n _ => physRead s pa n key
  | .far pa _ n => farRead s t pa n
  | .denied _ n => List.replicate n 0

/-- The quality of a piece. -/
def pieceQuality (s : State) (t : Tid) : Piece → Quality
  | .here pa _ n _ => physQuality s pa n
  | .far pa _ n => if farPoisoned s t pa n then .poisoned else .clean
  | .denied _ _ => .clean

/-- The worst quality of pieces, in the order of delivery: POISON before UE. -/
def worstQuality (s : State) (t : Tid) (ps : List Piece) : Quality :=
  if ps.any (fun p => pieceQuality s t p == .poisoned) then .poisoned
  else if ps.any (fun p => pieceQuality s t p == .uncorrectable) then .uncorrectable else .clean

/-- The frames of the denied pieces. -/
def deniedFrames (ps : List Piece) : List Nat := ldedup (ps.filterMap fun p =>
  match p with
  | .denied f _ => some f
  | _ => none)

/-- Logs denied loads of the current thread once for each frame and sets VSTAT.DENY (R289, R291). -/
def logDenied (s : State) (kind : Nat) (frames : List Nat) : State :=
  frames.foldl (fun s f => s.denied kind f) s

/-- Reads a range whole for the current thread, with the traps of R118 and R119; the address names a fault's place. -/
def readRange (s : State) (a : Word) (n : Nat) (virt : Bool := false) : Res (List Byte × List Nat) :=
  match pieces s s.tr.core s.cred .ld a n virt with
  | .error (c, b, s) => .stop (s.trapPage c b 0)
  | .ok (ps, s) =>
    let s := askLines s s.cur s.tr.tag (farOf ps)
    if !linesHere s s.cur ((farOf ps).map (·.1)) then .stop (s.stallOn .remote)
    else if ps.any (fun p => match p with | .here pa _ k _ => markHolds s pa k | _ => false) then .stop (s.stallOn .watermark)
    else match worstQuality s s.cur ps with
      | .poisoned => .stop (s.trap cPOISON 0 0 a)
      | .uncorrectable => .stop (s.trap cUE 0 0 a)
      | .clean => .ok ((ps.map (pieceRead s s.cur)).flatten, deniedFrames ps) s

end Sys2Proof.Machine
end

