-- ==== Sys2Proof/Machine/Scalar.lean ====
section
/-! DEFINITION. The scalar integer instructions: R109 to R113. -/

namespace Sys2Proof.Machine

/-- What a meaning answers: always a next state here. -/
abbrev Answer := Host.Outcome State Fault Refusal

/-- a and b of a three-operand integer word as values of T (R109). -/
def State.aOf (s : State) (f : FmtA) : Int := intOf f.t (s.x f.xa)
def State.bOf (s : State) (f : FmtA) : Int := intOf f.t (s.x f.xb)

/-- The low w bits of a and b. -/
def State.aBits (s : State) (f : FmtA) : Nat := (s.x f.xa).toNat % 2 ^ tWidth f.t
def State.bBits (s : State) (f : FmtA) : Nat := (s.x f.xb).toNat % 2 ^ tWidth f.t

/-- OPV[0]: saturate (R110). -/
def satA (f : FmtA) : Bool := f.opv.getLsbD 0

/-- The shift count b mod w (R110). -/
def State.count (s : State) (f : FmtA) : Nat := s.bBits f % tWidth f.t

/-- Quotient truncated toward zero, with R111's corner. -/
def divInt (a b : Int) : Int := if b = 0 then -1 else Int.tdiv a b

/-- Remainder with the sign of a, with R111's corner. -/
def remInt (a b : Int) : Int := if b = 0 then a else Int.tmod a b

/-- An arithmetic right shift of w bits. -/
def sraNat (w a k : Nat) : Nat := wrapInt w (sextNat w a / (2 ^ k : Nat))

/-- A left rotation within w bits. -/
def rotlNat (w a k : Nat) : Nat := (a * 2 ^ k + a / 2 ^ (w - k)) % 2 ^ w

/-- Leading zero bits of a value of w bits (R110). -/
def clzNat (w a : Nat) : Nat := if a = 0 then w else w - 1 - Nat.log2 a

/-- Trailing zero bits among the low `f` bits from place k. -/
def ctzFrom (a : Nat) : Nat → Nat → Nat
  | 0, k => k
  | f + 1, k => if a.testBit k then k else ctzFrom a f (k + 1)

/-- Trailing zero bits of a value of w bits (R110). -/
def ctzNat (w a : Nat) : Nat := ctzFrom a w 0

/-- The number of 1 bits among the low w (R110). -/
def popNat (w a : Nat) : Nat := ((nrange 0 w).filter a.testBit).length

/-- Bit i moved to bit w − 1 − i (R110). -/
def revNat (w a : Nat) : Nat := ((nrange 0 w).map fun i => if a.testBit i then 2 ^ (w - 1 - i) else 0).sum

/-- ADD: a + b (R110). -/
def execAdd (f : FmtA) (s : State) : Answer := .next (s.done f.xd (fitT f.t (satA f) (s.aOf f + s.bOf f)))

/-- SUB: a − b (R110). -/
def execSub (f : FmtA) (s : State) : Answer := .next (s.done f.xd (fitT f.t (satA f) (s.aOf f - s.bOf f)))

/-- MUL: a × b (R110). -/
def execMul (f : FmtA) (s : State) : Answer := .next (s.done f.xd (fitT f.t (satA f) (s.aOf f * s.bOf f)))

/-- MULH: the high half of the exact product (R110). -/
def execMulh (f : FmtA) (s : State) : Answer := .next (s.done f.xd (wrapT f.t (s.aOf f * s.bOf f / (2 ^ tWidth f.t : Nat))))

/-- DIV: truncated quotient (R111). -/
def execDiv (f : FmtA) (s : State) : Answer := .next (s.done f.xd (wrapT f.t (divInt (s.aOf f) (s.bOf f))))

/-- REM: a − b × (a DIV b) (R111). -/
def execRem (f : FmtA) (s : State) : Answer := .next (s.done f.xd (wrapT f.t (remInt (s.aOf f) (s.bOf f))))

/-- AND (R110). -/
def execAnd (f : FmtA) (s : State) : Answer := .next (s.done f.xd (extT f.t (s.aBits f &&& s.bBits f)))

/-- OR (R110). -/
def execOr (f : FmtA) (s : State) : Answer := .next (s.done f.xd (extT f.t (s.aBits f ||| s.bBits f)))

/-- XOR (R110). -/
def execXor (f : FmtA) (s : State) : Answer := .next (s.done f.xd (extT f.t (s.aBits f ^^^ s.bBits f)))

/-- SHL by b mod w (R110). -/
def execShl (f : FmtA) (s : State) : Answer := .next (s.done f.xd (extT f.t (s.aBits f * 2 ^ s.count f)))

/-- SHR by b mod w, zeros in (R110). -/
def execShr (f : FmtA) (s : State) : Answer := .next (s.done f.xd (extT f.t (s.aBits f / 2 ^ s.count f)))

/-- SRA by b mod w (R110). -/
def execSra (f : FmtA) (s : State) : Answer := .next (s.done f.xd (extT f.t (sraNat (tWidth f.t) (s.aBits f) (s.count f))))

/-- ROTL by b mod w (R110). -/
def execRotl (f : FmtA) (s : State) : Answer := .next (s.done f.xd (extT f.t (rotlNat (tWidth f.t) (s.aBits f) (s.count f))))

/-- MIN, signed or unsigned by T (R110). -/
def execMin (f : FmtA) (s : State) : Answer := .next (s.done f.xd (wrapT f.t (min (s.aOf f) (s.bOf f))))

/-- MAX, signed or unsigned by T (R110). -/
def execMax (f : FmtA) (s : State) : Answer := .next (s.done f.xd (wrapT f.t (max (s.aOf f) (s.bOf f))))

/-- CLZ (R110). -/
def execClz (f : FmtA) (s : State) : Answer := .next (s.done f.xd (extT f.t (clzNat (tWidth f.t) (s.aBits f))))

/-- CTZ (R110). -/
def execCtz (f : FmtA) (s : State) : Answer := .next (s.done f.xd (extT f.t (ctzNat (tWidth f.t) (s.aBits f))))

/-- POPC (R110). -/
def execPopc (f : FmtA) (s : State) : Answer := .next (s.done f.xd (extT f.t (popNat (tWidth f.t) (s.aBits f))))

/-- BREV (R110). -/
def execBrev (f : FmtA) (s : State) : Answer := .next (s.done f.xd (extT f.t (revNat (tWidth f.t) (s.aBits f))))

/-- CMP: 1 when the condition holds between the w-bit values (R113). -/
def execCmp (f : FmtA) (s : State) : Answer :=
  .next (s.done f.xd (if condHolds (f.opv.toNat % 8) (tWidth f.t) (s.aBits f) (s.bBits f) then 1 else 0))

/-- SEL: x[xa] when x[xc] is not 0, else x[xb] (R113). -/
def execSel (f : FmtA) (s : State) : Answer :=
  .next (s.done f.xd (if s.x f.xc ≠ 0 then s.x f.xa else s.x f.xb))

/-- LEA: x[xa] + (x[xb] << s) + sext(imm16) (R113). -/
def execLea (f : FmtA) (s : State) : Answer :=
  .next (s.done f.xd (s.x f.xa + (s.x f.xb <<< (f.opv.toNat % 4)) + sext16 f.imm16))

/-- pos and len of a bit-field word (R113). -/
def fieldPos (f : FmtA) : Nat := nbits f.imm16.toNat 0 6
def fieldLen (f : FmtA) : Nat := nbits f.imm16.toNat 6 6 + 1

/-- BEXT: a bit field, zero- or sign-extended (R113). -/
def execBext (f : FmtA) (s : State) : Answer :=
  let v := nbits (s.x f.xa).toNat (fieldPos f) (fieldLen f)
  .next (s.done f.xd (if f.opv.getLsbD 0 then BitVec.ofInt 64 (sextNat (fieldLen f) v) else BitVec.ofNat 64 v))

/-- BINS: the low bits of x[xb] put into a field of x[xa] (R113). -/
def execBins (f : FmtA) (s : State) : Answer :=
  .next (s.done f.xd (BitVec.ofNat 64 (setBitsAt (s.x f.xa).toNat (fieldPos f) (fieldLen f) (s.x f.xb).toNat)))

/-- i of an immediate word, as a value of T (R112). -/
def immOf (f : FmtB) : Int := intOf f.t (sext32 f.imm32)
def immBits (f : FmtB) : Nat := (sext32 f.imm32).toNat % 2 ^ tWidth f.t
def State.aImm (s : State) (f : FmtB) : Nat := (s.x f.xa).toNat % 2 ^ tWidth f.t

/-- ADDI: a + i (R112). -/
def execAddi (f : FmtB) (s : State) : Answer :=
  .next (s.done f.xd (fitT f.t (f.opv.getLsbD 0) (intOf f.t (s.x f.xa) + immOf f)))

/-- ANDI (R112). -/
def execAndi (f : FmtB) (s : State) : Answer := .next (s.done f.xd (extT f.t (s.aImm f &&& immBits f)))

/-- ORI (R112). -/
def execOri (f : FmtB) (s : State) : Answer := .next (s.done f.xd (extT f.t (s.aImm f ||| immBits f)))

/-- XORI (R112). -/
def execXori (f : FmtB) (s : State) : Answer := .next (s.done f.xd (extT f.t (s.aImm f ^^^ immBits f)))

/-- SHLI by imm32 (R112). -/
def execShli (f : FmtB) (s : State) : Answer := .next (s.done f.xd (extT f.t (s.aImm f * 2 ^ f.imm32.toNat)))

/-- SHRI by imm32 (R112). -/
def execShri (f : FmtB) (s : State) : Answer := .next (s.done f.xd (extT f.t (s.aImm f / 2 ^ f.imm32.toNat)))

/-- SRAI by imm32 (R112). -/
def execSrai (f : FmtB) (s : State) : Answer :=
  .next (s.done f.xd (extT f.t (sraNat (tWidth f.t) (s.aImm f) f.imm32.toNat)))

/-- CMPI: CMP with i in place of b (R112). -/
def execCmpi (f : FmtB) (s : State) : Answer :=
  .next (s.done f.xd (if condHolds (f.opv.toNat % 8) (tWidth f.t) (s.aImm f) (immBits f) then 1 else 0))

/-- MOVI: imm32 sign-extended (R112). -/
def execMovi (f : FmtB) (s : State) : Answer := .next (s.done f.xd (sext32 f.imm32))

/-- MOVHI: imm32 above the low half of x[xa] (R112). -/
def execMovhi (f : FmtB) (s : State) : Answer :=
  .next (s.done f.xd (f.imm32 ++ (s.x f.xa).extractLsb' 0 32))

end Sys2Proof.Machine
end

