-- ==== Sys2Proof/Machine/SysRegs.lean ====
section
/-! DEFINITION. The state registers by number (R107): what each reads as and what a write does to it; and the writes of the
control-plane semaphore SY_SEM (R392, R393). -/

namespace Sys2Proof.Machine

/-! The semaphore. -/

/-- REMAIN: ms left on the lease (R392). -/
def Sem.remain (m : Sem) : Nat := if m.owner = 0 then 0 else (m.remNs + 999999) / 1000000

/-- The lease in ns; a length of 0 acts as 1 ms (R392). -/
def Sem.leaseNs (m : Sem) : Nat := max 1 m.lease * 1000000

/-- Whether a requester owns the semaphore on a lease that has not lapsed (R393). -/
def Sem.owns (m : Sem) (who : Nat) : Bool := m.owner == who && m.remNs != 0

/-- A performed write of the owner restores REMAIN to LEASE (R393). -/
def Sem.renewed (m : Sem) : Sem := { m with remNs := m.leaseNs }

/-- An acquire (R393): granted when there is no owner, the requester owns, or the lease has lapsed. The owner's own write
also writes LEASE (R392). (DEDUCED, log entry 67.) -/
def Sem.acquire (m : Sem) (who lease : Nat) : Sem :=
  let m := if m.owns who then { m with lease := lease } else m
  if m.owner = 0 ∨ m.owner = who ∨ m.remNs = 0 then
    Sem.renewed { m with owner := who, takes := if m.owner ≠ 0 ∧ m.remNs = 0 then (m.takes + 1) % 65536 else m.takes }
  else m

/-- A release (R393). -/
def Sem.release (m : Sem) (who lease : Nat) : Sem :=
  if m.owns who then { m with owner := 0, remNs := 0, lease := lease } else m

/-- A renew, or a write with no command: LEASE is written and REMAIN restored (R392, R393). (DEDUCED, log entry 67.) -/
def Sem.renew (m : Sem) (who lease : Nat) : Sem := if m.owns who then Sem.renewed { m with lease := lease } else m

/-- A write of SY_SEM by a requester 1 to 4 (R392). -/
def Sem.write (m : Sem) (who : Nat) (v : Word) : Sem :=
  let lease := nbits v.toNat 16 16
  match nbits v.toNat 59 2 with
  | 1 => m.acquire who lease
  | 2 => m.release who lease
  | _ => m.renew who lease

/-- What SY_SEM reads as (R392). -/
def Sem.word (m : Sem) : Word :=
  BitVec.ofNat 64 (m.owner * 2 ^ 61 + m.takes * 2 ^ 32 + m.lease * 2 ^ 16 + m.remain % 65536)

/-! Reads. -/

/-- WMARKk (R228). -/
def Chan.wmark (c : Chan) : Word := BitVec.ofNat 64 ((if c.wmA then 2 ^ 63 else 0) + c.mark)

def Triad.chan (t : Triad) (k : Nat) : Chan := tget Chan.init k t.chans

/-- SERVICE_LEVEL (R394). -/
def IoDie.serviceLevel (d : IoDie) : Word := BitVec.ofNat 64 (d.trained * 2 ^ 16 + d.code * 2 ^ 8 + d.stage)

/-- SY_VOWNER of a core (R357). -/
def State.vowner (s : State) (core : Nat) : Word :=
  BitVec.ofNat 64 (((nrange 0 4).map fun j => match (s.slot (slotKey core j)).owner with
    | some c => (2 ^ 15 + c % 4096) * 2 ^ (16 * j)
    | none => 0).sum)

/-- SY_WDOG and Q_WDOG of a queue (R336). -/
def Queue.wdog (q : Queue) : Word :=
  BitVec.ofNat 64 ((if q.wdEn then 2 ^ 63 else 0) + q.wdStage * 2 ^ 61 + q.wdGrace * 2 ^ 32 + q.wdLimit)

/-- A queue after a write of SY_WDOG or Q_WDOG (R336). -/
def Queue.setWdog (q : Queue) (v : Word) : Queue :=
  { q with wdEn := v.getLsbD 63, wdGrace := nbits v.toNat 32 24, wdLimit := nbits v.toNat 0 32 }

/-- SY_IDTAB (R367). -/
def IdTab.word (t : IdTab) : Word :=
  BitVec.ofNat 64 ((if t.fen then 2 ^ 63 else 0) + (if t.rep then 2 ^ 62 else 0) + (if t.shd then 2 ^ 61 else 0) +
    (if t.cur then 2 ^ 60 else 0) + t.fst * 2 ^ 58 + t.shlcn * 2 ^ 48 + t.port * 2 ^ 8 + t.lcn)

/-- SY_IDTAB after a write: LCN and REP change only while FEN is 0; a port that is enabled starts to train, and one that is
disabled is down (R367). (DEDUCED, log entry 51.) -/
def IdTab.write (t : IdTab) (v : Word) : IdTab :=
  let fen := v.getLsbD 63
  let t := if t.fen then t else { t with rep := v.getLsbD 62, lcn := nbits v.toNat 0 7 }
  if fen = t.fen then t else { t with fen := fen, fst := if fen then 1 else 0 }

/-- The physical quad of a working quad beside the spare one (R20). (DESIGN CHOICE, log entry 73.) -/
def physQuad (spare wq : Nat) : Nat := if wq < spare then wq else wq + 1

/-- SY_BINDMAP of a die (R25). (DESIGN CHOICE, log entry 73.) -/
def State.bindmap (s : State) (die : Nat) : Word :=
  let spare := Config.spareQuad die % 8
  BitVec.ofNat 64 (((nrange 0 8).map fun k =>
    let wq := if k < spare then k else k - 1
    let b := if k = spare then 2 ^ 7 + 7 * 2 ^ 4
      else wq * 2 ^ 4 + (if Config.paired die k then 2 ^ 3 else 0) + tget 0 (7 * die + wq) s.modes
    b * 2 ^ (8 * k)).sum)

/-- What the state register with a number reads as in the current thread (R107). -/
def State.readSr (s : State) (n : Nat) : Word :=
  let t := s.tr
  match n with
  | 0x000 => BitVec.ofNat 64 s.th.vl
  | 0x001 => t.vstat
  | 0x002 => t.eix.getD 0 0
  | 0x003 => t.eix.getD 1 0
  | 0x004 => t.eix.getD 2 0
  | 0x005 => t.eix.getD 3 0
  | 0x006 => t.eix.getD 4 0
  | 0x007 => t.eix.getD 5 0
  | 0x008 => t.seed
  | 0x009 => t.sn
  | 0x00A => BitVec.ofNat 64 t.gangId
  | 0x00B => BitVec.ofNat 64 t.gangs
  | 0x00C => BitVec.ofNat 64 t.triadId
  | 0x00D => BitVec.ofNat 64 t.core
  | 0x00E => BitVec.ofNat 64 s.fab.idtab.lcn
  | 0x00F => BitVec.ofNat 64 s.time
  | 0x020 => s.io.serviceLevel
  | 0x800 => t.ptbase
  | 0x801 => BitVec.ofNat 64 t.tag
  | 0x802 => BitVec.ofNat 64 t.ptkey
  | 0x803 => (s.core t.core).trapvec
  | 0x804 => t.traprec
  | 0x805 => s.vowner t.core
  | 0x806 => (s.queue t.queue).wdog
  | 0x807 => s.fab.idtab.word
  | 0x808 => s.io.sem.word
  | 0x80A => s.bindmap (dieOf t.core)
  | k => if 0x010 ≤ k ∧ k ≤ 0x01F then (t.chan (k - 0x010)).wmark else 0

/-! Writes. -/

/-- The bits of VSTAT that a program may write (R55). -/
def vstatRw : Word := 0x73F3F#64

/-- The bits of an EIX register that a program may write (R56). -/
def eixRw : Word := 0x80000000FFFFFFFF#64

/-- The bits of SY_TRAPVEC that may be written (R346). -/
def trapvecRw : Word := 0x81FFFFFFFFFFF800#64

/-- SY_TRAPREC after a write; one whose area lies outside local HBM4E is ignored (R347). -/
def traprecWrite (old v : Word) : Word :=
  if localHbm (areaOf v) then v &&& 0x800FFFFFFFFFF000#64 else old

/-- A write of the state register with a number by the current thread; reserved and RO fields keep their values (R13,
R123). -/
def State.writeSr (s : State) (n : Nat) (v : Word) : State :=
  match n with
  | 0x001 => s.modTr fun t => { t with vstat := v &&& vstatRw }
  | 0x008 => s.modTr fun t => { t with seed := v }
  | 0x009 => s.modTr fun t => { t with sn := v }
  | 0x800 => s.modTr fun t => { t with ptbase := v &&& 0xFFFFFFFFFFFFFF00#64 }
  | 0x801 => s.modTr fun t => { t with tag := nbits v.toNat 0 12 }
  | 0x802 => s.modTr fun t => { t with ptkey := nbits v.toNat 0 7 }
  | 0x803 => s.modCore s.tr.core fun k => { k with trapvec := v &&& trapvecRw }
  | 0x804 => s.modTr fun t => { t with traprec := traprecWrite t.traprec v }
  | 0x806 => s.modQueue s.tr.queue fun q => q.setWdog v
  | 0x807 => { s with fab := { s.fab with idtab := s.fab.idtab.write v } }
  | 0x808 => { s with io := { s.io with sem := s.io.sem.write 4 v } }
  | k => if 0x002 ≤ k ∧ k ≤ 0x007 then s.modTr fun t => { t with eix := lset (k - 2) (v &&& eixRw) t.eix } else s

/-- Whether a state register number is an SY_ register (R107). -/
def isSy (n : Nat) : Bool := 0x800 ≤ n

end Sys2Proof.Machine
end

