-- ==== Sys2Proof/Machine/ScalarMem.lean ====
section
/-! DEFINITION. Scalar loads, stores, atomics, window reads and state register access: R118 to R124, R234, R291. -/

namespace Sys2Proof.Machine

/-- A scope of BANK traps ILLOPND at decode (R118, R121). -/
def scopeBank (scope : Nat) : Bool := scope == 4

/-- LD: a load, extended by S (R118, R119). -/
def execLd (f : FmtM) (s : State) : Answer :=
  .next (if scopeBank f.scope.toNat then s.trapDecode
    else
      let n := 2 ^ segWm f
      match loadBytes s (s.eaM f) n with
      | .stop s => s
      | .ok bs s =>
        let v := bytesNat bs
        s.done f.v (if segS f then BitVec.ofInt 64 (sextNat (8 * n) v) else BitVec.ofNat 64 v))

/-- ST: a store of the low bytes of a register (R118). -/
def execSt (f : FmtM) (s : State) : Answer :=
  .next (if scopeBank f.scope.toNat then s.trapDecode
    else match storeBytes s (s.eaM f) (natBytes (2 ^ segWm f) (s.x f.v).toNat) f.stream.toNat with
      | .stop s => s
      | .ok _ s => s.advance)

/-- The scope of a scalar atomic, OPV[6:4] (R121). -/
def amoScope (f : FmtA) : Nat := f.opv.toNat / 16 % 8

/-- AMO: a read-modify-write; xd takes the old value (R121). -/
def execAmo (f : FmtA) (s : State) : Answer :=
  .next (if scopeBank (amoScope f) then s.trapDecode
    else atomicAt s (s.x f.xa + sext16 f.imm16) (f.opv.toNat % 16) f.t (s.x f.xb) 0 f.xd)

/-- CAS: the new value x[xb] is stored where the old one equals x[xc] (R121). -/
def execCas (f : FmtA) (s : State) : Answer :=
  .next (if scopeBank (amoScope f) then s.trapDecode
    else atomicAt s (s.x f.xa + sext16 f.imm16) 8 f.t (s.x f.xb) (s.x f.xc) f.xd)

/-- A window binding of the current triad; size 0 is unbound (R233). -/
def Triad.win (t : Triad) (n : Nat) : Win := tget ⟨0, 0⟩ n t.wins

/-- A window read at or beyond the bound size: VSTAT.PWOOB and one deny-log entry (R234, R291). -/
def State.pwoob (s : State) (n off : Nat) : State :=
  denyPush (s.orVstat s.cur.ctxn vstatPwoob) (denyOf s s.cur kPwoob (n * 2 ^ 32 + off % 2 ^ 32))

/-- LDW: a read of a parameter window (R122, R233, R234). (DEDUCED, log entry 49.) -/
def execLdw (f : FmtB) (s : State) : Answer :=
  .next (
    let k := f.opv.toNat % 8
    let w := s.tr.win k
    let o := s.x f.xa + sext32 f.imm32
    let t : BitVec 4 := if f.t = 15#4 then 7#4 else f.t
    let n := tWidth t / 8
    if o.toNat % n ≠ 0 then s.trapAlign o 0
    else if w.size = 0 then s.trap cPARAM 0 0 0
    else if w.size < o.toNat + n then ((s.pwoob k (max o.toNat w.size)).setX f.xd 0).advance
    else if !isVirt (w.base + o) then s.trapPage 5 (w.base + o) 0
    else match loadBytes s (w.base + o) n with
      | .stop s => s
      | .ok bs s => s.done f.xd (extT t (bytesNat bs)))

/-- MFSR: the whole state register to xd (R123). -/
def execMfsr (f : FmtB) (s : State) : Answer :=
  .next (if isSy (stateRegNo f) && !s.th.priv then s.trapPriv else s.done f.xd (s.readSr (stateRegNo f)))

/-- MTSR: x[xa] to the state register (R123, R124). -/
def execMtsr (f : FmtB) (s : State) : Answer :=
  .next (if isSy (stateRegNo f) && !s.th.priv then s.trapPriv
    else (s.writeSr (stateRegNo f) (s.x f.xa)).advance)

/-- DENYLOG_READ: MFSR of SY_DENYLOG removes and returns the oldest entry, or 0 (R291). -/
def execDenylogRead (f : FmtB) (s : State) : Answer :=
  .next (if !s.th.priv then s.trapPriv
    else { s with deny := s.deny.tail }.done f.xd (s.deny.headD 0))

end Sys2Proof.Machine
end

