-- ==== Sys2Proof/Machine/Control.lean ====
section
/-! DEFINITION. Control flow: transfers, EXIT, NOP, the fetch of blocks and unassigned opcodes (R60 to R64, R69, R85, R91,
R125, R126). -/

namespace Sys2Proof.Machine

/-- Whether an address may begin a block (R62). -/
def blockAligned (a : Word) : Bool := a.toNat % 128 == 0

/-- A J-format target: the word's address plus 8 × disp40 (R67). -/
def State.target (s : State) (f : FmtJ) : Word := s.th.pc + dispBytes f.disp40

/-- A transfer that is taken: to an aligned target, else ALIGN (R62, R125). -/
def State.transfer (s : State) (t : Word) (k : State → State) : State :=
  if blockAligned t then (k s).goto t else s.trapAlign t 0

/-- BC: to the target when the condition holds between the 64-bit values (R125). -/
def execBc (f : FmtJ) (s : State) : Answer :=
  .next (if !blockAligned (s.target f) then s.trapAlign (s.target f) 0
    else if condHolds f.cond.toNat 64 (s.x f.xa).toNat (s.x f.xb).toNat then s.goto (s.target f) else s.advance)

/-- BAL: link and go (R125). -/
def execBal (f : FmtJ) (s : State) : Answer :=
  .next (s.transfer (s.target f) fun s => s.setX f.xa (nextBlock s.th.pc))

/-- JR: to x[xa] + 8·disp40 (R125). -/
def execJr (f : FmtJ) (s : State) : Answer := .next (s.transfer (s.x f.xa + dispBytes f.disp40) fun s => s)

/-- JALR: xa is read before xb takes the link (R125). -/
def execJalr (f : FmtJ) (s : State) : Answer :=
  .next (s.transfer (s.x f.xa + dispBytes f.disp40) fun s => s.setX f.xb (nextBlock s.th.pc))

/-- LOOP: decrement, and branch while the new value is not 0; x0 traps ILLOPND at decode (R125). -/
def execLoop (f : FmtJ) (s : State) : Answer :=
  .next (if f.xa = 0#6 then s.trapDecode
    else if !blockAligned (s.target f) then s.trapAlign (s.target f) 0
    else
      let v := s.x f.xa - 1#64
      let s' := s.setX f.xa v
      if v ≠ 0 then s'.goto (s.target f) else s'.advance)

/-! Rings (R90, R91). -/

/-- A ring's entries. -/
def VecState.ring (v : VecState) (q : Nat) : List RingEnt := tget [] q v.rings

/-- Whether a ring has an entry that may be read: its oldest one, unless an instruction that will be reissued holds it
(R91, R282). -/
def State.ringFull (s : State) (q : Nat) : Bool :=
  match (s.vec.ring q).head? with
  | none => false
  | some e => !(e.open_ && (s.tr.role (ringDir s.vec.cfg q).1).resume.isSome)

/-- Whether a ring has room for an entry, or an entry that the role itself holds from before a stop (R91). -/
def State.ringRoom (s : State) (q : Nat) : Bool :=
  decide ((s.vec.ring q).length < 4) || (s.th.resume.isSome && (s.vec.ring q).any (·.open_))

/-- Whether an instruction must wait: a ring that it reads is empty, or the one it writes is full (R91). -/
def State.ringBlock (s : State) (reads : List Nat) (write : Option Nat) : Bool :=
  reads.any (fun q => !s.ringFull q) || write.any fun q => !s.ringRoom q

/-- Whether a ring for which an instruction waits can never serve it, because its other role has ended (R91). -/
def State.ringDead (s : State) (reads : List Nat) (write : Option Nat) : Bool :=
  let dir := ringDir s.vec.cfg
  reads.any (fun q => !s.ringFull q && (s.tr.role (dir q).1).ended) ||
    write.any fun q => !s.ringRoom q && (s.tr.role (dir q).2).ended

/-! Orphans (R88, R91). -/

/-- Whether a role of the current triad stalls at what can never come because another role has ended: a VCFG that the other
will never reach, or a ring whose other end is gone. Answers the SUB code of the BARRIER trap (R88, R91, R353). -/
def State.orphaned (s : State) (r : Role) : Option Nat :=
  let t := s.tr
  if (t.role r).ended then none
  else match (t.role r).stall with
    | some (.vcfg _ _) => if roles.any (fun o => (t.role o).ended) then some 1 else none
    | some (.ring reads write) => if { s with cur := { s.cur with role := r } }.ringDead reads write then some 0 else none
    | _ => none

/-- Roles of the current triad whose stall can never end trap BARRIER (R88, R91). -/
def State.trapOrphans (s : State) : State :=
  let c := s.cur.ctxn
  let s := roles.foldl (fun s r => match s.orphaned r with
    | some sub => postTrap s ⟨c, r⟩ { cls := cBARRIER, sub := sub, resume := ((s.triad c).role r).pc }
    | none => s) s
  takeTrap s c

/-- EXIT: the role ends; roles that waited for it trap BARRIER (R85, R91, R126). -/
def execExit (_ : FmtY) (s : State) : Answer :=
  .next (s.advance.modTh fun r => { r with ended := true }).trapOrphans

/-! Fetch. -/

/-- What the fetch of a block gives (R61). -/
inductive Fetched
  | ok (ws : List Word)
  | trap (cls sub : Nat)
  | wait
  deriving DecidableEq, Repr

/-- The words of 64 bytes. -/
def wordsOf (bs : List Byte) : List Word := (lchunks 8 8 bs).map fun b => BitVec.ofNat 64 (bytesNat b)

/-- A list of words up to and with the first that carries E; none when no word does. -/
def upToE : List Word → Option (List Word)
  | [] => none
  | w :: t => if w.getLsbD 63 then some [w] else (upToE t).map (w :: ·)

/-- A line of a block as it was read: its words, or the trap of what its data is (R61). -/
inductive CodeLine
  | ok (ws : List Word)
  | bad (cls : Nat)
  deriving DecidableEq, Repr

/-- The block of two lines, up to its first E: the second line counts only where the first holds no E. Sixteen words without E
trap ILLOP (R61). -/
def blockOfLines (a b : CodeLine) : Fetched :=
  match a with
  | .bad c => .trap c 0
  | .ok ws => match upToE ws with
    | some k => .ok k
    | none => match b with
      | .bad c => .trap c 0
      | .ok vs => match upToE (ws ++ vs) with
        | some k => .ok k
        | none => .trap cILLOP 0

/-- A local line of a block. -/
def codeLine (s : State) (pa key : Nat) : CodeLine :=
  match physQuality s pa 64 with
  | .poisoned => .bad cPOISON
  | .uncorrectable => .bad cUE
  | .clean => .ok (wordsOf (physRead s pa 64 key))

/-- A line of a block that came from another chip. -/
def farLine (s : State) (pa : Nat) : CodeLine :=
  if farPoisoned s s.cur pa 64 then .bad cPOISON else .ok (wordsOf (farRead s s.cur pa 64))

/-- The words of the block at an aligned address, whole as they stand at one moment: a block at another chip is one read of
128 bytes (R61, R64, R275, R370). -/
def fetchBlock (s : State) (base : Word) : Fetched × State :=
  match locate s s.tr.core s.cred base .fetch true with
  | (.fault c, s) => (.trap cPGFAULT c, s)
  | (.denied _, s) => (.trap cPGFAULT 6, s)
  | (.far pa key, s) =>
    let s := askRun s s.cur s.tr.tag pa key 2 (pa / 64)
    if linesHere s s.cur [pa, pa + 64] then (blockOfLines (farLine s pa) (farLine s (pa + 64)), s) else (.wait, s)
  | (.here pa key _, s) => (blockOfLines (codeLine s pa key) (codeLine s (pa + 64) key), s)

/-- The block that an address lies in. (DEDUCED, log entry 46.) -/
def blockOf (pc : Word) : Word := (pc / 128#64) * 128#64

/-- BLOCK_ENTRY: the block at the thread's pc is fetched, or entry traps with the block's first word named (R61, R62).
(DEDUCED, log entry 46.) -/
def execBlockEntry (s : State) : Answer :=
  let base := blockOf s.th.pc
  .next (match fetchBlock s base with
    | (.trap cls sub, s) => s.trap cls sub 0 base
    | (.wait, s) => s.stallOn .remote
    | (.ok ws, s) =>
      if ws.length ≤ (s.th.pc - base).toNat / 8 then s.modTh fun r => { r with pc := nextBlock r.pc, blk := [], stall := none }
      else s.modTh fun r => { r with blkBase := base, blk := ws, stall := none, rbuf := [], want := [] })

/-- UNASSIGNED_OPCODE: ILLOP (R69, R70). (DEDUCED, log entry 79.) -/
def execUnassignedOpcode (_ : BitVec 8) (_ : BitVec 55) (s : State) : Answer := .next s.trapIllop

end Sys2Proof.Machine
end

