-- ==== Sys2Proof/Machine/Elem.lean ====
section
/-! DEFINITION. How vector instructions run: register and legend checks, vector ownership, ring waits, active elements, the
reading of operands with their scales, the writing of results with poison, and completion (R37, R39 to R51, R57, R74 to R76,
R89 to R91, R129 to R138, R150, R357). -/

namespace Sys2Proof

/-- The registers in a group (R67). -/
def FmtV.g (f : FmtV) : Nat := 2 ^ f.grp.toNat

/-- The ring flags of the four fields (R66). -/
def FmtV.qd (f : FmtV) : Bool := f.q.getLsbD 3
def FmtV.qa (f : FmtV) : Bool := f.q.getLsbD 2
def FmtV.qb (f : FmtV) : Bool := f.q.getLsbD 1
def FmtV.qc (f : FmtV) : Bool := f.q.getLsbD 0

end Sys2Proof

namespace Sys2Proof.Machine

/-! Decode checks of operands. -/

/-- A vector operand field as the decode checks see it: its ring flag, its number, how many registers its set holds, the
alignment of its base, and whether the operand may be a ring at all (R75, R89, R153). -/
structure VField where
  q : Bool
  fld : Nat
  size : Nat
  align : Nat
  ringable : Bool
  deriving DecidableEq, Repr

/-- A field of a format-V word under a group of g registers. -/
def vField (q : Bool) (f : BitVec 6) (g : Nat) : VField := ⟨q, f.toNat, g, g, true⟩

/-- An operand of several registers, which no ring may be. -/
def vMulti (q : Bool) (f : BitVec 6) (size align : Nat) : VField := ⟨q, f.toNat, size, align, false⟩

/-- Whether a field names registers or a ring that the role may name in this direction (R74, R75, R89). -/
def VField.ok (cfg : Word) (r : Role) (g : Nat) (dst : Bool) (v : VField) : Bool :=
  if v.q then v.ringable && g == 1 && (if dst then ringWriter cfg r (v.fld % 8) else ringReader cfg r (v.fld % 8))
  else v.fld % v.align == 0 && inPart cfg r v.fld v.size

/-- The register sets of fields that are no rings. -/
def regSets (vs : List VField) : List RegSet := vs.filterMap fun v => if v.q then none else some ⟨v.fld, v.size⟩

/-- Every pair of a destination and a source set is disjoint or identical (R76). -/
def setsFine (ds ss : List RegSet) : Bool := ds.all fun d => ss.all fun s => d.fine s

/-- The decode checks of register operands (R74 to R76, R89). (DEDUCED, log entry 16.) -/
def vDecode (cfg : Word) (r : Role) (g : Nat) (dsts srcs : List VField) : Bool :=
  dsts.all (VField.ok cfg r g true) && srcs.all (VField.ok cfg r g false) && setsFine (regSets dsts) (regSets srcs)

/-- A rounding field of 5 may be named by the computer only (R45). -/
def srOk (r : Role) (rm : Nat) : Bool := rm != 5 || r == .computer

/-! The legend. -/

/-- A legend word as one instruction reads it (R40 to R45): the operand formats, the scale mode and tensor scale, DAZ, the
rounding context, and the seed and SN of stochastic rounding. -/
structure Lg where
  fa : Fmt
  fb : Fmt
  fc : Fmt
  fd : Fmt
  scm : Nat
  tsc : Nat
  daz : Bool
  ctx : RCtx
  seed : Word
  sn : Word
  deriving DecidableEq, Repr

/-- Which format fields an instruction uses. -/
structure LgUse where
  a : Bool
  b : Bool
  c : Bool
  d : Bool
  /-- FD comes from the legend even with a suffix (R156) -/
  dLegend : Bool := false
  deriving DecidableEq, Repr

/-- One format field: the suffix, or the legend's code where it names a format (R42, R43). -/
def lgField (w : Word) (lo : Nat) (used : Bool) (suffix : Option Fmt) : Option Fmt :=
  if used then match suffix with
    | some f => some f
    | none => fmtOfCode (nbits w.toNat lo 5)
  else some (suffix.getD .fp32)

/-- The type suffix of a code: none for 15. -/
def suffixOf (t : BitVec 4) : Option Fmt := fmtOfT t.toNat

/-- The legend that a role reads for an instruction, or none where the checks of R43 fail, companions apart. -/
def legendOf (t : Triad) (r : Role) (w : Word) (suffix : Option Fmt) (rm : Nat) (u : LgUse) : Option Lg :=
  match lgField w 0 u.a suffix, lgField w 5 u.b suffix, lgField w 15 u.c suffix,
      lgField w 10 u.d (if u.dLegend then none else suffix) with
  | some fa, some fb, some fc, some fd =>
    let n := w.toNat
    let scm := nbits n 20 3
    let ssel := nbits n 29 2
    let code := if rm = 7 then nbits n 23 3 else rm
    match rmodeOfCode code with
    | none => none
    | some mode =>
      let narrow := (u.a && fa.dense) || (u.b && fb.dense) || (u.c && fc.dense) || (u.d && fd.dense)
      if nbits n 56 8 ≠ 0 ∨ nbits n 31 1 ≠ 0 ∨ (4 ≤ scm ∧ narrow) ∨ (mode = .sr ∧ (ssel = 3 ∨ r ≠ .computer)) then none
      else some
        { fa := fa, fb := fb, fc := fc, fd := fd, scm := scm, tsc := nbits n 32 8, daz := nbits n 27 1 == 1,
          ctx := ⟨mode, nbits n 26 1 == 1, nbits n 28 1 == 1, 0⟩,
          seed := seedFor t ssel (BitVec.ofNat 64 (nbits n 40 16)), sn := t.sn }
  | _, _, _, _ => none

/-- Whether the effective mode is SR (R45). (DEDUCED, log entry 17.) -/
def Lg.sr (lg : Lg) : Bool := lg.ctx.mode == .sr

/-- The rounding context of one result, with its random bits (R48, R49). -/
def Lg.at (lg : Lg) (lane elem : Nat) : RCtx :=
  if lg.sr then { lg.ctx with low32 := low32 lg.seed lane elem lg.sn } else lg.ctx

/-- Whether a source of a format reads a companion (R44). -/
def Lg.scaled (lg : Lg) (f : Fmt) : Bool := f.narrow && (lg.scm == 1 || lg.scm == 3)

/-- The companions that the scale mode requires: each exists, lies in the role's partition, and leaves its operand's set
disjoint from or identical to every destination set (R37, R43, R75, R76). -/
def companionsOk (cfg : Word) (r : Role) (g : Nat) (lg : Lg) (dsts : List VField) (srcs : List (VField × Fmt)) : Bool :=
  srcs.all fun (v, f) =>
    !lg.scaled f || (!v.q && g != 8 && inPart cfg r (v.fld + v.size) 1 &&
      setsFine (regSets dsts) [⟨v.fld, v.size + 1⟩])

/-! Reading elements. -/

/-- A source operand: registers or a ring, its format, and its companion register. -/
structure Src where
  o : Opnd
  fmt : Fmt
  comp : Option Nat := none
  deriving DecidableEq, Repr

/-- A format-V source under a legend. -/
def lgSrc (lg : Lg) (g : Nat) (q : Bool) (f : BitVec 6) (fmt : Fmt) : Src :=
  ⟨opnd q f, fmt, if lg.scaled fmt then some (f.toNat + g) else none⟩

/-- What one element of a source gives: its value (R140), its code, and whether its EG is poisoned. -/
structure Elt where
  val : Val
  raw : Nat
  pois : Bool
  nanScale : Bool := false
  deriving DecidableEq, Repr

/-- The scale of element e in register j of an operand (R35, R37, R44). (DEDUCED, log entry 19.) -/
def scaleOf (lg : Lg) (fmt : Fmt) (comp : Bits) (slabs j e : Nat) : EScale :=
  if !fmt.narrow || lg.scm == 0 then .pow 0
  else if lg.scm == 2 then (if lg.tsc = 255 then .nan else .pow ((lg.tsc : Int) - 127))
  else
    let q := j * (128 * slabs) + e / 32
    let x := bitsAt comp (64 * q) 8
    let shift : Nat := if fmt.isPx then bitsAt comp (64 * q + 32 + e % 32 / 2 * 2) 2 else 0
    if x = 255 then .nan
    else if lg.scm = 3 then
      if lg.tsc = 255 then .nan else .pow ((x : Int) - 127 - shift + ((lg.tsc : Int) - 127))
    else .pow ((x : Int) - 127 - shift)

/-- Element e of register j of a source: `value(F, r, e)` of R140, with its code and its poison. (DEDUCED, log entry 19.) -/
def readElt (v : VecState) (slabs : Nat) (lg : Lg) (s : Src) (j e : Nat) : Elt :=
  let w := s.fmt.width
  let raw := elemAt (v.opBits s.o j) w e % 2 ^ s.fmt.codeWidth
  let sc := match s.comp with
    | some c => scaleOf lg s.fmt (v.reg c) slabs j e
    | none => scaleOf lg s.fmt 0 slabs j e
  let cp := match s.comp with
    | some c => smem (egKey c (egOf 8 (8 * (j * (128 * slabs) + e / 32)))) v.pois
    | none => false
  ⟨valueOf s.fmt lg.daz s.comp.isSome sc raw, raw, v.opPois s.o j (egOf w e) || cp, sc == .nan⟩

/-- A legend for instructions that read bits only. -/
def Lg.plain : Lg := ⟨.n8, .n8, .n8, .n8, 0, 127, false, ⟨.rne, false, false, 0⟩, 0, 0⟩

/-- The natural format of a width: a plain bit pattern. -/
def natFmt (w : Nat) : Fmt := if w = 8 then .n8 else if w = 16 then .n16 else if w = 32 then .n32 else .n64

/-- A source read as bit patterns of w bits. -/
def rawSrc (q : Bool) (f : BitVec 6) (w : Nat) : Src := ⟨opnd q f, natFmt w, none⟩

/-! Writing elements. -/

/-- One result: its element, its bits, whether an input was poisoned. -/
structure Put where
  e : Nat
  bits : Nat
  pois : Bool
  deriving DecidableEq, Repr

/-- Results put into a register's bits. -/
def putBits (b : Bits) (w : Nat) (rs : List Put) : Bits := rs.foldl (fun b r => setElem b w r.e r.bits) b

/-- The poison bits of a register after results: an EG with a poisoned result is poisoned; one whose every element was
written clean is clean; any other keeps its bit (R138). `key g` names EG g in the set. -/
def putPois (key : Nat → Nat) (p : NatSet) (w : Nat) (rs : List Put) : NatSet :=
  (ldedup (rs.map fun r => egOf w r.e)).foldl (fun p g =>
    let here := rs.filter fun r => egOf w r.e == g
    if here.any (·.pois) then sadd (key g) p
    else if here.length = 2048 / w then sdel (key g) p else p) p

/-- Results written to register k (R134, R138). -/
def VecState.putReg (v : VecState) (k w : Nat) (rs : List Put) : VecState :=
  if rs.isEmpty then v
  else { v with v := tset k (putBits (v.reg k) w rs) v.v, pois := putPois (egKey k) v.pois w rs }

def VecState.setRing (v : VecState) (q : Nat) (l : List RingEnt) : VecState :=
  { v with rings := if l.isEmpty then tdel q v.rings else tset q l v.rings }

/-- The entry of results: every element that is not written is zero (R90). (DEDUCED, log entry 14.) -/
def ringEntry (w : Nat) (rs : List Put) : RingEnt := ⟨putBits 0 w rs, putPois (fun g => g) [] w rs, false⟩

/-- Results written to register j of a destination operand, or appended to its ring. -/
def VecState.putOp (v : VecState) (o : Opnd) (j w : Nat) (rs : List Put) : VecState :=
  match o with
  | .reg k => v.putReg (k + j) w rs
  | .ring q => v.setRing q (v.ring q ++ [ringEntry w rs])

/-- Drops the oldest entry of each ring that an instruction read (R90, R91). -/
def VecState.popRings (v : VecState) (qs : List Nat) : VecState :=
  (ldedup qs).foldl (fun v q => v.setRing q (v.ring q).tail) v

/-! Which elements run. -/

/-- The elements of one execution: the active ones in rising order, and how results are indexed (R49, R131, R150). -/
structure VRun where
  act : List Nat
  lane : Nat → Nat → Nat
  index : Nat → Nat → Nat

/-- Elements below a length whose mask bit is 1 (R133). -/
def VecState.active (v : VecState) (m vl : Nat) : List Nat := (nrange 0 vl).filter (v.maskBit m)

/-- The VFETCH of the current thread whose cohort issues now, with the cohort's pc. -/
def State.vpNow (s : State) : Option (VpState × Word) :=
  if s.cur.role = .computer then match s.vec.vp with
    | some v => v.cohort.map fun pc => (v, pc)
    | none => none
  else none

/-- The live VPs at a pc. -/
def VpState.at (v : VpState) (pc : Word) : List Nat :=
  (v.vps.filter fun p => p.2.live && p.2.pc == pc).map (·.1)

/-- The elements on which the current instruction acts under mask m: the cohort's VPs in VP mode (R94, R150), else the
active elements. (DEDUCED, log entry 14.) -/
def State.vRun (s : State) (m : Nat) : VRun :=
  match s.vpNow with
  | some (v, pc) => ⟨v.at pc, fun _ e => (tget ⟨0, false, 0⟩ e v.vps).sr, fun _ e => e⟩
  | none => let vl := s.th.vl; ⟨s.vec.active m vl, fun j _ => j, fun j e => j * vl + e⟩

/-- The legend of the current thread for a format-V word. -/
def State.legend (s : State) (f : FmtV) (u : LgUse) : Option Lg :=
  let lg := legendOf s.tr s.cur.role (s.x f.xl) (suffixOf f.t) f.rm.toNat u
  match s.vpNow with
  | some (v, _) => lg.map fun l => { l with sn := v.sn }
  | none => lg

/-- VL lies within VLMAX at a width (R129). -/
def State.vlOk (s : State) (w : Nat) : Bool := s.th.vl ≤ vlmax (s.bound s.tr.core) w

/-! Issue. -/

/-- Whether the current triad owns its slot's vector state (R357, R358). (DEDUCED, log entry 16.) -/
def State.ownsVec (s : State) : Bool := (s.slot s.tr.slotKey).owner == some s.cur.ctxn

/-- A role that must wait at its rings stalls, or traps BARRIER where one of them can never serve it (R91). -/
def State.ringWait (s : State) (reads : List Nat) (write : Option Nat) : State :=
  if s.ringDead reads write then s.trap cBARRIER 0 0 0 else s.stallOn (.ring reads write)

/-- The rings among operands. -/
def ringsOf (os : List Opnd) : List Nat := os.filterMap fun o =>
  match o with
  | .ring q => some q
  | .reg _ => none

/-- Steps 1 to 3 of R136: decode checks, vector ownership, dispatch checks, ring entries; then the instruction goes on. In
VP mode the words were checked when their block was entered. (DEDUCED, log entry 16.) -/
def State.vIssue (s : State) (dec disp : Bool) (reads writes : List Opnd) (go : State → State) : State :=
  if s.vpNow.isSome then go s
  else if !dec then s.trapDecode
  else if !s.ownsVec then s.trap cVSWITCH 0 0 0
  else if !disp then s.trapDispatch
  else if s.ringBlock (ringsOf reads) (ringsOf writes).head? then s.ringWait (ringsOf reads) (ringsOf writes).head?
  else go s

/-! Completion. -/

/-- The pc of a cohort's VPs after a word that does not transfer (R95, R62). -/
def VpState.next (v : VpState) (pc : Word) : Word :=
  let base := blockOf pc
  let ws := tget [] base.toNat v.blocks
  if ws.length ≤ (pc - base).toNat / 8 + 1 then nextBlock pc else pc + 8#64

/-- The cohort at a pc has issued its word: each of its VPs goes on where `dest` says, its SR count advances under SR, and the
word's events join those that the VFETCH holds (R49, R57, R150). -/
def VpState.issued (v : VpState) (pc : Word) (dest : Nat → Option Word) (sr : Bool) (e : Evs) : VpState :=
  let j := Evs.join ⟨v.held, v.hix⟩ e
  { v with
    cohort := none, held := j.ev, hix := j.ix
    vps := v.vps.map fun p =>
      if p.2.live ∧ p.2.pc = pc then
        (p.1, match dest p.1 with
          | some a => { p.2 with pc := a, sr := p.2.sr + if sr then 1 else 0 }
          | none => { p.2 with live := false })
      else p }

/-- Events held from before a stop join those of the resumed instruction (R355). -/
def State.heldEvs (s : State) : Evs :=
  match s.th.resume with
  | some r => ⟨r.held, r.hix⟩
  | none => Evs.none

/-- The end of a vector instruction: events merged, SN advanced under SR, FPX, or on to the successor (R57, R50, R59); in VP
mode the cohort goes on instead. (DEDUCED, log entries 14, 20.) -/
def State.vFinish (s : State) (sr : Bool) (e : Evs) : State :=
  match s.vpNow with
  | some (v, pc) => s.modVec fun c => { c with vp := some (v.issued pc (fun _ => some (v.next pc)) sr e) }
  | none => (if sr then s.bumpSn 1 else s).finish (s.heldEvs.join e)

/-- A trap in VP mode: it is taken in the computer thread at the VFETCH, whose VPs are kept (R94, R95, R354). -/
def State.trapVp (s : State) (p : TrapPost) : State :=
  (s.modVec fun c => { c with vp := c.vp.map fun v => { v with cohort := none } }).raise { p with resume := s.th.pc }

/-- A POISON trap of a source element (R146, R148, R363); in VP mode the record names the cohort's word (R94, R150). -/
def State.trapPoison (s : State) (unit elem : Nat) : State :=
  match s.vpNow with
  | some (_, pc) => s.trapVp { cls := cPOISON, elem := elem, unit := unit, faddr := pc }
  | none => s.raise { cls := cPOISON, elem := elem, unit := unit, resume := s.th.pc }

/-! The elementwise engine. -/

/-- A function of one element: given register j, element e and the source elements, its bits, events and poison. -/
abbrev EltFn := Nat → Nat → List Elt → Nat × Ev × Bool

/-- Whether any input is poisoned. -/
def anyPois (l : List Elt) : Bool := l.any (·.pois)

/-- An instruction that computes each active element of each register by itself (R131, R134, R138, R140). A poisoned result
raises no event (R57). -/
def elementwise (v : VecState) (slabs : Nat) (run : VRun) (lg : Lg) (g : Nat) (srcs : List Src) (dst : Opnd) (w : Nat)
    (fn : EltFn) : VecState × Evs :=
  let r := (nrange 0 g).foldl (fun (acc : VecState × Evs) j =>
    let rs := run.act.map fun e => (e, fn j e (srcs.map fun s => readElt v slabs lg s j e))
    (acc.1.putOp dst j w (rs.map fun r => ⟨r.1, r.2.1, r.2.2.2⟩),
     rs.foldl (fun a r => a.add (if r.2.2.2 then 0 else r.2.2.1) (run.index j r.1)) acc.2)) (v, Evs.none)
  (r.1.popRings (ringsOf (srcs.map (·.o))), r.2)

/-- Runs an elementwise instruction in the current thread. -/
def State.runElems (s : State) (m : Nat) (lg : Lg) (g : Nat) (srcs : List Src) (dst : Opnd) (w : Nat) (fn : VRun → EltFn)
    (sr : Bool) : State :=
  let run := s.vRun m
  let r := elementwise s.vec (s.bound s.tr.core) run lg g srcs dst w (fn run)
  (s.modVec fun _ => r.1).vFinish sr r.2

end Sys2Proof.Machine
end

