-- ==== Sys2Proof/Machine/Vector.lean ====
section
/-! DEFINITION. The elementwise vector instructions: SETVL, arithmetic, logic, compare, select and moves (R127 to R148). -/

namespace Sys2Proof.Machine

/-- SETVL: the smaller of the request and VLMAX at the width of T (R128). -/
def execSetvl (f : FmtA) (s : State) : Answer :=
  let w := ((fmtOfT f.t.toNat).getD .fp32).width
  let req := s.x f.xa + f.imm16.setWidth 64
  let vl := min req.toNat (vlmax (s.bound s.tr.core) w)
  .next ((s.modTh fun r => { r with vl := vl }).done f.xd (BitVec.ofNat 64 vl))

/-! Arithmetic. -/

/-- The arithmetic instructions of R140. -/
inductive AOp
  | add | sub | mul | mulh | div | rem | min | max | abs | neg | fma | fms | fnma | fnms | sqrt | rsqrt | rcp | avg
  | clamp | scalb | logb | class
  deriving DecidableEq, Repr

/-- How many sources an instruction names (R140). -/
def AOp.nsrc : AOp → Nat
  | .abs | .neg | .sqrt | .rsqrt | .rcp | .logb | .class => 1
  | .fma | .fms | .fnma | .fnms | .clamp => 3
  | _ => 2

/-- The first n of the source fields of a format-V word. -/
def vFields (f : FmtV) (n : Nat) : List VField :=
  [vField f.qa f.va f.g, vField f.qb f.vb f.g, vField f.qc f.vc f.g].take n

/-- The same as operands. -/
def vOpnds (f : FmtV) (n : Nat) : List Opnd := [opnd f.qa f.va, opnd f.qb f.vb, opnd f.qc f.vc].take n

/-- The decode checks of a word with one destination group and n source groups. -/
def elemDecode (cfg : Word) (r : Role) (f : FmtV) (n : Nat) : Bool :=
  vDecode cfg r f.g [vField f.qd f.vd f.g] (vFields f n) && srOk r f.rm.toNat

/-- All formats floating point or all integer (R140). -/
def allFI (l : List Fmt) : Bool := l.all Fmt.isF || l.all Fmt.isI

/-- The formats of the sources of an operation. -/
def AOp.srcFmts (op : AOp) (lg : Lg) : List Fmt := [lg.fa, lg.fb, lg.fc].take op.nsrc

/-- Whether R140's Formats column accepts the formats. -/
def AOp.fmtOk (op : AOp) (lg : Lg) : Bool :=
  let all := op.srcFmts lg ++ [lg.fd]
  let same := all.all (· == lg.fd)
  match op with
  | .mulh | .rem => same && lg.fd.isI
  | .min | .max | .abs | .neg | .clamp => same && allFI all
  | .sqrt | .rsqrt | .rcp | .logb => all.all Fmt.isF
  | .scalb => lg.fa.isF && lg.fd.isF && lg.fb.isI
  | .class => lg.fa.isF && lg.fd.isI && decide (16 ≤ lg.fd.width)
  | _ => allFI all

/-- The signed and the natural integer format of a width. -/
def intFmt (w : Nat) : Fmt := if w = 8 then .i8 else if w = 16 then .i16 else if w = 32 then .i32 else .i64

/-- What a suffix fixes for VSCALB's b and VCLASS's result (R140). -/
def AOp.suffixed (op : AOp) (suffix : Bool) (lg : Lg) : Lg :=
  if !suffix then lg
  else match op with
    | .scalb => { lg with fb := intFmt lg.fa.width }
    | .class => { lg with fd := natFmt lg.fa.width }
    | _ => lg

/-- The legend of an arithmetic word, with the dispatch checks of formats and companions (R43, R140, R144). -/
def State.arithLg (s : State) (op : AOp) (f : FmtV) : Option Lg :=
  match s.legend f ⟨true, decide (2 ≤ op.nsrc), decide (3 ≤ op.nsrc), true, false⟩ with
  | none => none
  | some lg =>
    let lg := op.suffixed (suffixOf f.t).isSome lg
    if op.fmtOk lg && !((op == .min || op == .max) && lg.fd.isI && f.opv.getLsbD 0) &&
        companionsOk s.vec.cfg s.cur.role f.g lg [vField f.qd f.vd f.g] ((vFields f op.nsrc).zip (op.srcFmts lg))
    then some lg else none

/-- The operand widths of an arithmetic word. -/
def AOp.widths (op : AOp) (lg : Lg) : List Nat := (op.srcFmts lg ++ [lg.fd]).map Fmt.width

/-- The greatest of some widths: the element width W (R129). -/
def maxWidth (l : List Nat) : Nat := l.foldl max 8

/-- The value that a selection of R115 takes. -/
def selVal (isMax : Bool) (a b : Val) : Val :=
  if a.isNan then (if b.isNan then .nan false else b)
  else if b.isNan then a
  else match cmpV a b with
    | .eq => a
    | .lt => if isMax then b else a
    | .gt => if isMax then a else b

/-- VCLAMP: VMIN(VMAX(a, b), c) without `prop` (R144). -/
def clampElt (f : Fmt) (a b c : Elt) : Nat × Ev :=
  let m := selVal true a.val b.val
  let bits := (selMinMax f true false a.val b.val a.raw b.raw).1
  let r := selMinMax f false false m c.val bits c.raw
  (r.1, sigEv [a.val, b.val] ||| r.2)

/-- Integer division of R143. -/
def divElt (lg : Lg) (ctx : RCtx) (a b : Int) : Nat × Ev :=
  if b = 0 then (2 ^ lg.fd.width - 1, evDZ) else roundTo lg.fd ctx (intVal (Int.tdiv a b))

/-- Integer remainder of R143. -/
def remElt (lg : Lg) (ctx : RCtx) (a b : Int) : Nat × Ev :=
  if b = 0 then ((roundTo lg.fd ctx (intVal a)).1, evDZ) else roundTo lg.fd ctx (intVal (Int.tmod a b))

/-- An exact result rounded to FD, with both parts' events. -/
def roundElt (lg : Lg) (ctx : RCtx) (x : Val × Ev) : Nat × Ev :=
  let r := roundTo lg.fd ctx x.1
  (r.1, x.2 ||| r.2)

/-- Half of a value. -/
def halfV : Val → Val
  | .fin n m => .fin n (m.scale (-1))
  | v => v

/-- VABS and VNEG: on floating point the sign bit alone (R144); on integers a rounded result. -/
def signElt (lg : Lg) (ctx : RCtx) (neg : Bool) (a : Elt) : Nat × Ev :=
  let sb := 2 ^ lg.fd.signBit
  if lg.fd.isF then ((if neg then (if a.raw / sb % 2 = 1 then a.raw - sb else a.raw + sb) else a.raw % sb), 0)
  else let i := a.val.toInt; roundTo lg.fd ctx (intVal (if neg then -i else (i.natAbs : Int)))

/-- One element of an arithmetic instruction (R140 to R144). -/
def AOp.elt (op : AOp) (lg : Lg) (prop : Bool) (ctx : RCtx) (a b c : Elt) : Nat × Ev :=
  let m := lg.ctx.mode
  match op with
  | .add => roundElt lg ctx (addV m a.val b.val)
  | .sub => roundElt lg ctx (addV m a.val b.val.negate)
  | .mul => roundElt lg ctx (mulV a.val b.val)
  | .mulh => (wrapInt lg.fd.width (a.val.toInt * b.val.toInt / (2 ^ lg.fd.width : Nat)), 0)
  | .div => if lg.fd.isI then divElt lg ctx a.val.toInt b.val.toInt else roundElt lg ctx (divV a.val b.val)
  | .rem => remElt lg ctx a.val.toInt b.val.toInt
  | .min => selMinMax lg.fd false prop a.val b.val a.raw b.raw
  | .max => selMinMax lg.fd true prop a.val b.val a.raw b.raw
  | .abs => signElt lg ctx false a
  | .neg => signElt lg ctx true a
  | .fma => roundElt lg ctx (fmaV m a.val b.val c.val)
  | .fms => roundElt lg ctx (fmaV m a.val b.val c.val.negate)
  | .fnma => roundElt lg ctx (fmaV m a.val.negate b.val c.val)
  | .fnms => roundElt lg ctx (fmaV m a.val.negate b.val c.val.negate)
  | .sqrt => roundElt lg ctx (sqrtV a.val)
  | .rsqrt => roundElt lg ctx (rsqrtV a.val)
  | .rcp => roundElt lg ctx (rcpV a.val)
  | .avg => let r := addV m a.val b.val; roundElt lg ctx (halfV r.1, r.2)
  | .clamp => clampElt lg.fd a b c
  | .scalb => roundElt lg ctx (scalbV a.val (clampExp b.val.toInt))
  | .logb => roundElt lg ctx (logbV a.val)
  | .class => (if a.nanScale then 2 ^ 9 else classOf lg.fa (.pow 0) a.raw, 0)

/-- An element that is not there. -/
def Elt.zero : Elt := ⟨.fin false ⟨0, 1, false⟩, 0, false, false⟩

/-- The sources of a word under its legend. -/
def lgSrcs (lg : Lg) (f : FmtV) (fmts : List Fmt) : List Src :=
  [(f.qa, f.va), (f.qb, f.vb), (f.qc, f.vc)].zipWith (fun p m => lgSrc lg f.g p.1 p.2 m) fmts

/-- An arithmetic instruction (R136, R140). -/
def State.arith (s : State) (op : AOp) (f : FmtV) : State :=
  let lg := s.arithLg op f
  s.vIssue (elemDecode s.vec.cfg s.cur.role f op.nsrc)
    (match lg with
      | some lg => s.vlOk (maxWidth (op.widths lg))
      | none => false)
    (vOpnds f op.nsrc) [opnd f.qd f.vd]
    fun s => match lg with
      | none => s.trapDispatch
      | some lg =>
        s.runElems f.m.toNat lg f.g (lgSrcs lg f (op.srcFmts lg)) (opnd f.qd f.vd) lg.fd.width
          (fun run j e xs =>
            let r := op.elt lg (f.opv.getLsbD 0) (lg.at (run.lane j e) e) (xs.getD 0 Elt.zero) (xs.getD 1 Elt.zero)
              (xs.getD 2 Elt.zero)
            (r.1, r.2, anyPois xs)) lg.sr

/-- VADD (R140). -/
def execVadd (f : FmtV) (s : State) : Answer := .next (s.arith .add f)
/-- VSUB (R140). -/
def execVsub (f : FmtV) (s : State) : Answer := .next (s.arith .sub f)
/-- VMUL (R140). -/
def execVmul (f : FmtV) (s : State) : Answer := .next (s.arith .mul f)
/-- VMULH (R143). -/
def execVmulh (f : FmtV) (s : State) : Answer := .next (s.arith .mulh f)
/-- VDIV (R140, R143). -/
def execVdiv (f : FmtV) (s : State) : Answer := .next (s.arith .div f)
/-- VREM (R143). -/
def execVrem (f : FmtV) (s : State) : Answer := .next (s.arith .rem f)
/-- VMIN (R144). -/
def execVmin (f : FmtV) (s : State) : Answer := .next (s.arith .min f)
/-- VMAX (R144). -/
def execVmax (f : FmtV) (s : State) : Answer := .next (s.arith .max f)
/-- VABS (R140, R144). -/
def execVabs (f : FmtV) (s : State) : Answer := .next (s.arith .abs f)
/-- VNEG (R140, R144). -/
def execVneg (f : FmtV) (s : State) : Answer := .next (s.arith .neg f)
/-- VFMA (R140). -/
def execVfma (f : FmtV) (s : State) : Answer := .next (s.arith .fma f)
/-- VFMS (R140). -/
def execVfms (f : FmtV) (s : State) : Answer := .next (s.arith .fms f)
/-- VFNMA (R140). -/
def execVfnma (f : FmtV) (s : State) : Answer := .next (s.arith .fnma f)
/-- VFNMS (R140). -/
def execVfnms (f : FmtV) (s : State) : Answer := .next (s.arith .fnms f)
/-- VSQRT (R141). -/
def execVsqrt (f : FmtV) (s : State) : Answer := .next (s.arith .sqrt f)
/-- VRSQRT (R141). -/
def execVrsqrt (f : FmtV) (s : State) : Answer := .next (s.arith .rsqrt f)
/-- VRCP (R141). -/
def execVrcp (f : FmtV) (s : State) : Answer := .next (s.arith .rcp f)
/-- VAVG (R140, R142). -/
def execVavg (f : FmtV) (s : State) : Answer := .next (s.arith .avg f)
/-- VCLAMP (R144). -/
def execVclamp (f : FmtV) (s : State) : Answer := .next (s.arith .clamp f)
/-- VSCALB (R141). -/
def execVscalb (f : FmtV) (s : State) : Answer := .next (s.arith .scalb f)
/-- VLOGB (R141). -/
def execVlogb (f : FmtV) (s : State) : Answer := .next (s.arith .logb f)
/-- VCLASS (R144). -/
def execVclass (f : FmtV) (s : State) : Answer := .next (s.arith .class f)

/-! Bit patterns. -/

/-- The width of a type code that names an element (R145). -/
def tw (t : BitVec 4) : Nat := ((fmtOfT t.toNat).getD .fp32).width

/-- An instruction that forms each active element's w bits from its sources' bits; no event (R145, R147, R148). -/
def State.bitwise (s : State) (f : FmtV) (n : Nat) (dec : Bool) (fn : VRun → EltFn) : State :=
  let w := tw f.t
  s.vIssue (dec && vDecode s.vec.cfg s.cur.role f.g [vField f.qd f.vd f.g] (vFields f n)) (s.vlOk w)
    (vOpnds f n) [opnd f.qd f.vd]
    fun s => s.runElems f.m.toNat Lg.plain f.g
      (([(f.qa, f.va), (f.qb, f.vb), (f.qc, f.vc)].take n).map fun p => rawSrc p.1 p.2 w) (opnd f.qd f.vd) w fn false

/-- A logic instruction of one or two sources of w bits (R145). -/
def State.logic (s : State) (f : FmtV) (n : Nat) (op : Nat → Nat → Nat → Nat) : State :=
  s.bitwise f n true fun _ _ _ xs =>
    (op (tw f.t) (xs.getD 0 Elt.zero).raw (xs.getD 1 Elt.zero).raw % 2 ^ tw f.t, 0, anyPois xs)

/-- The complement within w bits. -/
def notNat (w a : Nat) : Nat := 2 ^ w - 1 - a % 2 ^ w

/-- VAND (R145). -/
def execVand (f : FmtV) (s : State) : Answer := .next (s.logic f 2 fun _ a b => a &&& b)
/-- VOR (R145). -/
def execVor (f : FmtV) (s : State) : Answer := .next (s.logic f 2 fun _ a b => a ||| b)
/-- VXOR (R145). -/
def execVxor (f : FmtV) (s : State) : Answer := .next (s.logic f 2 fun _ a b => a ^^^ b)
/-- VNOT (R145). -/
def execVnot (f : FmtV) (s : State) : Answer := .next (s.logic f 1 fun w a _ => notNat w a)
/-- VANDN (R145). -/
def execVandn (f : FmtV) (s : State) : Answer := .next (s.logic f 2 fun w a b => a &&& notNat w b)
/-- VSHL (R145). -/
def execVshl (f : FmtV) (s : State) : Answer := .next (s.logic f 2 fun w a b => a * 2 ^ (b % w))
/-- VSHR (R145). -/
def execVshr (f : FmtV) (s : State) : Answer := .next (s.logic f 2 fun w a b => a / 2 ^ (b % w))
/-- VSRA (R145). -/
def execVsra (f : FmtV) (s : State) : Answer := .next (s.logic f 2 fun w a b => sraNat w a (b % w))
/-- VROTL (R145). -/
def execVrotl (f : FmtV) (s : State) : Answer := .next (s.logic f 2 fun w a b => rotlNat w a (b % w))
/-- VCLZ (R145). -/
def execVclz (f : FmtV) (s : State) : Answer := .next (s.logic f 1 fun w a _ => clzNat w a)
/-- VPOPC (R145). -/
def execVpopc (f : FmtV) (s : State) : Answer := .next (s.logic f 1 fun w a _ => popNat w a)
/-- VBREV (R145). -/
def execVbrev (f : FmtV) (s : State) : Answer := .next (s.logic f 1 fun w a _ => revNat w a)

/-- VSEL: va where the bits of vc are not 0, else vb; poison of the selector and the chosen source (R147). -/
def execVsel (f : FmtV) (s : State) : Answer :=
  .next (s.bitwise f 3 true fun _ _ _ xs =>
    let c := xs.getD 2 Elt.zero
    let x := if c.raw ≠ 0 then xs.getD 0 Elt.zero else xs.getD 1 Elt.zero
    (x.raw, 0, c.pois || x.pois))

/-- VMERGE: va where the mask bit is 1, else vb, for every element below VL (R147). -/
def execVmerge (f : FmtV) (s : State) : Answer :=
  let v := s.vec
  .next (s.bitwise f 2 (f.m == 0#4) fun _ _ e xs =>
    let x := if v.maskBit (f.vc.toNat % 16) e then xs.getD 0 Elt.zero else xs.getD 1 Elt.zero
    (x.raw, 0, x.pois))

/-- VBCAST: the low bits of a scalar (R148). -/
def execVbcast (f : FmtV) (s : State) : Answer :=
  let x := (s.x f.va).toNat % 2 ^ tw f.t
  .next (s.bitwise f 0 true fun _ _ _ _ => (x, 0, false))

/-- VRAMP: base + e × step, or base + the rank among active elements (R148). -/
def execVramp (f : FmtV) (s : State) : Answer :=
  let w := tw f.t
  let base := (s.x f.va).toNat
  let stride := (s.x f.vb).toNat
  .next (s.bitwise f 0 true fun run _ e _ =>
    (if f.opv.getLsbD 0 then (base + (run.act.filter (· < e)).length) % 2 ^ w else (base + e * stride) % 2 ^ w, 0, false))

/-- VMOV (R148). -/
def execVmov (f : FmtV) (s : State) : Answer :=
  .next (s.bitwise f 1 true fun _ _ _ xs => let x := xs.getD 0 Elt.zero; (x.raw, 0, x.pois))

/-- VMOVX: an element to a scalar register, or 0 beyond VL; a poisoned EG traps POISON (R148). -/
def execVmovx (f : FmtV) (s : State) : Answer :=
  let w := tw f.t
  let o := opnd f.qa f.va
  .next (s.vIssue (f.grp == 0#2 && f.m == 0#4 && vDecode s.vec.cfg s.cur.role 1 [] [vField f.qa f.va 1]) (s.vlOk w) [o] []
    fun s =>
      let k := (s.x f.vb).toNat
      let done (s : State) (x : Word) : State := ((s.modVec fun v => v.popRings (ringsOf [o])).setX f.vd x).advance
      if s.th.vl ≤ k then done s 0
      else
        let e := readElt s.vec (s.bound s.tr.core) Lg.plain (rawSrc f.qa f.va w) 0 k
        if e.pois then s.trapPoison (o.unit 0) k else done s (extT f.t e.raw))

/-- VINSX: one element from a scalar register; poison bits are kept (R148). -/
def execVinsx (f : FmtV) (s : State) : Answer :=
  let w := tw f.t
  .next (s.vIssue (f.grp == 0#2 && f.m == 0#4 && !f.qd && vDecode s.vec.cfg s.cur.role 1 [vField false f.vd 1] [])
    (s.vlOk w) [] []
    fun s =>
      let k := (s.x f.vb).toNat
      let x := (s.x f.va).toNat
      if s.th.vl ≤ k then s.advance
      else (s.modVec fun v => { v with v := tset f.vd.toNat (setElem (v.reg f.vd.toNat) w k x) v.v }).advance)

/-! Compare. -/

/-- A comparison of R146 by code: its truth and its events. -/
def cmpElt (cond : Nat) (a b : Val) : Bool × Ev :=
  let un := a.isNan || b.isNan
  let o := cmpV a b
  let iv := if 2 ≤ cond ∧ cond ≤ 5 then un else a.isSig || b.isSig
  let r : Bool := match cond with
    | 0 => !un && o == .eq
    | 1 => un || o != .eq
    | 2 => !un && o == .lt
    | 3 => !un && o != .gt
    | 4 => !un && o == .gt
    | 5 => !un && o != .lt
    | _ => un
  (r, if iv then evIV else 0)

/-- The legend of VCMP with its dispatch checks (R43, R146). -/
def State.cmpLg (s : State) (f : FmtV) : Option Lg :=
  match s.legend f ⟨true, true, false, false, false⟩ with
  | none => none
  | some lg =>
    if allFI [lg.fa, lg.fb] && companionsOk s.vec.cfg s.cur.role 1 lg [] ((vFields f 2).zip [lg.fa, lg.fb]) then some lg
    else none

/-- The decode checks of VCMP (R146). -/
def cmpDecode (cfg : Word) (r : Role) (f : FmtV) : Bool :=
  f.grp == 0#2 && f.vd.toNat % 16 != 0 && vDecode cfg r 1 [] (vFields f 2)

/-- A mask register with the bits of some elements replaced. -/
def VecState.putMask (v : VecState) (k : Nat) (bs : List (Nat × Bool)) : VecState :=
  { v with m := tset k (bs.foldl (fun b r => setBit b r.1 r.2) (tget 0 k v.m)) v.m }

/-- VCMP: each active element's comparison to its mask bit; a poisoned source traps POISON first (R146). -/
def execVcmp (f : FmtV) (s : State) : Answer :=
  let lg := s.cmpLg f
  .next (s.vIssue (cmpDecode s.vec.cfg s.cur.role f)
    (match lg with
      | some lg => s.vlOk (maxWidth [lg.fa.width, lg.fb.width])
      | none => false)
    (vOpnds f 2) []
    fun s => match lg with
      | none => s.trapDispatch
      | some lg =>
        let run := s.vRun f.m.toNat
        let slabs := s.bound s.tr.core
        let rs := run.act.map fun e =>
          (e, readElt s.vec slabs lg (lgSrc lg 1 f.qa f.va lg.fa) 0 e, readElt s.vec slabs lg (lgSrc lg 1 f.qb f.vb lg.fb) 0 e)
        match rs.find? fun r => r.2.1.pois || r.2.2.pois with
        | some r => s.trapPoison (if r.2.1.pois then (opnd f.qa f.va).unit 0 else (opnd f.qb f.vb).unit 0) r.1
        | none =>
          let out := rs.map fun r => (r.1, cmpElt (f.opv.toNat % 8) r.2.1.val r.2.2.val)
          let evs := out.foldl (fun a r => a.add r.2.2 (run.index 0 r.1)) Evs.none
          (s.modVec fun v => (v.putMask (f.vd.toNat % 16) (out.map fun r => (r.1, r.2.1))).popRings
            (ringsOf (vOpnds f 2))).vFinish lg.sr evs)

end Sys2Proof.Machine
end

