-- ==== Sys2Proof/Machine/Mask.lean ====
section
/-! DEFINITION. The mask instructions: R132, R133, R149. -/

namespace Sys2Proof.Machine

/-- The number that a mask field holds. -/
def maskNo (f : BitVec 6) : Nat := f.toNat % 16

/-- Issue of a mask instruction: decode checks, then vector ownership (R149, R358). -/
def State.maskIssue (s : State) (dec : Bool) (go : State → State) : State := s.vIssue dec true [] [] go

/-- The governing bits of a word: those of the mask m below VL (R133). -/
def State.govern (s : State) (f : FmtV) : Bits := s.vec.mask f.m.toNat % 2 ^ s.th.vl

/-- A governed mask result: the governed bits take `res`, the others keep their values (R134, R149). -/
def State.maskOp (s : State) (f : FmtV) (op : Bits → Bits → Bits → Bits) : State :=
  s.maskIssue (maskNo f.vd != 0) fun s =>
    let gov := s.govern f
    let res := op gov (s.vec.mask (maskNo f.va)) (s.vec.mask (maskNo f.vb))
    (s.modVec fun v =>
      let old := tget 0 (maskNo f.vd) v.m
      { v with m := tset (maskNo f.vd) ((old ^^^ (old &&& gov)) ||| (res &&& gov)) v.m }).advance

/-- VMAND (R149). -/
def execVmand (f : FmtV) (s : State) : Answer := .next (s.maskOp f fun _ a b => a &&& b)
/-- VMOR (R149). -/
def execVmor (f : FmtV) (s : State) : Answer := .next (s.maskOp f fun _ a b => a ||| b)
/-- VMXOR (R149). -/
def execVmxor (f : FmtV) (s : State) : Answer := .next (s.maskOp f fun _ a b => a ^^^ b)
/-- VMNOT (R149). -/
def execVmnot (f : FmtV) (s : State) : Answer := .next (s.maskOp f fun g a _ => g ^^^ (g &&& a))
/-- VMANDN (R149). -/
def execVmandn (f : FmtV) (s : State) : Answer := .next (s.maskOp f fun g a b => a &&& (g ^^^ (g &&& b)))
/-- VMMOV (R149). -/
def execVmmov (f : FmtV) (s : State) : Answer := .next (s.maskOp f fun _ a _ => a)

/-- The lowest set bit of a mask below VL. -/
def firstBit (vl : Nat) (b : Bits) : Option Nat := (nrange 0 vl).find? b.testBit

/-- VMSETF: ones up to the first set active element, or below it with `excl`; all ones where there is none (R149). -/
def execVmsetf (f : FmtV) (s : State) : Answer :=
  let vl := s.th.vl
  .next (s.maskOp f fun g a _ => match firstBit vl (a &&& g) with
    | some k => 2 ^ (k + if f.opv.getLsbD 0 then 0 else 1) - 1
    | none => g)

/-- VMPOP: how many active elements have their bit set (R149). -/
def execVmpop (f : FmtV) (s : State) : Answer :=
  .next (s.maskIssue true fun s =>
    s.done f.vd (BitVec.ofNat 64 (popNat s.th.vl (s.vec.mask (maskNo f.va) &&& s.govern f))))

/-- VMFIRST: the lowest active element with its bit set, or all ones (R149). -/
def execVmfirst (f : FmtV) (s : State) : Answer :=
  .next (s.maskIssue true fun s =>
    s.done f.vd (match firstBit s.th.vl (s.vec.mask (maskNo f.va) &&& s.govern f) with
      | some k => BitVec.ofNat 64 k
      | none => BitVec.allOnes 64))

/-- VMTOX: 64 bits of a mask to a scalar register (R149). -/
def execVmtox (f : FmtV) (s : State) : Answer :=
  .next (s.maskIssue (f.m == 0#4) fun s =>
    let k := (s.x f.vb).toNat
    s.done f.vd (if k < 256 then BitVec.ofNat 64 (bitsAt (s.vec.mask (maskNo f.va)) (64 * k) 64) else 0))

/-- VMFROMX: a scalar register to 64 bits of a mask (R149). -/
def execVmfromx (f : FmtV) (s : State) : Answer :=
  .next (s.maskIssue (f.m == 0#4 && maskNo f.vd != 0) fun s =>
    let k := (s.x f.vb).toNat
    if k < 256 then
      (s.modVec fun v => { v with
        m := tset (maskNo f.vd) (setBitsAt (tget 0 (maskNo f.vd) v.m) (64 * k) 64 (s.x f.va).toNat) v.m }).advance
    else s.advance)

end Sys2Proof.Machine
end

