-- ==== Sys2Proof/Machine/Transform.lean ====
section
/-! DEFINITION. Conversion, quantisation, reduction, scan, Welford statistics, selection and permutation (chapter
07_transforms, R151 to R168). -/

namespace Sys2Proof.Machine

/-- A word of chapter 07: issue with its decode checks, its legend and its element width, then its effect (R151 to R154). -/
def State.transform (s : State) (dec : Bool) (lg : Option Lg) (width : Lg → Nat) (reads writes : List Opnd)
    (go : Lg → State → State) : State :=
  s.vIssue dec
    (match lg with
      | some l => s.vlOk (width l)
      | none => false) reads writes
    fun s => match lg with
      | none => s.trapDispatch
      | some l => go l s

/-- A block-scaled source needs grp 0 (R153), and its companions must be legal. -/
def State.scaledOk (s : State) (f : FmtV) (lg : Lg) (dsts : List VField) (srcs : List (VField × Fmt)) : Bool :=
  (f.grp == 0#2 || !(srcs.any fun p => lg.scaled p.2)) && companionsOk s.vec.cfg s.cur.role f.g lg dsts srcs

/-- A legend that passes a further check. -/
def keepIf (lg : Option Lg) (p : Lg → Bool) : Option Lg := lg.bind fun l => if p l then some l else none

/-- The decode checks of a word of one register, not a group (R153). -/
def State.dec1 (s : State) (f : FmtV) (dsts srcs : List VField) : Bool :=
  f.grp == 0#2 && srOk s.cur.role f.rm.toNat && vDecode s.vec.cfg s.cur.role 1 dsts srcs

/-- The end of a word that wrote `v`: rings popped, then completion. (DEDUCED, log entry 17.) -/
def State.vDone (s : State) (v : VecState) (reads : List Opnd) (sr : Bool) (e : Evs) : State :=
  (s.modVec fun _ => v.popRings (ringsOf reads)).vFinish sr e

/-- The number of slabs of the current core. -/
def State.nslabs (s : State) : Nat := s.bound s.tr.core

/-! Conversion. -/

/-- The legend of VCVT: FA by the suffix or the legend, FD by the legend (R156). -/
def State.cvtLg (s : State) (f : FmtV) : Option Lg :=
  keepIf (s.legend f ⟨true, false, false, true, true⟩) fun l =>
    s.scaledOk f l [vField f.qd f.vd f.g] ((vFields f 1).zip [l.fa])

/-- VCVT (R156). -/
def execVcvt (f : FmtV) (s : State) : Answer :=
  .next (s.transform (elemDecode s.vec.cfg s.cur.role f 1) (s.cvtLg f) (fun l => maxWidth [l.fa.width, l.fd.width])
    (vOpnds f 1) [opnd f.qd f.vd] fun l s =>
      s.runElems f.m.toNat l f.g (lgSrcs l f [l.fa]) (opnd f.qd f.vd) l.fd.width
        (fun run j e xs =>
          let x := xs.getD 0 Elt.zero
          let r := roundTo l.fd (l.at (run.lane j e) e) x.val
          (r.1, sigEv [x.val] ||| r.2, x.pois)) l.sr)

/-! Block quantisation (R158). -/

/-- EMAX of an MX format (R158). -/
def emaxOf : Fmt → Int
  | .e4m3 => 8
  | .e5m2 => 15
  | .e3m2 => 4
  | _ => 2

/-- An integer held between 0 and a bound. -/
def clampNat (lo hi x : Int) : Nat := (max lo (min hi x)).toNat

/-- The magnitude of a finite value. -/
def Val.mag : Val → Mag
  | .fin _ m => m
  | _ => ⟨0, 1, false⟩

/-- floor(log2) of the greatest non-zero magnitude among values, if one is not zero. -/
def topLog2 (vs : List Val) : Option Int := vs.foldl (fun (acc : Option Int) v =>
  if v.isZero then acc
  else match acc with
    | some k => some (max k v.mag.log2)
    | none => some v.mag.log2) none

/-- A value divided by 2^k. -/
def Val.unscale (k : Int) : Val → Val
  | .fin n m => .fin n (m.scale (-k))
  | v => v

/-- The magnitude code of a PX element on the grid of 2^(x − g), with its events (R158). -/
def pxCode (f : Fmt) (ctx : RCtx) (x : Int) (v : Val) : Nat × Ev :=
  let neg := v.isNeg
  let r := if v.isZero then (0, true) else rndGrid ctx neg v.mag (x - f.fbits)
  let top := 2 ^ (f.fbits + 1) - 1
  let m := min r.1 top
  (f.signed neg m, (if r.2 && decide (r.1 ≤ top) then 0 else evNX) ||| (if top < r.1 then evSAT else 0) |||
    (if m = 0 && !v.isZero then evUF else 0))

/-- What quantising one block gives: the scale, the pair-shift word (none: the spec assigns no pair shifts), and the codes
with their events. -/
structure Quant where
  scale : Nat
  shifts : Option Nat
  codes : List (Nat × Nat × Ev)
  deriving DecidableEq, Repr

/-- One block of VPACK `quant`: the active elements with their values (R158). (DESIGN CHOICE, log entry 18.) -/
def quantBlock (l : Lg) (vals : List (Nat × Val)) : Quant :=
  let f := l.fd
  match vals.find? fun p => p.2.isNan || p.2.isInf with
  | some bad =>
    ⟨255, if f.isPx then none else some 0, vals.map fun p => (p.1, 0, if p.1 = bad.1 then evIV else 0)⟩
  | none =>
    match topLog2 (vals.map (·.2)) with
    | none => ⟨127, if f.isPx then none else some 0, vals.map fun p => (p.1, f.signed p.2.isNeg 0, 0)⟩
    | some k =>
      let at_ (e : Nat) : RCtx := { l.at 0 e with sat := true, ftz := false }
      if f.isPx then
        let x := clampNat 0 254 (k + 127)
        let shift (j : Nat) : Nat :=
          match topLog2 ((vals.filter fun p => p.1 % 32 / 2 == j).map (·.2)) with
          | none => 3
          | some p => clampNat 0 3 ((x : Int) - 127 - p)
        ⟨x, some (((nrange 0 16).map fun j => shift j * 4 ^ j).sum),
         vals.map fun p => (p.1, pxCode f (at_ p.1) ((x : Int) - 127 - Int.ofNat (shift (p.1 % 32 / 2))) p.2)⟩
      else
        let x := clampNat 0 254 (k - emaxOf f + 127)
        ⟨x, some 0, vals.map fun p => (p.1, roundTo f (at_ p.1) (p.2.unscale ((x : Int) - 127)))⟩

/-- The legend of a word with its SCM field left out (R158, R159). (DEDUCED, log entry 17.) -/
def State.legendNoScm (s : State) (f : FmtV) (u : LgUse) : Option Lg :=
  legendOf s.tr s.cur.role (s.x f.xl &&& ~~~(0x700000#64)) (suffixOf f.t) f.rm.toNat u

/-- Whether a format is one of the first four, FP32 to BF16. -/
def Fmt.wide (f : Fmt) : Bool := f == .fp32 || f == .fp64 || f == .fp16 || f == .bf16

/-- The companion bytes of one block written to a register (R37, R158). -/
def putComp (b : Bits) (blk scale shifts : Nat) : Bits := setBitsAt b (64 * blk) 64 (scale + shifts * 2 ^ 32)

/-- VPACK quant (R155, R158): a block's 8 companion bytes count as one element of the companion register (R138).
(DESIGN CHOICE, log entry 18.) -/
def execVpackQuant (f : FmtV) (s : State) : Answer :=
  let lg := keepIf (s.legendNoScm f ⟨true, false, false, true, true⟩) fun l => l.fa.wide && l.fd.narrow
  let src := opnd f.qa f.va
  .next (s.transform (s.dec1 f [vMulti f.qd f.vd 2 1] (vFields f 1)) lg (fun l => maxWidth [l.fa.width]) [src] []
    fun l s =>
      let v := s.vec
      let run := s.vRun f.m.toNat
      let elts := run.act.map fun e => (e, readElt v s.nslabs l ⟨src, l.fa, none⟩ 0 e)
      let blocks := ldedup (run.act.map (· / 32))
      let vd := f.vd.toNat
      let r := blocks.foldl (fun (acc : VecState × Evs × State) b =>
        let here := elts.filter fun p => p.1 / 32 == b
        let bad := here.any fun p => p.2.pois
        let q := quantBlock l (here.map fun p => (p.1, p.2.val))
        let (sh, s') := match q.shifts with
          | some w => (w, acc.2.2)
          | none => let p := acc.2.2.free; (p.1.toNat % 2 ^ 32, p.2)
        let v := acc.1
        let v := { v with
          v := tset vd (putBits (v.reg vd) 8 (q.codes.map fun c => ⟨c.1, c.2.1, bad⟩))
            (tset (vd + 1) (putComp (v.reg (vd + 1)) b q.scale sh) v.v) }
        (v, if bad then acc.2.1 else q.codes.foldl (fun a c => a.add c.2.2 c.1) acc.2.1, s'))
        (v, Evs.none, s)
      let bad (b : Nat) : Bool := elts.any fun x => x.1 / 32 == b && x.2.pois
      let codes := elts.map fun p => (⟨p.1, 0, bad (p.1 / 32)⟩ : Put)
      let comps := blocks.map fun b => (⟨b, 0, bad b⟩ : Put)
      let v' := { r.1 with pois := putPois (egKey (vd + 1)) (putPois (egKey vd) r.1.pois 8 codes) 64 comps }
      r.2.2.vDone v' [src] l.sr r.2.1)

/-! Dense streams (R159). -/

/-- The legend of a dense word: FD for VPACK, FA for VUNPACK (R159). -/
def State.denseLg (s : State) (f : FmtV) (pack : Bool) : Option Lg :=
  keepIf (s.legendNoScm f ⟨!pack, false, false, pack, false⟩) fun l => if pack then l.fd.dense else l.fa.dense

/-- The poison of a stream register after codes of w bits were written: an EG is cleaned when each of its 2,048 bits was. -/
def streamPois (key : Nat → Nat) (p : NatSet) (w : Nat) (rs : List Put) : NatSet :=
  let touches (r : Put) (g : Nat) : Nat :=
    min ((r.e + 1) * w) ((g + 1) * 2048) - max (r.e * w) (g * 2048)
  let gs := ldedup (rs.flatMap fun r => [r.e * w / 2048, ((r.e + 1) * w - 1) / 2048])
  gs.foldl (fun p g =>
    let here := rs.filter fun r => 0 < touches r g
    if here.any (·.pois) then sadd (key g) p
    else if ((here.map fun r => touches r g).sum) = 2048 then sdel (key g) p else p) p

/-- VPACK dense (R159). -/
def execVpackDense (f : FmtV) (s : State) : Answer :=
  let src := opnd f.qa f.va
  .next (s.transform (s.dec1 f [vField f.qd f.vd 1] (vFields f 1)) (s.denseLg f true) (fun _ => 8) [src] [opnd f.qd f.vd]
    fun l s =>
      let v := s.vec
      let w := l.fd.codeWidth
      let rs : List Put := (s.vRun f.m.toNat).act.map fun e =>
        let x := readElt v s.nslabs Lg.plain (rawSrc f.qa f.va 8) 0 e
        ⟨e, x.raw % 2 ^ w, x.pois⟩
      let v' := match opnd f.qd f.vd with
        | .reg k => if rs.isEmpty then v else
          { v with v := tset k (putBits (v.reg k) w rs) v.v, pois := streamPois (egKey k) v.pois w rs }
        | .ring q => v.setRing q (v.ring q ++ [⟨putBits 0 w rs, streamPois (fun g => g) [] w rs, false⟩])
      s.vDone v' [src] l.sr Evs.none)

/-- VUNPACK (R159). -/
def execVunpack (f : FmtV) (s : State) : Answer :=
  let src := opnd f.qa f.va
  .next (s.transform (vDecode s.vec.cfg s.cur.role f.g [vField f.qd f.vd f.g] (vFields f 1)) (s.denseLg f false)
    (fun _ => 8) [src] [opnd f.qd f.vd]
    fun l s =>
      let v := s.vec
      let w := l.fa.codeWidth
      let act := (s.vRun f.m.toNat).act
      let v' := (nrange 0 f.g).foldl (fun acc j =>
        acc.putOp (opnd f.qd f.vd) j 8 (act.map fun e =>
          ⟨e, bitsAt (v.opBits src j) (w * e) w,
            v.opPois src j (w * e / 2048) || v.opPois src j ((w * (e + 1) - 1) / 2048)⟩)) v
      s.vDone v' [src] l.sr Evs.none)

/-! Reductions (R160 to R162). -/

/-- The value of a plain code. -/
def codeVal (f : Fmt) (code : Nat) : Val := valueOf f false false (.pow 0) code

/-- Rounds to a format and gives the value that the code holds. -/
def roundVal (f : Fmt) (ctx : RCtx) (x : Val × Ev) : Val × Ev :=
  let r := roundTo f ctx x.1
  (codeVal f r.1, sigEv [x.1] ||| x.2 ||| r.2)

/-- Events of one place, none where it depends on poison. -/
def Evs.addUnless (a : Evs) (pois : Bool) (e : Ev) (i : Nat) : Evs := if pois then a else a.add e i

/-- The summation tree of R53 over exact leaves, rounding to FC at each node and at the root: the root's value, its lowest
active leaf, whether a leaf is poisoned, and the events. -/
def sumTree (l : Lg) (leaves : List (Option (TNode Val))) : Option (TNode Val) × Evs :=
  let node (lvl : Nat) (a b : TNode Val) : TNode Val × (Ev × Nat × Bool) :=
    let r := roundVal l.fc (l.at lvl a.low) (addV l.ctx.mode a.val b.val)
    (⟨r.1, a.low, a.pois || b.pois⟩, (r.2, a.low, a.pois || b.pois))
  let t := treeOf node leaves
  let evs := t.2.foldl (fun a e => a.addUnless e.2.2 e.1 e.2.1) Evs.none
  match t.1 with
  | none => (none, evs)
  | some n =>
    let r := roundVal l.fc (l.at 62 n.low) (n.val, 0)
    (some { n with val := r.1 }, evs.addUnless n.pois r.2 n.low)

/-- FC and FD of a sum: 0x00 to 0x03 or an integer (R160). -/
def Fmt.sumOk (f : Fmt) : Bool := f.wide || f.isI

/-- Element 0 of the destination of a reduction (R154, R155, R160). -/
def State.reduceDone (s : State) (f : FmtV) (w bits : Nat) (pois sr : Bool) (reads : List Opnd) (e : Evs) : State :=
  s.vDone (s.vec.putOp (opnd f.qd f.vd) 0 w [⟨0, bits, pois⟩]) reads sr e

/-- Leaves at positions 0 to VL − 1 from the active elements (R53). -/
def leavesOf {α : Type} (vl : Nat) (xs : List (Nat × α)) : List (Option α) := (nrange 0 vl).map fun e => tfind e xs

/-- A reduction by sums: VREDSUM and VREDDOT (R160). The events of a product of VREDDOT carry the index and the poison of
its own leaf. (DEDUCED, log entry 83.) -/
def State.sumReduce (s : State) (f : FmtV) (dot : Bool) : State :=
  let n := if dot then 2 else 1
  let lg := keepIf (s.legend f ⟨true, dot, true, true, false⟩) fun l =>
    let fs := if dot then [l.fa, l.fb] else [l.fa]
    allFI (fs ++ [l.fc, l.fd]) && l.fc.sumOk && l.fd.sumOk &&
      s.scaledOk f l [vField f.qd f.vd 1] ((vFields f n).zip fs)
  s.transform (s.dec1 f [vField f.qd f.vd 1] (vFields f n)) lg
    (fun l => maxWidth (if dot then [l.fa.width, l.fb.width, l.fd.width] else [l.fa.width, l.fd.width]))
    (vOpnds f n) [opnd f.qd f.vd] fun l s =>
      let v := s.vec
      let xs := (s.vRun f.m.toNat).act.map fun e =>
        let a := readElt v s.nslabs l (lgSrc l 1 f.qa f.va l.fa) 0 e
        if dot then
          let b := readElt v s.nslabs l (lgSrc l 1 f.qb f.vb l.fb) 0 e
          let p := mulV a.val b.val
          (e, p.1, p.2, a.pois || b.pois)
        else (e, a.val, (0 : Ev), a.pois)
      let leafEvs := xs.foldl (fun acc x => acc.addUnless x.2.2.2 x.2.2.1 x.1) Evs.none
      let t := sumTree l (leavesOf s.th.vl (xs.map fun x => (x.1, (⟨x.2.1, x.1, x.2.2.2⟩ : TNode Val))))
      match t.1 with
      | none => s.reduceDone f l.fd.width 0 false l.sr (vOpnds f n) Evs.none
      | some r =>
        let out := roundTo l.fd (l.at 63 r.low) r.val
        s.reduceDone f l.fd.width out.1 r.pois l.sr (vOpnds f n) ((leafEvs.join t.2).addUnless r.pois out.2 r.low)

/-- VREDSUM (R160). -/
def execVredsum (f : FmtV) (s : State) : Answer := .next (s.sumReduce f false)
/-- VREDDOT (R160). -/
def execVreddot (f : FmtV) (s : State) : Answer := .next (s.sumReduce f true)

/-- The identity of a minimum or maximum: the code that R161's table gives. -/
def identCode (f : Fmt) (isMax : Bool) : Nat :=
  if f.isI then wrapInt f.width (if isMax then f.loInt else f.hiInt)
  else if f.hasInf then f.infCode isMax else f.maxCode isMax

/-- A reduction by selection: VREDMIN and VREDMAX (R161, R144). One active element alone takes part in no combination: its
bits are the result and a signalling NaN raises no IV. (DEDUCED, log entry 82.) -/
def State.selReduce (s : State) (f : FmtV) (isMax : Bool) : State :=
  let prop := f.opv.getLsbD 0
  let lg := keepIf (s.legend f ⟨true, false, false, true, false⟩) fun l =>
    l.fa == l.fd && allFI [l.fa] && !(prop && l.fa.isI) && s.scaledOk f l [vField f.qd f.vd 1] ((vFields f 1).zip [l.fa])
  s.transform (s.dec1 f [vField f.qd f.vd 1] (vFields f 1)) lg (fun l => l.fa.width) (vOpnds f 1) [opnd f.qd f.vd]
    fun l s =>
      let xs := (s.vRun f.m.toNat).act.map fun e => (e, readElt s.vec s.nslabs l (lgSrc l 1 f.qa f.va l.fa) 0 e)
      let node (_ : Nat) (a b : TNode (Val × Nat)) : TNode (Val × Nat) × (Ev × Nat × Bool) :=
        let r := selMinMax l.fd isMax prop a.val.1 b.val.1 a.val.2 b.val.2
        let nan := (a.val.1.isNan && b.val.1.isNan) || (prop && (a.val.1.isNan || b.val.1.isNan))
        (⟨(if nan then .nan false else selVal isMax a.val.1 b.val.1, r.1), a.low, a.pois || b.pois⟩,
         (sigEv [a.val.1, b.val.1], a.low, a.pois || b.pois))
      let t := treeOf node (leavesOf s.th.vl (xs.map fun x => (x.1, (⟨(x.2.val, x.2.raw), x.1, x.2.pois⟩ : TNode (Val × Nat)))))
      let evs := t.2.foldl (fun a e => a.addUnless e.2.2 e.1 e.2.1) Evs.none
      match t.1 with
      | none => s.reduceDone f l.fd.width (identCode l.fd isMax) false l.sr (vOpnds f 1) Evs.none
      | some r =>
        let made := r.val.1.isNan && !l.fd.hasNan && !t.2.isEmpty
        s.reduceDone f l.fd.width r.val.2 r.pois l.sr (vOpnds f 1)
          (evs.addUnless r.pois (if made then evIV else 0) r.low)

/-- VREDMIN (R161). -/
def execVredmin (f : FmtV) (s : State) : Answer := .next (s.selReduce f false)
/-- VREDMAX (R161). -/
def execVredmax (f : FmtV) (s : State) : Answer := .next (s.selReduce f true)

/-- VREDLOG: and, or, xor of the active elements' bits (R161). -/
def execVredlog (f : FmtV) (s : State) : Answer :=
  let w := tw f.t
  let op := f.opv.toNat % 4
  .next (s.transform (s.dec1 f [vField f.qd f.vd 1] (vFields f 1)) (some Lg.plain) (fun _ => w) (vOpnds f 1)
    [opnd f.qd f.vd] fun _ s =>
      let xs := (s.vRun f.m.toNat).act.map fun e => readElt s.vec s.nslabs Lg.plain (rawSrc f.qa f.va w) 0 e
      let r := xs.foldl (fun a x => if op = 0 then a &&& x.raw else if op = 1 then a ||| x.raw else a ^^^ x.raw)
        (if op = 0 then 2 ^ w - 1 else 0)
      s.reduceDone f w r (anyPois xs) false (vOpnds f 1) Evs.none)

/-- Whether a candidate replaces the best so far in VREDARG (R162). -/
def argBetter (isMax prop : Bool) (best x : Val) : Bool :=
  let wins := if isMax then cmpV best x == .lt else cmpV x best == .lt
  if prop then !best.isNan && (x.isNan || wins) else !x.isNan && (best.isNan || wins)

/-- VREDARG: the index of the smallest or largest active element to xd; a poisoned element traps POISON (R162). -/
def execVredarg (f : FmtV) (s : State) : Answer :=
  let lg := keepIf (s.legend f ⟨true, false, false, false, false⟩) fun l =>
    allFI [l.fa] && s.scaledOk f l [] ((vFields f 1).zip [l.fa])
  .next (s.transform (s.dec1 f [] (vFields f 1)) lg (fun l => l.fa.width) (vOpnds f 1) [] fun l s =>
    let xs := (s.vRun f.m.toNat).act.map fun e => (e, readElt s.vec s.nslabs l (lgSrc l 1 f.qa f.va l.fa) 0 e)
    match xs.find? fun x => x.2.pois with
    | some x => s.trapPoison ((opnd f.qa f.va).unit 0) x.1
    | none =>
      let best := xs.foldl (fun (acc : Option (Val × Nat)) x =>
        match acc with
        | none => some (x.2.val, x.1)
        | some b => if argBetter (f.opv.getLsbD 0) (f.opv.getLsbD 1) b.1 x.2.val then some (x.2.val, x.1) else acc) none
      let evs := xs.foldl (fun a x => a.add (sigEv [x.2.val]) x.1) Evs.none
      let xd : Word := match best with
        | some b => BitVec.ofNat 64 b.2
        | none => BitVec.allOnes 64
      (s.setX f.vd xd).vDone s.vec (vOpnds f 1) l.sr evs)

/-! Scan (R163). -/

/-- The running state of a scan: the value, its code for `min` and `max`, and whether poison has come in. -/
structure Scan where
  val : Val
  raw : Nat
  pois : Bool
  deriving DecidableEq, Repr

/-- VSCAN (R163). -/
def execVscan (f : FmtV) (s : State) : Answer :=
  let op := f.opv.toNat / 2 % 4
  let excl := f.opv.getLsbD 0
  let lg := keepIf (s.legend f ⟨true, false, op == 0, true, false⟩) fun l =>
    (if op = 0 then allFI [l.fa, l.fc, l.fd] && l.fc.sumOk && l.fd.sumOk else l.fd == l.fa && allFI [l.fa]) &&
      s.scaledOk f l [vField f.qd f.vd 1] ((vFields f 1).zip [l.fa])
  .next (s.transform (s.dec1 f [vField f.qd f.vd 1] (vFields f 1)) lg (fun l => maxWidth [l.fa.width, l.fd.width])
    (vOpnds f 1) [opnd f.qd f.vd] fun l s =>
      let ident := if op = 0 then 0 else identCode l.fa (op == 2)
      let out (st : Scan) (e : Nat) : Nat × Ev :=
        if op = 0 then roundTo l.fd (l.at 1 e) st.val else (st.raw, 0)
      let r := (s.vRun f.m.toNat).act.foldl (fun (acc : Scan × List Put × Evs) e =>
        let x := readElt s.vec s.nslabs l (lgSrc l 1 f.qa f.va l.fa) 0 e
        let st := acc.1
        let bad := st.pois || x.pois
        let nx : Scan × Ev :=
          if op = 0 then
            let y := roundVal l.fc (l.at 0 e) (addV l.ctx.mode st.val x.val)
            (⟨y.1, 0, bad⟩, y.2)
          else
            let y := selMinMax l.fd (op == 2) false st.val x.val st.raw x.raw
            (⟨selVal (op == 2) st.val x.val, y.1, bad⟩, y.2)
        let o := out (if excl then st else nx.1) e
        (nx.1, ⟨e, o.1, bad⟩ :: acc.2.1, acc.2.2.addUnless bad (nx.2 ||| o.2) e))
        ((⟨codeVal l.fa ident, ident, false⟩ : Scan), [], Evs.none)
      s.vDone (s.vec.putOp (opnd f.qd f.vd) 0 l.fd.width r.2.1.reverse) (vOpnds f 1) l.sr r.2.2)

/-! Welford statistics (R164, R165). -/

/-- Element e of register k in format FC, with its code and poison. -/
def welElt (v : VecState) (l : Lg) (k e : Nat) : Elt := readElt v 1 { l with scm := 0 } ⟨.reg k, l.fc, none⟩ 0 e

/-- Three codes with their events. -/
structure Wel where
  n : Nat
  mu : Nat
  m2 : Nat
  ev : Ev
  deriving DecidableEq, Repr

/-- One rounding of a Welford step: the code, its value, its events with those before. -/
def welRound (l : Lg) (lane e : Nat) (x : Val × Ev) : Nat × Val × Ev :=
  let r := roundTo l.fc (l.at lane e) x.1
  (r.1, codeVal l.fc r.1, sigEv [x.1] ||| x.2 ||| r.2)

/-- a + b, a − b, a × b and a / b on values with events so far. -/
def vAdd (l : Lg) (a b : Val × Ev) : Val × Ev := let r := addV l.ctx.mode a.1 b.1; (r.1, a.2 ||| b.2 ||| r.2)
def vSub (l : Lg) (a b : Val × Ev) : Val × Ev := let r := addV l.ctx.mode a.1 b.1.negate; (r.1, a.2 ||| b.2 ||| r.2)
def vMul (a b : Val × Ev) : Val × Ev := let r := mulV a.1 b.1; (r.1, a.2 ||| b.2 ||| r.2)
def vDiv (a b : Val × Ev) : Val × Ev := let r := divV a.1 b.1; (r.1, a.2 ||| b.2 ||| r.2)

/-- A value without events. -/
def pureV (v : Val) : Val × Ev := (v, 0)

/-- Adding one sample to a group (R164). -/
def welAdd (l : Lg) (e : Nat) (x n mu m2 : Val) : Wel :=
  let n' := welRound l 0 e (vAdd l (pureV n) (pureV (intVal 1)))
  let d1 := welRound l 4 e (vSub l (pureV x) (pureV mu))
  let mu' := welRound l 1 e (vAdd l (pureV mu) (vDiv (pureV d1.2.1) (pureV n'.2.1)))
  let d2 := welRound l 5 e (vSub l (pureV x) (pureV mu'.2.1))
  let m2' := welRound l 2 e (vAdd l (pureV m2) (vMul (pureV d1.2.1) (pureV d2.2.1)))
  ⟨n'.1, mu'.1, m2'.1, n'.2.2 ||| d1.2.2 ||| mu'.2.2 ||| d2.2.2 ||| m2'.2.2⟩

/-- Merging two groups (R165). -/
def welMerge (l : Lg) (e : Nat) (a b : List Elt) : Wel :=
  let A (i : Nat) : Elt := a.getD i Elt.zero
  let B (i : Nat) : Elt := b.getD i Elt.zero
  if (B 0).val.isZero then ⟨(A 0).raw, (A 1).raw, (A 2).raw, 0⟩
  else if (A 0).val.isZero then ⟨(B 0).raw, (B 1).raw, (B 2).raw, 0⟩
  else
    let n := welRound l 0 e (vAdd l (pureV (A 0).val) (pureV (B 0).val))
    let dl := welRound l 4 e (vSub l (pureV (B 1).val) (pureV (A 1).val))
    let d := pureV dl.2.1
    let mu := welRound l 1 e (vAdd l (pureV (A 1).val) (vDiv (vMul d (pureV (B 0).val)) (pureV n.2.1)))
    let t := vDiv (vMul (vMul (vMul d d) (pureV (A 0).val)) (pureV (B 0).val)) (pureV n.2.1)
    let m2 := welRound l 2 e (vAdd l (vAdd l (pureV (A 2).val) (pureV (B 2).val)) t)
    ⟨n.1, mu.1, m2.1, n.2.2 ||| dl.2.2 ||| mu.2.2 ||| m2.2.2⟩

/-- A Welford word: each active element's three codes written to vd, vd+1 and vd+2 (R153, R164, R165). -/
def State.welford (s : State) (f : FmtV) (l : Lg) (reads : List Opnd) (fn : Nat → Wel × Bool) : State :=
  let rs := (s.vRun f.m.toNat).act.map fun e => (e, fn e)
  let w := l.fc.width
  let vd := f.vd.toNat
  let v := ((s.vec.putReg vd w (rs.map fun r => ⟨r.1, r.2.1.n, r.2.2⟩)).putReg (vd + 1) w
    (rs.map fun r => ⟨r.1, r.2.1.mu, r.2.2⟩)).putReg (vd + 2) w (rs.map fun r => ⟨r.1, r.2.1.m2, r.2.2⟩)
  s.vDone v reads l.sr (rs.foldl (fun a r => a.addUnless r.2.2 r.2.1.ev r.1) Evs.none)

/-- VWELF (R164). -/
def execVwelf (f : FmtV) (s : State) : Answer :=
  let dst := vMulti f.qd f.vd 4 4
  let lg := keepIf (s.legend f ⟨true, false, true, false, false⟩) fun l =>
    (l.fc == .fp32 || l.fc == .fp64) && l.fa.isF && s.scaledOk f l [dst] ((vFields f 1).zip [l.fa])
  .next (s.transform (s.dec1 f [dst] (vFields f 1)) lg (fun l => maxWidth [l.fa.width, l.fc.width]) (vOpnds f 1) []
    fun l s => s.welford f l (vOpnds f 1) fun e =>
      let x := readElt s.vec s.nslabs l (lgSrc l 1 f.qa f.va l.fa) 0 e
      let g := (nrange 0 3).map fun i => welElt s.vec l (f.vd.toNat + i) e
      (welAdd l e x.val (g.getD 0 Elt.zero).val (g.getD 1 Elt.zero).val (g.getD 2 Elt.zero).val, x.pois || anyPois g))

/-- VWMERGE (R165). -/
def execVwmerge (f : FmtV) (s : State) : Answer :=
  let dst := vMulti f.qd f.vd 4 4
  let lg := keepIf (s.legend f ⟨false, false, true, false, false⟩) fun l => l.fc == .fp32 || l.fc == .fp64
  .next (s.transform (s.dec1 f [dst] [vMulti f.qa f.va 4 4, vMulti f.qb f.vb 4 4]) lg (fun l => l.fc.width) [] []
    fun l s => s.welford f l [] fun e =>
      let a := (nrange 0 3).map fun i => welElt s.vec l (f.va.toNat + i) e
      let b := (nrange 0 3).map fun i => welElt s.vec l (f.vb.toNat + i) e
      (welMerge l e a b, anyPois a || anyPois b))

/-! Top-k (R166). -/

/-- Whether a ranks before or with b in VTOPK's order (R166). -/
def topLe (small nanlast : Bool) (a b : Val) : Bool :=
  let nanTop := !nanlast
  let le (x y : Val) : Bool :=                -- x ≤ y in the order of values with NaN placed
    if x.isNan && y.isNan then true
    else if x.isNan then !nanTop
    else if y.isNan then nanTop
    else cmpV x y != .gt
  if small then le a b else le b a

/-- VTOPK (R166). -/
def execVtopk (f : FmtV) (s : State) : Answer :=
  let dst := vMulti f.qd f.vd 2 2
  let lg := keepIf (s.legend f ⟨true, false, false, false, false⟩) fun l =>
    allFI [l.fa] && s.scaledOk f l [dst] ((vFields f 1).zip [l.fa])
  .next (s.transform (s.dec1 f [dst] (vFields f 1)) lg (fun l => max 32 l.fa.width) (vOpnds f 1) [] fun l s =>
    let xs := (s.vRun f.m.toNat).act.map fun e => (e, readElt s.vec s.nslabs l (lgSrc l 1 f.qa f.va l.fa) 0 e)
    let bad := xs.any fun x => x.2.pois
    let order := lsort (fun a b => topLe (f.opv.getLsbD 0) (f.opv.getLsbD 1) a.2.val b.2.val) xs
    let k := min (s.x f.vb).toNat xs.length
    let sel := (nrange 0 k).zip (order.take k)
    let vd := f.vd.toNat
    let v := (s.vec.putReg vd l.fa.width (sel.map fun p => ⟨p.1, p.2.2.raw, bad⟩)).putReg (vd + 1)
      (if l.fa.width = 64 then 64 else 32) (sel.map fun p => ⟨p.1, p.2.1, bad⟩)
    (s.setX f.vc (BitVec.ofNat 64 k)).vDone v (vOpnds f 1) l.sr Evs.none)

/-! Permutations (R167, R168). -/

/-- A source element at a position: beyond VL it reads zero; none where the element is not written. -/
def pickElt (v : VecState) (vl w : Nat) (o : Opnd) (j pos : Nat) : Nat × Bool :=
  if pos < vl then (elemAt (v.opBits o j) w pos, v.opPois o j (egOf w pos)) else (0, false)

/-- A permutation: each active element's result, or none where it is not written (R167). -/
def State.permute (s : State) (f : FmtV) (n : Nat) (fn : VecState → Nat → Nat → Option (Nat × Bool)) : State :=
  let w := tw f.t
  s.transform (vDecode s.vec.cfg s.cur.role f.g [vField f.qd f.vd f.g] (vFields f n)) (some Lg.plain) (fun _ => w)
    (vOpnds f n) [opnd f.qd f.vd] fun _ s =>
      let v := s.vec
      let act := (s.vRun f.m.toNat).act
      let v' := (nrange 0 f.g).foldl (fun acc j =>
        acc.putOp (opnd f.qd f.vd) j w (act.filterMap fun e => (fn v j e).map fun r => ⟨e, r.1, r.2⟩)) v
      s.vDone v' (vOpnds f n) false Evs.none

/-- VPERM: the position is element e of vb (R167). -/
def execVperm (f : FmtV) (s : State) : Answer :=
  let w := tw f.t
  let vl := s.th.vl
  .next (s.permute f 2 fun v j e =>
    let ix := opnd f.qb f.vb
    let r := pickElt v vl w (opnd f.qa f.va) j (elemAt (v.opBits ix j) w e)
    some (r.1, r.2 || v.opPois ix j (egOf w e)))

/-- The source position of VSHUF (R167). -/
def shufPos (op vl k e : Nat) : Nat :=
  match op with
  | 0 => e ^^^ k
  | 1 => if k = 0 then e else e - e % k
  | _ => vl - 1 - e

/-- VSHUF (R167). -/
def execVshuf (f : FmtV) (s : State) : Answer :=
  let vl := s.th.vl
  let k := (s.x f.vb).toNat
  .next (s.permute f 1 fun v j e => some (pickElt v vl (tw f.t) (opnd f.qa f.va) j (shufPos (f.opv.toNat % 4) vl k e)))

/-- VSLIDEUP: e − k; below k nothing is written (R167). -/
def execVslideup (f : FmtV) (s : State) : Answer :=
  let vl := s.th.vl
  let k := (s.x f.vb).toNat
  .next (s.permute f 1 fun v j e =>
    if e < k then none else some (pickElt v vl (tw f.t) (opnd f.qa f.va) j (e - k)))

/-- VSLIDEDN: e + k (R167). -/
def execVslidedn (f : FmtV) (s : State) : Answer :=
  let vl := s.th.vl
  let k := (s.x f.vb).toNat
  .next (s.permute f 1 fun v j e => some (pickElt v vl (tw f.t) (opnd f.qa f.va) j (e + k)))

/-- VLUT: byte e of va names an element of the table vb, read whatever VL is (R167). -/
def execVlut (f : FmtV) (s : State) : Answer :=
  let w := tw f.t
  .next (s.permute f 2 fun v j e =>
    let a := opnd f.qa f.va
    let b := opnd f.qb f.vb
    let k := elemAt (v.opBits a j) 8 e
    some (elemAt (v.opBits b j) w k, v.opPois a j (egOf 8 e) || v.opPois b j (egOf w k)))

/-- The elements below VL whose bit of a mask is 1, in rising order. -/
def State.chosen (s : State) (k : Nat) : List Nat := (nrange 0 s.th.vl).filter (s.vec.maskBit k)

/-- VCOMPRESS and VEXPAND: pairs of destination and source position (R168). -/
def State.compress (s : State) (f : FmtV) (pairs : State → List (Nat × Nat)) (after : State → State) : State :=
  let w := tw f.t
  s.transform (f.m == 0#4 && s.dec1 f [vField f.qd f.vd 1] (vFields f 1)) (some Lg.plain) (fun _ => w) (vOpnds f 1)
    [opnd f.qd f.vd] fun _ s =>
      let v := s.vec
      let o := opnd f.qa f.va
      let rs := (pairs s).map fun p => (⟨p.1, elemAt (v.opBits o 0) w p.2, v.opPois o 0 (egOf w p.2)⟩ : Put)
      (after s).vDone (v.putOp (opnd f.qd f.vd) 0 w rs) (vOpnds f 1) false Evs.none

/-- VCOMPRESS (R168). -/
def execVcompress (f : FmtV) (s : State) : Answer :=
  let k := maskNo f.vb
  .next (s.compress f (fun s => let c := s.chosen k; (nrange 0 c.length).zip c)
    fun s => s.setX f.vc (BitVec.ofNat 64 (s.chosen k).length))

/-- VEXPAND (R168). -/
def execVexpand (f : FmtV) (s : State) : Answer :=
  let k := maskNo f.vb
  .next (s.compress f (fun s => let c := s.chosen k; c.zip (nrange 0 c.length)) fun s => s)

end Sys2Proof.Machine
end

