-- ==== Sys2Proof/Machine/Triads.lean ====
section
/-! DEFINITION. VCFG and its rendezvous, VFETCH with its VPs, VPBR, VJOIN and NOP, and the release of ring waits
(R87 to R97, R126). -/

namespace Sys2Proof.Machine

/-! VCFG. -/

/-- VCFG: the role waits for the other two (R88). -/
def execVcfg (f : FmtA) (s : State) : Answer :=
  .next (if !s.ownsVec then s.trap cVSWITCH 0 0 0
    else (s.stallOn (.vcfg (s.x f.xa) f.xd.toNat)).trapOrphans)

/-- The word that a role waits with at a VCFG, and the register that takes the old one. -/
def vcfgOf (r : RoleState) : Option (Word × Nat) :=
  match r.stall with
  | some (.vcfg w d) => some (w, d)
  | _ => none

/-- A configuration word that may be set: reserved bits 0, and no more than 64 registers (R88). -/
def goodCfg (w : Word) : Bool :=
  nbits w.toNat 32 32 == 0 && nbits w.toNat 15 1 == 0 && decide (cfgNL w + cfgNC w + cfgNS w ≤ 64)

/-- Vector state under a new configuration word: rings whose direction changes lose their entries (R88). -/
def VecState.setCfg (v : VecState) (w : Word) : VecState :=
  { v with
    cfg := w
    rings := v.rings.filter fun p => nbits v.cfg.toNat (16 + 2 * p.1) 2 == nbits w.toNat (16 + 2 * p.1) 2 }

/-- VCFG_RENDEZVOUS: the three roles of the current triad have issued VCFG (R88). -/
def execVcfgRendezvous (s : State) : Answer :=
  .next (match vcfgOf s.tr.loader, vcfgOf s.tr.computer, vcfgOf s.tr.storer with
    | some (wl, dl), some (wc, dc), some (ws, ds) =>
      if wl = wc ∧ wc = ws ∧ goodCfg wl then
        let old := s.vec.cfg
        let end_ (r : RoleState) (d : Nat) : RoleState := (r.setXr d old).advance
        (s.modVec fun v => v.setCfg wl).modTr fun t =>
          { t with loader := end_ t.loader dl, computer := end_ t.computer dc, storer := end_ t.storer ds }
      else
        let c := s.cur.ctxn
        takeTrap (roles.foldl (fun s r =>
          postTrap s ⟨c, r⟩ { cls := cILLOPND, sub := 1, resume := ((s.triad c).role r).pc }) s) c
    | _, _, _ => s)

/-! Which threads run. -/

/-- Opcodes of vector instructions, VFETCH among them (R358). -/
def vectorOp (op : Nat) : Bool :=
  (0x51 ≤ op && op ≤ 0xC3) || op == 0xC6 || op == 0xC7 || op == 0xCC || op == 0xE0 || op == 0xE1 || op == 0x46

/-- The word that a role would run next, when its block is entered. -/
def RoleState.word (r : RoleState) : Option Word := r.blk[(r.pc - r.blkBase).toNat / 8]?

/-- Whether a triad runs: none of its roles has trapped, and it is not parked. -/
def Triad.runs (t : Triad) : Bool := t.trapper.isNone && !t.parked

/-- Whether the roles of a triad stop at their next boundary, because a trap of it is to be delivered (R86, R348, R379).
(DEDUCED, log entry 28.) -/
def Triad.stopping (t : Triad) : Bool :=
  t.handling.isNone && !t.parked && (t.wdog || roles.any fun r => !(t.role r).async.isEmpty && !inFlight (t.role r))

/-- Whether the device lets a role of a triad run: while a handler runs, only its role does (R348). -/
def Triad.live (t : Triad) (r : Role) : Bool :=
  t.runs && !t.stopping && !(t.role r).ended && (match t.handling with
    | some h => decide (h = r)
    | .none => true)

/-- What the current thread waited for has come: its word is looked at again; an issued vector instruction goes on at once, with no
second arbitration (R92). (DEDUCED, log entry 53.) -/
def State.goOn (s : State) : State :=
  let t := s.modTh fun r => { r with stall := none }
  if s.th.word.any fun w => vectorOp (wordOp w).toNat then { t with agenda := .run s.cur :: s.agenda } else t

/-- RING_WAIT_RELEASE: the current thread's instruction goes on once each of its rings has an entry to read or room to write;
where the other role of a ring that it waits for has ended it traps BARRIER (R91). -/
def execRingWaitRelease (s : State) : Answer :=
  .next (match s.th.stall with
    | some (.ring reads write) =>
      if s.ringBlock reads write then s.trapOrphans else s.modTh fun r => { r with stall := none }
    | _ => s)

/-- VECTOR_INSTRUCTION_COMPLETE: a vector instruction of the current thread whose remote data has arrived completes and
merges its events, in the step that follows (R57, R191). -/
def execVectorInstructionComplete (s : State) : Answer :=
  .next (match s.th.stall with
    | some .remote => if s.th.want.isEmpty then s.goOn else s
    | _ => s)

/-! VP mode. -/

/-- What a word is in VP mode (R73). -/
inductive VpUse
  | forbidden
  | plain
  | branch (f : FmtJ)
  | arith (op : AOp) (f : FmtV)
  | bits (f : FmtV) (n : Nat)
  | cmp (f : FmtV)
  | cvt (f : FmtV)
  deriving DecidableEq, Repr

/-- The permitted words of VP mode: 0x52 to 0x76, 0x7B, 0x90, VPBR, VJOIN and NOP (R73). -/
def vpUse : Instr → VpUse
  | .vadd f => .arith .add f
  | .vsub f => .arith .sub f
  | .vmul f => .arith .mul f
  | .vmulh f => .arith .mulh f
  | .vdiv f => .arith .div f
  | .vrem f => .arith .rem f
  | .vmin f => .arith .min f
  | .vmax f => .arith .max f
  | .vabs f => .arith .abs f
  | .vneg f => .arith .neg f
  | .vfma f => .arith .fma f
  | .vfms f => .arith .fms f
  | .vfnma f => .arith .fnma f
  | .vfnms f => .arith .fnms f
  | .vsqrt f => .arith .sqrt f
  | .vrsqrt f => .arith .rsqrt f
  | .vrcp f => .arith .rcp f
  | .vavg f => .arith .avg f
  | .vclamp f => .arith .clamp f
  | .vscalb f => .arith .scalb f
  | .vlogb f => .arith .logb f
  | .vclass f => .arith .class f
  | .vand f | .vor f | .vxor f | .vandn f | .vshl f | .vshr f | .vsra f | .vrotl f => .bits f 2
  | .vnot f | .vclz f | .vpopc f | .vbrev f | .vmov f => .bits f 1
  | .vcmp f => .cmp f
  | .vsel f => .bits f 3
  | .vmerge f => .bits f 2
  | .vcvt f => .cvt f
  | .vpbr f => .branch f
  | .vjoin _ | .nop _ => .plain
  | _ => .forbidden

/-- The format-V fields of a word in VP mode. -/
def VpUse.fmtV : VpUse → Option FmtV
  | .arith _ f | .bits f _ | .cmp f | .cvt f => some f
  | _ => none

/-- The decode check of a word in VP mode: ILLOP for a forbidden opcode, ILLOPND for another mask than m0, a ring flag, or a
register outside the computer partition (R73 to R76, R89). -/
def vpDecode (s : State) (w : Word) : Option Nat :=
  match decode w with
  | .error _ => some cILLOP
  | .ok i =>
    let cfg := s.vec.cfg
    let fine : Option Bool := match vpUse i with
      | .forbidden => none
      | .plain => some true
      | .branch f => some (inPart cfg .computer f.xa.toNat 1 && inPart cfg .computer f.xb.toNat 1)
      | .arith op f => some (elemDecode cfg .computer f op.nsrc)
      | .bits f n => some (vDecode cfg .computer f.g [vField f.qd f.vd f.g] (vFields f n))
      | .cmp f => some (cmpDecode cfg .computer f)
      | .cvt f => some (elemDecode cfg .computer f 1)
    match fine with
    | none => some cILLOP
    | some ok => if ok && ((vpUse i).fmtV.all fun f => f.m == 0#4 && f.q == 0#4) then none else some cILLOPND

/-- The dispatch check of a word in VP mode: its legend, and every operand width equal to EW (R93, R157). -/
def vpDispatch (s : State) (ew : Nat) (w : Word) : Bool :=
  match decode w with
  | .error _ => false
  | .ok i => match vpUse i with
    | .forbidden => false
    | .plain | .branch _ => true
    | .arith op f => (s.arithLg op f).any fun l => (op.widths l).all (· == ew)
    | .bits f _ => tw f.t == ew
    | .cmp f => (s.cmpLg f).any fun l => l.fa.width == ew && l.fb.width == ew
    | .cvt f => (s.cvtLg f).any fun l => l.fa.width == ew && l.fd.width == ew && (l.scm == 0 || l.scm == 2)

/-- The first word of a block that fails a check of R73 at decode, then of R93 at dispatch: class, SUB and address.
(DEDUCED, log entry 15.) -/
def vpBlockDecode (s : State) (base : Word) (ws : List Word) : Option (Nat × Nat × Word) :=
  (ws.zipIdx.filterMap fun p => (vpDecode s p.1).map fun c => (c, 0, base + BitVec.ofNat 64 (8 * p.2))).head?

def vpBlockDispatch (s : State) (ew : Nat) (base : Word) (ws : List Word) : Option (Nat × Nat × Word) :=
  (ws.zipIdx.filterMap fun p =>
    if vpDispatch s ew p.1 then none else some (cILLOPND, 1, base + BitVec.ofNat 64 (8 * p.2))).head?

/-- EW in bits (R93). -/
def ewBits (f : FmtJ) : Nat := 8 * 2 ^ f.cond.toNat

/-- The VPs of a VFETCH as it starts (R93). (DEDUCED, log entry 15.) -/
def vpStart (ew : Nat) (vps : List Nat) (target sn : Word) (ws : List Word) : VpState :=
  { ew := ew, total := vps.length, vps := vps.map fun e => (e, ⟨target, true, 0⟩), held := 0, hix := Evs.none.ix,
    blocks := [(target.toNat, ws)], cohort := none, sn := sn, lastVp := 2 ^ 15 }

/-- VFETCH (R93); with CONT it goes on with the VPs that were kept (R95, R354). (DEDUCED, log entry 15.) -/
def execVfetch (f : FmtJ) (s : State) : Answer :=
  let t := s.target f
  let going := (s.th.resume.any fun r => r.cont) && s.vec.vp.isSome
  .next (if s.cur.role ≠ .computer then s.trapDecode
    else if (s.th.resume.any fun r => r.cont) && !s.ownsVec then s.trap cVSWITCH 0 0 0
    else if going then s.stallOn (.vfetch f)
    else if !blockAligned t then s.trapAlign t 0
    else match fetchBlock s t with
      | (.wait, s) => s.stallOn .remote
      | (.trap cls sub, s) => s.trap cls sub 0 t
      | (.ok ws, s) =>
        let ew := ewBits f
        let vps := s.vec.active f.xa.toNat s.th.vl
        match vpBlockDecode s t ws with
        | some (c, sub, a) => s.trap c sub 0 a
        | none =>
          if !s.ownsVec then s.trap cVSWITCH 0 0 0
          else if !s.vlOk ew then s.trapDispatch
          else match vpBlockDispatch s ew t ws with
            | some (c, sub, a) => s.trap c sub 0 a
            | none =>
              if vps.isEmpty then ((s.setX f.xb 0).bumpSn 1).advance
              else
                let sn := s.tr.sn
                ((s.modVec fun v => { v with vp := some (vpStart ew vps t sn ws) }).modTh fun r =>
                  { r with rbuf := [], want := [] }).stallOn (.vfetch f))

/-- The live VPs of a VFETCH. -/
def VpState.liveVps (v : VpState) : List Nat := (v.vps.filter (·.2.live)).map (·.1)

/-- The live VP whose cohort issues next: the one after the VP served last, around to the lowest. Each live VP is so served
within as many cohort issues as there are live VPs (R94). (DEDUCED, log entry 15.) -/
def VpState.nextVp (v : VpState) : Option Nat :=
  (v.liveVps.find? fun e => decide (v.lastVp < e)) <|> v.liveVps.head?

/-- The pc of the cohort that issues next. -/
def VpState.nextPc (v : VpState) : Option Word := v.nextVp.map fun e => (tget ⟨0, false, 0⟩ e v.vps).pc

/-- The word of a VFETCH at a pc, when its block has been entered and holds it (R93, R94). -/
def VpState.wordAt (v : VpState) (pc : Word) : Option Word :=
  (tget [] (blockOf pc).toNat v.blocks)[(pc - blockOf pc).toNat / 8]?

/-- VP_COHORT_ISSUE: a cohort of the current thread's VFETCH is chosen, its block checked at the first entry, and its word
runs next (R73, R92 to R94). (DEDUCED, log entry 15.) -/
def execVpCohortIssue (s : State) : Answer :=
  .next (match s.cur.role, s.th.stall, s.vec.vp with
    | .computer, some (.vfetch _), some v =>
      match v.cohort, v.nextPc with
      | none, some pc =>
        let base := blockOf pc
        let setVp (w : VpState) : State := s.modVec fun c => { c with vp := some w }
        if (v.wordAt pc).isSome then setVp { v with cohort := some pc, lastVp := v.nextVp.getD 0 }
        else if (tfind base.toNat v.blocks).isSome then setVp (v.issued pc (fun _ => some (nextBlock pc)) false Evs.none)
        else match fetchBlock s base with
          | (.wait, s) => s
          | (.trap cls sub, s) => s.trapVp { cls := cls, sub := sub, faddr := base }
          | (.ok ws, s) =>
            match vpBlockDecode s base ws <|> vpBlockDispatch s v.ew base ws with
            | some (c, sub, a) => s.trapVp { cls := c, sub := sub, faddr := a }
            | none =>
              (s.modVec fun c => { c with vp := c.vp.map fun v => { v with blocks := tset base.toNat ws v.blocks } }).modTh
                fun r => { r with rbuf := [], want := [] }
      | _, _ => s
    | _, _, _ => s)

/-- VFETCH_COMPLETE: no VP of the current thread's VFETCH lives; the count is written, the events merge, SN advances (R93,
R50, R57, R59). -/
def execVfetchComplete (s : State) : Answer :=
  .next (match s.cur.role, s.th.stall, s.vec.vp with
    | .computer, some (.vfetch f), some v =>
      if v.cohort.isSome || !v.liveVps.isEmpty then s
      else
        let e := s.heldEvs.join ⟨v.held, v.hix⟩
        (((s.modVec fun c => { c with vp := none }).setX f.xb (BitVec.ofNat 64 v.total)).bumpSn 1).finish e
    | _, _, _ => s)

/-- The word in VP mode goes on for each VP of its cohort. -/
def State.vpGo (s : State) (v : VpState) (pc : Word) (dest : Nat → Option Word) : State :=
  s.modVec fun c => { c with vp := some (v.issued pc dest false Evs.none) }

/-- NOP (R126); in VP mode the cohort goes on (R73). -/
def execNop (_ : FmtY) (s : State) : Answer :=
  .next (match s.vpNow with
    | some (v, pc) => s.vpGo v pc fun _ => some (v.next pc)
    | none => s.advance)

/-- VPBR: each VP of the cohort goes where its own comparison says; outside VP mode it traps ILLOP (R96, R73). (DEDUCED, log entry 15.) -/
def execVpbr (f : FmtJ) (s : State) : Answer :=
  .next (match s.vpNow with
    | none => s.trapIllop
    | some (v, pc) =>
      let t := pc + dispBytes f.disp40
      if !blockAligned t then s.trapVp { cls := cALIGN, faddr := t }
      else
        let c := s.vec
        let bad (k : BitVec 6) (e : Nat) : Bool := c.opPois (.reg k.toNat) 0 (egOf v.ew e)
        match (if f.cond = 6#3 then none else (v.at pc).find? fun e => bad f.xa e || bad f.xb e) with
        | some e => s.trapPoison (if bad f.xa e then f.xa.toNat else f.xb.toNat) e
        | none => s.vpGo v pc fun e =>
          some (if condHolds f.cond.toNat v.ew (elemAt (c.reg f.xa.toNat) v.ew e) (elemAt (c.reg f.xb.toNat) v.ew e)
            then t else v.next pc))

/-- VJOIN: the VPs of the cohort end; outside VP mode it traps ILLOP (R97, R73). -/
def execVjoin (_ : FmtY) (s : State) : Answer :=
  .next (match s.vpNow with
    | none => s.trapIllop
    | some (v, pc) => s.vpGo v pc fun _ => none)

end Sys2Proof.Machine
end

