-- ==== Sys2Proof/Machine/Vmem.lean ====
section
/-! DEFINITION. How a vector memory instruction runs: element addresses, the checks of step 5 of R180, batched page faults
(R282, R283), and the reading and writing of elements (R177 to R181, R191, R289). -/

namespace Sys2Proof.Machine

/-- One indivisible part of a vector memory instruction: the active elements it stands for, and the naturally aligned
accesses it makes, each with its size. -/
structure MOp where
  es : List Nat
  subs : List (Word × Nat)
  deriving DecidableEq, Repr

/-- A part with where each of its accesses goes. -/
structure Placed where
  es : List Nat
  subs : List (Word × Nat × Loc)
  deriving DecidableEq, Repr

def Loc.isFault : Loc → Bool
  | .fault _ => true
  | _ => false

def Placed.faulted (p : Placed) : Bool := p.subs.any (·.2.2.isFault)

/-- Where each access goes, before any is made. -/
def locateSubs (core : Nat) (c : Cred) (acc : Acc) : List (Word × Nat) → State → List (Word × Nat × Loc) × State
  | [], s => ([], s)
  | (a, n) :: t, s =>
    let r := locate s core c a acc false
    let u := locateSubs core c acc t r.2
    ((a, n, r.1) :: u.1, u.2)

/-- The same for every part. -/
def locateOps (core : Nat) (c : Cred) (acc : Acc) : List MOp → State → List Placed × State
  | [], s => ([], s)
  | p :: t, s =>
    let r := locateSubs core c acc p.subs s
    let u := locateOps core c acc t r.2
    (⟨p.es, r.1⟩ :: u.1, u.2)

/-- What step 5 of R180 finds wrong with an address: misaligned (none) or a cause of R276. -/
def subBad (s : State) (tag : Nat) (x : Word × Nat) : Option (Option Nat) :=
  if x.1.toNat % x.2 ≠ 0 then some none
  else match classify x.1 with
    | .noncanon => some (some 5)
    | .atlas t => if atlasFault s tag t then some (some 7) else none
    | .virt _ => none

/-- The page fault of a batch (R282): count and first 16 of the distinct 64 KiB granules, with the cause of the lowest
element of each. -/
def batchPost (s : State) (bad : List Placed) : TrapPost :=
  let subs := bad.flatMap fun p => p.subs.filterMap fun x =>
    match x.2.2 with
    | .fault c => some (x.1.toNat / 65536 * 65536, c, x.1)
    | _ => none
  let pages := subs.foldl (fun (acc : List (Nat × Nat)) x =>
    if acc.any (fun p => p.1 == x.1) then acc else acc ++ [(x.1, x.2.1)]) []
  let first := subs.headD (0, 0, 0)
  { cls := cPGFAULT, sub := first.2.1, elem := ((bad.headD ⟨[], []⟩).es).headD 0, faddr := first.2.2,
    npage := pages.length, pages := pages.take 16, resume := s.th.pc, reissue := true }

/-! Windows (R175, R180). -/

/-- A window's share of one EG, which a lane group performs whole: its lane group, the EG, the first element that it stands for,
and its parts. -/
structure Window where
  lane : Nat
  eg : Nat
  first : Nat
  parts : List Placed
  deriving DecidableEq, Repr

/-- How the accesses of an instruction are performed: its kind of access, the element width, the number of lane groups, whether
its elements are performed in order (R244), whether it is performed whole, and whether its remote lines are one unit (R250). -/
structure Manner where
  acc : Acc
  w : Nat
  lanes : Nat
  ordered : Bool
  whole : Bool := false
  unit : Bool := false
  deriving DecidableEq, Repr

/-- The windows of parts in element order: for each EG and each 64 elements one, taken in element order by one lane group where
the elements are performed in order; the whole instruction where it is performed whole (R130, R175, R244). -/
def windowsOf (m : Manner) : List Placed → List Window
  | [] => []
  | p :: t =>
    let e := p.es.headD 0
    let g := egOf m.w e
    let first := e / 64 * 64
    let lane := if m.ordered || m.whole then 0 else g % m.lanes
    match windowsOf m t with
    | [] => [⟨lane, g, first, [p]⟩]
    | u :: us => if m.whole || (u.eg == g && u.first == first) then { u with eg := g, first := first, parts := p :: u.parts } :: us
      else ⟨lane, g, first, [p]⟩ :: u :: us

def Window.faulted (u : Window) : Bool := u.parts.any Placed.faulted

/-- Where the data of an access stands in the buffer when elements are performed in order (R244). -/
def accKey (p : Placed) (k : Nat) : Nat := 2 ^ 60 + 1024 * p.es.headD 0 + k

/-- The accesses of parts, each with its place in the buffer. -/
def accesses (ps : List Placed) : List (Nat × Nat × Loc) := ps.flatMap fun p => p.subs.zipIdx.map fun x => (accKey p x.2, x.1.2)

/-- The remote lines that parts read. -/
def farLines (ps : List Placed) : List (Nat × Nat) := ps.flatMap fun p => p.subs.filterMap fun x => match x.2.2 with
  | .far pa key => some (pa, key)
  | _ => none

/-- The flits that the stores or atomics of parts put into the replay buffer: to other chips, and to the replica (R375). -/
def flitsFor (s : State) (m : Manner) (ps : List Placed) : Nat :=
  (ps.flatMap fun p => p.subs.map fun x => match x.2.2 with
    | .far _ _ => if m.acc = .rmw then atomicFlits else writeFlits x.2.1
    | .here pa _ _ => forwardFlits s pa x.2.1
    | _ => 0).sum

/-- What parts must wait for before they are performed: a watermark, remote data, or room for `used` flits and their own
(R229, R191, R375); an atomic also waits for the swap mark of a home that was taken over (R381). -/
def waitFor (s : State) (m : Manner) (far : Bool) (used : Nat) (ps : List Placed) : Option Stall :=
  let held := ps.any fun p => p.subs.any fun x => match x.2.2 with
    | .here pa _ _ => markHolds s pa x.2.1
    | _ => false
  let here := if m.ordered && far then (accesses ps).all fun a => (tfind a.1 s.th.rbuf).isSome
    else linesHere s s.cur ((farLines ps).map (·.1))
  let need := used + flitsFor s m ps
  let taken := m.acc == .rmw && (farLines ps).any fun l => smem (lcnOf l.1) s.fab.awaited
  if held then some .watermark
  else if m.acc = .ld then (if here then none else some .remote)
  else if need = 0 || (replayRoom s need && !taken) then none else some (.replay need)

/-- How many windows a lane group performs in this step (R130). (DESIGN CHOICE, log entry 86.) -/
def slipOf (slip : Option Word) (first lane : Nat) : Option Nat :=
  slip.map fun v => nbits v.toNat (2 * (lane % 32)) 2 + if lane = first then 1 else 0

/-- The windows as they are gone through: performed, left over, flits used, and the lane groups that go no further with what
each waits for (none: a fault). -/
structure Gone where
  perf : List Window
  rest : List Window
  used : Nat
  count : Tbl Nat
  stopped : Tbl (Option Stall)
  deriving DecidableEq, Repr

/-- One window in its turn. -/
def goWindow (s : State) (m : Manner) (far : Bool) (slip : Nat → Option Nat) (g : Gone) (u : Window) : Gone :=
  let stop (why : Option Stall) : Gone := { g with rest := g.rest ++ [u], stopped := tset u.lane why g.stopped }
  if (tfind u.lane g.stopped).isSome then { g with rest := g.rest ++ [u] }
  else if u.faulted then stop none
  else if (slip u.lane).any fun k => decide (k ≤ tget 0 u.lane g.count) then stop (some .windows)
  else match waitFor s m far g.used u.parts with
    | some w => stop (some w)
    | none => { g with perf := g.perf ++ [u], used := g.used + flitsFor s m u.parts,
                       count := tset u.lane (tget 0 u.lane g.count + 1) g.count }

/-- Each lane group's windows in increasing order, up to one that must wait or has a fault (R180, R348). -/
def goWindows (s : State) (m : Manner) (far : Bool) (us : List Window) : Gone :=
  us.foldl (goWindow s m far (slipOf s.slip ((us.head?.map (·.lane)).getD 0))) ⟨[], [], 0, [], []⟩

/-- The counters of lane groups that have all windows behind them but those left: element positions of the executed EGs (R355). -/
def countersOf (m : Manner) (egs : List Nat) (rest : List Window) : List Nat :=
  (nrange 0 32).map fun lane =>
    let mine := egs.filter fun g => g % m.lanes == lane
    let size := 2048 / m.w
    match rest.find? fun u => u.eg % m.lanes == lane with
    | some u => (mine.filter fun g => decide (g < u.eg)).length * size + (u.first - u.eg * size)
    | none => if lane < m.lanes then mine.length * size else 0

/-- The counters after a batched fault: the positions of the executed EGs but the elements left (R137, R282).
(DEDUCED, log entry 26.) -/
def countersBut (m : Manner) (egs left : List Nat) : List Nat :=
  (nrange 0 32).map fun lane =>
    (egs.filter fun g => g % m.lanes == lane).length * (2048 / m.w) -
      (left.filter fun e => egOf m.w e % m.lanes == lane).length

/-- How far an instruction has come once the parts at hand are performed. -/
inductive Finish
  /-- it is done, but for a page fault to report, with the elements that go to m15 -/
  | done (post : Option (TrapPost × List Nat))
  /-- it waits, with the counters of its lane groups -/
  | more (cnt : List Nat) (wait : Stall)
  deriving DecidableEq, Repr

/-- What is to be performed now. -/
inductive Plan
  /-- the instruction ended, or waits with nothing performed -/
  | stop (s : State)
  /-- parts to perform, what comes then, and whether their data stands in the buffer by `accKey` (R244) -/
  | ready (perf : List Placed) (fin : Finish) (kept : Bool) (s : State)
  deriving DecidableEq, Repr

/-- The parts that a batched fault lets be performed, and those that go to m15 (R282, R283). -/
def Manner.clear (m : Manner) (ps : List Placed) : List Placed :=
  if m.ordered then ps.takeWhile (fun p => !p.faulted) else ps.filter fun p => !p.faulted
def Manner.behind (m : Manner) (ps : List Placed) : List Placed :=
  if m.ordered then ps.dropWhile (fun p => !p.faulted) else ps.filter Placed.faulted

/-- The state that waits with nothing more performed, or the parts to perform before it waits. -/
def planMore (s : State) (kept : Bool) (perf : List Window) (cnt : List Nat) (wait : Stall) : Plan :=
  if perf.isEmpty then .stop (s.stallOn wait) else .ready (perf.flatMap (·.parts)) (.more cnt wait) kept s

/-- What stands first among the waits of lane groups. -/
def firstWait (ws : Tbl (Option Stall)) : Option Stall :=
  let l := ws.filterMap (·.2)
  if l.contains .windows then some .windows else l.head?

/-- The accesses of elements performed in order: each in its turn is read, or its line asked for, up to the
first one that must wait or has a fault (R244). (DEDUCED, log entry 9.) -/
def readInOrder : List (Nat × Nat × Loc) → State → State
  | [], s => s
  | (key, n, l) :: t, s =>
    if (tfind key s.th.rbuf).isSome then readInOrder t s
    else match l with
      | .fault _ => s
      | .denied _ => readInOrder t (s.modTh fun r => { r with rbuf := tset key ⟨List.replicate n 0, false⟩ r.rbuf })
      | .here pa k _ =>
        if markHolds s pa n then s
        else readInOrder t (s.modTh fun r => { r with rbuf := tset key ⟨physRead s pa n k, physQuality s pa n != .clean⟩ r.rbuf })
      | .far pa k =>
        let s := askRun s s.cur s.tr.tag pa k 1 key
        if (tfind key s.th.rbuf).isSome then readInOrder t s else s

/-- The remote data that parts need is asked for (R191, R244, R250). -/
def askFor (s : State) (m : Manner) (far : Bool) (ps : List Placed) : State :=
  if m.acc ≠ .ld || !far then s
  else if m.ordered then readInOrder (accesses ps) s
  else askLines s s.cur s.tr.tag (farLines (ps.filter fun p => !p.faulted)) m.unit

/-- Steps 5 and 6 of R180 up to the accesses: alignment and atlas faults trap; each lane group goes through its windows up to one
that waits for a watermark, for remote data or for replay room; translation faults are set aside until every other element is
performed (R282, R283). `egs` are the executed EGs. (DEDUCED, log entries 9, 22, 26; DESIGN CHOICE, log entry 86.) -/
def State.vPlan (s : State) (m : Manner) (egs : List Nat) (ops : List MOp) : Plan :=
  let t := s.tr
  match ops.findSome? fun p => p.subs.findSome? fun x => (subBad s t.tag x).map fun b => (p.es.headD 0, x.1, b) with
  | some (e, a, none) => .stop (s.trapAlign a e)
  | some (e, a, some c) => .stop (s.trapPage c a e)
  | none =>
    let r := locateOps t.core s.cred m.acc ops s
    let far := !(farLines r.1).isEmpty
    let kept := m.ordered && far
    let s := askFor r.2 m far r.1
    let g := if m.whole then goWindows s m far (windowsOf m (m.clear r.1)) else goWindows s m far (windowsOf m r.1)
    let cnt := countersOf m egs g.rest
    match firstWait g.stopped with
    | some w => planMore s kept g.perf cnt w
    | none =>
      let rest := if m.whole then m.behind r.1 else g.rest.flatMap (·.parts)
      let now := g.perf.flatMap (·.parts)
      if rest.isEmpty then .ready now (.done none) kept s
      else
        let good := if m.whole then [] else m.clear rest
        let bad := if m.whole then rest else m.behind rest
        let left := bad.flatMap (·.es)
        match waitFor s m far g.used good with
        | some w => planMore s kept g.perf cnt w
        | none =>
          let post := batchPost s (if m.ordered then bad.take 1 else bad)
          .ready (now ++ good) (.done (some ({ post with cnt := countersBut m egs left }, left))) kept s

/-- An access touches its line: a migrating page's line is pulled when it is absent (R286). (DEDUCED, log entry 9.) -/
def State.touch (s : State) (acc : Acc) (a : Word) : State :=
  match classify a with
  | .virt va => if (s.core s.tr.core).tlb.any (fun t => entMig t.ent.toNat == 1) then
      (translate s s.tr.core s.cred va acc true).2 else s
  | _ => s

/-- The state with the (kind, frame) pairs that the instruction has logged (R291), and whether the data of loads stands in the
buffer by `accKey` (R244). -/
structure Logged where
  s : State
  seen : List (Nat × Nat)
  kept : Bool := false
  deriving DecidableEq, Repr

/-- The accesses of the current instruction begin, or go on after a wait. -/
def State.logging (s : State) (kept : Bool := false) : Logged := ⟨s, s.th.logged, kept⟩

/-- A denied element access (R289, R291). -/
def Logged.deny (l : Logged) (kind frame : Nat) : Logged :=
  let r := denyOnce (l.s.orVstat l.s.cur.ctxn vstatDeny) l.s.cur kind frame l.seen
  { l with s := r.1, seen := r.2 }

/-- The state with a line touched. -/
def Logged.touch (l : Logged) (acc : Acc) (a : Word) : Logged := { l with s := l.s.touch acc a }

/-- One load access: its value and whether it is poisoned; `key` names its place in the buffer (R180, R244, R286, R289, R377). -/
def loadSub (key : Nat) (l : Logged) (x : Word × Nat × Loc) : (Nat × Bool) × Logged :=
  match x.2.2, if l.kept then tfind key l.s.th.rbuf else none with
  | .fault _, _ => ((0, false), l)
  | .denied f, _ => ((0, false), (l.touch .ld x.1).deny kLoad f)
  | .far pa _, some r => ((bytesNat ((r.data.drop (pa % 64)).take x.2.1), r.pois), l)
  | .far pa _, none => ((bytesNat (farRead l.s l.s.cur pa x.2.1), farPoisoned l.s l.s.cur pa x.2.1), l)
  | .here _ _ _, some r => ((bytesNat r.data, r.pois), l)
  | .here pa key _, none =>
    let l := l.touch .ld x.1
    ((physNat l.s pa x.2.1 key, physQuality l.s pa x.2.1 != .clean), l)

/-- The load accesses of a part, from one number on. -/
def loadSubs (p : Placed) : Nat → List (Word × Nat × Loc) → Logged → List (Nat × Bool) × Logged
  | _, [], l => ([], l)
  | k, x :: t, l =>
    let r := loadSub (accKey p k) l x
    let u := loadSubs p (k + 1) t r.2
    (r.1 :: u.1, u.2)

/-- The load accesses of every part, in element order. (DESIGN CHOICE, log entry 8.) -/
def loadOps : List Placed → Logged → List (List Nat × List (Nat × Bool)) × Logged
  | [], l => ([], l)
  | p :: t, l =>
    let r := loadSubs p 0 p.subs l
    let u := loadOps t r.2
    ((p.es, r.1) :: u.1, u.2)

/-- One store access; `more` says that its unit goes on (R180, R250, R289, R296, R375). -/
def storeSub (stream : Nat) (more : Bool) (l : Logged) (x : Word × Nat × Loc) (v : Nat) : Logged :=
  let bs := natBytes x.2.1 v
  match x.2.2 with
  | .fault _ => l
  | .denied f => (l.touch .st x.1).deny kStore f
  | .far pa key => { l with s := sendWrite l.s (some l.s.cur) stream l.s.tr.tag pa key bs false more }
  | .here pa key f =>
    let l := l.touch .st x.1
    if inSealed l.s pa x.2.1 then l.deny kStore f else { l with s := physWrite l.s pa bs key }

/-- The store accesses of a part. As one unit, each that another of the same chip follows says so (R250). -/
def storeSubs (stream : Nat) (unit : Bool) (val : Nat → Nat) : Nat → List (Word × Nat × Loc) → Logged → Logged
  | _, [], l => l
  | k, x :: t, l =>
    let more := unit && t.any fun y => match x.2.2, y.2.2 with
      | .far a _, .far b _ => lcnOf a == lcnOf b
      | _, _ => false
    storeSubs stream unit val (k + 1) t (storeSub stream more l x (val k))

/-- The bytes of consecutive remote places from an address on, when parts of one access each fill whole lines of one chip under
one key (R370, R419). -/
def wholeRun (val : List Nat → Nat) (ps : List Placed) : Option (Nat × Nat × List Byte) :=
  match ps with
  | ⟨_, [(_, n, .far pa key)]⟩ :: _ =>
    let fits := ps.zipIdx.all fun p => match p.1.subs with
      | [(_, m, .far a k)] => m == n && k == key && a == pa + p.2 * n
      | _ => false
    if fits && pa % 64 == 0 && (ps.length * n) % 64 == 0 && decide (ps.length * n ≤ 4096) then
      some (pa, key, (ps.map fun p => natBytes n (val p.es)).flatten)
    else none
  | _ => none

/-- The store accesses of parts in element order, so that the higher element prevails (R181). `val` gives the value of access k of
a part; `unit` says that a part is one unit (R250). (DESIGN CHOICE, log entry 8.) -/
def storeOps (stream : Nat) (unit : Bool) (val : List Nat → Nat → Nat) : List Placed → Logged → Logged
  | [], l => l
  | p :: t, l => storeOps stream unit val t (storeSubs stream unit (val p.es) 0 p.subs l)

/-- Parts in runs of one EG and window each. -/
def runsOf (m : Manner) (ps : List Placed) : List (List Placed) := (windowsOf { m with whole := false } ps).map (·.parts)

/-- The store accesses of windows: one that fills whole lines of another chip is one write (R370, R419). (DEDUCED, log entry 11.) -/
def storeWindows (m : Manner) (stream : Nat) (val : List Nat → Nat → Nat) (ps : List Placed) (l : Logged) : Logged :=
  (runsOf m ps).foldl (fun l run => match wholeRun (fun es => val es 0) run with
    | some (pa, key, bs) => { l with s := sendWrite l.s (some l.s.cur) stream l.s.tr.tag pa key bs false }
    | none => storeOps stream m.unit val run l) l

/-- Conversion on the fill path from sw to dw bytes under S (R67, R179). -/
def fillConv (sw dw : Nat) (sgn : Bool) (v : Nat) : Nat × Ev :=
  if sw < dw then (if sgn then wrapInt (8 * dw) (sextNat (8 * sw) v) else v % 2 ^ (8 * sw), 0)
  else if dw < sw ∧ sgn then
    let i := sextNat (8 * sw) v
    let hi : Int := ((2 ^ (8 * dw - 1) : Nat) : Int) - 1
    let lo : Int := -((2 ^ (8 * dw - 1) : Nat) : Int)
    (wrapInt (8 * dw) (max lo (min hi i)), if i < lo ∨ hi < i then evSAT else 0)
  else (v % 2 ^ (8 * dw), 0)

/-! Which elements run. -/

/-- The mask that governs: m15 in a reissue after a page fault, else the one named (R283). -/
def State.memMask (s : State) (m : BitVec 4) : Nat :=
  match s.th.resume with
  | some r => if r.reissue then 15 else m.toNat
  | none => m.toNat

/-- Whether a continued instruction had completed element e before its stop: its place among the executed EGs of its lane
lies below the lane's counter (R355). -/
def beforeStop (slabs w : Nat) (egs cnt : List Nat) (e : Nat) : Bool :=
  let g := egOf w e
  let lanes := 8 * slabs
  let earlier := (egs.filter fun h => decide (h < g) && h % lanes == g % lanes).length
  decide (earlier * (2048 / w) + e % (2048 / w) < cnt.getD (g % lanes) 0)

/-- The elements that a vector memory instruction of width W performs: the active ones, those aside that a continued
instruction completed before (R133, R283, R355). -/
def State.memActive (s : State) (m : BitVec 4) (w : Nat) : List Nat :=
  let act := s.vec.active (s.memMask m) s.th.vl
  match s.th.resume with
  | some r =>
    if r.cont then
      let egs := ldedup (act.map (egOf w))
      act.filter fun e => !beforeStop (s.bound s.tr.core) w egs r.cnt e
    else act
  | none => act

/-- The lowest active element, and its operand, that lies in a poisoned EG (step 4 of R180); `ops` gives for an element the
registers it reads with their element widths and EG-relative register index. -/
def State.poisonAt (s : State) (act : List Nat) (ops : List (Opnd × Nat × Nat)) : Option (Nat × Nat) :=
  act.findSome? fun e => (ops.find? fun o => s.vec.opPois o.1 o.2.2 (egOf o.2.1 e)).map fun o => (o.1.unit o.2.2, e)

/-! The ends. -/

/-- A ring's last entry is written by an instruction: a new entry, or the one that it holds from before a stop (R91). -/
def VecState.putLast (v : VecState) (q w : Nat) (rs : List Put) (resumed open_ : Bool) : VecState :=
  let l := v.ring q
  match l.getLast? with
  | some e =>
    if resumed && e.open_ then
      v.setRing q (l.dropLast ++ [⟨putBits e.bits w rs, putPois (fun g => g) e.pois w rs, open_⟩])
    else v.setRing q (l ++ [{ ringEntry w rs with open_ := open_ }])
  | none => v.setRing q [{ ringEntry w rs with open_ := open_ }]

/-- Results of a load to a register or a ring. (DEDUCED, log entry 20.) -/
def VecState.putLoad (v : VecState) (o : Opnd) (j w : Nat) (rs : List Put) (resumed faulted : Bool) : VecState :=
  match o with
  | .reg k => v.putReg (k + j) w rs
  | .ring q => v.putLast q w rs resumed faulted

/-- Bits of m15 after a batched fault (R282). -/
def VecState.setM15 (v : VecState) (vl : Nat) (left : List Nat) : VecState :=
  v.putMask 15 ((nrange 0 vl).map fun e => (e, left.contains e))

/-- The end of a vector memory instruction, or of a part of it: complete; a batched page fault with its events held (R282, R283);
or a wait, with the counters and the events of what is performed (R354, R355). (DEDUCED, log entry 26.) -/
def State.memEnd (l : Logged) (fin : Finish) (reads : List Opnd) (e : Evs) : State :=
  let s := l.s
  match fin with
  | .done none => (s.modVec fun v => v.popRings (ringsOf reads)).vFinish false e
  | .done (some (p, left)) =>
    let h := s.heldEvs.join e
    (s.modVec fun v => v.setM15 s.th.vl left).raise { p with held := h.ev, hix := h.ix }
  | .more cnt wait =>
    let h := s.heldEvs.join e
    (s.modTh fun r => { r with
      resume := some ⟨true, (r.resume.map (·.reissue)).getD false, cnt, h.ev, h.ix, 0, false⟩, logged := l.seen }).stallOn wait

/-- Whether an instruction will go on after a wait or a page fault. -/
def Finish.open : Finish → Bool
  | .done none => false
  | _ => true

/-! Issue. -/

/-- Steps 1 to 3 of R180: scope, registers and rings; then vector ownership, VL and what the entry rejects. -/
def State.memIssue (s : State) (f : FmtM) (dec : Bool) (w : Nat) (disp : Bool) (dsts srcs : List VField)
    (reads writes : List Opnd) (go : State → State) : State :=
  s.vIssue (!scopeBank f.scope.toNat && dec && vDecode s.vec.cfg s.cur.role 1 dsts srcs) (disp && s.vlOk w) reads writes go

/-- `x[xbase] + sext(imm16)` (R182). -/
def State.memBase (s : State) (f : FmtM) : Word := s.x f.xbase + sext16 f.imm16

def wmBytes (f : FmtM) : Nat := 2 ^ segWm f
def wrBytes (f : FmtM) : Nat := 2 ^ segWr f

/-- The manner of a word of format M: element width, order and kind of access. -/
def State.manner (s : State) (f : FmtM) (acc : Acc) (w : Nat) : Manner := ⟨acc, w, 8 * s.bound s.tr.core, f.o == 1#1, false, false⟩

/-- The executed EGs of a vector memory instruction (R135, R355). -/
def State.execEgs (s : State) (m : BitVec 4) (w : Nat) : List Nat :=
  ldedup ((s.vec.active (s.memMask m) s.th.vl).map (egOf w))

/-- A load of NF fields to a register set or a ring; w is the width of its data elements, wf that of its frame
(R182, R183, R186). -/
def State.memLoad (s : State) (f : FmtM) (dst : Opnd) (nf w wf : Nat) (act : List Nat) (addr : Nat → Word) : State :=
  let n := wmBytes f
  match s.vPlan (s.manner f .ld wf) (s.execEgs f.m wf)
      (act.map fun e => ⟨[e], (nrange 0 nf).map fun k => (addr e + BitVec.ofNat 64 (k * n), n)⟩) with
  | .stop s => s
  | .ready perf fin kept s =>
    let r := loadOps perf (s.logging kept)
    let vals := r.1.map fun p => (p.1.headD 0, p.2.map fun v => ((fillConv n (wrBytes f) (segS f) v.1), v.2))
    let evs := vals.foldl (fun a p => p.2.foldl (fun a v => a.add (if v.2 then 0 else v.1.2) p.1) a) Evs.none
    let resumed := s.th.resume.isSome
    State.memEnd { r.2 with s := r.2.s.modVec fun v => (nrange 0 nf).foldl (fun v k =>
      v.putLoad dst k w (vals.map fun p =>
        let x := p.2.getD k ((0, 0), false)
        (⟨p.1, x.1.1, x.2⟩ : Put)) resumed fin.open) v } fin [] evs

/-- A store of NF fields from a register set or a ring; w is the width of its data elements, wf that of its frame
(R182, R183, R187). -/
def State.memStore (s : State) (f : FmtM) (src : Opnd) (nf w wf : Nat) (act : List Nat) (addr : Nat → Word) : State :=
  let n := wmBytes f
  let m := s.manner f .st wf
  match s.vPlan m (s.execEgs f.m wf)
      (act.map fun e => ⟨[e], (nrange 0 nf).map fun k => (addr e + BitVec.ofNat 64 (k * n), n)⟩) with
  | .stop s => s
  | .ready perf fin _ s =>
    let v := s.vec
    let conv (e k : Nat) : Nat × Ev := fillConv (wrBytes f) n (segS f) (elemAt (v.opBits src k) w e)
    let evs := perf.foldl (fun a p => (nrange 0 nf).foldl (fun a k => a.add (conv (p.es.headD 0) k).2 (p.es.headD 0)) a) Evs.none
    State.memEnd (storeWindows m f.stream.toNat (fun es k => (conv (es.headD 0) k).1) perf s.logging) fin [src] evs

end Sys2Proof.Machine
end

