-- ==== Sys2Proof/Machine/MeshOps.lean ====
section
/-! DEFINITION. The mesh table and the instructions that read mesh objects: MFREE, VNBR, VFACE and MQUERY (R294 to R297,
R305 to R307, R320). -/

namespace Sys2Proof.Machine

/-! The mesh table. -/

/-- Where a handle leads. -/
inductive HandleAt
  /-- not aligned, or not in local HBM4E -/
  | bad
  /-- its page faults -/
  | fault
  | frame (pa : Nat)
  deriving DecidableEq, Repr

/-- Where a handle translates to, in local HBM4E (R295). A denied page has its frame as well. -/
def handleAt (s : State) (core : Nat) (c : Cred) (h : Word) : HandleAt × State :=
  match classify h with
  | .virt va =>
    if va % 65536 ≠ 0 then (.bad, s)
    else match translate s core c va .ld false with
      | (.ok pa _ _ _ _ _, s) => (if inHbm pa then .frame pa else .bad, s)
      | (.fault k, s) => (if k = 5 then .bad else .fault, s)
  | _ => (.bad, s)

/-- The entry of the sealed object that a handle names; `tag` is compared where one is given (R295, R297). -/
def sealedAt (s : State) (pa : Nat) (tag : Option Nat) : Option Nat :=
  (s.meshes.find? fun e => e.2.isSealed && e.2.base == pa && (match tag with
    | some t => e.2.tag == t
    | none => true)).map (·.1)

/-- The sealed object that a handle names for credentials (R295). -/
def meshNamed (s : State) (core : Nat) (c : Cred) (h : Word) (tag : Option Nat) : Option Nat × State :=
  match handleAt s core c h with
  | (.frame pa, s) => (sealedAt s pa tag, s)
  | (_, s) => (none, s)

/-- A free entry of the mesh table (R295). -/
def freeMesh (s : State) : Option Nat := (nrange 0 256).find? fun i => (tfind i s.meshes).isNone

/-- Whether a VNBR, a VFACE or an engine command that found an entry sealed is not complete (R297). -/
def meshRead (s : State) (e : Nat) : Bool :=
  s.topos.any (fun d => (d.2.queue ++ d.2.running).any fun c => c.mesh == some e) ||
    s.triads.any fun t => roles.any fun r => (t.2.role r).mesh == some e || match (t.2.role r).stall with
      | some (.topo _ _ _ m _) => m == some e
      | _ => false

/-- The entry that a waiting MFREE frees becomes none once another MFREE has freed it. -/
def RoleState.unname (r : RoleState) (e : Nat) : RoleState :=
  match r.stall with
  | some (.mfree f (some k)) => if k = e then { r with stall := some (.mfree f none) } else r
  | _ => r

/-! MFREE. -/

/-- MFREE once its entry is found; an entry that another MFREE has freed meanwhile is not freed again (R297).
(DEDUCED, log entry 88.) -/
def State.mfree (s : State) (f : FmtE) (e : Option Nat) : State :=
  let end_ (s : State) : State := s.done f.xd (BitVec.ofNat 64 stDone)
  match e with
  | none => end_ s
  | some k =>
    if meshRead s k then s.stallOn (.mfree f e)
    else end_ { s with
      meshes := tdel k s.meshes
      triads := s.triads.map fun t => (t.1, roles.foldl (fun t r => t.setRole r ((t.role r).unname k)) t.2) }

/-- MFREE (R297). -/
def execMfree (f : FmtE) (s : State) : Answer :=
  .next (match meshNamed s s.tr.core s.cred (s.x f.xa) (if s.th.priv then none else some s.tr.tag) with
    | (none, s) => s.done f.xd (BitVec.ofNat 64 stRange)
    | (some e, s) => s.mfree f (some e))

/-- MFREE_RELEASE: the current thread's MFREE ends when no reader of the object is left (R297). -/
def execMfreeRelease (s : State) : Answer :=
  .next (match s.th.stall with
    | some (.mfree f e) => s.mfree f e
    | _ => s)

/-! Reads of an object as a vector instruction makes them. -/

/-- n bytes of an object from virtual address a, as they read, absent lines of migrating pages pulled; bytes of pages that
fault read zero. `fuel` bounds the lines. -/
def objRead (core : Nat) (c : Cred) : Nat → State → Word → Nat → List Byte × State
  | 0, s, _, _ => ([], s)
  | fuel + 1, s, a, n =>
    if n = 0 then ([], s)
    else
      let k := min n (64 - a.toNat % 64)
      let r : List Byte × State := match classify a with
        | .virt va => match translate s core c va .ld true with
          | (.ok pa key _ _ _ _, s) => (physRead s pa k key, s)
          | (.fault _, s) => (List.replicate k 0, s)
        | _ => (List.replicate k 0, s)
      let u := objRead core c fuel r.2 (a + BitVec.ofNat 64 k) (n - k)
      (r.1 ++ u.1, u.2)

/-- n bytes of the object at a handle, for the current thread. -/
def State.objAt (s : State) (h : Word) (off n : Nat) : List Byte × State :=
  objRead s.tr.core s.cred (n / 64 + 2) s (h + BitVec.ofNat 64 off) n

/-- The number that n bytes of the object at a handle hold, as the lines decrypt now; where a page of them faults, as they were
written (R294, R307). -/
def State.objNum (s : State) (h : Word) (e n off : Nat) : Nat :=
  match peekPlain s s.tr.core s.cred (h + BitVec.ofNat 64 off) n with
  | some bs => bytesNat bs
  | none => extNat s e n off

/-- A varint at the head of a stream, and what follows it (R303); `fuel` bounds its bytes. -/
def readVarint : Nat → List Byte → Nat × List Byte
  | 0, bs => (0, bs)
  | _, [] => (0, [])
  | fuel + 1, b :: t =>
    if b.toNat < 128 then (b.toNat, t)
    else
      let r := readVarint fuel t
      (b.toNat - 128 + 128 * r.1, r.2)

/-- The cell that zz(n − c) names (R303). -/
def unzigzag (c z : Nat) : Nat := if z % 2 = 0 then c + z / 2 else c - (z + 1) / 2

/-- One group of an entry: the neighbour's number and the byte after it. -/
def readGroup (c : Nat) (bs : List Byte) : (Nat × Nat) × List Byte :=
  let r := readVarint 5 bs
  ((unzigzag c r.1, (r.2.headD 0).toNat), r.2.tail)

/-- The neighbours across faces f to nf − 1 of a cell, from its entry's stream after the face codes. -/
def readFaces (c codes : Nat) : Nat → Nat → List Byte → List Nbr × List Byte
  | 0, _, bs => ([], bs)
  | left + 1, f, bs =>
    let r : Nbr × List Byte := match codes / 4 ^ f % 4 with
      | 0 => let v := readVarint 5 bs; (.edge v.1, v.2)
      | 1 => let g := readGroup c bs; (.one g.1.1 (g.1.2 % 8) (g.1.2 / 8 % 2 == 1) (g.1.2 / 16 % 4), g.2)
      | _ =>
        let g0 := readGroup c bs
        let g1 := readGroup c g0.2
        let g2 := readGroup c g1.2
        let g3 := readGroup c g2.2
        (.four ([g0, g1, g2, g3].map fun g => (g.1.1, g.1.2 % 8)), g3.2)
    let u := readFaces c codes left (f + 1) r.2
    (r.1 :: u.1, u.2)

/-- The entry of the k-th cell of a folio's stream; `kind` gives the kinds of cells by number (R303). -/
def readEntry (kind : Nat → Nat) : Nat → Nat → List Byte → List Nbr
  | k, c, bs =>
    let r := readFaces c (bytesNat (bs.take 2)) (kindFaces (kind c)).length 0 (bs.drop 2)
    match k with
    | 0 => r.1
    | k + 1 => readEntry kind k (c + 1) r.2

/-! VNBR and VFACE. -/

def meshSel (f : FmtM) : Nat := f.seg.toNat / 8 % 8
def meshRing (f : FmtM) : Bool := f.seg.getLsbD 7
def meshIdx (f : FmtM) : Bool := f.seg.getLsbD 6
def meshFace (f : FmtM) : Nat := f.imm16.toNat % 8
def meshSub (f : FmtM) : Nat := f.imm16.toNat / 8 % 4

/-- An access of n bytes at an object's offset, made line by line where it is longer. -/
def objSubs (h : Word) (off n : Nat) : List (Word × Nat) :=
  if n = 16 then [(h + BitVec.ofNat 64 off, 16)]
  else (nrange 0 ((n + 63) / 64)).map fun k => (h + BitVec.ofNat 64 (off + 64 * k), 64)

/-- What VNBR and VFACE read of an object before its elements: header, entry, directory. -/
structure MeshView where
  h : Word
  ent : Nat
  head : List Byte
  dir : List Byte
  deriving DecidableEq, Repr

/-- The kind of a cell (R301). -/
def MeshView.kind (v : MeshView) (s : State) (c : Nat) : Nat := s.objNum v.h v.ent 1 (objOff v.head 1 + 16 * c + 4) % 8

/-- The folio that holds a cell's entry: the last one whose first cell is not above it. -/
def MeshView.folio (v : MeshView) (c : Nat) : Nat :=
  ((nrange 0 (objNfolio v.head)).filter fun k => decide (bytesNat ((v.dir.drop (4 * k)).take 4) ≤ c)).getLast?.getD 0

/-- The records of a face's owner: the first and how many (R302, R307). -/
def MeshView.ownerSpan (v : MeshView) (s : State) (o : Nat) : Nat × Nat :=
  let rs := (nrange 0 (objNface v.head)).filter fun i => s.objNum v.h v.ent 4 (objOff v.head 2 + 16 * i) == o
  (rs.headD 0, rs.length)

/-- The value of SEL 0 to 4 of VNBR (R306). -/
def nbrValue (sel sub : Nat) (n : Nbr) : Nat :=
  match sel, n with
  | 1, .edge _ => 0
  | 1, .one .. => 1
  | 1, .four _ => 4
  | 2, .edge t => t
  | 2, _ => noCell
  | _, .edge _ => noCell
  | k, .one n nf co _ =>
    if sub ≠ 0 then noCell
    else if n = outsideCell then (if k = 0 then outsideCell else noCell)
    else match k with
      | 0 => n
      | 3 => nf
      | _ => if co then 0 else 1
  | k, .four l =>
    let g := l.getD sub (0, 0)
    if g.1 = outsideCell then (if k = 0 then outsideCell else noCell)
    else match k with
      | 0 => g.1
      | 3 => g.2
      | _ => 2

/-- The owner, its local face and the sub-face under which the face of a neighbour stands in the face table (R302); none
where it has no record. -/
def faceKeyOf (c face sub : Nat) (n : Nbr) : Option (Nat × Nat × Nat) :=
  match n with
  | .edge _ => some (c, face, 0)
  | .one n nf co q => if n = outsideCell then none else if c < n then some (c, face, q) else some (n, nf, if co then q else 0)
  | .four l =>
    let g := l.getD sub (0, 0)
    if g.1 = outsideCell then none else if c < g.1 then some (c, face, sub) else some (g.1, g.2, sub)

/-- An element of VNBR or VFACE: what it reads, and its value once that has been read. -/
structure MeshElt where
  subs : List (Word × Nat)
  value : Nat
  deriving DecidableEq, Repr

/-- An element of VFACE (R306, R307). -/
def MeshView.face (v : MeshView) (sel c : Nat) (rec_ : List Byte) : MeshElt :=
  if objNface v.head ≤ c then ⟨objSubs v.h 0 256, noCell⟩
  else
    let n (o k : Nat) : Nat := bytesNat ((rec_.drop o).take k)
    ⟨objSubs v.h (objOff v.head 2 + 16 * c) 16, match sel with
      | 0 => n 0 4
      | 1 => n 4 4
      | 2 => n 8 1
      | 3 => n 9 1
      | 4 => n 10 1
      | 5 => n 12 2
      | _ => n 11 1⟩

/-- An element of VNBR (R306, R307). -/
def MeshView.nbr (v : MeshView) (s : State) (f : FmtM) (c : Nat) : MeshElt × State :=
  let sel := meshSel f
  if objNcell v.head ≤ c then (⟨objSubs v.h 0 256, noCell⟩, s)
  else if sel = 6 then
    let off := objOff v.head 1 + 16 * c
    let r := s.objAt v.h off 16
    let b := (r.1.getD 4 0).toNat
    (⟨objSubs v.h off 16, b / 16 + b % 8 * 16 + if objNown v.head ≤ c then 128 else 0⟩, r.2)
  else
    let k := v.folio c
    let foff := objOff v.head 4 + 256 * k
    let r := s.objAt v.h foff 256
    let s := r.2
    let need := objSubs v.h (objOff v.head 3) (4 * objNfolio v.head) ++ objSubs v.h foff 256
    let first := bytesNat (r.1.take 4)
    let ns := readEntry (v.kind s) (c - first) first (r.1.drop 8)
    if (kindFaces (v.kind s c)).length ≤ meshFace f then (⟨need, noCell⟩, s)
    else
      let n := ns.getD (meshFace f) (.edge 0)
      if sel ≠ 5 then (⟨need, nbrValue sel (meshSub f) n⟩, s)
      else match faceKeyOf c (meshFace f) (meshSub f) n with
        | none => (⟨need, noCell⟩, s)
        | some (o, lf, q) =>
          let span := v.ownerSpan s o
          let recOff (i : Nat) : Nat := objOff v.head 2 + 16 * i
          let need := need ++ (nrange span.1 span.2).flatMap fun i => objSubs v.h (recOff i) 16
          let open_ : Bool := match n with
            | .edge _ => false
            | .one .. => meshSub f == 0
            | .four _ => true
          let hit := (nrange span.1 span.2).find? fun i =>
            s.objNum v.h v.ent 1 (recOff i + 8) == lf && s.objNum v.h v.ent 1 (recOff i + 11) == q
          (⟨need, if open_ then hit.getD noCell else noCell⟩, s)

/-- The elements of the instruction with the numbers they name. -/
def State.meshElts (s : State) (v : MeshView) (f : FmtM) (isFace : Bool) : List (Nat × Nat) → List (Nat × MeshElt) × State
  | [] => ([], s)
  | (e, c) :: t =>
    let r : MeshElt × State :=
      if isFace then
        let b := if objNface v.head ≤ c then ([], s) else s.objAt v.h (objOff v.head 2 + 16 * c) 16
        (v.face (meshSel f) c b.1, b.2)
      else v.nbr s f c
    let u := r.2.meshElts v f isFace t
    ((e, r.1) :: u.1, u.2)

/-- Steps 5 and 6 of R180 as R307 changes them. (DEDUCED, log entry 43.) -/
def State.meshRun (s : State) (f : FmtM) (isFace : Bool) (dst : Opnd) (act : List Nat) : State :=
  let h := s.x f.xbase
  let num (e : Nat) : Nat := (if meshIdx f then elemAt (s.vec.reg f.xs.toNat) 32 e else (s.x f.xs).toNat + e) % 2 ^ 32
  let finish (vals : List Put) (fin : Finish) (l : Logged) : State :=
    let resumed := l.s.th.resume.isSome
    State.memEnd { l with s := l.s.modVec fun v => v.putLoad dst 0 32 vals resumed fin.open } fin [] Evs.none
  match act with
  | [] => finish [] (.done none) s.logging
  | e0 :: _ =>
    if h.toNat % 4 ≠ 0 then s.trapAlign h e0
    else match locate s s.tr.core s.cred h .ld false with
      | (.fault c, s) => s.trapPage c h e0
      | (_, s) => match meshNamed s s.tr.core s.cred h (some s.tr.tag) with
        | (none, s) => s.trap cPARAM 1 e0 h
        | (some ent, s) =>
          let s := s.modTh fun r => { r with mesh := some ent }
          let hd := s.objAt h 0 256
          let dir := hd.2.objAt h (objOff hd.1 3) (4 * objNfolio hd.1)
          let r := dir.2.meshElts ⟨h, ent, hd.1, dir.1⟩ f isFace (act.map fun e => (e, num e))
          match r.2.vPlan (r.2.manner f .ld 32) (r.2.execEgs f.m 32) (r.1.map fun x => ⟨[x.1], x.2.subs⟩) with
          | .stop s => s
          | .ready perf fin kept s =>
            let l := loadOps perf (s.logging kept)
            let vals : List Put := (perf.zip l.1).map fun p =>
              let e := p.2.1.headD 0
              let denied := p.1.subs.any fun x => match x.2.2 with
                | .denied _ => true
                | _ => false
              ⟨e, if denied then 0 else ((r.1.find? fun x => x.1 == e).map (·.2.value)).getD 0, p.2.2.any (·.2)⟩
            finish vals fin l.2

/-- VNBR and VFACE (R305 to R307). -/
def State.meshLoad (s : State) (f : FmtM) (isFace : Bool) : State :=
  let dst := opnd (meshRing f) f.v
  let idx := if meshIdx f then [vField false f.xs 1] else []
  s.memIssue f true 32 true [vField (meshRing f) f.v 1] idx [] [dst] fun s =>
    let act := s.memActive f.m 32
    match (if meshIdx f then s.poisonAt act [(.reg f.xs.toNat, 32, 0)] else none) with
    | some (u, e) => s.trapPoison u e
    | none => s.meshRun f isFace dst act

/-- VNBR (R305 to R307). -/
def execVnbr (f : FmtM) (s : State) : Answer := .next (s.meshLoad f false)
/-- VFACE (R305 to R307). -/
def execVface (f : FmtM) (s : State) : Answer := .next (s.meshLoad f true)

/-! MQUERY. -/

/-- A wait for a completion word: the word is read again until BUSY is 0 (R320, R342). (DEDUCED, log entry 60.) -/
def State.awaitWord (s : State) (f : FmtE) (wait : Stall) : State :=
  match loadBytes s (s.x f.xa) 8 with
  | .stop s => s
  | .ok bs s =>
    let w := BitVec.ofNat 64 (bytesNat bs)
    if w.getLsbD 63 then (s.modTh fun r => { r with rbuf := [], want := [] }).stallOn wait else s.done f.xd w

/-- MQUERY with SEL 0 (R320). -/
def execMqueryWait (f : FmtE) (s : State) : Answer := .next (s.awaitWord f (.mquery f))

/-- MQUERY_WAIT_RELEASE: the current thread's word is read again (R320). -/
def execMqueryWaitRelease (s : State) : Answer :=
  .next (match s.th.stall with
    | some (.mquery f) => s.awaitWord f (.mquery f)
    | _ => s)

/-- MQUERY with SEL 1 to 7 (R320). -/
def execMqueryCount (f : FmtE) (s : State) : Answer :=
  .next (match meshNamed s s.tr.core s.cred (s.x f.xa) (some s.tr.tag) with
    | (none, s) => s.done f.xd (BitVec.allOnes 64)
    | (some _, s) =>
      let r := s.objAt (s.x f.xa) 0 256
      let b := r.1
      r.2.done f.xd (BitVec.ofNat 64 (match fnBits f 0 4 with
        | 1 => objNcell b
        | 2 => objNface b
        | 3 => objNroot b
        | 4 => objNown b
        | 5 => objNghost b
        | 6 => objOff b 6
        | _ => objPart b + objNpart b * 2 ^ 16)))

end Sys2Proof.Machine
end

