-- ==== Sys2Proof/Machine/VecMem.lean ====
section
/-! DEFINITION. The vector memory instructions: unit-stride, strided, segment and block forms, gathers and scatters, atomics
and VPREF (R182 to R192). -/

namespace Sys2Proof.Machine

/-- Bits of an element of a data register (R177). -/
def wrBits (f : FmtM) : Nat := 8 * wrBytes f

/-- The data field as an operand: a register, or in the Q forms a ring (R177). -/
def dataOpnd (q : Bool) (f : FmtM) : Opnd := opnd q f.v

/-- A unit-stride or strided load (R182). -/
def State.stridedLoad (s : State) (f : FmtM) (q strided : Bool) : State :=
  let o := dataOpnd q f
  s.memIssue f true (wrBits f) true [vField q f.v 1] [] [] [o] fun s =>
    let a0 := s.memBase f + (if strided then 0 else s.x f.xs)
    let stride := if strided then s.x f.xs else BitVec.ofNat 64 (wmBytes f)
    s.memLoad f o 1 (wrBits f) (wrBits f) (s.memActive f.m (wrBits f)) fun e => a0 + BitVec.ofNat 64 e * stride

/-- A unit-stride or strided store (R182). -/
def State.stridedStore (s : State) (f : FmtM) (q strided : Bool) : State :=
  let o := dataOpnd q f
  s.memIssue f true (wrBits f) true [] [vField q f.v 1] [o] [] fun s =>
    let a0 := s.memBase f + (if strided then 0 else s.x f.xs)
    let stride := if strided then s.x f.xs else BitVec.ofNat 64 (wmBytes f)
    let act := s.memActive f.m (wrBits f)
    match s.poisonAt act [(o, wrBits f, 0)] with
    | some (u, e) => s.trapPoison u e
    | none => s.memStore f o 1 (wrBits f) (wrBits f) act fun e => a0 + BitVec.ofNat 64 e * stride

/-- VLD (R182). -/
def execVld (f : FmtM) (s : State) : Answer := .next (s.stridedLoad f false false)
/-- VST (R182). -/
def execVst (f : FmtM) (s : State) : Answer := .next (s.stridedStore f false false)
/-- VLDS (R182). -/
def execVlds (f : FmtM) (s : State) : Answer := .next (s.stridedLoad f false true)
/-- VSTS (R182). -/
def execVsts (f : FmtM) (s : State) : Answer := .next (s.stridedStore f false true)
/-- QLD (R182). -/
def execQld (f : FmtM) (s : State) : Answer := .next (s.stridedLoad f true false)
/-- QLDS (R182). -/
def execQlds (f : FmtM) (s : State) : Answer := .next (s.stridedLoad f true true)
/-- QST (R182). -/
def execQst (f : FmtM) (s : State) : Answer := .next (s.stridedStore f true false)
/-- QSTS (R182). -/
def execQsts (f : FmtM) (s : State) : Answer := .next (s.stridedStore f true true)

/-! Segments. -/

/-- Fields in a record (R183). -/
def nfOf (f : FmtM) : Nat := segNf f + 1

/-- The address of a record (R183). -/
def State.segAddr (s : State) (f : FmtM) (e : Nat) : Word :=
  let rs := if f.xs = 0#6 then BitVec.ofNat 64 (nfOf f * wmBytes f) else s.x f.xs
  s.memBase f + BitVec.ofNat 64 e * rs

/-- VLSEG (R183). -/
def execVlseg (f : FmtM) (s : State) : Answer :=
  .next (s.memIssue f true (wrBits f) true [vMulti false f.v (nfOf f) 1] [] [] [] fun s =>
    s.memLoad f (.reg f.v.toNat) (nfOf f) (wrBits f) (wrBits f) (s.memActive f.m (wrBits f)) (s.segAddr f))

/-- VSSEG (R183). -/
def execVsseg (f : FmtM) (s : State) : Answer :=
  .next (s.memIssue f true (wrBits f) true [] [vMulti false f.v (nfOf f) 1] [] [] fun s =>
    let act := s.memActive f.m (wrBits f)
    match s.poisonAt act ((nrange 0 (nfOf f)).map fun k => (.reg f.v.toNat, wrBits f, k)) with
    | some (u, e) => s.trapPoison u e
    | none => s.memStore f (.reg f.v.toNat) (nfOf f) (wrBits f) (wrBits f) act (s.segAddr f))

/-! Blocks (R184). -/

/-- The format of a block instruction: codes 0x04 to 0x0B (R184). -/
def blkFmt (f : FmtM) : Option Fmt :=
  let c := f.seg.toNat % 32
  if 4 ≤ c ∧ c ≤ 11 then fmtOfCode c else none

/-- Bytes of a block's element area in memory, its pair-shift word included (R184). -/
def blkBytes (f : Fmt) : Nat := 4 * f.codeWidth + if f.isPx then 4 else 0

/-- The blocks with an active element, each with its active elements. (DEDUCED, log entry 23.) -/
def blkOps (bb : Nat) (a0 sb : Word) (act : List Nat) : List MOp :=
  (ldedup (act.map (· / 32))).map fun b =>
    ⟨act.filter (fun e => e / 32 == b),
      ((nrange 0 (bb / 4)).map fun k => (a0 + BitVec.ofNat 64 (b * bb + 4 * k), 4)) ++ [(sb + BitVec.ofNat 64 b, 1)]⟩

/-- The lowest active element whose codes or scale lie in a poisoned EG, with the register (R184). -/
def State.blkPoison (s : State) (f : FmtM) : Option (Nat × Nat) :=
  let vs := f.v.toNat
  (s.memActive f.m 8).findSome? fun e =>
    if s.vec.opPois (.reg vs) 0 (egOf 8 e) then some (vs, e)
    else if s.vec.opPois (.reg (vs + 1)) 0 (egOf 64 (e / 32)) then some (vs + 1, e) else none

/-- The checks of a block instruction in the order of R180: a store's poison comes before the alignment of A0, which is looked
at where a block is moved (R184). -/
def State.blkIssue (s : State) (f : FmtM) (load : Bool) (go : Fmt → List Nat → State → State) : State :=
  let set_ := [vMulti false f.v 2 1]
  s.memIssue f (blkFmt f).isSome 8 (s.th.vl % 32 == 0) (if load then set_ else []) (if load then [] else set_) [] [] fun s =>
    match blkFmt f, (if load then none else s.blkPoison f) with
    | none, _ => s.trapDecode
    | _, some (u, e) => s.trapPoison u e
    | some fm, none =>
      let act := s.memActive f.m 8
      match act with
      | e :: _ => if (s.memBase f).toNat % 4 ≠ 0 then s.trapAlign (s.memBase f) e else go fm act s
      | [] => go fm act s

/-- A block instruction's manner: its accesses to another chip are one unit (R184, R250). -/
def State.blkManner (s : State) (f : FmtM) (acc : Acc) : Manner := { s.manner f acc 8 with unit := true }

/-- VLBLK (R184). (DEDUCED, log entry 23.) -/
def execVlblk (f : FmtM) (s : State) : Answer :=
  .next (s.blkIssue f true fun fm act s =>
    let bb := blkBytes fm
    match s.vPlan (s.blkManner f .ld) (s.execEgs f.m 8) (blkOps bb (s.memBase f) (s.x f.xs) act) with
    | .stop s => s
    | .ready perf fin kept s =>
      let r := loadOps perf (s.logging kept)
      let vd := f.v.toNat
      let blocks := r.1.map fun p =>
        let words := p.2.take (bb / 4)
        let area := (words.zipIdx.map fun w => w.1.1 * 2 ^ (32 * w.2)).sum
        let pois := p.2.any (·.2)
        (p.1.headD 0 / 32, area, (p.2.getD (bb / 4) (0, false)).1, pois)
      let codes : List Put := blocks.flatMap fun b =>
        let els := if fm.isPx then b.2.1 / 2 ^ 32 else b.2.1
        (nrange 0 32).map fun i => ⟨32 * b.1 + i, elemAt els fm.codeWidth i, b.2.2.2⟩
      let side := s.vec.reg (vd + 1)
      let comps : List Put := blocks.map fun b =>
        ⟨b.1, b.2.2.1 + nbits (elemAt side 64 b.1) 8 24 * 2 ^ 8 + (if fm.isPx then b.2.1 % 2 ^ 32 else 0) * 2 ^ 32, b.2.2.2⟩
      State.memEnd { r.2 with s := r.2.s.modVec fun v => (v.putReg vd 8 codes).putReg (vd + 1) 64 comps } fin [] Evs.none)

/-- VSBLK (R184). -/
def execVsblk (f : FmtM) (s : State) : Answer :=
  .next (s.blkIssue f false fun fm act s =>
    let bb := blkBytes fm
    let v := s.vec
    let vs := f.v.toNat
    match s.vPlan (s.blkManner f .st) (s.execEgs f.m 8) (blkOps bb (s.memBase f) (s.x f.xs) act) with
    | .stop s => s
    | .ready perf fin _ s =>
      let side (b : Nat) : Nat := elemAt (v.reg (vs + 1)) 64 b
      let area (b : Nat) : Nat :=
        let els := ((nrange 0 32).map fun i =>
          (elemAt (v.reg vs) 8 (32 * b + i) % 2 ^ fm.codeWidth) * 2 ^ (fm.codeWidth * i)).sum
        if fm.isPx then els * 2 ^ 32 + side b / 2 ^ 32 else els
      let val (es : List Nat) (k : Nat) : Nat :=
        let b := es.headD 0 / 32
        if k < bb / 4 then area b / 2 ^ (32 * k) % 2 ^ 32 else side b % 256
      State.memEnd (storeOps f.stream.toNat true val perf s.logging) fin [] Evs.none)

/-! Gathers and scatters. -/

/-- The width in bits of index elements: .n32 up to 4-byte data, .n64 for 8 (R178). -/
def idxBits (f : FmtM) : Nat := if segWr f = 3 then 64 else 32

/-- The element width of a gather or scatter (R129). -/
def gathBits (f : FmtM) : Nat := max (wrBits f) (idxBits f)

/-- Index element e of vi (R178). -/
def State.index (s : State) (f : FmtM) (e : Nat) : Nat := elemAt (s.vec.reg f.xs.toNat) (idxBits f) e

/-- The address of an indexed element (R186, R188). -/
def State.indexed (s : State) (f : FmtM) (a0 : Word) (e : Nat) : Word := a0 + BitVec.ofNat 64 (s.index f e * wmBytes f)

/-- The index register as a source of the poison check. -/
def idxSrc (f : FmtM) : Opnd × Nat × Nat := (.reg f.xs.toNat, idxBits f, 0)

/-- VGATH and QGATH (R186). -/
def State.gather (s : State) (f : FmtM) (q : Bool) : State :=
  let o := dataOpnd q f
  s.memIssue f true (gathBits f) true [vField q f.v 1] [vField false f.xs 1] [] [o] fun s =>
    let act := s.memActive f.m (gathBits f)
    match s.poisonAt act [idxSrc f] with
    | some (u, e) => s.trapPoison u e
    | none => s.memLoad f o 1 (wrBits f) (gathBits f) act (s.indexed f (s.memBase f))

/-- VGATH (R186). -/
def execVgath (f : FmtM) (s : State) : Answer := .next (s.gather f false)
/-- QGATH (R186). -/
def execQgath (f : FmtM) (s : State) : Answer := .next (s.gather f true)

/-- VSCAT (R187). -/
def execVscat (f : FmtM) (s : State) : Answer :=
  .next (s.memIssue f true (gathBits f) true [] [vField false f.v 1, vField false f.xs 1] [] [] fun s =>
    let act := s.memActive f.m (gathBits f)
    match s.poisonAt act [idxSrc f, (.reg f.v.toNat, wrBits f, 0)] with
    | some (u, e) => s.trapPoison u e
    | none => s.memStore f (.reg f.v.toNat) 1 (wrBits f) (gathBits f) act (s.indexed f (s.memBase f)))

/-! VGATHW (R185). -/

def gwFirst (f : FmtM) : Nat := f.imm16.toNat / 1024
def gwSize (f : FmtM) : Nat := 2 ^ (f.imm16.toNat / 256 % 4)
def gwReuse (f : FmtM) : Bool := f.imm16.toNat / 128 % 2 == 1
def gwMo (f : FmtM) : Nat := f.imm16.toNat % 16

/-- The decode checks of the window group and mo (R185). -/
def gwDecode (cfg : Word) (r : Role) (f : FmtM) : Bool :=
  let outside (k : Nat) : Bool := k < gwFirst f || gwFirst f + gwSize f ≤ k
  gwMo f != 0 && groupOk cfg r (gwFirst f) (gwSize f) && outside f.v.toNat && outside f.xs.toNat

/-- Where window element k lies, or none where it is inaccessible (R185). -/
def windowSub (s : State) (f : FmtM) (k : Nat) : Option (Word × Nat) :=
  let x := (s.x f.xbase + BitVec.ofNat 64 (k * wmBytes f), wmBytes f)
  if (subBad s s.tr.tag x).isSome then none else some x

/-- VGATHW (R185). Without an active element no access is made (R180); an element of the window that saturates on its fill raises
SAT with its own number (R179). (DEDUCED, log entry 87.) -/
def execVgathw (f : FmtM) (s : State) : Answer :=
  .next (s.memIssue f (gwDecode s.vec.cfg s.cur.role f) (gathBits f) true [vField false f.v 1] [vField false f.xs 1] [] []
    fun s =>
      let act := s.memActive f.m (gathBits f)
      match s.poisonAt act [idxSrc f] with
      | some (u, e) => s.trapPoison u e
      | none =>
        let base := s.x f.xbase
        let n := wmBytes f
        let per := vlmax s.nslabs (wrBits f)
        let len := gwSize f * per
        if base.toNat % n ≠ 0 then s.trapAlign base (act.headD 0)
        else
          let ops := if gwReuse f || act.isEmpty then [] else
            (nrange 0 len).filterMap fun k => (windowSub s f k).map fun x => (⟨[k], [x]⟩ : MOp)
          match s.vPlan { s.manner f .ld (wrBits f) with whole := true, ordered := false } [] ops with
          | .stop s => s
          | .ready perf _ kept s =>
            let r := loadOps perf (s.logging kept)
            let vals := r.1.map fun p =>
              let x := p.2.headD (0, false)
              (p.1.headD 0, fillConv n (wrBytes f) (segS f) x.1, x.2)
            let put (v : VecState) (j : Nat) : VecState :=
              v.putReg (gwFirst f + j) (wrBits f) ((vals.filter fun x => x.1 / per == j).map fun x => ⟨x.1 % per, x.2.1.1, x.2.2⟩)
            let v := (nrange 0 (gwSize f)).foldl put r.2.s.vec
            let found (e : Nat) : Option Nat :=
              let i := s.index f e
              if decide (i < len) && (gwReuse f || vals.any (fun x => x.1 == i)) then some i else none
            let outs : List Put := act.filterMap fun e => (found e).map fun i =>
              ⟨e, elemAt (v.reg (gwFirst f + i / per)) (wrBits f) (i % per),
                v.opPois (.reg (gwFirst f + i / per)) 0 (egOf (wrBits f) (i % per))⟩
            let mo := (nrange 0 s.th.vl).map fun e => (e, act.contains e && (found e).isNone)
            let evs := vals.foldl (fun a x => a.addUnless x.2.2 x.2.1.2 x.1) Evs.none
            (r.2.s.modVec fun _ => (v.putReg f.v.toNat (wrBits f) outs).putMask (gwMo f) mo).vFinish false evs)

/-! Atomics (R188, R189). -/

/-- The read-modify-write of one element at a local address: the old value and whether the location was poisoned or
uncorrectable; `new` gives what is written (R188, R189). -/
def rmwLocal (s : State) (pa key n : Nat) (new : Nat → Nat) : (Nat × Bool) × State :=
  let old := physNat s pa n key
  ((old, physQuality s pa n != .clean), physWrite s pa (natBytes n (new old)) key)

/-- A write-like or returning atomic of an element at a remote address (R192, R374). (DEDUCED, log entry 11.) -/
def sendAtomic (s : State) (pa key op : Nat) (t : BitVec 4) (b : Nat) (stream : Nat) (returns : Bool) : State :=
  sendWseq s { txnTo s 3 (lcnOf pa) pa key s.tr.tag with op := op, ty := t.toNat, operand := BitVec.ofNat 64 b } (some s.cur)
    stream returns

/-- T of VSCADD (R188). -/
def scaddT (f : FmtM) : BitVec 4 := BitVec.ofNat 4 f.imm16.toNat
def scaddVc (f : FmtM) : Nat := f.imm16.toNat / 1024

/-- T of VSCADD is 0 to 9, of the width of WM and WR, and S is 0 (R188). -/
def scaddOk (f : FmtM) : Bool :=
  let t := f.imm16.toNat % 16
  decide (t ≤ 9) && segWm f == segWr f && !segS f && ((fmtOfT t).any fun m => m.width == wrBits f)

/-- One step of VSCADD on values: new value and events (R188). -/
def scaddNew (t : BitVec 4) (old b : Nat) : Nat × Ev :=
  if t.toNat ≤ 7 then ((old + b) % 2 ^ tWidth t, 0)
  else
    let f := (fmtOfT t.toNat).getD .fp32
    let r := addV .rne (plainVal f false old) (plainVal f false b)
    let q := roundTo f ⟨.rne, false, false, 0⟩ r.1
    (q.1, r.2 ||| q.2)

/-- The events that a remote floating-point addition may raise: those its home alone can see (an open value). (DEDUCED, log entry 76.) -/
def openEvents (s : State) (t : BitVec 4) : Ev × State :=
  if t.toNat ≤ 7 then (0, s) else let r := s.free; (r.1.setWidth 6 &&& (evIV ||| evOF ||| evUF ||| evNX), r.2)

/-- One VSCADD step (R188, R192, R289, R296). (DEDUCED, log entries 11, 76.) -/
def scaddStep (t : BitVec 4) (stream n : Nat) (l : Logged) (x : Word × Nat × Loc) (b : Nat) : Ev × Logged :=
  match x.2.2 with
  | .fault _ => (0, l)
  | .denied f => (0, (l.touch .rmw x.1).deny kStore f)
  | .far pa key =>
    let r := openEvents (sendAtomic l.s pa key (if t.toNat ≤ 7 then 0 else 7) t b stream false) t
    (r.1, { l with s := r.2 })
  | .here pa key f =>
    let l := l.touch .rmw x.1
    if inSealed l.s pa n then (0, l.deny kStore f)
    else
      let old := physNat l.s pa n key
      let q := scaddNew t old b
      let r := rmwLocal l.s pa key n fun _ => q.1
      (if r.1.2 then 0 else q.2, { l with s := r.2 })

/-- VSCADD: steps in the order of colour, then element (R188). -/
def execVscadd (f : FmtM) (s : State) : Answer :=
  let w := max (gathBits f) 16
  let t := scaddT f
  let vc := scaddVc f
  .next (s.memIssue f true w (scaddOk f) []
    [vField false f.v 1, vField false f.xs 1, vField false (BitVec.ofNat 6 vc) 1] [] [] fun s =>
      let act := s.memActive f.m w
      match s.poisonAt act [idxSrc f, (.reg vc, 16, 0), (.reg f.v.toNat, wrBits f, 0)] with
      | some (u, e) => s.trapPoison u e
      | none =>
        let n := wmBytes f
        match s.vPlan { s.manner f .rmw w with whole := true } (s.execEgs f.m w)
            (act.map fun e => ⟨[e], [(s.indexed f (s.x f.xbase) e, n)]⟩) with
        | .stop s => s
        | .ready perf fin _ s =>
          let v := s.vec
          let colour (p : Placed) : Nat := elemAt (v.reg vc) 16 (p.es.headD 0)
          let order := lsort (fun a b => decide (colour a ≤ colour b)) perf
          let r := order.foldl (fun (acc : Evs × Logged) p =>
            match p.subs.head? with
            | none => acc
            | some x =>
              let e := p.es.headD 0
              let q := scaddStep t f.stream.toNat n acc.2 x (elemAt (v.reg f.v.toNat) (wrBits f) e)
              (acc.1.add q.1 e, q.2)) (Evs.none, s.logging)
          State.memEnd r.2 fin [] r.1)

/-- T, op and RET of VAMO (R189). -/
def vamoT (f : FmtM) : BitVec 4 := BitVec.ofNat 4 (f.imm16.toNat / 4096)
def vamoOp (f : FmtM) : Nat := f.imm16.toNat / 256 % 16
def vamoRet (f : FmtM) : Bool := f.imm16.toNat % 2 == 1

/-- What the elements of a VAMO have given: the log, the old values, and the remote elements sent (LCN, WSEQ, element). -/
structure VamoRun where
  l : Logged
  got : List (Nat × Nat × Bool)
  wait : List (Nat × Nat × Nat)
  deriving DecidableEq, Repr

/-- One VAMO element (R189, R192, R289, R296, R377). (DEDUCED, log entries 11, 21.) -/
def vamoStep (f : FmtM) (n : Nat) (r : VamoRun) (e : Nat) (x : Word × Nat × Loc) (b : Nat) : VamoRun :=
  let t := vamoT f
  let s := r.l.s
  match x.2.2 with
  | .fault _ => r
  | .denied k => ⟨(r.l.touch .rmw x.1).deny kStore k, (e, 0, false) :: r.got, r.wait⟩
  | .far pa key =>
    if vamoRet f then
      if cutOff s s.cur (lcnOf pa) then { r with got := (e, 0, true) :: r.got }
      else
        { r with l := { r.l with s := sendAtomic s pa key (vamoOp f) t b f.stream.toNat true },
                 wait := (lcnOf pa, nextWseq s (lcnOf pa), e) :: r.wait }
    else { r with l := { r.l with s := sendAtomic s pa key (vamoOp f) t b f.stream.toNat false } }
  | .here pa key k =>
    let l := r.l.touch .rmw x.1
    if inSealed l.s pa n then ⟨l.deny kStore k, (e, 0, false) :: r.got, r.wait⟩
    else
      let q := rmwLocal l.s pa key n fun old => atomicNew (vamoOp f) t old b 0
      { r with l := { l with s := q.2 }, got := (e, q.1.1, q.1.2) :: r.got }

/-- Old values written to a register in element order. -/
def VecState.putOld (v : VecState) (k w : Nat) (got : List (Nat × Nat × Bool)) : VecState :=
  v.putReg k w ((lsort (fun a b => decide (a.1 ≤ b.1)) got).map fun g => ⟨g.1, g.2.1, g.2.2⟩)

/-- Where an element of VAMO acts. -/
def Placed.place (p : Placed) : Option Int :=
  match p.subs.head? with
  | some (_, _, .here pa _ _) => some (pa : Int)
  | some (_, _, .far pa _) => some (pa : Int)
  | _ => none

/-- The order in which the elements of a VAMO act: open where some share a place, unless O is set (R189, R244).
(DESIGN CHOICE, log entry 80.) -/
def vamoOrder (s : State) (ordered : Bool) (n : Nat) (perf : List Placed) : List Placed × State :=
  if !ordered && anyClose n (perf.filterMap Placed.place) then
    (preferred s 0 (fun p => p.es.headD 0) perf, { s with fresh := s.fresh + 16384 })
  else (perf, s)

/-- VAMO (R189). (DEDUCED, log entry 21.) -/
def execVamo (f : FmtM) (s : State) : Answer :=
  let t := vamoT f
  let n := tWidth t / 8
  let wd := tWidth t
  let w := max (gathBits f) wd
  .next (s.memIssue f true w true (if vamoRet f then [vField false f.v 1] else [])
    [vField false f.v 1, vField false f.xs 1] [] [] fun s =>
      let act := s.memActive f.m w
      match s.poisonAt act [idxSrc f, (.reg f.v.toNat, wd, 0)] with
      | some (u, e) => s.trapPoison u e
      | none =>
        match s.vPlan { s.manner f .rmw w with whole := true } (s.execEgs f.m w)
            (act.map fun e => ⟨[e], [(s.indexed f (s.x f.xbase) e, max n (wmBytes f))]⟩) with
        | .stop s => s
        | .ready perf fin _ s =>
          let v := s.vec
          let o := vamoOrder s (f.o == 1#1) n perf
          let r := o.1.foldl (fun (r : VamoRun) p =>
            match p.subs.head? with
            | none => r
            | some x =>
              let e := p.es.headD 0
              vamoStep f n r e x (elemAt (v.reg f.v.toNat) wd e)) ⟨o.2.logging, [], []⟩
          if !vamoRet f then State.memEnd r.l fin [] Evs.none
          else if r.wait.isEmpty then
            State.memEnd { r.l with s := r.l.s.modVec fun v => v.putOld f.v.toNat wd r.got } fin [] Evs.none
          else
            let s := r.l.s
            let post := match fin with
              | .done p => p
              | .more .. => none
            let s := match post with
              | some (_, left) => s.modVec fun v => v.setM15 s.th.vl left
              | none => s
            s.stallOn (.vatomic f.v.toNat wd r.wait r.got (post.map (·.1))))

/-- VPREF: it reads and writes no register and takes no fault; like every access it pulls the absent lines of migrating pages
that hold its elements (R190, R286). (DEDUCED, log entry 47.) -/
def execVpref (f : FmtM) (s : State) : Answer :=
  .next (s.vIssue true true [] [] fun s =>
    let stride := if f.xs = 0#6 then BitVec.ofNat 64 (wmBytes f) else s.x f.xs
    let at_ (e : Nat) : Word := s.x f.xbase + BitVec.ofNat 64 e * stride
    ((s.vec.active f.m.toNat s.th.vl).foldl (fun s e =>
      match locate s s.tr.core s.cred (at_ e) .ld false with
      | (.here .., s) | (.denied _, s) => s.touch .ld (at_ e)
      | (_, s) => s) s).advance)

end Sys2Proof.Machine
end

