-- ==== Sys2Proof/Machine/Tiles.lean ====
section
/-! DEFINITION. Accumulator tiles and weight buffers (chapter 09_tiles): slots, outer products, weight fills, first-fault
loads, tile loads and stores, moves and rows (R193 to R215). -/

namespace Sys2Proof.Machine

/-! The order of issue (R215). -/

/-- Whether two tile instructions name a slot or a weight-buffer byte in common. -/
def TileUse.meets (a b : TileUse) : Bool :=
  a.slots.any b.slots.contains ||
    a.bytes.any fun p => b.bytes.any fun q => decide (p.1 < q.1 + q.2) && decide (q.1 < p.1 + p.2)

/-- The current thread's tile instruction as issued: an instruction that waited keeps its place (R215). -/
def State.issueTile (s : State) (slots : List Nat) (bytes : List (Nat × Nat)) : State :=
  if s.th.tile.isSome then s
  else { s.modTh fun r => { r with tile := some ⟨s.serial, slots, bytes⟩ } with serial := s.serial + 1 }

/-- Whether a tile instruction of the triad that was issued before the current thread's is not complete and names what it
names (R196, R215). -/
def State.tileBehind (s : State) : Bool :=
  s.th.tile.any fun u => roles.any fun r => (s.tr.role r).tile.any fun v => decide (v.order < u.order) && v.meets u

/-- A tile instruction takes effect once those issued before it that name the same slot or bytes have (R215). -/
def State.inOrder (s : State) (slots : List Nat) (bytes : List (Nat × Nat)) (go : State → State) : State :=
  let s := s.issueTile slots bytes
  if s.tileBehind then s.stallOn .granule else go s

/-! Slots. -/

/-- Rows and columns of a tile of a shape (R193). -/
def tileDim (fp64 : Bool) : Nat := if fp64 then 128 else 256

/-- The element format of a shape (R193). -/
def tileFmt (fp64 : Bool) : Fmt := if fp64 then .fp64 else .fp32

/-- The tile of slot ak on a slab. -/
def State.tileAt (s : State) (slab k : Nat) : Tile := s.tile (tileKey slab k)

def State.modTile (s : State) (slab k : Nat) (f : Tile → Tile) : State :=
  { s with tiles := tset (tileKey slab k) (f (s.tileAt slab k)) s.tiles }

/-- The slabs of the current core. -/
def State.mySlabs (s : State) : List Nat := s.slabs s.tr.core

/-- Whether the current triad holds ak on every bound slab (R194). -/
def State.holds (s : State) (k : Nat) : Bool := s.mySlabs.all fun b => (s.tileAt b k).holder == some s.cur.ctxn

/-- The shape of ak on the current core: fp64 or not. -/
def State.slotShape (s : State) (k : Nat) : Bool := (s.tileAt (s.mySlabs.headD 0) k).fp64

/-- `(mask of held slots) << 8 | status` (R196). -/
def State.slotWord (s : State) (status : Nat) : Word :=
  BitVec.ofNat 64 (((nrange 0 8).map fun k => if s.holds k then 2 ^ (8 + k) else 0).sum + status)

/-- The slots that a SLOTS mask names. -/
def slotsOf (f : FmtE) : List Nat := (nrange 0 8).filter fun k => f.fn.toNat.testBit k

/-- A row of a tile. -/
def Tile.row (t : Tile) (i : Nat) : List Nat := tget (List.replicate (tileDim t.fp64) 0) i t.rows

def Tile.flag (t : Tile) (i : Nat) : Bool := smem i t.flags

/-- A tile with a row and its flag replaced. -/
def Tile.setRow (t : Tile) (i : Nat) (r : List Nat) (flag : Bool) : Tile :=
  { t with rows := tset i r t.rows, flags := if flag then sadd i t.flags else sdel i t.flags }

def State.wbuf (s : State) (slab : Nat) : WBuf := tget WBuf.init slab s.wbufs

def State.modWbuf (s : State) (slab : Nat) (f : WBuf → WBuf) : State := { s with wbufs := tset slab (f (s.wbuf slab)) s.wbufs }

/-- Bytes of a weight region, and of a granule (R195). -/
def regionSize : Nat := 0x20000
def granuleSize : Nat := 256

/-- A weight buffer with region k zeroed and its granule bits cleared (R196). -/
def WBuf.zeroRegion (w : WBuf) (k : Nat) : WBuf :=
  { bytes := w.bytes.filter fun c => c.1 / regionSize != k
    pois := w.pois.filter fun g => g / 512 != k
    pend := w.pend.filter fun g => g / 512 != k }

/-- Whether the current triad's gang kept ak, with a shape, on every bound slab (R196). -/
def State.keptHere (s : State) (k : Nat) (fp64 : Bool) : Bool :=
  s.mySlabs.all fun b =>
    let t := s.tileAt b k
    t.holder.isNone && t.kept == some s.tr.gang && t.fp64 == fp64

/-- Takes ak on every bound slab: as it was kept, or zeroed with its region (R196). -/
def State.claim (s : State) (k : Nat) (fp64 inherit : Bool) : State :=
  let c := s.cur.ctxn
  let keep := inherit && s.keptHere k fp64
  s.mySlabs.foldl (fun s b =>
    let s := s.modTile b k fun t =>
      if keep then { t with holder := some c, kept := none } else ⟨fp64, some c, none, [], []⟩
    if keep then s else s.modWbuf b fun w => w.zeroRegion k) s

/-- MTALLOC from the top (R196). -/
def State.mtalloc (s : State) (f : FmtE) : State :=
  let slots := slotsOf f
  let fp64 := fnBits f 8 1 == 1
  let wait := fnBits f 9 1 == 1
  let inherit := fnBits f 10 1 == 1
  let other (k : Nat) : Bool := s.mySlabs.any fun b => match (s.tileAt b k).holder with
    | some c => c != s.cur.ctxn
    | none => false
  if slots.any fun k => s.holds k && s.slotShape k != fp64 then s.done f.xd (s.slotWord stRange)
  else if slots.any other then (if wait then s.stallOn (.mtalloc f) else s.done f.xd (s.slotWord stRange))
  else
    let s := slots.foldl (fun s k => if s.holds k then s else s.claim k fp64 inherit) s
    s.done f.xd (s.slotWord stDone)

/-- MTALLOC (R196). -/
def execMtalloc (f : FmtE) (s : State) : Answer :=
  .next (if s.cur.role ≠ .computer then s.trapDecode else s.mtalloc f)

/-- MTALLOC_WAIT_RELEASE: the current thread's MTALLOC tests its slots again (R196). -/
def execMtallocWaitRelease (s : State) : Answer :=
  .next (match s.th.stall with
    | some (.mtalloc f) => s.mtalloc f
    | _ => s)

/-- MTFREE (R196): it waits for what the triad issued before it on the slots and regions that it names. -/
def execMtfree (f : FmtE) (s : State) : Answer :=
  let slots := slotsOf f
  .next (if s.cur.role ≠ .computer then s.trapDecode
    else s.inOrder slots (slots.map fun k => (k * regionSize, regionSize)) fun s =>
        let mine := slots.filter s.holds
        let kept : Option Nat := if fnBits f 8 1 = 1 then some s.tr.gang else none
        let status := if mine.length = slots.length then stDone else stRange
        let s := mine.foldl (fun s k => s.mySlabs.foldl (fun s b =>
          s.modTile b k fun t => { t with holder := none, kept := kept }) s) s
        s.done f.xd (s.slotWord status))

/-! Operands in slab-local view. -/

/-- The global element that is local element l of slab σ at w bits (R198). -/
def loc (slabs w σ l : Nat) : Nat :=
  let k := 16384 / w
  (l / k * slabs + σ) * k + l % k

/-- The scale of a position and its pair shift: the value that a scale byte and a pair-shift word give at step t (R200, R44). -/
def stepScale (l : Lg) (fmt : Fmt) (x pw pos : Nat) : EScale :=
  if !fmt.narrow || l.scm == 0 then .pow 0
  else if l.scm == 2 then (if l.tsc = 255 then .nan else .pow ((l.tsc : Int) - 127))
  else
    let shift : Nat := if fmt.isPx then nbits pw (2 * (pos / 2)) 2 else 0
    if x = 255 then .nan
    else if l.scm = 3 then (if l.tsc = 255 then .nan else .pow ((x : Int) - 127 - shift + ((l.tsc : Int) - 127)))
    else .pow ((x : Int) - 127 - shift)

/-- A value of an outer product and whether what it was read from is poisoned (R206). -/
structure OxVal where
  val : Val
  pois : Bool
  deriving DecidableEq, Repr

/-- A register operand's value at local element l of slab σ for position p and reduction position pos (R198 to R200). `j` is
the register within the operand, `comp` its companion. -/
def oxRead (v : VecState) (slabs : Nat) (l : Lg) (fmt : Fmt) (o : Opnd) (comp : Option Nat) (σ j loc_ p pos : Nat) : OxVal :=
  let w := fmt.width
  let e := loc slabs w σ loc_
  let raw := elemAt (v.opBits o j) w e % 2 ^ fmt.codeWidth
  match comp with
  | none => ⟨valueOf fmt l.daz false (stepScale l fmt 127 0 pos) raw, v.opPois o j (egOf w e)⟩
  | some c =>
    let byte (i : Nat) : Nat := elemAt (v.reg c) 8 (loc slabs 8 σ i)
    let pw := ((nrange 0 4).map fun i => byte (1024 + 4 * p + i) * 256 ^ i).sum
    let cp := smem (egKey c (egOf 8 (loc slabs 8 σ p))) v.pois ||
      (fmt.isPx && smem (egKey c (egOf 8 (loc slabs 8 σ (1024 + 4 * p)))) v.pois)
    ⟨valueOf fmt l.daz true (stepScale l fmt (byte p) pw pos) raw, v.opPois o j (egOf w e) || cp⟩

/-! Outer products. -/

def oxSteps (f : FmtX) : Nat := f.rep.toNat + 1
def oxKph (f : FmtX) : Nat := f.opv.toNat / 4 % 32
def oxLatb (f : FmtX) : Bool := f.opv.toNat % 2 == 1
def oxQa (f : FmtX) : Bool := f.q.getLsbD 1
def oxQb (f : FmtX) : Bool := f.q.getLsbD 0

/-- The panels that a register of a format holds for R rows (R199). -/
def panels (fmt : Fmt) (r : Nat) : Nat := 32768 / (fmt.width * r)

/-- An operand format that shape 0 takes (R203). -/
def oxFmt (f : Fmt) : Bool := f == .fp32 || f == .fp16 || f == .bf16 || f.narrow

/-- The legend of an outer product, with the checks of R43, R200 and R203; FC is the tile's format. -/
def State.oxLg (s : State) (f : FmtX) : Option Lg :=
  let fp64 := s.slotShape f.ad.toNat
  let suffix := suffixOf f.t
  let lg := legendOf s.tr s.cur.role (s.x f.xl) suffix 7 ⟨true, true, suffix.isNone, false, false⟩
  keepIf (lg.map fun l => if suffix.isSome then { l with fc := tileFmt fp64 } else l) fun l =>
    l.fc == tileFmt fp64 && (if fp64 then l.fa == .fp64 && l.fb == .fp64 else oxFmt l.fa && oxFmt l.fb) &&
      !(s.io.stage == 2 && (l.fa == .fp32 || l.fa == .fp64 || l.fb == .fp32 || l.fb == .fp64)) &&
      (!(l.scaled l.fa || l.scaled l.fb) || oxKph f + oxSteps f ≤ 32)

/-- What one operand of an outer product is: field, format, latched or stepped. -/
structure OxOpnd where
  q : Bool
  fld : Nat
  latched : Bool
  deriving DecidableEq, Repr

/-- The decode checks of an operand (R204). -/
def OxOpnd.decode (o : OxOpnd) (cfg : Word) (n : Nat) : Bool :=
  if o.q then ringReader cfg .computer (o.fld % 8) && (o.latched || n == 1)
  else inPart cfg .computer o.fld (if o.latched then 1 else n)

/-- The companion register of an operand (R204). -/
def OxOpnd.comp (o : OxOpnd) (n : Nat) : Nat := o.fld + if o.latched then 1 else n

/-- The dispatch checks of an operand: its companion, and its panels when it is latched (R199, R204). -/
def OxOpnd.dispatch (o : OxOpnd) (cfg : Word) (l : Lg) (fmt : Fmt) (r n : Nat) : Bool :=
  (!l.scaled fmt || (!o.q && inPart cfg .computer (o.comp n) 1)) && (!o.latched || n ≤ panels fmt r)

def OxOpnd.opnd (o : OxOpnd) : Opnd := if o.q then .ring (o.fld % 8) else .reg o.fld

/-- One row of one step (R205, R206): the new row, its flag, and the events. With no column computed the step reads nothing. -/
def oxRow (l : Lg) (sub : Bool) (ctx : Nat → RCtx) (index : Nat → Nat) (row : List Nat) (flag : Bool) (a : OxVal)
    (cols : List (Nat × OxVal)) (evs : Evs) : List Nat × Bool × Evs :=
  let flag := flag || (a.pois && !cols.isEmpty) || cols.any (·.2.pois)
  let av := if sub then a.val.negate else a.val
  cols.foldl (fun (acc : List Nat × Bool × Evs) c =>
    let x := fmaV l.ctx.mode av c.2.val (plainVal l.fc false (row.getD c.1 0))
    let q := roundTo l.fc (ctx c.1) x.1
    (lset c.1 q.1 acc.1, acc.2.1, if acc.2.1 then acc.2.2 else acc.2.2.add (x.2 ||| q.2) (index c.1)))
    (row, flag, evs)

/-- The steps of an outer product on every bound slab (R205): `rowv σ t i` and `colv σ t j` give the operand values, `cols`
the columns computed. -/
def State.oxRun (s : State) (f : FmtX) (l : Lg) (sub : Bool) (cols : List Nat) (rowv colv : Nat → Nat → Nat → OxVal) :
    State × Evs :=
  let k := f.ad.toNat
  let r := tileDim (s.slotShape k)
  let v := s.vec
  s.mySlabs.zipIdx.foldl (fun (acc : State × Evs) sl =>
    let σ := sl.2
    let rows := (nrange 0 r).filter fun i => decide (σ * r + i < s.th.vl) && v.maskBit f.m.toNat (σ * r + i)
    (nrange 0 (oxSteps f)).foldl (fun (acc : State × Evs) t =>
      let cs := cols.map fun j => (j, colv σ t j)
      let tile := acc.1.tileAt sl.1 k
      let out := rows.foldl (fun (acc : Tile × Evs) i =>
        let ρ := σ * r + i
        let ctx (j : Nat) : RCtx :=
          if l.sr then { l.ctx with low32 := low32 l.seed ρ j (l.sn + BitVec.ofNat 64 t) } else l.ctx
        let q := oxRow l sub ctx (fun j => ρ * r + j) (acc.1.row i) (acc.1.flag i) (rowv σ t i) cs acc.2
        (acc.1.setRow i q.1 q.2.1, q.2.2)) (tile, acc.2)
      (acc.1.modTile sl.1 k fun _ => out.1, out.2)) acc) (s, Evs.none)

/-- The end of an outer product: rings give up their entry, SN advances by n under SR, events merge (R50, R57, R205).
(DEDUCED, log entry 25.) -/
def State.oxEnd (s : State) (f : FmtX) (l : Lg) (rings : List Nat) (e : Evs) : State :=
  let s := s.modVec fun v => v.popRings rings
  (if l.sr then s.bumpSn (oxSteps f) else s).finish e

/-- OXADD and OXSUB (R202 to R206). (DEDUCED, log entry 25.) -/
def State.outer (s : State) (f : FmtX) (sub : Bool) : State :=
  let n := oxSteps f
  let latb := oxLatb f
  let oa : OxOpnd := ⟨oxQa f, f.va.toNat, !latb⟩
  let ob : OxOpnd := ⟨oxQb f, f.vb.toNat, latb⟩
  let cfg := s.vec.cfg
  let k := f.ad.toNat
  let r := tileDim (s.slotShape k)
  let lg := if s.holds k then keepIf (s.oxLg f) fun l =>
      oa.dispatch cfg l l.fa r n && ob.dispatch cfg l l.fb r n else none
  s.vIssue (s.cur.role == .computer && oa.decode cfg n && ob.decode cfg n)
    (match lg with
      | some l => s.vlOk (maxWidth [l.fa.width, l.fb.width])
      | none => false) [oa.opnd, ob.opnd] [] fun s =>
      match lg with
      | none => s.trapDispatch
      | some l => s.inOrder [k] [] fun s =>
        let v := s.vec
        let sl := s.nslabs
        let nc := if f.xs = 0#6 then r else min (s.x f.xs).toNat r
        let pos (t : Nat) : Nat := oxKph f + t
        let comp (o : OxOpnd) (fmt : Fmt) : Option Nat := if l.scaled fmt then some (o.comp n) else none
        let read (o : OxOpnd) (fmt : Fmt) (σ t i : Nat) : OxVal :=
          oxRead v sl l fmt o.opnd (comp o fmt) σ (if o.latched then 0 else t) (if o.latched then t * r + i else i) i (pos t)
        let q := s.oxRun f l sub (nrange 0 nc) (read oa l.fa) (read ob l.fb)
        q.1.oxEnd f l (ringsOf [oa.opnd, ob.opnd]) q.2

/-- OXADD (R205). -/
def execOxadd (f : FmtX) (s : State) : Answer := .next (s.outer f false)
/-- OXSUB (R205). -/
def execOxsub (f : FmtX) (s : State) : Answer := .next (s.outer f true)

/-! Weight streams (R208). -/

/-- A count rounded up to a multiple of 16. -/
def up16 (n : Nat) : Nat := (n + 15) / 16 * 16

/-- The present columns of a bitmap over C columns in blocks of bs (R208). -/
def presentCols (c bs : Nat) (bm : Option Nat) : List Nat :=
  (nrange 0 c).filter fun j => match bm with
    | none => true
    | some m => m.testBit (j / bs)

/-- Bits of a code of a format in a weight panel (R208). -/
def weightBits (f : Fmt) : Nat := if f.narrow then f.codeWidth else f.width

/-- The stream of OXWGT: where its parts lie (R208). -/
structure WStream where
  scales : Nat
  panel : Nat
  total : Nat
  deriving DecidableEq, Repr

def wStream (l : Lg) (np n : Nat) : WStream :=
  let rec_ := if l.scaled l.fb then up16 (if l.fb.isPx then 5 * np else np) else 0
  let panel := up16 (np * weightBits l.fb / 8)
  ⟨rec_, panel, rec_ + n * panel⟩

/-- The granules that n bytes at an offset touch. -/
def granulesOf (o n : Nat) : List Nat := if n = 0 then [] else nrange (o / granuleSize) ((o + n - 1) / granuleSize + 1 - o / granuleSize)

/-- Whether n bytes at an offset lie in weight regions that the current triad holds (R195, R208, R209); a stream of 0 bytes asks for
the region of its offset, where that is 0 or inside a region. (DEDUCED, log entry 91.) -/
def State.inRegions (s : State) (o n : Nat) : Bool :=
  decide (o + n ≤ 8 * regionSize) && (nrange (o / regionSize) ((o + n - 1) / regionSize + 1 - o / regionSize)).all s.holds

/-- A column value of a weight panel on a slab (R200, R206, R208): present column number `idx`, step t. -/
def weightVal (w : WBuf) (l : Lg) (o np : Nat) (st : WStream) (idx t pos : Nat) : OxVal :=
  let wb := weightBits l.fb
  let bit := idx * wb
  let at_ := o + st.scales + t * st.panel + bit / 8
  let len := (bit % 8 + wb + 7) / 8
  let raw := bytesNat (memRead w.bytes at_ len) / 2 ^ (bit % 8) % 2 ^ wb
  let bad (a n : Nat) : Bool := (granulesOf a n).any fun g => smem g w.pois
  let scaled := l.scaled l.fb
  let x := if scaled then bytesNat (memRead w.bytes (o + idx) 1) else 127
  let pw := if scaled && l.fb.isPx then bytesNat (memRead w.bytes (o + np + 4 * idx) 4) else 0
  ⟨valueOf l.fb l.daz scaled (stepScale l l.fb x pw pos) raw,
    bad at_ len || (scaled && (bad (o + idx) 1 || (l.fb.isPx && bad (o + np + 4 * idx) 4)))⟩

/-- OXWGT (R202 to R206, R208). -/
def execOxwgt (f : FmtX) (s : State) : Answer :=
  let n := oxSteps f
  let oa : OxOpnd := ⟨oxQa f, f.va.toNat, true⟩
  let cfg := s.vec.cfg
  let k := f.ad.toNat
  let r := tileDim (s.slotShape k)
  let o := (s.x f.vb).toNat
  let bs := if f.opv.toNat / 2 % 2 = 1 then 32 else 16
  let cols := presentCols r bs (if f.xs = 0#6 then none else some (s.x f.xs).toNat)
  let np := cols.length
  let lg := if s.holds k then keepIf (s.oxLg f) fun l =>
      oa.dispatch cfg l l.fa r n && o % 16 == 0 && s.inRegions o (wStream l np n).total else none
  .next (s.vIssue (s.cur.role == .computer && oa.decode cfg n)
    (match lg with
      | some l => s.vlOk (maxWidth [l.fa.width, l.fb.width])
      | none => false) [oa.opnd] [] fun s =>
      match lg with
      | none => s.trapDispatch
      | some l =>
        let st := wStream l np n
        let grs := granulesOf o st.total
        s.inOrder [k] [(o, st.total)] fun s =>
        if s.mySlabs.any fun b => grs.any fun g => smem g (s.wbuf b).pend then s.stallOn .granule
        else
          let v := s.vec
          let sl := s.nslabs
          let slabs := s.mySlabs
          let pos (t : Nat) : Nat := oxKph f + t
          let comp : Option Nat := if l.scaled l.fa then some (oa.comp n) else none
          let rowv (σ t i : Nat) : OxVal := oxRead v sl l l.fa oa.opnd comp σ 0 (t * r + i) i (pos t)
          let colv (σ t j : Nat) : OxVal :=
            weightVal (s.wbuf (slabs.getD σ 0)) l o np st ((lidx (· == j) cols).getD 0) t (pos t)
          let q := s.oxRun f l (f.opv.toNat % 2 == 1) cols rowv colv
          q.1.oxEnd f l (ringsOf [oa.opnd]) q.2)

/-! MWFILL and MWINV. -/

/-- The target that MWFILL and MWINV may write (R209, R210). -/
def State.fillTarget (s : State) (o n : Nat) : Bool :=
  o % 256 == 0 && n % 256 == 0 && n != 0 && s.inRegions o n

/-- The pieces of an MWFILL's source on every bound slab, or the first fault (R209). -/
def fillPieces (s : State) (a : Word) (n : Nat) : List Nat → Except (Nat × Word × State) (List (List Piece) × State)
  | [] => .ok ([], s)
  | σ :: t =>
    match pieces s s.tr.core s.cred .ld (a + BitVec.ofNat 64 (σ * n)) n with
    | .error e => .error e
    | .ok (ps, s) => match fillPieces s a n t with
      | .error e => .error e
      | .ok (qs, s) => .ok (ps :: qs, s)

/-- Every bound slab's weight buffer with pending bits set or cleared. -/
def State.setPend (s : State) (o n : Nat) (on : Bool) : State :=
  s.mySlabs.foldl (fun s b => s.modWbuf b fun w =>
    { w with pend := if on then saddAll (granulesOf o n) w.pend else sdelAll (granulesOf o n) w.pend }) s

/-- The granules that pieces of a kind fill, from an offset on. -/
def granulesIf (kind : Piece → Bool) : List Piece → Nat → List Nat
  | [], _ => []
  | p :: ps, o => (if kind p then granulesOf o p.len else []) ++ granulesIf kind ps (o + p.len)

/-- A weight buffer with pieces written from an offset on: poisoned granules are marked, and those that are given clean, permitted
data alone are cleared (R209). -/
def fillBuf (s : State) (t : Tid) (ps : List Piece) (o : Nat) (w : WBuf) : WBuf :=
  let bytes := (ps.map (pieceRead s t)).flatten
  let bad := granulesIf (fun p => pieceQuality s t p != .clean) ps o
  let denied := granulesIf (fun p => match p with | .denied _ _ => true | _ => false) ps o
  let all := granulesOf o bytes.length
  { bytes := memWrite w.bytes o bytes
    pois := saddAll bad (sdelAll (all.filter fun g => !denied.contains g) w.pois)
    pend := sdelAll all w.pend }

/-- The fill itself, once every source byte can be read (R209). -/
def State.fillNow (s : State) (f : FmtE) (per : List (List Piece)) : State :=
  let o := (s.x f.xb).toNat
  let t := s.cur
  let all := per.flatten
  let s0 := s
  let s := (s.mySlabs.zip per).foldl (fun s p => s.modWbuf p.1 (fillBuf s0 t p.2 o)) s
  let denied := deniedFrames all
  let s := if denied.isEmpty then s else logDenied s kEngine denied
  let met := (if all.any (fun p => pieceQuality s0 t p != .clean) then [stPoisoned] else []) ++ (if denied.isEmpty then [] else [stDenied])
  s.done f.xd (BitVec.ofNat 64 (topStatus met))

/-- MWFILL goes on: its pages are translated, remote lines asked for, and the fill made when all is here (R209). -/
def State.fillGo (s : State) (f : FmtE) : State :=
  let o := (s.x f.xb).toNat
  let n := (s.x f.xc).toNat
  match fillPieces s (s.x f.xa) n (nrange 0 s.nslabs) with
  | .error (c, b, s) => (s.setPend o n false).trapPage c b 0
  | .ok (per, s) =>
    let far := farOf per.flatten
    let s := askLines s s.cur s.tr.tag far
    let held := per.flatten.any fun p => match p with
      | .here pa _ k _ => markHolds s pa k
      | _ => false
    if held || s.tileBehind || !linesHere s s.cur (far.map (·.1)) then s.stallOn (.mwfill f) else s.fillNow f per

/-- MWFILL (R209): its granules are pending from issue until they are written. -/
def execMwfill (f : FmtE) (s : State) : Answer :=
  let a := s.x f.xa
  let o := (s.x f.xb).toNat
  let n := (s.x f.xc).toNat
  .next (if !s.fillTarget o n then s.trapDispatch
    else if a.toNat % 16 ≠ 0 then s.trapAlign a 0
    else match fillPieces s a n (nrange 0 s.nslabs) with
      | .error (c, b, s) => s.trapPage c b 0
      | .ok (per, s) =>
        (((askLines s s.cur s.tr.tag (farOf per.flatten)).issueTile [] [(o, n)]).setPend o n true).stallOn (.mwfill f))

/-- MWFILL_COMPLETE: the current thread's fill writes its granules and its status (R209). -/
def execMwfillComplete (s : State) : Answer :=
  .next (match s.th.stall with
    | some (.mwfill f) => s.fillGo f
    | _ => s)

/-- MWINV (R210). -/
def execMwinv (f : FmtE) (s : State) : Answer :=
  let o := (s.x f.xa).toNat
  let n := (s.x f.xb).toNat
  .next (if !s.fillTarget o n then s.trapDispatch
    else s.inOrder [] [(o, n)] fun s =>
      if s.mySlabs.any fun b => (granulesOf o n).any fun g => smem g (s.wbuf b).pend then s.stallOn .granule
      else (s.mySlabs.foldl (fun s b => s.modWbuf b fun w =>
      { w with bytes := w.bytes.filter (fun c => c.1 < o || o + n ≤ c.1), pois := sdelAll (granulesOf o n) w.pois }) s).advance)

/-! First-fault loads (R211). -/

/-- Elements of a row of MLDFF (R211). -/
def ffRow (f : FmtM) : Nat := if segWr f = 3 then 128 else 256

/-- Rows before the first with a bad element, and what is bad there (R211). -/
def ffRows (s : State) (rows : List Placed) : List Placed × Option Placed :=
  let bad (p : Placed) : Bool := p.faulted || p.subs.any fun x => (subBad s s.tr.tag (x.1, x.2.1)).isSome
  (rows.takeWhile fun p => !bad p, (rows.dropWhile fun p => !bad p).head?)

/-- The register element of element i of row r (R211). (DEDUCED, log entry 24.) -/
def ffElem (slabs w rl r i : Nat) : Nat := loc slabs w (r % slabs) (r / slabs * rl + i)

/-- Whether data of a part meets an uncorrectable error (R119, R211, R212). -/
def Placed.uncorrectable (s : State) (p : Placed) : Bool := p.subs.any fun x => match x.2.2 with
  | .here pa _ _ => physQuality s pa x.2.1 == .uncorrectable
  | _ => false

/-- Rows loaded in their order up to one that meets an uncorrectable error, which is the last one; its lines have been touched
before it is looked at (R211, R212, R286). -/
def loadRows : List Placed → Logged → List (List Nat × List (Nat × Bool)) × Logged × Option Placed
  | [], l => ([], l, none)
  | p :: t, l =>
    let r := loadOps [p] l
    if p.uncorrectable r.2.s then (r.1, r.2, some p)
    else
      let u := loadRows t r.2
      (r.1 ++ u.1, u.2)

/-- MLDFF (R211). (DEDUCED, log entry 24.) -/
def execMldff (f : FmtM) (s : State) : Answer :=
  let w := wrBits f
  let rl := ffRow f
  let xg := BitVec.ofNat 6 f.imm16.toNat
  let n := (s.x xg).toNat
  let m := wmBytes f
  .next (s.memIssue f (f.m == 0#4) w (decide (n ≤ s.nslabs * (32768 / (w * rl)))) [vField false f.v 1] [] [] [] fun s =>
    let ops := (nrange 0 n).map fun r => (⟨[r], (nrange 0 rl).map fun i =>
      (s.x f.xbase + BitVec.ofNat 64 r * s.x f.xs + BitVec.ofNat 64 (i * m), m)⟩ : MOp)
    let placed := locateOps s.tr.core s.cred .ld ops s
    let s := placed.2
    let cut := ffRows s placed.1
    match cut.1, cut.2 with
    | [], some p =>
      match p.subs.findSome? fun x => (subBad s s.tr.tag (x.1, x.2.1)).map fun b => (x.1, b) with
      | some (a, none) => s.trapAlign a 0
      | some (a, some c) => s.trapPage c a 0
      | none => match p.subs.findSome? fun x => (match x.2.2 with | .fault c => some (x.1, c) | _ => none) with
        | some (a, c) => s.trapPage c a 0
        | none => s.trapDispatch
    | rows, _ =>
      let subs := rows.flatMap (·.subs)
      let far := subs.filterMap fun x => match x.2.2 with
        | .far pa key => some (pa, key)
        | _ => none
      let s := askLines s s.cur s.tr.tag far
      if subs.any fun x => (match x.2.2 with | .here pa _ _ => markHolds s pa x.2.1 | _ => false) then s.stallOn .watermark
      else if !linesHere s s.cur (far.map (·.1)) then s.stallOn .remote
      else
        let r := loadRows rows s.logging
        let out := r.1.flatMap fun p =>
          let row := p.1.headD 0
          let bad := r.2.2.any fun q => q.es.headD 0 == row
          p.2.zipIdx.map fun v =>
            let c := fillConv m (wrBytes f) (segS f) v.1.1
            (ffElem s.nslabs w rl row v.2, c, v.1.2 || bad)
        let evs := out.foldl (fun a x => a.add (if x.2.2 then 0 else x.2.1.2) x.1) Evs.none
        let s := (r.2.1.s.modVec fun v => v.putReg f.v.toNat w (out.map fun x => ⟨x.1, x.2.1.1, x.2.2⟩)).setX xg
          (BitVec.ofNat 64 r.1.length)
        match r.2.2 with
        | none => s.vFinish false evs
        | some p => (s.merge evs).trapAfter cUE (p.es.headD 0) ((p.subs.headD (0, 0, .fault 0)).1))

/-! Tile loads and stores (R212). -/

/-- Whether the current triad may use slot k with elements of 2^WM = 2^WR bytes (R194, R212). -/
def State.tileOk (s : State) (f : FmtM) (k : Nat) : Bool :=
  s.holds k && segWm f == segWr f && segWm f == (if s.slotShape k then 3 else 2)

/-- The active global rows of MTLD and MTST (R212). -/
def State.tileRows (s : State) (f : FmtM) (k : Nat) : List Nat :=
  s.vec.active (s.memMask f.m) (min s.th.vl (s.nslabs * tileDim (s.slotShape k)))

/-- The accesses of the active rows (R212). -/
def State.tileOps (s : State) (f : FmtM) (k : Nat) : List MOp :=
  (s.tileRows f k).map fun ρ => ⟨[ρ], (nrange 0 (tileDim (s.slotShape k))).map fun j =>
    (s.memBase f + BitVec.ofNat 64 ρ * s.x f.xs + BitVec.ofNat 64 (j * wmBytes f), wmBytes f)⟩

/-- The tile and local row that hold a global row (R193). -/
def State.rowHome (s : State) (k ρ : Nat) : Nat × Nat :=
  let r := tileDim (s.slotShape k)
  (s.mySlabs.getD (ρ / r) 0, ρ % r)

/-- How MTLD and MTST perform their accesses: whole (R212, R215). -/
def State.tileManner (s : State) (f : FmtM) (acc : Acc) (w : Nat) : Manner := { s.manner f acc w with whole := true }

/-- MTLD (R212); a row that meets an uncorrectable error keeps its elements. (DEDUCED, log entry 26.) -/
def execMtld (f : FmtM) (s : State) : Answer :=
  let k := f.v.toNat
  let w := if s.slotShape k then 64 else 32
  .next (s.memIssue f true w (s.tileOk f k) [] [] [] [] fun s => s.inOrder [k] [] fun s =>
    match s.vPlan (s.tileManner f .ld w) [] (s.tileOps f k) with
    | .stop s => s
    | .ready perf fin kept s =>
      let r := loadRows perf (s.logging kept)
      let failing := (r.2.2.map fun p => p.es.headD 0)
      let s := r.1.foldl (fun s p =>
        let h := s.rowHome k (p.1.headD 0)
        if failing = some (p.1.headD 0) then s.modTile h.1 k fun t => t.setRow h.2 (t.row h.2) true
        else s.modTile h.1 k fun t => t.setRow h.2 (p.2.map (·.1)) (p.2.any (·.2))) r.2.1.s
      let l : Logged := { r.2.1 with s := s }
      match r.2.2, fin with
      | none, _ => State.memEnd l fin [] Evs.none
      | some p, .done (some (q, left)) =>
        State.memEnd l (.done (some (q, left ++ (perf.dropWhile fun o => o.es != p.es).flatMap (·.es)))) [] Evs.none
      | some p, _ => s.trapAfter cUE (p.es.headD 0) ((p.subs.headD (0, 0, .fault 0)).1))

/-- MTST (R212). -/
def execMtst (f : FmtM) (s : State) : Answer :=
  let k := f.v.toNat
  let w := if s.slotShape k then 64 else 32
  .next (s.memIssue f true w (s.tileOk f k) [] [] [] [] fun s => s.inOrder [k] [] fun s =>
    match (s.tileRows f k).find? fun ρ => let h := s.rowHome k ρ; (s.tileAt h.1 k).flag h.2 with
    | some ρ => s.trapPoison (0x80 + k) ρ
    | none => match s.vPlan (s.tileManner f .st w) [] (s.tileOps f k) with
      | .stop s => s
      | .ready perf fin _ s =>
        let val (es : List Nat) (j : Nat) : Nat :=
          let h := s.rowHome k (es.headD 0)
          ((s.tileAt h.1 k).row h.2).getD j 0
        State.memEnd (storeOps f.stream.toNat false val perf s.logging) fin [] Evs.none)

/-! Zero, move and rows. -/

def unitSlot (f : FmtE) : Nat := f.unit.toNat % 8

/-- MTZERO (R213). -/
def execMtzero (f : FmtE) (s : State) : Answer :=
  let k := unitSlot f
  .next (if !s.holds k then s.trapDispatch
    else s.inOrder [k] [] fun s =>
      (s.mySlabs.foldl (fun s b => s.modTile b k fun t => { t with rows := [], flags := [] }) s).advance)

/-- The moved tile and its events (R213). -/
def moveTile (op σ : Nat) (d a : Tile) : Tile × Evs :=
  let r := tileDim d.fp64
  let fm := tileFmt d.fp64
  if op = 0 then ({ d with rows := a.rows, flags := a.flags }, Evs.none)
  else if op = 1 then
    let cols := (nrange 0 r).map a.row
    ({ d with
        rows := (nrange 0 r).map fun i => (i, cols.map fun c => c.getD i 0)
        flags := if a.flags.isEmpty then [] else nrange 0 r }, Evs.none)
  else
    (nrange 0 r).foldl (fun (acc : Tile × Evs) i =>
      let flag := d.flag i || a.flag i
      let out := (List.zip (d.row i) (a.row i)).map fun p =>
        let x := addV .rne (plainVal fm false p.1) (plainVal fm false p.2)
        let q := roundTo fm ⟨.rne, false, false, 0⟩ x.1
        (q.1, x.2 ||| q.2)
      (acc.1.setRow i (out.map (·.1)) flag,
       if flag then acc.2 else out.zipIdx.foldl (fun e p => e.add p.1.2 ((σ * r + i) * r + p.2)) acc.2)) (d, Evs.none)

/-- MTMOV (R213). -/
def execMtmov (f : FmtE) (s : State) : Answer :=
  let d := unitSlot f
  let a := fnBits f 0 3
  .next (if !(s.holds d && s.holds a && s.slotShape d == s.slotShape a) then s.trapDispatch
    else s.inOrder [d, a] [] fun s =>
      let r := s.mySlabs.zipIdx.foldl (fun (acc : State × Evs) b =>
        let q := moveTile (fnBits f 3 2) b.2 (acc.1.tileAt b.1 d) (acc.1.tileAt b.1 a)
        (acc.1.modTile b.1 d fun _ => q.1, acc.2.join q.2)) (s, Evs.none)
      r.1.finish r.2)

/-- MTROW (R214). -/
def execMtrow (f : FmtE) (s : State) : Answer :=
  let k := unitSlot f
  let w := if s.slotShape k then 64 else 32
  let put := fnBits f 0 1 == 1
  let fld := vField false f.xd 1
  .next (s.vIssue (vDecode s.vec.cfg s.cur.role 1 (if put then [] else [fld]) (if put then [fld] else []))
    (s.holds k && s.vlOk w) [] [] fun s => s.inOrder [k] [] fun s =>
      let c := tileDim (s.slotShape k)
      let ρ := (s.x f.xb).toNat
      if s.nslabs * c ≤ ρ then s.advance
      else
        let h := s.rowHome k ρ
        let t := s.tileAt h.1 k
        let act := nrange 0 (min c s.th.vl)
        if put then
          let v := s.vec
          let bad := act.any fun j => v.opPois (.reg f.xd.toNat) 0 (egOf w j)
          let row := act.foldl (fun r j => lset j (elemAt (v.reg f.xd.toNat) w j) r) (t.row h.2)
          let flag := bad || (t.flag h.2 && decide (act.length < c))
          (s.modTile h.1 k fun t => t.setRow h.2 row flag).advance
        else
          (s.modVec fun v => v.putReg f.xd.toNat w (act.map fun j =>
            ⟨j, (t.row h.2).getD j 0, t.flag h.2⟩)).advance)

end Sys2Proof.Machine
end

