-- ==== Sys2Proof/Machine/Arbiter.lean ====
section
/-! DEFINITION. Arbitration for the vector unit of a core (R92): which roles are ready, and which of them issues. -/

namespace Sys2Proof.Machine

/-! What the decode checks of a vector instruction look at. -/

/-- The register operands of a vector instruction and the group size, with the checks of its fields that depend on no
register: group, mask and mask register, scope and the codes of its entry (R74 to R77). -/
structure VOps where
  g : Nat
  dsts : List VField
  srcs : List VField
  fine : Bool
  deriving DecidableEq, Repr

/-- A format-V instruction of groups: one destination and n sources. -/
def vGroups (f : FmtV) (n : Nat) (fine : Bool := true) : VOps := ⟨f.g, [vField f.qd f.vd f.g], vFields f n, fine⟩

/-- A format-V instruction that has no groups (R153). -/
def vSingle (f : FmtV) (dsts srcs : List VField) (fine : Bool := true) : VOps := ⟨1, dsts, srcs, f.grp == 0#2 && fine⟩

/-- A format-M instruction. -/
def vMem (f : FmtM) (dsts srcs : List VField) (fine : Bool := true) : VOps :=
  ⟨1, dsts, srcs, !scopeBank f.scope.toNat && fine⟩

/-- A mask instruction that writes a mask register (R149). -/
def vMask (f : FmtV) (fine : Bool := true) : VOps := ⟨1, [], [], maskNo f.vd != 0 && fine⟩

/-- The source field of an operand of an outer product of n steps (R204). -/
def oxField (latched q : Bool) (v : BitVec 6) (n : Nat) : VField :=
  ⟨q, v.toNat, if latched then 1 else n, 1, latched || n == 1⟩

/-- The operands of each vector instruction; none for an instruction of another kind. -/
def vOps : Instr → Option VOps
  | .vadd f | .vsub f | .vmul f | .vmulh f | .vdiv f | .vrem f | .vmin f | .vmax f | .vavg f | .vscalb f | .vand f | .vor f
  | .vxor f | .vandn f | .vshl f | .vshr f | .vsra f | .vrotl f | .vperm f | .vlut f => some (vGroups f 2)
  | .vmerge f => some (vGroups f 2 (f.m == 0#4))
  | .vabs f | .vneg f | .vsqrt f | .vrsqrt f | .vrcp f | .vlogb f | .vclass f | .vnot f | .vclz f | .vpopc f | .vbrev f
  | .vmov f | .vcvt f | .vunpack f | .vshuf f | .vslideup f | .vslidedn f => some (vGroups f 1)
  | .vfma f | .vfms f | .vfnma f | .vfnms f | .vclamp f | .vsel f => some (vGroups f 3)
  | .vbcast f | .vramp f => some (vGroups f 0)
  | .vcmp f => some (vSingle f [] (vFields f 2) (f.vd.toNat % 16 != 0))
  | .vmovx f => some (vSingle f [] [vField f.qa f.va 1] (f.m == 0#4))
  | .vinsx f => some (vSingle f [vField false f.vd 1] [] (f.m == 0#4 && !f.qd))
  | .vmand f | .vmor f | .vmxor f | .vmnot f | .vmandn f | .vmmov f | .vmsetf f => some (vMask f)
  | .vmfromx f => some (vMask f (f.m == 0#4))
  | .vmtox f => some ⟨1, [], [], f.m == 0#4⟩
  | .vredsum f | .vredmin f | .vredmax f | .vscan f | .vredlog f | .vpackDense f =>
    some (vSingle f [vField f.qd f.vd 1] (vFields f 1))
  | .vcompress f | .vexpand f => some (vSingle f [vField f.qd f.vd 1] (vFields f 1) (f.m == 0#4))
  | .vreddot f => some (vSingle f [vField f.qd f.vd 1] (vFields f 2))
  | .vredarg f => some (vSingle f [] (vFields f 1))
  | .vwelf f => some (vSingle f [vMulti f.qd f.vd 4 4] (vFields f 1))
  | .vwmerge f => some (vSingle f [vMulti f.qd f.vd 4 4] [vMulti f.qa f.va 4 4, vMulti f.qb f.vb 4 4])
  | .vtopk f => some (vSingle f [vMulti f.qd f.vd 2 2] (vFields f 1))
  | .vpackQuant f => some (vSingle f [vMulti f.qd f.vd 2 1] (vFields f 1))
  | .vld f | .vlds f => some (vMem f [vField false f.v 1] [])
  | .qld f | .qlds f => some (vMem f [vField true f.v 1] [])
  | .vst f | .vsts f => some (vMem f [] [vField false f.v 1])
  | .qst f | .qsts f => some (vMem f [] [vField true f.v 1])
  | .vlseg f => some (vMem f [vMulti false f.v (nfOf f) 1] [])
  | .vsseg f => some (vMem f [] [vMulti false f.v (nfOf f) 1])
  | .vlblk f => some (vMem f [vMulti false f.v 2 1] [] (blkFmt f).isSome)
  | .vsblk f => some (vMem f [] [vMulti false f.v 2 1] (blkFmt f).isSome)
  | .vgath f => some (vMem f [vField false f.v 1] [vField false f.xs 1])
  | .qgath f => some (vMem f [vField true f.v 1] [vField false f.xs 1])
  | .vscat f => some (vMem f [] [vField false f.v 1, vField false f.xs 1])
  | .vgathw f =>
    let outside (k : Nat) : Bool := k < gwFirst f || gwFirst f + gwSize f ≤ k
    some (vMem f [vField false f.v 1, ⟨false, gwFirst f, gwSize f, gwSize f, false⟩] [vField false f.xs 1]
      (gwMo f != 0 && outside f.v.toNat && outside f.xs.toNat))
  | .vscadd f => some (vMem f [] [vField false f.v 1, vField false f.xs 1, vField false (BitVec.ofNat 6 (scaddVc f)) 1])
  | .vamo f =>
    some (vMem f (if vamoRet f then [vField false f.v 1] else []) [vField false f.v 1, vField false f.xs 1])
  | .oxadd f | .oxsub f =>
    some ⟨1, [], [oxField (!oxLatb f) (oxQa f) f.va (oxSteps f), oxField (oxLatb f) (oxQb f) f.vb (oxSteps f)], true⟩
  | .oxwgt f => some ⟨1, [], [oxField true (oxQa f) f.va (oxSteps f)], true⟩
  | .mldff f => some (vMem f [vField false f.v 1] [] (f.m == 0#4))
  | .mtld f | .mtst f => some (vMem f [] [])
  | .mtrow f =>
    if fnBits f 0 1 = 1 then some ⟨1, [], [vField false f.xd 1], true⟩ else some ⟨1, [vField false f.xd 1], [], true⟩
  | .vnbr f | .vface f => some (vMem f [vField (meshRing f) f.v 1] (if meshIdx f then [vField false f.xs 1] else []))
  | _ => none

/-- Whether a role may issue an instruction, its rounding field included (R45, R72). -/
def roleMay (r : Role) : Instr → Bool
  | .oxadd _ | .oxsub _ | .oxwgt _ | .mtalloc _ | .mtfree _ | .vfetch _ => r == .computer
  | .cstream _ | .ctensor _ | .cremap _ => r == .loader
  | .vadd f | .vsub f | .vmul f | .vmulh f | .vdiv f | .vrem f | .vfma f | .vfms f | .vfnma f | .vfnms f | .vsqrt f
  | .vrsqrt f | .vrcp f | .vavg f | .vscalb f | .vlogb f | .vcvt f => srOk r f.rm.toNat
  | _ => true

/-- Whether the operands of a vector instruction pass the decode checks of the role that issues it (R74 to R76). -/
def VOps.passes (o : VOps) (cfg : Word) (r : Role) : Bool := o.fine && vDecode cfg r o.g o.dsts o.srcs

/-- The rings that an instruction reads, and the one that it writes. -/
def VOps.reads (o : VOps) : List Nat := o.srcs.filterMap fun v => if v.q then some (v.fld % 8) else none
def VOps.write (o : VOps) : Option Nat := (o.dsts.find? (·.q)).map (·.fld % 8)

/-! Readiness. -/

/-- Whether the current thread's next vector instruction has passed decode and is not stalled (R91, R92). -/
def wordReady (s : State) (w : Word) : Bool :=
  vectorOp (wordOp w).toNat && (match decode w with
    | .error _ => false
    | .ok i => roleMay s.cur.role i && (vOps i).all fun o =>
        o.passes s.vec.cfg s.cur.role && !s.ringBlock o.reads o.write)

/-- Whether the VFETCH of the current thread has a cohort to issue (R92, R94). -/
def cohortReady (s : State) : Bool :=
  match s.vec.vp with
  | some v => v.cohort.isNone && s.th.want.isEmpty && (v.nextPc.bind v.wordAt).isSome
  | none => false

/-- Whether a thread is ready for the vector unit (R92). (DEDUCED, log entry 53.) -/
def vectorReady (s : State) (t : Tid) : Bool :=
  let s := { s with cur := t }
  s.tr.live t.role && (match s.th.stall with
    | none => s.th.word.any (wordReady s)
    | some (.vfetch _) => t.role == .computer && cohortReady s
    | some _ => false)

/-! The choice. -/

/-- How many issues ago a role of a triad issued last; a role that has not issued counts as longest ago (R92). -/
def lastIssue (hist : List Role) (r : Role) : Nat := (lidx (· == r) hist).getD 1000

/-- The role that R92 picks among ready ones. (DEDUCED, log entry 53.) -/
def pickRole (hist : List Role) (ready : List Role) : Option Role :=
  let stale := ready.filter fun r => 7 ≤ lastIssue hist r
  let oldest (rs : List Role) : Option Role :=
    (lsort (fun a b => decide (lastIssue hist b ≤ lastIssue hist a)) rs).head?
  match oldest stale with
  | some r => some r
  | none => if ready.contains .computer then some .computer else oldest ready

/-- The history of a triad's issues, as far back as R92 looks. -/
def pushIssue (hist : List Role) (r : Role) : List Role :=
  let h := r :: hist
  h.take 7 ++ (ldedup (h.drop 7)).filter fun q => !(h.take 7).contains q

/-- The started triad in a slot of a core. -/
def slotTriad (s : State) (core slot : Nat) : Option Nat :=
  (s.triads.find? fun p => p.2.core == core && p.2.slot == slot && !p.2.parked).map (·.1)

/-- The ready roles of the triad in a slot. -/
def readyRoles (s : State) (core slot : Nat) : List Role :=
  match slotTriad s core slot with
  | some c => roles.filter fun r => vectorReady s ⟨c, r⟩
  | none => []

/-- The slot that a core serves next: the first one after the slot served last whose triad has a ready role (R92). -/
def nextSlot (s : State) (core : Nat) : Option Nat :=
  ((nrange ((s.core core).lastSlot + 1) 4).map (· % 4)).find? fun j => !(readyRoles s core j).isEmpty

/-- VECTOR_ISSUE: the core's arbiter picks a ready role, whose instruction or cohort runs next; how far its lane
groups then get is open (R92, R130). (DEDUCED, log entry 53; DESIGN CHOICE, log entry 86.) -/
def execVectorIssue (s : State) : Answer :=
  let core := s.occ.n
  .next (match nextSlot s core with
    | none => s
    | some j => match slotTriad s core j with
      | none => s
      | some c => match pickRole (s.triad c).issued (readyRoles s core j) with
        | none => s
        | some r =>
          let s := (s.modCore core fun k => { k with lastSlot := j }).modTriad c fun t =>
            { t with issued := pushIssue t.issued r }
          { s with agenda := .run ⟨c, r⟩ :: s.agenda, slip := some (Config.freeValue s.fresh), fresh := s.fresh + 1 })

end Sys2Proof.Machine
end

