-- ==== Sys2Proof/Machine/Banks.lean ====
section
/-! DEFINITION. Bank commands: the steps of BKOP, admission to the queues of the bank arithmetic units, their application and
BKFENCE (R260 to R269). -/

namespace Sys2Proof.Machine

/-- The format that FMT names (R263). -/
def bankFmt (c : Nat) : Fmt := if c = 0 then .fp32 else if c = 1 then .fp64 else .bf16

/-- The accumulation format F′ (R263). -/
def bankAcc (c : Nat) : Fmt := if c = 1 then .fp64 else .fp32

/-- Element sizes in bytes of FMT and of F′. -/
def bankEsz (c : Nat) : Nat := (bankFmt c).width / 8
def bankAsz (c : Nat) : Nat := (bankAcc c).width / 8

/-- The BAU that owns a local physical address (R260). -/
def bauOf (pa : Nat) : Nat := 64 * nbits pa 8 3 + nbits pa 11 6

/-- The bank rows that n bytes from a meet, by their first addresses (R260). -/
def bankRows (a n : Nat) : List Nat :=
  if n = 0 then [] else (nrange (a / 256) ((a + n - 1) / 256 + 1 - a / 256)).map (· * 256)

/-- The first address of n bytes from a in each 64 KiB granule. -/
def granules (a n : Nat) : List Nat :=
  if n = 0 then [] else a :: (nrange (a / 65536 + 1) ((a + n - 1) / 65536 - a / 65536)).map (· * 65536)

/-- The sizes of a command's ranges in bytes: elements, and the words that ROWRED writes. -/
def BankCmd.len (c : BankCmd) : Nat := c.n * bankEsz c.fmt
def BankCmd.rows (c : BankCmd) : List Nat := bankRows c.d c.len
def BankCmd.resLen (c : BankCmd) : Nat := c.rows.length * bankAsz c.fmt

/-- The destination of element i (R265). -/
def BankCmd.dest (c : BankCmd) (i : Nat) : Nat := (c.d + (if c.op = 6 then c.idx.getD i 0 else i) * bankEsz c.fmt) % 2 ^ 64

/-- The ranges of operands that registers give, with the access that each is translated for: destination, source, and
result or indices (R263, R264). -/
def BankCmd.ranges (c : BankCmd) : List (Nat × Nat × Acc) :=
  match c.op with
  | 5 => [(c.d, c.len, .ld), (c.u, c.resLen, .st)]
  | 6 => [(c.s, c.len, .ld), (c.u, 4 * c.n, .ld)]
  | _ => [(c.d, c.len, .rmw), (c.s, c.len, .ld)]

/-- Whether two ranges meet. -/
def rangesMeet (a n b m : Nat) : Bool := decide (a < b + m) && decide (b < a + n)

/-- Step 2 of R264. -/
def BankCmd.badRange (c : BankCmd) : Bool :=
  decide (2 ^ 24 < c.n) || (c.ranges.any fun r => r.2.1 != 0 && decide (2 ^ 57 < r.1 + r.2.1)) ||
    (decide (c.op ≤ 4) && c.s != c.d && rangesMeet c.d c.len c.s c.len) ||
    (c.op == 5 && rangesMeet c.d c.len c.u c.resLen)

/-- Step 3 of R264: the first address that is not aligned. -/
def BankCmd.misaligned (c : BankCmd) : Option Nat :=
  let e := bankEsz c.fmt
  let l : List (Nat × Nat) :=
    [(c.d, e)] ++ (if c.op = 5 then [(c.u, bankAsz c.fmt)] else [(c.s, e)]) ++ (if c.op = 6 then [(c.u, 4)] else [])
  (l.find? fun p => p.1 % p.2 != 0).map (·.1)

/-! Step 4. -/

/-- A granule that a bank command touches: its number, frame, key slot, whether it is denied and the frame to log. -/
structure BPage where
  gran : Nat
  frame : Nat
  key : Nat
  denied : Bool
  payload : Nat
  deriving DecidableEq, Repr

/-- Translates addresses in turn, one for each granule; a fault names its cause and address. -/
def bankPages (core : Nat) (cr : Cred) (acc : Acc) : List Nat → State → List BPage → Except (Nat × Nat × State) (List BPage × State)
  | [], s, ps => .ok (ps, s)
  | va :: t, s, ps =>
    match translate s core cr va acc false with
    | (.fault k, s) => .error (k, va, s)
    | (.ok pa key _ denied lvl _, s) =>
      bankPages core cr acc t s (ps ++ [⟨va / 65536, pa - va % 65536, key, denied, (pa - va % 2 ^ pageShift lvl) / 65536⟩])

/-- The same for several ranges. -/
def bankRanges (core : Nat) (cr : Cred) : List (Nat × Nat × Acc) → State → List BPage →
    Except (Nat × Nat × State) (List BPage × State)
  | [], s, ps => .ok (ps, s)
  | (a, n, acc) :: t, s, ps =>
    match bankPages core cr acc (granules a n) s ps with
    | .error e => .error e
    | .ok (ps, s) => bankRanges core cr t s ps

/-- The lowest place in pieces whose data is bad, with its quality. -/
def firstBadPiece (s : State) (t : Tid) : List Piece → Nat → Option (Nat × Quality)
  | [], _ => none
  | p :: ps, off => if pieceQuality s t p = .clean then firstBadPiece s t ps (off + p.len) else some (off, pieceQuality s t p)

/-- The frames that pieces lie in. -/
def Piece.frameOf : Piece → Nat
  | .here pa _ _ _ => pa
  | .far pa _ _ => pa
  | .denied f _ => f * 65536

/-- The bytes of a range read for a BKOP that waits for remote lines first; the pieces say where they lie. -/
def bankFetch (s : State) (a n : Nat) : Res (List Piece) :=
  match pieces s s.tr.core s.cred .ld (BitVec.ofNat 64 a) n with
  | .error (c, b, s) => .stop (s.trapPage c b 0)
  | .ok (ps, s) =>
    let s := askLines s s.cur s.tr.tag (farOf ps)
    if linesHere s s.cur ((farOf ps).map (·.1)) then .ok ps s else .stop (s.stallOn .remote)

/-- The elements of w bytes that pieces hold, each with whether its data is bad. -/
def bankVals (s : State) (ps : List Piece) (w : Nat) : List (Nat × Bool) :=
  ps.flatMap fun p =>
    let bad := pieceQuality s s.cur p != .clean
    (lchunks w (p.len / w + 1) (pieceRead s s.cur p)).map fun b => (bytesNat b, bad)

/-- The reads of ISCAT: its indices and values, taken once (R264). (DEDUCED, log entry 33.) -/
def bankRead (s : State) (c : BankCmd) : Res (BankCmd × List Nat) :=
  if c.op ≠ 6 then .ok (c, []) s
  else match bankFetch s c.u (4 * c.n) with
    | .stop s => .stop s
    | .ok is s => match firstBadPiece s s.cur is 0 with
      | some (off, q) =>
        .stop (s.trap (if q = .poisoned then cPOISON else cUE) 0 0 (BitVec.ofNat 64 (c.u + off)))
      | none => match bankFetch s c.s c.len with
        | .stop s => .stop s
        | .ok vs s =>
          .ok ({ c with idx := (bankVals s is 4).map (·.1), vals := bankVals s vs (bankEsz c.fmt) },
            (is ++ vs).map Piece.frameOf) s

/-- The destination addresses of ISCAT, one for each granule. -/
def BankCmd.scatGranules (c : BankCmd) : List Nat :=
  if c.op ≠ 6 then []
  else
    let as := (nrange 0 c.n).map c.dest
    (ldedup ((as.filter (· < 2 ^ 57)).map (· / 65536))).map fun g => (as.find? (fun a => a / 65536 == g)).getD 0

/-- Whether a destination of ISCAT is no virtual address (R264). -/
def BankCmd.scatOut (c : BankCmd) : Bool := c.op == 6 && ((nrange 0 c.n).map c.dest).any fun a => decide (2 ^ 57 ≤ a)

/-- Where a virtual address of a command lies, and its key slot. -/
def BankCmd.place (c : BankCmd) (va : Nat) : Nat × Nat :=
  let p := tget (0, 0) (va / 65536) c.pages
  (p.1 + va % 65536, p.2)

/-- The spans of memory that a command writes: of the elements, or of ROWRED's words. -/
def BankCmd.written (c : BankCmd) : List (Nat × Nat) :=
  match c.op with
  | 5 => [(c.u, c.resLen)]
  | 6 => (nrange 0 c.n).map fun i => (c.dest i, bankEsz c.fmt)
  | _ => [(c.d, c.len)]

/-- The local physical addresses of bank rows that a span of virtual addresses rangesMeet. -/
def BankCmd.physRows (c : BankCmd) (a n : Nat) : List Nat := (bankRows a n).map fun r => (c.place r).1

/-- The BAUs whose queues a command needs (R267). -/
def BankCmd.needs (c : BankCmd) : NatSet :=
  let rows := (c.written.flatMap fun w => c.physRows w.1 w.2) ++ (if c.op = 5 then c.physRows c.d c.len else [])
  saddAll (ldedup (rows.map bauOf)) []

/-- The frames in which a destination rangesMeet a sealed mesh extent (R264, R296). -/
def BankCmd.sealedFrames (s : State) (c : BankCmd) (ps : List BPage) : List Nat :=
  (c.written.flatMap fun w => granules w.1 w.2 |>.filterMap fun va =>
    let n := min (65536 - va % 65536) (w.1 + w.2 - va)
    if inSealed s (c.place va).1 n then (ps.find? (fun p => p.gran == va / 65536)).map (·.payload) else none)

/-! Step 5. -/

/-- Whether every queue of a set has a free entry (R264). -/
def bankRoom (s : State) (need : NatSet) : Bool :=
  need.all fun b => decide ((s.bank.filter fun c => smem b c.left).length < 32)

/-- Whether an older command waits for one of the same queues (R264). -/
def olderWaits (s : State) (c : BankCmd) : Bool :=
  s.triads.any fun p => roles.any fun r => match (p.2.role r).stall with
    | some (.bkop d _) => decide (d.order < c.order) && d.left.any (smem · c.left)
    | _ => false

/-- The lines that a command touches, by their virtual addresses. -/
def BankCmd.lines (c : BankCmd) : List Nat :=
  ((c.written ++ (if c.op = 6 then [] else if c.op = 5 then [(c.d, c.len)] else [(c.s, c.len)])).flatMap fun w =>
    linesOf w.1 w.2).map (· * 64)

/-- Pulls the absent lines of migrating pages that a command touches (R265, R286). (DEDUCED, log entry 33.) -/
def bankPull (s : State) (c : BankCmd) : State :=
  let mig (va : Nat) : Bool := match (translate s c.core s.cred va .ld false).1 with
    | .ok _ _ _ _ _ e => entMig e == 1
    | .fault _ => false
  let gs := (c.pages.map (·.1)).filter fun g => mig (g * 65536)
  (c.lines.filter fun va => gs.contains (va / 65536)).foldl (fun s va => (translate s c.core s.cred va .ld true).2) s

/-- Takes an entry in every queue that the command needs, or waits (R264, steps 5 and 6). -/
def State.bankEnter (s : State) (c : BankCmd) (xd : Nat) : State :=
  if bankRoom s c.left && !olderWaits s c then
    let s := bankPull s c
    { s with bank := s.bank ++ [c] }.done (BitVec.ofNat 6 xd) (BitVec.ofNat 64 stDone)
  else s.stallOn (.bkop c xd)

/-- Step 4 after the reads, then step 5 (R264). -/
def State.bankCheck (s : State) (f : FmtE) (c : BankCmd) (frames : List Nat) : State :=
  match bankRanges s.tr.core s.cred c.ranges s [] with
  | .error (k, va, s) => s.trapPage k (BitVec.ofNat 64 va) 0
  | .ok (ps, s) => match bankPages s.tr.core s.cred .rmw c.scatGranules s ps with
    | .error (k, va, s) => s.trapPage k (BitVec.ofNat 64 va) 0
    | .ok (ps, s) =>
      let c := { c with pages := ps.foldl (fun t (p : BPage) => tset p.gran (p.frame, p.key) t) [] }
      if c.scatOut || ps.any (fun p => !inHbm p.frame) || frames.any (fun a => !inHbm a) then
        s.done f.xd (BitVec.ofNat 64 stRange)
      else
        let bad := ldedup ((ps.filter (·.denied)).map (·.payload) ++ c.sealedFrames s ps)
        if bad.isEmpty then s.bankEnter { c with left := c.needs } f.xd.toNat
        else (bad.foldl (fun s fr => denyPush s (denyOf s s.cur kEngine fr)) s).done f.xd (BitVec.ofNat 64 stDenied)

/-- BKOP (R264). (DEDUCED, log entry 33.) -/
def State.bkop (s : State) (f : FmtE) (op : Nat) : State :=
  let c : BankCmd := {
    tid := some s.cur, entry := (entryOf s s.cur).getD 0, core := s.tr.core, asid := asidOf s.tr.ptbase, order := s.serial, op := op,
    fmt := fnBits f 4 2, red := fnBits f 6 2, d := (s.x f.xa).toNat, s := (s.x f.xb).toNat, n := (s.x f.xc).toNat,
    u := (s.x (f.unit.setWidth 6)).toNat, alpha := s.x (f.unit.setWidth 6), idx := [], vals := [], pages := [], left := [],
    sums := [], met := [] }
  if c.badRange then s.done f.xd (BitVec.ofNat 64 stRange)
  else if c.n = 0 then s.done f.xd (BitVec.ofNat 64 stDone)
  else match c.misaligned with
    | some a => s.trapAlign (BitVec.ofNat 64 a) 0
    | none => match bankRead { s with serial := s.serial + 1 } c with
      | .stop s => s
      | .ok (c, frames) s => s.bankCheck f c frames

/-- BKOP add (R263, R265). -/
def execBkopAdd (f : FmtE) (s : State) : Answer := .next (s.bkop f 0)
/-- BKOP min (R263, R265). -/
def execBkopMin (f : FmtE) (s : State) : Answer := .next (s.bkop f 1)
/-- BKOP max (R263, R265). -/
def execBkopMax (f : FmtE) (s : State) : Answer := .next (s.bkop f 2)
/-- BKOP fma (R263, R265). -/
def execBkopFma (f : FmtE) (s : State) : Answer := .next (s.bkop f 3)
/-- BKOP scadd (R263, R265). -/
def execBkopScadd (f : FmtE) (s : State) : Answer := .next (s.bkop f 4)
/-- BKOP rowred (R263, R265). -/
def execBkopRowred (f : FmtE) (s : State) : Answer := .next (s.bkop f 5)
/-- BKOP iscat (R263, R265). -/
def execBkopIscat (f : FmtE) (s : State) : Answer := .next (s.bkop f 6)

/-- BKOP_QUEUE_ADMISSION: the current thread's BKOP at step 5 is admitted when its queues have room (R264). -/
def execBkopQueueAdmission (s : State) : Answer :=
  .next (match s.th.stall with
    | some (.bkop c xd) => s.bankEnter c xd
    | _ => s)

/-! Application. -/

/-- The value that w bytes of a command hold, and whether they are poisoned or meet an uncorrectable error. -/
def bankGet (s : State) (c : BankCmd) (va w : Nat) : Nat × Bool :=
  let p := c.place va
  (physNat s p.1 w p.2, physQuality s p.1 w != .clean)

/-- Stores w bytes of a command; a poisoned result marks its line. Bytes that have been sealed since the command's issue are not
written (R296). -/
def bankPut (s : State) (c : BankCmd) (va w v : Nat) (pois : Bool) : State :=
  let p := c.place va
  if inSealed s p.1 w then s
  else
    let s := physWrite s p.1 (natBytes w v) p.2
    if pois then physPoison s p.1 w p.2 else s

/-- A command one of whose destinations on a BAU was sealed since its issue ends DENIED (R296). (DEDUCED, log entry 33.) -/
def bankSealed (s : State) (c : BankCmd) (b : Nat) : BankCmd :=
  let at_ (va n : Nat) : Bool := let p := c.place va; bauOf p.1 == b && inSealed s p.1 n
  let hit := if c.op = 5 then (nrange 0 c.rows.length).any fun k => at_ (c.u + k * bankAsz c.fmt) (bankAsz c.fmt)
    else (nrange 0 c.n).any fun i => at_ (c.dest i) (bankEsz c.fmt)
  if hit then { c with met := stDenied :: c.met } else c

/-- RNE with SAT, DAZ and FTZ 0 (R264). -/
def bankCtx : RCtx := ⟨.rne, false, false, 0⟩

/-- The new value of an element: m is the destination's bits, v the operand's (R265). -/
def bankNew (op fmt : Nat) (alpha : Word) (m v : Nat) : Nat :=
  let f := bankFmt fmt
  let a := plainVal f false (alpha.toNat % 2 ^ f.width)
  let mv := plainVal f false m
  let vv := plainVal f false v
  let rnd (x : Val × Ev) : Nat := (roundTo f bankCtx x.1).1
  match op with
  | 1 => (selMinMax f false false mv vv m v).1
  | 2 => (selMinMax f true false mv vv m v).1
  | 3 => rnd (fmaV .rne mv a vv)
  | 4 => rnd (fmaV .rne a vv mv)
  | _ => rnd (addV .rne mv vv)

/-- One element update; the flag gathers poison (R265). (DEDUCED, log entry 33.) -/
def bankElem (c : BankCmd) (x : State × Bool) (i : Nat) : State × Bool :=
  let w := bankEsz c.fmt
  let m := bankGet x.1 c (c.dest i) w
  let v := if c.op = 6 then c.vals.getD i (0, false) else bankGet x.1 c (c.s + i * w) w
  let bad := m.2 || v.2
  (bankPut x.1 c (c.dest i) w (bankNew c.op c.fmt c.alpha m.1 v.1) bad, x.2 || bad)

/-- The magnitude of a value. -/
def Val.abs : Val → Val
  | .fin _ m => .fin false m
  | .inf _ => .inf false
  | v => v

/-- A leaf of ROWRED: v, v·v or |v| (R265). -/
def rowLeaf (red : Nat) (v : Val) : Val :=
  match red with
  | 0 => v
  | 1 => (mulV v v).1
  | _ => v.abs

/-- A node of ROWRED's tree, rounded to F′ (R53, R265). -/
def rowNode (acc : Fmt) (red : Nat) (a b : TNode Val) : TNode Val :=
  let v : Val :=
    if red < 2 then plainVal acc false (roundTo acc bankCtx (addV .rne a.val b.val).1).1
    else if a.val.isNan then b.val
    else if b.val.isNan then a.val
    else if cmpV a.val b.val == .lt then b.val else a.val
  ⟨v, a.low, a.pois || b.pois⟩

/-- The result of one bank row: the F′ word, and whether it is poisoned (R265). -/
def rowSum (s : State) (c : BankCmd) (row : Nat) : Nat × Bool :=
  let w := bankEsz c.fmt
  let leaves := (nrange 0 (256 / w)).map fun j =>
    let a := row + j * w
    if c.d ≤ a ∧ a < c.d + c.len then
      let x := bankGet s c a w
      some (⟨rowLeaf c.red (plainVal (bankFmt c.fmt) false x.1), j, x.2⟩ : TNode Val)
    else none
  match (treeOf (fun _ a b => (rowNode (bankAcc c.fmt) c.red a b, ())) leaves).1 with
  | none => (0, false)
  | some n => ((roundTo (bankAcc c.fmt) bankCtx n.val).1, n.pois)

/-- A BAU's part of ROWRED: it reduces its rows, and writes its result words once every row that they hold is reduced.
Answers the state, the command and whether its part is done (R265, R267). -/
def bankRowred (s : State) (c : BankCmd) (b : Nat) : State × BankCmd × Bool :=
  let w := bankAsz c.fmt
  let ks := nrange 0 c.rows.length
  let row (k : Nat) : Nat := c.rows.getD k 0
  let mine (va : Nat) : Bool := bauOf (c.place va).1 == b
  let todo := ks.filter fun k => mine (row k) && (tfind k c.sums).isNone
  let c := { c with sums := todo.foldl (fun t k => tset k (rowSum s c (row k)) t) c.sums }
  let out := ks.filter fun k => mine (c.u + k * w)
  if out.all fun k => (tfind k c.sums).isSome then
    let s := out.foldl (fun s k => let r := tget (0, false) k c.sums; bankPut s c (c.u + k * w) w r.1 r.2) s
    (s, { c with met := if out.any (fun k => (tget (0, false) k c.sums).2) then stPoisoned :: c.met else c.met }, true)
  else (s, c, false)

/-- A BAU's part of a command. -/
def bankApply (s : State) (c : BankCmd) (b : Nat) : State × BankCmd × Bool :=
  if c.op = 5 then bankRowred s c b
  else
    let is := (nrange 0 c.n).filter fun i => bauOf (c.place (c.dest i)).1 == b
    let r := is.foldl (bankElem c) (s, false)
    (r.1, if r.2 then { c with met := stPoisoned :: c.met } else c, true)

/-- A command that every BAU has applied leaves the queues; its status waits for BKFENCE (R269). -/
def bankEnd (s : State) (c : BankCmd) : State :=
  let s := { s with bank := s.bank.filter fun d => d.order != c.order }
  match c.tid with
  | none => settleEntries s
  | some t => s.modRole t fun r =>
    let st := topStatus c.met
    { r with bank := if r.bank.contains st then r.bank else st :: r.bank }

/-- BAU_APPLY: a BAU applies its part of the oldest command in its queue (R265, R267). (DEDUCED, log entry 44.) -/
def execBauApply (s : State) : Answer :=
  let b := s.occ.n
  .next (match s.bank.find? fun c => smem b c.left with
    | none => s
    | some c =>
      let r := bankApply s (bankSealed s c b) b
      let c := if r.2.2 then { r.2.1 with left := sdel b r.2.1.left } else r.2.1
      if c.left.isEmpty then bankEnd r.1 c
      else { r.1 with bank := r.1.bank.map fun d => if d.order = c.order then c else d })

/-! BKFENCE. -/

/-- Whether commands of a thread are not applied yet. -/
def bankBusy (s : State) (t : Tid) : Bool := s.bank.any fun c => c.tid == some t

/-- The join of a thread's bank commands (R269). -/
def State.bkfence (s : State) (f : FmtY) : State :=
  if bankBusy s s.cur then s.stallOn (.bkfence f)
  else (s.modTh fun r => { r with bank := [] }).done f.xd (BitVec.ofNat 64 (topStatus s.th.bank))

/-- BKFENCE (R269). -/
def execBkfence (f : FmtY) (s : State) : Answer := .next (s.bkfence f)

/-- BKFENCE_RELEASE: the current thread's BKFENCE ends when its commands have been applied (R269). -/
def execBkfenceRelease (s : State) : Answer :=
  .next (match s.th.stall with
    | some (.bkfence f) => s.bkfence f
    | _ => s)

end Sys2Proof.Machine
end

