-- ==== Sys2Proof/Machine/Engine.lean ====
section
/-! DEFINITION. How an engine command of a copy engine or a topology engine reads and writes: translation faults pause it,
denials, poison, isolated ports and lost peers mark its status (R226, R227, R284, R289, R296, R312, R377, R388). -/

namespace Sys2Proof.Machine

/-- An engine command as it runs: whose it is, what arrived from other chips, the statuses met, what was logged, and why it
cannot go on: a translation fault, a stop, missing remote data, or a full replay buffer. -/
structure Eng where
  s : State
  core : Nat
  tid : Tid
  cred : Cred
  order : Nat
  env : List Byte
  envPois : List Nat
  met : StatSet
  seen : List (Nat × Nat)
  fault : Option (Nat × Word) := none
  halt : Bool := false
  short : Bool := false
  full : Bool := false
  /-- the element at hand (R217) -/
  elem : Nat := 0
  /-- what it did before a pause and does not do again, and what it has done since, the last one first (R284) -/
  log : List EngStep := []
  trace : List EngStep := []
  /-- sheet granules read (R226) -/
  sheet : Tbl Got := []
  /-- the atlas address of the first atlas fault met (R170) -/
  atlas : Option Nat := none
  /-- destinations written, where a later element may name one again (R225, R238) -/
  news : List Int := []
  deriving DecidableEq, Repr

/-- Whether the command can go on. -/
def Eng.going (e : Eng) : Bool := e.fault.isNone && !e.halt && !e.short && !e.full

/-- A step that was done in its turn. -/
def Eng.step (e : Eng) (x : EngStep) : Eng := { e with log := e.log.drop 1, trace := x :: e.trace }

/-- All that a command need not do again when it goes on from where it stands. -/
def Eng.done (e : Eng) : List EngStep := e.trace.reverse ++ e.log

/-- A status met (R219). -/
def Eng.meet (e : Eng) (st : Nat) : Eng := if e.met.contains st then e else { e with met := st :: e.met }

/-- A denied access of the engine: DENIED, and one ENGINE entry for each frame (R227, R291). -/
def Eng.deny (e : Eng) (payload : Nat) : Eng :=
  let e := e.meet stDenied
  if e.seen.contains (kEngine, payload) then e
  else
    let w := denyEntry kEngine e.tid.role.num e.cred.tag e.core (e.s.triad e.tid.ctxn).slot payload
    { e with s := denyPush e.s w, seen := (kEngine, payload) :: e.seen }

/-- The payload that logs an atlas fault of an engine (R291). -/
def atlasPayload (t : Nat) : Nat := 2 ^ 35 + t

/-- The command stops with a status. -/
def Eng.stop (e : Eng) (st : Nat) : Eng := { e.meet st with halt := true }

/-- A fault met by an engine: translation faults pause it (R284); an atlas fault denies the access (R170); an address that is
not canonical is found bad while it runs. -/
def Eng.meetFault (e : Eng) (cause : Nat) (a : Word) : Eng :=
  if cause = 7 then { e.deny (atlasPayload (a.toNat % 2 ^ 29)) with atlas := e.atlas <|> some (a.toNat % 2 ^ 29) }
  else if cause = 5 then e.meet stRange
  else { e with fault := some (cause, a) }

/-- A 64-byte granule of a sheet, which a command reads once (R226). -/
def Eng.granule (e : Eng) (g : Nat) : Got × Eng :=
  match tfind g e.sheet with
  | some v => (v, e)
  | none =>
    let v : Got := ⟨physRead e.s (64 * g) 64 0, physQuality e.s (64 * g) 64 != .clean, false⟩
    (v, { e with sheet := tset g v e.sheet })

/-- One piece of a read within a 64-byte line, made now. (DESIGN CHOICE, log entry 13.) -/
def Eng.fetchPiece (e : Eng) (a : Word) (n elem : Nat) : Got × Eng :=
  let zero (e : Eng) (d : Bool) : Got × Eng := (⟨List.replicate n 0, false, d⟩, e)
  match locate e.s e.core e.cred a .ld true with
  | (.fault c, s) => zero ({ e with s := s }.meetFault c a) true
  | (.denied f, s) => zero ({ e with s := s }.deny f) true
  | (.far pa _, s) =>
    let e := { e with s := s }
    if cutOff s e.tid (lcnOf pa) then zero (e.stop stPeerLost) false
    else if e.env.length < n then zero { e with short := true } false
    else
      let bad := e.envPois.contains elem
      (⟨e.env.take n, bad, false⟩, { (if bad then e.meet stPoisoned else e) with env := e.env.drop n })
  | (.here pa key _, s) =>
    let e := { e with s := s }
    if isolated s pa then zero (e.stop stIsolated) false
    else if atlasBase ≤ pa then
      let g := e.granule (pa / 64)
      (⟨(g.1.bytes.drop (pa % 64)).take n, g.1.pois, false⟩, if g.1.pois then g.2.meet stPoisoned else g.2)
    else
      let bad := physQuality s pa n != .clean
      (⟨physRead s pa n key, bad, false⟩, if bad then e.meet stPoisoned else e)

/-- One piece of a read within a 64-byte line: as it was read before a pause, or now (R284). -/
def Eng.readPiece (e : Eng) (a : Word) (n elem : Nat) : Got × Eng :=
  match e.log with
  | .read g :: _ => (g, e.step (.read g))
  | .stop :: _ => (⟨List.replicate n 0, false, false⟩, { e.step .stop with halt := true })
  | _ =>
    let r := e.fetchPiece a n elem
    if r.2.halt then (r.1, r.2.step .stop) else if r.2.going then (r.1, r.2.step (.read r.1)) else r

/-- A read of n bytes, line by line; `fuel` bounds the number of lines. -/
def Eng.readGo : Nat → Eng → Word → Nat → Nat → Got × Eng
  | 0, e, _, _, _ => (⟨[], false, false⟩, e)
  | fuel + 1, e, a, n, elem =>
    if n = 0 || !e.going then (⟨List.replicate n 0, false, false⟩, e)
    else
      let k := min n (64 - a.toNat % 64)
      let r := e.readPiece a k elem
      let u := Eng.readGo fuel r.2 (a + BitVec.ofNat 64 k) (n - k) elem
      (⟨r.1.bytes ++ u.1.bytes, r.1.pois || u.1.pois, r.1.denied || u.1.denied⟩, u.2)

/-- A read of n bytes for an element (R226, R227). -/
def Eng.read (e : Eng) (a : Word) (n elem : Nat) : Got × Eng := Eng.readGo (n / 64 + 2) e a n elem

/-- A write to another chip: held in the replay buffer with its command and its element (R217, R370, R375). -/
def Eng.sendPiece (e : Eng) (pa key : Nat) (bs : List Byte) (pois : Bool) : Bool × Eng :=
  if cutOff e.s e.tid (lcnOf pa) then (false, e.stop stPeerLost)
  else if !replayRoom e.s (writeFlits bs.length) then (false, { e with full := true })
  else
    (true, { e with s := sendHeld e.s { Replay.of (lcnOf pa) (writeTxn e.s pa key e.cred.tag bs pois false) with
      cmd := some e.order, elem := e.elem, entry := entryOf e.s e.tid, via := some (e.core, asidOf e.cred.ptbase) } })

/-- A write within a 64-byte line, made now; poison marks its line, or its 64-byte granule of a sheet (R227, R296, R370). -/
def Eng.storePiece (e : Eng) (a : Word) (bs : List Byte) (pois : Bool) : Bool × Eng :=
  match locate e.s e.core e.cred a .st true with
  | (.fault c, s) => (false, { e with s := s }.meetFault c a)
  | (.denied f, s) => (false, { e with s := s }.deny f)
  | (.far pa key, s) => { e with s := s }.sendPiece pa key bs pois
  | (.here pa key f, s) =>
    let e := { e with s := s }
    if isolated s pa then (false, e.stop stIsolated)
    else if inSealed s pa bs.length then (false, e.deny f)
    else if !forwardRoom s pa bs.length then (false, { e with full := true })
    else
      let s := physWrite s pa bs key
      (true, { e with s := if pois then physPoison s pa bs.length key else s })

/-- A write within a 64-byte line: as it came out before a pause, or now (R284). -/
def Eng.writePiece (e : Eng) (a : Word) (bs : List Byte) (pois : Bool) : Bool × Eng :=
  match e.log with
  | .write ok :: _ => (ok, e.step (.write ok))
  | .stop :: _ => (false, { e.step .stop with halt := true })
  | _ =>
    let r := e.storePiece a bs pois
    if r.2.halt then (r.1, r.2.step .stop) else if r.2.going then (r.1, r.2.step (.write r.1)) else r

/-- A write of bytes, line by line; answers whether every byte was written. -/
def Eng.writeGo : Nat → Eng → Word → List Byte → Bool → Bool × Eng
  | 0, e, _, _, _ => (true, e)
  | fuel + 1, e, a, bs, pois =>
    if bs.isEmpty then (true, e)
    else if !e.going then (false, e)
    else
      let k := min bs.length (64 - a.toNat % 64)
      let r := e.writePiece a (bs.take k) pois
      let u := Eng.writeGo fuel r.2 (a + BitVec.ofNat 64 k) (bs.drop k) pois
      (r.1 && u.1, u.2)

def Eng.write (e : Eng) (a : Word) (bs : List Byte) (pois : Bool) : Bool × Eng :=
  Eng.writeGo (bs.length / 64 + 2) e a bs pois

/-- Which bytes of a destination of n bytes at a place are written: those that no earlier element of the command has written, and of
the others those whose every earlier element an open value puts before this one (R225, R238, R250).
(DESIGN CHOICE, log entry 80.) -/
def Eng.claim (e : Eng) (place : Int) (n : Nat) : List Bool × Eng :=
  match e.log with
  | .choice bs :: _ => (bs, e.step (.choice bs))
  | _ =>
    let met := e.news.filter fun d => decide (d < place + n) && decide (place < d + n)
    let v := if met.isEmpty then (0, e.s) else e.s.free
    let covers (d : Int) (j : Nat) : Bool := decide (d ≤ place + j) && decide (place + j < d + n)
    let bs := (nrange 0 n).map fun j => met.zipIdx.all fun p => !covers p.1 j || v.1.toNat.testBit (p.2 % 64)
    (bs, { e with s := v.2, news := place :: e.news }.step (.choice bs))

/-- The bytes of a write that are to be written. -/
def Eng.writeMask (e : Eng) (a : Word) (bs : List Byte) (mask : List Bool) (pois : Bool) : Bool × Eng :=
  (maskRuns 0 mask).foldl (fun acc r =>
    if !acc.2.going then (false, acc.2)
    else
      let w := acc.2.write (a + BitVec.ofNat 64 r.1) ((bs.drop r.1).take r.2) pois
      (acc.1 && w.1, w.2)) (true, e)

/-- Whether remote writes of an engine command are still unacknowledged (R252). (DESIGN CHOICE, log entry 13.) -/
def engineUnacked (s : State) (order : Nat) : Bool := s.fab.replay.any fun r => !r.abandoned && r.cmd == some order

/-- Whether remote stores that come before a command are still unacknowledged (R251). -/
def forkHeld (s : State) (after : List Nat) : Bool := s.fab.replay.any fun r => !r.abandoned && after.contains r.num

/-- The remote stores of a thread that are not acknowledged, by number. -/
def unackedNums (s : State) (t : Tid) : List Nat :=
  (s.fab.replay.filter fun r => !r.abandoned && r.owner == some t).map (·.num)

/-- A translation fault of an engine command, for the thread that issued it (R284, R353). -/
def enginePost (unit elem cause order : Nat) (a : Word) : TrapPost :=
  { cls := cPGFAULT, sub := cause, eng := true, unit := unit, elem := elem, faddr := a, cmd := some order }

end Sys2Proof.Machine
end

