-- ==== Sys2Proof/Machine/Copy.lean ====
section
/-! DEFINITION. Copy channels and parameter windows (chapter 10_copy, R216 to R238), with the pause of an engine at a
translation fault (R284). -/

namespace Sys2Proof.Machine

/-! Channels. -/

/-- The completion word of a channel (R217). (DEDUCED, log entry 90.) -/
def Chan.word (c : Chan) : Word := statusWord c.cmd.isSome c.donen c.status

def State.modChan (s : State) (ctxn k : Nat) (f : Chan → Chan) : State :=
  s.modTriad ctxn fun t => { t with chans := tset k (f (t.chan k)) t.chans }

/-- The channel that a word names (R220). -/
def chanOf (f : FmtE) : Nat := f.unit.toNat % 16

/-- The atlas offset of an address, if it is one (R118). -/
def atlasOf (a : Word) : Option Nat :=
  match classify a with
  | .atlas t => some t
  | _ => none

/-- Whether an address is canonical (R118). -/
def canonical (a : Word) : Bool := classify a != .noncanon

/-- Two lists of atlas intervals meet. -/
def meets (a b : List (Nat × Nat)) : Bool := a.any fun x => b.any fun y => decide (x.1 ≤ y.2) && decide (y.1 ≤ x.2)

/-- Copy commands in flight on a core. -/
def copiesOf (s : State) (core : Nat) : List CopyCmd :=
  s.triads.flatMap fun p => if p.2.core = core then p.2.chans.filterMap (·.2.cmd) else []

/-- Whether a command waits for an earlier one whose sheet bytes meet its own (R230). -/
def orderBlocked (s : State) (core : Nat) (c : CopyCmd) : Bool :=
  (copiesOf s core).any fun d => decide (d.order < c.order) &&
    (meets d.writes (c.reads ++ c.writes) || meets d.reads c.writes)

/-! The operands. -/

/-- The fields of a parameter block (R223, R224). -/
structure Tensor where
  ctl : Nat
  sbase : Nat
  dbase : Nat
  xbase : Nat
  ext : List Nat
  sorg : List Int
  slim : List Nat
  sstr : List Int
  dstr : List Int
  deriving DecidableEq, Repr

def readTensor (b : List Byte) : Tensor :=
  let w (o n : Nat) : Nat := bytesNat ((b.drop o).take n)
  let nat (o : Nat) : List Nat := (nrange 0 5).map fun k => w (o + 4 * k) 4
  let int (o : Nat) : List Int := (nat o).map (sextNat 32)
  ⟨w 0 8, w 8 8, w 16 8, w 24 8, nat 32, int 52, nat 72, int 92, int 112⟩

namespace Tensor

def ew (t : Tensor) : Nat := 2 ^ (t.ctl % 4)
def rank (t : Tensor) : Nat := nbits t.ctl 2 3
def xd (t : Tensor) : Nat := nbits t.ctl 5 3
def xw (t : Tensor) : Nat := if t.ctl.testBit 8 then 8 else 4
def swm (t : Tensor) : Nat := nbits t.ctl 10 3
def sws (t : Tensor) : Nat := nbits t.ctl 13 5
def swd (t : Tensor) : Nat := nbits t.ctl 18 5
def tile (t : Tensor) : Bool := t.ctl.testBit 23
def txl (t : Tensor) : Nat := nbits t.ctl 24 4
def tyl (t : Tensor) : Nat := nbits t.ctl 28 4
def tx (t : Tensor) : Nat := 2 ^ t.txl
def ty (t : Tensor) : Nat := 2 ^ t.tyl

/-- The number of box points (R225). -/
def count (t : Tensor) : Nat := t.ext.foldl (· * ·) 1

/-- The box point with a linear index (R217). -/
def point (t : Tensor) (i : Nat) : List Nat :=
  (t.ext.foldl (fun (acc : List Nat × Nat) e => (acc.1 ++ [acc.2 % e], acc.2 / e)) ([], i)).1

/-- The destination offset of a box point, in bytes (R225). -/
def dst (t : Tensor) (i : Nat) : Int :=
  let p := t.point i
  let at_ (k : Nat) : Nat := p.getD k 0
  let d (k : Nat) : Int := t.dstr.getD k 0
  let off : Int :=
    if t.tile then
      ((at_ 0 / t.tx * (t.tx * t.ty) + at_ 1 % t.ty * t.tx + at_ 0 % t.tx : Nat) : Int) + ((at_ 1 / t.ty : Nat) : Int) * d 1 +
        at_ 2 * d 2 + at_ 3 * d 3 + at_ 4 * d 4
    else at_ 0 * d 0 + at_ 1 * d 1 + at_ 2 * d 2 + at_ 3 * d 3 + at_ 4 * d 4
  let b := off * (t.ew : Int)
  let field := (b / ((2 ^ t.sws : Nat) : Int)) % ((2 ^ t.swm : Nat) : Int)
  let bits := (BitVec.ofInt 128 b) ^^^ (BitVec.ofNat 128 (field.toNat * 2 ^ t.swd))
  bits.toInt

/-- A coordinate held to its limits (R225). -/
def clamp (t : Tensor) (k : Nat) (c : Int) : Int := max 0 (min c ((t.slim.getD k 1 : Nat) - 1 : Int))

/-- The source offset of a box point in bytes, with the index value that replaces coordinate XD (R225). -/
def src (t : Tensor) (i : Nat) (idx : Option Nat) : Int :=
  let p := t.point i
  let term (k : Nat) : Int :=
    let c : Int := match idx with
      | some v => if k = t.xd then (v : Int) else t.sorg.getD k 0 + p.getD k 0
      | none => t.sorg.getD k 0 + p.getD k 0
    t.clamp k c * t.sstr.getD k 0
  (t.ew : Int) * (((nrange 0 t.rank).map term).foldl (· + ·) 0)

/-- The lowest and the highest source byte offset over clamped coordinates (R225). -/
def srcSpan (t : Tensor) : Int × Int :=
  let reach := (nrange 0 t.rank).map fun k => ((t.slim.getD k 1 : Nat) - 1 : Int) * t.sstr.getD k 0
  let lo := (reach.map (min 0)).foldl (· + ·) 0
  let hi := (reach.map (max 0)).foldl (· + ·) 0
  ((t.ew : Int) * lo, (t.ew : Int) * hi + t.ew - 1)

/-- The lowest and the highest destination byte offset over box points (R225, R228). -/
def dstSpan (t : Tensor) : Int × Int :=
  let f := t.dst 0
  (nrange 0 t.count).foldl (fun (acc : Int × Int) i => (min acc.1 (t.dst i), max acc.2 (t.dst i + t.ew - 1))) (f, f + t.ew - 1)

/-- The checks of R225 that need no address. -/
def bad (t : Tensor) (b : List Byte) : Bool :=
  t.ctl / 2 ^ 32 != 0 || t.ctl.testBit 9 || (b.drop 132).any (· != 0) || t.rank == 0 || decide (5 < t.rank) ||
    t.xd == 5 || t.xd == 6 || (t.xd != 7 && decide (t.rank ≤ t.xd)) ||
    ((nrange t.rank (5 - t.rank)).any fun k => t.ext.getD k 1 != 1 || t.sorg.getD k 0 != 0) ||
    ((nrange 0 t.rank).any fun k => t.slim.getD k 1 == 0) || t.swm == 7 || decide (t.sws < t.swd + t.swm) ||
    (t.tile && (decide (t.rank < 2) || t.dstr.getD 0 0 != 0 || decide (12 < t.txl + t.tyl) ||
      t.ext.getD 0 1 % t.tx != 0 || t.ext.getD 1 1 % t.ty != 0))

end Tensor

/-- An address span as integers from a base: neither a non-canonical address nor both virtual and atlas ones (R225). -/
def spanOk (base : Word) (lo hi : Int) : Bool :=
  let a := base + BitVec.ofInt 64 lo
  let b := base + BitVec.ofInt 64 hi
  match classify a, classify b with
  | .virt _, .virt _ => decide (hi - lo < ((2 ^ 57 : Nat) : Int))
  | .atlas _, .atlas _ => decide (hi - lo < ((2 ^ 29 : Nat) : Int))
  | _, _ => false

/-- The atlas interval of a span. -/
def spanAtlas (base : Word) (lo hi : Int) : List (Nat × Nat) :=
  match atlasOf (base + BitVec.ofInt 64 lo) with
  | some t => [(t, t + (hi - lo).toNat)]
  | none => []

/-- The 64 KiB units of atlas intervals that make an atlas fault for a domain, as the first address in each (R170). -/
def faultyUnits (s : State) (tag : Nat) (is : List (Nat × Nat)) : List Nat :=
  is.flatMap fun p => (nrange (p.1 / 65536) (p.2 / 65536 + 1 - p.1 / 65536)).filterMap fun u =>
    if atlasFault s tag (u * 65536) then some (max p.1 (u * 65536)) else none

/-- The atlas intervals of single elements. -/
def elemAtlas (n : Nat) (as : List Word) : List (Nat × Nat) := as.filterMap fun a => (atlasOf a).map fun t => (t, t + n - 1)

/-- The smallest interval that contains some intervals. -/
def hull (is : List (Nat × Nat)) : List (Nat × Nat) :=
  match is with
  | [] => []
  | p :: t => [t.foldl (fun (a : Nat × Nat) q => (min a.1 q.1, max a.2 q.2)) p]

/-- Whether an atlas interval spans two sheets (R221). -/
def twoSheets (is : List (Nat × Nat)) : Bool := (hull is).any fun p => p.1 / 2 ^ 22 != p.2 / 2 ^ 22

/-! Issue (R221). -/

/-- A command rejected at step 3 (R221). -/
def State.copyReject (s : State) (f : FmtE) (st : Nat) : State :=
  (s.modChan s.cur.ctxn (chanOf f) fun c => { c with donen := 0, status := st }).done f.xd (BitVec.ofNat 64 st)

/-- A command started: its channel is busy, with a watermark for an atlas destination (R217, R221, R228). Otherwise MARK is 0.
(DESIGN CHOICE, log entry 89.) -/
def State.copyStart (s : State) (f : FmtE) (op : CopyOp) (reads writes : List (Nat × Nat)) (hdr : Option (Nat × Nat × Nat) := none) :
    State :=
  let c : CopyCmd := { op := op, role := s.cur.role, cred := s.cred, order := s.serial, prog := 0, missed := [], ended := false,
                       faulted := false, met := [], logged := [], reads := reads, writes := writes,
                       after := unackedNums s s.cur, hdr := hdr }
  let w := (hull writes).head?
  let s := s.modChan s.cur.ctxn (chanOf f) fun _ =>
    { donen := 0, status := 0, wmA := w.isSome, mark := (w.map (·.1)).getD 0, dhi := (w.map (·.2)).getD 0, cmd := some c }
  { s with serial := s.serial + 1 }.done f.xd (BitVec.ofNat 64 stDone)

/-- A command that has nothing to copy completes DONE at once (R222, R225). (DESIGN CHOICE, log entry 89.) -/
def State.copyEmpty (s : State) (f : FmtE) : State :=
  (s.modChan s.cur.ctxn (chanOf f) fun _ => Chan.init).done f.xd (BitVec.ofNat 64 stDone)

/-- Steps 1 and 2 of R221: the loader alone may issue, and a busy channel is waited for. -/
def State.copyIssue (s : State) (f : FmtE) (go : State → State) : State :=
  if s.cur.role ≠ .loader then s.trapDecode
  else if (s.tr.chan (chanOf f)).cmd.isSome then s.stallOn (.channel (chanOf f))
  else go s

/-- Logs an atlas fault found at issue and rejects with the higher of the statuses met (R219, R291). -/
def State.copyCheck (s : State) (f : FmtE) (range : Bool) (faulty : List Nat) (go : State → State) : State :=
  match faulty with
  | t :: _ => (denyPush s (denyOf s s.cur kEngine (atlasPayload t))).copyReject f stDenied
  | [] => if range then s.copyReject f stRange else go s

/-- Whether an earlier command in flight on the core writes some sheet bytes (R230). -/
def sheetBusy (s : State) (is : List (Nat × Nat)) : Bool := (copiesOf s s.tr.core).any fun d => meets d.writes is

/-- CSTREAM (R222). -/
def execCstream (f : FmtE) (s : State) : Answer :=
  .next (s.copyIssue f fun s =>
    let m : Nat := 2 ^ fnBits f 0 2
    let r : Nat := 2 ^ fnBits f 2 2
    let src := s.x f.xa
    let dst := s.x f.xb
    let stride : Int := if f.xc = 0#6 then (m : Int) else (s.x f.xc).toInt
    let n := s.th.vl
    if src.toNat % m ≠ 0 then s.trapAlign src 0
    else if stride % (m : Int) ≠ 0 then s.trapAlign (src + BitVec.ofInt 64 stride) 1
    else if dst.toNat % r ≠ 0 then s.trapAlign dst 0
    else if n = 0 then s.copyEmpty f
    else
      let sa := (nrange 0 n).map fun (e : Nat) => src + BitVec.ofInt 64 (stride * (e : Int))
      let da := (nrange 0 n).map fun (e : Nat) => dst + BitVec.ofNat 64 (e * r)
      let si := elemAtlas m sa
      let di := elemAtlas r da
      s.copyCheck f ((sa ++ da).any (fun a => !canonical a) || twoSheets di) (faultyUnits s s.tr.tag (si ++ di))
        fun s => s.copyStart f (.stream src dst stride n m r (fnBits f 4 1 == 1)) (hull si) (hull di))

/-- The parameter block at an offset of a window, through the core's cache, with whether some of its bytes are denied (R221, R233
to R235). (DEDUCED, log entry 52.) -/
def State.paramBlock (s : State) (k : Nat) (w : Win) (off : Nat) : Res (List Byte × Bool) :=
  let core := s.tr.core
  let binding := entryOf s s.cur
  let cut (b : List Byte) : List Byte := (b.take (w.size - off) ++ List.replicate 192 0).take 192
  let flag (s : State) : State := if w.size < off + 192 then s.pwoob k (max off w.size) else s
  match (s.core core).pblk.find? fun e => e.entry == binding && e.win == k && e.off == off with
  | some e => .ok (cut e.data, false) (flag s)
  | none =>
    let n := if off < w.size then min 192 ((w.size - off + 63) / 64 * 64) else 0
    match readRange s (w.base + BitVec.ofNat 64 off) n true with
    | .stop s => .stop s
    | .ok (bs, denied) s =>
      let s := logDenied s kLoad denied
      let data := (bs ++ List.replicate 192 0).take 192
      let s := if n = 192 && denied.isEmpty then
          s.modCore core fun c => { c with pblk := (⟨binding, k, off, data⟩ :: c.pblk).take 32 }
        else s
      .ok (cut data, !denied.isEmpty) (flag s)

/-- The atlas bytes that a tensor copy reads and writes, element by element; with an index dimension its sources are known as far as
the index elements can be seen (R170, R225). -/
def State.tensorTouch (s : State) (t : Tensor) (sb db : Word) : List (Nat × Nat) :=
  let points := nrange 0 t.count
  let dsts := elemAtlas t.ew (points.map fun i => db + BitVec.ofInt 64 (t.dst i))
  if t.xd = 7 then elemAtlas t.ew (points.map fun i => sb + BitVec.ofInt 64 (t.src i none)) ++ dsts
  else
    let at_ (j : Nat) : Word := BitVec.ofNat 64 (t.xbase + t.xw * j)
    let index := elemAtlas t.xw ((nrange 0 (t.ext.getD t.xd 1)).map at_)
    let seen (j : Nat) : Option Nat := if sheetBusy s index then none else (peek s s.tr.core s.cred (at_ j) t.xw).map bytesNat
    index ++ dsts ++ elemAtlas t.ew (points.filterMap fun i =>
      (seen ((t.point i).getD t.xd 0)).map fun v => sb + BitVec.ofInt 64 (t.src i (some v)))

/-- CTENSOR (R223 to R225). (DEDUCED, log entry 52; DESIGN CHOICE, log entry 89.) -/
def execCtensor (f : FmtE) (s : State) : Answer :=
  .next (s.copyIssue f fun s =>
    let k := fnBits f 0 3
    let w := s.tr.win k
    let off := s.x f.xa
    if off.toNat % 64 ≠ 0 then s.trapAlign off 0
    else if w.size = 0 then s.trap cPARAM 0 0 0
    else match s.paramBlock k w off.toNat with
      | .stop s => s
      | .ok (blk, denied) s =>
        let t := readTensor blk
        let sb := BitVec.ofNat 64 t.sbase + s.x f.xb
        let db := BitVec.ofNat 64 t.dbase + s.x f.xc
        let xb := BitVec.ofNat 64 t.xbase
        let idx := t.xd != 7
        let range := denied || sb.toNat % t.ew != 0 || db.toNat % t.ew != 0 || (idx && t.xbase % t.xw != 0)
        if t.bad blk then s.copyReject f stRange
        else if !range && t.count = 0 then s.copyEmpty f
        else
          let ss := t.srcSpan
          let ds := t.dstSpan
          let xn : Int := (t.xw * t.ext.getD t.xd 1 : Nat) - 1
          let spans := spanOk sb ss.1 ss.2 && spanOk db ds.1 ds.2 && (!idx || spanOk xb 0 xn)
          let di := spanAtlas db ds.1 ds.2
          let xi := if idx then spanAtlas xb 0 xn else []
          s.copyCheck f (range || !spans || twoSheets di) (faultyUnits s s.tr.tag (s.tensorTouch t sb db))
            fun s => s.copyStart f (.tensor blk (s.x f.xb) (s.x f.xc)) (spanAtlas sb ss.1 ss.2 ++ xi) di)

/-! CREMAP (R238). -/

/-- A remap record that is applied: its new cell, rule, sources and weights. -/
structure RemapJob where
  at_ : Nat
  rule : Nat
  srcs : List Nat
  wts : List Nat
  deriving DecidableEq, Repr

/-- A record as it stands in the list; none where it is skipped (R238, R315). -/
def readJob (b : List Byte) (nold nnew : Nat) : Option RemapJob :=
  let w (o n : Nat) : Nat := bytesNat ((b.drop o).take n)
  let rule := w 4 1
  let n := w 5 1
  let srcs := (nrange 0 (if rule = 0 then 1 else n)).map fun k => w (8 + 4 * k) 4
  if 2 < rule || n = 0 || 10 < n || nnew ≤ w 0 4 || srcs.any (fun c => nold ≤ c) then none
  else some ⟨w 0 4, rule, srcs, (nrange 0 n).map fun k => w (48 + 4 * k) 4⟩

/-- The list, the old field and the new field of a remap, as ranges of bytes, from the counts of its list (R238). -/
def remapRanges (recs old new_ : Word) (size : Nat) (h : Nat × Nat × Nat) : List (Word × Nat) :=
  [(recs, 16 + 96 * h.1), (old, h.2.1 * size), (new_, h.2.2 * size)]

/-- Whether a range of bytes is canonical throughout, and the atlas bytes of one. -/
def rangeOk (r : Word × Nat) : Bool := r.2 == 0 || spanOk r.1 0 (r.2 - 1 : Int)
def rangeAtlas (r : Word × Nat) : List (Nat × Nat) := if r.2 = 0 then [] else spanAtlas r.1 0 (r.2 - 1 : Int)

/-- Whether the ranges of a remap are refused at step 3 (R221). -/
def remapRefused (rs : List (Word × Nat)) : Bool := rs.any (fun r => !rangeOk r) || twoSheets (rangeAtlas (rs.getD 2 (0, 0)))

/-- The sheet bytes that a remap may touch from an address on while its list is not known: to the end of the sheets, or of one
sheet for its destination (R230). (DEDUCED, log entry 27.) -/
def sheetsFrom (a : Word) (one : Bool) : List (Nat × Nat) :=
  match atlasOf a with
  | some t => [(t, if one then t / 2 ^ 22 * 2 ^ 22 + (2 ^ 22 - 1) else 2 ^ 29 - 1)]
  | none => []

/-- The job of record i of a list, where the record can be seen. -/
def jobSeen (s : State) (core : Nat) (c : Cred) (recs : Word) (h : Nat × Nat × Nat) (i : Nat) : Option (Option RemapJob) :=
  (peek s core c (recs + BitVec.ofNat 64 (16 + 96 * i)) 96).map fun b => readJob b h.2.1 h.2.2

/-- The atlas bytes that a remap reads and writes: its list, and the elements of the records that can be seen (R170, R238). -/
def State.remapTouch (s : State) (recs old new_ : Word) (size : Nat) (h : Nat × Nat × Nat) : List (Nat × Nat) :=
  let cell (a : Word) (k : Nat) : List (Nat × Nat) := rangeAtlas (a + BitVec.ofNat 64 (k * size), size)
  rangeAtlas (recs, 16 + 96 * h.1) ++ (nrange 0 h.1).flatMap fun i =>
    match jobSeen s s.tr.core s.cred recs h i with
    | some (some j) => j.srcs.flatMap (cell old) ++ cell new_ j.at_
    | _ => []

/-- CREMAP (R238): the counts of its list are looked at where the list stands finished at a local address. (DEDUCED, log entry 27.) -/
def execCremap (f : FmtE) (s : State) : Answer :=
  .next (s.copyIssue f fun s =>
    let f64 := fnBits f 0 1 == 1
    let n := if f64 then 8 else 4
    let ncomp := fnBits f 1 6 + 1
    let recs := s.x f.xa
    let old := s.x f.xb
    let new_ := s.x f.xc
    if recs.toNat % 4 ≠ 0 then s.trapAlign recs 0
    else if old.toNat % n ≠ 0 then s.trapAlign old 0
    else if new_.toNat % n ≠ 0 then s.trapAlign new_ 0
    else
      let op : CopyOp := .remap recs old new_ f64 ncomp
      let head := if sheetBusy s (sheetsFrom recs false) then none else peek s s.tr.core s.cred recs 16
      match head with
      | some b =>
        let w (k : Nat) : Nat := bytesNat ((b.drop (4 * k)).take 4)
        let h := (w 0, w 1, w 2)
        let rs := remapRanges recs old new_ (ncomp * n) h
        let ats (k : Nat) : List (Nat × Nat) := rangeAtlas (rs.getD k (0, 0))
        s.copyCheck f (remapRefused rs) (faultyUnits s s.tr.tag (s.remapTouch recs old new_ (ncomp * n) h))
          fun s => s.copyStart f op (ats 0 ++ ats 1) (ats 2) (some h)
      | none =>
        let first := elemAtlas 4 [recs] ++ elemAtlas n [old, new_]
        s.copyCheck f ([recs, old, new_].any fun a => !canonical a) (faultyUnits s s.tr.tag first)
          fun s => s.copyStart f op (sheetsFrom recs false ++ sheetsFrom old false) (sheetsFrom new_ true))

/-! Execution. -/

/-- One element of a stream (R222). -/
def streamElem (src dst : Word) (stride : Int) (m r : Nat) (sx : Bool) (e : Eng) (i : Nat) : Bool × Eng :=
  let g := e.read (src + BitVec.ofInt 64 (stride * (i : Int))) m i
  if !g.2.going then (false, g.2)
  else g.2.write (dst + BitVec.ofNat 64 (i * r)) (natBytes r (fillConv m r sx (bytesNat g.1.bytes)).1) g.1.pois

/-- One box point of a tensor copy; a denied index element zeroes its point (R225, R227). `twice` says that some points share a
destination. (DESIGN CHOICE, log entry 80.) -/
def tensorElem (t : Tensor) (sadd dadd : Word) (twice : Bool) (e : Eng) (i : Nat) : Bool × Eng :=
  let idx : Got × Eng :=
    if t.xd = 7 then (⟨[], false, false⟩, e)
    else e.read (BitVec.ofNat 64 (t.xbase + t.xw * (t.point i).getD t.xd 0)) t.xw i
  if !idx.2.going then (false, idx.2)
  else
    let at_ := t.src i (if t.xd = 7 then none else some (bytesNat idx.1.bytes))
    let g : Got × Eng := if idx.1.denied then (⟨List.replicate t.ew 0, false, true⟩, idx.2)
      else idx.2.read (BitVec.ofNat 64 t.sbase + sadd + BitVec.ofInt 64 at_) t.ew i
    if !g.2.going then (false, g.2)
    else
      let d := t.dst i
      let a := BitVec.ofNat 64 t.dbase + dadd + BitVec.ofInt 64 d
      let pois := g.1.pois || idx.1.pois
      if twice then
        let m := g.2.claim d t.ew
        m.2.writeMask a g.1.bytes m.1 pois
      else g.2.write a g.1.bytes pois

/-- The value of a remap rule over source codes and weights (R238, R53). -/
def remapValue (f : Fmt) (rule : Nat) (srcs wts : List Nat) : Nat :=
  let ctx : RCtx := ⟨.rne, false, false, 0⟩
  let leaves := srcs.zipIdx.map fun p =>
    let v := plainVal f false p.1
    some (⟨if rule = 2 then (mulV (plainVal .fp32 false (wts.getD p.2 0)) v).1 else v, p.2, false⟩ : TNode Val)
  let node (_ : Nat) (a b : TNode Val) : TNode Val × Unit :=
    (⟨plainVal f false (roundTo f ctx (addV .rne a.val b.val).1).1, a.low, false⟩, ())
  match (treeOf node leaves).1 with
  | none => 0
  | some r =>
    let root := roundTo f ctx r.val
    if rule = 1 then (roundTo f ctx (divV (plainVal f false root.1) (intVal srcs.length)).1).1 else root.1

/-- The sources of one component, read in order. -/
def remapSrcs (old : Word) (n ncomp k i : Nat) : List Nat → Eng → (List Nat × Bool × Bool) × Eng
  | [], e => (([], false, false), e)
  | c :: t, e =>
    let g := e.read (old + BitVec.ofNat 64 ((c * ncomp + k) * n)) n i
    let u := remapSrcs old n ncomp k i t g.2
    ((bytesNat g.1.bytes :: u.1.1, g.1.pois || u.1.2.1, g.1.denied || u.1.2.2), u.2)

/-- The components of one record; which of several records for one destination stands is open (R238). (DESIGN CHOICE, log entry 80.) -/
def remapComps (old new_ : Word) (f64 : Bool) (ncomp : Nat) (j : RemapJob) (pois : Bool) (i : Nat) :
    List Nat → Bool × Eng → Bool × Eng
  | [], r => r
  | k :: t, (ok, e) =>
    let n := if f64 then 8 else 4
    let f : Fmt := if f64 then .fp64 else .fp32
    let g := remapSrcs old n ncomp k i j.srcs e
    if !g.2.going then (false, g.2)
    else
      let v := if g.1.2.2 then 0 else if j.rule = 0 then g.1.1.headD 0 else remapValue f j.rule g.1.1 j.wts
      let place := j.at_ * ncomp + k
      let m := g.2.claim place 1
      let w := if m.1 = [true] then m.2.write (new_ + BitVec.ofNat 64 (place * n)) (natBytes n v) (g.1.2.1 || pois) else (true, m.2)
      if !w.2.going then (false, w.2)
      else remapComps old new_ f64 ncomp j pois i t (ok && w.1, w.2)

/-- The header of a remap list: NREC, NOLD and NNEW (R315). -/
def remapHeader (recs : Word) (e : Eng) : (Nat × Nat × Nat) × Eng :=
  let g := e.read recs 16 0
  let w (k : Nat) : Nat := bytesNat ((g.1.bytes.drop (4 * k)).take 4)
  ((w 0, w 1, w 2), g.2)

/-- One record of a remap list; a bad one writes nothing and is met as RANGE (R238). -/
def remapElem (recs old new_ : Word) (f64 : Bool) (ncomp nold nnew : Nat) (e : Eng) (i : Nat) : Bool × Eng :=
  let g := e.read (recs + BitVec.ofNat 64 (16 + 96 * i)) 96 i
  if !g.2.going then (false, g.2)
  else match readJob g.1.bytes nold nnew with
    | none => (false, g.2.meet stRange)
    | some j => remapComps old new_ f64 ncomp j g.1.pois i (nrange 0 ncomp) (true, g.2)

/-- A command's count of elements, the effect of each, and the counts of its list, once what it needs of the list has been
read. A list whose fields may not be reached is refused as at issue (R221). -/
def copyBody (op : CopyOp) (hdr : Option (Nat × Nat × Nat)) (e : Eng) : (Nat × (Eng → Nat → Bool × Eng)) × Option (Nat × Nat × Nat) × Eng :=
  match op with
  | .stream src dst stride n m r sx => ((n, streamElem src dst stride m r sx), none, e)
  | .tensor blk sadd dadd =>
    let t := readTensor blk
    ((t.count, tensorElem t sadd dadd (anyClose t.ew ((nrange 0 t.count).map t.dst))), none, e)
  | .remap recs old new_ f64 ncomp =>
    let h := match hdr with
      | some h => (h, e)
      | none => remapHeader recs e
    let bad := hdr.isNone && h.2.going && remapRefused (remapRanges recs old new_ (ncomp * (if f64 then 8 else 4)) h.1)
    ((if bad then 0 else h.1.1, remapElem recs old new_ f64 ncomp h.1.2.1 h.1.2.2), if h.2.going then some h.1 else none,
      if bad then h.2.meet stRange else h.2)

/-- Where a run of elements stands: the element reached, those that were not written, and the counts of its list. -/
structure Ran where
  at_ : Nat
  missed : NatSet
  hdr : Option (Nat × Nat × Nat)
  e : Eng
  deriving DecidableEq, Repr

/-- Elements from `i` on, until a fault, a stop, or missing remote data or room; `fuel` is the number left. (DESIGN CHOICE, log entry 80.) -/
def runElems (el : Eng → Nat → Bool × Eng) (hdr : Option (Nat × Nat × Nat)) : Nat → Nat → NatSet → Eng → Ran
  | 0, i, g, e => ⟨i, g, hdr, e⟩
  | fuel + 1, i, g, e =>
    let r := el { e with elem := i, trace := [] } i
    if !r.2.going then ⟨i, g, hdr, r.2⟩
    else runElems el hdr fuel (i + 1) (if r.1 then g else sadd i g) r.2

/-- A command as it goes on. -/
def CopyCmd.eng (s : State) (core : Nat) (tid : Tid) (c : CopyCmd) (env : EngineIn) : Eng :=
  { s := s, core := core, tid := tid, cred := c.cred, order := c.order, env := env.data, envPois := env.poisoned,
    met := c.met, seen := c.logged, log := c.log, sheet := c.sheet, news := c.news }

/-- A command runs on from where it stands. -/
def copyRun (s : State) (core : Nat) (tid : Tid) (c : CopyCmd) (env : EngineIn) : Ran :=
  let b := copyBody c.op c.hdr (c.eng s core tid env)
  if b.2.2.going then runElems b.1.2 b.2.1 (b.1.1 - c.prog) c.prog c.missed b.2.2 else ⟨c.prog, c.missed, b.2.1, b.2.2⟩

/-- The destination bytes of an element in the atlas; none where they cannot be told (R228). -/
def copyDest (s : State) (core : Nat) (c : CopyCmd) (i : Nat) : Option (List (Nat × Nat)) :=
  match c.op with
  | .stream _ dst _ _ _ r _ => some (elemAtlas r [dst + BitVec.ofNat 64 (i * r)])
  | .tensor blk _ dadd => let t := readTensor blk; some (elemAtlas t.ew [BitVec.ofNat 64 t.dbase + dadd + BitVec.ofInt 64 (t.dst i)])
  | .remap recs _ new_ f64 ncomp =>
    let size := ncomp * (if f64 then 8 else 4)
    (c.hdr.bind fun h => jobSeen s core c.cred recs h i).map fun j => match j with
      | some j => rangeAtlas (new_ + BitVec.ofNat 64 (j.at_ * size), size)
      | none => []

/-- How many elements a command has. -/
def CopyCmd.count (c : CopyCmd) : Nat :=
  match c.op with
  | .stream _ _ _ n _ _ _ => n
  | .tensor blk _ _ => (readTensor blk).count
  | .remap .. => (c.hdr.map (·.1)).getD 0

/-- The lowest destination byte not covered: of the bytes of elements that are not written the first that no written one has
(R228). -/
def copyMark (s : State) (core : Nat) (c : CopyCmd) (ch : Chan) : Nat :=
  let all := (nrange 0 c.count).map fun i => (i, copyDest s core c i)
  if c.count = 0 || all.any (·.2.isNone) then ch.mark
  else
    let isDone (i : Nat) : Bool := decide (i < c.prog) && !smem i c.missed
    let spans (p : Nat → Bool) : List (Nat × Nat) := (all.filter fun x => p x.1).flatMap fun x => x.2.getD []
    let done := spans isDone
    let open_ := (spans fun i => !isDone i).filterMap fun x =>
      (nrange x.1 (x.2 + 1 - x.1)).find? fun b => !done.any fun y => decide (y.1 ≤ b) && decide (b ≤ y.2)
    (lmin? open_).getD (ch.dhi + 1)

/-- What a run leaves of a command: where it stands, its intervals and its watermark once its list is known (R228, R230). -/
def copySave (ctxn k : Nat) (core : Nat) (c : CopyCmd) (r : Ran) : State × CopyCmd :=
  let c := { c with prog := r.at_, missed := r.missed, met := r.e.met, logged := r.e.seen, log := r.e.done, sheet := r.e.sheet,
                    news := r.e.news }
  let learned := c.hdr.isNone && r.hdr.isSome
  let c := { c with hdr := r.hdr }
  let spans : Option (List (List (Nat × Nat))) := match c.op, r.hdr with
    | .remap recs old new_ f64 ncomp, some h =>
      if learned then some ((remapRanges recs old new_ (ncomp * (if f64 then 8 else 4)) h).map rangeAtlas) else none
    | _, _ => none
  let c := match spans with
    | some l => { c with reads := l.getD 0 [] ++ l.getD 1 [], writes := l.getD 2 [] }
    | none => c
  (r.e.s.modChan ctxn k fun ch =>
    let ch := if spans.isSome then { ch with dhi := ((hull c.writes).head?.map (·.2)).getD ch.dhi } else ch
    { ch with cmd := some c, mark := if ch.wmA then copyMark r.e.s core c ch else ch.mark }, c)

/-- A command completes: DONEN, STATUS and the watermark (R217, R219, R228). -/
def copyFinish (s : State) (ctxn k : Nat) (c : CopyCmd) : State :=
  releaseUnits <| s.modChan ctxn k fun ch =>
    { donen := min (c.missed.head?.getD c.prog) c.prog, status := topStatus c.met, wmA := false,
      mark := if ch.wmA then ch.dhi + 1 else ch.mark, dhi := ch.dhi, cmd := none }

/-- Whether a command has made no access yet. -/
def CopyCmd.untouched (c : CopyCmd) : Bool := c.prog == 0 && c.log.isEmpty && c.missed.isEmpty

/-- A command that would make an atlas fault ends DENIED with no access made; the fault is logged (R170, R291). -/
def copyAtlas (s : State) (ctxn k : Nat) (c : CopyCmd) (core t : Nat) : State :=
  let e := (c.eng s core ⟨ctxn, c.role⟩ ⟨[], [], []⟩).deny (atlasPayload t)
  copyFinish e.s ctxn k { c with met := e.met }

/-- Whether a command in flight must wait: for the service of a fault, for an earlier command of the core that holds bytes it
touches, or for remote stores of its thread that come before it (R227, R230, R251). -/
def copyHeld (s : State) (core : Nat) (c : CopyCmd) : Bool := c.faulted || orderBlocked s core c || forkHeld s c.after

/-- COPY_COMMAND_COMPLETE: the command's remaining elements take effect, and when every remote write of it is acknowledged it
completes. It does not happen while the command must wait or remote data is missing; where the replay buffer is full it goes as
far as there is room (R216, R217, R227, R230, R251, R252, R375). (DEDUCED, log entry 44.) -/
def execCopyCommandComplete (s : State) : Answer :=
  let ctxn := s.occ.n
  let k := s.occ.k
  .next (match tfind ctxn s.triads with
    | none => s
    | some t => match (t.chan k).cmd with
      | none => s
      | some c =>
        if copyHeld s t.core c then s
        else if c.ended || c.met.contains stPartial then (if engineUnacked s c.order then s else copyFinish s ctxn k c)
        else
          let r := copyRun s t.core ⟨ctxn, c.role⟩ c s.occ.env
          if r.e.short then s
          else match (if c.untouched then r.e.atlas else none) with
            | some t0 => copyAtlas s ctxn k c t.core t0
            | none =>
              if r.e.fault.isSome then s
              else
                let w := copySave ctxn k t.core c r
                if r.e.full then w.1
                else
                  let c := { w.2 with ended := true }
                  if engineUnacked w.1 c.order then w.1.modChan ctxn k fun ch => { ch with cmd := some c }
                  else copyFinish w.1 ctxn k c)

/-- A copy command pauses at the translation fault that it meets, which its issuing thread will be told of (R227, R284). -/
def copyPause (s : State) (ctxn k : Nat) : State :=
  match tfind ctxn s.triads with
  | none => s
  | some t => match (t.chan k).cmd with
    | none => s
    | some c =>
      if copyHeld s t.core c || c.ended || c.met.contains stPartial then s
      else
        let r := copyRun s t.core ⟨ctxn, c.role⟩ c s.occ.env
        match r.e.fault with
        | none => s
        | some (cause, a) =>
          if c.untouched && r.e.atlas.isSome then s
          else
            let w := copySave ctxn k t.core c r
            (w.1.modChan ctxn k fun ch => { ch with cmd := some { w.2 with faulted := true } }).modRole ⟨ctxn, c.role⟩ fun q =>
              { q with async := q.async ++ [enginePost k r.at_ cause c.order a] }

/-! The instructions about channels. -/

/-- CHANNEL_BUSY_RELEASE: the current thread's command goes on when its channel is idle (R216). -/
def execChannelBusyRelease (s : State) : Answer :=
  .next (match s.th.stall with
    | some (.channel c) => if (s.tr.chan c).cmd.isSome then s else s.modTh fun r => { r with stall := none }
    | _ => s)

/-- WATERMARK_WAIT_RELEASE: the current thread's access is made again, and waits on while a watermark still holds it (R229). -/
def execWatermarkWaitRelease (s : State) : Answer :=
  .next (match s.th.stall with
    | some .watermark => s.goOn
    | _ => s)

/-- The channels of a CWAIT's mask (R231). -/
def maskChans (f : FmtE) : List Nat := (nrange 0 16).filter fun k => f.fn.toNat.testBit k

/-- CWAIT once its channels are idle (R231). -/
def State.cwait (s : State) (f : FmtE) : State :=
  let ks := maskChans f
  if ks.any fun k => (s.tr.chan k).cmd.isSome then s.stallOn (.cwait f)
  else s.done f.xd (BitVec.ofNat 64 (topStatus (ks.map fun k => (s.tr.chan k).status)))

/-- CWAIT (R231). -/
def execCwait (f : FmtE) (s : State) : Answer := .next (s.cwait f)

/-- CWAIT_RELEASE: the current thread's CWAIT ends when its channels are idle (R231). -/
def execCwaitRelease (s : State) : Answer :=
  .next (match s.th.stall with
    | some (.cwait f) => s.cwait f
    | _ => s)

/-- CSTAT (R232). -/
def execCstat (f : FmtE) (s : State) : Answer := .next (s.done f.xd (s.tr.chan (chanOf f)).word)

/-- PBINV (R236). -/
def execPbinv (f : FmtE) (s : State) : Answer :=
  let all := fnBits f 3 1 == 1
  .next (s.modCore s.tr.core fun c => { c with pblk := c.pblk.filter fun b =>
    !((all || b.win == fnBits f 0 3) && b.entry == entryOf s s.cur) }).advance

/-! CHINT (R237). -/

/-- What CHINT finds in its range: statuses met, and physical extents on a port. -/
structure Hint where
  s : State
  met : StatSet
  exts : List (Nat × Nat × Nat)
  deriving DecidableEq, Repr

/-- The range page by page; contiguous extents of one port join. -/
def hintGo (core : Nat) (c : Cred) : Nat → Hint → Word → Nat → Hint
  | 0, h, _, _ => h
  | fuel + 1, h, a, n =>
    if n = 0 then h
    else
      let k := min n (65536 - a.toNat % 65536)
      let bad (s : State) (st : Nat) : Hint := { h with s := s, met := st :: h.met }
      let h' : Hint := match locate h.s core c a .ld false with
        | (.denied fr, s) => if isolated s (65536 * fr) then { bad s stDenied with met := stIsolated :: stDenied :: h.met } else bad s stDenied
        | (.here pa _ _, s) =>
          match portOf pa with
          | some p =>
            if !(s.io.port p).expander then bad s stRange
            else
              let met := if (s.io.port p).iso then stIsolated :: h.met else h.met
              let off := pa % 2 ^ 42
              let exts := match h.exts.getLast? with
                | some (q, b, m) => if q = p ∧ b + m = off then h.exts.dropLast ++ [(q, b, m + k)] else h.exts ++ [(p, off, k)]
                | none => [(p, off, k)]
              ⟨s, met, exts⟩
          | none => bad s stRange
        | (_, s) => bad s stRange
      hintGo core c fuel h' (a + BitVec.ofNat 64 k) (n - k)

/-- The vendor-defined message of a hint, Type 1, with its payload of 16 bytes (R389). (DESIGN CHOICE, log entry 68.) -/
def hintMsg (port tier len addr : Nat) : VendorMsg :=
  ⟨port, 0x7F#8, Config.vendorId, 0x01#8, BitVec.ofNat 128 (tier * 2 ^ 96 + len * 2 ^ 64 + addr)⟩

/-- The messages of an extent: pieces of at most 2^30 bytes in rising order (R237, R389). -/
def hintMsgs (tier : Nat) (x : Nat × Nat × Nat) : List VendorMsg :=
  (nrange 0 ((x.2.2 + 2 ^ 30 - 1) / 2 ^ 30)).map fun i => hintMsg x.1 tier (min (2 ^ 30) (x.2.2 - i * 2 ^ 30)) (x.2.1 + i * 2 ^ 30)

/-- CHINT (R237, R389). -/
def execChint (f : FmtE) (s : State) : Answer :=
  let n := (s.x f.xb).toNat
  let h := hintGo s.tr.core s.cred (n / 65536 + 2) ⟨s, [], []⟩ (s.x f.xa) n
  let msgs := if h.met.isEmpty then h.exts.flatMap (hintMsgs (fnBits f 0 2)) else []
  .next ({ h.s with io := { h.s.io with hints := h.s.io.hints ++ msgs } }.done f.xd (BitVec.ofNat 64 (topStatus h.met)))

end Sys2Proof.Machine
end

