-- ==== Sys2Proof/Machine/Topo.lean ====
section
/-! DEFINITION. The topology engine: command blocks, the queue, and the commands MBUILD, MADAPT, MCOLOR, MCUT, MMIGRATE and
MGHOST (R308 to R319); and the pause of an engine command at a translation fault (R284). -/

namespace Sys2Proof.Machine

/-! Command blocks (R309, R310). -/

/-- A MIG word that may be used (R309). (DEDUCED, log entry 40.) -/
def goodMig (w : Nat) : Bool :=
  migP w != 0 && nbits w 23 1 == 0 && (migDepth w == 1 || migDepth w == 2) && w / 2 ^ 26 == 0

/-- The fields that must be zero, by operation (R309). -/
def blkZeros (op : Nat) : List Nat :=
  match op with
  | 0 => [1, 6, 7]
  | 1 => []
  | 2 => [2, 3, 5, 6, 7]
  | 3 => [2, 3, 7]
  | 4 => [2, 3]
  | _ => [2, 3, 5, 6]

/-- Array addresses and counts of a block that are in order (R310, step 3). -/
def blkArrays (op : Nat) (b : List Byte) : Bool :=
  let w := blkNat b
  match op with
  | 0 => 1 ≤ w 5 && w 5 ≤ 2 ^ 28 && w 4 % 4 == 0
  | 1 => w 5 % 4 == 0 && w 7 < 2
  | 2 => w 4 % 2 == 0
  | 3 => w 4 % 4 == 0 && 1 ≤ w 5 && w 5 ≤ 65535 && w 6 % 4 == 0
  | 4 => w 4 % 4 == 0 && w 5 % 8 == 0 && goodMig (w 7) && w 6 % migEsz (w 7) == 0
  | _ => w 4 % 8 == 0 && goodMig (w 7)

/-- Whether an operation builds one object at DST. -/
def builds (op : Nat) : Bool := op == tMbuild || op == tMadapt

/-! The engine's reads and writes. -/

/-- An engine command as it runs on remote data that arrived. -/
def topoEng (s : State) (c : TopoCmd) (env : EngineIn) : Eng :=
  { s := s, core := c.core, tid := c.tid, cred := c.cred, order := c.order, env := env.data, envPois := env.poisoned,
    met := c.met, seen := c.logged, log := c.log, sheet := c.sheet }

/-- Elements of w bytes written from an address, line by line: a line with a poisoned element is written poisoned (R312). -/
def Eng.writeArr (e : Eng) (a : Word) (w : Nat) (vals : List (Nat × Bool)) : Eng :=
  let lineOf (i : Nat) : Nat := (a.toNat % 64 + w * i) / 64
  let items := vals.zipIdx
  (nrange 0 (lineOf vals.length + 1)).foldl (fun e k =>
    let g := items.filter fun p => lineOf p.2 == k
    match g with
    | [] => e
    | x :: _ => (e.write (a + BitVec.ofNat 64 (w * x.2)) (g.flatMap fun p => natBytes w p.1.1) (g.any (·.1.2))).2) e

/-- n elements of w bytes read from an address, each with its poison. -/
def Eng.readArr (e : Eng) (a : Word) (w n : Nat) : List (Nat × Bool) × Eng :=
  (nrange 0 n).foldl (fun acc i =>
    let g := acc.2.read (a + BitVec.ofNat 64 (w * i)) w i
    (acc.1 ++ [(bytesNat g.1.bytes, g.1.pois)], g.2)) ([], e)

/-- The frames of n bytes at an address, each with the bytes that it takes, when all lie in local HBM4E. -/
def objExts (s : State) (core : Nat) (cr : Cred) (a : Word) (n : Nat) : Option (List (Nat × Nat)) :=
  let xs := (nrange 0 ((n + 65535) / 65536)).map fun k =>
    match (locate s core cr (a + BitVec.ofNat 64 (65536 * k)) .st false).1 with
    | .here pa _ _ => if inHbm pa then some (pa, min 65536 (n - 65536 * k)) else none
    | _ => none
  if xs.all (·.isSome) then some (xs.filterMap id) else none

/-- How a command's run ends: COUNT, the entries that it builds, and the engine. -/
structure TopoRan where
  count : Nat
  build : List Nat
  e : Eng
  deriving DecidableEq, Repr

/-- Writes an object at DST and notes its extent: RANGE when it does not fit or leaves local HBM4E (R313, R314). -/
def writeObject (e : Eng) (ent : List Nat) (dst : Word) (dlen : Nat) (b : List Byte) (pois : Bool) (count short : Nat) : TopoRan :=
  if dlen < b.length then ⟨short, ent, e.meet stRange⟩
  else
    let r := e.write dst b pois
    if !r.2.going then ⟨count, ent, r.2⟩
    else match objExts r.2.s e.core e.cred dst b.length with
      | none => ⟨count, ent, if r.1 then r.2.meet stRange else r.2⟩
      | some xs =>
        let ms := r.2.s.meshes.map fun m =>
          if ent.contains m.1 then (m.1, { m.2 with base := (xs.headD (m.2.base, 0)).1, exts := xs }) else m
        ⟨count, ent, { r.2 with s := { r.2.s with meshes := ms } }⟩

/-! The commands. -/

/-- MBUILD (R313). (DEDUCED, log entry 41.) -/
def runMbuild (c : TopoCmd) (e : Eng) : TopoRan :=
  let n := blkNat c.blk 5
  let g := e.read (blkWord c.blk 4) (48 * n) 0
  if !g.2.going then ⟨0, c.build, g.2⟩
  else
    let roots := lchunks 48 (n + 1) g.1.bytes
    let cells := roots.zipIdx.map fun p => rootCell p.1 p.2
    if roots.any (!goodRoot ·) || crowdedFace cells then ⟨n, c.build, g.2.meet stRange⟩
    else
      let b := objBytes (wholeObj roots cells)
      writeObject g.2 c.build (blkWord c.blk 2) (blkNat c.blk 3) b g.1.pois n (b.length / 256)

/-- The bytes of a command's mesh object, and its header alone. (DEDUCED, log entry 42.) -/
def readMesh (c : TopoCmd) (e : Eng) : Got × Eng :=
  let h := e.read (blkWord c.blk 1) 256 0
  if !h.2.going then h else h.2.read (blkWord c.blk 1) (objOff h.1.bytes 6) 0

/-- The header that a MADAPT leaves which ends before its new mesh is known: NREC, NNEW and SIZE/256 are 0 (R315). -/
def earlyHead (c : TopoCmd) (e : Eng) (ncell : Nat) (pois : Bool) : Eng :=
  (e.write (blkWord c.blk 5) (remapHead 0 ncell 0 0) pois).2

/-- MADAPT (R314, R315): the header of its list is written also where a lost peer or an isolated port ends it.
(DEDUCED, log entry 42.) -/
def runMadapt (c : TopoCmd) (e : Eng) : TopoRan :=
  let m := readMesh c { e with halt := false }
  let ncell := objNcell m.1.bytes
  let fl := { m.2 with halt := e.halt || m.2.halt }.read (blkWord c.blk 4) ncell 0
  let pois := m.1.pois || fl.1.pois
  if fl.2.halt then ⟨0, c.build, earlyHead c { fl.2 with halt := false } ncell pois⟩
  else if !fl.2.going then ⟨0, c.build, fl.2⟩
  else
    let flags := fl.1.bytes.map (·.toNat)
    let list := blkWord c.blk 5
    if flags.any (2 < ·) then ⟨0, c.build, (earlyHead c fl.2 ncell pois).meet stRange⟩
    else
      let roots := objRoots m.1.bytes
      let cells := objCells m.1.bytes
      let nbrs := meshNbrs cells
      let new_ := adaptCells cells nbrs (adaptLevels roots cells nbrs flags) (blkNat c.blk 7 == 1) roots
      let o := wholeObj roots (new_.map (·.1))
      let b := objBytes o
      let n := new_.length
      let head (k : Nat) : List Byte := remapHead k ncell n (b.length / 256)
      if 2 ^ 32 - 2 < n ∨ 2 ^ 32 - 2 < (objFaces o).length ∨ blkNat c.blk 6 < n then
        ⟨n, c.build, (fl.2.write list (head 0) pois).2.meet stRange⟩
      else
        let l := fl.2.write list (head n ++ (new_.zipIdx.map fun p => remapRec p.2 p.1.2).flatten) pois
        writeObject l.2 c.build (blkWord c.blk 2) (blkNat c.blk 3) b pois n n

/-- MCOLOR (R316): a colour depends on the face records up to its own. (DEDUCED, log entry 42.) -/
def runMcolor (c : TopoCmd) (e : Eng) : TopoRan :=
  let h := e.read (blkWord c.blk 1) 256 0
  let at_ := blkWord c.blk 1 + BitVec.ofNat 64 (objOff h.1.bytes 2)
  let rs := h.2.readArr at_ 16 (objNface h.1.bytes)
  let cols := colourFaces (rs.1.map fun r => (r.1 % 2 ^ 32, r.1 / 2 ^ 32 % 2 ^ 32))
  let firstBad := (lidx (fun (r : Nat × Bool) => r.2) rs.1).getD rs.1.length
  ⟨cols.foldl (fun a k => max a (k + 1)) 0, [],
    rs.2.writeArr (blkWord c.blk 4) 2 (cols.zipIdx.map fun p => (p.1, h.1.pois || decide (firstBad ≤ p.2)))⟩

/-- MCUT (R317): every inner part start depends on every weight. (DEDUCED, log entry 42.) -/
def runMcut (c : TopoCmd) (e : Eng) : TopoRan :=
  let h := e.read (blkWord c.blk 1) 256 0
  let n := objNcell h.1.bytes
  let p := blkNat c.blk 5
  let ws : List (Nat × Bool) × Eng :=
    if blkNat c.blk 4 = 0 then (List.replicate n (1, false), h.2) else h.2.readArr (blkWord c.blk 4) 4 n
  let bad := ws.1.any (·.2)
  ⟨p, [], ws.2.writeArr (blkWord c.blk 6) 4 ((partStarts (ws.1.map (·.1)) p).zipIdx.map fun x =>
    (x.1, (h.1.pois && x.2 != 0) || (bad && x.2 != 0 && x.2 != p)))⟩

/-- An entry of a part table: OBJ, OBJLEN and FLD (R318). -/
def partEntry (b : List Byte) (k : Nat) : Nat × Nat × Nat := (objNat b (32 * k) 8, objNat b (32 * k + 8) 8, objNat b (32 * k + 16) 8)

/-- Copies one field element, its poison with it; answers whether it was written. -/
def copyField (e : Eng) (src dst : Word) (w i : Nat) : Bool × Eng :=
  let g := e.read src w i
  if !g.2.going then (false, g.2) else g.2.write dst g.1.bytes g.1.pois

/-- The field elements of the cells of a part, copied to FLD (R318). -/
def copyFields (e : Eng) (src dst w ncomp : Nat) (cells : List Nat) : Eng :=
  cells.zipIdx.foldl (fun e p => (nrange 0 ncomp).foldl (fun e j =>
    (copyField e (BitVec.ofNat 64 (src + (p.1 * ncomp + j) * w)) (BitVec.ofNat 64 (dst + (p.2 * ncomp + j) * w)) w
      (p.2 * ncomp + j)).2) e) e

/-- What a command finds out once: as it found before a pause, or now (R284). -/
def Eng.recall (e : Eng) (now : Eng → Option (Option Nat) × Eng) : Option (Option Nat) × Eng :=
  match e.log with
  | .entry d :: _ => (d, e.step (.entry d))
  | _ =>
    let r := now e
    if r.2.going then (r.1, r.2.step (.entry r.1)) else r

/-- Where a part object goes: to another chip, or here under a free mesh entry that is taken, or nowhere (R295, R318). -/
def Eng.partPlace (e : Eng) (a : Word) : Option (Option Nat) × Eng :=
  match locate e.s e.core e.cred a .st false with
  | (.far pa _, s) =>
    let e := { e with s := s }
    if cutOff s e.tid (lcnOf pa) then (none, e.meet stPeerLost) else (some none, e)
  | (.here pa _ _, s) =>
    let e := { e with s := s }
    match freeMesh s, inHbm pa with
    | some i, true => (some (some i), { e with s := { s with meshes := tset i ⟨false, pa, [], e.cred.tag⟩ s.meshes } })
    | _, _ => (none, e.meet stRange)
  | (.fault k, s) => (none, { e with s := s }.meetFault k a)
  | (.denied f, s) => (none, { e with s := s }.deny f)

/-- A part object written at OBJ: whether the part is to be sealed, here or at its chip, and the mesh entry taken for it (R318).
(DESIGN CHOICE, log entry 13.) -/
def buildPart (e : Eng) (parts : List Nat) (p : Nat) (obj objlen : Nat) (b : List Byte) : Bool × List Nat × Eng :=
  let a := BitVec.ofNat 64 obj
  if obj % 65536 ≠ 0 ∨ objlen < b.length then (false, [], e.meet stRange)
  else
    let d := e.recall fun e => e.partPlace a
    if !d.2.going then (false, [], d.2)
    else match d.1 with
    | none => (false, [], d.2)
    | some none =>
      let r := d.2.write a b false
      if r.2.halt then (false, [], { r.2 with halt := false })
      else if !r.2.going then (false, [], r.2)
      else
        let q := r.2.recall fun e => (if r.1 && parts.contains p then some none else none, e)
        if q.1.isSome then (true, [], q.2) else (false, [], q.2.meet stRange)
    | some (some i) =>
      let r := d.2.write a b false
      if !r.1 then (false, [i], r.2)
      else if ((tfind i r.2.s.meshes).map (·.exts)).any (· != []) then (true, [i], r.2)
      else match objExts r.2.s e.core e.cred a b.length with
        | none => (false, [i], r.2.meet stRange)
        | some xs => (true, [i], { r.2 with s := { r.2.s with meshes := r.2.s.meshes.map fun m =>
            if m.1 = i then (i, { m.2 with exts := xs }) else m } })

/-- MMIGRATE (R318). (DEDUCED, log entry 42.) -/
def runMmigrate (c : TopoCmd) (parts : List Nat) (e : Eng) : TopoRan :=
  let mig := blkNat c.blk 7
  let np := migP mig
  let m := readMesh c e
  let st := m.2.readArr (blkWord c.blk 4) 4 (np + 1)
  let tb := st.2.read (blkWord c.blk 5) (32 * np) 0
  let e := tb.2
  let starts := st.1.map (·.1)
  let n := objNcell m.1.bytes
  if !e.going then ⟨0, c.build, e⟩
  else if starts.headD 1 ≠ 0 ∨ starts.getLastD 0 ≠ n ∨ (starts.zip starts.tail).any (fun p => decide (p.2 < p.1)) then
    ⟨0, [], e.meet stRange⟩
  else if m.1.pois || m.1.denied || st.1.any (·.2) || tb.1.pois || tb.1.denied then ⟨0, [], e⟩
  else
    let roots := objRoots m.1.bytes
    let cells := objCells m.1.bytes
    let nbrs := meshNbrs cells
    let objs := (nrange 0 np).map fun p => partObj roots cells nbrs starts p (migDepth mig)
    let built := objs.zipIdx.foldl (fun (acc : List (Nat × Bool) × List Nat × Eng) o =>
      let t := partEntry tb.1.bytes o.2
      let r := if acc.2.2.going then buildPart acc.2.2 parts o.2 t.1 t.2.1 (objBytes o.1.1) else (false, [], acc.2.2)
      (acc.1 ++ [(o.2, r.1)], acc.2.1 ++ r.2.1, r.2.2)) ([], [], e)
    let e := if blkNat c.blk 6 = 0 then built.2.2
      else (objs.zip built.1).foldl (fun e o =>
        if !o.2.2 || !e.going then e
        else { copyFields e (blkNat c.blk 6) (partEntry tb.1.bytes o.2.1).2.2 (migEsz mig) (migNcomp mig) o.1.2
               with halt := false }) built.2.2
    ⟨(built.1.filter (·.2)).length, built.2.1, e⟩

/-- MGHOST (R319). (DEDUCED, log entry 42.) -/
def runMghost (c : TopoCmd) (e : Eng) : TopoRan :=
  let mig := blkNat c.blk 7
  let h := e.read (blkWord c.blk 1) 256 0
  let hd := h.1.bytes
  let tb := h.2.read (blkWord c.blk 4) (32 * migP mig) 0
  if !tb.2.going then ⟨0, [], tb.2⟩
  else if objNpart hd ≠ migP mig then ⟨0, [], tb.2.meet stRange⟩
  else
    let w := migEsz mig
    let nc := migNcomp mig
    let fld (k : Nat) : Nat := (partEntry tb.1.bytes k).2.2
    let gs := tb.2.readArr (blkWord c.blk 1 + BitVec.ofNat 64 (objOff hd 5)) 8 (objNghost hd)
    let r := gs.1.zipIdx.foldl (fun (acc : Nat × Eng) g =>
      let part := g.1.1 / 2 ^ 32 % 65536
      let loc := g.1.1 % 2 ^ 32
      if migP mig ≤ part then (acc.1, acc.2.meet stRange)
      else
        let u := (nrange 0 nc).foldl (fun (a : Bool × Eng) j =>
          let rd := a.2.read (BitVec.ofNat 64 (fld part + (loc * nc + j) * w)) w (g.2 * nc + j)
          let wr := rd.2.write (BitVec.ofNat 64 (fld (objPart hd) + ((objNown hd + g.2) * nc + j) * w)) rd.1.bytes
            (rd.1.pois || g.1.2 || h.1.pois || tb.1.pois)
          (a.1 && wr.1, wr.2)) (true, acc.2)
        (if u.1 then acc.1 + 1 else acc.1, u.2)) (0, gs.2)
    ⟨r.1, [], r.2⟩

/-- A command's run: BUSY first, then its reads and writes (R310, R311). A command whose BUSY met a lost peer or an isolated port
has ended there. -/
def topoRun (s : State) (c : TopoCmd) (env : EngineIn) : TopoRan :=
  let e := topoEng s c env
  let dead := c.busy && c.log.isEmpty && (c.met.contains stPeerLost || c.met.contains stIsolated)
  let e := if c.busy then { e with halt := dead } else (e.write (blkWord c.blk 0) (wordBytes (statusWord true 0 0)) false).2
  if !e.going && !(e.halt && c.op == tMadapt) then ⟨0, c.build, e⟩
  else match c.op with
    | 0 => runMbuild c e
    | 1 => runMadapt c e
    | 2 => runMcolor c e
    | 3 => runMcut c e
    | 4 => runMmigrate c env.parts e
    | _ => runMghost c e

/-! The queue (R308). -/

def State.topo (s : State) (die : Nat) : Topo := tget Topo.init die s.topos

def State.setTopo (s : State) (die : Nat) (t : Topo) : State := { s with topos := tset die t s.topos }

/-- Up to four commands run at once (R308). -/
def Topo.fill (t : Topo) : Topo :=
  let k := 4 - t.running.length
  ⟨t.queue.drop k, t.running ++ t.queue.take k⟩

/-- Acceptance of a command, or the wait for a place in the queue, for its thread's earlier remote stores, or for room in the replay
buffer (R251, R310, steps 4 and 5; R375). -/
def State.topoEnter (s : State) (f : FmtE) (op : Nat) (blk : List Byte) (mesh : Option Nat) (build : List Nat) : State :=
  let die := dieOf s.tr.core
  let wait := s.stallOn (.topo f op blk mesh build)
  if 16 ≤ (s.topo die).queue.length || unacked s s.cur then wait
  else
    let c : TopoCmd := {
      tid := s.cur, core := s.tr.core, op := op, blk := blk, cred := s.cred, order := s.serial, build := build, mesh := mesh,
      faulted := false, ended := false, busy := false, aborted := false, result := none, met := [], logged := [], log := [],
      sheet := [] }
    let e := ((topoEng { s with serial := s.serial + 1 } c ⟨[], [], []⟩).write (blkWord blk 0)
      (wordBytes (statusWord true 0 0)) false).2
    if e.full then wait
    else
      let c := { c with busy := e.fault.isNone && !e.short, met := e.met, logged := e.seen }
      let t := e.s.topo die
      (e.s.setTopo die (Topo.fill ⟨t.queue ++ [c], t.running⟩)).done f.xd (BitVec.ofNat 64 stDone)

/-- The base of a mesh entry whose first page faults: no frame. -/
def noFrame : Nat := 2 ^ 52

/-- The entry that a build takes, with what is known of its extent: none where DST is not aligned or not in local HBM4E, or no entry
is free. A DST whose page faults is found out when the command runs (R295, R310, R312). -/
def State.takeMesh (s : State) (dst : Word) (dlen : Nat) : Option Nat × State :=
  match handleAt s s.tr.core s.cred dst with
  | (.bad, s) => (none, s)
  | (h, s) => match freeMesh s with
    | none => (none, s)
    | some i =>
      let base := match h with
        | .frame pa => pa
        | _ => noFrame
      let exts := if dlen ≤ 2 ^ 39 then (objExts s s.tr.core s.cred dst dlen).getD [] else []
      (some i, { s with meshes := tset i ⟨false, base, exts, s.tr.tag⟩ s.meshes })

/-- A mesh command's issue (R310). -/
def State.meshCmd (s : State) (f : FmtE) (op : Nat) : State :=
  let a := s.x f.xa
  let range (s : State) : State := s.done f.xd (BitVec.ofNat 64 stRange)
  if a.toNat % 64 ≠ 0 then s.trapAlign a 0
  else match readRange s a 64 true with
    | .stop s => s
    | .ok (b, frames) s =>
      let s := logDenied s kLoad frames
      if (blkZeros op).any (fun k => blkNat b k != 0) || blkNat b 0 % 8 != 0 || !blkArrays op b then range s
      else
        let m : Option (Option Nat) × State := if op = tMbuild then (some none, s) else
          match meshNamed s s.tr.core s.cred (blkWord b 1) (some s.tr.tag) with
          | (some e, s) => (some (some e), s)
          | (none, s) => (none, s)
        match m with
        | (none, s) => range s
        | (some mesh, s) =>
          if !builds op then s.topoEnter f op b mesh []
          else match s.takeMesh (blkWord b 2) (blkNat b 3) with
            | (some i, s) => s.topoEnter f op b mesh [i]
            | (none, s) => range s

/-- MBUILD (R309, R313). -/
def execMbuild (f : FmtE) (s : State) : Answer := .next (s.meshCmd f tMbuild)
/-- MADAPT (R309, R314). -/
def execMadapt (f : FmtE) (s : State) : Answer := .next (s.meshCmd f tMadapt)
/-- MCOLOR (R309, R316). -/
def execMcolor (f : FmtE) (s : State) : Answer := .next (s.meshCmd f tMcolor)
/-- MCUT (R309, R317). -/
def execMcut (f : FmtE) (s : State) : Answer := .next (s.meshCmd f tMcut)
/-- MMIGRATE (R309, R318). -/
def execMmigrate (f : FmtE) (s : State) : Answer := .next (s.meshCmd f tMmigrate)
/-- MGHOST (R309, R319). -/
def execMghost (f : FmtE) (s : State) : Answer := .next (s.meshCmd f tMghost)

/-- TOPOLOGY_QUEUE_ADMISSION: the current thread's command is accepted when the queue has a place (R308). -/
def execTopologyQueueAdmission (s : State) : Answer :=
  .next (match s.th.stall with
    | some (.topo f op blk mesh build) => s.topoEnter f op blk mesh build
    | _ => s)

/-! Completion. -/

/-- A running command with changes. -/
def State.setRunning (s : State) (die : Nat) (c : TopoCmd) : State :=
  s.setTopo die ⟨(s.topo die).queue, (s.topo die).running.map fun d => if d.order = c.order then c else d⟩

/-- A command leaves the engine, which takes up the next one (R308). -/
def State.dropRunning (s : State) (die : Nat) (c : TopoCmd) : State :=
  let t := s.topo die
  releaseUnits (s.setTopo die (Topo.fill ⟨t.queue, t.running.filter fun d => d.order != c.order⟩))

/-- A command's objects sealed, or their entries freed: of MMIGRATE, the parts that were built are sealed (R295, R318). -/
def sealBuilt (s : State) (c : TopoCmd) (status : Nat) : State :=
  let seal_ (m : Nat × MeshEnt) : Bool :=
    if c.op = tMmigrate then !c.ended && m.2.exts != [] else status == stDone
  { s with meshes := (s.meshes.filter fun m => !c.build.contains m.1 || seal_ m).map fun m =>
      if c.build.contains m.1 then (m.1, { m.2 with isSealed := true }) else m }

/-- The last write of a command, its completion word; what it meets there (R311). -/
def topoFinish (s : State) (die : Nat) (c : TopoCmd) (count : Nat) : Eng × State :=
  let met := if c.ended then stPartial :: c.met else c.met
  let status := topStatus met
  let s := sealBuilt s c status
  let r := (topoEng s { c with met := met, log := [] } ⟨[], [], []⟩).write (blkWord c.blk 0) (wordBytes (statusWord false count status)) false
  (r.2, r.2.s.dropRunning die c)

/-- A command whose result is known completes once its remote writes are acknowledged (R252); it waits on where its completion word
meets a translation fault or finds no room. -/
def topoEnd (s : State) (die : Nat) (c : TopoCmd) (count : Nat) : State :=
  if engineUnacked s c.order then s
  else
    let u := topoFinish s die c count
    if u.1.full || (!c.ended && u.1.fault.isSome) then s else u.2

/-- A command that software ended: MADAPT leaves the header of its remap list (R284, R315). -/
def topoEnded (s : State) (c : TopoCmd) : State :=
  if c.op = tMadapt then
    let h := (topoEng s { c with log := [] } ⟨[], [], []⟩).read (blkWord c.blk 1) 256 0
    (earlyHead c h.2 (objNcell h.1.bytes) false).s
  else s

/-- What a run leaves of a command that goes on later (R284). -/
def topoSave (c : TopoCmd) (r : TopoRan) : TopoCmd :=
  { c with build := r.build, met := r.e.met, logged := r.e.seen, log := r.e.done, sheet := r.e.sheet }

/-- A running command that must not wait makes its reads and writes (R308, R311). -/
def topoGo (s : State) (die : Nat) (c : TopoCmd) : State :=
  match c.result with
  | some n => topoEnd s die c n
  | none =>
    if c.ended then
      let c' := { c with result := some 0 }
      topoEnd ((topoEnded s c).setRunning die c') die c' 0
    else
      let r := topoRun s c s.occ.env
      if r.e.short || r.e.fault.isSome then s
      else if r.e.full then r.e.s.setRunning die (topoSave c r)
      else
        let c := { topoSave c r with busy := true, result := some r.count, log := [] }
        topoEnd (r.e.s.setRunning die c) die c r.count

/-- A part object that another chip's MMIGRATE has built here is sealed, where an entry is free (R318): its first frame `n`, its SIZE
`k`, its tag `j`, its frames. (DESIGN CHOICE, log entry 88.) -/
def sealForeign (s : State) : State :=
  let o := s.occ
  let ok := o.env.parts.headD 1 == o.n && o.env.parts.all (fun f => f % 65536 == 0 && inHbm f) && o.k != 0 &&
    decide (o.k ≤ 65536 * o.env.parts.length)
  match freeMesh s, ok with
  | some i, true =>
    let exts := o.env.parts.zipIdx.map fun p => (p.1, min 65536 (o.k - 65536 * p.2))
    { s with meshes := tset i ⟨true, o.n, exts, o.j % 4096⟩ s.meshes }
  | _, _ => s

/-- TOPOLOGY_COMMAND_COMPLETE: a running command makes its reads and writes, and completes once its remote writes are
acknowledged. It does not happen while a translation fault waits for service or remote data is missing (R308, R311).
With `flag`, a part of another chip's command is sealed here (R318). (DEDUCED, log entry 44.) -/
def execTopologyCommandComplete (s : State) : Answer :=
  let die := s.occ.n
  .next (if s.occ.flag then sealForeign s
    else match (s.topo die).running[s.occ.k]? with
    | none => s
    | some c =>
      if c.faulted then s
      else if c.aborted then (if engineUnacked s c.order then s else abortWord (s.dropRunning die c) c)
      else topoGo s die c)

/-- A topology command pauses at the translation fault that it meets (R284, R312). (DEDUCED, log entry 44.) -/
def topoPause (s : State) (die k : Nat) : State :=
  let post (fault : Option (Nat × Word)) (s' : State) (c : TopoCmd) : State := match fault with
    | none => s
    | some (cause, a) => (s'.setRunning die { c with faulted := true }).modRole c.tid fun q =>
        { q with async := q.async ++ [enginePost 0x20 0 cause c.order a] }
  match (s.topo die).running[k]? with
  | none => s
  | some c =>
    if c.faulted || c.ended || c.aborted then s
    else match c.result with
      | some n => if engineUnacked s c.order then s else post (topoFinish s die c n).1.fault s c
      | none =>
        let r := topoRun s c s.occ.env
        post r.e.fault r.e.s (topoSave c r)

/-- ENGINE_FAULT_PAUSE: an engine command meets a translation fault and pauses; its issuing thread will be told (R284).
(DEDUCED, log entry 44.) -/
def execEngineFaultPause (s : State) : Answer :=
  .next (if s.occ.flag then topoPause s s.occ.n s.occ.k else copyPause s s.occ.n s.occ.k)

end Sys2Proof.Machine
end

