-- ==== Sys2Proof/Machine/Traps.lean ====
section
/-! DEFINITION. TRAP, TRET, IDLE, the saves and restores of vector state and of the context area, the entry of pending
traps, and the resumption of pre-empted gangs (R345 to R365). -/

namespace Sys2Proof.Machine

/-- TRAP: completes, then traps CALL (R364). -/
def execTrap (f : FmtY) (s : State) : Answer := .next (s.trapAfter cCALL f.imm8.toNat 0)

/-- TRET (R356). (DEDUCED, log entry 29.) -/
def execTret (_ : FmtY) (s : State) : Answer :=
  .next (if !s.th.priv then s.trapPriv
    else if !s.th.inHandler then s.trapDecode
    else returnTriad s s.cur.ctxn)

/-! Parking. -/

/-- A gang whose triads are all parked is pre-empted (R365). -/
def settleGang (s : State) (g : Nat) : State :=
  let own := s.triads.filter fun p => p.2.gang == g
  if !own.isEmpty && own.all (fun p => p.2.parked) then
    { s with gangs := s.gangs.map fun p => if p.1 = g then (p.1, { p.2 with preempted := true }) else p }
  else s

/-- IDLE: the triad is parked and leaves the handler; a pending WDOG is discharged (R350, R364). (DEDUCED, log entry 29.) -/
def execIdle (_ : FmtY) (s : State) : Answer :=
  .next (if !s.th.priv then s.trapPriv
    else if !s.th.inHandler then s.trapDecode
    else
      let t := s.tr
      let s := (s.advance.modTh fun r => { r with inHandler := false, blk := [] }).modTr fun t =>
        { t with handling := none, parked := true, wdog := false }
      settleGang (wdogSettle s t.queue) t.gang)

/-- Whether every slot that a gang held is free (R365). -/
def slotsFree (s : State) (g : Nat) (v : Gang) : Bool :=
  !(s.gangs.any fun p => p.1 != g && !p.2.preempted && p.2.slots.any fun k => v.slots.contains k)

/-- PREEMPTED_GANG_RESUME: a pre-empted gang whose slots are all free goes on as TRET restarts it (R365). -/
def execPreemptedGangResume (s : State) : Answer :=
  .next (match tfind s.occ.n s.gangs with
    | none => s
    | some v =>
      if v.preempted && slotsFree s s.occ.n v then
        let s := { s with gangs := tset s.occ.n { v with preempted := false } s.gangs }
        v.ctxns.foldl (fun s c =>
          if (tfind c s.triads).any fun t => t.gang == s.occ.n && t.parked then returnTriad s c else s) s
      else s)

/-! Pending traps (R345, R349). -/

/-- A pending trap of a class, delivered at a role's boundary: return goes on at the next word. -/
def State.deliver (s : State) (t : Tid) (p : TrapPost) : State :=
  takeTrap (postTrap s t { p with resume := (s.thread t).pc }) t.ctxn

/-- The pending trap of a role that comes first: FABRIC, then an engine fault, each class in its order of arrival.
(DEDUCED, log entry 28.) -/
def nextAsync (l : List TrapPost) : Option TrapPost := (l.find? fun p => p.cls == cFABRIC) <|> l.head?

/-- Whether the device may deliver a pending trap to a triad now: no role of it is in a handler, none has trapped.
(DEDUCED, log entry 28.) -/
def mayDeliver (t : Triad) : Bool := t.handling.isNone && !t.parked && t.trapper.isNone

/-- TRAP_ENTRY: the current triad enters the handler of a trap whose roles have now all reached a boundary, or of the
pending trap of highest order (R345, R348, R349). (DEDUCED, log entry 28.) -/
def execTrapEntry (s : State) : Answer :=
  let t := s.tr
  .next (if t.trapper.isSome then takeTrap s s.cur.ctxn
    else if !mayDeliver t then s
    else if t.wdog then s.deliver ⟨s.cur.ctxn, .computer⟩ { cls := cWDOG }
    else if inFlight s.th then s
    else match nextAsync s.th.async with
      | none => s
      | some p => (s.modTh fun r => { r with async := r.async.erase p }).deliver s.cur p)

/-! Ranges stored whole. -/

/-- Whether a piece lies in a sealed mesh extent (R296). -/
def Piece.inSealed (s : State) : Piece → Bool
  | .here pa _ n _ => Machine.inSealed s pa n
  | _ => false

/-- Whether a piece is denied. -/
def Piece.isDenied : Piece → Bool
  | .denied _ _ => true
  | _ => false

/-- Stores bytes piece by piece for the current thread in stream 0; `pois` tells for each piece whether it carries
poison. -/
def storePieces (s : State) : List Piece → List Byte → List Bool → State
  | [], _, _ => s
  | p :: ps, bs, pois =>
    let cur := bs.take p.len
    let bad := pois.headD false
    let s := match p with
      | .here pa key _ _ => let s := physWrite s pa cur key; if bad then physPoison s pa cur.length key else s
      | .far pa key _ => sendWrite s (some s.cur) 0 s.tr.tag pa key cur bad
      | .denied _ _ => s
    storePieces s ps (bs.drop p.len) pois.tail

/-- The flits that storing pieces puts into the replay buffer (R375). -/
def pieceFlits (s : State) (ps : List Piece) : Nat :=
  (ps.map fun p => match p with
    | .here pa _ n _ => forwardFlits s pa n
    | .far _ _ n => writeFlits n
    | .denied _ _ => 0).sum

/-- Where n bytes at a page-aligned address may be stored, once nothing stands in the way: ALIGN and PGFAULT trap, a
watermark or a full replay buffer stalls; `none` is a denied page (R289, R296, R360, R361). (DEDUCED, log entry 31.) -/
def storePlan (s : State) (a : Word) (n : Nat) : Res (Option (List Piece)) :=
  if a.toNat % 4096 ≠ 0 then .stop (s.trapAlign a 0)
  else match pieces s s.tr.core s.cred .st a n true with
    | .error (c, b, s) => .stop (s.trapPage c b 0)
    | .ok (ps, s) =>
      if ps.any fun p => p.isDenied || p.inSealed s then .ok none s
      else if !replayRoom s (pieceFlits s ps) then .stop (s.stallOn (.replay (pieceFlits s ps)))
      else .ok (some ps) s

/-- n bytes read from a page-aligned address, with their pieces; `none` is a denied page (R360, R361). (DEDUCED, log entry 31.) -/
def loadPlan (s : State) (a : Word) (n : Nat) : Res (Option (List Piece)) :=
  if a.toNat % 4096 ≠ 0 then .stop (s.trapAlign a 0)
  else match pieces s s.tr.core s.cred .ld a n true with
    | .error (c, b, s) => .stop (s.trapPage c b 0)
    | .ok (ps, s) =>
      if ps.any Piece.isDenied then .ok none s
      else
        let s := askLines s s.cur s.tr.tag (farOf ps)
        if linesHere s s.cur ((farOf ps).map (·.1)) then .ok (some ps) s else .stop (s.stallOn .remote)

/-- For each 64-byte line of pieces, whether its data is poisoned or uncorrectable. -/
def badLines (s : State) (ps : List Piece) : List Bool := ps.map fun p => pieceQuality s s.cur p != .clean

/-! SSAVE and SRSTOR. -/

/-- SSAVE (R361). (DEDUCED, log entry 31.) -/
def execSsave (f : FmtE) (s : State) : Answer :=
  .next (if !s.th.priv then s.trapPriv
    else match storePlan s (s.x f.xa) 4096 with
      | .stop s => s
      | .ok none s => s.done f.xd (BitVec.ofNat 64 stDenied)
      | .ok (some ps) s =>
        let area := areaOf s.tr.traprec
        let pois := (nrange 0 64).map fun i => physQuality s (area + 64 * i) 64 != .clean
        (storePieces s ps (physRead s area 4096 0) pois).done f.xd (BitVec.ofNat 64 stDone))

/-- SRSTOR (R361). -/
def execSrstor (f : FmtE) (s : State) : Answer :=
  .next (if !s.th.priv then s.trapPriv
    else match loadPlan s (s.x f.xa) 4096 with
      | .stop s => s
      | .ok none s => s.done f.xd (BitVec.ofNat 64 stDenied)
      | .ok (some ps) s =>
        if (badLines s ps).any id then s.done f.xd (BitVec.ofNat 64 stPoisoned)
        else (storeOwn s (areaOf s.tr.traprec) ((ps.map (pieceRead s s.cur)).flatten) 0).done f.xd (BitVec.ofNat 64 stDone))

/-! VSAVE and VRSTOR. -/

/-- log2 of the number of bound slabs. -/
def log2Slabs (n : Nat) : Nat := if n = 4 then 2 else if n = 2 then 1 else 0

/-- EW as R93 codes it, for a width in bits. -/
def ewCode (w : Nat) : Nat := Nat.log2 (w / 8)

/-- The length of a save area (R359). -/
def saveLen (n : Nat) : Nat := 0x8000 + 0x70000 * n

/-- The header of a save area, 1,024 bytes (R359). -/
def saveHeader (n : Nat) (v : VecState) (owner : Nat) : List Byte :=
  let vp := match v.vp with
    | some p => 2 ^ 10 + ewCode p.ew * 2 ^ 11
    | none => 0
  natBytes 8 (1 + log2Slabs n * 2 ^ 8 + vp) ++ natBytes 8 v.cfg.toNat ++
    ((nrange 0 8).map fun q => BitVec.ofNat 8 (v.ring q).length) ++
    natBytes 8 ((v.vp.map (·.total)).getD 0) ++ natBytes 8 owner ++ List.replicate 984 0

/-- The poison map, 1,024 bytes (R359). -/
def savePois (n : Nat) (v : VecState) : List Byte :=
  let regs := v.pois.map fun k => 16 * n * (k / 64) + k % 64
  let rings := (nrange 0 8).flatMap fun q => (v.ring q).zipIdx.flatMap fun e =>
    e.1.pois.map fun g => 1024 * n + 16 * n * (4 * q + e.2) + g
  natBytes 1024 (((regs ++ rings).map (2 ^ ·)).sum)

/-- The VP record of an index, 16 bytes (R359). -/
def saveVp (p : VpState) (i : Nat) : List Byte :=
  match tfind i p.vps with
  | some q => natBytes 8 (q.pc.toNat + (if q.live then 1 else 0)) ++ natBytes 4 q.sr ++ [0, 0, 0, 0]
  | none => List.replicate 16 0

/-- The save area of a slot's vector state (R359). -/
def saveBytes (n : Nat) (v : VecState) (owner : Nat) : List Byte :=
  saveHeader n v owner ++ ((nrange 1 15).map fun k => natBytes 2048 (v.mask k)).flatten ++ savePois n v ++
    ((nrange 0 64).map fun k => natBytes (4096 * n) (v.reg k)).flatten ++
    ((nrange 0 32).map fun i => natBytes (4096 * n) ((((v.ring (i / 4))[i % 4]?).map (·.bits)).getD 0)).flatten ++
    (match v.vp with
      | some p => ((nrange 0 (4096 * n)).map (saveVp p)).flatten
      | none => List.replicate (0x10000 * n) 0)

/-- Whether a vector instruction of a role was issued and is not complete (R360). -/
def RoleState.vecUnderWay (r : RoleState) : Bool :=
  match r.stall with
  | some (.vfetch _) | some (.vatomic ..) => true
  | some .remote | some .windows | some .watermark | some (.replay _) | some .granule =>
    r.word.any fun w => vectorOp (wordOp w).toNat
  | _ => false

/-- The same of the triad that owns the vector state of a slot. -/
def vecUnderWay (s : State) (ctxn : Nat) : Bool :=
  (tfind ctxn s.triads).any fun t => roles.any fun r => (t.role r).vecUnderWay

/-- VSAVE (R360). (DEDUCED, log entry 31.) -/
def execVsave (f : FmtE) (s : State) : Answer :=
  let a := s.x f.xa
  .next (if !s.th.priv then s.trapPriv
    else if a.toNat % 4096 ≠ 0 then s.trapAlign a 0
    else match (s.slot s.tr.slotKey).owner with
      | none => s.done f.xd (BitVec.ofNat 64 stRange)
      | some o =>
        let n := s.bound s.tr.core
        match storePlan s a (saveLen n) with
        | .stop s => s
        | .ok none s => s.done f.xd (BitVec.ofNat 64 stDenied)
        | .ok (some ps) s =>
          if vecUnderWay s o then s.stallOn .vsave
          else (storePieces s ps (saveBytes n s.vec o) []).done f.xd (BitVec.ofNat 64 stDone))

/-- The slot's vector state with the issuing triad its owner (R360). -/
def State.own (s : State) (v : VecState) : State :=
  s.modSlot s.tr.slotKey fun _ => ⟨some s.cur.ctxn, v⟩

/-- The number that n bytes hold at an offset of a save area. -/
def saveNat (b : List Byte) (o n : Nat) : Nat := bytesNat ((b.drop o).take n)

/-- What VRSTOR refuses with RANGE: a wrong VER, a binding that differs, a reserved field, or counts that no state has
(R359, R360). (DEDUCED, log entry 30.) -/
def badSave (n : Nat) (b : List Byte) : Bool :=
  let h := saveNat b 0 8
  h % 256 != 1 || nbits h 8 2 != log2Slabs n || decide (2 ^ 13 ≤ h) ||
    nbits (saveNat b 8 8) 15 1 != 0 || decide (2 ^ 32 ≤ saveNat b 8 8) ||
    ((b.drop 0x10).take 8).any (fun c => decide (4 < c.toNat)) || decide (4096 * n < saveNat b 0x18 8) ||
    decide (4096 ≤ saveNat b 0x20 8) || ((b.drop 0x28).take 984).any (· != 0) ||
    (nbits h 10 1 == 1 && (nrange 0 (4096 * n)).any fun i => saveNat b (0x8000 + 0x60000 * n + 16 * i + 12) 4 != 0)

/-- Whether EG g of the 4,096·n bytes at an offset is poisoned when loaded: its bit of the map is set, or its bytes read
badly. -/
def restoredPois (b : List Byte) (bad : List Bool) (bit off g : Nat) : Bool :=
  (nbits (saveNat b (0x7C00 + bit / 8) 1) (bit % 8) 1 == 1) || ((nrange (off / 64 + 4 * g) 4).any fun l => bad.getD l false)

/-- The vector state that a save area holds (R359, R360). (DEDUCED, log entry 30.) -/
def restoreVec (n : Nat) (b : List Byte) (bad : List Bool) (sn : Word) : VecState :=
  let regOff (k : Nat) := 0x8000 + 4096 * n * k
  let ringOff (i : Nat) := 0x8000 + 0x40000 * n + 4096 * n * i
  let ew := 8 * 2 ^ nbits (saveNat b 0 8) 11 2
  let rec' (i : Nat) := 0x8000 + 0x60000 * n + 16 * i
  { v := ((nrange 0 64).map fun k => (k, saveNat b (regOff k) (4096 * n))).filter (·.2 != 0)
    pois := (nrange 0 64).flatMap fun k =>
      ((nrange 0 (16 * n)).filter fun g => restoredPois b bad (16 * n * k + g) (regOff k) g).map (egKey k)
    m := ((nrange 1 15).map fun k => (k, saveNat b (0x400 + 2048 * (k - 1)) 2048)).filter (·.2 != 0)
    rings := ((nrange 0 8).map fun q => (q, (nrange 0 (saveNat b (0x10 + q) 1)).map fun i =>
      (⟨saveNat b (ringOff (4 * q + i)) (4096 * n),
        (nrange 0 (16 * n)).filter fun g => restoredPois b bad (1024 * n + 16 * n * (4 * q + i) + g) (ringOff (4 * q + i)) g,
        false⟩ : RingEnt))).filter (!·.2.isEmpty)
    cfg := BitVec.ofNat 64 (saveNat b 8 8)
    vp := if nbits (saveNat b 0 8) 10 1 = 1 then
        some { ew := ew, total := saveNat b 0x18 8,
               vps := (nrange 0 (4096 * n)).filterMap fun i =>
                 let w := saveNat b (rec' i) 8
                 let sr := saveNat b (rec' i + 8) 4
                 if w = 0 ∧ sr = 0 then none else some (i, ⟨BitVec.ofNat 64 (w - w % 2), w % 2 == 1, sr⟩)
               held := 0, hix := [], blocks := [], cohort := none, sn := sn, lastVp := 2 ^ 15 }
      else none }

/-- Whether any EG of a vector state is poisoned. -/
def VecState.anyPois (v : VecState) : Bool := !v.pois.isEmpty || v.rings.any fun q => q.2.any fun e => !e.pois.isEmpty

/-- VRSTOR (R360). The SN of a VFETCH that goes on is the one that the triad's context area holds (R50, R351). (DEDUCED, log entry 30.) -/
def execVrstor (f : FmtE) (s : State) : Answer :=
  .next (if !s.th.priv then s.trapPriv
    else if f.fn = 1#24 then (s.own VecState.start).done f.xd (BitVec.ofNat 64 stDone)
    else
      let n := s.bound s.tr.core
      match loadPlan s (s.x f.xa) (saveLen n) with
      | .stop s => s
      | .ok none s => s.done f.xd (BitVec.ofNat 64 stDenied)
      | .ok (some ps) s =>
        let b := (ps.map (pieceRead s s.cur)).flatten
        let bad := badLines s ps
        let vpLines := if nbits (saveNat b 0 8) 10 1 = 1 then nrange ((0x8000 + 0x60000 * n) / 64) (0x400 * n) else []
        if badSave n b then s.done f.xd (BitVec.ofNat 64 stRange)
        else if (nrange 0 512 ++ vpLines).any fun l => bad.getD l false then s.done f.xd (BitVec.ofNat 64 stPoisoned)
        else
          let v := restoreVec n b bad (BitVec.ofNat 64 (physNat s (areaOf s.tr.traprec + 0x48) 8 0))
          (s.own v).done f.xd (BitVec.ofNat 64 (if v.anyPois then stPoisoned else stDone)))

end Sys2Proof.Machine
end

