-- ==== Sys2Proof/Machine/Queues.lean ====
section
/-! DEFINITION. Submission queues, task records, admission, placement, the start and the retirement of triads, the
watchdog, and TSUBMIT, TSIGNAL and TSTAT (R321 to R342). -/

namespace Sys2Proof.Machine

/-! The ring of a queue (R321, R323). -/

def Queue.size (k : Queue) : Nat := 2 ^ k.log2sz

/-- Bytes between Q_HEAD and Q_TAIL (R323). -/
def Queue.avail (k : Queue) : Nat := (k.tail + k.size - k.head % k.size) % k.size

/-- Whether a ring [base, base + n) lies wholly in local HBM4E, or wholly in host memory behind one port in host mode (R323). -/
def ringPlaced (s : State) (base n : Nat) : Bool :=
  (inHbm base && inHbm (base + n - 1)) ||
    (match portOf base, portOf (base + n - 1) with
     | some p, some r => p == r && !(s.io.port p).expander
     | _, _ => false)

/-- The bytes of a ring from an offset; a record may wrap (R323). -/
def ringBytes (s : State) (k : Queue) (off n : Nat) : List Byte :=
  let o := off % k.size
  let m := min n (k.size - o)
  physRead s (k.base.toNat + o) m 0 ++ physRead s k.base.toNat (n - m) 0

/-- Whether bytes of a ring read clean (R323, cause 4). -/
def ringClean (s : State) (k : Queue) (off n : Nat) : Bool :=
  let o := off % k.size
  let m := min n (k.size - o)
  physQuality s (k.base.toNat + o) m == .clean && physQuality s k.base.toNat (n - m) == .clean

/-- Stores bytes in a ring from an offset; those of a sealed mesh extent are not written (R296). -/
def ringWrite (s : State) (k : Queue) (off : Nat) (bs : List Byte) : State :=
  let o := off % k.size
  let m := min bs.length (k.size - o)
  let s := storeOwn s (k.base.toNat + o) (bs.take m) 0
  if m < bs.length then storeOwn s k.base.toNat (bs.drop m) 0 else s

/-- The whole records between two offsets of a ring (R340, R342). -/
def recCount (s : State) (k : Queue) : Nat → Nat → Nat → Nat
  | 0, _, _ => 0
  | fuel + 1, off, left =>
    let len := 8 * nbits (bytesNat (ringBytes s k off 8)) 16 8
    if left < 8 || len = 0 || left < len then 0 else recCount s k fuel (off + len) (left - len) + 1

def Queue.pending (s : State) (k : Queue) : Nat := recCount s k (k.avail / 8 + 1) k.head k.avail

/-! Task records (R324 to R327). -/

/-- The words that the field of an FMASK bit takes, by its first word (R325). -/
def recFieldLen (b : Nat) (w : Word) : Nat :=
  match b with
  | 0 => 3
  | 7 => 1 + 4 * ((nrange 0 32).filter fun i => w.getLsbD i).length
  | _ => if b < 7 then 1 else 2

/-- The fields of a record by FMASK bit, and the words that the mask implies after the header (R324). -/
def splitRec : List Nat → List Word → Tbl (List Word) × Nat
  | [], _ => ([], 0)
  | b :: bs, ws =>
    let n := recFieldLen b (ws.headD 0)
    let r := splitRec bs (ws.drop n)
    ((b, ws.take n) :: r.1, n + r.2)

def fmaskBits (h : Nat) : List Nat := (nrange 0 16).filter fun b => nbits h b 1 == 1

/-- The words of little-endian bytes. -/
def recWords (bs : List Byte) : List Word := (lchunks 8 (bs.length + 1) bs).map fun b => BitVec.ofNat 64 (bytesNat b)

/-- The descriptors after a STREAMS field: one for each set bit of SMASK; all zeros unbinds (R325, R326). -/
def takeStreams (mask : Nat) : List Nat → List Word → Tbl Desc → Tbl Desc
  | [], _, t => t
  | h :: hs, ws, t =>
    if nbits mask h 1 = 1 then
      let d : Desc := ⟨ws.getD 0 0, ws.getD 1 0, ws.getD 2 0, ws.getD 3 0⟩
      takeStreams mask hs (ws.drop 4) (if d = ⟨0, 0, 0, 0⟩ then tdel h t else tset h d t)
    else takeStreams mask hs ws t

/-- The effective values: a field that the record lacks keeps its inherited value (R327). -/
def effRec (inh : Rec) (fs : Tbl (List Word)) : Rec :=
  let one (b : Nat) (d : Word) : Word := match tfind b fs with
    | some ws => ws.headD 0
    | none => d
  { prog := (tfind 0 fs).getD inh.prog
    shape := one 1 inh.shape
    sheet := one 2 inh.sheet
    seed := one 3 inh.seed
    ptbase := one 4 inh.ptbase
    ctx := one 5 inh.ctx
    cw := one 6 inh.cw
    streams := match tfind 7 fs with
      | some ws => takeStreams (ws.headD 0).toNat (nrange 0 32) (ws.drop 1) inh.streams
      | none => inh.streams
    wins := (nrange 0 8).foldl (fun t n => match tfind (8 + n) fs with
      | some ws => tset n ⟨ws.headD 0, nbits (ws.getD 1 0).toNat 0 32⟩ t
      | none => t) inh.wins }

def Desc.gstride (d : Desc) : Nat := nbits d.w2.toNat 0 32
def Desc.rlen (d : Desc) : Nat := nbits d.w2.toNat 32 32
def Desc.roff (d : Desc) : Nat := nbits d.w3.toNat 0 32

/-- A descriptor that breaks a limit of R326. -/
def badDesc (slen : Nat) (d : Desc) : Bool :=
  nbits d.w3.toNat 34 30 != 0 || d.roff % 64 != 0 || decide (slen * 65536 < d.roff + d.rlen)

/-- Whether the effective values break a limit of R325 or R326 or set a reserved bit, or ask for a privilege that the queue
does not give (R328, row 2); a window base is a multiple of 64 (R233). (DEDUCED, log entry 90.) -/
def badRec (privok : Bool) (fs : Tbl (List Word)) (r : Rec) : Bool :=
  r.prog.any (fun p => p.toNat % 128 != 0) ||
    decide (65535 < r.gangs) || r.k == 0 || decide (112 < r.k) || nbits r.shape.toNat 24 2 == 3 || nbits r.shape.toNat 26 38 != 0 ||
    decide (64 < r.slen) || decide (64 < r.soff + r.slen) || nbits r.sheet.toNat 13 51 != 0 ||
    nbits r.ptbase.toNat 0 8 != 0 || (r.priv && !privok) || nbits r.ctx.toNat 20 44 != 0 || r.cw.toNat % 8 != 0 ||
    (match tfind 7 fs with
     | some ws => nbits (ws.headD 0).toNat 32 32 != 0
     | none => false) ||
    ((nrange 8 8).any fun b => match tfind b fs with
      | some ws => nbits (ws.getD 1 0).toNat 32 32 != 0
      | none => false) ||
    r.wins.any (fun w => w.2.base.toNat % 64 != 0) || r.streams.any fun d => badDesc r.slen d.2

/-- The slabs that placement may use: 112, or the 28 of die 0 in reduced service (R328, R395). -/
def slabPool (s : State) : Nat := if s.io.stage = 2 then 28 else 112

/-- The cores of a gang (R101). -/
def Rec.ncores (r : Rec) : Nat := (r.k + 3) / 4

/-! Taking records (R328 to R330). -/

/-- A queue faults with a cause (R323). -/
def queueFault (s : State) (q cause : Nat) : State :=
  s.modQueue q fun k => { k with state := 2, deficit := 0, fault := BitVec.ofNat 64 (k.head * 2 ^ 32 + cause) }

/-- Q_HEAD passes a record, which receives Q_SEQ (R330). -/
def Queue.pass (k : Queue) (len : Nat) : Queue :=
  { k with head := (k.head + len) % k.size, seq := (k.seq + 1) % 2 ^ 32, taken := true, ready := none }

/-- Whether a queue waits for its previous invocation (R329, R330). -/
def serialHeld (s : State) (k : Queue) : Bool := k.serial && k.last.any fun e => (tfind e s.entries).isSome

/-- Whether a queue takes records. -/
def Queue.runs (k : Queue) : Bool := k.en && k.state == 1

/-- The device reads the record at Q_HEAD and checks it (R328). (DEDUCED, log entry 54.) -/
def takeRecord (s : State) (q : Nat) : State :=
  let k := s.queue q
  if !k.runs || k.ready.isSome then s
  else if k.tail % 8 ≠ 0 then queueFault s q 1
  else if k.avail < 8 then s
  else if !ringClean s k k.head 8 then queueFault s q 4
  else
    let h := bytesNat (ringBytes s k k.head 8)
    let len := nbits h 16 8
    if nbits h 24 40 ≠ 0 then queueFault s q 1
    else if len = 0 then queueFault s q 2
    else if k.avail < 8 * len then s
    else if !ringClean s k k.head (8 * len) then queueFault s q 4
    else
      let fs := splitRec (fmaskBits h) ((recWords (ringBytes s k k.head (8 * len))).drop 1)
      if fs.2 + 1 ≠ len then queueFault s q 2
      else if !k.taken && h % 65536 != 0xFFFF then queueFault s q 3
      else
        let r := effRec k.inh fs.1
        if badRec k.privok fs.1 r || (r.gangs != 0 && decide (slabPool s < r.ncores * r.slabs)) then
          if cwRoom s r then (writeCw s q r (statusWord false 0 stRange)).modQueue q fun k => k.pass (8 * len) else s
        else s.modQueue q fun k => { k with ready := some (r, 8 * len) }

/-- RECORD_TAKE (R328). -/
def execRecordTake (s : State) : Answer := .next (takeRecord s s.occ.n)

/-- A record with GANGS = 0 completes, which is progress of its queue (R329, R337). -/
def zeroGang (s : State) (q : Nat) : State :=
  let k := s.queue q
  match k.ready with
  | some (r, len) =>
    if r.gangs = 0 ∧ k.runs ∧ !serialHeld s k ∧ cwRoom s r then
      progress ((writeCw s q r (statusWord false 0 stDone)).modQueue q fun k => { k.pass len with inh := r, last := none }) q
    else s
  | none => s

/-- ZERO_GANG_COMPLETE (R329). -/
def execZeroGangComplete (s : State) : Answer := .next (zeroGang s s.occ.n)

/-! Admission (R330). -/

/-- Whether the device serves invocations: reduced or full service, in D0 (R394, R397). -/
def serving (s : State) : Bool := (s.io.stage == 2 || s.io.stage == 3) && s.io.power == 0

/-- The cost and the record of a queue that has a ready one (R330). -/
def readyCost (s : State) (q : Nat) : Option Nat :=
  let k := s.queue q
  match k.ready with
  | some (r, _) =>
    if r.gangs ≠ 0 ∧ k.runs ∧ s.entries.length < 64 ∧ !serialHeld s k then some (r.gangs * r.k) else none
  | none => none

/-- Takes an entry for the ready record of a queue (R330). -/
def admitOne (s : State) (q : Nat) : State :=
  let k := s.queue q
  match k.ready with
  | none => s
  | some (r, len) =>
    let e : Entry := { rcd := r, queue := q, cls := k.cls, order := s.serial, placed := 0, retired := 0, killedGangs := 0,
                       dropped := false, fills := [] }
    let s := writeCw { s with entries := tset s.serial e s.entries, serial := s.serial + 1 } q r (statusWord true 0 0)
    s.modQueue q fun k => { k.pass len with inh := r, deficit := k.deficit - r.gangs * r.k, last := some e.order }

/-- A queue without a ready record has its deficit set to 0 (R330). -/
def settleDeficits (s : State) : State :=
  { s with queues := s.queues.map fun p => if (readyCost s p.1).isNone then (p.1, { p.2 with deficit := 0 }) else p }

/-- The records at the head of a queue that do not wait for admission pass. -/
def settleHead : Nat → State → Nat → State
  | 0, s, _ => s
  | fuel + 1, s, q =>
    let t := zeroGang (takeRecord s q) q
    if (t.queue q).seq = (s.queue q).seq then t else settleHead fuel t q

/-- A visit of a queue: records are admitted while the deficit covers their cost (R330). -/
def visit : Nat → State → Nat → State
  | 0, s, _ => s
  | fuel + 1, s, q =>
    match readyCost s q with
    | some c =>
      if c ≤ (s.queue q).deficit then
        let t := admitOne s q
        visit fuel (settleHead ((t.queue q).avail / 8 + 1) t q) q
      else s
    | none => s.modQueue q fun k => { k with deficit := 0 }

/-- The quantum of a queue; 0 acts as 1 (R322). -/
def Queue.quantum (k : Queue) : Nat := max 1 k.quant

def Queue.addDeficit (k : Queue) (n : Nat) : Queue := { k with deficit := min (k.deficit + n) (2 ^ 32 - 1) }

/-- Visits queues of a class in order until one admits (R330). -/
def visits (cls : Nat) : List Nat → State → State × Bool
  | [], s => (s, false)
  | q :: qs, s =>
    if (s.queue q).cls ≠ cls then visits cls qs s
    else match readyCost s q with
      | none => visits cls qs (s.modQueue q fun k => { k with deficit := 0 })
      | some c =>
        let s := s.modQueue q fun k => k.addDeficit k.quantum
        if c ≤ (s.queue q).deficit then ({ visit 64 s q with lastQueue := tset cls q s.lastQueue }, true)
        else visits cls qs s

/-- Whether the completion word of a queue's ready record finds room (R375). -/
def headRoom (s : State) (q : Nat) : Bool :=
  match (s.queue q).ready with
  | some (r, _) => cwRoom s r
  | none => true

/-- ADMISSION (R330). Rounds of visits that admit nothing are passed over at once. -/
def execAdmission (s : State) : Answer :=
  let ready := (nrange 0 128).filter fun q => (readyCost s q).isSome
  .next (if ready.isEmpty || s.io.admitPaused || !serving s || !ready.all (headRoom s) then s
    else
      let cls := ready.foldl (fun m q => max m (s.queue q).cls) 0
      let last := tget 127 cls s.lastQueue
      let order := nrange (last + 1) (127 - last) ++ nrange 0 (last + 1)
      let r := visits cls order s
      if r.2 then settleDeficits r.1
      else
        let s := r.1
        let mine := ready.filter fun q => (s.queue q).cls == cls
        let need (q : Nat) : Nat :=
          let k := s.queue q
          ((readyCost s q).getD 0 - k.deficit + k.quantum - 1) / k.quantum
        let n := (lmin? (mine.map need)).getD 1 - 1
        settleDeficits (visits cls order (mine.foldl (fun s q => s.modQueue q fun k => k.addDeficit (n * k.quantum)) s)).1)

/-! Placement (R24, R101, R171 to R173, R331). -/

/-- The first entry, by class and admission, with a gang not yet placed (R331). -/
def senior (s : State) : Option (Nat × Entry) :=
  (lsort (fun (a b : Nat × Entry) => decide (b.2.cls < a.2.cls ∨ (a.2.cls = b.2.cls ∧ a.2.order ≤ b.2.order)))
    (s.entries.filter fun e => decide (e.2.placed < e.2.rcd.gangs) && !e.2.dropped)).head?

/-- Whether a slot of a core is free for placement: no gang that is not pre-empted holds it (R85, R365). -/
def slotFree (s : State) (core slot : Nat) : Bool :=
  !(s.gangs.any fun g => !g.2.preempted && g.2.slots.contains (core, slot))

/-- The cores of a quad, by working position (R21). -/
def quadCores (die wq : Nat) : List Nat := (nrange 0 4).map fun p => 28 * die + 4 * wq + p

/-- Whether a quad may be rebound: no gang holds a slot on it and nobody owns vector state on its slabs (R24, R365). -/
def quadIdle (s : State) (die wq : Nat) : Bool :=
  let cores := quadCores die wq
  !(s.gangs.any fun g => g.2.slots.any fun x => cores.contains x.1) &&
    cores.all fun c => (nrange 0 4).all fun j => (s.slot (slotKey c j)).owner.isNone

/-- A quad in a binding mode (R21, R24); its cores' arbiters begin anew (R92). -/
def rebind (s : State) (die wq mode : Nat) : State :=
  (quadCores die wq).foldl (fun s c => s.modCore c fun k => { k with lastSlot := 3 })
    { s with modes := tset (7 * die + wq) mode s.modes }

/-- The mode that gives every core of a quad a number of slabs (R21). -/
def modeFor (slabs : Nat) : Nat := if slabs = 4 then 4 else if slabs = 2 then 3 else 0

/-- The number of a unit in `units` (R169, R173). -/
def unitKey (slab unit : Nat) : Nat := 64 * slab + unit

/-- Whether units [soff, soff + slen) of a slab are free (R172). -/
def unitsFree (s : State) (slab soff slen : Nat) : Bool :=
  (nrange soff slen).all fun u => match tfind (unitKey slab u) s.units with
    | some v => v.gang.isNone
    | none => true

/-- A core that could take triads of a gang: its free slots, and its quad when that must be rebound first. -/
structure Cand where
  core : Nat
  slots : List Nat
  quad : Option (Nat × Nat)
  deriving DecidableEq, Repr

/-- The cores of a die that could take triads of a gang on a number of slabs (R24, R101, R172). -/
def candidates (s : State) (slabs soff slen die : Nat) : List Cand :=
  (nrange 0 7).flatMap fun wq =>
    let lead (mode p : Nat) : Option (List Nat) :=
      let l := slabPlaces mode p
      if l.length = slabs ∧ l.all (fun j => unitsFree s (28 * die + 4 * wq + j) soff slen) then some l else none
    let m := tget 0 (7 * die + wq) s.modes
    let fresh := decide (m ≠ modeFor slabs) && quadIdle s die wq
    (nrange 0 4).filterMap fun p =>
      let core := 28 * die + 4 * wq + p
      if fresh then (lead (modeFor slabs) p).map fun _ => ⟨core, [0, 1, 2, 3], some (die, wq)⟩
      else (lead m p).map fun _ => ⟨core, (nrange 0 4).filter (slotFree s core), none⟩

/-- Cores for a gang from candidates: all but the last take four triads (R101). -/
def chooseCores (n last : Nat) (cs : List Cand) : Option (List Cand) :=
  let full (c : Cand) : List Cand := cs.filter fun d => d.core != c.core && d.slots.length == 4
  (cs.find? fun c => decide (last ≤ c.slots.length) && decide (n - 1 ≤ (full c).length)).map fun c =>
    (full c).take (n - 1) ++ [c]

/-- The cores for the next gang of an entry: on one die when a die can provide them, else on the fewest (R101); on die 0 in
reduced service (R395). (DESIGN CHOICE, log entry 56.) -/
def findPlace (s : State) (r : Rec) : Option (List Cand) :=
  let dies := if s.io.stage = 2 then [0] else [0, 1, 2, 3]
  let count (m : Nat) : Nat := (dies.filter fun d => nbits m d 1 == 1).length
  let sets := (nrange 1 15).filter fun m => (nrange 0 4).all fun d => nbits m d 1 == 0 || dies.contains d
  let sets := lsort (fun a b => decide (count a ≤ count b)) (preferred s 0 id sets)
  let offers := dies.map fun d => (d, candidates s r.slabs r.soff r.slen d)
  sets.findSome? fun m =>
    let cs := offers.flatMap fun o => if nbits m o.1 1 = 1 then o.2 else []
    chooseCores r.ncores (r.k - 4 * (r.ncores - 1)) (preferred s 16 (·.core) cs)

/-- Zeroes n bytes of memory at an address. -/
def memZero (m : Mem) (a n : Nat) : Mem :=
  { m with
    cells := m.cells.filter fun c => decide (c.1 < a) || decide (a + n ≤ c.1)
    pois := sdelAll (m.pois.filter fun l => decide (a ≤ 64 * l) && decide (64 * l < a + n)) m.pois
    ue := sdelAll (m.ue.filter fun l => decide (a ≤ 64 * l) && decide (64 * l < a + n)) m.ue }

/-- Where a slab's sheet starts in the model's memory (R169). -/
def sheetBase (slab : Nat) : Nat := atlasBase + slab / 28 * 2 ^ 27 + slab % 28 * 2 ^ 22

/-- Zeroes every sheet of a die before its first allotment after reset (R173). -/
def zeroDie (s : State) (die : Nat) : State :=
  if smem die s.zeroed then s
  else { s with zeroed := sadd die s.zeroed, mem := memZero s.mem (atlasBase + die * 2 ^ 27) (28 * 2 ^ 22) }

/-- Allots a range of a slab to a gang; units that were released are zeroed (R173). (DEDUCED, log entry 57.) -/
def allotUnits (s : State) (gang tag slab soff slen : Nat) : State :=
  let s := zeroDie s (slab / 28)
  (nrange soff slen).foldl (fun s u =>
    let s := if (tfind (unitKey slab u) s.units).isSome then { s with mem := memZero s.mem (sheetBase slab + 65536 * u) 65536 } else s
    { s with units := tset (unitKey slab u) ⟨some gang, tag⟩ s.units }) s

/-- The context number of no triad: fills run before their gang has triads. -/
def noCtxn : Nat := 4096

/-- Copies bytes of a stream to the home slab, line by line of the source (R332). -/
def fillGo (dst : Nat) : Nat → Eng → Word → Nat → Nat → Nat → Eng
  | 0, e, _, _, _, _ => e
  | fuel + 1, e, a, i, n, line =>
    if n ≤ i || !e.going then e
    else
      let a' := a + BitVec.ofNat 64 i
      let m := min (n - i) (64 - a'.toNat % 64)
      let r := if isVirt a' then e.readPiece a' m line else (⟨[], false, true⟩, { e with fault := some (5, a') })
      let e := r.2
      let e := if r.1.denied || !e.going then e
        else
          let s := physWrite e.s (dst + i) r.1.bytes 0
          { e with s := if r.1.pois then physPoison s (dst + i) m 0 else s }
      fillGo dst fuel e a (i + m) n (line + 1)

/-- The fill of one handle for gang g: bytes at or beyond LEN stay zero; a translation fault ends it PARTIAL (R332). -/
def fillOne (g home soff : Nat) (e : Eng) (d : Desc) : Eng :=
  let skip := g * d.gstride
  let n := min d.rlen (d.w1.toNat - skip)
  let dst := sheetBase home + 65536 * soff + d.roff
  let f := fillGo dst (n / 64 + 2) { e with fault := none, halt := false, seen := [] } (d.w0 + BitVec.ofNat 64 skip) 0 n 0
  if f.fault.isSome then f.meet stPartial else f

/-- The fills of a gang; `short` says that data of another chip is missing (R332). (DEDUCED, log entry 57.) -/
def fillGang (s : State) (r : Rec) (g core : Nat) : Eng :=
  let home := (s.slabs core).headD 0
  let e : Eng := { s := s, core := core, tid := ⟨noCtxn, .loader⟩, cred := r.cred, order := s.serial, env := s.occ.env.data,
                   envPois := s.occ.env.poisoned, met := [], seen := [] }
  (r.streams.filter fun d => d.2.rlen != 0).foldl (fun (e : Eng) d => if e.short then e else fillOne g home r.soff e d.2) e

/-- Context numbers that started, parked or placed triads take (R347). -/
def ctxnsTaken (s : State) : Nat :=
  s.triads.length + ((s.gangs.filter fun g => !g.2.started).map fun g => g.2.k).sum

/-- The slots of a gang by TRIADID: triads 4c to 4c + 3 on core c (R101). (DESIGN CHOICE, log entry 56.) -/
def gangSlots (s : State) (k : Nat) (cs : List Cand) : List (Nat × Nat) :=
  (nrange 0 k).map fun i => match cs[i / 4]? with
    | some c => (c.core, (preferred s (160 + 4 * c.core) id c.slots).getD (i % 4) 0)
    | none => (0, 0)

/-- How many free values a placement may draw. (DESIGN CHOICE, log entry 56.) -/
def placeDraws : Nat := 160 + 4 * 112

/-- Whether a pre-empted gang can go on, which comes before any placement (R365). -/
def resumable (s : State) : Bool := s.gangs.any fun g => g.2.preempted && slotsFree s g.1 g.2

/-- GANG_PLACEMENT: the senior's next gang gets its cores, slots and sheet ranges, or nothing, and its streams are filled
(R331, R332). Quads that it needs rebound are rebound (R24). (DEDUCED, log entry 57.) -/
def execGangPlacement (s : State) : Answer :=
  .next (match senior s with
    | none => s
    | some (key, e) =>
      if resumable s || decide (4096 < ctxnsTaken s + e.rcd.k) || !serving s then s
      else match findPlace s e.rcd with
        | none => s
        | some cs =>
          let g := s.serial
          let r := e.rcd
          let s1 := cs.foldl (fun s c => match c.quad with
            | some (d, q) => rebind s d q (modeFor r.slabs)
            | none => s) s
          let s1 := cs.foldl (fun s c => (s.slabs c.core).foldl (fun s w => allotUnits s g r.tag w r.soff r.slen) s) s1
          let v : Gang := { entry := key, gangId := e.placed, tag := r.tag, cores := cs.map (·.core), slots := gangSlots s r.k cs,
                            soff := r.soff, slen := r.slen, k := r.k, ctxns := [], retired := 0, started := false,
                            preempted := false }
          let s1 := { s1 with gangs := tset g v s1.gangs, serial := s.serial + 1, fresh := s.fresh + placeDraws }
          let f := fillGang s1 r e.placed (v.cores.headD 0)
          if f.short then s
          else
            let e := { e with placed := e.placed + 1, fills := f.met ++ e.fills }
            progress { f.s with entries := tset key e f.s.entries } e.queue)

/-- QUAD_REBIND: placement rebinds an idle quad for a gang that waits (R24). (DEDUCED, log entry 57.) -/
def execQuadRebind (s : State) : Answer :=
  let die := s.occ.n
  let wq := s.occ.k
  let mode := s.occ.j
  .next (match senior s with
    | some (_, e) =>
      if die < 4 ∧ wq < 7 ∧ mode ≤ 4 ∧ quadIdle s die wq ∧
          (nrange 0 4).any (fun p => (slabPlaces mode p).length == e.rcd.slabs) then rebind s die wq mode
      else s
    | none => s)

/-! Start and retirement (R84, R85, R333, R334). -/

/-- A context number that no started or parked triad holds; which one is open (R347). (DESIGN CHOICE, log entry 56.) -/
def newCtxn (s : State) : Nat :=
  let r := (Config.freeValue s.fresh).toNat % 4096
  ((nrange 0 4096).map fun i => (r + i) % 4096).find? (fun c => (tfind c s.triads).isNone) |>.getD 0

/-- SY_TRAPREC at start (R347). -/
def startTraprec (s : State) (ctxn : Nat) : Word :=
  BitVec.ofNat 64 ((if s.io.poolSet then 2 ^ 63 else 0) + s.io.pool.toNat + 4096 * ctxn)

/-- A triad at its start (R84, R333). -/
def newTriad (s : State) (r : Rec) (queue gang gangId i ctxn : Nat) (at_ : Nat × Nat) : Triad :=
  let role (n : Nat) : RoleState := RoleState.start (r.prog.getD n 0) r.priv
  { Triad.none with
    core := at_.1, slot := at_.2, gang := gang, queue := queue, gangId := gangId, gangs := r.gangs, triadId := i,
    loader := role 0, computer := role 1, storer := role 2, seed := r.seed, ptbase := r.ptbase, tag := r.tag,
    ptkey := r.ptkey, traprec := startTraprec s ctxn, wins := r.wins.filter fun w => w.2.size != 0, streams := r.streams }

/-- Starts one triad, which becomes the owner of its slot's vector state when there is none (R333, R358). -/
def startTriad (s : State) (r : Rec) (queue gang : Nat) (v : Gang) (i : Nat) : State :=
  let c := newCtxn s
  let at_ := v.slots.getD i (0, 0)
  let t := newTriad s r queue gang v.gangId i c at_
  let s := { s with triads := tset c t s.triads, fresh := s.fresh + 1 }
  let s := s.modSlot t.slotKey fun k => if k.owner.isNone then ⟨some c, VecState.start⟩ else k
  { s with gangs := s.gangs.map fun p => if p.1 = gang then (p.1, { p.2 with ctxns := p.2.ctxns ++ [c] }) else p }

/-- TRIAD_START: every triad of a placed gang starts (R333). (DEDUCED, log entry 57.) -/
def execTriadStart (s : State) : Answer :=
  .next (match tfind s.occ.n s.gangs with
    | none => s
    | some v => match tfind v.entry s.entries with
      | none => s
      | some e =>
        if v.started then s
        else
          let s := { s with gangs := tset s.occ.n { v with started := true } s.gangs }
          (nrange 0 v.k).foldl (fun s i => startTriad s e.rcd e.queue s.occ.n v i) s)

/-- Whether every command and every remote store that a triad's roles issued has completed (R85, R126). -/
def commandsDone (s : State) (ctxn : Nat) : Bool :=
  !(roles.any fun r => unacked s ⟨ctxn, r⟩) && (s.triad ctxn).chans.all (fun c => c.2.cmd.isNone) && !(s.bank.any fun b => (b.tid.map (·.ctxn)) == some ctxn) &&
    s.topos.all fun p => (p.2.queue ++ p.2.running).all fun c => c.tid.ctxn != ctxn || c.aborted

/-- Whether a triad has ended and nothing of it is left to happen (R85). -/
def mayRetire (s : State) (ctxn : Nat) : Bool :=
  let t := s.triad ctxn
  !t.parked && t.trapper.isNone && t.handling.isNone &&
    roles.all (fun r => (t.role r).ended && (t.role r).async.isEmpty && (t.role r).stall.isNone) && commandsDone s ctxn

/-- A gang whose last triad has retired gives back its sheet units (R334). -/
def retireGang (s : State) (g : Nat) : State :=
  match tfind g s.gangs with
  | none => s
  | some v =>
    if v.retired ≠ v.k then settleGang s g
    else
      let s := releaseUnits { s with gangs := tdel g s.gangs }
      match tfind v.entry s.entries with
      | none => s
      | some e =>
        let s := { s with entries := tset v.entry { e with retired := e.retired + 1 } s.entries }
        finishInvocation (progress s e.queue) v.entry

/-- The cells of a gang on a core where none of its triads is left (R255). -/
def leaveCore (s : State) (g core : Nat) : State :=
  match tfind g s.gangs with
  | some v => if v.slots.any (·.1 == core) then s else releaseCells s core g
  | none => s

/-- TRIAD_RETIRE (R85, R197, R255, R334, R358). -/
def execTriadRetire (s : State) : Answer :=
  let c := s.occ.n
  .next (match tfind c s.triads with
    | none => s
    | some t =>
      if !mayRetire s c then s
      else
        let s := dropTriad s c
        let s := { s with gangs := s.gangs.map fun p =>
          if p.1 = t.gang then
            (p.1, { p.2 with retired := p.2.retired + 1, ctxns := p.2.ctxns.filter (· != c),
                             slots := p.2.slots.filter (· != (t.core, t.slot)) })
          else p }
        wdogSettle (retireGang (leaveCore s t.gang t.core) t.gang) t.queue)

/-! The watchdog (R336 to R338). -/

/-- Whether a queue has a resident gang (R337). (DEDUCED, log entry 57.) -/
def queueResident (s : State) (q : Nat) : Bool :=
  s.gangs.any fun g => !g.2.preempted && (match tfind g.2.entry s.entries with
    | some e => e.queue == q
    | none => false)

/-- The queue's gangs are killed, its invocations end KILLED, and it faults
with a cause that the spec does not state (R338). (DESIGN CHOICE, log entry 58.) -/
def killQueue (s : State) (q : Nat) : State :=
  let es := (s.entries.filter fun e => e.2.queue == q).map (·.1)
  let s := { s with entries := s.entries.map fun (e : Nat × Entry) => if e.2.queue = q then (e.1, { e.2 with dropped := true }) else e }
  let gs := (s.gangs.filter fun (g : Nat × Gang) => es.contains g.2.entry).map (·.1)
  let s := gs.foldl killGang s
  let s := es.foldl finishInvocation s
  let (v, s) := s.free
  s.modQueue q fun k => { k with wdStage := 2, wdNs := 0, wdForced := none, state := 2, deficit := 0, fault := v &&& 0xFFFFFFFF000000FF#64 }

/-- Forces the pre-emption of every resident gang of a queue (R338). -/
def forceQueue (s : State) (q : Nat) : State :=
  let s := { s with triads := s.triads.map fun (t : Nat × Triad) => if t.2.queue = q ∧ !t.2.parked then (t.1, { t.2 with wdog := true }) else t }
  wdogSettle (s.modQueue q fun k => { k with wdForced := some 0 }) q

/-- WATCHDOG_LIMIT_EXPIRY (R337, R338). -/
def execWatchdogLimitExpiry (s : State) : Answer :=
  let q := s.occ.n
  let k := s.queue q
  .next (if !k.wdEn || !queueResident s q || decide (k.wdNs < 1000 * k.wdLimit) || k.wdForced.isSome then s
    else if k.wdStage = 1 then killQueue s q
    else if k.wdStage = 0 then forceQueue s q
    else s)

/-- WATCHDOG_GRACE_EXPIRY (R338). -/
def execWatchdogGraceExpiry (s : State) : Answer :=
  let q := s.occ.n
  let k := s.queue q
  .next (match k.wdForced with
    | some n => if k.wdEn && decide (1000 * k.wdGrace ≤ n) && s.triads.any (fun t => t.2.queue == q && t.2.wdog) then killQueue s q else s
    | none => s)

/-! The control block (R321 to R323). -/

/-- The writes of RESET (R323). (DEDUCED, log entry 55.) -/
def Queue.reset (k : Queue) : Queue :=
  { k with
    head := 0, tail := 0, inh := Rec.init, fault := 0, seq := 0, taken := false, ready := none, cwlost := false, deficit := 0,
    state := if k.en then 1 else 0 }

/-- A write of Q_CTL (R322, R323). (DEDUCED, log entry 55.) -/
def writeQctl (s : State) (q : Nat) (v : Word) : State :=
  s.modQueue q fun k =>
    let sz := nbits v.toNat 0 5
    let good := k.base.toNat % 4096 == 0 && decide (12 ≤ sz) && decide (sz ≤ 24) && ringPlaced s k.base.toNat (2 ^ sz)
    let en := v.getLsbD 63 && good
    let k := { k with
      en := en, dom := nbits v.toNat 48 12, devsub := v.getLsbD 47, privok := v.getLsbD 46, serial := v.getLsbD 45,
      cls := nbits v.toNat 40 2, quant := nbits v.toNat 16 24, log2sz := sz }
    let k := if en then k else { k with deficit := 0 }
    if v.getLsbD 60 then k.reset else if k.state = 2 then k else { k with state := if en then 1 else 0 }

/-- Q_CTL as it reads (R322). -/
def Queue.ctl (k : Queue) : Word :=
  BitVec.ofNat 64 ((if k.en then 2 ^ 63 else 0) + k.state * 2 ^ 61 + k.dom * 2 ^ 48 + (if k.devsub then 2 ^ 47 else 0) +
    (if k.privok then 2 ^ 46 else 0) + (if k.serial then 2 ^ 45 else 0) + (if k.cwlost then 2 ^ 44 else 0) + k.cls * 2 ^ 40 +
    k.quant * 2 ^ 16 + k.log2sz)

/-! TSUBMIT (R340). -/

/-- What TSUBMIT writes (R340). -/
def submitWord (seq status : Nat) : Word := BitVec.ofNat 64 (seq * 256 + status)

/-- The loop of R340: the record is copied when it fits, else the role waits or the record is refused. -/
def State.submit (s : State) (f : FmtE) (recd : List Byte) : State :=
  let q := f.unit.toNat
  let k := s.queue q
  if k.size ≤ k.avail + recd.length then
    if f.fn.getLsbD 0 then s.stallOn (.tsubmit f recd) else s.done f.xd (submitWord 0 stRange)
  else
    let n := (k.seq + k.pending s) % 2 ^ 32
    ((ringWrite s k k.tail recd).modQueue q fun k => { k with tail := (k.tail + recd.length) % k.size }).done f.xd
      (submitWord n stDone)

/-- TSUBMIT (R340). Its thread's earlier stores are performed first. (DEDUCED, log entry 12.) -/
def execTsubmit (f : FmtE) (s : State) : Answer :=
  let a := s.x f.xa
  .next (if a.toNat % 8 ≠ 0 then s.trapAlign a 0
    else if unacked s s.cur then s.stallOn (.drain 15)
    else match readRange s a 8 true with
      | .stop s => s
      | .ok (hb, _) s =>
        let len := nbits (bytesNat hb) 16 8
        match readRange s a (max 8 (8 * len)) true with
        | .stop s => s
        | .ok (bs, frames) s =>
          let s := logDenied s kLoad frames
          let h := bytesNat (bs.take 8)
          let k := s.queue f.unit.toNat
          if !k.devsub || k.state != 1 || (!s.th.priv && (s.tr.tag != k.dom || nbits h 4 1 == 1 || nbits h 5 1 == 1)) then
            s.done f.xd (submitWord 0 stDenied)
          else if nbits h 24 40 ≠ 0 ∨ (splitRec (fmaskBits h) ((recWords bs).drop 1)).2 + 1 ≠ len ∨ (!k.taken ∧ h % 65536 ≠ 0xFFFF) then
            s.done f.xd (submitWord 0 stRange)
          else s.submit f bs)

/-- TSUBMIT_SPACE_RELEASE: the current thread's record goes in once there is room (R340). (DEDUCED, log entry 60.) -/
def execTsubmitSpaceRelease (s : State) : Answer :=
  .next (match s.th.stall with
    | some (.tsubmit f bs) => s.submit f bs
    | _ => s)

/-! TSIGNAL (R341). -/

/-- TSIGNAL `progress`. -/
def execTsignalProgress (f : FmtE) (s : State) : Answer :=
  .next ((progress s s.tr.queue).done f.xd (BitVec.ofNat 64 stDone))

/-- TSIGNAL `write`: a FENCE, then a store. -/
def execTsignalWrite (f : FmtE) (s : State) : Answer :=
  let a := s.x f.xa
  .next (if a.toNat % 8 ≠ 0 then s.trapAlign a 0
    else if unacked s s.cur then s.stallOn (.drain 15)
    else
      let st := fenceStatus s s.cur
      match storeBytes s a (wordBytes (s.x f.xb)) 0 with
      | .stop s => s
      | .ok _ t => (if st = stPeerLost then t.orVstat t.cur.ctxn vstatPeer else t).done f.xd (BitVec.ofNat 64 st))

/-- TSIGNAL `add`: a FENCE, then an atomic addition modulo 2^64. -/
def execTsignalAdd (f : FmtE) (s : State) : Answer :=
  let a := s.x f.xa
  let b := s.x f.xb
  .next (if a.toNat % 8 ≠ 0 then s.trapAlign a 0
    else if unacked s s.cur then s.stallOn (.drain 15)
    else
      let st := fenceStatus s s.cur
      let fin (t : State) : State := if st = stPeerLost then t.orVstat t.cur.ctxn vstatPeer else t
      let w := BitVec.ofNat 64 st
      match locate s s.tr.core s.cred a .rmw true with
      | (.fault c, s) => s.trapPage c a 0
      | (.denied fr, s) => (fin (s.denied kStore fr)).done f.xd w
      | (.far pa key, s) =>
        remoteAtomic s 0 7#4 pa key a b 0 f.xd (some st)
      | (.here pa key fr, s) =>
        if markHolds s pa 8 then s.stallOn .watermark
        else if !forwardRoom s pa 8 then s.stallOn (.replay (forwardFlits s pa 8))
        else if inSealed s pa 8 then (fin (s.denied kStore fr)).done f.xd w
        else match physQuality s pa 8 with
          | .poisoned => s.trap cPOISON 0 0 a
          | .uncorrectable => s.trap cUE 0 0 a
          | .clean => (fin (physWrite s pa (natBytes 8 ((physNat s pa 8 key + b.toNat) % 2 ^ 64)) key)).done f.xd w)

/-! TSTAT (R342). -/

/-- TSTAT with SEL 0: the join of an invocation. -/
def execTstatWait (f : FmtE) (s : State) : Answer :=
  .next (if (s.x f.xa).toNat % 8 ≠ 0 then s.trapAlign (s.x f.xa) 0 else s.awaitWord f (.tstat f))

/-- TSTAT_WAIT_RELEASE: the current thread's word is read again. -/
def execTstatWaitRelease (s : State) : Answer :=
  .next (match s.th.stall with
    | some (.tstat f) => s.awaitWord f (.tstat f)
    | _ => s)

/-- TSTAT with SEL 1: the state of a queue. -/
def execTstatQueue (f : FmtE) (s : State) : Answer :=
  let k := s.queue f.unit.toNat
  .next (s.done f.xd (if !s.th.priv && s.tr.tag != k.dom then BitVec.ofInt 64 (-1)
    else BitVec.ofNat 64 (k.state * 2 ^ 62 + k.cls * 2 ^ 60 + k.pending s % 2 ^ 32)))

/-- TSTAT with SEL 2 to 5: a word of a descriptor. -/
def execTstatHandle (f : FmtE) (s : State) : Answer :=
  let d := tget (⟨0, 0, 0, 0⟩ : Desc) (f.unit.toNat % 32) s.tr.streams
  .next (s.done f.xd (match f.fn.toNat % 16 with
    | 2 => d.w0
    | 3 => d.w1
    | 4 => d.w2
    | _ => d.w3))

end Sys2Proof.Machine
end

