-- ==== Sys2Proof/Machine/Fabric.lean ====
section
/-! DEFINITION. The Fintaxus fabric: RAMO, FSTAT, FREPLAY, FDISCARD and SWAPID, and what happens at the fabric port, at a home,
at a replica and on the management ring (R366 to R385). -/

namespace Sys2Proof.Machine

def State.modFab (s : State) (f : Fabric → Fabric) : State := { s with fab := f s.fab }

/-- Whether the fabric port is enabled and up (R367). -/
def portUp (s : State) : Bool := s.fab.idtab.fen && s.fab.idtab.fst == 2

/-- A flit from a port counts as its device being heard (R371, R376). -/
def State.hear (s : State) (port : Nat) : State := s.modFab fun f => { f with heard := tset port s.time f.heard }

/-- A ≤ B of sequence numbers modulo 2^32 (R374). -/
def seqLe (a b : Nat) : Bool := decide ((b + 2 ^ 32 - a % 2 ^ 32) % 2 ^ 32 < 2 ^ 31)

/-- The port that a home of the replay buffer stands at. -/
def homePort (s : State) (key : Nat) : Nat := if key = shadowKey then (shadowPort s).getD noPort else (s.ident key).port

/-- Acts for a thread that is not the current one. -/
def asThread (s : State) (t : Tid) (g : State → State) : State := { g { s with cur := t } with cur := s.cur }

/-- Sends a transaction again, to where its home now is. -/
def resend (s : State) (key : Nat) (t : Txn) : State := putOut s { t with dport := homePort s key }

/-- Whether the transaction of the moment comes in at the port as one of a kind (R370). -/
def State.receives (s : State) (kind : Nat) : Bool := portUp s && (!s.arrival.tagOk || s.arrival.kind == kind)

/-- A transaction of the replay buffer takes the next number of its home and is sent with it (R381, R384). -/
def renumber (s : State) (r : Replay) : State :=
  let w := nextWseq s r.lcn
  let t := { r.txn with wseq := w, dport := homePort s r.lcn }.sealed
  putOut (s.modFab fun f => { f with
    replay := f.replay ++ [{ r with txn := t, abandoned := false }]
    wseq := tset r.lcn ((w + 1) % 2 ^ 32) f.wseq }) t

/-! RAMO (R382). -/

/-- RAMO: a remote address is served by its home, any other as AMO or CAS does. -/
def execRamo (f : FmtA) (s : State) : Answer :=
  let op := f.opv.toNat % 16
  .next (atomicAt s (s.x f.xa + sext16 f.imm16) op f.t (s.x f.xb) (if op = 8 then s.x f.xc else 0) f.xd)

/-! FSTAT, FREPLAY and FDISCARD (R383, R384). -/

/-- An identity-table entry as FSTAT reads it (R366). -/
def Ident.word (e : Ident) : Word :=
  BitVec.ofNat 64 (e.state * 2 ^ 62 + (if e.shv then 2 ^ 61 else 0) + (if e.cur then 2 ^ 60 else 0) + e.shport * 2 ^ 8 + e.port)

/-- Whether a replay-buffer entry is an abandoned write of a triad to an LCN (R377, R378). -/
def Replay.abandonedBy (r : Replay) (ctxn lcn : Nat) : Bool :=
  r.abandoned && r.lcn == lcn && (r.owner.map (·.ctxn)) == some ctxn

/-- Flits of replay-buffer entries; each takes 64 bytes (R375). -/
def flitSum (rs : List Replay) : Nat := (rs.map fun r => flitsOf r.txn).sum

/-- APPLIED and KNOWN of FSTAT SEL 2: by the swap mark of this device at the LCN (R381, R383). -/
def markBits (s : State) (lcn wseq : Nat) : Nat :=
  if smem lcn s.fab.known then
    4 + (match tfind lcn s.fab.marks with
      | some m => if seqLe wseq m then 1 else 0
      | none => 0)
  else 0

/-- The result of FSTAT SEL 2 and 3 for what the home's log gives (R383). -/
def fstatResult (s : State) (sel lcn wseq : Nat) (old : Option Word) : Word :=
  if sel = 3 then old.getD 0 else BitVec.ofNat 64 (markBits s lcn wseq + if old.isSome then 2 else 0)

/-- The logged old value of an atomic (R374). -/
def logged (s : State) (sport wseq : Nat) : Option Word :=
  ((s.fab.rlog.find? fun e => e.sport == sport && e.wseq == wseq).map (·.old))

/-- Sends a result-log read for a thread (R374, R383). -/
def askLog (s : State) (t : Tid) (lcn wseq : Nat) : State :=
  let q := { txnTo s 9 lcn 0 0 0 with wseq := wseq }.sealed
  (putOut s q).modFab fun f => { f with reads := f.reads ++ [⟨lcn, q, t, f.nextNum, 0, none⟩], nextNum := f.nextNum + 1 }

/-- FSTAT (R383). -/
def execFstat (f : FmtE) (s : State) : Answer :=
  let sel := f.fn.toNat % 16
  let lcn := (s.x f.xa).toNat
  let w := (s.x f.xb).toNat % 2 ^ 32
  .next (if 127 < lcn then s.done f.xd (BitVec.ofInt 64 (-1))
    else match sel with
      | 0 => s.done f.xd (s.ident lcn).word
      | 1 =>
        let own := s.fab.replay.filter fun r => r.abandonedBy s.cur.ctxn lcn
        s.done f.xd (BitVec.ofNat 64 (flitSum own * 2 ^ 32 + own.length))
      | 4 => s.done f.xd (BitVec.ofNat 64 (flitSum (s.fab.replay.filter (·.abandoned)) * 2 ^ 32 + replayUsed s))
      | _ =>
        if gone s lcn then s.done f.xd 0
        else if lcn = s.fab.idtab.lcn ∧ !s.fab.idtab.rep then
          s.done f.xd (fstatResult s sel lcn w (logged s s.fab.idtab.port w))
        else (askLog s s.cur lcn w).stallOn (.fstat f))

/-- Renumbers and sends a triad's abandoned writes to an LCN, in their order (R384). -/
def replayAll (s : State) (ctxn lcn : Nat) : State :=
  let mine := s.fab.replay.filter fun r => r.abandonedBy ctxn lcn
  mine.foldl renumber (s.modFab fun f => { f with replay := f.replay.filter fun r => !r.abandonedBy ctxn lcn })

/-- FREPLAY (R384): it waits for the swap mark of an LCN that was taken over, which tells what was performed (R381). -/
def execFreplay (f : FmtE) (s : State) : Answer :=
  let lcn := (s.x f.xa).toNat
  .next (if 127 < lcn then s.done f.xd (BitVec.ofNat 64 stRange)
    else if gone s lcn then s.done f.xd (BitVec.ofNat 64 stPeerLost)
    else if smem lcn s.fab.awaited then s.stallOn (.drain 15)
    else if !ownsAbandoned s s.cur.ctxn lcn then s.done f.xd (BitVec.ofNat 64 stDone)
    else if unacked s s.cur then s.stallOn (.drain 15)
    else
      let s := replayAll s s.cur.ctxn lcn
      s.stallOn (.freplay f ((nextWseq s lcn + 2 ^ 32 - 1) % 2 ^ 32)))

/-- FREPLAY_COMPLETE: the current thread's replayed writes are acknowledged, or their home is lost (R384). -/
def execFreplayComplete (s : State) : Answer :=
  .next (match s.th.stall with
    | some (.freplay f last) =>
      let lcn := (s.x f.xa).toNat
      let fin (st : Nat) : State := takeTrap (s.done f.xd (BitVec.ofNat 64 st)) s.cur.ctxn
      if gone s lcn || ownsAbandoned s s.cur.ctxn lcn then fin stPeerLost
      else if s.fab.replay.any fun r => r.lcn == lcn && (r.owner.map (·.ctxn)) == some s.cur.ctxn && seqLe r.txn.wseq last then s
      else fin stDone
    | _ => s)

/-- FDISCARD (R384). -/
def execFdiscard (f : FmtE) (s : State) : Answer :=
  let lcn := (s.x f.xa).toNat
  .next (if 127 < lcn then s.done f.xd (BitVec.ofNat 64 stRange)
    else (s.modFab fun q => { q with replay := q.replay.filter fun r => !r.abandonedBy s.cur.ctxn lcn }).done f.xd
      (BitVec.ofNat 64 stDone))

/-- REPLAY_ROOM_RELEASE: the current thread's remote write issues once there is room for it (R375). -/
def execReplayRoomRelease (s : State) : Answer :=
  .next (match s.th.stall with
    | some (.replay n) => if replayRoom s n then s.goOn else s
    | _ => s)

/-! SWAPID (R385). -/

/-- Puts a change on the management ring (R385). -/
def sendChange (s : State) (c : Change) : State := s.modFab fun f => { f with ring := f.ring ++ [c] }

/-- SWAPID with an operation. -/
def State.swapid (s : State) (f : FmtE) (op : Nat) (force : Bool) : State :=
  if !s.th.priv then s.trapPriv
  else
    let lcn := (s.x f.xa).toNat
    if 127 < lcn then s.done f.xd (BitVec.ofNat 64 stRange)
    else (sendChange s ⟨op, force, lcn, (s.x f.xb).toNat, some s.cur⟩).stallOn (.swapid f.xd.toNat)

/-- SWAPID BIND (R385). -/
def execSwapidBind (f : FmtE) (s : State) : Answer := .next (s.swapid f 0 false)
/-- SWAPID SHADOW (R385). -/
def execSwapidShadow (f : FmtE) (s : State) : Answer := .next (s.swapid f 1 false)
/-- SWAPID UNSHADOW (R385). -/
def execSwapidUnshadow (f : FmtE) (s : State) : Answer := .next (s.swapid f 2 false)
/-- SWAPID ASSUME (R381, R385). -/
def execSwapidAssume (f : FmtE) (s : State) : Answer := .next (s.swapid f 3 (f.fn.getLsbD 3))
/-- SWAPID UNBIND (R385). -/
def execSwapidUnbind (f : FmtE) (s : State) : Answer := .next (s.swapid f 4 false)

/-! Acknowledgements of a home that is shadowed (R380). -/

/-- A reply to a transaction. -/
def replyTo (s : State) (t : Txn) (kind : Nat) : Txn :=
  { Txn.none with kind := kind, sport := s.fab.idtab.port, dport := t.sport, lcn := t.lcn, wseq := t.wseq, addr := t.addr }

/-- The next sequence number that a home expects of a source port (R374). -/
def expected (s : State) (sport : Nat) : Nat := tget 0 sport s.fab.expect

/-- A cumulative acknowledgement (R374). -/
def sendAck (s : State) (sport wseq : Nat) : State :=
  sendTxn s { Txn.none with kind := 5, sport := s.fab.idtab.port, dport := sport, wseq := wseq }

/-- A nack carries the expected number (R374). -/
def sendNack (s : State) (t : Txn) : State := sendTxn s { replyTo s t 6 with wseq := expected s t.sport }

/-- Whether the replica has yet to acknowledge a forward. (DEDUCED, log entries 63, 77.) -/
def forwardOut (s : State) (w : Nat) : Bool := s.fab.replay.any fun r => r.lcn == shadowKey && seqLe r.txn.wseq w

/-- Sends the acknowledgements that wait for nothing any more, in their order (R380). (DEDUCED, log entry 77.) -/
def releaseAcks (s : State) : State :=
  let go := s.fab.shadowWait.filter fun a => !forwardOut s a.2.2
  go.foldl (fun s a => sendAck s a.1 a.2.1)
    (s.modFab fun f => { f with shadowWait := f.shadowWait.filter fun a => !go.contains a })

/-- Acknowledges a write or atomic that was taken, at once or after its forward (R374, R380). -/
def acknowledge (s : State) (t : Txn) : State :=
  match shadowPort s with
  | none => sendAck s t.sport t.wseq
  | some _ =>
    let last := (nextWseq s shadowKey + 2 ^ 32 - 1) % 2 ^ 32
    releaseAcks (s.modFab fun f => { f with shadowWait := f.shadowWait ++ [(t.sport, t.wseq, last)] })

/-- The replica is no more: its forwards leave the buffer and no acknowledgement waits for it (R380). (DEDUCED, log entry 77.) -/
def dropShadow (s : State) : State :=
  releaseAcks (s.modFab fun f => { f with replay := f.replay.filter (fun r => r.lcn != shadowKey), sweep := none })

/-! Identity changes (R381, R385). -/

/-- Whether a change meets its precondition: a port that it gives is one of the switch ports (R366, R385). -/
def changeOk (e : Ident) (c : Change) (r : RingIn) : Bool :=
  match c.op with
  | 0 => e.state == 0 && decide (c.port < 144) && r.enabled && r.rep
  | 1 => e.state == 1 && !e.shv && decide (c.port < 144) && r.enabled && r.rep && !r.shadowing
  | 2 => e.shv
  | 3 => e.state == 2 && e.shv && (e.cur || c.force)
  | _ => e.state == 2

/-- The entry after a change (R381, R385). (DEDUCED, log entry 78.) -/
def Ident.change (e : Ident) (c : Change) : Ident :=
  match c.op with
  | 0 => { e with port := c.port, state := 1 }
  | 1 => { e with shv := true, shport := c.port }
  | 2 => { e with shv := false, cur := false }
  | 3 => { e with port := e.shport, shport := 0, shv := false, cur := false, state := 1 }
  | _ => { e with state := 0 }

/-- This device's own SY_IDTAB after a change that names its port (R381, R385). (DEDUCED, log entry 78.) -/
def IdTab.change (t : IdTab) (e : Ident) (c : Change) : IdTab :=
  match c.op with
  | 0 => if c.port = t.port then { t with rep := false, lcn := c.lcn } else t
  | 1 => if c.port = t.port then { t with shd := true, cur := false, shlcn := c.lcn } else t
  | 2 => if e.shport = t.port ∧ t.shd then { t with shd := false, cur := false, shlcn := 0 } else t
  | 3 => if e.shport = t.port ∧ t.shd then { t with rep := false, shd := false, cur := false, shlcn := 0, lcn := c.lcn } else t
  | _ => t

/-- What the ring tells of the port that a change names; of this device's own port it knows itself. (DESIGN CHOICE, log entry 66.) -/
def ringOf (s : State) (c : Change) : RingIn :=
  let t := s.fab.idtab
  if t.fen && c.port == t.port then ⟨t.fen, t.rep, t.shd, false⟩ else s.occ.ring

/-- A new home has taken an LCN over: it goes on with its sources after the last write of each that it applied, and publishes that
number for every source port; every other device waits for its own (R381). (DEDUCED, log entry 78.) -/
def Fabric.assumed (f : Fabric) (mine : Bool) (lcn : Nat) : Fabric :=
  if mine then { f with
    expect := f.lseq.map fun p => (p.1, (p.2 + 1) % 2 ^ 32)
    swapMarks := (nrange 0 144).map fun p => (lcn, p, tget (2 ^ 32 - 1) p f.lseq) }
  else { f with awaited := sadd lcn f.awaited }

/-- Applies a change that has gone round the ring, or refuses it: its status and the state after it (R385). -/
def applyChange (s : State) (c : Change) : Nat × State :=
  let e := s.ident c.lcn
  let r := ringOf s c
  if (c.op = 0 ∨ c.op = 1) ∧ c.port < 144 ∧ r.silent then (stPeerLost, s)
  else if !changeOk e c r then (stRange, s)
  else
    let mine := decide (c.op = 2) && (shadowPort s).isSome && c.lcn == s.fab.idtab.lcn
    let s := if mine then dropShadow s else s
    let replica := decide (c.op = 3) && s.fab.idtab.shd && e.shport == s.fab.idtab.port
    let e' := e.change c
    let s := s.modFab fun f => { f with
      idents := tset c.lcn e' f.idents
      idtab := f.idtab.change e c
      heard := if (c.op = 0 ∨ c.op = 3) ∧ e'.port ≠ f.idtab.port then tset e'.port s.time f.heard else f.heard
      disabled := if c.op = 3 then sdel e'.port f.disabled else f.disabled
      expect := if c.op = 1 ∧ c.port = f.idtab.port then tset e.port 0 f.expect else f.expect }
    let s := if c.op = 3 then s.modFab fun f => f.assumed replica c.lcn else s
    let home := decide (c.op = 1) && (shadowPort s).isSome && c.lcn == s.fab.idtab.lcn
    (stDone, if home then s.modFab fun f => { f with sweep := some 0, wseq := tset shadowKey 0 f.wseq } else s)

/-- Answers who asked for a change (R385, R390). -/
def answerChange (s : State) (c : Change) (st : Nat) : State :=
  match c.asker with
  | none => { s with io := { s.io with idcmd := st } }
  | some t => match (s.thread t).stall with
    | some (.swapid d) => takeTrap (asThread s t fun s => s.done (BitVec.ofNat 6 d) (BitVec.ofNat 64 st)) t.ctxn
    | _ => s

/-- IDENTITY_CHANGE_APPLY: a change of another device, or the first of this one's (R385). (DESIGN CHOICE, log entry 66.) -/
def execIdentityChangeApply (s : State) : Answer :=
  .next (if s.occ.flag then (applyChange s ⟨s.occ.j, s.occ.flag2, s.occ.n % 128, s.occ.k, none⟩).2
    else match s.fab.ring with
      | [] => s
      | c :: rest =>
        let r := applyChange (s.modFab fun f => { f with ring := rest }) c
        answerChange r.2 c r.1)

/-- SWAP_MARK_RECEIPT (R381): writes up to the mark were performed, and the pair's sequence goes on after it. Writes that the
device made since the swap follow with the new numbers. A home that has applied no write of this device gives 2^32 − 1. -/
def execSwapMarkReceipt (s : State) : Answer :=
  let l := s.occ.n
  let m := s.occ.k % 2 ^ 32
  let here (r : Replay) : Bool := r.lcn == l
  let performed (r : Replay) : Bool := here r && r.abandoned && r.txn.wseq != unsent && seqLe r.txn.wseq m
  let s := s.modFab fun f => { f with
    marks := tset l m f.marks, known := sadd l f.known, awaited := sdel l f.awaited, wseq := tset l ((m + 1) % 2 ^ 32) f.wseq
    replay := f.replay.filter fun r => !performed r }
  let again := s.fab.replay.filter fun r => here r && !r.abandoned
  let s := s.modFab fun f => { f with replay := f.replay.filter fun r => !(here r && !r.abandoned) }
  .next (settleEntries (again.foldl renumber s))

/-! The source's side (R371, R374). -/

/-- The lines of a remote read arrive for the thread that asked for them, poisoned as a set says (R191, R370). -/
def fillLines (s : State) (r : OutRead) (data : List Byte) (pois : Nat → Bool) : State :=
  let ls := nrange 0 (r.txn.nbyte / 64)
  s.modRole r.tid fun t => { t with
    rbuf := ls.foldl (fun b i => tset (r.slot + i) ⟨(data.drop (64 * i)).take 64, pois i⟩ b) t.rbuf
    want := sdelAll (ls.map (r.slot + ·)) t.want }

/-- A read is answered or given up. -/
def dropRead (s : State) (num : Nat) : State := s.modFab fun f => { f with reads := f.reads.filter fun r => r.num != num }

/-- The read that a response answers: the oldest one of its home for that address; one whose check failed answers the oldest one of
its home (R371, R374). (DEDUCED, log entry 84.) -/
def readFor (s : State) (t : Txn) : Option OutRead :=
  s.fab.reads.find? fun r => r.txn.kind == 0 && homePort s r.lcn == t.sport && (!t.tagOk || r.txn.addr == t.addr)

/-- READ_RESPONSE (R370, R371). -/
def execReadResponse (s : State) : Answer :=
  let t := s.arrival
  .next (if !s.receives 1 then s
    else
      let s := s.hear t.sport
      match readFor s t with
      | none => s
      | some r => fillLines (dropRead s r.num) r t.data fun i => !t.tagOk || t.pmask.contains i)

/-- Results of remote elements of a thread's VAMO; with the last of them the instruction completes (R189, R371). -/
def vatomicGot (s : State) (t : Tid) (ids : List (Nat × Nat × Nat)) (got : List (Nat × Nat × Bool)) : State :=
  match (s.thread t).stall with
  | some (.vatomic v w wait old post) =>
    let wait := wait.filter fun x => !ids.contains x
    let got := got ++ old
    if !wait.isEmpty then s.modRole t fun r => { r with stall := some (.vatomic v w wait got post) }
    else takeTrap (asThread s t fun s =>
      let s := (s.modTh fun r => { r with stall := none }).modVec fun c => c.putOld v w got
      match post with
      | none => s.vFinish false Evs.none
      | some p => let h := s.heldEvs; s.raise { p with held := h.ev, hix := h.ix }) t.ctxn
  | _ => s

/-- The threads of the device. -/
def allThreads (s : State) : List Tid := s.triads.flatMap fun p => roles.map fun r => ⟨p.1, r⟩

/-- The answer to a returning atomic: an old value, or none for POISONED (R382). -/
def answerAtomic (s : State) (lcn wseq : Nat) (old : Option Word) : State :=
  (allThreads s).foldl (fun s t =>
    match (s.thread t).stall with
    | some (.atomic l w d ty ea fence) =>
      if l = lcn ∧ w = wseq then
        takeTrap (asThread s t fun s => match old with
          | some v => (peerNote s t.ctxn (fence.getD 0)).done (BitVec.ofNat 6 d) (match fence with
            | some st => BitVec.ofNat 64 st
            | none => extLoad (BitVec.ofNat 4 ty) v.toNat)
          | none => (s.modTh fun r => { r with stall := none }).trap cPOISON 0 0 ea) t.ctxn
      else s
    | some (.vatomic _ w wait _ _) =>
      match wait.find? fun x => x.1 == lcn && x.2.1 == wseq with
      | some x => vatomicGot s t [x] [(x.2.2, (old.getD 0).toNat % 2 ^ w, old.isNone)]
      | none => s
    | _ => s) s

/-- The value that an atomic response carries; none is POISONED, or not logged. (DESIGN CHOICE, log entry 61.) -/
def oldValue (t : Txn) : Option Word := if t.data = [] then Option.none else some (BitVec.ofNat 64 (bytesNat (t.data.take 8)))

/-- Frees the entries of a home up to a sequence number; abandoned ones stay, and those that were not sent (R374). -/
def freeUpTo (s : State) (sport wseq : Nat) : State :=
  s.modFab fun f => { f with
    replay := f.replay.filter fun r =>
      r.abandoned || r.txn.wseq == unsent || !(homePort s r.lcn == sport) || !seqLe r.txn.wseq wseq }

/-- The LCN whose home stands at a port, as the entries of the replay buffer, the reads and the identity table name it. -/
def lcnAt (s : State) (port : Nat) : Option Nat := (nrange 0 128).find? fun l => (s.ident l).state == 1 && (s.ident l).port == port

/-- The thread that waits for the answer to an atomic. -/
def waiterOf (s : State) (lcn wseq : Nat) : Option Tid :=
  (allThreads s).find? fun t => match (s.thread t).stall with
    | some (.atomic l w _ _ _ _) => l == lcn && w == wseq
    | some (.vatomic _ _ wait _ _) => wait.any fun x => x.1 == lcn && x.2.1 == wseq
    | _ => false

/-- ATOMIC_RESPONSE (R371, R374, R382): an answer to an atomic, or from the result log. -/
def execAtomicResponse (s : State) : Answer :=
  let t := s.arrival
  .next (if !s.receives 4 then s
    else
      let s := s.hear t.sport
      match lcnAt s t.sport with
      | none => s
      | some l =>
        match s.fab.reads.find? fun r => r.txn.kind == 9 && r.lcn == l && r.txn.wseq == t.wseq with
        | some r =>
          if !t.tagOk then askLog (dropRead s r.num) r.tid l r.txn.wseq
          else
            let s := dropRead s r.num
            match (s.thread r.tid).stall with
            | some (.fstat f) => takeTrap (asThread s r.tid fun s =>
                s.done f.xd (fstatResult s (f.fn.toNat % 16) l r.txn.wseq (oldValue t))) r.tid.ctxn
            | _ => answerAtomic s l r.txn.wseq (oldValue t)
        | none =>
          if !t.tagOk then (match waiterOf s l t.wseq with
            | some o => askLog s o l t.wseq
            | none => s)
          else
            let s := s.modFab fun f => { f with
              replay := f.replay.filter fun r => !(r.lcn == l && r.txn.kind == 3 && r.txn.wseq == t.wseq && !r.abandoned) }
            settleEntries (answerAtomic s l t.wseq (oldValue t)))

/-- FABRIC_ACK (R371, R374, R380). -/
def execFabricAck (s : State) : Answer :=
  let t := s.arrival
  .next (if !s.receives 5 then s
    else
      let s := s.hear t.sport
      if !t.tagOk then s else settleEntries (releaseAcks (freeUpTo s t.sport t.wseq)))

/-- Sends again every entry of the homes that meet a test, in WSEQ order, and every outstanding read of them. (DEDUCED, log entry 62.) -/
def retransmit (s : State) (p : Nat → Bool) : State :=
  let s := (s.fab.replay.filter fun r => !r.abandoned && r.txn.wseq != unsent && p r.lcn).foldl (fun s r => resend s r.lcn r.txn) s
  (s.fab.reads.filter fun r => p r.lcn).foldl (fun s r => resend s r.lcn r.txn) s

/-- FABRIC_NACK: everything before the expected number has been taken; the rest is sent again (R371, R374). (DEDUCED, log entry 62.) -/
def execFabricNack (s : State) : Answer :=
  let t := s.arrival
  .next (if !s.receives 6 then s
    else
      let s := s.hear t.sport
      if !t.tagOk then s
      else
        let s := freeUpTo s t.sport ((t.wseq + 2 ^ 32 - 1) % 2 ^ 32)
        settleEntries (releaseAcks (retransmit s fun k => homePort s k == t.sport)))

/-! The home's side (R292, R296, R371, R374). -/

/-- Whether n bytes at a local address of a transaction lie in HBM4E (R271). (DEDUCED, log entry 75.) -/
def homeHas (addr n : Nat) : Bool := inHbm addr && inHbm (addr + (n - 1))

/-- The answer to a read: whole lines, each with its poison (R292, R370, R374). -/
def answerRead (s : State) (t : Txn) : State :=
  let ls := linesOf t.addr t.nbyte
  let bad (l : Nat) : Bool := slotEmpty s t.key || physQuality s (64 * l) 64 != .clean
  sendTxn s { replyTo s t 1 with
    nbyte := t.nbyte, data := physRead s t.addr t.nbyte t.key
    pmask := (nrange 0 ls.length).filter fun i => bad (ls.getD i 0) }

/-- The parts of a unit that a source has sent, in their order, and what is held of others (R250). -/
def heldParts (s : State) (kind sport : Nat) : List Txn := s.fab.heldUnits.filter fun h => h.kind == kind && h.sport == sport

def dropParts (s : State) (kind sport : Nat) : State :=
  s.modFab fun f => { f with heldUnits := f.heldUnits.filter fun h => !(h.kind == kind && h.sport == sport) }

/-- A part of a unit waits for the rest of it (R250). (DESIGN CHOICE, log entry 84.) -/
def holdPart (s : State) (t : Txn) : State := s.modFab fun f => { f with heldUnits := f.heldUnits ++ [t] }

/-- FABRIC_READ (R250, R292, R370, R371, R374): the parts of a unit are read together. -/
def execFabricRead (s : State) : Answer :=
  let t := s.arrival
  if !s.receives 0 then .next s
  else
    let s := s.hear t.sport
    if !t.tagOk then .next (sendNack s t)
    else if !homeHas t.addr t.nbyte then .fault .noMemory
    else if t.more then .next (holdPart s t)
    else .next ((heldParts s 0 t.sport ++ [t]).foldl answerRead (dropParts s 0 t.sport))

/-- One line of a remote write: bytes with their enables (R292, R296, R370). -/
def homeLine (s : State) (pa key : Nat) (bs : List (Byte × Bool)) (pois : Bool) : State :=
  if slotEmpty s key || inSealed s pa bs.length then s
  else
    let s := if bs.all (·.2) then physWrite s pa (bs.map (·.1)) key
      else ((nrange 0 bs.length).zip bs).foldl (fun s x => if x.2.2 then physWrite s (pa + x.1) [x.2.1] key else s) s
    if pois then physPoison s pa bs.length key else s

/-- The bytes of a remote write, line by line; `k` numbers the data lines. (DEDUCED, log entry 75.) -/
def homeLines : Nat → State → Txn → Nat → List (Byte × Bool) → Nat → State
  | 0, s, _, _, _, _ => s
  | fuel + 1, s, t, pa, bs, k =>
    if bs.isEmpty then s
    else
      let n := min bs.length (64 - pa % 64)
      homeLines fuel (homeLine s pa t.key (bs.take n) (t.pmask.contains k)) t (pa + n) (bs.drop n) (k + 1)

/-- Names the source of the forwards that were sent since a number (R380). -/
def tagForwards (s : State) (from_ sport wseq : Nat) : State :=
  let mark (t : Txn) : Txn :=
    if t.kind = 8 ∧ seqLe from_ t.wseq ∧ t.origPort = noPort then { t with origPort := sport, origSeq := wseq }.sealed else t
  if (shadowPort s).isNone then s
  else s.modFab fun f => { f with
    replay := f.replay.map fun r => if r.lcn = shadowKey then { r with txn := mark r.txn } else r
    out := f.out.map mark }

/-- The sequence number of a source is taken. -/
def takeSeq (s : State) (t : Txn) : State := s.modFab fun f => { f with expect := tset t.sport ((t.wseq + 1) % 2 ^ 32) f.expect }

/-- Bytes with their enables. -/
def enabledBytes (t : Txn) : List (Byte × Bool) := t.data.zip (t.ben ++ List.replicate t.data.length true)

/-- A write takes effect at its home; its forwards name its source (R380). (DEDUCED, log entry 75.) -/
def homeWrite (s : State) (t : Txn) : State :=
  let w := nextWseq s shadowKey
  tagForwards (homeLines (t.data.length / 64 + 2) s t t.addr (enabledBytes t) 0) w t.sport t.wseq

/-- FABRIC_WRITE (R250, R371, R374, R380): the parts of a unit take effect together. -/
def execFabricWrite (s : State) : Answer :=
  let t := s.arrival
  if !s.receives 2 then .next s
  else
    let s := s.hear t.sport
    if !t.tagOk || t.wseq != expected s t.sport then .next (sendNack s t)
    else if !homeHas t.addr t.data.length then .fault .noMemory
    else if t.more then .next (holdPart (takeSeq s t) t)
    else .next (acknowledge ((heldParts s 2 t.sport ++ [t]).foldl homeWrite (takeSeq (dropParts s 2 t.sport) t)) t)

/-- Room in the result log: 16,384 entries, each kept 100 µs (R374). -/
def logRoom (s : State) : Bool :=
  decide (s.fab.rlog.length < 16384) || (match s.fab.rlog.head? with
    | some e => decide (e.time + 100000 ≤ s.time)
    | none => true)

/-- An entry joins the result log; the oldest leaves a full one (R374). -/
def logPush (s : State) (e : LogEnt) : State :=
  s.modFab fun f => { f with rlog := (if f.rlog.length < 16384 then f.rlog else f.rlog.drop 1) ++ [e] }

/-- The answer that carries an old value; none is POISONED. (DESIGN CHOICE, log entry 61.) -/
def answerOld (s : State) (t : Txn) (old : Option Word) : State :=
  sendTxn s { replyTo s t 4 with
    nbyte := if old.isSome then 8 else 0
    data := match old with
      | some v => wordBytes v
      | none => [] }

/-- Forwards a result-log entry to the replica (R380). -/
def forwardLog (s : State) (t : Txn) (old : Word) : State :=
  match shadowPort s with
  | none => s
  | some p => shadowSend s p { Txn.none with operand := old, origPort := t.sport, origSeq := t.wseq }

/-- Applies a returning atomic at its home as one indivisible step (R374, R382). (DEDUCED, log entry 75.) -/
def homeAtomic (s : State) (t : Txn) : State :=
  let ty := BitVec.ofNat 4 t.ty
  let n := tWidth ty / 8
  let s := takeSeq s t
  if slotEmpty s t.key || physQuality s t.addr n != .clean then acknowledge (answerOld s t none) t
  else if inSealed s t.addr n then acknowledge (answerOld s t (some 0)) t
  else
    let old := physNat s t.addr n t.key
    let w := nextWseq s shadowKey
    let s := physWrite s t.addr (natBytes n (atomicNew t.op ty old t.operand.toNat t.cmpval.toNat)) t.key
    let s := forwardLog (logPush (tagForwards s w t.sport t.wseq) ⟨t.sport, t.wseq, BitVec.ofNat 64 old, s.time⟩) t (BitVec.ofNat 64 old)
    acknowledge (answerOld s t (some (BitVec.ofNat 64 old))) t

/-- The answer to a duplicate of an atomic that was taken: from the log; one that is not logged was not applied (R374, R382). -/
def answerAgain (s : State) (t : Txn) : State :=
  match logged s t.sport t.wseq with
  | some v => answerOld s t (some v)
  | none => answerOld s t (if inSealed s t.addr (tWidth (BitVec.ofNat 4 t.ty) / 8) then some 0 else none)

/-- RETURNING_ATOMIC (R371, R374, R382): a duplicate is answered from the log; a new one waits while the log has no room. -/
def execReturningAtomic (s : State) : Answer :=
  let t := s.arrival
  if !s.receives 3 then .next s
  else
    let s := s.hear t.sport
    if !t.tagOk then .next (sendNack s t)
    else if t.wseq ≠ expected s t.sport then
      .next (if seqLe t.wseq (expected s t.sport) then answerAgain s t else sendNack s t)
    else if !homeHas t.addr (tWidth (BitVec.ofNat 4 t.ty) / 8) then .fault .noMemory
    else .next (if logRoom s then homeAtomic s t
      else if s.fab.heldAtomics.any (fun h => h.sport == t.sport && h.wseq == t.wseq) then s
      else s.modFab fun f => { f with heldAtomics := f.heldAtomics ++ [t] })

/-- RESULT_LOG_AGEING: the first atomic that was held back is taken once the oldest entry is old enough (R374). -/
def execResultLogAgeing (s : State) : Answer :=
  .next (match s.fab.heldAtomics with
    | [] => s
    | t :: rest =>
      if !logRoom s then s
      else
        let s := s.modFab fun f => { f with heldAtomics := rest }
        if t.wseq = expected s t.sport then homeAtomic s t else s)

/-- RESULT_LOG_READ (R371, R374). (DESIGN CHOICE, log entry 61.) -/
def execResultLogRead (s : State) : Answer :=
  let t := s.arrival
  .next (if !s.receives 9 then s
    else
      let s := s.hear t.sport
      if !t.tagOk then sendNack s t else answerOld s t (logged s t.sport t.wseq))

/-! The replica's side (R380). -/

/-- The highest WSEQ applied for a source (R380). -/
def raiseLseq (f : Fabric) (port wseq : Nat) : Fabric :=
  if port = noPort then f
  else match tfind port f.lseq with
    | some l => if seqLe wseq l then f else { f with lseq := tset port wseq f.lseq }
    | none => { f with lseq := tset port wseq f.lseq }

/-- SHADOW_WRITE: a replica applies a forward in its order and acknowledges it (R371, R374, R380). -/
def execShadowWrite (s : State) : Answer :=
  let t := s.arrival
  if !s.receives 8 then .next s
  else
    let s := s.hear t.sport
    if !(s.fab.idtab.rep && s.fab.idtab.shd) then .next s
    else if !t.tagOk || t.wseq != expected s t.sport then .next (sendNack s t)
    else if !homeHas t.addr t.data.length then .fault .noMemory
    else
      let s := takeSeq s t
      let s := if t.data = [] then logPush s ⟨t.origPort, t.origSeq, t.operand, s.time⟩
        else homeLines (t.data.length / 64 + 2) s t t.addr (enabledBytes t) 0
      .next (sendAck (s.modFab fun f => raiseLseq f t.origPort t.origSeq) t.sport t.wseq)

/-! The shadow sweep (R380). -/

/-- The lines of HBM4E (R260). -/
def hbmLines : Nat := 2 ^ 33

/-- The key slot under which a line stands: one that holds the key that it was written under. -/
def lineSlot (s : State) (line : Nat) : Nat :=
  let k := tget 0 line s.mem.keyed
  if k = 0 then 0 else ((s.keys.find? fun p => p.2 + 1 == k).map (·.1)).getD 0

/-- Whether the sweep can send its next line. (DEDUCED, log entry 63.) -/
def sweepReady (s : State) : Bool :=
  (shadowPort s).isSome && s.fab.sweep.any (fun n => decide (n < hbmLines)) && replayRoom s (writeFlits 64)

/-- The sweep sends its next line to the replica, with its key slot and its poison. (DEDUCED, log entry 63.) -/
def sweepStep (s : State) : State :=
  match s.fab.sweep, shadowPort s with
  | some n, some p =>
    if n < hbmLines then
      let slot := lineSlot s n
      (shadowLines s p slot (physQuality s (64 * n) 64 != .clean) 1 (64 * n) (physRead s (64 * n) 64 slot)).modFab fun f =>
        { f with sweep := some (n + 1) }
    else s
  | _, _ => s

/-- SHADOW_SWEEP_COMPLETE: at the home once every line has been sent; elsewhere as the ring tells (R380). (DEDUCED, log entry 63.) -/
def execShadowSweepComplete (s : State) : Answer :=
  let l := s.occ.n
  let e := s.ident l
  let home := decide (l = s.fab.idtab.lcn) && (shadowPort s).isSome
  .next (if !e.shv || e.cur || (home && s.fab.sweep != some hbmLines) then s
    else s.modFab fun f => { f with
      idents := tset l { e with cur := true } f.idents
      sweep := if home then none else f.sweep
      idtab := if f.idtab.shd ∧ f.idtab.shlcn = l then { f.idtab with cur := true } else f.idtab })

/-! Heartbeats and loss (R376, R377). -/

/-- HEARTBEAT_SEND: every 1 µs (R376). -/
def execHeartbeatSend (s : State) : Answer :=
  .next (if portUp s && decide (s.fab.hbLast + 1000 ≤ s.time) then
      sendTxn (s.modFab fun f => { f with hbLast := s.time })
        { Txn.none with kind := 7, sport := s.fab.idtab.port, dport := 255 }
    else s)

/-- HEARTBEAT (R371, R376). -/
def execHeartbeat (s : State) : Answer := .next (if portUp s then s.hear s.arrival.sport else s)

/-- Engine commands whose writes are lost, each by its order and the element written: the status is met, and the element counts as not
written (R217, R219, R377). -/
def markCommands (s : State) (lost : List (Nat × Nat)) (st : Nat) : State :=
  let hit (order : Nat) : Bool := lost.any (·.1 == order)
  let chan (m : CopyCmd) : CopyCmd :=
    if hit m.order then { m with met := st :: m.met, missed := saddAll ((lost.filter (·.1 == m.order)).map (·.2)) m.missed } else m
  let topo (m : TopoCmd) : TopoCmd := if hit m.order then { m with met := st :: m.met } else m
  { s with
    triads := s.triads.map fun (p : Nat × Triad) => (p.1, { p.2 with chans := p.2.chans.map fun c => (c.1, { c.2 with cmd := c.2.cmd.map chan }) })
    topos := s.topos.map fun (p : Nat × Topo) => (p.1, { p.2 with running := p.2.running.map topo }) }

/-- What a thread that waits on a lost LCN gets (R377). -/
def loseWait (l : Nat) (s : State) (t : Tid) : State :=
  match (s.thread t).stall with
  | some (.atomic k w _ _ ea fence) =>
    if k = l then takeTrap (asThread s t fun s =>
      let s := (peerNote s t.ctxn (fence.getD 0)).advance
      s.modTh fun r => { r with async := r.async ++ [fabricPost 1 w ea r.pc] }) t.ctxn
    else s
  | some (.vatomic _ _ wait _ _) =>
    let out := wait.filter fun x => x.1 == l
    if out.isEmpty then s else vatomicGot s t out (out.map fun x => (x.2.2, 0, true))
  | some (.fstat f) =>
    if ((s.thread t).xr f.xa.toNat).toNat = l then takeTrap (asThread s t fun s => s.done f.xd 0) t.ctxn else s
  | _ => s

/-- An LCN becomes lost (R376, R377); a completion word under way to it is lost (R335). (DEDUCED, log entry 59.) -/
def loseLcn (s : State) (l : Nat) : State :=
  if (s.ident l).state ≠ 1 then s
  else
    let out := s.fab.replay.filter fun r => r.lcn == l && !r.abandoned
    let reads := s.fab.reads.filter fun r => r.lcn == l
    let s := markCommands s (out.filterMap fun r => r.cmd.map fun o => (o, r.elem)) stPeerLost
    let s := (out.filterMap (·.cw)).foldl (fun s q => s.modQueue q fun k => { k with cwlost := true }) s
    let s := s.modFab fun f => { f with
      idents := tset l { s.ident l with state := 2 } f.idents
      awaited := sdel l f.awaited
      reads := f.reads.filter fun r => r.lcn != l
      replay := f.replay.filterMap fun r =>
        if r.lcn ≠ l ∨ r.abandoned then some r
        else if r.owner.isNone ∨ r.returns then none
        else some { r with abandoned := true } }
    let s := (reads.filter fun r => r.txn.kind == 0).foldl (fun s r =>
      fillLines s r (List.replicate r.txn.nbyte 0) fun _ => true) s
    settleEntries ((allThreads s).foldl (loseWait l) s)

/-- The switch slices disable a port (R376). -/
def disablePort (s : State) (port : Nat) : State := s.modFab fun f => { f with disabled := sadd port f.disabled }

/-- A replica at a port falls silent: nobody is shadowed by it any more (R380). -/
def loseReplica (s : State) (port : Nat) : State :=
  let mine := shadowPort s == some port
  let s := if mine then dropShadow s else s
  s.modFab fun f => { f with
    idents := f.idents.map fun p => if p.2.shv ∧ p.2.shport = port then (p.1, { p.2 with shv := false, cur := false }) else p }

/-- The port that a death notice is about: of a replica, or of the device that holds a live LCN. -/
def noticePort (s : State) (replica : Bool) (n : Nat) : Option Nat :=
  if replica then some n else if (s.ident n).state = 1 then some (s.ident n).port else none

/-- What a death notice does: the port is disabled, and the LCN is lost, or the replica (R376, R377, R380). -/
def takeNotice (s : State) (replica : Bool) (n : Nat) : State :=
  let s' := if replica then loseReplica s n else loseLcn s n
  match noticePort s replica n with
  | some p => disablePort s' p
  | none => s'

/-- DEATH_NOTICE (R376, R377, R380). -/
def execDeathNotice (s : State) : Answer := .next (takeNotice s s.occ.flag s.occ.n)

/-- The LCNs that an entry names live. -/
def liveLcns (s : State) : List Nat := (nrange 0 128).filter fun l => (s.ident l).state == 1

/-- The device hears nobody, or the domain stops: FST is 0 and LCNs are lost (R373, R376). (DEDUCED, log entry 64.) -/
def goSilent (s : State) (own : Bool) : State :=
  let ls := (liveLcns s).filter fun l => own || l != s.fab.idtab.lcn || s.fab.idtab.rep
  ls.foldl loseLcn (s.modFab fun f => { f with idtab := { f.idtab with fst := 0 } })

/-- PEER_SILENCE_EXPIRY: 8 µs without a flit from a live LCN, or from a replica (R376, R380). (DEDUCED, log entry 64.) -/
def execPeerSilenceExpiry (s : State) : Answer :=
  let n := s.occ.n
  let port := if s.occ.flag then n else (s.ident n).port
  let known := if s.occ.flag then s.fab.idents.any fun p => p.2.shv && p.2.shport == n else (s.ident n).state == 1
  let heardLately (p : Nat × Nat) : Bool := decide (s.time < p.2 + 8000)
  .next (if !portUp s || !known || port == s.fab.idtab.port || heardLately (port, tget 0 port s.fab.heard) then s
    else if s.fab.heard.any fun p => p.1 != port && p.1 != s.fab.idtab.port && heardLately p then
      (takeNotice s s.occ.flag n).modFab fun f => { f with notices := f.notices ++ [port] }
    else goSilent s true)

/-! Arbitration and resets (R372, R373). -/

/-- CRC-16 with polynomial 0x1021 and initial value 0xFFFF, most significant bit first (R373). -/
def crc16 (bs : List Byte) : BitVec 16 :=
  bs.foldl (fun (c : BitVec 16) (b : Byte) =>
    (nrange 0 8).foldl (fun (c : BitVec 16) _ => if c.getLsbD 15 then (c <<< 1) ^^^ 0x1021#16 else c <<< 1)
      (c ^^^ (b.setWidth 16 <<< (8 : Nat)))) 0xFFFF#16

/-- The transaction that the port puts forward: acknowledgements pass requests and responses (R369). -/
def portHead (s : State) : Option Txn :=
  let ts := s.fab.out.filter fun t => t.dport < 144 && !smem t.dport s.fab.disabled
  (ts.find? fun t => decide (2 ≤ vclass t.kind)) <|> ts.head?

/-- The grants of a frame (R372). (DESIGN CHOICE, log entry 65.) -/
def grantAll (frame : Nat) (reqs : List (Nat × Nat)) : Tbl Nat :=
  ((nrange 0 144).foldl (fun (a : Tbl Nat × NatSet) k =>
    let o := (frame + k) % 144
    match (nrange 0 144).find? fun j => let i := (frame + o + j) % 144; reqs.contains (i, o) && !smem i a.2 with
    | some j => let i := (frame + o + j) % 144; (tset o i a.1, sadd i a.2)
    | none => a) ([], [])).1

/-- grant[0..143] as bytes, with 0xFF for no grant (R373). -/
def grantBytes (g : Tbl Nat) : List Byte := (nrange 0 144).map fun o => BitVec.ofNat 8 (tget 255 o g)

/-- A domain reset: what is in flight is dropped and the port retrains; the third within 10 ms fences a slice, or stops the
domain (R373). -/
def resetDomain (s : State) (slice : Option Nat) : State :=
  let rs := (s.fab.resets.filter fun r => decide (s.time < r.1 + 10000000)) ++ [(s.time, slice)]
  let s := s.modFab fun f => { f with
    out := [], paths := [], grants := [], resets := rs
    idtab := { f.idtab with fst := if f.idtab.fen ∧ f.idtab.fst ≠ 0 then 3 else f.idtab.fst } }
  if rs.length < 3 then s
  else match slice with
    | some k =>
      if rs.all (fun r => r.2 == some k) && s.fab.fenced.isEmpty then s.modFab fun f => { f with fenced := [k], resets := [] }
      else goSilent (s.modFab fun f => { f with stopped := true }) false
    | none => goSilent (s.modFab fun f => { f with stopped := true }) false

/-- What another device puts forward in a frame, as its number tells it: its port, its route header as it came and its flits; none
where the header does not check or names no one port (R369, R372). (DESIGN CHOICE, log entry 65.) -/
def otherRequest (x : Nat) : Option (Nat × Nat × Nat) :=
  let route := x / 144 % 2 ^ 16
  if routeOk route && decide (route % 256 < 144) then some (x % 144, route % 256, x / 144 / 2 ^ 16) else none

/-- FRAME_ARBITRATION: grants by R372 between enabled ports; then the slices compare them, and a slice that sent others resets the
domain; errors on one lane are counted (R373, R376). (DESIGN CHOICE, log entry 65.) -/
def execFrameArbitration (s : State) : Answer :=
  let own := portHead s
  let others := (s.occ.env.parts.filterMap otherRequest).filter fun r => r.1 != s.fab.idtab.port
  let mine := match own with
    | some t => if portUp s && routeOk t.route then [(s.fab.idtab.port, t.dport, flitsOf t)] else []
    | none => []
  let busy := s.fab.paths.filter fun p => decide (1 < p.2.2)
  let enabled (r : Nat × Nat × Nat) : Bool := !smem r.1 s.fab.disabled && !smem r.2.1 s.fab.disabled
  let free (r : Nat × Nat × Nat) : Bool := !(busy.any fun p => p.1 == r.1 || p.2.1 == r.2.1)
  let reqs := (mine ++ others).filter fun r => enabled r && free r
  let g := grantAll s.fab.frame (reqs.map fun r => (r.1, r.2.1))
  let won := reqs.filter fun r => tfind r.2.1 g == some r.1
  let sent (t : Txn) : Bool := t.dport == 255 || (own == some t && won.any fun r => r.1 == s.fab.idtab.port)
  let s := s.modFab fun f => { f with
    frame := (f.frame + 1), grants := g, corrected := f.corrected + s.occ.j
    paths := busy.map (fun p => (p.1, p.2.1, p.2.2 - 1)) ++ won
    out := f.out.filter fun t => !sent t }
  .next (if s.occ.flag ∧ (s.occ.env.data = [] ∨ crc16 s.occ.env.data ≠ crc16 (grantBytes g)) then resetDomain s (some s.occ.k) else s)

/-- DOMAIN_RESET (R373). -/
def execDomainReset (s : State) : Answer := .next (resetDomain s (if s.occ.flag then some s.occ.k else none))

/-- Silence timers start anew (R373). (DEDUCED, log entry 64.) -/
def hearAll (s : State) : State :=
  let shadows := (s.fab.idents.filter fun p => p.2.shv).map fun p => p.2.shport
  let ports := ((liveLcns s).map (fun l => (s.ident l).port) ++ shadows).filter (· != s.fab.idtab.port)
  s.modFab fun f => { f with heard := ports.foldl (fun h p => tset p s.time h) f.heard }

/-- The atomics whose answers threads wait for. -/
def awaitedAtomics (s : State) : List (Tid × Nat × Nat) :=
  (allThreads s).flatMap fun t => match (s.thread t).stall with
    | some (.atomic l w _ _ _ _) => [(t, l, w)]
    | some (.vatomic _ _ wait _ _) => wait.map fun x => (t, x.1, x.2.1)
    | _ => []

/-- The results of atomics that were acknowledged but whose answers a reset has dropped are read from the log (R373, R374).
(DEDUCED, log entry 62.) -/
def relog (s : State) : State :=
  let open_ (x : Tid × Nat × Nat) : Bool :=
    !(s.fab.replay.any fun r => r.lcn == x.2.1 && r.txn.wseq == x.2.2 && r.returns) &&
      !(s.fab.reads.any fun r => r.txn.kind == 9 && r.lcn == x.2.1 && r.txn.wseq == x.2.2)
  ((awaitedAtomics s).filter open_).foldl (fun s x => askLog s x.1 x.2.1 x.2.2) s

/-- DOMAIN_RESET_RETRAINED: the port is up again; what is not acknowledged or answered is sent again (R373). -/
def execDomainResetRetrained (s : State) : Answer :=
  .next (if s.fab.idtab.fst ≠ 3 ∨ s.fab.stopped then s
    else relog (retransmit (hearAll (s.modFab fun f => { f with idtab := { f.idtab with fst := 2 } })) fun _ => true))

/-- FABRIC_PORT_UP: link training gives the port (R367). -/
def execFabricPortUp (s : State) : Answer :=
  .next (if s.fab.idtab.fen ∧ s.fab.idtab.fst = 1 then
      hearAll (s.modFab fun f => { f with idtab := { f.idtab with fst := 2, port := s.occ.n % 144 } })
    else s)

end Sys2Proof.Machine
end

