-- ==== Sys2Proof/Machine/Keccak.lean ====
section
/-! DEFINITION. SHAKE256 (R396): the sponge of FIPS 202, which the spec names, over a state of 25 lanes; lane x + 5·y stands at
column x of row y. -/

namespace Sys2Proof.Machine

def lane (a : List Word) (x y : Nat) : Word := a.getD (x % 5 + 5 * (y % 5)) 0

/-- Rebuilds the state lane by lane. -/
def lanes (f : Nat → Nat → Word) : List Word := (nrange 0 25).map fun i => f (i % 5) (i / 5)

/-- The rotation of each lane. -/
def rhoBy : List Nat := [0, 1, 62, 28, 27, 36, 44, 6, 55, 20, 3, 10, 43, 25, 39, 41, 45, 15, 21, 8, 18, 2, 61, 56, 14]

/-- The constant of each round. -/
def iotaOf : List Word :=
  [0x1#64, 0x8082#64, 0x800000000000808A#64, 0x8000000080008000#64, 0x808B#64, 0x80000001#64] ++
  [0x8000000080008081#64, 0x8000000000008009#64, 0x8A#64, 0x88#64, 0x80008009#64, 0x8000000A#64] ++
  [0x8000808B#64, 0x800000000000008B#64, 0x8000000000008089#64, 0x8000000000008003#64, 0x8000000000008002#64,
    0x8000000000000080#64] ++
  [0x800A#64, 0x800000008000000A#64, 0x8000000080008081#64, 0x8000000000008080#64, 0x80000001#64, 0x8000000080008008#64]

def keccakRound (a : List Word) (rc : Word) : List Word :=
  let c := (nrange 0 5).map fun x => (nrange 0 5).foldl (fun v y => v ^^^ lane a x y) 0#64
  let d (x : Nat) : Word := c.getD ((x + 4) % 5) 0 ^^^ (c.getD ((x + 1) % 5) 0).rotateLeft 1
  let t := lanes fun x y => (lane a x y ^^^ d x).rotateLeft (rhoBy.getD (x + 5 * y) 0)
  let b := lanes fun x y => lane t (x + 3 * y) x
  let e := lanes fun x y => lane b x y ^^^ (~~~ lane b (x + 1) y &&& lane b (x + 2) y)
  (e.headD 0 ^^^ rc) :: e.drop 1

def keccakF (a : List Word) : List Word := iotaOf.foldl keccakRound a

/-- A block of 136 bytes joins the state. -/
def absorb (a : List Word) (b : List Byte) : List Word :=
  keccakF ((nrange 0 25).map fun i => a.getD i 0 ^^^ BitVec.ofNat 64 (bytesNat ((b.drop (8 * i)).take 8)))

/-- The message with the suffix and the padding of SHAKE: a whole number of 136-byte blocks. -/
def shakePad (m : List Byte) : List Byte :=
  let p := 136 - m.length % 136
  m ++ if p = 1 then [0x9F#8] else 0x1F#8 :: List.replicate (p - 2) 0 ++ [0x80#8]

/-- The first n bytes of SHAKE256 of a message, for n up to 136 (R396). (DEDUCED, log entry 72.) -/
def shake256 (n : Nat) (m : List Byte) : List Byte :=
  let p := shakePad m
  let a := (lchunks 136 (p.length / 136) p).foldl absorb (List.replicate 25 0)
  ((a.map fun w => natBytes 8 w.toNat).flatten).take n

end Sys2Proof.Machine
end

