-- ==== Sys2Proof/Machine/HostPorts.lean ====
section
/-! DEFINITION. The host ports, the control window, the semaphore, bring-up, attestation, power and temperature (R28, R321 to
R323, R386 to R398). -/

namespace Sys2Proof.Machine

def State.modIo (s : State) (f : IoDie → IoDie) : State := { s with io := f s.io }

/-! The control window (R390 to R393). -/

/-- The number by which SY_SEM knows who writes: 1 port 0, 2 port 1, 3 the management interface (R392). -/
def requester (who : Nat) : Nat := who % 3 + 1

/-- Whether a writer reaches the control window: a port does in host mode (R390). -/
def reaches (s : State) (who : Nat) : Bool := s.io.power != 2 && (who == 2 || (decide (who < 2) && !(s.io.port who).expander))

/-- Whether a write of the control window is performed: the writer owns the semaphore (R390, R393). (DEDUCED, log entry 67.) -/
def performs (s : State) (who : Nat) : Bool := reaches s who && s.io.sem.owns (requester who)

/-- A performed write of the owner restores REMAIN (R393). (DEDUCED, log entry 67.) -/
def renewed (s : State) : State := s.modIo fun d => { d with sem := d.sem.renewed }

/-- A write by the current writer of the occasion: performed for the owner, discarded otherwise (R390). (DEDUCED, log entry 67.) -/
def ownerWrite (s : State) (f : State → State) : State := if performs s s.occ.who then renewed (f s) else s

def State.modSem (s : State) (f : Sem → Sem) : State := s.modIo fun d => { d with sem := f d.sem }

/-- SEM_ACQUIRE (R393). -/
def execSemAcquire (s : State) : Answer :=
  .next (if reaches s s.occ.who then s.modSem fun m => m.acquire (requester s.occ.who) (nbits s.occ.value.toNat 16 16) else s)

/-- SEM_RELEASE (R393). -/
def execSemRelease (s : State) : Answer :=
  .next (if reaches s s.occ.who then s.modSem fun m => m.release (requester s.occ.who) (nbits s.occ.value.toNat 16 16) else s)

/-- SEM_RENEW (R393). -/
def execSemRenew (s : State) : Answer :=
  .next (if reaches s s.occ.who then s.modSem fun m => m.renew (requester s.occ.who) (nbits s.occ.value.toNat 16 16) else s)

/-- SEM_LEASE_LAPSE: the last nanosecond of the lease is over (R393). (DEDUCED, log entry 67.) -/
def execSemLeaseLapse (s : State) : Answer :=
  .next (if s.io.sem.owner ≠ 0 ∧ s.io.sem.remNs ≤ 1 then s.modSem fun m => { m with remNs := 0 } else s)

/-- ISOCLR of a port: its isolation ends and its link retrains (R388). -/
def IoDie.isoclr (d : IoDie) (p : Nat) : IoDie :=
  if (d.port p).iso then d.setPort p { d.port p with iso := false, link := false } else d

/-- ISOCLR (R388). -/
def execIsoclr (s : State) : Answer := .next (ownerWrite s fun s => s.modIo fun d => d.isoclr (s.occ.n % 2))

/-- CXL_LINK_UP (R388). -/
def execCxlLinkUp (s : State) : Answer :=
  let p := s.occ.n % 2
  .next (if s.io.power = 2 then s else s.modIo fun d => d.setPort p { d.port p with link := true })

/-- A write of POOL, where it is not discarded (R347, R390). -/
def writePool (s : State) (v : Word) : Option State :=
  if s.triads.isEmpty && v.toNat % 2 ^ 24 == 0 && localHbm (v.toNat + 2 ^ 24 - 1) then
    some (s.modIo fun d => { d with pool := v, poolSet := true })
  else none

/-- POOL_WRITE (R347, R390). -/
def execPoolWrite (s : State) : Answer :=
  .next (match writePool s s.occ.value with
    | some t => if performs s s.occ.who then renewed t else s
    | none => s)

/-- A SWAPID request of a host (R385, R390). -/
def askChange (s : State) (op : Nat) (force : Bool) (lcn port : Nat) : State := sendChange s ⟨op, force, lcn % 128, port % 256, none⟩

def hostChange (s : State) (op : Nat) (force : Bool) : State := ownerWrite s fun s => askChange s op force s.occ.n s.occ.k

/-- IDCMD BIND (R390). -/
def execIdcmdBind (s : State) : Answer := .next (hostChange s 0 false)
/-- IDCMD SHADOW (R390). -/
def execIdcmdShadow (s : State) : Answer := .next (hostChange s 1 false)
/-- IDCMD UNSHADOW (R390). -/
def execIdcmdUnshadow (s : State) : Answer := .next (hostChange s 2 false)
/-- IDCMD ASSUME (R390). -/
def execIdcmdAssume (s : State) : Answer := .next (hostChange s 3 s.occ.flag)
/-- IDCMD UNBIND (R390). -/
def execIdcmdUnbind (s : State) : Answer := .next (hostChange s 4 false)

/-- A write of IDCMD: a request goes round the ring; what OP 5 to 7 answer is open, and they change no identity (R390).
(DESIGN CHOICE, log entry 67.) -/
def writeIdcmd (s : State) (v : Nat) : State :=
  if nbits v 0 3 < 5 then askChange s (nbits v 0 3) (nbits v 3 1 == 1) (nbits v 8 7) (nbits v 16 8)
  else { s.modIo fun d => { d with idcmd := (Config.freeValue s.fresh).toNat % 256 } with fresh := s.fresh + 1 }

/-- The power limit in force after a write (R391). -/
def clampPower (v : Nat) : Nat := max 1200 (min 2400 v)

def writePwrlim (s : State) (v : Word) : State := s.modIo fun d => { d with pwrlim := clampPower (nbits v.toNat 0 16) }

/-- PWRLIM_WRITE: the management interface may write whatever SY_SEM holds (R391). -/
def execPwrlimWrite (s : State) : Answer :=
  .next (if performs s s.occ.who then ownerWrite s fun s => writePwrlim s s.occ.value
    else if s.occ.who = 2 ∧ reaches s 2 then writePwrlim s s.occ.value
    else s)

/-- A slot other than 0 is loaded from KEYDATA or emptied (R292, R390). -/
def keyCommand (s : State) (slot : Nat) (load : Bool) : Option State :=
  if slot = 0 then none
  else some { s with keys := if load then tset slot (bytesNat s.io.keydata) s.keys else tdel slot s.keys }

def ownerKey (s : State) (load : Bool) : State :=
  match keyCommand s (s.occ.n % 128) load with
  | some t => if performs s s.occ.who then renewed t else s
  | none => s

/-- KEY_LOAD (R292, R390). -/
def execKeyLoad (s : State) : Answer := .next (ownerKey s true)

/-- KEY_EMPTY (R292, R390). -/
def execKeyEmpty (s : State) : Answer := .next (ownerKey s false)

/-- QUEUE_ENABLE: a write of Q_CTL with EN set (R322, R323). -/
def execQueueEnable (s : State) : Answer :=
  .next (ownerWrite s fun s => writeQctl s (s.occ.n % 128) (s.occ.value ||| 0x8000000000000000#64))

/-- QUEUE_RESET: a write of Q_CTL with RESET set (R322, R323). -/
def execQueueReset (s : State) : Answer :=
  .next (ownerWrite s fun s => writeQctl s (s.occ.n % 128) (s.occ.value ||| 0x1000000000000000#64))

/-- QUEUE_DOORBELL: a host write of Q_TAIL, ignored under DEVSUB (R321, R322). (DEDUCED, log entry 55.) -/
def execQueueDoorbell (s : State) : Answer :=
  let q := s.occ.n % 128
  .next (if (s.queue q).devsub then s
    else ownerWrite s fun s => s.modQueue q fun k => { k with tail := s.occ.value.toNat % k.size })

/-- A write of a queue control block (R321). -/
def writeQueueReg (s : State) (q off : Nat) (v : Word) : Option State :=
  match off with
  | 0x00 => some (s.modQueue q fun k => { k with base := v })
  | 0x08 => some (writeQctl s q v)
  | 0x18 => if (s.queue q).devsub then none else some (s.modQueue q fun k => { k with tail := v.toNat % k.size })
  | 0x20 => some (s.modQueue q fun k => k.setWdog v)
  | _ => none

/-- Bytes placed over what a list holds at an offset, filled up with zeros. -/
def bytesPut (m : List Byte) (o : Nat) (bs : List Byte) : List Byte :=
  (m ++ List.replicate (o - m.length) 0).take o ++ bs ++ m.drop (o + bs.length)

/-- A write of a word of the control window; none where it is discarded (R390). (DEDUCED, log entry 67.) -/
def writeCtl (s : State) (off : Nat) (v : Word) : Option State :=
  if off % 8 ≠ 0 then none
  else match off with
    | 0x00 | 0x08 => none
    | 0x10 => some (s.modIo fun d =>
        let d := if v.getLsbD 3 then d.isoclr 0 else d
        if v.getLsbD 11 then d.isoclr 1 else d)
    | 0x18 => writePool s v
    | 0x20 => some (writeIdcmd s v.toNat)
    | 0x28 => some (writePwrlim s v)
    | 0x80 => keyCommand s (v.toNat % 128) (v.getLsbD 7)
    | _ =>
      if 0x40 ≤ off ∧ off < 0x80 then some (s.modIo fun d => { d with keydata := bytesPut d.keydata (off - 0x40) (wordBytes v) })
      else if 0x400 ≤ off ∧ off < 0x400 + 8 * 112 then
        some (s.modCore ((off - 0x400) / 8) fun k => { k with trapvec := v &&& trapvecRw })
      else if 0x1000 ≤ off ∧ off < 0x3000 then writeQueueReg s ((off - 0x1000) / 64) ((off - 0x1000) % 64) v
      else if 0x8000 ≤ off ∧ off < 0x10000 then some (s.modIo fun d => { d with mbox := bytesPut d.mbox (off - 0x8000) (wordBytes v) })
      else none

/-- CONTROL_REGISTER_WRITE; a write of SY_SEM judges by itself whose it is (R390, R391, R393). (DEDUCED, log entry 67.) -/
def execControlRegisterWrite (s : State) : Answer :=
  .next (if s.occ.n = 0 then
      (if reaches s s.occ.who then s.modSem fun m => m.write (requester s.occ.who) s.occ.value else s)
    else if !performs s s.occ.who then
      (if s.occ.n = 0x28 ∧ s.occ.who = 2 ∧ reaches s 2 then writePwrlim s s.occ.value else s)
    else match writeCtl s s.occ.n s.occ.value with
      | some t => renewed t
      | none => s)

/-- PORTST (R390). -/
def IoDie.portst (d : IoDie) : Word :=
  let b (p : Port) : Nat := (if p.expander then 1 else 0) + (if p.link then 2 else 0) + if p.iso then 4 else 0
  BitVec.ofNat 64 (b d.port0 + 256 * b d.port1)

/-- A queue control block as it reads (R321). -/
def readQueueReg (k : Queue) (off : Nat) : Word :=
  match off with
  | 0x00 => k.base
  | 0x08 => k.ctl
  | 0x10 => BitVec.ofNat 64 k.head
  | 0x18 => BitVec.ofNat 64 k.tail
  | 0x20 => k.wdog
  | 0x28 => k.fault
  | 0x30 => BitVec.ofNat 64 k.seq
  | _ => 0

/-- What the control window reads as; every reader may read it (R390). -/
def readCtl (s : State) (off : Nat) : Word :=
  match off with
  | 0x00 => s.io.sem.word
  | 0x08 => s.io.serviceLevel
  | 0x10 => s.io.portst
  | 0x18 => s.io.pool
  | 0x20 => BitVec.ofNat 64 (s.io.idcmd * 2 ^ 24)
  | 0x28 => BitVec.ofNat 64 s.io.pwrlim
  | _ =>
    if 0x400 ≤ off ∧ off < 0x400 + 8 * 112 then (s.core ((off - 0x400) / 8)).trapvec
    else if 0x1000 ≤ off ∧ off < 0x3000 then readQueueReg (s.queue ((off - 0x1000) / 64)) ((off - 0x1000) % 64)
    else if 0x8000 ≤ off ∧ off < 0x10000 then BitVec.ofNat 64 (bytesNat ((s.io.mbox.drop (off - 0x8000)).take 8))
    else 0

/-! Host memory traffic and the expander (R386, R388). -/

/-- A port that holds lines of the device's memory, after its read or write (R386). -/
def Mem.hold (m : Mem) (port : Nat) (lines : List Nat) (keeps : Bool) : Mem :=
  { m with held := lines.foldl (fun h l => if keeps then tset l port h else if tget 2 l h = port then tdel l h else h) m.held }

/-- HOST_CXL_MEM_REQUEST: a read is answered with the bytes and their poison; writes to a sealed extent are discarded and logged.
A flag says that the host holds the lines from then on (R296, R386). (DEDUCED, log entry 68.) -/
def execHostCxlMemRequest (s : State) : Answer :=
  let a := s.occ.n
  let who := s.occ.who
  let n := match s.occ.data with
    | none => s.occ.k
    | some bs => bs.length
  if !reaches s who || who == 2 || n == 0 then .next s
  else if !homeHas a n then .fault .noMemory
  else
    let hold (s : State) (keeps : Bool) : State := { s with mem := s.mem.hold who (linesOf a n) keeps }
    match s.occ.data with
    | none =>
      let ans : HostAnswer := ⟨who, physRead s a n 0, (linesOf a n).filter fun l => physQuality s (64 * l) 64 != .clean⟩
      .next ((if s.occ.flag then hold s true else s).modIo fun d => { d with answers := d.answers ++ [ans] })
    | some bs =>
      if inSealed s a n then .next (denyPush s (denyEntry kStore 0 0 0 0 (a / 65536)))
      else
        let s := physWrite (hold s false) a bs 0
        .next (if s.occ.flag then hold s true else s)

/-- A copy command whose expander read timed out: its first elements took effect, and it ends TIMEOUT (R219, R388). -/
def copyTimeout (s : State) (ctxn k upto : Nat) : State :=
  match tfind ctxn s.triads with
  | none => s
  | some t => match (t.chan k).cmd with
    | none => s
    | some c =>
      if copyHeld s t.core c || c.ended then s
      else
        let b := copyBody c.op c.hdr (c.eng s t.core ⟨ctxn, c.role⟩ s.occ.env)
        let r := runElems b.1.2 b.2.1 (min upto b.1.1 - c.prog) c.prog c.missed b.2.2
        if r.e.short || r.e.full || r.e.fault.isSome then s
        else
          let w := copySave ctxn k t.core c r
          let c := { w.2 with ended := true, met := stTimeout :: w.2.met }
          if engineUnacked w.1 c.order then w.1.modChan ctxn k fun ch => { ch with cmd := some c }
          else copyFinish w.1 ctxn k c

/-- EXPANDER_READ_TIMEOUT: the port is isolated; where flag says that the read was a copy command's, that command ends
(R388). -/
def execExpanderReadTimeout (s : State) : Answer :=
  let p := s.occ.n % 2
  .next (if !(s.io.port p).expander || (s.io.port p).iso then s
    else
      let s := if s.occ.flag then copyTimeout s s.occ.k s.occ.j s.occ.value.toNat else s
      s.modIo fun d => d.setPort p { d.port p with iso := true })

/-! Bring-up, attestation, power and temperature (R28, R387, R394 to R398). -/

/-- The device after a reset: registers and units in their reset state, the ports in the modes of their straps; what memory
holds stays, and so do the inputs that wait (R387). (DESIGN CHOICE, log entry 69.) -/
def resetDevice (s : State) (exp0 exp1 : Bool) : State :=
  { State.reset with
    mem := { s.mem with held := [], recalls := [] }
    io := { IoDie.init with
      port0 := { Port.init with expander := exp0 }
      port1 := { Port.init with expander := exp1 }
      code := if exp0 && exp1 then 3 else 0 }
    agenda := s.agenda, fresh := s.fresh, serial := s.serial }

/-- DEVICE_RESET (R387). (DESIGN CHOICE, log entries 7, 69; DEDUCED, log entry 70.) -/
def execDeviceReset (s : State) : Answer := .next (resetDevice s s.occ.flag s.occ.flag2)

/-- Extends a measurement register by an item (R396). (DEDUCED, log entry 72.) -/
def extendMr (mr item : List Byte) : List Byte := shake256 64 (mr ++ shake256 64 item)

/-- Items are measured one after the other, each into a register: a part names the register, and eight times the item's length. -/
def measure : List Nat → List Byte → List (List Byte) → List (List Byte)
  | [], _, mrs => mrs
  | p :: ps, bs, mrs => measure ps (bs.drop (p / 8)) (lset (p % 8) (extendMr (mrs.getD (p % 8) []) (bs.take (p / 8))) mrs)

/-- Whether the boot ROM accepts an image: the public key has the digest that the fuses hold, and the signature over the image
holds (R396). Its key and its signature stand before the image's own bytes in a package. -/
def imageHolds (key sig image : List Byte) : Bool :=
  key.length == 64 && sig.length == 29792 && bytesNat (shake256 32 key) == Config.keyDigest && Config.slhVerify key sig image

/-- FIRMWARE_VERIFY: stage 1 with an attestation key of this boot, or stage 0 with CODE 1. The data are the public key, its
signature and the image; what the firmware measures comes with it (R396). (DEDUCED, log entry 72.) -/
def execFirmwareVerify (s : State) : Answer :=
  let d := s.occ.data.getD []
  .next (if s.io.stage ≠ 0 ∨ s.io.code ≠ 0 ∨ s.io.power ≠ 0 then s
    else if !imageHolds (d.take 64) ((d.drop 64).take 29792) (d.drop 29856) then s.modIo fun d => { d with code := 1 }
    else { s.modIo fun d => { d with
        stage := 1
        attest := (Config.freeValue s.fresh).toNat
        mrs := measure s.occ.env.parts s.occ.env.data d.mrs } with fresh := s.fresh + 1 })

/-- REDUCED_SERVICE_START: stage 2, at 750 MHz and half rate (R395). -/
def execReducedServiceStart (s : State) : Answer :=
  .next (if s.io.stage = 1 ∧ s.io.code = 0 then s.modIo fun d => { d with stage := 2, clock := 8, hbmFull := false } else s)

/-- HBM_TRAINING_FAILED (R394). -/
def execHbmTrainingFailed (s : State) : Answer :=
  .next (if s.io.stage = 1 ∨ s.io.stage = 2 then s.modIo fun d => { d with code := 2 } else s)

/-- FULL_RATE_TRAINING_COMPLETE: where the flag names stacks, those train; else the rest have, and the other dies' bind maps are
complete. Admission pauses once all is complete (R394, R395). (DEDUCED, log entry 71.) -/
def execFullRateTrainingComplete (s : State) : Answer :=
  .next (if s.io.stage = 2 ∧ s.io.code = 0 then
      (if s.occ.flag then s.modIo fun d => { d with trained := d.trained ||| (s.occ.n % 256) }
       else s.modIo fun d => { d with trained := 255, admitPaused := true })
    else s)

/-- Whether no gang is resident (R395, R397). (DEDUCED, log entry 57.) -/
def noneResident (s : State) : Bool := s.gangs.isEmpty

/-- FULL_SERVICE_START: stage 3, and admission resumes (R395). (DEDUCED, log entry 71.) -/
def execFullServiceStart (s : State) : Answer :=
  .next (if s.io.stage = 2 ∧ s.io.trained = 255 ∧ s.io.admitPaused ∧ s.io.code = 0 ∧ noneResident s then
      s.modIo fun d => { d with stage := 3, clock := 16, hbmFull := true, admitPaused := false }
    else s)

/-- A step of 93.75 MHz down, never below 750 MHz (R28). -/
def IoDie.slower (d : IoDie) : IoDie := { d with clock := max 8 (d.clock - 1) }

/-- POWER_LIMIT_THROTTLE (R28). -/
def execPowerLimitThrottle (s : State) : Answer := .next (s.modIo IoDie.slower)

/-- THERMAL_THROTTLE (R28, R398). -/
def execThermalThrottle (s : State) : Answer := .next (s.modIo fun d => d.slower)

/-- THERMAL_TRIP: every invocation ends KILLED and the device halts (R398). -/
def execThermalTrip (s : State) : Answer :=
  .next (if s.io.power = 2 ∨ s.io.stage = 4 then s
    else
      let es := s.entries.map (·.1)
      let s := { s with entries := s.entries.map fun (e : Nat × Entry) => (e.1, { e.2 with dropped := true }) }
      let s := (s.gangs.map (·.1)).foldl killGang s
      let s := es.foldl finishInvocation s
      s.modIo fun d => { d with stage := 4, code := 4, fatal := true })

/-- D3HOT_ENTRY: only with no gang resident; everything keeps its value (R397). -/
def execD3hotEntry (s : State) : Answer :=
  .next (if s.io.power = 0 ∧ noneResident s then s.modIo fun d => { d with power := 1 } else s)

/-- D3HOT_EXIT (R397). -/
def execD3hotExit (s : State) : Answer := .next (if s.io.power = 1 then s.modIo fun d => { d with power := 0 } else s)

/-- Memory behind the host ports, which is not the device's own. -/
def outsideMem (m : Mem) : Mem :=
  { cells := m.cells.filter fun c => (portOf c.1).isSome
    pois := m.pois.filter fun l => (portOf (64 * l)).isSome
    ue := []
    keyed := m.keyed.filter fun l => (portOf (64 * l.1)).isSome
    held := []
    recalls := [] }

/-- POWER_REMOVAL: in D3cold all state is lost, and only a reset leads back (R397). (DESIGN CHOICE, log entry 69.) -/
def execPowerRemoval (s : State) : Answer :=
  .next { State.reset with
    mem := outsideMem s.mem, io := { IoDie.init with power := 2 }, agenda := s.agenda, fresh := s.fresh, serial := s.serial }

/-- What a quote signs: the nonce, MR0 to MR7, SERVICE_LEVEL and SY_IDTAB.PORT, in that order (R396). (DEDUCED, log entry 72.) -/
def quoted (d : IoDie) (nonce : BitVec 256) (port : Nat) : List Byte :=
  natBytes 32 nonce.toNat ++ d.mrs.flatten ++ wordBytes d.serviceLevel ++ [BitVec.ofNat 8 port]

/-- ATTESTATION_QUOTE: the nonce stands in MBOX, with the signature of 49,856 bytes and both certificates after it (R396).
(DEDUCED, log entry 72.) -/
def execAttestationQuote (s : State) : Answer :=
  .next (if s.io.stage = 0 ∨ !reaches s s.occ.who then s
    else s.modIo fun d => { d with
      mbox := natBytes 32 s.occ.nonce.toNat ++ natBytes 49856 (Config.sign d.attest (quoted d s.occ.nonce s.fab.idtab.port)) ++
        Config.attestCert d.attest ++ Config.identityCert })

end Sys2Proof.Machine
end

