-- ==== Sys2Proof/Machine/Pages.lean ====
section
/-! DEFINITION. XPROBE, XINV and XINVALL (R279, R280). -/

namespace Sys2Proof.Machine

/-! XPROBE. -/

/-- The access that ACC names (R279). -/
def probeAcc (f : FmtA) : Acc :=
  match f.opv.toNat % 4 with
  | 0 => .ld
  | 1 => .st
  | 2 => .rmw
  | _ => .fetch

/-- The leaf that serves va, when one is reached and is no bad entry: level, entry and the physical address (R275, R279). -/
def probeLeaf (s : State) (core : Nat) (c : Cred) (va : Nat) : Option (Nat × Nat × Nat) :=
  match (lookup s core c va).1 with
  | .fault _ => none
  | .leaf lvl e =>
    if entMig e = 1 then
      (migRecord s c.ptkey (nbits e 16 28 * 256)).map fun r => (lvl, e, r.1 + va % 2 ^ pageShift lvl)
    else some (lvl, e, nbits e 16 36 * 65536 + va % 2 ^ pageShift lvl)

/-- OK and CAUSE of a probe (R276, R279). (DEDUCED, log entry 34.) -/
def probeHead (cause : Option Nat) : Nat :=
  match cause with
  | none => 2 ^ 63
  | some c => c * 2 ^ 60

/-- SIZE, MIG, P, X, W and PA of a leaf (R279). (DEDUCED, log entry 34.) -/
def probeBody (priv : Bool) (x : Nat × Nat × Nat) : Nat :=
  (x.1 - 1) * 2 ^ 58 + entMig x.2.1 * 2 ^ 56 + (if entP x.2.1 then 2 ^ 55 else 0) + (if entX x.2.1 then 2 ^ 54 else 0) +
    (if entW x.2.1 then 2 ^ 53 else 0) + (if priv then x.2.2 else 0)

/-- XPROBE: what an access would meet (R279). (DEDUCED, log entry 34.) -/
def execXprobe (f : FmtA) (s : State) : Answer :=
  let a := s.x f.xa + sext16 f.imm16
  .next (match classify a with
    | .noncanon => s.done f.xd (BitVec.ofNat 64 (probeHead (some 5)))
    | .atlas t =>
      s.done f.xd (BitVec.ofNat 64 (probeHead (if atlasFault s s.tr.tag t then some 7 else none) + 3 * 2 ^ 58 + t))
    | .virt va =>
      let leaf := probeLeaf s s.tr.core s.cred va
      let r := translate s s.tr.core s.cred va (probeAcc f) false
      let cause : Option Nat := match r.1 with
        | .fault c => some c
        | .ok _ _ _ denied _ _ => if denied then some 6 else none
      let body := match leaf with
        | none => 0
        | some x => probeBody s.th.priv x
      r.2.done f.xd (BitVec.ofNat 64 (probeHead cause + body)))

/-! XINV and XINVALL. -/

/-- The cores that a scope names, seen from a core: CORE, DIE, DEVICE (R280). -/
def inScope (scope core other : Nat) : Bool :=
  match scope with
  | 1 => other == core
  | 2 => dieOf other == dieOf core
  | _ => true

/-- Scopes that XINV and XINVALL take (R280). -/
def invScope (scope : Nat) : Bool := scope == 1 || scope == 2 || scope == 3

/-- Whether an access went through an entry that a drop removed: the core and the ASID of its translation (R280). -/
def dropsVia (core scope : Nat) (asid : Option Nat) (via : Option (Nat × Nat)) : Bool :=
  via.any fun v => inScope scope core v.1 && (asid.isNone || asid == some v.2)

/-- Remote writes in flight through dropped entries, by their numbers; an abandoned write no longer is (R377). -/
def dropWrites (s : State) (core scope : Nat) (asid : Option Nat) : List Nat :=
  (s.fab.replay.filter fun r => !r.abandoned && dropsVia core scope asid r.via).map (·.num)

/-- Accepted bank commands that were made through dropped entries, by order. -/
def dropBank (s : State) (core scope : Nat) (asid : Option Nat) : List Nat :=
  (s.bank.filter fun c => dropsVia core scope asid (some (c.core, c.asid))).map (·.order)

/-- Reads in flight through dropped entries, by their numbers. -/
def readsThrough (s : State) (core scope : Nat) (asid : Option Nat) : List Nat :=
  (s.fab.reads.filter fun r => dropsVia core scope asid r.via).map (·.num)

/-- Whether any of the accesses that a drop waits for is still in flight. (DEDUCED, log entry 35.) -/
def dropPending (s : State) (ws bank reads : List Nat) : Bool :=
  s.fab.replay.any (fun r => !r.abandoned && ws.contains r.num) ||
    s.bank.any (fun c => bank.contains c.order) || s.fab.reads.any (fun r => reads.contains r.num)

/-- Drops the cached entries of every core in scope that meet a test. -/
def dropScope (s : State) (core scope : Nat) (p : Tlb → Bool) : State :=
  { s with cores := s.cores.map fun k =>
    if inScope scope core k.1 then (k.1, { k.2 with tlb := k.2.tlb.filter fun t => !p t }) else k }

/-- The wait for earlier stores, the drop, and the wait for accesses made through dropped entries (R280). (DEDUCED, log entry 12.) -/
def State.invalidate (s : State) (scope : Nat) (asid : Option Nat) (p : Tlb → Bool) : State :=
  match s.th.stall with
  | some (.xinv ws bs rs) => if dropPending s ws bs rs then s else s.advance
  | _ =>
    if unacked s s.cur then s.stallOn (.drain 15)
    else
      let core := s.tr.core
      let ws := dropWrites s core scope asid
      let bs := dropBank s core scope asid
      let rs := readsThrough s core scope asid
      let s := dropScope s core scope p
      if dropPending s ws bs rs then s.stallOn (.xinv ws bs rs) else s.advance

/-- Whether a cached leaf's page contains va (R280). -/
def Tlb.covers (t : Tlb) (asid va : Nat) : Bool :=
  t.asid == asid && entL t.ent.toNat && decide (va < 2 ^ 57) && t.page == va / 2 ^ pageShift t.level

/-- XINV (R280). The option WALK drops cached pointers of the ASID. (DEDUCED, log entry 35.) -/
def execXinv (f : FmtA) (s : State) : Answer :=
  let scope := f.opv.toNat % 8
  let asid := (s.x f.xb).toNat % 4096
  let va := (s.x f.xa + sext16 f.imm16).toNat
  let walk := f.opv.toNat / 8 % 2 == 1
  .next (if !s.th.priv then s.trapPriv
    else if !invScope scope then s.trapDecode
    else s.invalidate scope (some asid) fun t =>
      t.covers asid va || (walk && decide (va < 2 ^ 57) && t.asid == asid && !entL t.ent.toNat))

/-- XINVALL (R280). (DEDUCED, log entry 35.) -/
def execXinvall (f : FmtY) (s : State) : Answer :=
  let all := f.fn == 1#32
  let asid := (s.x f.xa).toNat % 4096
  .next (if !s.th.priv then s.trapPriv
    else if !invScope f.scope.toNat then s.trapDecode
    else s.invalidate f.scope.toNat (if all then none else some asid) fun t => all || t.asid == asid)

end Sys2Proof.Machine
end

