-- ==== Sys2Proof/Machine/ScalarFp.lean ====
section
/-! DEFINITION. The scalar floating-point instructions: R114 to R117. -/

namespace Sys2Proof.Machine

/-- The format of a scalar floating-point type code. -/
def fpFmt (t : BitVec 4) : Fmt := (fmtOfT t.toNat).getD .fp32

/-- The mode of the RM field; 7 means RNE (R114). -/
def fpMode (f : FmtA) : RMode := (rmodeOfCode (fpRm f)).getD .rne

/-- The rounding context of a scalar word: SAT and FTZ from its fields, seed select 0 (R114, R115). -/
def State.fpCtx (s : State) (f : FmtA) : RCtx :=
  ⟨fpMode f, fpSat f, fpFtz f, low32 s.tr.seed 0 0 s.tr.sn⟩

/-- The bits of format T in a scalar register (R115). -/
def fpBits (t : BitVec 4) (v : Word) : Nat := v.toNat % 2 ^ (fpFmt t).width

/-- A source operand after DAZ (R46, R115). -/
def State.fpVal (s : State) (f : FmtA) (n : BitVec 6) : Val := plainVal (fpFmt f.t) (fpDaz f) (fpBits f.t (s.x n))

/-- The end of a scalar floating-point instruction: xd written, SN advanced under SR, events merged (R50, R57, R59). -/
def State.fpDone (s : State) (f : FmtA) (sr : Bool) (bits : Nat) (ev : Ev) : State :=
  let s := s.setX f.xd (BitVec.ofNat 64 bits)
  let s := if sr then s.bumpSn 1 else s
  s.finish (Evs.none.add ev 0)

/-- An instruction whose rounding field may select SR: only the computer may issue it then (R45). -/
def State.fpIssue (s : State) (f : FmtA) (k : State) : State :=
  if fpRm f = 5 ∧ s.cur.role ≠ .computer then s.trapDecode else k

/-- A rounded scalar result (R115). -/
def State.fpRound (s : State) (f : FmtA) (x : Val × Ev) : State :=
  let r := roundTo (fpFmt f.t) (s.fpCtx f) x.1
  s.fpIssue f (s.fpDone f (fpRm f == 5) r.1 (x.2 ||| r.2))

/-- FADD: a + b (R115). -/
def execFadd (f : FmtA) (s : State) : Answer := .next (s.fpRound f (addV (fpMode f) (s.fpVal f f.xa) (s.fpVal f f.xb)))

/-- FSUB: a − b (R115). -/
def execFsub (f : FmtA) (s : State) : Answer :=
  .next (s.fpRound f (addV (fpMode f) (s.fpVal f f.xa) (s.fpVal f f.xb).negate))

/-- FMUL: a × b (R115). -/
def execFmul (f : FmtA) (s : State) : Answer := .next (s.fpRound f (mulV (s.fpVal f f.xa) (s.fpVal f f.xb)))

/-- FDIV: a / b (R115). -/
def execFdiv (f : FmtA) (s : State) : Answer := .next (s.fpRound f (divV (s.fpVal f f.xa) (s.fpVal f f.xb)))

/-- FSQRT: √a (R115). -/
def execFsqrt (f : FmtA) (s : State) : Answer := .next (s.fpRound f (sqrtV (s.fpVal f f.xa)))

/-- FFMA: a × b + c, rounded once (R115). -/
def execFfma (f : FmtA) (s : State) : Answer :=
  .next (s.fpRound f (fmaV (fpMode f) (s.fpVal f f.xa) (s.fpVal f f.xb) (s.fpVal f f.xc)))

/-- FMIN and FMAX: a source's bits or the canonical NaN (R115). -/
def State.fpSelect (s : State) (f : FmtA) (isMax : Bool) : State :=
  let r := selMinMax (fpFmt f.t) isMax (fpSub f == 1) (s.fpVal f f.xa) (s.fpVal f f.xb) (fpBits f.t (s.x f.xa))
    (fpBits f.t (s.x f.xb))
  s.fpIssue f (s.fpDone f (fpRm f == 5) r.1 r.2)

/-- FMIN (R115). -/
def execFmin (f : FmtA) (s : State) : Answer := .next (s.fpSelect f false)

/-- FMAX (R115). -/
def execFmax (f : FmtA) (s : State) : Answer := .next (s.fpSelect f true)

/-- A floating-point comparison by code: 0 eq, 1 lt, 2 le, 3 un, 4 ne; its truth and its events (R116). -/
def fpCompare (sub : Nat) (a b : Val) : Bool × Ev :=
  let un := a.isNan || b.isNan
  let o := cmpV a b
  let iv : Bool := if sub = 1 ∨ sub = 2 then un else a.isSig || b.isSig
  let r : Bool := match sub with
    | 0 => !un && o == .eq
    | 1 => !un && o == .lt
    | 2 => !un && o != .gt
    | 3 => un
    | _ => un || o != .eq
  (r, if iv then evIV else 0)

/-- FCMP (R116). -/
def execFcmp (f : FmtA) (s : State) : Answer :=
  let r := fpCompare (fpSub f) (s.fpVal f f.xa) (s.fpVal f f.xb)
  .next (s.fpDone f false (if r.1 then 1 else 0) r.2)

/-- FCLASS: a one-hot class; no event, DAZ ignored (R116). -/
def execFclass (f : FmtA) (s : State) : Answer :=
  .next (s.fpDone f false (classOf (fpFmt f.t) (.pow 0) (fpBits f.t (s.x f.xa))) 0)

/-- FSGN: a's bits with another sign; under DAZ a subnormal a is read as a zero (R46, R116). (DEDUCED, log entry 50.) -/
def execFsgn (f : FmtA) (s : State) : Answer :=
  let fm := fpFmt f.t
  let sb := 2 ^ fm.signBit
  let a := fpBits f.t (s.x f.xa)
  let b := fpBits f.t (s.x f.xb)
  let sa := a / sb % 2
  let sbit := b / sb % 2
  let mag := if fpDaz f && subnormalCode fm a then 0 else a % sb
  let sign := match fpSub f with
    | 0 => sbit
    | 1 => 1 - sbit
    | _ => (sa + sbit) % 2
  .next (s.fpDone f false (sign * sb + mag) 0)

/-- FCVT: from the type T to the type of imm16[3:0] (R117). -/
def execFcvt (f : FmtA) (s : State) : Answer :=
  let u := BitVec.ofNat 4 f.imm16.toNat
  let v := s.fpVal f f.xa
  let r := roundTo (fpFmt u) (s.fpCtx f) v
  let bits := if u.toNat ≤ 7 then (extT u r.1).toNat else r.1
  .next (s.fpIssue f (s.fpDone f (fpRm f == 5) bits (sigEv [v] ||| r.2)))

end Sys2Proof.Machine
end

