-- ==== Sys2Proof/Machine/Sync.lean ====
section
/-! DEFINITION. Stream order, fences and named barriers (R245 to R249, R255 to R259). -/

namespace Sys2Proof.Machine

/-! Fences. -/

/-- The end of a FENCE whose thread's remote stores have all been acknowledged or abandoned (R248).
(DESIGN CHOICE, log entry 8; DEDUCED, log entry 12.) -/
def State.fence (s : State) (f : FmtY) : State :=
  if unacked s s.cur then s.stallOn (.fence f)
  else (fenceEnd s s.cur).done f.xd (BitVec.ofNat 64 (fenceStatus s s.cur))

/-- FENCE (R248, R249). -/
def execFence (f : FmtY) (s : State) : Answer :=
  .next (if scopeBank f.scope.toNat then s.trapDecode else s.fence f)

/-- FENCE_RELEASE: the current thread's FENCE ends when no remote store of it is outstanding (R249). -/
def execFenceRelease (s : State) : Answer :=
  .next (match s.th.stall with
    | some (.fence f) => s.fence f
    | _ => s)

/-- SBAR: later accesses wait until the earlier ones of the named streams are performed (R245). (DEDUCED, log entry 12.) -/
def execSbar (f : FmtY) (s : State) : Answer :=
  .next (if scopeBank f.scope.toNat then s.trapDecode
    else if unackedIn s s.cur (f.imm8.toNat % 16) then s.stallOn (.drain (f.imm8.toNat % 16))
    else s.advance)

/-! Barrier cells. -/

/-- The number and state of the cell that a gang has bound to a name on a core (R255). -/
def cellOf (s : State) (core gang name : Nat) : Option (Nat × Cell) :=
  (s.core core).cells.find? fun p => p.2.gang == gang && p.2.name == name

/-- The cell of a name for the current thread. -/
def State.cell (s : State) (name : Nat) : Option (Nat × Cell) := cellOf s s.tr.core s.tr.gang name

/-- The lowest of the 256 cells that is free (R255). -/
def freeCell (k : Core) : Option Nat := (nrange 0 256).find? fun i => (tfind i k.cells).isNone

/-- A core with a cell changed. -/
def State.setCell (s : State) (i : Nat) (c : Cell) : State := s.modCore s.tr.core fun k => { k with cells := tset i c k.cells }

/-- Whether a role waits on a cell. -/
def waitsOn (r : RoleState) (i : Nat) : Bool :=
  match r.stall with
  | some (.barrier c _ _ _) => c == i
  | _ => false

/-- Whether any thread of a gang on a core waits on a cell. -/
def anyWaiter (s : State) (core gang i : Nat) : Bool :=
  s.triads.any fun p => p.2.core == core && p.2.gang == gang && roles.any fun r => waitsOn (p.2.role r) i

/-- What the barrier instructions write: a phase and a status (R256). -/
def phaseWord (p status : Nat) : Word := BitVec.ofNat 64 (p * 256 + status)

/-- `arrive(cell)` of R258: the phase that the arrival joins, and the cell after it. -/
def Cell.arrive (c : Cell) : Nat × Cell :=
  (c.phase, if (c.arrived + 1) % 4096 = c.expect then { c with arrived := 0, phase := (c.phase + 1) % 65536 }
    else { c with arrived := (c.arrived + 1) % 4096 })

/-- `passed(p)` of R258. -/
def Cell.passed (c : Cell) (p : Nat) : Bool :=
  let d := (c.phase + 65536 - p % 65536) % 65536
  decide (1 ≤ d) && decide (d ≤ 32767)

/-- Changes the current thread's cell, writes the phase and status and goes on. -/
def State.phaseDone (s : State) (xd : BitVec 6) (p status : Nat) : State := s.done xd (phaseWord p status)

/-- BINIT by the table of R257. -/
def execBinit (f : FmtY) (s : State) : Answer :=
  let c := (s.x f.xa).toNat
  let name := f.imm8.toNat
  .next (if 4095 < c then s.phaseDone f.xd 0 stRange
    else match s.cell name with
      | none =>
        if c = 0 then s.phaseDone f.xd 0 stDone
        else match freeCell (s.core s.tr.core) with
          | some i => (s.setCell i ⟨s.tr.gang, name, c, 0, 0⟩).phaseDone f.xd 0 stDone
          | none => s.phaseDone f.xd 0 stRange
      | some (i, cell) =>
        if c = 0 then
          if cell.arrived = 0 ∧ !anyWaiter s s.tr.core s.tr.gang i then
            (s.modCore s.tr.core fun k => { k with cells := tdel i k.cells }).phaseDone f.xd cell.phase stDone
          else s.phaseDone f.xd cell.phase stRange
        else if cell.expect = c then s.phaseDone f.xd cell.phase stDone
        else if cell.arrived = 0 then (s.setCell i { cell with expect := c }).phaseDone f.xd cell.phase stDone
        else s.phaseDone f.xd cell.phase stRange)

/-- The trap of a name that the gang has not bound (R256). -/
def State.trapBarrier (s : State) : State := s.trap cBARRIER 2 0 0

/-- BARRIVE: an arrival without a wait (R258). -/
def execBarrive (f : FmtY) (s : State) : Answer :=
  .next (match s.cell f.imm8.toNat with
    | none => s.trapBarrier
    | some (i, c) => (s.setCell i c.arrive.2).phaseDone f.xd c.arrive.1 stDone)

/-- The wait for a phase: it ends at once when the phase has passed, else the role stalls (R258). -/
def State.awaitPhase (s : State) (i p : Nat) (xd : BitVec 6) (peer : Bool) : State :=
  match tfind i (s.core s.tr.core).cells with
  | none => s.trapBarrier
  | some c =>
    if c.passed p then s.phaseDone xd c.phase (if peer then stPeerLost else stDone)
    else s.stallOn (.barrier i p xd.toNat peer)

/-- The continuation of a wait that a trap had stopped (R354). -/
def State.resumedWait (s : State) : Option Resume := s.th.resume.filter (·.cont)

/-- Whether an instruction goes on with CONT while its triad does not own its slot: it is then a vector instruction (R358). -/
def State.foreignResume (s : State) : Bool := s.resumedWait.isSome && !s.ownsVec

/-- BSYNC (R258): a resumed one neither arrives again nor reads its target again. -/
def execBsync (f : FmtY) (s : State) : Answer :=
  .next (if s.foreignResume then s.trap cVSWITCH 0 0 0
    else match s.cell f.imm8.toNat with
    | none => s.trapBarrier
    | some (i, c) =>
      match s.resumedWait with
      | some m => s.awaitPhase i m.phase f.xd m.fpeer
      | none =>
        if f.fn = 1#32 then s.awaitPhase i ((s.x f.xa).toNat % 65536) f.xd false
        else (s.setCell i c.arrive.2).awaitPhase i c.arrive.1 f.xd false)

/-- VFBAR (R258): the name is checked first, then the fence, then the arrival, then the wait. -/
def execVfbar (f : FmtY) (s : State) : Answer :=
  .next (if scopeBank f.scope.toNat then s.trapDecode
    else if s.foreignResume then s.trap cVSWITCH 0 0 0
    else match s.cell f.imm8.toNat with
      | none => s.trapBarrier
      | some (i, c) =>
        match s.resumedWait with
        | some m => s.awaitPhase i m.phase f.xd m.fpeer
        | none =>
          if unacked s s.cur then s.stallOn (.drain 15)
          else
            let peer := lostStores s s.cur
            let s := (fenceEnd s s.cur).setCell i c.arrive.2
            if f.fn = 1#32 then s.awaitPhase i c.arrive.1 f.xd peer
            else s.phaseDone f.xd c.arrive.1 (if peer then stPeerLost else stDone))

/-- BARRIER_WAIT_RELEASE: the current thread's wait ends when its phase has passed (R258). -/
def execBarrierWaitRelease (s : State) : Answer :=
  .next (match s.th.stall with
    | some (.barrier i p xd peer) => s.awaitPhase i p (BitVec.ofNat 6 xd) peer
    | _ => s)

/-! Deadlock. -/

/-- A thread's wait on a barrier: the cell and the phase. -/
def waitOf (r : RoleState) : Option (Nat × Nat) :=
  match r.stall with
  | some (.barrier i p _ _) => some (i, p)
  | _ => none

/-- Whether the threads of a gang on a core can never go on (R259): each has ended or waits, at least one waits, no phase
that one waits for has passed, and no copy command of theirs is in flight. -/
def deadlocked (s : State) (core gang : Nat) : Bool :=
  let ts := (s.triads.filter fun p => p.2.core == core && p.2.gang == gang).map (·.2)
  ts.all (fun t => t.trapper.isNone && !t.parked && t.chans.all (fun c => c.2.cmd.isNone) &&
    roles.all fun r => (t.role r).ended || (match waitOf (t.role r) with
      | some (i, p) => ((tfind i (s.core core).cells).map fun c => !c.passed p).getD false
      | none => false)) &&
    ts.any fun t => roles.any fun r => !(t.role r).ended

/-- Every waiting role of a triad traps BARRIER; on return its wait goes on without a new arrival (R259, R354). -/
def trapWaiters (s : State) (ctxn : Nat) : State :=
  takeTrap (roles.foldl (fun s r =>
    let rs := (s.triad ctxn).role r
    match waitOf rs with
    | some (_, p) => postTrap s ⟨ctxn, r⟩ { cls := cBARRIER, sub := 2, elem := p, resume := rs.pc }
    | none => s) s) ctxn

/-- BARRIER_DEADLOCK: every gang on the core whose waits can never end traps (R259). -/
def execBarrierDeadlock (s : State) : Answer :=
  let core := s.occ.n
  let dead (s : State) (c : Nat) : Bool :=
    match tfind c s.triads with
    | some t => t.core == core && deadlocked s core t.gang
    | none => false
  let stuck := (s.triads.map (·.1)).filter (dead s)
  .next (stuck.foldl trapWaiters s)

end Sys2Proof.Machine
end

