-- ==== Sys2Proof/Machine/Dispatch.lean ====
section
/-! DEFINITION. The meaning of every row of the opcode table: one arm per constructor, each one call of that row's meaning. -/

namespace Sys2Proof.Machine

def exec (i : Instr) (s : State) : Host.Outcome State Fault Refusal :=
  match i with
  | .add f => Sys2Proof.Machine.execAdd f s
  | .sub f => Sys2Proof.Machine.execSub f s
  | .mul f => Sys2Proof.Machine.execMul f s
  | .mulh f => Sys2Proof.Machine.execMulh f s
  | .div f => Sys2Proof.Machine.execDiv f s
  | .rem f => Sys2Proof.Machine.execRem f s
  | .and f => Sys2Proof.Machine.execAnd f s
  | .or f => Sys2Proof.Machine.execOr f s
  | .xor f => Sys2Proof.Machine.execXor f s
  | .shl f => Sys2Proof.Machine.execShl f s
  | .shr f => Sys2Proof.Machine.execShr f s
  | .sra f => Sys2Proof.Machine.execSra f s
  | .rotl f => Sys2Proof.Machine.execRotl f s
  | .min f => Sys2Proof.Machine.execMin f s
  | .max f => Sys2Proof.Machine.execMax f s
  | .cmp f => Sys2Proof.Machine.execCmp f s
  | .sel f => Sys2Proof.Machine.execSel f s
  | .clz f => Sys2Proof.Machine.execClz f s
  | .ctz f => Sys2Proof.Machine.execCtz f s
  | .popc f => Sys2Proof.Machine.execPopc f s
  | .bext f => Sys2Proof.Machine.execBext f s
  | .bins f => Sys2Proof.Machine.execBins f s
  | .lea f => Sys2Proof.Machine.execLea f s
  | .addi f => Sys2Proof.Machine.execAddi f s
  | .andi f => Sys2Proof.Machine.execAndi f s
  | .ori f => Sys2Proof.Machine.execOri f s
  | .xori f => Sys2Proof.Machine.execXori f s
  | .shli f => Sys2Proof.Machine.execShli f s
  | .shri f => Sys2Proof.Machine.execShri f s
  | .srai f => Sys2Proof.Machine.execSrai f s
  | .cmpi f => Sys2Proof.Machine.execCmpi f s
  | .movhi f => Sys2Proof.Machine.execMovhi f s
  | .movi f => Sys2Proof.Machine.execMovi f s
  | .fadd f => Sys2Proof.Machine.execFadd f s
  | .fsub f => Sys2Proof.Machine.execFsub f s
  | .fmul f => Sys2Proof.Machine.execFmul f s
  | .fdiv f => Sys2Proof.Machine.execFdiv f s
  | .fsqrt f => Sys2Proof.Machine.execFsqrt f s
  | .ffma f => Sys2Proof.Machine.execFfma f s
  | .fmin f => Sys2Proof.Machine.execFmin f s
  | .fmax f => Sys2Proof.Machine.execFmax f s
  | .fcmp f => Sys2Proof.Machine.execFcmp f s
  | .fcvt f => Sys2Proof.Machine.execFcvt f s
  | .fclass f => Sys2Proof.Machine.execFclass f s
  | .fsgn f => Sys2Proof.Machine.execFsgn f s
  | .ld f => Sys2Proof.Machine.execLd f s
  | .st f => Sys2Proof.Machine.execSt f s
  | .amo f => Sys2Proof.Machine.execAmo f s
  | .cas f => Sys2Proof.Machine.execCas f s
  | .ldw f => Sys2Proof.Machine.execLdw f s
  | .mfsr f => Sys2Proof.Machine.execMfsr f s
  | .mtsr f => Sys2Proof.Machine.execMtsr f s
  | .brev f => Sys2Proof.Machine.execBrev f s
  | .bc f => Sys2Proof.Machine.execBc f s
  | .bal f => Sys2Proof.Machine.execBal f s
  | .jr f => Sys2Proof.Machine.execJr f s
  | .jalr f => Sys2Proof.Machine.execJalr f s
  | .loop f => Sys2Proof.Machine.execLoop f s
  | .exit f => Sys2Proof.Machine.execExit f s
  | .nop f => Sys2Proof.Machine.execNop f s
  | .vfetch f => Sys2Proof.Machine.execVfetch f s
  | .vpbr f => Sys2Proof.Machine.execVpbr f s
  | .vjoin f => Sys2Proof.Machine.execVjoin f s
  | .setvl f => Sys2Proof.Machine.execSetvl f s
  | .vcfg f => Sys2Proof.Machine.execVcfg f s
  | .vadd f => Sys2Proof.Machine.execVadd f s
  | .vsub f => Sys2Proof.Machine.execVsub f s
  | .vmul f => Sys2Proof.Machine.execVmul f s
  | .vmulh f => Sys2Proof.Machine.execVmulh f s
  | .vdiv f => Sys2Proof.Machine.execVdiv f s
  | .vrem f => Sys2Proof.Machine.execVrem f s
  | .vmin f => Sys2Proof.Machine.execVmin f s
  | .vmax f => Sys2Proof.Machine.execVmax f s
  | .vabs f => Sys2Proof.Machine.execVabs f s
  | .vneg f => Sys2Proof.Machine.execVneg f s
  | .vfma f => Sys2Proof.Machine.execVfma f s
  | .vfms f => Sys2Proof.Machine.execVfms f s
  | .vfnma f => Sys2Proof.Machine.execVfnma f s
  | .vfnms f => Sys2Proof.Machine.execVfnms f s
  | .vsqrt f => Sys2Proof.Machine.execVsqrt f s
  | .vrsqrt f => Sys2Proof.Machine.execVrsqrt f s
  | .vrcp f => Sys2Proof.Machine.execVrcp f s
  | .vavg f => Sys2Proof.Machine.execVavg f s
  | .vclamp f => Sys2Proof.Machine.execVclamp f s
  | .vscalb f => Sys2Proof.Machine.execVscalb f s
  | .vlogb f => Sys2Proof.Machine.execVlogb f s
  | .vclass f => Sys2Proof.Machine.execVclass f s
  | .vand f => Sys2Proof.Machine.execVand f s
  | .vor f => Sys2Proof.Machine.execVor f s
  | .vxor f => Sys2Proof.Machine.execVxor f s
  | .vnot f => Sys2Proof.Machine.execVnot f s
  | .vandn f => Sys2Proof.Machine.execVandn f s
  | .vshl f => Sys2Proof.Machine.execVshl f s
  | .vshr f => Sys2Proof.Machine.execVshr f s
  | .vsra f => Sys2Proof.Machine.execVsra f s
  | .vrotl f => Sys2Proof.Machine.execVrotl f s
  | .vclz f => Sys2Proof.Machine.execVclz f s
  | .vpopc f => Sys2Proof.Machine.execVpopc f s
  | .vbrev f => Sys2Proof.Machine.execVbrev f s
  | .vcmp f => Sys2Proof.Machine.execVcmp f s
  | .vsel f => Sys2Proof.Machine.execVsel f s
  | .vmerge f => Sys2Proof.Machine.execVmerge f s
  | .vbcast f => Sys2Proof.Machine.execVbcast f s
  | .vramp f => Sys2Proof.Machine.execVramp f s
  | .vmovx f => Sys2Proof.Machine.execVmovx f s
  | .vinsx f => Sys2Proof.Machine.execVinsx f s
  | .vmov f => Sys2Proof.Machine.execVmov f s
  | .vmand f => Sys2Proof.Machine.execVmand f s
  | .vmor f => Sys2Proof.Machine.execVmor f s
  | .vmxor f => Sys2Proof.Machine.execVmxor f s
  | .vmnot f => Sys2Proof.Machine.execVmnot f s
  | .vmandn f => Sys2Proof.Machine.execVmandn f s
  | .vmpop f => Sys2Proof.Machine.execVmpop f s
  | .vmfirst f => Sys2Proof.Machine.execVmfirst f s
  | .vmsetf f => Sys2Proof.Machine.execVmsetf f s
  | .vmmov f => Sys2Proof.Machine.execVmmov f s
  | .vmtox f => Sys2Proof.Machine.execVmtox f s
  | .vmfromx f => Sys2Proof.Machine.execVmfromx f s
  | .vcvt f => Sys2Proof.Machine.execVcvt f s
  | .vpackQuant f => Sys2Proof.Machine.execVpackQuant f s
  | .vpackDense f => Sys2Proof.Machine.execVpackDense f s
  | .vunpack f => Sys2Proof.Machine.execVunpack f s
  | .vredsum f => Sys2Proof.Machine.execVredsum f s
  | .vredmin f => Sys2Proof.Machine.execVredmin f s
  | .vredmax f => Sys2Proof.Machine.execVredmax f s
  | .vreddot f => Sys2Proof.Machine.execVreddot f s
  | .vscan f => Sys2Proof.Machine.execVscan f s
  | .vwelf f => Sys2Proof.Machine.execVwelf f s
  | .vwmerge f => Sys2Proof.Machine.execVwmerge f s
  | .vtopk f => Sys2Proof.Machine.execVtopk f s
  | .vperm f => Sys2Proof.Machine.execVperm f s
  | .vshuf f => Sys2Proof.Machine.execVshuf f s
  | .vslideup f => Sys2Proof.Machine.execVslideup f s
  | .vslidedn f => Sys2Proof.Machine.execVslidedn f s
  | .vcompress f => Sys2Proof.Machine.execVcompress f s
  | .vexpand f => Sys2Proof.Machine.execVexpand f s
  | .vlut f => Sys2Proof.Machine.execVlut f s
  | .vredlog f => Sys2Proof.Machine.execVredlog f s
  | .vredarg f => Sys2Proof.Machine.execVredarg f s
  | .vld f => Sys2Proof.Machine.execVld f s
  | .vst f => Sys2Proof.Machine.execVst f s
  | .vlds f => Sys2Proof.Machine.execVlds f s
  | .vsts f => Sys2Proof.Machine.execVsts f s
  | .vlseg f => Sys2Proof.Machine.execVlseg f s
  | .vsseg f => Sys2Proof.Machine.execVsseg f s
  | .vlblk f => Sys2Proof.Machine.execVlblk f s
  | .vsblk f => Sys2Proof.Machine.execVsblk f s
  | .vgathw f => Sys2Proof.Machine.execVgathw f s
  | .vgath f => Sys2Proof.Machine.execVgath f s
  | .vscat f => Sys2Proof.Machine.execVscat f s
  | .vscadd f => Sys2Proof.Machine.execVscadd f s
  | .vamo f => Sys2Proof.Machine.execVamo f s
  | .qld f => Sys2Proof.Machine.execQld f s
  | .qlds f => Sys2Proof.Machine.execQlds f s
  | .qst f => Sys2Proof.Machine.execQst f s
  | .qsts f => Sys2Proof.Machine.execQsts f s
  | .qgath f => Sys2Proof.Machine.execQgath f s
  | .vpref f => Sys2Proof.Machine.execVpref f s
  | .oxadd f => Sys2Proof.Machine.execOxadd f s
  | .oxsub f => Sys2Proof.Machine.execOxsub f s
  | .oxwgt f => Sys2Proof.Machine.execOxwgt f s
  | .mldff f => Sys2Proof.Machine.execMldff f s
  | .mtalloc f => Sys2Proof.Machine.execMtalloc f s
  | .mtfree f => Sys2Proof.Machine.execMtfree f s
  | .mtld f => Sys2Proof.Machine.execMtld f s
  | .mtst f => Sys2Proof.Machine.execMtst f s
  | .mtzero f => Sys2Proof.Machine.execMtzero f s
  | .mtmov f => Sys2Proof.Machine.execMtmov f s
  | .mwfill f => Sys2Proof.Machine.execMwfill f s
  | .mwinv f => Sys2Proof.Machine.execMwinv f s
  | .mtrow f => Sys2Proof.Machine.execMtrow f s
  | .cstream f => Sys2Proof.Machine.execCstream f s
  | .ctensor f => Sys2Proof.Machine.execCtensor f s
  | .cremap f => Sys2Proof.Machine.execCremap f s
  | .cwait f => Sys2Proof.Machine.execCwait f s
  | .cstat f => Sys2Proof.Machine.execCstat f s
  | .chint f => Sys2Proof.Machine.execChint f s
  | .pbinv f => Sys2Proof.Machine.execPbinv f s
  | .bkopAdd f => Sys2Proof.Machine.execBkopAdd f s
  | .bkopMin f => Sys2Proof.Machine.execBkopMin f s
  | .bkopMax f => Sys2Proof.Machine.execBkopMax f s
  | .bkopFma f => Sys2Proof.Machine.execBkopFma f s
  | .bkopScadd f => Sys2Proof.Machine.execBkopScadd f s
  | .bkopRowred f => Sys2Proof.Machine.execBkopRowred f s
  | .bkopIscat f => Sys2Proof.Machine.execBkopIscat f s
  | .bkfence f => Sys2Proof.Machine.execBkfence f s
  | .mbuild f => Sys2Proof.Machine.execMbuild f s
  | .madapt f => Sys2Proof.Machine.execMadapt f s
  | .mcolor f => Sys2Proof.Machine.execMcolor f s
  | .mcut f => Sys2Proof.Machine.execMcut f s
  | .mmigrate f => Sys2Proof.Machine.execMmigrate f s
  | .mghost f => Sys2Proof.Machine.execMghost f s
  | .vnbr f => Sys2Proof.Machine.execVnbr f s
  | .vface f => Sys2Proof.Machine.execVface f s
  | .mfree f => Sys2Proof.Machine.execMfree f s
  | .mqueryWait f => Sys2Proof.Machine.execMqueryWait f s
  | .mqueryCount f => Sys2Proof.Machine.execMqueryCount f s
  | .tsubmit f => Sys2Proof.Machine.execTsubmit f s
  | .tsignalProgress f => Sys2Proof.Machine.execTsignalProgress f s
  | .tsignalWrite f => Sys2Proof.Machine.execTsignalWrite f s
  | .tsignalAdd f => Sys2Proof.Machine.execTsignalAdd f s
  | .tstatWait f => Sys2Proof.Machine.execTstatWait f s
  | .tstatQueue f => Sys2Proof.Machine.execTstatQueue f s
  | .tstatHandle f => Sys2Proof.Machine.execTstatHandle f s
  | .fence f => Sys2Proof.Machine.execFence f s
  | .sbar f => Sys2Proof.Machine.execSbar f s
  | .vfbar f => Sys2Proof.Machine.execVfbar f s
  | .bsync f => Sys2Proof.Machine.execBsync f s
  | .barrive f => Sys2Proof.Machine.execBarrive f s
  | .binit f => Sys2Proof.Machine.execBinit f s
  | .ramo f => Sys2Proof.Machine.execRamo f s
  | .fstat f => Sys2Proof.Machine.execFstat f s
  | .freplay f => Sys2Proof.Machine.execFreplay f s
  | .fdiscard f => Sys2Proof.Machine.execFdiscard f s
  | .swapidBind f => Sys2Proof.Machine.execSwapidBind f s
  | .swapidShadow f => Sys2Proof.Machine.execSwapidShadow f s
  | .swapidUnshadow f => Sys2Proof.Machine.execSwapidUnshadow f s
  | .swapidAssume f => Sys2Proof.Machine.execSwapidAssume f s
  | .swapidUnbind f => Sys2Proof.Machine.execSwapidUnbind f s
  | .xprobe f => Sys2Proof.Machine.execXprobe f s
  | .xinv f => Sys2Proof.Machine.execXinv f s
  | .xinvall f => Sys2Proof.Machine.execXinvall f s
  | .trap f => Sys2Proof.Machine.execTrap f s
  | .tret f => Sys2Proof.Machine.execTret f s
  | .vsave f => Sys2Proof.Machine.execVsave f s
  | .vrstor f => Sys2Proof.Machine.execVrstor f s
  | .ssave f => Sys2Proof.Machine.execSsave f s
  | .srstor f => Sys2Proof.Machine.execSrstor f s
  | .idle f => Sys2Proof.Machine.execIdle f s
  | .denylogRead f => Sys2Proof.Machine.execDenylogRead f s
  | .unassignedOpcode op payload => Sys2Proof.Machine.execUnassignedOpcode op payload s
  | .blockEntry => Sys2Proof.Machine.execBlockEntry s
  | .vpCohortIssue => Sys2Proof.Machine.execVpCohortIssue s
  | .vfetchComplete => Sys2Proof.Machine.execVfetchComplete s
  | .vcfgRendezvous => Sys2Proof.Machine.execVcfgRendezvous s
  | .vectorIssue => Sys2Proof.Machine.execVectorIssue s
  | .ringWaitRelease => Sys2Proof.Machine.execRingWaitRelease s
  | .vectorInstructionComplete => Sys2Proof.Machine.execVectorInstructionComplete s
  | .mtallocWaitRelease => Sys2Proof.Machine.execMtallocWaitRelease s
  | .mwfillComplete => Sys2Proof.Machine.execMwfillComplete s
  | .channelBusyRelease => Sys2Proof.Machine.execChannelBusyRelease s
  | .copyCommandComplete => Sys2Proof.Machine.execCopyCommandComplete s
  | .engineFaultPause => Sys2Proof.Machine.execEngineFaultPause s
  | .watermarkWaitRelease => Sys2Proof.Machine.execWatermarkWaitRelease s
  | .cwaitRelease => Sys2Proof.Machine.execCwaitRelease s
  | .bkopQueueAdmission => Sys2Proof.Machine.execBkopQueueAdmission s
  | .bauApply => Sys2Proof.Machine.execBauApply s
  | .bkfenceRelease => Sys2Proof.Machine.execBkfenceRelease s
  | .topologyQueueAdmission => Sys2Proof.Machine.execTopologyQueueAdmission s
  | .topologyCommandComplete => Sys2Proof.Machine.execTopologyCommandComplete s
  | .mfreeRelease => Sys2Proof.Machine.execMfreeRelease s
  | .mqueryWaitRelease => Sys2Proof.Machine.execMqueryWaitRelease s
  | .tsubmitSpaceRelease => Sys2Proof.Machine.execTsubmitSpaceRelease s
  | .tstatWaitRelease => Sys2Proof.Machine.execTstatWaitRelease s
  | .fenceRelease => Sys2Proof.Machine.execFenceRelease s
  | .barrierWaitRelease => Sys2Proof.Machine.execBarrierWaitRelease s
  | .barrierDeadlock => Sys2Proof.Machine.execBarrierDeadlock s
  | .freplayComplete => Sys2Proof.Machine.execFreplayComplete s
  | .identityChangeApply => Sys2Proof.Machine.execIdentityChangeApply s
  | .trapEntry => Sys2Proof.Machine.execTrapEntry s
  | .preemptedGangResume => Sys2Proof.Machine.execPreemptedGangResume s
  | .quadRebind => Sys2Proof.Machine.execQuadRebind s
  | .recordTake => Sys2Proof.Machine.execRecordTake s
  | .zeroGangComplete => Sys2Proof.Machine.execZeroGangComplete s
  | .admission => Sys2Proof.Machine.execAdmission s
  | .gangPlacement => Sys2Proof.Machine.execGangPlacement s
  | .triadStart => Sys2Proof.Machine.execTriadStart s
  | .triadRetire => Sys2Proof.Machine.execTriadRetire s
  | .watchdogLimitExpiry => Sys2Proof.Machine.execWatchdogLimitExpiry s
  | .watchdogGraceExpiry => Sys2Proof.Machine.execWatchdogGraceExpiry s
  | .heartbeatSend => Sys2Proof.Machine.execHeartbeatSend s
  | .peerSilenceExpiry => Sys2Proof.Machine.execPeerSilenceExpiry s
  | .deathNotice => Sys2Proof.Machine.execDeathNotice s
  | .frameArbitration => Sys2Proof.Machine.execFrameArbitration s
  | .domainReset => Sys2Proof.Machine.execDomainReset s
  | .domainResetRetrained => Sys2Proof.Machine.execDomainResetRetrained s
  | .fabricRead => Sys2Proof.Machine.execFabricRead s
  | .readResponse => Sys2Proof.Machine.execReadResponse s
  | .fabricWrite => Sys2Proof.Machine.execFabricWrite s
  | .returningAtomic => Sys2Proof.Machine.execReturningAtomic s
  | .atomicResponse => Sys2Proof.Machine.execAtomicResponse s
  | .fabricAck => Sys2Proof.Machine.execFabricAck s
  | .fabricNack => Sys2Proof.Machine.execFabricNack s
  | .heartbeat => Sys2Proof.Machine.execHeartbeat s
  | .shadowWrite => Sys2Proof.Machine.execShadowWrite s
  | .resultLogRead => Sys2Proof.Machine.execResultLogRead s
  | .shadowSweepComplete => Sys2Proof.Machine.execShadowSweepComplete s
  | .replayRoomRelease => Sys2Proof.Machine.execReplayRoomRelease s
  | .expanderReadTimeout => Sys2Proof.Machine.execExpanderReadTimeout s
  | .hostCxlMemRequest => Sys2Proof.Machine.execHostCxlMemRequest s
  | .semAcquire => Sys2Proof.Machine.execSemAcquire s
  | .semRelease => Sys2Proof.Machine.execSemRelease s
  | .semRenew => Sys2Proof.Machine.execSemRenew s
  | .semLeaseLapse => Sys2Proof.Machine.execSemLeaseLapse s
  | .isoclr => Sys2Proof.Machine.execIsoclr s
  | .poolWrite => Sys2Proof.Machine.execPoolWrite s
  | .idcmdBind => Sys2Proof.Machine.execIdcmdBind s
  | .idcmdShadow => Sys2Proof.Machine.execIdcmdShadow s
  | .idcmdUnshadow => Sys2Proof.Machine.execIdcmdUnshadow s
  | .idcmdAssume => Sys2Proof.Machine.execIdcmdAssume s
  | .idcmdUnbind => Sys2Proof.Machine.execIdcmdUnbind s
  | .pwrlimWrite => Sys2Proof.Machine.execPwrlimWrite s
  | .keyLoad => Sys2Proof.Machine.execKeyLoad s
  | .keyEmpty => Sys2Proof.Machine.execKeyEmpty s
  | .queueEnable => Sys2Proof.Machine.execQueueEnable s
  | .queueReset => Sys2Proof.Machine.execQueueReset s
  | .queueDoorbell => Sys2Proof.Machine.execQueueDoorbell s
  | .attestationQuote => Sys2Proof.Machine.execAttestationQuote s
  | .controlRegisterWrite => Sys2Proof.Machine.execControlRegisterWrite s
  | .deviceReset => Sys2Proof.Machine.execDeviceReset s
  | .firmwareVerify => Sys2Proof.Machine.execFirmwareVerify s
  | .reducedServiceStart => Sys2Proof.Machine.execReducedServiceStart s
  | .fullServiceStart => Sys2Proof.Machine.execFullServiceStart s
  | .powerLimitThrottle => Sys2Proof.Machine.execPowerLimitThrottle s
  | .thermalThrottle => Sys2Proof.Machine.execThermalThrottle s
  | .thermalTrip => Sys2Proof.Machine.execThermalTrip s
  | .d3hotEntry => Sys2Proof.Machine.execD3hotEntry s
  | .powerRemoval => Sys2Proof.Machine.execPowerRemoval s
  | .fabricPortUp => Sys2Proof.Machine.execFabricPortUp s
  | .cxlLinkUp => Sys2Proof.Machine.execCxlLinkUp s
  | .resultLogAgeing => Sys2Proof.Machine.execResultLogAgeing s
  | .swapMarkReceipt => Sys2Proof.Machine.execSwapMarkReceipt s
  | .hbmTrainingFailed => Sys2Proof.Machine.execHbmTrainingFailed s
  | .fullRateTrainingComplete => Sys2Proof.Machine.execFullRateTrainingComplete s
  | .d3hotExit => Sys2Proof.Machine.execD3hotExit s

end Sys2Proof.Machine
end

