-- ==== Sys2Proof/Machine/Sched.lean ====
section
/-! DEFINITION. What happens next: what waits on the agenda; then each thread and each event of the device that can happen, in
turn; then time passes. Also where `withFetchWord` places its word. -/

namespace Sys2Proof.Machine

/-! Time. -/

/-- A queue as ns pass: its watchdog counts while it has a resident gang (R337, R338). -/
def Queue.tick (k : Queue) (resident : Bool) (ns : Nat) : Queue :=
  { k with
    wdNs := if k.wdEn ∧ resident then k.wdNs + ns else k.wdNs
    wdForced := k.wdForced.map (· + ns) }

/-- A lease as ns pass (R393). -/
def Sem.tick (m : Sem) (ns : Nat) : Sem := { m with remNs := m.remNs - ns }

/-- ns pass (R108). (DESIGN CHOICE, log entry 3.) -/
def State.tick (s : State) (ns : Nat) : State :=
  { s with
    time := s.time + ns
    queues := s.queues.map fun (p : Nat × Queue) => (p.1, p.2.tick (queueResident s p.1) ns)
    io := { s.io with sem := s.io.sem.tick ns } }

/-! Threads. -/

/-- What a thread does next: nothing, a row of the table, or the trap of a word that does not decode. -/
inductive Next
  | idle
  | illop
  | row (i : Instr)
  deriving DecidableEq, Repr

/-- A word as it decodes. -/
def nextOf (w : Word) : Next :=
  match decode w with
  | .ok i => .row i
  | .error _ => .illop

/-- The word at the pc of the current thread; without one, control enters its block (R61). -/
def wordNext (s : State) : Next :=
  match s.th.word with
  | none => .row .blockEntry
  | some w => nextOf w

/-- What comes next in a VFETCH of the current thread (R93, R94). -/
def vfetchNext (s : State) : Next :=
  match s.vec.vp with
  | none => .idle
  | some v =>
    if !s.th.want.isEmpty then .idle
    else match v.cohort with
      | some pc => match v.wordAt pc with
        | some w => nextOf w
        | none => .idle
      | none => if v.liveVps.isEmpty then .row .vfetchComplete else .row .vpCohortIssue

/-- What may end a stall of the current thread, or its word once more where the word looks again for itself. -/
def stallNext (s : State) : Stall → Next
  | .ring .. => .row .ringWaitRelease
  | .vcfg _ _ => .row .vcfgRendezvous
  | .vfetch _ => vfetchNext s
  | .mtalloc _ => .row .mtallocWaitRelease
  | .mwfill _ => .row .mwfillComplete
  | .channel _ => .row .channelBusyRelease
  | .watermark => .row .watermarkWaitRelease
  | .cwait _ => .row .cwaitRelease
  | .bkop _ _ => .row .bkopQueueAdmission
  | .bkfence _ => .row .bkfenceRelease
  | .topo .. => .row .topologyQueueAdmission
  | .mfree .. => .row .mfreeRelease
  | .mquery _ => .row .mqueryWaitRelease
  | .tstat _ => .row .tstatWaitRelease
  | .tsubmit _ _ => .row .tsubmitSpaceRelease
  | .fence _ => .row .fenceRelease
  | .barrier _ _ _ _ => .row .barrierWaitRelease
  | .replay _ => .row .replayRoomRelease
  | .freplay _ _ => .row .freplayComplete
  | .granule | .windows | .vsave | .drain _ | .xinv .. => wordNext s
  | .remote =>
    if !s.th.want.isEmpty then .idle
    else match s.th.word with
      | some w => if vectorOp (wordOp w).toNat then .row .vectorInstructionComplete else nextOf w
      | none => .row .blockEntry
  | .atomic .. => .idle
  | .vatomic .. => .idle
  | .fstat _ => .idle
  | .swapid _ => .idle

/-- Whether a trap of the current thread is to be entered: one that the triad has met and every role can stop for, or a pending
one (R345, R348, R349). -/
def trapDue (s : State) : Bool :=
  let t := s.tr
  let still := !roles.any fun r => inFlight (t.role r)
  if t.trapper.isSome then still
  else mayDeliver t && still && (!s.th.async.isEmpty || (t.wdog && s.cur.role == .computer))

/-- What the current thread does next: an instruction that is no longer at a boundary goes on while the other roles stop (R348). -/
def threadNext (s : State) : Next :=
  match tfind s.cur.ctxn s.triads with
  | none => .idle
  | some t =>
    if trapDue s then .row .trapEntry
    else if !t.live s.cur.role && !inFlight s.th then .idle
    else match s.th.stall with
      | none => wordNext s
      | some w => stallNext s w

/-- The current thread takes its step. -/
def runThread (s : State) : State × Option Instr :=
  match threadNext s with
  | .idle => (s, none)
  | .illop => (s.trapIllop, none)
  | .row i => (s, some i)

/-! Events of the device. -/

/-- An occasion that names its numbers. -/
def occ (n k : Nat) : Occasion := { Occasion.none with n := n, k := k }

def ev (i : Instr) (n k : Nat) : Pick := .event i (occ n k)

/-- What the ring tells of other devices is open: a free value says it (R385). -/
def openRing (s : State) : RingIn :=
  let v := Config.freeValue s.fresh
  ⟨v.getLsbD 0, v.getLsbD 1, v.getLsbD 2, v.getLsbD 3⟩

/-- Events of triads: their commands, their retirement. -/
def triadEvents (s : State) : List Pick :=
  s.triads.flatMap fun (p : Nat × Triad) =>
    (p.2.chans.filter fun c => c.2.cmd.isSome).flatMap (fun c => [ev .copyCommandComplete p.1 c.1, ev .engineFaultPause p.1 c.1]) ++
      [ev .triadRetire p.1 0]

/-- Events of the topology engines and the bank units. -/
def engineEvents (s : State) : List Pick :=
  (s.topos.flatMap fun (p : Nat × Topo) => (nrange 0 p.2.running.length).flatMap fun k =>
    [ev .topologyCommandComplete p.1 k, .event .engineFaultPause { occ p.1 k with flag := true }]) ++
  (s.bank.flatMap fun c => c.left.map fun b => ev .bauApply b 0) ++
  (s.cores.filter fun c => !c.2.cells.isEmpty).map fun c => ev .barrierDeadlock c.1 0

/-- Events of queues, entries and gangs. -/
def queueEvents (s : State) : List Pick :=
  (s.gangs.filter fun g => g.2.preempted).map (fun g => ev .preemptedGangResume g.1 0) ++
  s.queues.flatMap (fun (p : Nat × Queue) =>
    [ev .recordTake p.1 0, ev .zeroGangComplete p.1 0, ev .watchdogLimitExpiry p.1 0, ev .watchdogGraceExpiry p.1 0]) ++
  [ev .admission 0 0] ++ (s.gangs.filter fun g => !g.2.started).map (fun g => ev .triadStart g.1 0) ++ [ev .gangPlacement 0 0]

/-- Events of the fabric port, the management ring and the semaphore. (DESIGN CHOICE, log entry 66.) -/
def portEvents (s : State) : List Pick :=
  [ev .heartbeatSend 0 0, ev .resultLogAgeing 0 0, ev .domainResetRetrained 0 0, ev .semLeaseLapse 0 0] ++
  (liveLcns s).map (fun l => ev .peerSilenceExpiry l 0) ++
  (s.fab.idents.filter fun p => p.2.shv).map (fun p => .event .peerSilenceExpiry { occ p.2.shport 0 with flag := true }) ++
  (if s.fab.ring.isEmpty then [] else [.event .identityChangeApply { Occasion.none with ring := openRing s }])

/-- Everything that could happen in a round, in its order. (DESIGN CHOICE, log entry 4.) -/
def round (s : State) : List Pick :=
  (allThreads s).map Pick.run ++ triadEvents s ++ engineEvents s ++ queueEvents s ++ portEvents s ++
    [.sweep, ev .shadowSweepComplete s.fab.idtab.lcn 0, ev .fullServiceStart 0 0]

/-- What can happen by itself: in D3hot, what needs no arithmetic clock; in a halted device, the work that the killed invocations
still wait for; nothing before service (R394, R397, R398). (DEDUCED, log entry 1; DESIGN CHOICE, log entry 4.) -/
def members (s : State) : List Pick :=
  if serving s then round s
  else if s.io.power = 1 then portEvents s
  else if s.io.power = 0 ∧ s.io.stage = 4 then engineEvents s
  else []

/-! The choice. -/

/-- Whether a row would change anything. -/
def changes (s : State) (i : Instr) : Bool :=
  match exec i s with
  | .next t => t != s
  | _ => true

/-- Whether a member of the round can happen. (DESIGN CHOICE, log entry 4.) -/
def ready (s : State) : Pick → Bool
  | .run t =>
    let s := { s with cur := t }
    (match threadNext s with
     | .idle => false
     | .illop => true
     | .row i => s.th.stall.isNone || changes s i)
  | .event i o => changes { s with occ := o } i
  | .sweep => sweepReady s
  | .tick _ => true

/-- A thread in its turn: a word or a cohort for the vector unit goes through the core's arbiter; the lane groups of one that is
under way go on, how far is open (R92, R130). (DEDUCED, log entry 53; DESIGN CHOICE, log entry 86.) -/
def turnOf (s : State) (t : Tid) : State × Option Instr :=
  let u := { s with cur := t }
  if vectorReady u t then ({ u with occ := occ u.tr.core 0 }, some .vectorIssue)
  else if u.th.stall = some .windows then
    runThread { u with slip := some (Config.freeValue u.fresh), fresh := u.fresh + 1 }
  else runThread u

/-- How long a round lasts in which something happened, and one in which nothing could, in ns. (DESIGN CHOICE, log entry 3.) -/
def roundNs : Nat := 1
def idleNs : Nat := 1000

/-- The next member of the round that can happen; after the last one, time passes. (DESIGN CHOICE, log entries 3, 4.) -/
def pick (s : State) : State × Option Instr :=
  let s := { s with slip := none }
  let l := members s
  match (nrange s.turn (l.length - s.turn)).find? fun k => (l[k]?).any (ready s) with
  | none => ({ s.tick (if s.turn = 0 then idleNs else roundNs) with turn := 0 }, none)
  | some k =>
    let s := { s with turn := k + 1 }
    match l[k]? with
    | some (.run t) => turnOf s t
    | some (.event i o) => ({ s with occ := o, fresh := s.fresh + (if i = .identityChangeApply then 1 else 0) }, some i)
    | some .sweep => (sweepStep s, none)
    | _ => (s, none)

/-- What happens next: what waits on the agenda, else the next member of the round. A device without power does nothing
(R397). (DEDUCED, log entry 1; DESIGN CHOICE, log entry 4.) -/
def schedule (s : State) : State × Option Instr :=
  match s.agenda with
  | .event i o :: rest => ({ s with agenda := rest, occ := o }, some i)
  | .tick n :: rest => ({ s with agenda := rest }.tick n, none)
  | .sweep :: rest => (sweepStep { s with agenda := rest }, none)
  | .run t :: rest => runThread { s with agenda := rest, cur := t }
  | [] => if s.io.power = 2 then (s, none) else pick s

/-! Placing a word. -/

/-- The address at which `placeWord` places its word. (DESIGN CHOICE, log entry 2.) -/
def placeBase : Word := 0x200000#64

/-- A started triad in slot 0 of core 0, its block entered with one word, which a thread runs next: what brings a program to
run, done at once. A word that only the loader may issue (R72) stands in the loader.
(DEDUCED, log entry 1; DESIGN CHOICE, log entry 2.) -/
def placeWord (s : State) (w : Word) : State :=
  let op := (wordOp w).toNat
  let r : Role := if 0xD0 ≤ op ∧ op ≤ 0xD2 then .loader else .computer
  let t := { Triad.none with gangs := 1, loader := RoleState.start placeBase false,
                             computer := RoleState.start placeBase false, storer := RoleState.start placeBase false }
  let t := t.setRole r { t.role r with blkBase := placeBase, blk := [w] }
  { s with
    triads := tset 0 t s.triads
    gangs := tset 0 ⟨0, 0, 0, [0], [(0, 0)], 0, 0, 1, [0], 0, true, false⟩ s.gangs
    slots := tset 0 ⟨some 0, VecState.start⟩ s.slots
    agenda := [.run ⟨0, r⟩] }

end Sys2Proof.Machine
end

