-- ==== Sys2Proof/Machine/Step.lean ====
section
/-! DEFINITION. One step of the device, and where the host places an instruction word. -/

namespace Sys2Proof.Machine

/-- One step: what comes next is chosen, and the row it names has its meaning. (DEDUCED, log entry 79.) -/
def step (s : State) : Host.Outcome State Fault Refusal :=
  match schedule s with
  | (s, some i) => exec i s
  | (s, none) => .next s

/-- `s` with a word as the next instruction. (DEDUCED, log entry 1.) -/
def State.withFetchWord (s : State) (nbits w : Nat) : State := placeWord s (BitVec.ofNat 64 (w % 2 ^ nbits))

end Sys2Proof.Machine
end

