-- ==== Sys2Proof/Safety.lean ====
section
/-! DEFINITION. What counts as a safe step: one that ends in a next state, with no fault and no refusal. And the terms in which
statements say that an instruction completes and what it leaves alone. -/

namespace Sys2Proof

/-- An outcome that is a next state. -/
def Safe (o : Host.Outcome Machine.State Machine.Fault Machine.Refusal) : Prop := ∃ t, o = .next t

/-- A state from which the next step is safe. -/
def SafeState (s : Machine.State) : Prop := Safe (Machine.step s)

namespace Machine

/-- `i`, run in `s`, answers a next state of which `P` holds. -/
def Completes (i : Instr) (s : State) (P : State → Prop) : Prop := ∃ t, exec i s = .next t ∧ P t

/-- The triad of the current thread is started. -/
def State.Started (s : State) : Prop := s.Has s.cur.ctxn

/-- Every byte of memory reads as before. -/
def SameBytes (s t : State) : Prop := ∀ a, memByte t.mem.cells a = memByte s.mem.cells a

/-- Nothing of the device has changed but the current triad: no memory, no vector state, no other triad, no queue, no unit. -/
structure OnlyTriad (s t : State) : Prop where
  device : t = { s with triads := t.triads }
  others : ∀ c, c ≠ s.cur.ctxn → t.triad c = s.triad c
  bytes : SameBytes s t

/-- Nothing of the device has changed but the current thread's own role: VSTAT, EIX, SEED, SN and every other register of the
triad are as they were. -/
structure OnlyThread (s t : State) : Prop extends OnlyTriad s t where
  triad : t.tr = s.tr.setRole s.cur.role t.th

/-- The current thread is through with its instruction and stands at `a`: it waits for nothing, its registers outside `ds` are
as they were, and so are VL, its privilege and what waits for it. -/
structure StandsAt (s t : State) (a : Word) (ds : List (BitVec 6)) : Prop where
  pc : t.th.pc = a
  regs : ∀ n, n ∉ ds → t.x n = s.x n
  role : t.th = { s.th with
    x := t.th.x, pc := t.th.pc, blk := t.th.blk, stall := none, resume := none, rbuf := [], want := [], logged := [],
    tile := none, mesh := none }

/-- A register write and nothing else: register d holds v (x0 reads 0 whatever is written), and the thread goes on at the
successor of its word. -/
structure Writes (s t : State) (d : BitVec 6) (v : Word) : Prop extends OnlyThread s t, StandsAt s t s.th.successor [d] where
  value : t.x d = if d = 0#6 then 0 else v

/-! The words of the spec: scalar integers (R67, R109, R110). -/

/-- The low bits of a register at the width of T (R109). -/
def lowOf (t : BitVec 4) (v : Word) : BitVec (tWidth t) := v.setWidth (tWidth t)

/-- A result of the width of T in a 64-bit register: sign-extended for a signed T, else zero-extended (R109). -/
def widen (t : BitVec 4) (v : BitVec (tWidth t)) : Word := if tSigned t then v.signExtend 64 else v.setWidth 64

/-- A result register of type T that holds the integer `i` (R109). -/
def WritesInt (s t : State) (f : BitVec 4) (d : BitVec 6) (i : Int) : Prop :=
  ∃ v, Writes s t d v ∧ v = widen f (lowOf f v) ∧ intOf f v = i

/-- A count of the low bits of a register: `n` leading zeros (R110). -/
def LeadingZeros (w n : Nat) (x : BitVec w) : Prop :=
  n ≤ w ∧ (∀ i, w - n ≤ i → i < w → x.getLsbD i = false) ∧ (n < w → x.getLsbD (w - 1 - n) = true)

/-- `n` trailing zeros (R110). -/
def TrailingZeros (w n : Nat) (x : BitVec w) : Prop :=
  n ≤ w ∧ (∀ i, i < n → x.getLsbD i = false) ∧ (n < w → x.getLsbD n = true)

/-- A condition between two registers at the width of T (R67). -/
def holdsAt (t : BitVec 4) (c : Nat) (a b : BitVec (tWidth t)) : Prop :=
  match c with
  | 0 => a = b
  | 1 => a ≠ b
  | 2 => a.toInt < b.toInt
  | 3 => b.toInt ≤ a.toInt
  | 4 => a.toNat < b.toNat
  | 5 => b.toNat ≤ a.toNat
  | _ => True

/-! The words of the spec: scalar floating point (R30 to R59). -/

/-- The number that a finite value is, where it is no square root. -/
def Val.rat : Val → Option Rat
  | .fin neg m => if m.root || m.den == 0 then none else some ((if neg then -1 else 1) * (m.num / m.den))
  | _ => none

/-- The number that a code of a floating-point format stands for: none for an infinity and a NaN (R30, R35). -/
def Fmt.number (f : Fmt) (code : Nat) : Option Rat := (decodeF f code).rat

/-- A scalar instruction that merges events and does not trap: register d holds the result, VSTAT has the events added, each EIX
register that was free and whose event was raised captures index 0, SN advances under SR, and nothing else of the triad but its own
role changes (R50, R57, R115). -/
structure FpResult (s t : State) (d : BitVec 6) (bits : Nat) (ev : Ev) (sr : Bool) : Prop
    extends OnlyTriad s t, StandsAt s t s.th.successor [d] where
  value : t.x d = if d = 0#6 then 0 else BitVec.ofNat 64 bits
  triad : t.tr = { s.tr.setRole s.cur.role t.th with
    vstat := s.tr.vstat ||| ev.setWidth 64, eix := t.tr.eix, sn := if sr then s.tr.sn + 1#64 else s.tr.sn }
  capture : ∀ c, c < 6 → t.tr.eix.getD c 0 =
    if ev.getLsbD c ∧ (s.tr.eix.getD c 0).getLsbD 63 = false then 0x8000000000000000#64 else s.tr.eix.getD c 0

/-- A scalar floating-point word that runs to its end without a trap: no event it raises is enabled, and only the computer rounds
stochastically (R45, R59). -/
def State.fpRuns (s : State) (f : FmtA) (ev : Ev) : Prop :=
  (fpRm f = 5 → s.cur.role = .computer) ∧ enabled s.tr.vstat &&& ev = 0

/-! The words of the spec: memory. -/

/-- Bytes stored under a key slot at a place of memory, and nothing else of memory: the bytes read back under that key slot, every
other byte of the same lines reads under it as before, and every byte of every other line reads as before under every key slot. -/
structure Stores (s t : State) (pa : Nat) (bs : List Byte) (key : Nat) : Prop where
  holds : physRead t pa bs.length key = bs
  beside : ∀ a, a < pa ∨ pa + bs.length ≤ a → physRead t a 1 key = physRead s a 1 key
  away : ∀ a k, a / 64 ∉ linesOf pa bs.length → physRead t a 1 k = physRead s a 1 k

/-- An address that stores reach: not behind an isolated expander (R388). -/
def Reached (s : State) (pa : Nat) : Prop :=
  ∀ p, portOf pa = some p → (s.io.port p).expander = true → (s.io.port p).iso = false

/-- Two states that differ in memory and in the current triad alone. -/
structure OnlyMemory (s t : State) : Prop where
  device : t = { s with mem := t.mem, triads := t.triads }
  others : ∀ c, c ≠ s.cur.ctxn → t.triad c = s.triad c
  triad : t.tr = s.tr.setRole s.cur.role t.th

/-- n bytes at an address that an access of the current thread finds in local memory, clean and free to use: `u` is the state after
the translation (R118, R119, R229). -/
structure Finds (s u : State) (a : Word) (n : Nat) (acc : Acc) (pa key frame : Nat) : Prop where
  aligned : a.toNat % n = 0
  found : locate s s.tr.core s.cred a acc true = (.here pa key frame, u)
  free : markHolds u pa n = false

/-- The n-byte number in local memory. -/
def numberAt (s : State) (pa n key : Nat) : Nat := bytesNat (physRead s pa n key)

/-! The words of the spec: vector instructions (R89 to R92, R129 to R138, R57). -/

/-- The current thread, not in VP mode, may issue a vector instruction whose checks at decode and at dispatch give `dec` and `disp`: the
checks pass, its triad owns the vector state, and each ring it reads has an entry and the one it writes has room (R136, R91). -/
structure VectorReady (s : State) (dec disp : Bool) (reads writes : List Opnd) : Prop where
  started : s.Started
  plain : s.vpNow = none
  decode : dec = true
  owns : s.ownsVec = true
  dispatch : disp = true
  rings : s.ringBlock (ringsOf reads) (ringsOf writes).head? = false

/-- No event traps, no event is held from before a stop, and lane groups perform their windows at once (R59, R130, R355). -/
def State.quiet (s : State) : Prop := enabled s.tr.vstat = 0 ∧ s.th.resume = none ∧ s.slip = none

/-- A vector instruction of the current thread is complete: its slot's vector state is `v`, its events `ev` are merged, SN advances
by `adv`, the thread goes on at the successor with its registers outside `ds` as they were, and nothing else changes. -/
structure VectorDone (s t : State) (v : VecState) (ev : Evs) (adv : Nat) (ds : List (BitVec 6)) : Prop
    extends StandsAt s t s.th.successor ds where
  device : t = { s with triads := t.triads, slots := t.slots }
  others : ∀ c, c ≠ s.cur.ctxn → t.triad c = s.triad c
  slot : t.slot s.tr.slotKey = { s.slot s.tr.slotKey with vec := v }
  slots : ∀ k, k ≠ s.tr.slotKey → t.slot k = s.slot k
  triad : t.tr = { s.tr.setRole s.cur.role t.th with
    vstat := s.tr.vstat ||| ev.ev.setWidth 64, eix := t.tr.eix, sn := s.tr.sn + BitVec.ofNat 64 adv }
  capture : ∀ c, c < 6 → t.tr.eix.getD c 0 =
    if ev.ev.getLsbD c ∧ (s.tr.eix.getD c 0).getLsbD 63 = false then BitVec.ofNat 64 (2 ^ 63 + ev.ix.getD c 0 % 2 ^ 32)
    else s.tr.eix.getD c 0

/-- The rings after an instruction took an entry of each ring that it read. -/
def RingsTaken (v v' : VecState) (reads : List Opnd) (dst : Opnd) : Prop :=
  ∀ q, dst ≠ .ring q → v'.ring q = if .ring q ∈ reads then (v.ring q).tail else v.ring q

/-- Poison of one EG after results: poisoned by a poisoned result, clean once each of its elements took a clean one, else as it was. -/
def egPoison (w : Nat) (act : List Nat) (pois : Nat → Bool) (eg : Nat) (old new : Bool) : Prop :=
  ((∃ e ∈ act, egOf w e = eg ∧ pois e = true) → new = true) ∧
  ((∀ e ∈ act, egOf w e = eg → pois e = false) → (∀ e, egOf w e = eg → e ∈ act) → new = false) ∧
  ((∀ e ∈ act, egOf w e = eg → pois e = false) → (∃ e, egOf w e = eg ∧ e ∉ act) → new = old)

/-- What an elementwise instruction does to the vector state (R90, R131, R134, R138): element e of register j of the destination takes
`val j e` where e is active and keeps its value elsewhere, and a ring takes a new entry that is zero elsewhere; poison follows the
EGs; no other register, mask or ring changes but for the entries taken. -/
structure Elementwise (v v' : VecState) (act : List Nat) (reads : List Opnd) (dst : Opnd) (g w : Nat) (val : Nat → Nat → Nat)
    (pois : Nat → Nat → Bool) : Prop where
  result : ∀ k, dst = .reg k → ∀ j, j < g → ∀ e,
    elemAt (v'.reg (k + j)) w e = if e ∈ act then val j e % 2 ^ w else elemAt (v.reg (k + j)) w e
  poison : ∀ k, dst = .reg k → ∀ j, j < g → ∀ eg, eg < 64 →
    egPoison w act (pois j) eg (smem (egKey (k + j) eg) v.pois) (smem (egKey (k + j) eg) v'.pois)
  entry : ∀ q, dst = .ring q → .ring q ∉ reads → ∃ r : RingEnt, v'.ring q = v.ring q ++ [r] ∧ r.open_ = false ∧
    (∀ e, elemAt r.bits w e = if e ∈ act then val 0 e % 2 ^ w else 0) ∧
    ∀ eg, smem eg r.pois = true ↔ ∃ e ∈ act, egOf w e = eg ∧ pois 0 e = true
  registers : ∀ n, (∀ k, dst = .reg k → n < k ∨ k + g ≤ n) →
    v'.reg n = v.reg n ∧ ∀ eg, eg < 64 → smem (egKey n eg) v'.pois = smem (egKey n eg) v.pois
  rings : RingsTaken v v' reads dst
  rest : v'.m = v.m ∧ v'.cfg = v.cfg ∧ v'.vp = v.vp

/-- The events of an instruction on g registers: the classes that some element raises, each with the lowest index of one that does. -/
def EventsOf (ev : Evs) (g vl : Nat) (act : List Nat) (raised : Nat → Nat → Ev) : Prop :=
  ∀ c, c < 6 →
    (ev.ev.getLsbD c = true ↔ ∃ j, j < g ∧ ∃ e ∈ act, (raised j e).getLsbD c = true) ∧
    (ev.ev.getLsbD c = true → (∃ j, j < g ∧ ∃ e ∈ act, (raised j e).getLsbD c = true ∧ ev.ix.getD c 0 = j * vl + e) ∧
      ∀ j, j < g → ∀ e ∈ act, (raised j e).getLsbD c = true → ev.ix.getD c 0 ≤ j * vl + e)

/-- The results of the arithmetic vector instructions on one element, with the instruction's kind and number of sources (R140 to R144). -/
def ArithResults (f : FmtV) (lg : Lg) (Gives : Instr → AOp → Nat → (RCtx → Elt → Elt → Elt → Nat × Ev) → Prop) : Prop :=
  let rnd (x : RCtx → Elt → Elt → Elt → Val × Ev) : RCtx → Elt → Elt → Elt → Nat × Ev := fun r a b c =>
    let y := roundTo lg.fd r (x r a b c).1
    (y.1, (x r a b c).2 ||| y.2)
  let m := lg.ctx.mode
  let prop := f.opv.getLsbD 0
  Gives (.vadd f) .add 2 (rnd fun _ a b _ => addV m a.val b.val) ∧
  Gives (.vsub f) .sub 2 (rnd fun _ a b _ => addV m a.val b.val.negate) ∧
  Gives (.vmul f) .mul 2 (rnd fun _ a b _ => mulV a.val b.val) ∧
  Gives (.vmulh f) .mulh 2 (fun _ a b _ => (wrapInt lg.fd.width (a.val.toInt * b.val.toInt / (2 ^ lg.fd.width : Nat)), 0)) ∧
  (lg.fd.isI = false → Gives (.vdiv f) .div 2 (rnd fun _ a b _ => divV a.val b.val)) ∧
  (lg.fd.isI = true → Gives (.vdiv f) .div 2 (fun r a b _ => if b.val.toInt = 0 then (2 ^ lg.fd.width - 1, evDZ)
    else roundTo lg.fd r (intVal (Int.tdiv a.val.toInt b.val.toInt)))) ∧
  Gives (.vrem f) .rem 2 (fun r a b _ => if b.val.toInt = 0 then ((roundTo lg.fd r (intVal a.val.toInt)).1, evDZ)
    else roundTo lg.fd r (intVal (Int.tmod a.val.toInt b.val.toInt))) ∧
  Gives (.vmin f) .min 2 (fun _ a b _ => selMinMax lg.fd false prop a.val b.val a.raw b.raw) ∧
  Gives (.vmax f) .max 2 (fun _ a b _ => selMinMax lg.fd true prop a.val b.val a.raw b.raw) ∧
  Gives (.vabs f) .abs 1 (fun r a _ _ => signElt lg r false a) ∧
  Gives (.vneg f) .neg 1 (fun r a _ _ => signElt lg r true a) ∧
  Gives (.vfma f) .fma 3 (rnd fun _ a b c => fmaV m a.val b.val c.val) ∧
  Gives (.vfms f) .fms 3 (rnd fun _ a b c => fmaV m a.val b.val c.val.negate) ∧
  Gives (.vfnma f) .fnma 3 (rnd fun _ a b c => fmaV m a.val.negate b.val c.val) ∧
  Gives (.vfnms f) .fnms 3 (rnd fun _ a b c => fmaV m a.val.negate b.val c.val.negate) ∧
  Gives (.vsqrt f) .sqrt 1 (rnd fun _ a _ _ => sqrtV a.val) ∧
  Gives (.vrsqrt f) .rsqrt 1 (rnd fun _ a _ _ => rsqrtV a.val) ∧
  Gives (.vrcp f) .rcp 1 (rnd fun _ a _ _ => rcpV a.val) ∧
  Gives (.vavg f) .avg 2 (rnd fun _ a b _ => (halfV (addV m a.val b.val).1, (addV m a.val b.val).2)) ∧
  Gives (.vclamp f) .clamp 3 (fun _ a b c => clampElt lg.fd a b c) ∧
  Gives (.vscalb f) .scalb 2 (rnd fun _ a b _ => scalbV a.val (max (-8192) (min 8192 b.val.toInt))) ∧
  Gives (.vlogb f) .logb 1 (rnd fun _ a _ _ => logbV a.val) ∧
  Gives (.vclass f) .class 1 (fun _ a _ _ => (if a.nanScale then 2 ^ 9 else classOf lg.fa (.pow 0) a.raw, 0))

/-- The results of the vector instructions on bit patterns on one element, with the number of sources, what decode asks of the word
beside, and which sources' poison counts (R138, R145, R147); `takesA` is the mask of VMERGE. -/
def BitResults (f : FmtV) (takesA : Nat → Bool)
    (Gives : Instr → Nat → Bool → (Nat → BitVec (tw f.t) → BitVec (tw f.t) → BitVec (tw f.t) → BitVec (tw f.t)) →
      (Nat → BitVec (tw f.t) → Bool → Bool → Bool → Bool) → Prop) : Prop :=
  let w := tw f.t
  let one : Nat → BitVec w → Bool → Bool → Bool → Bool := fun _ _ a _ _ => a
  let two : Nat → BitVec w → Bool → Bool → Bool → Bool := fun _ _ a b _ => a || b
  Gives (.vand f) 2 true (fun _ a b _ => a &&& b) two ∧
  Gives (.vor f) 2 true (fun _ a b _ => a ||| b) two ∧
  Gives (.vxor f) 2 true (fun _ a b _ => a ^^^ b) two ∧
  Gives (.vnot f) 1 true (fun _ a _ _ => ~~~a) one ∧
  Gives (.vandn f) 2 true (fun _ a b _ => a &&& ~~~b) two ∧
  Gives (.vshl f) 2 true (fun _ a b _ => a <<< (b.toNat % w)) two ∧
  Gives (.vshr f) 2 true (fun _ a b _ => a >>> (b.toNat % w)) two ∧
  Gives (.vsra f) 2 true (fun _ a b _ => a.sshiftRight (b.toNat % w)) two ∧
  Gives (.vrotl f) 2 true (fun _ a b _ => a.rotateLeft (b.toNat % w)) two ∧
  Gives (.vclz f) 1 true (fun _ a _ _ => BitVec.ofNat w (if a = 0 then w else w - 1 - Nat.log2 a.toNat)) one ∧
  Gives (.vpopc f) 1 true (fun _ a _ _ => BitVec.ofNat w ((List.range w).countP fun i => a.getLsbD i)) one ∧
  Gives (.vbrev f) 1 true (fun _ a _ _ => a.reverse) one ∧
  Gives (.vmov f) 1 true (fun _ a _ _ => a) one ∧
  Gives (.vsel f) 3 true (fun _ a b c => if c = 0 then b else a) (fun _ c a b p => p || if c = 0 then b else a) ∧
  Gives (.vmerge f) 2 (f.m == 0#4) (fun e a b _ => if takesA e then a else b)
    (fun e _ a b _ => if takesA e then a else b)

/-- The bit that VCMP writes for two values under condition c (R146). -/
def CmpBit (c : Nat) (a b : Val) (bit : Bool) : Prop :=
  let un := a.isNan || b.isNan
  let lt := cmpV a b = .lt
  let eq := cmpV a b = .eq
  (c = 0 → (bit = true ↔ un = false ∧ eq)) ∧ (c = 1 → (bit = true ↔ un = true ∨ ¬ eq)) ∧ (c = 2 → (bit = true ↔ un = false ∧ lt)) ∧
  (c = 3 → (bit = true ↔ un = false ∧ (lt ∨ eq))) ∧ (c = 4 → (bit = true ↔ un = false ∧ ¬ lt ∧ ¬ eq)) ∧
  (c = 5 → (bit = true ↔ un = false ∧ ¬ lt)) ∧ (c = 6 → (bit = true ↔ un = true))

/-- What a comparison raises (R146). -/
def cmpRaises (c : Nat) (a b : Val) : Ev :=
  if (if 2 ≤ c ∧ c ≤ 5 then a.isNan || b.isNan else a.isSig || b.isSig) then evIV else 0

/-! The words of the spec: vector memory (R177 to R192). -/

/-- Where the accesses of a vector memory instruction go: access k of element e lies at `addr e` plus k times n bytes, is aligned, and its
translation, held by the core and not migrating, gives local memory at `pa e k` under one key slot, free to use. -/
structure LocalPlaces (s : State) (acc : Acc) (act : List Nat) (nf n : Nat) (addr : Nat → Word) (pa : Nat → Nat → Nat)
    (key : Nat) : Prop where
  aligned : ∀ e ∈ act, ∀ k, k < nf → (addr e + BitVec.ofNat 64 (k * n)).toNat % n = 0
  found : ∀ e ∈ act, ∀ k, k < nf →
    ∃ frame, locate s s.tr.core s.cred (addr e + BitVec.ofNat 64 (k * n)) acc false = (.here (pa e k) key frame, s)
  free : ∀ e ∈ act, ∀ k, k < nf → markHolds s (pa e k) n = false
  settled : ∀ t ∈ (s.core s.tr.core).tlb, nbits t.ent.toNat 7 2 ≠ 1

/-- What stores need beside: no sealed extent, no isolated expander, and no replica to tell. -/
structure Storable (s : State) (act : List Nat) (nf n : Nat) (pa : Nat → Nat → Nat) : Prop where
  open_ : ∀ e ∈ act, ∀ k, k < nf → inSealed s (pa e k) n = false
  reached : ∀ e ∈ act, ∀ k, k < nf → Reached s (pa e k)
  alone : shadowPort s = none

/-- Memory after the stores of a vector instruction in element order (R181): a place holds what the last store to it put there, and every
byte that no store reaches is as it was. -/
structure StoresElements (s t : State) (act : List Nat) (nf n : Nat) (pa : Nat → Nat → Nat) (key : Nat) (val : Nat → Nat → Nat) :
    Prop where
  holds : ∀ e ∈ act, ∀ k, k < nf →
    (∀ i ∈ act, ∀ j, j < nf → (e < i ∨ (e = i ∧ k < j)) → pa i j + n ≤ pa e k ∨ pa e k + n ≤ pa i j) →
    physRead t (pa e k) n key = natBytes n (val e k)
  beside : ∀ a, (∀ e ∈ act, ∀ k, k < nf → a < pa e k ∨ pa e k + n ≤ a) → physRead t a 1 key = physRead s a 1 key
  away : ∀ a j, (∀ e ∈ act, ∀ k, k < nf → a / 64 ∉ linesOf (pa e k) n) → physRead t a 1 j = physRead s a 1 j

/-- Memory after elements stored in an open order (R225, R238), where any two places are one or apart: a place holds what one of the
elements that name it stores, and every byte that no element stores is as it was. -/
structure StoresSome (s t : State) (act : List Nat) (nf n : Nat) (pa : Nat → Nat → Nat) (key : Nat) (val : Nat → Nat → Nat) : Prop where
  holds : (∀ e ∈ act, ∀ k, k < nf → ∀ i ∈ act, ∀ j, j < nf → pa i j = pa e k ∨ pa i j + n ≤ pa e k ∨ pa e k + n ≤ pa i j) →
    ∀ e ∈ act, ∀ k, k < nf → ∃ i ∈ act, ∃ j, j < nf ∧ pa i j = pa e k ∧ physRead t (pa e k) n key = natBytes n (val i j)
  beside : ∀ a, (∀ e ∈ act, ∀ k, k < nf → a < pa e k ∨ pa e k + n ≤ a) → physRead t a 1 key = physRead s a 1 key
  away : ∀ a j, (∀ e ∈ act, ∀ k, k < nf → a / 64 ∉ linesOf (pa e k) n) → physRead t a 1 j = physRead s a 1 j

/-! The words of the spec: tiles and weight buffers (R193 to R214). -/

/-- A tile whose rows are all of its shape's length. -/
def Tile.whole (t : Tile) : Prop := ∀ i, (t.row i).length = tileDim t.fp64

/-- Slot k has one shape on every bound slab, with rows of that shape (R193, R194). -/
def State.wholeSlot (s : State) (k : Nat) : Prop := ∀ b ∈ s.mySlabs, (s.tileAt b k).fp64 = s.slotShape k ∧ (s.tileAt b k).whole

/-- No tile instruction of the current triad is under way (R215). -/
def State.noTiles (s : State) : Prop := ∀ q : Role, (s.tr.role q).tile = none

/-- A tile instruction of another role that was issued before and names a slot of `ks` or bytes of `bs` is not complete (R196, R215). -/
def State.Behind (s : State) (ks : List Nat) (bs : List (Nat × Nat)) : Prop :=
  s.th.tile = none ∧ ∃ (q : Role) (v : TileUse), q ≠ s.cur.role ∧ (s.tr.role q).tile = some v ∧ v.order < s.serial ∧
    ((∃ k ∈ ks, k ∈ v.slots) ∨ ∃ b ∈ bs, ∃ c ∈ v.bytes, b.1 < c.1 + c.2 ∧ c.1 < b.1 + b.2)

/-- The current thread's tile instruction waits in its place of issue for those before it (R215). -/
def WaitsBehind (s t : State) (ks : List Nat) (bs : List (Nat × Nat)) : Prop :=
  OnlyThread { s with serial := s.serial + 1 } t ∧ t.th = { s.th with tile := some ⟨s.serial, ks, bs⟩, stall := some .granule }

/-- No tile differs but those of the slots `ks` on the current core's slabs. -/
def SameTiles (s t : State) (ks : List Nat) : Prop := ∀ key, (∀ b ∈ s.mySlabs, ∀ k ∈ ks, key ≠ tileKey b k) → t.tile key = s.tile key

/-- What n steps of an outer product do to slot k (R205, R206): element (i, j) of slab σ, for an active row and a computed column, takes
one fused multiply-add rounded to FC after another, in the order of the steps; a row's flag is set once its value of a step, or a column
of a step, is poisoned and some column is computed. Every other element, row and slot is as it was. -/
structure OuterProduct (s t : State) (f : FmtX) (l : Lg) (sub : Bool) (cols : List Nat) (row col : Nat → Nat → Nat → OxVal) : Prop where
  element : ∀ σ b, s.mySlabs[σ]? = some b →
    let k := f.ad.toNat
    let r := tileDim (s.slotShape k)
    ∀ i, i < r → ∀ j, j < r →
    let active := decide (σ * r + i < s.th.vl) && s.vec.maskBit f.m.toNat (σ * r + i)
    let step := fun (x : Nat) (n : Nat) => (roundTo l.fc
      (if l.sr then { l.ctx with low32 := low32 l.seed (σ * r + i) j (l.sn + BitVec.ofNat 64 n) } else l.ctx)
      (fmaV l.ctx.mode (if sub then (row σ n i).val.negate else (row σ n i).val) (col σ n j).val (plainVal l.fc false x)).1).1
    ((t.tileAt b k).row i).getD j 0 =
      if active = true ∧ j ∈ cols then (List.range (oxSteps f)).foldl step (((s.tileAt b k).row i).getD j 0)
      else ((s.tileAt b k).row i).getD j 0
  flag : ∀ σ b, s.mySlabs[σ]? = some b →
    let k := f.ad.toNat
    let r := tileDim (s.slotShape k)
    ∀ i, i < r →
    ((t.tileAt b k).flag i = true ↔ (s.tileAt b k).flag i = true ∨
      (σ * r + i < s.th.vl ∧ s.vec.maskBit f.m.toNat (σ * r + i) = true ∧
        ∃ n, n < oxSteps f ∧ ∃ j ∈ cols, (row σ n i).pois = true ∨ (col σ n j).pois = true))
  others : SameTiles s t [f.ad.toNat]

/-! The words of the spec: engines (R216 to R238). -/

/-- Bytes that an engine finds at an address in local memory, clean, under translations that the core holds, none of them in a line of
`apart`. -/
def HoldsAt (s : State) (core : Nat) (cred : Cred) (a : Word) (bs : List Byte) (apart : Nat → Prop) : Prop :=
  ∀ o, o < bs.length → ∃ pa key frame, locate s core cred (a + BitVec.ofNat 64 o) .ld true = (.here pa key frame, s) ∧
    isolated s pa = false ∧ physQuality s pa 1 = .clean ∧ physRead s pa 1 key = [bs.getD o 0] ∧ ¬ apart (pa / 64)

/-- n bytes at an address that an engine may write: local, no sealed extent, no isolated port. -/
def TakesAt (s : State) (core : Nat) (cred : Cred) (a : Word) (n pa key : Nat) : Prop :=
  inSealed s pa n = false ∧ ∀ o, o < n → ∃ frame, locate s core cred (a + BitVec.ofNat 64 o) .st true = (.here (pa + o) key frame, s) ∧
    isolated s (pa + o) = false

/-- No page that the core has translated is migrating, and no replica follows the device's writes. -/
def Settled (s : State) (core : Nat) : Prop := (∀ t ∈ (s.core core).tlb, nbits t.ent.toNat 7 2 ≠ 1) ∧ shadowPort s = none

/-- The completion word of a record is none, or one that takes the device's store (R335). -/
def State.TakesWord (s : State) (r : Rec) : Prop :=
  r.cw = 0 ∨ (isVirt r.cw = true ∧ r.cw.toNat % 8 = 0 ∧ ∃ pa key, TakesAt s 0 r.cred r.cw 8 pa key)

/-- The completion word of a record, where it has one, reads v, and nothing else of memory has changed (R334, R335). -/
def WordReads (s t : State) (r : Rec) (v : Nat) : Prop :=
  (r.cw = 0 → t.mem = s.mem) ∧
  (r.cw ≠ 0 → ∀ pa key, TakesAt s 0 r.cred r.cw 8 pa key → Stores s t pa (natBytes 8 v) key)

/-- No write of an invocation is still to be performed (R334). -/
def State.Unwritten (s : State) (e : Nat) : Prop :=
  (∀ b ∈ s.bank, b.entry ≠ e) ∧ ∀ r ∈ s.fab.replay, r.entry = some e → r.abandoned = true

/-- The current triad's channel k is `c`; every other channel, and all else of the device but the current thread, is as in `u`. -/
structure OnlyChannel (u t : State) (k : Nat) (c : Chan) : Prop extends OnlyTriad u t where
  channel : t.tr.chan k = c
  channels : ∀ j, j ≠ k → t.tr.chan j = u.tr.chan j
  triad : t.tr = { u.tr.setRole u.cur.role t.th with chans := t.tr.chans }

/-! The words of the spec: traps and saves (R345 to R365). -/

/-- The 64-bit word at an offset of bytes. -/
def wordIn (bs : List Byte) (o : Nat) : Word := BitVec.ofNat 64 (bytesNat ((bs.drop o).take 8))

/-- A triad that a trap can stop: every role is at an instruction boundary, a handler and a context area in HBM4E are set, no VFETCH is in
progress, and no replica follows the device's writes. -/
structure Stoppable (s : State) (c : Nat) : Prop where
  started : s.Has c
  number : c < 4096
  bounded : ∀ q, inFlight ((s.triad c).role q) = false
  plain : ∀ f, (s.triad c).computer.stall ≠ some (.vfetch f)
  handler : (s.core (s.triad c).core).trapvec.getLsbD 63 = true
  area : (s.triad c).traprec.getLsbD 63 = true
  near : areaOf (s.triad c).traprec < 2 ^ 39
  unsealed : inSealed s (areaOf (s.triad c).traprec) 4096 = false
  alone : shadowPort s = none

/-- A triad in which no role has trapped and none is in a handler. -/
structure TrapFree (s : State) (c : Nat) : Prop where
  first : (s.triad c).trapper = none
  outside : ∀ q, ((s.triad c).role q).inHandler = false
  untrapped : ∀ q, ((s.triad c).role q).trap = none

/-- A role that has stopped for a trap, or none: what it waited for and what was under way are dropped, and the engine command whose fault
its record reports is kept. -/
def RoleState.halted (r : RoleState) (p : Option TrapPost) : RoleState :=
  { r with blk := [], stall := none, resume := none, rbuf := [], want := [], trap := none, logged := [], tile := none, mesh := none,
           reported := p.bind (·.cmd) }

/-- The phase that a role waits for at a barrier, or is to wait for when it goes on (R354). -/
def RoleState.waitPhase (r : RoleState) : Option Nat :=
  match r.stall, r.resume with
  | some (.vfetch _), _ => none
  | some (.barrier _ ph _ _), none => some ph
  | some (.barrier ..), some m => some m.phase
  | _, some m => if m.cont && m.cnt.all (· == 0) then some m.phase else none
  | _, none => none

/-- The mesh entries that a stalled topology command of a triad took (R295). -/
def Triad.tookMesh (t : Triad) (e : Nat) : Prop :=
  ∃ (q : Role) (f : FmtE) (op : Nat) (blk : List Byte) (m : Option Nat) (b : List Nat), (t.role q).stall = some (.topo f op blk m b) ∧ e ∈ b

/-- The triad c of s has entered the handler of role h for the traps `posts` of its roles (R348, R351, R352, R353): the context area holds
the triad's state as it stood and nothing else of memory has changed, the role h is privileged at BASE + 128 times its class with its
registers kept, the other roles have stopped, and the rest of the device is as it was. -/
structure EntersHandler (s t : State) (c : Nat) (h : Role) (posts : Role → Option TrapPost) : Prop where
  device : t = { s with
    mem := t.mem, triads := t.triads, queues := t.queues, meshes := t.meshes, fab := { s.fab with reads := t.fab.reads } }
  meshes : ∀ e, ((s.triad c).tookMesh e → tfind e t.meshes = none) ∧ (¬ (s.triad c).tookMesh e → tfind e t.meshes = tfind e s.meshes)
  reads : ∀ q, q ∈ t.fab.reads ↔ q ∈ s.fab.reads ∧ q.tid.ctxn ≠ c
  calm : (s.queue (s.triad c).queue).wdForced = none → t.queues = s.queues
  queues : ∀ q, q ≠ (s.triad c).queue → t.queue q = s.queue q
  others : ∀ k, k ≠ c → t.triad k = s.triad k
  triad : t.triad c = { s.triad c with
    loader := (t.triad c).loader, computer := (t.triad c).computer, storer := (t.triad c).storer, trapper := none, handling := some h,
    wdog := false }
  handler : ∀ p, posts h = some p → (t.triad c).role h = { ((s.triad c).role h).halted (some p) with
    pc := BitVec.ofNat 64 (nbits (s.core (s.triad c).core).trapvec.toNat 11 46 * 2048 + 128 * p.cls),
    priv := true, inHandler := true, ended := false }
  stopped : ∀ q, q ≠ h → (t.triad c).role q = ((s.triad c).role q).halted (posts q)
  area : ∃ bs : List Byte, bs.length = 4096 ∧ Stores s t (areaOf (s.triad c).traprec) bs 0 ∧
    let w := wordIn bs
    let n := s.triad c
    w 0 = BitVec.ofNat 64 (c + h.num * 2 ^ 12 + if n.wdog = true ∧ ∀ p, posts h = some p → p.cls ≠ 10 then 2 ^ 14 else 0) ∧
    w 0x8 = n.vstat ∧ (∀ i, i < 6 → w (0x10 + 8 * i) = n.eix.getD i 0) ∧ w 0x40 = n.seed ∧ w 0x48 = n.sn ∧ w 0x50 = n.ptbase ∧
    w 0x58 = BitVec.ofNat 64 n.tag ∧ w 0x60 = BitVec.ofNat 64 n.ptkey ∧
    ∀ q : Role,
      let r := n.role q
      let at_ := 0x100 + 0x400 * q.num
      (∀ i, i < 64 → w (at_ + 8 * i) = r.xr i) ∧ w (at_ + 0x208) = BitVec.ofNat 64 r.vl ∧
      (w (at_ + 0x210)).getLsbD 0 = r.ended ∧ (w (at_ + 0x210)).getLsbD 1 = r.priv ∧
      (posts q = none → w (at_ + 0x200) = r.pc ∧ (w (at_ + 0x218)).getLsbD 63 = false ∧
        (r.resume = none → (∀ i ph d fp, r.stall = some (.barrier i ph d fp) → (w (at_ + 0x210)).getLsbD 2 = true ∧
            (w (at_ + 0x210)).getLsbD 5 = fp ∧ w (at_ + 0x218) = BitVec.ofNat 64 (ph % 2 ^ 32 * 2 ^ 8)) ∧
          (r.waitPhase = none → (∀ f, r.stall ≠ some (.vfetch f)) →
            (w (at_ + 0x210)).getLsbD 2 = false ∧ w (at_ + 0x218) = 0))) ∧
      ∀ p, posts q = some p → w (at_ + 0x200) = p.resume ∧ w (at_ + 0x220) = p.faddr ∧ w (at_ + 0x228) = BitVec.ofNat 64 p.npage ∧
        (∀ i, i < 16 → w (at_ + 0x300 + 16 * i) = BitVec.ofNat 64 (p.pages.getD i (0, 0)).1 ∧
          w (at_ + 0x308 + 16 * i) = BitVec.ofNat 64 (p.pages.getD i (0, 0)).2) ∧
        (p.reissue = true → (w (at_ + 0x210)).getLsbD 2 = p.cont ∧ (w (at_ + 0x210)).getLsbD 3 = true ∧
          w (at_ + 0x2B0) = p.held.setWidth 64) ∧
        w (at_ + 0x218) = BitVec.ofNat 64 (2 ^ 63 + (if p.eng then 2 ^ 62 else 0) + p.unit % 256 * 2 ^ 44 + p.sub % 16 * 2 ^ 40 +
          (if p.cont = false ∧ p.reissue = false ∧ p.resume = r.pc then r.waitPhase.getD p.elem else p.elem) % 2 ^ 32 * 2 ^ 8 + p.cls % 16)

/-- The triad of a state after its return (R356): the header and the role blocks of its context area give its state back, no role is in
a handler, and none waits. -/
structure Returns (s t : State) (c : Nat) (bs : List Byte) : Prop where
  triad : t.triad c = { s.triad c with
    vstat := wordIn bs 0x8, eix := (t.triad c).eix, seed := wordIn bs 0x40, sn := wordIn bs 0x48, ptbase := wordIn bs 0x50,
    tag := (wordIn bs 0x58).toNat % 4096, ptkey := (wordIn bs 0x60).toNat % 128, loader := (t.triad c).loader,
    computer := (t.triad c).computer, storer := (t.triad c).storer, chans := (t.triad c).chans, handling := none, parked := false }
  captures : ∀ i, i < 6 → (t.triad c).eix.getD i 0 = wordIn bs (0x10 + 8 * i)
  roles : ∀ q : Role,
    let r := (t.triad c).role q
    let w := fun o => wordIn bs (0x100 + 0x400 * q.num + o)
    (∀ i, i ≠ 0 → i < 64 → r.xr i = w (8 * i)) ∧
    r = { ((s.triad c).role q).halted ((s.triad c).role q).trap with
      x := r.x, pc := w 0x200, vl := (w 0x208).toNat, priv := (w 0x210).getLsbD 1, ended := (w 0x210).getLsbD 0, inHandler := false,
      resume := r.resume } ∧
    ((w 0x210).getLsbD 2 = false → (w 0x210).getLsbD 3 = false → r.resume = none)

/-- Bytes that stand one after another from a place of memory, and nothing else of memory changed but in their lines. -/
structure Fills (s t : State) (pa : Nat) (bs : List Byte) (key : Nat) : Prop where
  holds : ∀ o, o < bs.length → physRead t (pa + o) 1 key = [bs.getD o 0]
  away : ∀ a k, (∀ o, o < bs.length → a / 64 ≠ (pa + o) / 64) → physRead t a 1 k = physRead s a 1 k

/-- The number that n bytes at an offset hold. -/
def numIn (bs : List Byte) (o n : Nat) : Nat := bytesNat ((bs.drop o).take n)

/-- Where the save area of n slabs holds the poison of EG g of register k, and of entry i of ring q, in bits from 0x7C00 (R359). -/
def savedPois (bs : List Byte) (b : Nat) : Prop := (numIn bs (0x7C00 + b / 8) 1).testBit (b % 8) = true

/-- The save area that holds a slot's vector state for n slabs (R359). -/
structure Saves (n : Nat) (v : VecState) (bs : List Byte) : Prop where
  length : bs.length = 0x8000 + 0x70000 * n
  version : numIn bs 0 1 = 1
  slabs : 2 ^ (numIn bs 1 1 % 4) = n
  cfg : wordIn bs 0x8 = v.cfg
  rings : ∀ q, q < 8 → numIn bs (0x10 + q) 1 = (v.ring q).length
  masks : ∀ k, 1 ≤ k → k < 16 → numIn bs (0x400 + 2048 * (k - 1)) 2048 = v.mask k
  regs : ∀ k, k < 64 → numIn bs (0x8000 + 4096 * n * k) (4096 * n) = v.reg k
  entries : ∀ q, q < 8 → ∀ i e, (v.ring q)[i]? = some e → numIn bs (0x8000 + 0x40000 * n + 4096 * n * (4 * q + i)) (4096 * n) = e.bits
  regPois : ∀ k, k < 64 → ∀ g, g < 16 * n → (savedPois bs (16 * n * k + g) ↔ smem (egKey k g) v.pois = true)
  ringPois : ∀ q, q < 8 → ∀ i e, (v.ring q)[i]? = some e → ∀ g, g < 16 * n →
    (savedPois bs (1024 * n + 16 * n * (4 * q + i) + g) ↔ smem g e.pois = true)
  vps : ∀ p, v.vp = some p → nbits (numIn bs 0 8) 10 1 = 1 ∧ 8 * 2 ^ nbits (numIn bs 0 8) 11 2 = p.ew ∧ numIn bs 0x18 8 = p.total ∧
    ∀ i, i < 4096 * n →
      let at_ := 0x8000 + 0x60000 * n + 16 * i
      let q := tget ⟨0, false, 0⟩ i p.vps
      numIn bs at_ 8 = q.pc.toNat + (if q.live then 1 else 0) ∧ numIn bs (at_ + 8) 4 = q.sr
  none : v.vp = none → nbits (numIn bs 0 8) 10 1 = 0

/-- A vector state that n bound slabs can hold. -/
structure VecState.fits (v : VecState) (n : Nat) : Prop where
  slabs : n = 1 ∨ n = 2 ∨ n = 4
  regs : ∀ k, k < 64 → v.reg k < 2 ^ (32768 * n)
  masks : ∀ k, 1 ≤ k → k < 16 → v.mask k < 2 ^ 16384
  rings : ∀ q, q < 8 → (v.ring q).length ≤ 4 ∧ ∀ e ∈ v.ring q, e.bits < 2 ^ (32768 * n) ∧ e.pois.Nodup ∧ ∀ g ∈ e.pois, g < 16 * n
  pois : v.pois.Nodup ∧ ∀ x ∈ v.pois, x / 64 < 64 ∧ x % 64 < 16 * n
  vps : ∀ p, v.vp = some p → (p.ew = 8 ∨ p.ew = 16 ∨ p.ew = 32 ∨ p.ew = 64) ∧ p.total ≤ 4096 * n ∧
    ∀ q ∈ p.vps, q.2.pc.toNat % 8 = 0 ∧ q.2.sr < 2 ^ 32

/-! The words of the spec: VP mode (R93 to R97). -/

/-- The cohort at pc of the current thread's VFETCH `v` has issued its word, and nothing else of the device has changed but its slot's
vector state: each VP of the cohort stands where `dest` says, its SR count higher by `adv`, or has ended where that is none, every other
VP is as it was, the word's events join those held, and the vector state besides is `w`. -/
structure CohortDone (s t : State) (v : VpState) (pc : Word) (w : VecState) (dest : Nat → Option Word) (adv : Nat) (ev : Ev) :
    Prop where
  device : t = { s with slots := t.slots }
  slots : ∀ k, k ≠ s.tr.slotKey → t.slot k = s.slot k
  slot : ∃ v', t.slot s.tr.slotKey = { s.slot s.tr.slotKey with vec := { w with vp := some v' } } ∧ v'.cohort = none ∧ v'.ew = v.ew ∧
    v'.total = v.total ∧ v'.blocks = v.blocks ∧ v'.held = v.held ||| ev ∧
    ∀ e p, tfind e v.vps = some p → ∃ p', tfind e v'.vps = some p' ∧
      (p.live = true ∧ p.pc = pc → (∀ a, dest e = some a → p'.live = true ∧ p'.pc = a ∧ p'.sr = p.sr + adv) ∧ (dest e = none → p'.live = false)) ∧
      (¬ (p.live = true ∧ p.pc = pc) → p' = p)

/-! The words of the spec: the fabric (R366 to R385). -/

/-- The fabric port is enabled and up (R367). -/
def State.port (s : State) : Prop := s.fab.idtab.fen = true ∧ s.fab.idtab.fst = 2

/-- No invocation waits for its last writes alone. -/
def State.noneEnding (s : State) : Prop := ∀ p ∈ s.entries, p.2.retired + p.2.killedGangs ≠ p.2.rcd.gangs ∧ p.2.dropped = false

/-- A is not after B in sequence numbers modulo 2^32 (R374). -/
def NotAfter (a b : Nat) : Prop := (b + 2 ^ 32 - a % 2 ^ 32) % 2 ^ 32 < 2 ^ 31

/-- No thread waits for an answer from an LCN. -/
def State.noneWaits (s : State) (l : Nat) : Prop :=
  ∀ u, (∀ k w d ty ea f, (s.thread u).stall = some (.atomic k w d ty ea f) → k ≠ l) ∧
    (∀ v w wait got post, (s.thread u).stall = some (.vatomic v w wait got post) → ∀ x ∈ wait, x.1 ≠ l) ∧
    ∀ f, (s.thread u).stall = some (.fstat f) → ((s.thread u).xr f.xa.toNat).toNat ≠ l

/-- An LCN has become lost (R376, R377): its entry says so, the writes of threads to it are abandoned, every other transaction to it and
every read of it is gone, and the lines that a thread had asked of it are there, zero and poisoned. -/
structure LosesLcn (s t : State) (l : Nat) : Prop where
  entry : t.ident l = { s.ident l with state := 2 }
  others : ∀ k, k ≠ l → t.ident k = s.ident k
  replay : ∀ r, r ∈ t.fab.replay ↔ (r ∈ s.fab.replay ∧ (r.lcn ≠ l ∨ r.abandoned = true)) ∨
    ∃ q ∈ s.fab.replay, q.lcn = l ∧ q.abandoned = false ∧ q.owner ≠ none ∧ q.returns = false ∧ r = { q with abandoned := true }
  reads : ∀ r, r ∈ t.fab.reads ↔ r ∈ s.fab.reads ∧ r.lcn ≠ l
  lines : ∀ r ∈ s.fab.reads, r.lcn = l → r.txn.kind = 0 → s.Has r.tid.ctxn → ∀ i, i < r.txn.nbyte / 64 →
    tfind (r.slot + i) (t.thread r.tid).rbuf = some ⟨List.replicate 64 0, true⟩ ∧ r.slot + i ∉ (t.thread r.tid).want
  memory : t.mem = s.mem

end Machine

end Sys2Proof
end

