-- ==== Sys2Proof/Certificates/Slice0/Obligations.lean ====
section
/-! DEFINITION. The statements about this device, one definition each: what the rules of the spec say its instructions and events
do, and what they leave alone. -/

open Sys2Proof Sys2Proof.Machine

/-- ADD, SUB, MUL and ADDI complete: with OPV[0] = 0 the result is the low w bits of the sum, difference or product, extended by T; with
OPV[0] = 1 it is the exact result brought into the range of T (R109, R110, R112). MULH, DIV, REM, MIN and MAX complete with the integers
that R110 and R111 give: the high half of the exact product; the quotient truncated toward zero, all ones for a divisor 0 and the dividend
for the lowest value divided by −1; the remainder with the sign of the dividend, the dividend itself for a divisor 0; the smaller and the
larger value. -/
def Obligations.IntegerArithmetic : Prop :=
  (∀ s : State, s.Started →
     (∀ f : FmtA, isIntT f.t = true →
       (f.opv.getLsbD 0 = false →
         Completes (.add f) s (fun t => Writes s t f.xd (widen f.t (lowOf f.t (s.x f.xa + s.x f.xb)))) ∧
         Completes (.sub f) s (fun t => Writes s t f.xd (widen f.t (lowOf f.t (s.x f.xa - s.x f.xb)))) ∧
         Completes (.mul f) s (fun t => Writes s t f.xd (widen f.t (lowOf f.t (s.x f.xa * s.x f.xb))))) ∧
       (f.opv.getLsbD 0 = true →
         Completes (.add f) s (fun t => WritesInt s t f.t f.xd (max (loT f.t) (min (hiT f.t) (intOf f.t (s.x f.xa) + intOf f.t (s.x f.xb))))) ∧
         Completes (.sub f) s (fun t => WritesInt s t f.t f.xd (max (loT f.t) (min (hiT f.t) (intOf f.t (s.x f.xa) - intOf f.t (s.x f.xb))))) ∧
         Completes (.mul f) s (fun t => WritesInt s t f.t f.xd (max (loT f.t) (min (hiT f.t) (intOf f.t (s.x f.xa) * intOf f.t (s.x f.xb))))))) ∧
     (∀ f : FmtB, isIntT f.t = true →
       (f.opv.getLsbD 0 = false →
         Completes (.addi f) s (fun t => Writes s t f.xd (widen f.t (lowOf f.t (s.x f.xa + f.imm32.signExtend 64))))) ∧
       (f.opv.getLsbD 0 = true →
         Completes (.addi f) s (fun t => WritesInt s t f.t f.xd
           (max (loT f.t) (min (hiT f.t) (intOf f.t (s.x f.xa) + intOf f.t (f.imm32.signExtend 64)))))))) ∧
  (∀ (f : FmtA) (s : State), s.Started → isIntT f.t = true →
     let a := intOf f.t (s.x f.xa)
     let b := intOf f.t (s.x f.xb)
     Completes (.mulh f) s (fun t => WritesInt s t f.t f.xd (a * b / (2 ^ tWidth f.t : Nat))) ∧
     Completes (.div f) s (fun t => WritesInt s t f.t f.xd
       (if b = 0 then (if tSigned f.t then -1 else 2 ^ tWidth f.t - 1) else if a = loT f.t ∧ b = -1 then a else Int.tdiv a b)) ∧
     Completes (.rem f) s (fun t => WritesInt s t f.t f.xd (if b = 0 then a else Int.tmod a b)) ∧
     Completes (.min f) s (fun t => WritesInt s t f.t f.xd (min a b)) ∧
     Completes (.max f) s (fun t => WritesInt s t f.t f.xd (max a b)))

/-- The logic and shift instructions complete: the bitwise result of the low w bits, a shift or rotation by the low bits of b taken modulo
w, or by imm32, extended by T (R110, R112). CLZ, CTZ, POPC, BREV, BEXT and BINS complete: the counts and the bit patterns that R110 and
R113 describe. CMP, CMPI, SEL, LEA, MOVI and MOVHI complete: 1 or 0 by the condition between the w-bit values, the register that x[xc]
selects, the scaled sum, and the immediates (R112, R113). -/
def Obligations.IntegerBitsComparesAndMoves : Prop :=
  (∀ s : State, s.Started →
     (∀ f : FmtA, isIntT f.t = true →
       let a := lowOf f.t (s.x f.xa)
       let b := lowOf f.t (s.x f.xb)
       let k := b.toNat % tWidth f.t
       Completes (.and f) s (fun t => Writes s t f.xd (widen f.t (a &&& b))) ∧
       Completes (.or f) s (fun t => Writes s t f.xd (widen f.t (a ||| b))) ∧
       Completes (.xor f) s (fun t => Writes s t f.xd (widen f.t (a ^^^ b))) ∧
       Completes (.shl f) s (fun t => Writes s t f.xd (widen f.t (a <<< k))) ∧
       Completes (.shr f) s (fun t => Writes s t f.xd (widen f.t (a >>> k))) ∧
       Completes (.sra f) s (fun t => Writes s t f.xd (widen f.t (a.sshiftRight k))) ∧
       Completes (.rotl f) s (fun t => Writes s t f.xd (widen f.t (a.rotateLeft k)))) ∧
     (∀ f : FmtB, isIntT f.t = true →
       let a := lowOf f.t (s.x f.xa)
       let i := lowOf f.t (f.imm32.signExtend 64)
       Completes (.andi f) s (fun t => Writes s t f.xd (widen f.t (a &&& i))) ∧
       Completes (.ori f) s (fun t => Writes s t f.xd (widen f.t (a ||| i))) ∧
       Completes (.xori f) s (fun t => Writes s t f.xd (widen f.t (a ^^^ i))) ∧
       (f.imm32.toNat < tWidth f.t →
         Completes (.shli f) s (fun t => Writes s t f.xd (widen f.t (a <<< f.imm32.toNat))) ∧
         Completes (.shri f) s (fun t => Writes s t f.xd (widen f.t (a >>> f.imm32.toNat))) ∧
         Completes (.srai f) s (fun t => Writes s t f.xd (widen f.t (a.sshiftRight f.imm32.toNat)))))) ∧
  (∀ (f : FmtA) (s : State), s.Started →
     (isIntT f.t = true →
       let a := lowOf f.t (s.x f.xa)
       Completes (.clz f) s (fun t => ∃ n, LeadingZeros (tWidth f.t) n a ∧ Writes s t f.xd (BitVec.ofNat 64 n)) ∧
       Completes (.ctz f) s (fun t => ∃ n, TrailingZeros (tWidth f.t) n a ∧ Writes s t f.xd (BitVec.ofNat 64 n)) ∧
       Completes (.popc f) s (fun t =>
         Writes s t f.xd (BitVec.ofNat 64 ((List.range (tWidth f.t)).countP fun i => a.getLsbD i))) ∧
       Completes (.brev f) s (fun t => ∃ b, Writes s t f.xd (widen f.t b) ∧
         ∀ i, i < tWidth f.t → b.getLsbD i = a.getLsbD (tWidth f.t - 1 - i))) ∧
     (let pos := f.imm16.toNat % 64
      let len := f.imm16.toNat / 64 % 64 + 1
      pos + len ≤ 64 →
       Completes (.bext f) s (fun t => ∃ v, Writes s t f.xd v ∧ ∀ i, i < 64 →
         v.getLsbD i = if i < len then (s.x f.xa).getLsbD (pos + i) else f.opv.getLsbD 0 && (s.x f.xa).getLsbD (pos + len - 1)) ∧
       Completes (.bins f) s (fun t => ∃ v, Writes s t f.xd v ∧ ∀ i, i < 64 →
         v.getLsbD i = if pos ≤ i ∧ i < pos + len then (s.x f.xb).getLsbD (i - pos) else (s.x f.xa).getLsbD i))) ∧
  (∀ s : State, s.Started →
     (∀ f : FmtA,
       (isIntT f.t = true → Completes (.cmp f) s (fun t => ∃ v, Writes s t f.xd v ∧ (v = 0 ∨ v = 1) ∧
         (v = 1 ↔ holdsAt f.t (f.opv.toNat % 8) (lowOf f.t (s.x f.xa)) (lowOf f.t (s.x f.xb))))) ∧
       (s.x f.xc ≠ 0 → Completes (.sel f) s (fun t => Writes s t f.xd (s.x f.xa))) ∧
       (s.x f.xc = 0 → Completes (.sel f) s (fun t => Writes s t f.xd (s.x f.xb))) ∧
       Completes (.lea f) s (fun t => Writes s t f.xd (s.x f.xa + s.x f.xb * BitVec.ofNat 64 (2 ^ (f.opv.toNat % 4)) + f.imm16.signExtend 64))) ∧
     (∀ f : FmtB,
       (isIntT f.t = true → Completes (.cmpi f) s (fun t => ∃ v, Writes s t f.xd v ∧ (v = 0 ∨ v = 1) ∧
         (v = 1 ↔ holdsAt f.t (f.opv.toNat % 8) (lowOf f.t (s.x f.xa)) (lowOf f.t (f.imm32.signExtend 64))))) ∧
       Completes (.movi f) s (fun t => Writes s t f.xd (f.imm32.signExtend 64)) ∧
       Completes (.movhi f) s (fun t => Writes s t f.xd (BitVec.ofNat 64 (f.imm32.toNat * 2 ^ 32 + (s.x f.xa).toNat % 2 ^ 32)))))

/-- FADD, FSUB, FMUL, FDIV, FSQRT and FFMA complete when no event they raise is enabled and only the computer rounds stochastically: xd
takes the exact result rounded once to format T with the word's own mode, SAT and FTZ, and the events are merged with index 0. -/
def Obligations.ScalarFloatArithmetic : Prop :=
  ∀ (f : FmtA) (s : State), s.Started →
    let a := s.fpVal f f.xa
    let b := s.fpVal f f.xb
    let Rounds (i : Instr) (x : Val × Ev) : Prop :=
      let r := roundTo (fpFmt f.t) (s.fpCtx f) x.1
      s.fpRuns f (x.2 ||| r.2) → Completes i s (fun t => FpResult s t f.xd r.1 (x.2 ||| r.2) (fpRm f == 5))
    Rounds (.fadd f) (addV (fpMode f) a b) ∧
    Rounds (.fsub f) (addV (fpMode f) a b.negate) ∧
    Rounds (.fmul f) (mulV a b) ∧
    Rounds (.fdiv f) (divV a b) ∧
    Rounds (.fsqrt f) (sqrtV a) ∧
    Rounds (.ffma f) (fmaV (fpMode f) a b (s.fpVal f f.xc))

/-- The exact results behind the scalar and vector arithmetic are those of the numbers: for finite operands the value that is then rounded
is the sum, the product, the quotient by a number that is not 0, and the product plus the addend, with no event. Rounding of a number to a
floating-point format that raises no overflow and flushes nothing: RDN gives the largest finite number of the format that is not above it,
RUP the smallest that is not below it, RTZ the nearest of those not further from zero, and RNE and RNA one that no finite number of the
format is nearer to. -/
def Obligations.RoundingIsCorrect : Prop :=
  (∀ (m : RMode) (a b c : Val) (x y z : Rat), a.rat = some x → b.rat = some y → c.rat = some z →
     (addV m a b).1.rat = some (x + y) ∧ (addV m a b).2 = 0 ∧
     (mulV a b).1.rat = some (x * y) ∧ (mulV a b).2 = 0 ∧
     (y ≠ 0 → (divV a b).1.rat = some (x / y) ∧ (divV a b).2 = 0) ∧
     (fmaV m a b c).1.rat = some (x * y + z) ∧ (fmaV m a b c).2 = 0 ∧
     a.negate.rat = some (-x) ∧ (cmpV a b = .lt ↔ x < y) ∧ (cmpV a b = .eq ↔ x = y)) ∧
  (∀ (f : Fmt) (c : RCtx) (v : Val) (x : Rat), f.isF = true → v.rat = some x → c.ftz = false →
     (roundTo f c v).2.getLsbD 2 = false →
     ∃ y, f.number (roundTo f c v).1 = some y ∧ ∀ n z, f.number n = some z →
       (c.mode = .rdn → y ≤ x ∧ (z ≤ x → z ≤ y)) ∧
       (c.mode = .rup → x ≤ y ∧ (x ≤ z → y ≤ z)) ∧
       (c.mode = .rtz → |y| ≤ |x| ∧ (0 ≤ x * z → |z| ≤ |x| → |z| ≤ |y|)) ∧
       (c.mode = .rne ∨ c.mode = .rna → |x - y| ≤ |x - z|))

/-- FMIN, FMAX, FCMP, FCLASS, FSGN and FCVT complete under the same conditions. FMIN and FMAX keep a source's bits: the smaller or the
larger operand, a where they compare equal; with one NaN the other operand, or the canonical NaN when NaNs propagate; with two the
canonical NaN. FCMP writes 1 or 0, FCLASS one bit of ten, 0 to 3 for a set sign and 4 to 7 for a clear one, FSGN the bits of a under
another sign, and FCVT the value of a in the type that imm16[3:0] names. FCVT completes when no event it raises is enabled: xd takes the
value of a, of type T, in the type that imm16[3:0] names: rounded to a floating-point type, and rounded to an integer, wrapped or clamped
and then extended, for an integer type. Where it rests on the model's own choices they are those of log entry 50. -/
def Obligations.ScalarFloatSelectionsAndConversions : Prop :=
  (∀ (f : FmtA) (s : State), s.Started → 8 ≤ f.t.toNat → f.t.toNat ≤ 11 →
     let fm := fpFmt f.t
     let a := s.fpVal f f.xa
     let b := s.fpVal f f.xb
     let na := fpBits f.t (s.x f.xa)
     let nb := fpBits f.t (s.x f.xb)
     let sg : Ev := if a.isSig || b.isSig then evIV else 0
     let Gives (i : Instr) (bits : Nat) : Prop := s.fpRuns f sg → Completes i s (fun t => FpResult s t f.xd bits sg (fpRm f == 5))
     (a.isNan = false → b.isNan = false →
       Gives (.fmin f) (if cmpV a b = .gt then nb else na) ∧ Gives (.fmax f) (if cmpV a b = .lt then nb else na)) ∧
     (a.isNan = true → b.isNan = false → fpSub f ≠ 1 → Gives (.fmin f) nb ∧ Gives (.fmax f) nb) ∧
     (a.isNan = false → b.isNan = true → fpSub f ≠ 1 → Gives (.fmin f) na ∧ Gives (.fmax f) na) ∧
     (a.isNan = true → b.isNan = true → Gives (.fmin f) fm.qnan ∧ Gives (.fmax f) fm.qnan) ∧
     (a.isNan = true ∨ b.isNan = true → fpSub f = 1 → Gives (.fmin f) fm.qnan ∧ Gives (.fmax f) fm.qnan) ∧
     (let un := a.isNan || b.isNan
      let ev : Ev := if (if fpSub f = 1 ∨ fpSub f = 2 then un else a.isSig || b.isSig) then evIV else 0
      enabled s.tr.vstat &&& ev = 0 → Completes (.fcmp f) s (fun t => ∃ n, FpResult s t f.xd n ev false ∧ (n = 0 ∨ n = 1) ∧
       (fpSub f = 0 → (n = 1 ↔ un = false ∧ cmpV a b = .eq)) ∧
       (fpSub f = 1 → (n = 1 ↔ un = false ∧ cmpV a b = .lt)) ∧
       (fpSub f = 2 → (n = 1 ↔ un = false ∧ cmpV a b ≠ .gt)) ∧
       (fpSub f = 3 → (n = 1 ↔ un = true)) ∧
       (fpSub f = 4 → (n = 1 ↔ un = true ∨ cmpV a b ≠ .eq)))) ∧
     Completes (.fclass f) s (fun t => ∃ k, k ≤ 9 ∧ FpResult s t f.xd (2 ^ k) 0 false ∧
       (k = 8 ↔ decodeF fm na = .nan true) ∧ (k = 9 ↔ decodeF fm na = .nan false) ∧
       (k = 0 ↔ decodeF fm na = .inf true) ∧ (k = 7 ↔ decodeF fm na = .inf false) ∧
       (k = 3 ∨ k = 4 ↔ fm.number na = some 0) ∧ (k = 2 ∨ k = 5 ↔ subnormalCode fm na = true) ∧
       (k ≤ 7 → (k ≤ 3 ↔ na.testBit fm.signBit = true))) ∧
     Completes (.fsgn f) s (fun t => ∃ n, FpResult s t f.xd n 0 false ∧ n < 2 ^ fm.width ∧
       (∀ i, i < fm.signBit → n.testBit i = (na.testBit i && !(fpDaz f && subnormalCode fm na))) ∧
       (fpSub f = 0 → n.testBit fm.signBit = nb.testBit fm.signBit) ∧
       (fpSub f = 1 → n.testBit fm.signBit = !nb.testBit fm.signBit) ∧
       (fpSub f = 2 → n.testBit fm.signBit = (na.testBit fm.signBit != nb.testBit fm.signBit)))) ∧
  (∀ (f : FmtA) (s : State), s.Started →
     let u := BitVec.ofNat 4 f.imm16.toNat
     let a := s.fpVal f f.xa
     let r := roundTo (fpFmt u) (s.fpCtx f) a
     let ev : Ev := (if a.isSig then evIV else 0) ||| r.2
     s.fpRuns f ev →
       (8 ≤ u.toNat → Completes (.fcvt f) s (fun t => FpResult s t f.xd r.1 ev (fpRm f == 5))) ∧
       (u.toNat ≤ 7 → Completes (.fcvt f) s (fun t => ∃ v : BitVec (tWidth u),
         v.toNat = r.1 % 2 ^ tWidth u ∧ FpResult s t f.xd (widen u v).toNat ev (fpRm f == 5))))

/-- NOP and the transfers complete: BC, BAL, JR and JALR go to their 128-byte aligned target, BC only when its condition holds between the
64-bit values; BAL and JALR link the first 128-byte boundary above the word, JALR after reading xa; LOOP counts down and goes back until
the new count is 0. Each changes nothing but the pc and the register named. The successor of a word is the next word of its block, and
after the block's last word the block at the next 128-byte boundary. -/
def Obligations.ControlTransfers : Prop :=
  (∀ (f : FmtJ) (s : State), s.Started →
     let rel := s.th.pc + f.disp40.signExtend 64 * 8#64
     let abs := s.x f.xa + f.disp40.signExtend 64 * 8#64
     let link := nextBlock s.th.pc
     let Goes (i : Instr) (a : Word) : Prop := Completes i s (fun t => OnlyThread s t ∧ StandsAt s t a [])
     let Links (i : Instr) (a : Word) (d : BitVec 6) (v : Word) : Prop := Completes i s (fun t =>
       OnlyThread s t ∧ StandsAt s t a [d] ∧ t.x d = if d = 0#6 then 0 else v)
     (s.vpNow = none → ∀ y, Goes (.nop y) s.th.successor) ∧
     (rel.toNat % 128 = 0 →
       (holdsAt 3#4 f.cond.toNat (lowOf 3#4 (s.x f.xa)) (lowOf 3#4 (s.x f.xb)) → Goes (.bc f) rel) ∧
       (¬ holdsAt 3#4 f.cond.toNat (lowOf 3#4 (s.x f.xa)) (lowOf 3#4 (s.x f.xb)) → Goes (.bc f) s.th.successor) ∧
       Links (.bal f) rel f.xa link ∧
       (f.xa ≠ 0#6 → s.x f.xa ≠ 1 → Links (.loop f) rel f.xa (s.x f.xa - 1)) ∧
       (f.xa ≠ 0#6 → s.x f.xa = 1 → Links (.loop f) s.th.successor f.xa 0)) ∧
     (abs.toNat % 128 = 0 → Goes (.jr f) abs ∧ Links (.jalr f) abs f.xb link)) ∧
  (∀ (r : RoleState) (k : Nat), r.blkBase.toNat % 128 = 0 → k < r.blk.length → r.blk.length ≤ 16 →
     r.pc = r.blkBase + BitVec.ofNat 64 (8 * k) →
     (k + 1 < r.blk.length → r.successor = r.blkBase + BitVec.ofNat 64 (8 * (k + 1)) ∧ r.advance.blk = r.blk) ∧
     (k + 1 = r.blk.length → r.successor = r.blkBase + 128#64 ∧ r.advance.blk = []))

/-- BLOCK_ENTRY completes when the block can be fetched: the thread holds its words from the block's boundary to the first that carries E,
at most sixteen, and its pc and registers are as they were. EXIT completes, where no other role of the triad waits for this one: the role
has ended and stands after its word, and everything else of the triad is as it was. Where it rests on the model's own choices they are
those of log entry 46. -/
def Obligations.BlocksAreEnteredAndRolesEnd : Prop :=
  (∀ (s u : State) (ws : List Word), s.Started → fetchBlock s (blockOf s.th.pc) = (.ok ws, u) →
     (s.th.pc - blockOf s.th.pc).toNat / 8 < ws.length →
     ws.length ≤ 16 ∧ (∀ w, ws.getLast? = some w → w.getLsbD 63 = true) ∧ (∀ w ∈ ws.dropLast, w.getLsbD 63 = false) ∧
     Completes .blockEntry s (fun t => OnlyThread u t ∧ t.th.blk = ws ∧ t.th.blkBase = blockOf s.th.pc ∧ t.th.pc = u.th.pc ∧
       t.th.stall = none ∧ ∀ n, t.x n = u.x n)) ∧
  (∀ (y : FmtY) (s : State), s.Started → s.tr.trapper = none →
     (∀ r, r ≠ s.cur.role → (s.tr.role r).ended = true ∨
       ((∀ w d, (s.tr.role r).stall ≠ some (.vcfg w d)) ∧ ∀ q wr, (s.tr.role r).stall ≠ some (.ring q wr))) →
     Completes (.exit y) s (fun t => OnlyThread s t ∧ t.th.ended = true ∧ t.th.pc = s.th.successor ∧
       t.th.stall = none ∧ (∀ n, t.x n = s.x n)))

/-- MFSR completes: each state register reads what it holds, the SY_ registers only in a privileged thread, and a register with fields of
its own reads them at their places; a slot without an owner reads 0 in SY_VOWNER. DENYLOG_READ completes in a privileged thread: it
removes the oldest entry of the deny log and returns it, or returns 0 when the log is empty. -/
def Obligations.StateRegistersRead : Prop :=
  (∀ (f : FmtB) (s : State), s.Started →
     let n := stateRegNo f
     let Reads (v : Word) : Prop := Completes (.mfsr f) s (fun t => Writes s t f.xd v)
     (n = 0x000 → Reads (BitVec.ofNat 64 s.th.vl)) ∧ (n = 0x001 → Reads s.tr.vstat) ∧
     (∀ c, c < 6 → n = 0x002 + c → Reads (s.tr.eix.getD c 0)) ∧
     (n = 0x008 → Reads s.tr.seed) ∧ (n = 0x009 → Reads s.tr.sn) ∧
     (n = 0x00A → Reads (BitVec.ofNat 64 s.tr.gangId)) ∧ (n = 0x00B → Reads (BitVec.ofNat 64 s.tr.gangs)) ∧
     (n = 0x00C → Reads (BitVec.ofNat 64 s.tr.triadId)) ∧ (n = 0x00D → Reads (BitVec.ofNat 64 s.tr.core)) ∧
     (n = 0x00E → Reads (BitVec.ofNat 64 s.fab.idtab.lcn)) ∧ (n = 0x00F → Reads (BitVec.ofNat 64 s.time)) ∧
     (∀ k, k < 16 → n = 0x010 + k →
       let c := tget Chan.init k s.tr.chans
       Reads (BitVec.ofNat 64 ((if c.wmA then 2 ^ 63 else 0) + c.mark))) ∧
     (n = 0x020 → Reads (BitVec.ofNat 64 (s.io.trained * 2 ^ 16 + s.io.code * 2 ^ 8 + s.io.stage))) ∧
     (s.th.priv = true →
       (n = 0x800 → Reads s.tr.ptbase) ∧ (n = 0x801 → Reads (BitVec.ofNat 64 s.tr.tag)) ∧
       (n = 0x802 → Reads (BitVec.ofNat 64 s.tr.ptkey)) ∧ (n = 0x803 → Reads (s.core s.tr.core).trapvec) ∧
       (n = 0x804 → Reads s.tr.traprec) ∧
       (n = 0x806 → let q := s.queue s.tr.queue
         Reads (BitVec.ofNat 64 ((if q.wdEn then 2 ^ 63 else 0) + q.wdStage * 2 ^ 61 + q.wdGrace * 2 ^ 32 + q.wdLimit))) ∧
       (n = 0x807 → let i := s.fab.idtab
         Reads (BitVec.ofNat 64 ((if i.fen then 2 ^ 63 else 0) + (if i.rep then 2 ^ 62 else 0) + (if i.shd then 2 ^ 61 else 0) +
           (if i.cur then 2 ^ 60 else 0) + i.fst * 2 ^ 58 + i.shlcn * 2 ^ 48 + i.port * 2 ^ 8 + i.lcn))) ∧
       (n = 0x808 → let m := s.io.sem
         let ms := (m.remNs + 999999) / 1000000
         Reads (BitVec.ofNat 64 (m.owner * 2 ^ 61 + m.takes * 2 ^ 32 + m.lease * 2 ^ 16 + (if m.owner = 0 then 0 else ms) % 2 ^ 16))) ∧
       (n = 0x805 → Completes (.mfsr f) s (fun t => ∃ v, Writes s t f.xd v ∧ ∀ j, j < 4 →
         ((s.slot (slotKey s.tr.core j)).owner = none → nbits v.toNat (16 * j) 16 = 0) ∧
         ∀ c, c < 4096 → (s.slot (slotKey s.tr.core j)).owner = some c → nbits v.toNat (16 * j) 16 = 2 ^ 15 + c)) ∧
       (n = 0x80A →
         let die := s.tr.core / 28
         let spare := Config.spareQuad die % 8
         let byte (k : Nat) : Nat := if k = spare then 0xF0 else
           let wq := if k < spare then k else k - 1
           wq * 2 ^ 4 + (if Config.paired die k then 2 ^ 3 else 0) + tget 0 (7 * die + wq) s.modes
         Reads (BitVec.ofNat 64 ((List.range 8).map fun k => byte k * 2 ^ (8 * k)).sum)))) ∧
  (∀ (f : FmtB) (s : State), s.Started → s.th.priv = true →
     (s.deny = [] → Completes (.denylogRead f) s (fun t => Writes s t f.xd 0)) ∧
     (∀ e l, s.deny = e :: l → Completes (.denylogRead f) s (fun t => Writes { s with deny := l } t f.xd e)))

/-- MTSR completes: a write changes the register's RW fields and nothing else of the device, a read-only register is as it was, and the
thread goes on at the successor. Where it rests on the model's own choices they are those of log entries 51, 67. -/
def Obligations.StateRegistersWrite : Prop :=
  ∀ (f : FmtB) (s : State), s.Started →
    let n := stateRegNo f
    let v := s.x f.xa
    let Sets (u : State) : Prop := Completes (.mtsr f) s (fun t => OnlyThread u t ∧ StandsAt u t s.th.successor [])
    (n = 0x001 → Sets (s.modTr fun r => { r with vstat := v &&& 0x73F3F#64 })) ∧
    (∀ c, c < 6 → n = 0x002 + c → Sets (s.modTr fun r => { r with eix := lset c (v &&& 0x80000000FFFFFFFF#64) r.eix })) ∧
    (n = 0x008 → Sets (s.modTr fun r => { r with seed := v })) ∧ (n = 0x009 → Sets (s.modTr fun r => { r with sn := v })) ∧
    (n = 0x000 ∨ (0x00A ≤ n ∧ n < 0x021) → Sets s) ∧
    (s.th.priv = true →
      (n = 0x800 → Sets (s.modTr fun r => { r with ptbase := v &&& 0xFFFFFFFFFFFFFF00#64 })) ∧
      (n = 0x801 → Sets (s.modTr fun r => { r with tag := v.toNat % 4096 })) ∧
      (n = 0x802 → Sets (s.modTr fun r => { r with ptkey := v.toNat % 128 })) ∧
      (n = 0x803 → Sets { s with cores := tset s.tr.core { s.core s.tr.core with trapvec := v &&& 0x81FFFFFFFFFFF800#64 } s.cores }) ∧
      (n = 0x804 → areaOf v < 2 ^ 39 → Sets (s.modTr fun r => { r with traprec := v &&& 0x800FFFFFFFFFF000#64 })) ∧
      (n = 0x804 → 2 ^ 39 ≤ areaOf v → Sets s) ∧
      (n = 0x806 → Sets (s.modQueue s.tr.queue fun q =>
        { q with wdEn := v.getLsbD 63, wdGrace := v.toNat / 2 ^ 32 % 2 ^ 24, wdLimit := v.toNat % 2 ^ 32 })) ∧
      (n = 0x807 → s.fab.idtab.fen = false → v.getLsbD 63 = true → Sets { s with fab := { s.fab with idtab :=
        { s.fab.idtab with fen := true, fst := 1, rep := v.getLsbD 62, lcn := v.toNat % 128 } } }) ∧
      (n = 0x807 → s.fab.idtab.fen = false → v.getLsbD 63 = false → Sets { s with fab := { s.fab with idtab :=
        { s.fab.idtab with rep := v.getLsbD 62, lcn := v.toNat % 128 } } }) ∧
      (n = 0x807 → s.fab.idtab.fen = true → v.getLsbD 63 = true → Sets s) ∧
      (n = 0x807 → s.fab.idtab.fen = true → v.getLsbD 63 = false → Sets { s with fab := { s.fab with idtab :=
        { s.fab.idtab with fen := false, fst := 0 } } }) ∧
      (n = 0x808 → Sets { s with io := { s.io with sem := s.io.sem.write 4 v } }) ∧
      (n = 0x805 ∨ n = 0x809 ∨ n = 0x80A → Sets s))

/-- LD and ST complete on local memory: an aligned access whose translation gives local clean memory loads the bytes, extended by S, or
stores the low bytes of the register, little-endian; no other byte of memory and no other register changes. LDW completes: inside a bound
window it reads the value at the window's base plus the offset; at or beyond the bound size it reads 0, sets VSTAT.PWOOB and logs one
entry of kind 4. Where it rests on the model's own choices they are those of log entries 8, 49. -/
def Obligations.ScalarLoadsStoresAndWindowReads : Prop :=
  (∀ (f : FmtM) (s u : State) (pa key frame : Nat), s.Started → f.scope.toNat ≠ 4 →
     let n := 2 ^ segWm f
     (Finds s u (s.eaM f) n .ld pa key frame → physQuality u pa n = .clean →
       Completes (.ld f) s (fun t =>
         let w : BitVec (8 * n) := BitVec.ofNat _ (numberAt u pa n key)
         Writes u t f.v (if segS f then w.signExtend 64 else w.setWidth 64))) ∧
     (Finds s u (s.eaM f) n .st pa key frame → inSealed u pa n = false → Reached u pa → shadowPort u = none →
       Completes (.st f) s (fun t => OnlyMemory u t ∧ StandsAt u t u.th.successor [] ∧
         Stores u t pa (natBytes n (s.x f.v).toNat) key))) ∧
  (∀ (f : FmtB) (s : State), s.Started → f.t.toNat ≤ 7 ∨ f.t = 15#4 → s.tr.tag < 4096 → s.tr.core < 128 → s.tr.slot < 4 →
     let k := f.opv.toNat % 8
     let w := s.tr.win k
     let o := s.x f.xa + f.imm32.signExtend 64
     let n := tWidth (if f.t = 15#4 then 7#4 else f.t) / 8
     w.size ≠ 0 → o.toNat % n = 0 →
     (o.toNat + n ≤ w.size → ∀ (u : State) (pa key frame : Nat), isVirt (w.base + o) = true →
       Finds s u (w.base + o) n .ld pa key frame →
       physQuality u pa n = .clean → Completes (.ldw f) s (fun t => Writes u t f.xd
         (widen (if f.t = 15#4 then 7#4 else f.t) (BitVec.ofNat _ (numberAt u pa n key))))) ∧
     (w.size < o.toNat + n → Completes (.ldw f) s (fun t => t.x f.xd = 0 ∧ t.th.pc = s.th.successor ∧
       t.tr.vstat = s.tr.vstat ||| 0x10000#64 ∧ SameBytes s t ∧
       (s.denyLost = 0 → s.deny.length < 4096 → ∃ e, t.deny = s.deny ++ [e] ∧ e.toNat / 2 ^ 61 = 4 ∧
         e.toNat % 2 ^ 36 = k * 2 ^ 32 + max o.toNat w.size % 2 ^ 32))))

/-- AMO, RAMO and CAS complete on local memory: xd takes the old value, extended by T, and the location takes the new one: the sum, the
bitwise result, the smaller or larger value, the operand, the floating-point sum rounded to nearest, or for CAS and RAMO 8 the operand
where the old value equals x[xc]. -/
def Obligations.ScalarAtomics : Prop :=
  ∀ (f : FmtA) (s u : State) (pa key frame : Nat), s.Started → f.t.toNat ≤ 11 →
    let n := tWidth f.t / 8
    Finds s u (s.x f.xa + f.imm16.signExtend 64) n .rmw pa key frame → physQuality u pa n = .clean → inSealed u pa n = false →
    Reached u pa → shadowPort u = none →
    let old : BitVec (tWidth f.t) := BitVec.ofNat _ (numberAt u pa n key)
    let b := lowOf f.t (s.x f.xb)
    let Swaps (i : Instr) (new : BitVec (tWidth f.t)) : Prop := Completes i s (fun t =>
      OnlyMemory u t ∧ StandsAt u t u.th.successor [f.xd] ∧ (t.x f.xd = if f.xd = 0#6 then 0 else widen f.t old) ∧
      Stores u t pa (natBytes n new.toNat) key)
    let Both (new : BitVec (tWidth f.t)) : Prop := (f.opv.toNat / 16 % 8 ≠ 4 → Swaps (.amo f) new) ∧ Swaps (.ramo f) new
    let op := f.opv.toNat % 16
    let fm := fpFmt f.t
    let swap := if old = lowOf f.t (s.x f.xc) then b else old
    (8 ≤ f.t.toNat → op = 7 → Both (BitVec.ofNat _ (roundTo fm ⟨.rne, false, false, 0⟩
      (addV .rne (plainVal fm false old.toNat) (plainVal fm false b.toNat)).1).1)) ∧
    (op = 0 → Both (old + b)) ∧ (op = 1 → Both (old &&& b)) ∧ (op = 2 → Both (old ||| b)) ∧ (op = 3 → Both (old ^^^ b)) ∧
    (op = 6 → Both b) ∧
    (op = 4 → Both (if (if tSigned f.t then b.toInt < old.toInt else b.toNat < old.toNat) then b else old)) ∧
    (op = 5 → Both (if (if tSigned f.t then old.toInt < b.toInt else old.toNat < b.toNat) then b else old)) ∧
    (op = 8 → Swaps (.ramo f) swap) ∧ (f.opv.toNat / 16 % 8 ≠ 4 → Swaps (.cas f) swap)

/-- A virtual address is translated by its leaf: a page that needs privilege, a store to a page without W, a fetch from a page without X
fault with cause 2, an empty key slot with cause 4, a fetch of another domain's page with cause 6; any other access of another domain's
page is denied, and an access that passes every check reaches the frame plus the offset in the page. An access reaches memory through the
address's class and nothing else: an address that is neither virtual nor atlas faults with cause 5, an atlas address with cause 7 unless
its unit is held for the thread's domain; finding the place changes nothing of the device but the core's translation cache and, on a
migrating page, the line that is pulled. Where it rests on the model's own choices they are those of log entries 45, 47, 48. -/
def Obligations.AddressesAndTranslation : Prop :=
  (∀ (s u : State) (core : Nat) (c : Cred) (va : Nat) (acc : Acc) (pull : Bool) (lvl e : Nat),
     lookup s core c va = (.leaf lvl e, u) → nbits e 7 2 ≠ 1 →
     let frame := nbits e 16 36 * 65536
     let r := translate s core c va acc pull
     let forbidden := (nbits e 4 1 = 1 ∧ c.priv = false) ∨ ((acc = .st ∨ acc = .rmw) ∧ nbits e 2 1 = 0) ∨ (acc = .fetch ∧ nbits e 3 1 = 0)
     let keyless := frame < 2 ^ 51 ∧ encrypted u frame = true ∧ slotEmpty u (nbits e 9 7) = true
     let foreign := nbits e 52 12 ≠ c.tag
     (forbidden → r = (.fault 2, u)) ∧
     (¬ forbidden → keyless → r = (.fault 4, u)) ∧
     (¬ forbidden → ¬ keyless → foreign → acc = .fetch → r = (.fault 6, u)) ∧
     (¬ forbidden → ¬ keyless → ¬ (foreign ∧ acc = .fetch) →
       r = (.ok (frame + va % 2 ^ pageShift lvl) (nbits e 9 7) (nbits e 52 12) (nbits e 52 12 != c.tag) lvl e, u))) ∧
  (∀ (s u : State) (core : Nat) (c : Cred) (a : Word) (acc : Acc) (pull : Bool) (l : Loc), locate s core c a acc pull = (l, u) →
     (classify a = .noncanon → l = .fault 5 ∧ u = s) ∧
     (∀ n, classify a = .atlas n → u = s ∧ (atlasFault s c.tag n = true → l = .fault 7) ∧
       (atlasFault s c.tag n = false → l = .here (2 ^ 44 + n) 0 0)) ∧
     u = { s with cores := u.cores, mem := u.mem, fab := u.fab } ∧
     (∀ k, k ≠ core → u.core k = s.core k) ∧ (u.core core).trapvec = (s.core core).trapvec ∧
     (s.mem.wf = true → u.mem.wf = true) ∧
     ((∀ va lvl e v, classify a = .virt va → lookup s core c va = (.leaf lvl e, v) → nbits e 7 2 ≠ 1) → u.mem = s.mem ∧ u.fab = s.fab))

/-- A denied access by domain completes and gives away nothing: LD, AMO and CAS read 0, ST stores nothing, VSTAT.DENY is set, and the deny
log takes one entry with the kind, the triad's domain and the page's frame. Where it rests on the model's own choices they are those of
log entry 31. -/
def Obligations.DeniedAccessesReadZero : Prop :=
  ∀ (f : FmtM) (g : FmtA) (s u : State) (frame : Nat), s.Started → frame < 2 ^ 36 → s.tr.tag < 4096 → s.tr.core < 128 → s.tr.slot < 4 →
    u.denyLost = 0 → u.deny.length < 4096 →
    let Denied (i : Instr) (kind : Nat) (ds : List (BitVec 6)) : Prop := Completes i s (fun t =>
      SameBytes u t ∧ t.th.pc = u.th.successor ∧ (∀ n, n ∉ ds → t.x n = u.x n) ∧ (∀ d ∈ ds, t.x d = 0) ∧
      t.tr.vstat = u.tr.vstat ||| 0x20000#64 ∧ ∃ e, t.deny = u.deny ++ [e] ∧
        e.toNat / 2 ^ 61 = kind ∧ e.toNat / 2 ^ 47 % 2 ^ 12 = s.tr.tag ∧ e.toNat % 2 ^ 36 = frame)
    (f.scope.toNat ≠ 4 → (s.eaM f).toNat % 2 ^ segWm f = 0 →
      (locate s s.tr.core s.cred (s.eaM f) .ld true = (.denied frame, u) → Denied (.ld f) 1 [f.v]) ∧
      (locate s s.tr.core s.cred (s.eaM f) .st true = (.denied frame, u) → Denied (.st f) 2 [])) ∧
    (g.opv.toNat / 16 % 8 ≠ 4 → (s.x g.xa + g.imm16.signExtend 64).toNat % (tWidth g.t / 8) = 0 →
      locate s s.tr.core s.cred (s.x g.xa + g.imm16.signExtend 64) .rmw true = (.denied frame, u) →
        Denied (.amo g) 2 [g.xd] ∧ Denied (.cas g) 2 [g.xd])

/-- SETVL completes: VL and xd take the smaller of the request and the number of elements that a register holds at the width of T. VMOVX
and VINSX complete: VMOVX moves element x[vb] of a clean EG to a scalar register, extended by T, or 0 for an index at or beyond VL; VINSX
puts the low bits of a scalar register into that one element and keeps poison, and changes nothing for an index at or beyond VL. -/
def Obligations.SetvlAndScalarElements : Prop :=
  (∀ (f : FmtA) (s : State), s.Started → f.t.toNat ≤ 11 →
     let w := if f.t.toNat = 8 then 64 else if f.t.toNat = 9 then 32 else if 10 ≤ f.t.toNat then 16 else tWidth f.t
     let vl := min (s.x f.xa + f.imm16.setWidth 64).toNat (32768 * s.bound s.tr.core / w)
     Completes (.setvl f) s (fun t => OnlyThread s t ∧ t.th.vl = vl ∧ t.th.pc = s.th.successor ∧
       (∀ n, n ≠ f.xd → t.x n = s.x n) ∧ (f.xd ≠ 0#6 → t.x f.xd = BitVec.ofNat 64 vl))) ∧
  (∀ (f : FmtV) (s : State), s.quiet → f.t.toNat ≤ 11 →
     let w := tw f.t
     let k := (s.x f.vb).toNat
     let o := opnd f.qa f.va
     (VectorReady s (f.grp == 0#2 && f.m == 0#4 && vDecode s.vec.cfg s.cur.role 1 [] [vField f.qa f.va 1]) (s.vlOk w) [o] [] →
       (k < s.th.vl → s.vec.opPois o 0 (egOf w k) = false → Completes (.vmovx f) s (fun t => ∃ v, VectorDone s t v Evs.none 0 [f.vd] ∧
         (f.vd ≠ 0#6 → t.x f.vd = extT f.t (elemAt (s.vec.opBits o 0) w k)) ∧
         v = { s.vec with rings := v.rings } ∧ RingsTaken s.vec v [o] (.reg 0))) ∧
       (s.th.vl ≤ k → Completes (.vmovx f) s (fun t => ∃ v, VectorDone s t v Evs.none 0 [f.vd] ∧ t.x f.vd = 0 ∧
         v = { s.vec with rings := v.rings } ∧ RingsTaken s.vec v [o] (.reg 0)))) ∧
     (VectorReady s (f.grp == 0#2 && f.m == 0#4 && !f.qd && vDecode s.vec.cfg s.cur.role 1 [vField false f.vd 1] []) (s.vlOk w) [] [] →
       Completes (.vinsx f) s (fun t => ∃ v, VectorDone s t v Evs.none 0 [] ∧ v = { s.vec with v := v.v } ∧
         ∀ n e, elemAt (v.reg n) w e =
           if n = f.vd.toNat ∧ e = k ∧ k < s.th.vl then (s.x f.va).toNat % 2 ^ w else elemAt (s.vec.reg n) w e)))

/-- The arithmetic vector instructions complete: with their checks passed and no event enabled, each active element of each register of
the destination group takes the result of R140 on its sources' elements, rounded to FD with its own random bits, or the canonical integer
corner of R143; a result is poisoned when a source element is, and then raises nothing. Where it rests on the model's own choices they are
those of log entries 14, 16, 17. -/
def Obligations.VectorArithmetic : Prop :=
  ∀ (f : FmtV) (s : State) (lg : Lg), s.quiet →
    let act := s.vec.active f.m.toNat s.th.vl
    let dst := opnd f.qd f.vd
    let Gives (i : Instr) (op : AOp) (n : Nat) (res : RCtx → Elt → Elt → Elt → Nat × Ev) : Prop :=
      s.arithLg op f = some lg → (dst = .reg f.vd.toNat ∨ f.g = 1) →
      VectorReady s (elemDecode s.vec.cfg s.cur.role f n) (s.vlOk (maxWidth (op.widths lg))) (vOpnds f n) [dst] →
      Completes i s (fun t =>
        let elt (q : Bool) (v : BitVec 6) (fm : Fmt) (j e : Nat) : Elt := readElt s.vec (s.bound s.tr.core) lg (lgSrc lg f.g q v fm) j e
        let a := elt f.qa f.va lg.fa
        let b := elt f.qb f.vb lg.fb
        let c := elt f.qc f.vc lg.fc
        let pois := fun j e => (a j e).pois || (decide (2 ≤ n) && (b j e).pois) || (decide (3 ≤ n) && (c j e).pois)
        let out := fun j e => res (lg.at j e) (a j e) (b j e) (c j e)
        ∃ v ev, VectorDone s t v ev lg.sr.toNat [] ∧
          Elementwise s.vec v act (vOpnds f n) dst f.g lg.fd.width (fun j e => (out j e).1) pois ∧
          EventsOf ev f.g s.th.vl act (fun j e => if pois j e then 0 else (out j e).2))
    ArithResults f lg Gives

/-- The vector instructions on bit patterns complete and raise no event: each active element takes the bitwise, shifted, rotated, counted
or reversed bits of its sources at the width of T; VMOV copies, VSEL chooses by the bits of vc, VMERGE by a mask for every element below
VL, VBCAST writes the low bits of a scalar register and VRAMP base + e × step or base + the rank. -/
def Obligations.VectorBitPatterns : Prop :=
  ∀ (f : FmtV) (s : State), s.quiet → f.t.toNat ≤ 11 →
    let w := tw f.t
    let act := s.vec.active f.m.toNat s.th.vl
    let dst := opnd f.qd f.vd
    let Gives (i : Instr) (n : Nat) (extra : Bool) (res : Nat → BitVec w → BitVec w → BitVec w → BitVec w)
        (pois : Nat → BitVec w → Bool → Bool → Bool → Bool) : Prop :=
      (dst = .reg f.vd.toNat ∨ f.g = 1) →
      VectorReady s (extra && vDecode s.vec.cfg s.cur.role f.g [vField f.qd f.vd f.g] (vFields f n)) (s.vlOk w) (vOpnds f n) [dst] →
      Completes i s (fun t =>
        let bits (q : Bool) (v : BitVec 6) (j e : Nat) : BitVec w := BitVec.ofNat w (elemAt (s.vec.opBits (opnd q v) j) w e)
        let bad (q : Bool) (v : BitVec 6) (j e : Nat) : Bool := s.vec.opPois (opnd q v) j (egOf w e)
        ∃ v, VectorDone s t v Evs.none 0 [] ∧ Elementwise s.vec v act (vOpnds f n) dst f.g w
          (fun j e => (res e (bits f.qa f.va j e) (bits f.qb f.vb j e) (bits f.qc f.vc j e)).toNat)
          (fun j e => pois e (bits f.qc f.vc j e) (bad f.qa f.va j e) (bad f.qb f.vb j e) (bad f.qc f.vc j e)))
    BitResults f (s.vec.maskBit (f.vc.toNat % 16)) Gives ∧
    Gives (.vbcast f) 0 true (fun _ _ _ _ => (s.x f.va).setWidth w) (fun _ _ _ _ _ => false) ∧
    (f.opv.getLsbD 0 = false →
      Gives (.vramp f) 0 true (fun e _ _ _ => (s.x f.va + BitVec.ofNat 64 e * s.x f.vb).setWidth w) (fun _ _ _ _ _ => false)) ∧
    (f.opv.getLsbD 0 = true → Gives (.vramp f) 0 true
      (fun e _ _ _ => (s.x f.va + BitVec.ofNat 64 (act.countP fun k => decide (k < e))).setWidth w) (fun _ _ _ _ _ => false))

/-- VCMP completes when no active source element is poisoned: each active element's bit of the destination mask says whether the
comparison holds, every other bit and mask keeps its value, and unordered operands raise IV as R146 says. The mask instructions complete:
the governed bits of the destination, those below VL whose bit of the governing mask is 1, take the result and every other bit keeps its
value; VMPOP counts, VMFIRST finds the lowest, and VMTOX and VMFROMX move 64 bits. -/
def Obligations.VectorComparesAndMasks : Prop :=
  (∀ (f : FmtV) (s : State) (lg : Lg), s.quiet → s.cmpLg f = some lg →
     VectorReady s (cmpDecode s.vec.cfg s.cur.role f) (s.vlOk (maxWidth [lg.fa.width, lg.fb.width])) (vOpnds f 2) [] →
     let act := s.vec.active f.m.toNat s.th.vl
     let a := fun e => readElt s.vec (s.bound s.tr.core) lg (lgSrc lg 1 f.qa f.va lg.fa) 0 e
     let b := fun e => readElt s.vec (s.bound s.tr.core) lg (lgSrc lg 1 f.qb f.vb lg.fb) 0 e
     (∀ e ∈ act, (a e).pois = false ∧ (b e).pois = false) →
     let d := f.vd.toNat % 16
     let c := f.opv.toNat % 8
     Completes (.vcmp f) s (fun t => ∃ v ev, VectorDone s t v ev lg.sr.toNat [] ∧ v = { s.vec with m := v.m, rings := v.rings } ∧
       RingsTaken s.vec v (vOpnds f 2) (.reg 0) ∧
       (∀ k e, k ≠ d ∨ e ∉ act → (tget 0 k v.m).testBit e = (tget 0 k s.vec.m).testBit e) ∧
       (∀ e ∈ act, CmpBit c (a e).val (b e).val ((tget 0 d v.m).testBit e)) ∧
       EventsOf ev 1 s.th.vl act (fun _ e => cmpRaises c (a e).val (b e).val))) ∧
  (∀ (f : FmtV) (s : State), s.quiet →
     let d := f.vd.toNat % 16
     let gov := fun e => decide (e < s.th.vl) && s.vec.maskBit f.m.toNat e
     let a := fun e => s.vec.maskBit (f.va.toNat % 16) e
     let b := fun e => s.vec.maskBit (f.vb.toNat % 16) e
     let MaskTo (i : Instr) (res : Nat → Bool) : Prop := s.th.vl ≤ 16384 → VectorReady s (d != 0) true [] [] →
       Completes i s (fun t => ∃ v, VectorDone s t v Evs.none 0 [] ∧ v = { s.vec with m := v.m } ∧
         ∀ k e, (tget 0 k v.m).testBit e = if k = d ∧ gov e = true then res e else (tget 0 k s.vec.m).testBit e)
     let first (p : Nat → Bool) (e : Nat) : Prop := p e = true ∧ ∀ k, k < e → p k = false
     MaskTo (.vmand f) (fun e => a e && b e) ∧ MaskTo (.vmor f) (fun e => a e || b e) ∧ MaskTo (.vmxor f) (fun e => a e != b e) ∧
     MaskTo (.vmnot f) (fun e => !a e) ∧ MaskTo (.vmandn f) (fun e => a e && !b e) ∧ MaskTo (.vmmov f) a ∧
     ((∀ e, ¬ (a e = true ∧ gov e = true)) → MaskTo (.vmsetf f) (fun _ => true)) ∧
     (∀ n, first (fun e => a e && gov e) n →
       MaskTo (.vmsetf f) (fun e => if f.opv.getLsbD 0 then decide (e < n) else decide (e ≤ n))) ∧
     (s.th.vl ≤ 16384 → VectorReady s true true [] [] →
       Completes (.vmpop f) s (fun t => Writes s t f.vd (BitVec.ofNat 64 ((List.range s.th.vl).countP fun e => a e && gov e))) ∧
       ((∀ e, ¬ (a e = true ∧ gov e = true)) → Completes (.vmfirst f) s (fun t => Writes s t f.vd (BitVec.allOnes 64))) ∧
       (∀ n, first (fun e => a e && gov e) n → Completes (.vmfirst f) s (fun t => Writes s t f.vd (BitVec.ofNat 64 n)))) ∧
     (let k := (s.x f.vb).toNat
      VectorReady s (f.m == 0#4) true [] [] → Completes (.vmtox f) s (fun t => ∃ x, Writes s t f.vd x ∧ ∀ i, i < 64 →
       x.getLsbD i = (decide (k < 256) && a (64 * k + i)))) ∧
     (let k := (s.x f.vb).toNat
      VectorReady s (f.m == 0#4 && d != 0) true [] [] → Completes (.vmfromx f) s (fun t => ∃ v, VectorDone s t v Evs.none 0 [] ∧
       v = { s.vec with m := v.m } ∧ ∀ n e, (tget 0 n v.m).testBit e =
         if n = d ∧ k < 256 ∧ 64 * k ≤ e ∧ e < 64 * k + 64 then (s.x f.va).getLsbD (e - 64 * k) else (tget 0 n s.vec.m).testBit e)))

/-- VCFG and its rendezvous: the role that issues VCFG waits for the other two; when all three wait with one good word, it becomes the
configuration word, each role's xd takes the old one and each goes on, and rings whose direction changes lose their entries. VECTOR_ISSUE:
the slot after the one that issued last has its turn, then the next; in it a ready role that has not issued for seven issues goes first,
then the computer, then the one that has waited longest; the issue enters the history of its triad. A ring wait ends when each ring has
its entry or room, and a vector instruction whose remote data is here goes on at once. Where it rests on the model's own choices they are
those of log entries 9, 53, 86. -/
def Obligations.ConfigurationAndArbitration : Prop :=
  (∀ s : State, s.Started →
     (∀ f : FmtA, s.ownsVec = true → s.tr.trapper = none → (∀ r, (s.tr.role r).ended = false) →
       (∀ r q w, (s.tr.role r).stall ≠ some (.ring q w)) →
       Completes (.vcfg f) s (fun t => OnlyThread s t ∧ t.th = { s.th with stall := some (.vcfg (s.x f.xa) f.xd.toNat) })) ∧
     (∀ (w : Word) (dl dc ds : Nat), s.tr.loader.stall = some (.vcfg w dl) → s.tr.computer.stall = some (.vcfg w dc) →
       s.tr.storer.stall = some (.vcfg w ds) → w.toNat < 2 ^ 32 → w.getLsbD 15 = false →
       cfgNL w + cfgNC w + cfgNS w ≤ 64 →
       Completes .vcfgRendezvous s (fun t =>
         t = { s with triads := t.triads, slots := t.slots } ∧ t.vec.cfg = w ∧
         (∀ q, q < 8 → t.vec.ring q = if ringDir w q = ringDir s.vec.cfg q then s.vec.ring q else []) ∧
         t.vec = { s.vec with cfg := w, rings := t.vec.rings } ∧
         t.tr = { s.tr with
           loader := (s.tr.loader.setXr dl s.vec.cfg).advance
           computer := (s.tr.computer.setXr dc s.vec.cfg).advance
           storer := (s.tr.storer.setXr ds s.vec.cfg).advance }))) ∧
  (∀ (s : State),
     let core := s.occ.n
     let k := s.core core
     (∀ d c r, 1 ≤ d → d ≤ 4 →
       let j := (k.lastSlot + d) % 4
       let age := lastIssue (s.triad c).issued
       let ready := fun q => vectorReady s ⟨c, q⟩
       slotTriad s core j = some c → ready r = true →
       (∀ b, 1 ≤ b → b < d → ∀ e q, slotTriad s core ((k.lastSlot + b) % 4) = some e → vectorReady s ⟨e, q⟩ = false) →
       ((7 ≤ age r ∧ ∀ q, q ≠ r → ready q = true → age q < age r) ∨
         ((∀ q, ready q = true → age q < 7) ∧
           (r = .computer ∨ (ready .computer = false ∧ ∀ q, q ≠ r → ready q = true → age q < age r)))) →
       Completes .vectorIssue s (fun t =>
         t = { s with cores := t.cores, triads := t.triads, agenda := .run ⟨c, r⟩ :: s.agenda, slip := t.slip, fresh := s.fresh + 1 } ∧
         (∀ n, n ≠ core → t.core n = s.core n) ∧ t.core core = { k with lastSlot := j } ∧
         (∀ n, n ≠ c → t.triad n = s.triad n) ∧ t.triad c = { s.triad c with issued := (t.triad c).issued } ∧
         lastIssue (t.triad c).issued r = 0 ∧ ∀ q, q ≠ r → age q < 6 → lastIssue (t.triad c).issued q = age q + 1)) ∧
     (s.Started →
       (∀ reads write, s.th.stall = some (.ring reads write) → (∀ q ∈ reads, ∃ e l, s.vec.ring q = e :: l ∧ e.open_ = false) →
         (∀ q, write = some q → (s.vec.ring q).length < 4) →
         Completes .ringWaitRelease s (fun t => OnlyThread s t ∧ t.th = { s.th with stall := none })) ∧
       (s.th.stall = some .remote → s.th.want = [] → Completes .vectorInstructionComplete s (fun t => t.th = { s.th with stall := none } ∧
         let vector := s.th.word.any fun w => vectorOp (wordOp w).toNat
         OnlyThread { s with agenda := if vector then .run s.cur :: s.agenda else s.agenda } t))))

/-- VFETCH of the computer with checked words: with active elements each becomes a live VP at the target and the thread waits, with none
x[xb] reads 0 and SN advances. VP_COHORT_ISSUE picks the pc of a live VP, or brings in its block; VPBR sends each VP of the cohort its own
way, VJOIN ends them, NOP goes on, and the arithmetic, bit pattern, comparison and conversion instructions act on them alone.
VFETCH_COMPLETE writes the count, merges the events and advances SN. Where it rests on the model's own choices they are those of log entry
15. -/
def Obligations.VfetchRunsItsVps : Prop :=
  ∀ (f : FmtJ) (s : State), s.Started → s.cur.role = .computer →
    let key := s.tr.slotKey
    let Slot (u t : State) (v : VecState) : Prop := t.slot key = { u.slot key with vec := v } ∧ ∀ k, k ≠ key → t.slot k = u.slot k
    (∀ ws u, s.vpNow = none → s.th.resume = none → (s.target f).toNat % 128 = 0 → fetchBlock s (s.target f) = (.ok ws, u) →
      let ew := 8 * 2 ^ f.cond.toNat
      let act := u.vec.active f.xa.toNat u.th.vl
      vpBlockDecode u (s.target f) ws = none → u.ownsVec = true → u.vlOk ew = true → vpBlockDispatch u ew (s.target f) ws = none →
      (act = [] → Completes (.vfetch f) s (fun t => OnlyTriad u t ∧ StandsAt u t u.th.successor [f.xb] ∧
        (f.xb ≠ 0#6 → t.x f.xb = 0) ∧ t.tr = { u.tr.setRole u.cur.role t.th with sn := u.tr.sn + 1 })) ∧
      (act ≠ [] → Completes (.vfetch f) s (fun t => ∃ v,
        t = { u with triads := t.triads, slots := t.slots } ∧ (∀ c, c ≠ s.cur.ctxn → t.triad c = u.triad c) ∧
        t.tr = u.tr.setRole u.cur.role t.th ∧ t.th = { u.th with stall := some (.vfetch f), rbuf := [], want := [] } ∧
        Slot u t { u.vec with vp := some v } ∧ v.ew = ew ∧ v.total = act.length ∧ v.cohort = none ∧ v.held = 0 ∧ v.sn = u.tr.sn ∧
        ∀ e, tfind e v.vps = if e ∈ act then some ⟨s.target f, true, 0⟩ else none))) ∧
    (∀ v, s.th.stall = some (.vfetch f) → s.vec.vp = some v → v.cohort = none → (v.vps.map (·.1)).Nodup →
      (v.liveVps ≠ [] → (∀ e p, (e, p) ∈ v.vps → p.live = true →
          ∃ ws, tfind (blockOf p.pc).toNat v.blocks = some ws ∧ (p.pc - blockOf p.pc).toNat / 8 < ws.length) →
        Completes .vpCohortIssue s (fun t => ∃ e p, (e, p) ∈ v.vps ∧ p.live = true ∧
          ((∃ i q, (i, q) ∈ v.vps ∧ q.live = true ∧ v.lastVp < i) → v.lastVp < e) ∧
          t = { s with slots := t.slots } ∧ Slot s t { s.vec with vp := some { v with cohort := some p.pc, lastVp := e } })) ∧
      (∀ pc ws u, (∀ e p, (e, p) ∈ v.vps → p.live = true → p.pc = pc) → v.liveVps ≠ [] → tfind (blockOf pc).toNat v.blocks = none →
        fetchBlock s (blockOf pc) = (.ok ws, u) → vpBlockDecode u (blockOf pc) ws = none → vpBlockDispatch u v.ew (blockOf pc) ws = none →
        Completes .vpCohortIssue s (fun t => t = { u with slots := t.slots, triads := t.triads } ∧
          t.tr = u.tr.setRole .computer { u.th with rbuf := [], want := [] } ∧ Slot u t { u.vec with vp := some { v with blocks := tset (blockOf pc).toNat ws v.blocks } })) ∧
      (v.liveVps = [] → s.quiet → Completes .vfetchComplete s (fun t =>
        VectorDone s t { s.vec with vp := none } ⟨v.held, v.hix⟩ 1 [f.xb] ∧
        (f.xb ≠ 0#6 → t.x f.xb = BitVec.ofNat 64 v.total)))) ∧
    (∀ v pc, s.vpNow = some (v, pc) →
      let target := pc + f.disp40.signExtend 64 * 8#64
      let elt := fun (n : BitVec 6) e => elemAt (s.vec.reg n.toNat) v.ew e
      let clean := fun (n : BitVec 6) => ∀ e ∈ v.at pc, s.vec.opPois (.reg n.toNat) 0 (egOf v.ew e) = false
      let holds (e : Nat) : Prop :=
        let a := BitVec.ofNat v.ew (elt f.xa e)
        let b := BitVec.ofNat v.ew (elt f.xb e)
        match f.cond.toNat with
        | 0 => a = b
        | 1 => a ≠ b
        | 2 => a.toInt < b.toInt
        | 3 => b.toInt ≤ a.toInt
        | 4 => a.toNat < b.toNat
        | 5 => b.toNat ≤ a.toNat
        | _ => True
      (1 ≤ v.ew → f.cond.toNat ≤ 6 → target.toNat % 128 = 0 → (f.cond.toNat = 6 ∨ (clean f.xa ∧ clean f.xb)) →
        Completes (.vpbr f) s (fun t => ∃ dest, CohortDone s t v pc s.vec dest 0 0 ∧
          ∀ e, (holds e → dest e = some target) ∧ (¬ holds e → dest e = some (v.next pc)))) ∧
      (∀ y, Completes (.vjoin y) s (fun t => CohortDone s t v pc s.vec (fun _ => none) 0 0)) ∧
      (∀ y, Completes (.nop y) s (fun t => CohortDone s t v pc s.vec (fun _ => some (v.next pc)) 0 0)) ∧
      (∀ (g : FmtV) (lg : Lg), g.q = 0#4 → (v.ew = 8 ∨ v.ew = 16 ∨ v.ew = 32 ∨ v.ew = 64) → (v.at pc).Nodup →
        (∀ e ∈ v.at pc, egOf v.ew e < 64) →
        let act := v.at pc
        let lane := fun e => (tget ⟨0, false, 0⟩ e v.vps).sr
        let adv := if lg.sr then 1 else 0
        let x := fun (n : BitVec 6) fm j e => readElt s.vec (s.bound s.tr.core) lg (lgSrc lg g.g false n fm) j e
        let Gives (i : Instr) (op : AOp) (n : Nat) (res : RCtx → Elt → Elt → Elt → Nat × Ev) : Prop :=
          s.arithLg op g = some lg → lg.fd.width = v.ew → Completes i s (fun t => ∃ w ev,
            let pois := fun j e => (x g.va lg.fa j e).pois || (decide (2 ≤ n) && (x g.vb lg.fb j e).pois) ||
              (decide (3 ≤ n) && (x g.vc lg.fc j e).pois)
            let out := fun j e => res (lg.at (lane e) e) (x g.va lg.fa j e) (x g.vb lg.fb j e) (x g.vc lg.fc j e)
            CohortDone s t v pc w (fun _ => some (v.next pc)) adv ev.ev ∧
            Elementwise s.vec w act (vOpnds g n) (.reg g.vd.toNat) g.g lg.fd.width (fun j e => (out j e).1) pois ∧
            EventsOf ev g.g 0 act (fun j e => if pois j e then 0 else (out j e).2))
        ArithResults g lg Gives ∧
        (s.cvtLg g = some lg → lg.fd.width = v.ew → Completes (.vcvt g) s (fun t => ∃ w ev,
          let r := fun j e => roundTo lg.fd (lg.at (lane e) e) (x g.va lg.fa j e).val
          CohortDone s t v pc w (fun _ => some (v.next pc)) adv ev.ev ∧
          Elementwise s.vec w act (vOpnds g 1) (.reg g.vd.toNat) g.g lg.fd.width (fun j e => (r j e).1)
            (fun j e => (x g.va lg.fa j e).pois) ∧
          EventsOf ev g.g 0 act (fun j e => if (x g.va lg.fa j e).pois then 0 else
            (if (x g.va lg.fa j e).val.isSig then evIV else 0) ||| (r j e).2))) ∧
        (s.cmpLg g = some lg →
          let a := fun e => readElt s.vec (s.bound s.tr.core) lg (lgSrc lg 1 false g.va lg.fa) 0 e
          let b := fun e => readElt s.vec (s.bound s.tr.core) lg (lgSrc lg 1 false g.vb lg.fb) 0 e
          (∀ e ∈ act, (a e).pois = false ∧ (b e).pois = false) →
          Completes (.vcmp g) s (fun t => ∃ w ev, CohortDone s t v pc w (fun _ => some (v.next pc)) adv ev.ev ∧
            w = { s.vec with m := w.m } ∧
            (∀ k e, k ≠ g.vd.toNat % 16 ∨ e ∉ act → (tget 0 k w.m).testBit e = (tget 0 k s.vec.m).testBit e) ∧
            (∀ e ∈ act, CmpBit (g.opv.toNat % 8) (a e).val (b e).val ((tget 0 (g.vd.toNat % 16) w.m).testBit e)) ∧
            EventsOf ev 1 0 act (fun _ e => cmpRaises (g.opv.toNat % 8) (a e).val (b e).val)))) ∧
      (∀ (g : FmtV), g.q = 0#4 → g.t.toNat ≤ 11 → tw g.t = v.ew → (v.at pc).Nodup → (∀ e ∈ v.at pc, egOf v.ew e < 64) →
        BitResults g (s.vec.maskBit (g.vc.toNat % 16)) fun i n _ res pois => Completes i s (fun t => ∃ w,
          let bits := fun (n : BitVec 6) j e => BitVec.ofNat (tw g.t) (elemAt (s.vec.reg (n.toNat + j)) (tw g.t) e)
          let bad := fun (n : BitVec 6) j e => s.vec.opPois (.reg n.toNat) j (egOf (tw g.t) e)
          CohortDone s t v pc w (fun _ => some (v.next pc)) 0 0 ∧
          Elementwise s.vec w (v.at pc) (vOpnds g n) (.reg g.vd.toNat) g.g (tw g.t)
            (fun j e => (res e (bits g.va j e) (bits g.vb j e) (bits g.vc j e)).toNat)
            (fun j e => pois e (bits g.vc j e) (bad g.va j e) (bad g.vb j e) (bad g.vc j e)))))

/-- VCVT, VUNPACK and VPACK in its dense form complete. VCVT rounds each active element of format FA to format FD. VUNPACK gives byte e
the e-th code of a dense stream. VPACK puts the low bits of byte e at place e of the stream and keeps the rest of the register; a code of
a poisoned source poisons the EGs that it touches, and an EG that no code touches keeps its poison. Where it rests on the model's own
choices they are those of log entries 14, 17. -/
def Obligations.VectorConversions : Prop :=
  ∀ (f : FmtV) (s : State) (l : Lg), s.quiet →
    let act := s.vec.active f.m.toNat s.th.vl
    let src := opnd f.qa f.va
    let dst := opnd f.qd f.vd
    let x := fun j e => readElt s.vec (s.bound s.tr.core) l (lgSrc l f.g f.qa f.va l.fa) j e
    let r := fun j e => roundTo l.fd (l.at j e) (x j e).val
    (s.cvtLg f = some l → (dst = .reg f.vd.toNat ∨ f.g = 1) →
      VectorReady s (elemDecode s.vec.cfg s.cur.role f 1) (s.vlOk (maxWidth [l.fa.width, l.fd.width])) [src] [dst] →
      Completes (.vcvt f) s (fun t => ∃ v ev, VectorDone s t v ev l.sr.toNat [] ∧
        Elementwise s.vec v act [src] dst f.g l.fd.width (fun j e => (r j e).1) (fun j e => (x j e).pois) ∧
        EventsOf ev f.g s.th.vl act (fun j e => if (x j e).pois then 0 else
          (if (x j e).val.isSig then evIV else 0) ||| (r j e).2))) ∧
    (s.denseLg f false = some l → (dst = .reg f.vd.toNat ∨ f.g = 1) →
      VectorReady s (vDecode s.vec.cfg s.cur.role f.g [vField f.qd f.vd f.g] (vFields f 1)) (s.vlOk 8) [src] [dst] →
      let w := l.fa.codeWidth
      Completes (.vunpack f) s (fun t => ∃ v, VectorDone s t v Evs.none l.sr.toNat [] ∧
        Elementwise s.vec v act [src] dst f.g 8 (fun j e => bitsAt (s.vec.opBits src j) (w * e) w)
          (fun j e => s.vec.opPois src j (w * e / 2048) || s.vec.opPois src j ((w * (e + 1) - 1) / 2048)))) ∧
    (s.denseLg f true = some l → VectorReady s (s.dec1 f [vField f.qd f.vd 1] (vFields f 1)) (s.vlOk 8) [src] [dst] →
      let w := l.fd.codeWidth
      let touches := fun e eg => e * w / 2048 ≤ eg ∧ eg ≤ ((e + 1) * w - 1) / 2048
      let bad := fun e => s.vec.opPois src 0 (egOf 8 e)
      let code := fun e => elemAt (s.vec.opBits src 0) 8 e % 2 ^ w
      Completes (.vpackDense f) s (fun t => ∃ v, VectorDone s t v Evs.none l.sr.toNat [] ∧ v = { s.vec with v := v.v, pois := v.pois, rings := v.rings } ∧
        RingsTaken s.vec v [src] dst ∧ (∀ n, dst ≠ .reg n → v.reg n = s.vec.reg n ∧
          ∀ eg, eg < 64 → smem (egKey n eg) v.pois = smem (egKey n eg) s.vec.pois) ∧
        (∀ k, dst = .reg k →
          (∀ e, elemAt (v.reg k) w e = if e ∈ act then code e else elemAt (s.vec.reg k) w e) ∧
          (∀ eg, eg < 64 → (∃ e ∈ act, touches e eg ∧ bad e = true) → smem (egKey k eg) v.pois = true) ∧
          (∀ eg, eg < 64 → (∀ e ∈ act, ¬ touches e eg) → smem (egKey k eg) v.pois = smem (egKey k eg) s.vec.pois)) ∧
        (∀ q, dst = .ring q → .ring q ≠ src → ∃ n : RingEnt, v.ring q = s.vec.ring q ++ [n] ∧
          ∀ e, elemAt n.bits w e = if e ∈ act then code e else 0)))

/-- VPACK quant completes: each block with an active element takes one scale and one pair-shift word in its companion bytes, and each of
its active elements the code of its value under them; the pair shifts of a block whose shifts the spec does not give are free. A block
with a poisoned element is poisoned and raises nothing. The scale that VPACK quant gives a block of an MX format with a finite non-zero
element is the exponent of the greatest magnitude less the format's own greatest exponent, held within 0 to 254; a block with an infinity
or NaN takes 255 and a block of zeros 127. Where it rests on the model's own choices they are those of log entries 18, 19. -/
def Obligations.BlockQuantisation : Prop :=
  (∀ (f : FmtV) (s : State) (l : Lg), s.quiet →
     keepIf (s.legendNoScm f ⟨true, false, false, true, true⟩) (fun l => l.fa.wide && l.fd.narrow) = some l →
     VectorReady s (s.dec1 f [vMulti f.qd f.vd 2 1] (vFields f 1)) (s.vlOk (maxWidth [l.fa.width])) [opnd f.qa f.va] [] →
     f.qd = false →
     let act := s.vec.active f.m.toNat s.th.vl
     let x := fun e => readElt s.vec (s.bound s.tr.core) l ⟨opnd f.qa f.va, l.fa, none⟩ 0 e
     let here := fun b => act.filter fun e => e / 32 == b
     let q := fun b => quantBlock l ((here b).map fun e => (e, (x e).val))
     let code := fun e => tget (0, 0) e (q (e / 32)).codes
     let bad := fun b => (here b).any fun e => (x e).pois
     let vd := f.vd.toNat
     Completes (.vpackQuant f) s (fun t => ∃ v ev n, VectorDone { s with fresh := n } t v ev l.sr.toNat [] ∧
       (∀ k, k ≠ vd → k ≠ vd + 1 → v.reg k = s.vec.reg k) ∧ v.m = s.vec.m ∧ RingsTaken s.vec v [opnd f.qa f.va] (.reg vd) ∧
       (∀ e, elemAt (v.reg vd) 8 e = if e ∈ act then (code e).1 % 256 else elemAt (s.vec.reg vd) 8 e) ∧
       (∀ b, here b ≠ [] → bitsAt (v.reg (vd + 1)) (64 * b) 8 = (q b).scale ∧
         (∀ w, (q b).shifts = some w → bitsAt (v.reg (vd + 1)) (64 * b + 32) 32 = w)) ∧
       (∀ b, here b = [] → bitsAt (v.reg (vd + 1)) (64 * b) 64 = bitsAt (s.vec.reg (vd + 1)) (64 * b) 64) ∧
       (∀ e ∈ act, bad (e / 32) = true → smem (egKey vd (egOf 8 e)) v.pois = true ∧
         smem (egKey (vd + 1) (egOf 64 (e / 32))) v.pois = true) ∧
       EventsOf ev 1 s.th.vl act (fun _ e => if bad (e / 32) then 0 else (code e).2))) ∧
  (∀ (l : Lg) (vals : List (Nat × Val)), l.fd.narrow = true →
     ((∃ p ∈ vals, p.2.isNan = true ∨ p.2.isInf = true) → (quantBlock l vals).scale = 255) ∧
     ((∀ p ∈ vals, p.2.isZero = true) → (quantBlock l vals).scale = 127) ∧
     ((∀ p ∈ vals, p.2.isNan = false ∧ p.2.isInf = false) →
       ∀ p ∈ vals, p.2.isZero = false → (∀ r ∈ vals, r.2.isZero = false → r.2.mag.log2 ≤ p.2.mag.log2) →
         ((quantBlock l vals).scale : Int) =
           max 0 (min 254 (p.2.mag.log2 - (if l.fd.isPx then 0 else emaxOf l.fd) + 127))))

/-- The reductions complete: element 0 of the destination takes the sum of the active elements, or of their products, along the tree of
R53, rounded at each node to FC and at the end to FD; the smallest or largest of them, where without `prop` numbers win over NaNs, with it
a NaN over numbers, and two or more NaNs give the canonical NaN or, in a format without one, +0; or their bitwise combination. With no
active element it takes +0, the identity or the identity pattern. VREDARG completes when no active element is poisoned: xd takes the
lowest index of the smallest or largest active element, NaNs last or, with their flag set, first, and all ones when no element is active.
VSCAN completes: each active element takes the running sum, minimum or maximum of the active elements up to it, or before it with `excl`,
the sum rounded to FC at each step and to FD where it is written; poison stays from the first poisoned element on. -/
def Obligations.ReductionsAndScans : Prop :=
  (∀ (f : FmtV) (s : State) (l : Lg), s.quiet →
     let act := s.vec.active f.m.toNat s.th.vl
     let dst := opnd f.qd f.vd
     let x := fun e => readElt s.vec (s.bound s.tr.core) l (lgSrc l 1 f.qa f.va l.fa) 0 e
     let y := fun e => readElt s.vec (s.bound s.tr.core) l (lgSrc l 1 f.qb f.vb l.fb) 0 e
     let Reduces (i : Instr) (n : Nat) (sr : Bool) (w bits : Nat) (pois : Bool) : Prop :=
       Completes i s (fun t => ∃ v ev, VectorDone s t v ev sr.toNat [] ∧
         Elementwise s.vec v [0] (vOpnds f n) dst 1 w (fun _ _ => bits) (fun _ _ => pois))
     let leaf (v : Nat → Val) (p : Nat → Bool) : List (Option (TNode Val)) :=
       (nrange 0 s.th.vl).map fun e => if e ∈ act then some ⟨v e, e, p e⟩ else none
     let Sums (i : Instr) (n : Nat) (v : Nat → Val) (p : Nat → Bool) : Prop :=
       (act = [] → Reduces i n l.sr l.fd.width 0 false) ∧
       (∀ r, (sumTree l (leaf v p)).1 = some r → Reduces i n l.sr l.fd.width (roundTo l.fd (l.at 63 r.low) r.val).1 (act.any p))
     (keepIf (s.legend f ⟨true, false, true, true, false⟩) (fun l => allFI [l.fa, l.fc, l.fd] && l.fc.sumOk && l.fd.sumOk &&
         s.scaledOk f l [vField f.qd f.vd 1] ((vFields f 1).zip [l.fa])) = some l →
       VectorReady s (s.dec1 f [vField f.qd f.vd 1] (vFields f 1)) (s.vlOk (maxWidth [l.fa.width, l.fd.width])) (vOpnds f 1) [dst] →
       Sums (.vredsum f) 1 (fun e => (x e).val) (fun e => (x e).pois)) ∧
     (keepIf (s.legend f ⟨true, true, true, true, false⟩) (fun l => allFI [l.fa, l.fb, l.fc, l.fd] && l.fc.sumOk && l.fd.sumOk &&
         s.scaledOk f l [vField f.qd f.vd 1] ((vFields f 2).zip [l.fa, l.fb])) = some l →
       VectorReady s (s.dec1 f [vField f.qd f.vd 1] (vFields f 2)) (s.vlOk (maxWidth [l.fa.width, l.fb.width, l.fd.width])) (vOpnds f 2)
         [dst] →
       Sums (.vreddot f) 2 (fun e => (mulV (x e).val (y e).val).1) (fun e => (x e).pois || (y e).pois)) ∧
     (let prop := f.opv.getLsbD 0
      keepIf (s.legend f ⟨true, false, false, true, false⟩) (fun l => l.fa == l.fd && allFI [l.fa] && !(prop && l.fa.isI) &&
         s.scaledOk f l [vField f.qd f.vd 1] ((vFields f 1).zip [l.fa])) = some l →
       VectorReady s (s.dec1 f [vField f.qd f.vd 1] (vFields f 1)) (s.vlOk l.fa.width) (vOpnds f 1) [dst] →
       (act = [] → Reduces (.vredmin f) 1 l.sr l.fd.width (identCode l.fd false) false ∧
         Reduces (.vredmax f) 1 l.sr l.fd.width (identCode l.fd true) false) ∧
       let num := act.filter fun e => !(x e).val.isNan
       let Both (bits : Nat) : Prop := Reduces (.vredmin f) 1 l.sr l.fd.width bits (act.any fun e => (x e).pois) ∧
         Reduces (.vredmax f) 1 l.sr l.fd.width bits (act.any fun e => (x e).pois)
       ((prop = false ∨ num = act) → num ≠ [] →
         (∃ e ∈ num, Reduces (.vredmin f) 1 l.sr l.fd.width (x e).raw (act.any fun e => (x e).pois) ∧
           ∀ k ∈ num, cmpV (x k).val (x e).val ≠ .lt) ∧
         (∃ e ∈ num, Reduces (.vredmax f) 1 l.sr l.fd.width (x e).raw (act.any fun e => (x e).pois) ∧
           ∀ k ∈ num, cmpV (x k).val (x e).val ≠ .gt)) ∧
       ((num = [] ∨ (prop = true ∧ num ≠ act)) → 2 ≤ act.length → Both (if l.fd.hasNan then l.fd.qnan else 0)) ∧
       (∀ e, act = [e] → Both (x e).raw)) ∧
     (f.t.toNat ≤ 11 → VectorReady s (s.dec1 f [vField f.qd f.vd 1] (vFields f 1)) (s.vlOk (tw f.t)) (vOpnds f 1) [dst] →
       let w := tw f.t
       let op := f.opv.toNat % 4
       let bit := fun e i => (elemAt (s.vec.opBits (opnd f.qa f.va) 0) w e).testBit i
       ∃ bits, bits < 2 ^ w ∧ Reduces (.vredlog f) 1 false w bits (act.any fun e => s.vec.opPois (opnd f.qa f.va) 0 (egOf w e)) ∧
         ∀ i, i < w →
           (op = 0 → (bits.testBit i = true ↔ ∀ e ∈ act, bit e i = true)) ∧
           (op = 1 → (bits.testBit i = true ↔ ∃ e ∈ act, bit e i = true)) ∧
           (op = 2 → (bits.testBit i = true ↔ (act.countP fun e => bit e i) % 2 = 1)))) ∧
  (∀ (f : FmtV) (s : State) (l : Lg), s.quiet →
     keepIf (s.legend f ⟨true, false, false, false, false⟩) (fun l => allFI [l.fa] &&
       s.scaledOk f l [] ((vFields f 1).zip [l.fa])) = some l →
     VectorReady s (s.dec1 f [] (vFields f 1)) (s.vlOk l.fa.width) (vOpnds f 1) [] →
     let act := s.vec.active f.m.toNat s.th.vl
     let x := fun e => (readElt s.vec (s.bound s.tr.core) l (lgSrc l 1 f.qa f.va l.fa) 0 e).val
     (∀ e ∈ act, (readElt s.vec (s.bound s.tr.core) l (lgSrc l 1 f.qa f.va l.fa) 0 e).pois = false) →
     let Answers (w : Word) : Prop := Completes (.vredarg f) s (fun t => ∃ v ev, VectorDone s t v ev l.sr.toNat [f.vd] ∧
       (f.vd ≠ 0#6 → t.x f.vd = w) ∧ v = { s.vec with rings := v.rings } ∧ RingsTaken s.vec v (vOpnds f 1) (.reg 0) ∧
       EventsOf ev 1 s.th.vl act (fun _ e => if (x e).isSig then evIV else 0))
     let nanFirst := f.opv.getLsbD 1
     let better := fun a b => if f.opv.getLsbD 0 then cmpV (x b) (x a) = .lt else cmpV (x a) (x b) = .lt
     (act = [] → Answers (BitVec.allOnes 64)) ∧
     (act ≠ [] → ∃ n ∈ act, Answers (BitVec.ofNat 64 n) ∧
       ((x n).isNan = true ↔ (if nanFirst then ∃ e ∈ act, (x e).isNan = true else ∀ e ∈ act, (x e).isNan = true)) ∧
       (∀ e ∈ act, (x e).isNan = (x n).isNan → e < n → (x n).isNan = false ∧ better n e) ∧
       ((x n).isNan = false → ∀ e ∈ act, (x e).isNan = false → ¬ better e n))) ∧
  (∀ (f : FmtV) (s : State) (l : Lg), s.quiet →
     let op := f.opv.toNat / 2 % 4
     let excl := f.opv.getLsbD 0
     keepIf (s.legend f ⟨true, false, op == 0, true, false⟩) (fun l =>
       (if op = 0 then allFI [l.fa, l.fc, l.fd] && l.fc.sumOk && l.fd.sumOk else l.fd == l.fa && allFI [l.fa]) &&
       s.scaledOk f l [vField f.qd f.vd 1] ((vFields f 1).zip [l.fa])) = some l →
     VectorReady s (s.dec1 f [vField f.qd f.vd 1] (vFields f 1)) (s.vlOk (maxWidth [l.fa.width, l.fd.width])) (vOpnds f 1) [opnd f.qd f.vd] →
     let act := s.vec.active f.m.toNat s.th.vl
     let x := fun e => readElt s.vec (s.bound s.tr.core) l (lgSrc l 1 f.qa f.va l.fa) 0 e
     let upTo := fun e => act.filter fun k => if excl then decide (k < e) else decide (k ≤ e)
     let sum := fun e => (upTo e).foldl (fun a k => (roundVal l.fc (l.at 0 k) (addV l.ctx.mode a (x k).val)).1)
       (codeVal l.fa 0)
     let ident := identCode l.fa (op == 2)
     let pick := fun e => (upTo e).foldl (fun (a : Val × Nat) k =>
       (selVal (op == 2) a.1 (x k).val, (selMinMax l.fd (op == 2) false a.1 (x k).val a.2 (x k).raw).1)) (codeVal l.fa ident, ident)
     Completes (.vscan f) s (fun t => ∃ v ev, VectorDone s t v ev l.sr.toNat [] ∧
       Elementwise s.vec v act (vOpnds f 1) (opnd f.qd f.vd) 1 l.fd.width
         (fun _ e => if op = 0 then (roundTo l.fd (l.at 1 e) (sum e)).1 else (pick e).2)
         (fun _ e => act.any fun k => decide (k ≤ e) && (x k).pois)))

/-- VWELF and VWMERGE complete: for each active element the count, the mean and the sum of squares of its group take one more sample, or
the merge of two groups, in three registers one after the other; a poisoned input poisons all three and raises nothing. VTOPK completes:
of the active elements, the first x[vb] in its order, ties by index, go to the destination with their indices to the register after it,
and xc takes their number. -/
def Obligations.WelfordStatisticsAndTopElements : Prop :=
  (∀ (f : FmtV) (s : State) (l : Lg), s.quiet →
     let act := s.vec.active f.m.toNat s.th.vl
     let vd := f.vd.toNat
     let w := l.fc.width
     let elt := fun k e => readElt s.vec 1 { l with scm := 0 } ⟨.reg k, l.fc, none⟩ 0 e
     let Updates (i : Instr) (reads : List Opnd) (r : Nat → Wel) (bad : Nat → Bool) : Prop :=
       Completes i s (fun t => ∃ v v1 v2 ev, VectorDone s t v ev l.sr.toNat [] ∧
         Elementwise s.vec v1 act [] (.reg vd) 1 w (fun _ e => (r e).n) (fun _ e => bad e) ∧
         Elementwise v1 v2 act [] (.reg (vd + 1)) 1 w (fun _ e => (r e).mu) (fun _ e => bad e) ∧
         Elementwise v2 v act reads (.reg (vd + 2)) 1 w (fun _ e => (r e).m2) (fun _ e => bad e) ∧
         EventsOf ev 1 s.th.vl act (fun _ e => if bad e then 0 else (r e).ev))
     (keepIf (s.legend f ⟨true, false, true, false, false⟩) (fun l => (l.fc == .fp32 || l.fc == .fp64) && l.fa.isF &&
         s.scaledOk f l [vMulti f.qd f.vd 4 4] ((vFields f 1).zip [l.fa])) = some l →
       VectorReady s (s.dec1 f [vMulti f.qd f.vd 4 4] (vFields f 1)) (s.vlOk (maxWidth [l.fa.width, l.fc.width])) (vOpnds f 1) [] →
       let x := fun e => readElt s.vec (s.bound s.tr.core) l (lgSrc l 1 f.qa f.va l.fa) 0 e
       Updates (.vwelf f) (vOpnds f 1) (fun e => welAdd l e (x e).val (elt vd e).val (elt (vd + 1) e).val (elt (vd + 2) e).val)
         (fun e => (x e).pois || (elt vd e).pois || (elt (vd + 1) e).pois || (elt (vd + 2) e).pois)) ∧
     (keepIf (s.legend f ⟨false, false, true, false, false⟩) (fun l => l.fc == .fp32 || l.fc == .fp64) = some l →
       VectorReady s (s.dec1 f [vMulti f.qd f.vd 4 4] [vMulti f.qa f.va 4 4, vMulti f.qb f.vb 4 4]) (s.vlOk l.fc.width) [] [] →
       let g := fun (r : BitVec 6) e => [elt r.toNat e, elt (r.toNat + 1) e, elt (r.toNat + 2) e]
       Updates (.vwmerge f) [] (fun e => welMerge l e (g f.va e) (g f.vb e)) (fun e => (g f.va e ++ g f.vb e).any (·.pois)))) ∧
  (∀ (f : FmtV) (s : State) (l : Lg), s.quiet →
     keepIf (s.legend f ⟨true, false, false, false, false⟩) (fun l => allFI [l.fa] &&
       s.scaledOk f l [vMulti f.qd f.vd 2 2] ((vFields f 1).zip [l.fa])) = some l →
     VectorReady s (s.dec1 f [vMulti f.qd f.vd 2 2] (vFields f 1)) (s.vlOk (max 32 l.fa.width)) (vOpnds f 1) [] →
     let act := s.vec.active f.m.toNat s.th.vl
     let x := fun e => readElt s.vec (s.bound s.tr.core) l (lgSrc l 1 f.qa f.va l.fa) 0 e
     let bad := act.any fun e => (x e).pois
     let k := min (s.x f.vb).toNat act.length
     let le := fun a b => topLe (f.opv.getLsbD 0) (f.opv.getLsbD 1) (x a).val (x b).val
     let before := fun a b => le a b = true ∧ (le b a = true → a < b)
     Completes (.vtopk f) s (fun t => ∃ v v1, ∃ sel : List Nat, VectorDone s t v Evs.none l.sr.toNat [f.vc] ∧
       (f.vc ≠ 0#6 → t.x f.vc = BitVec.ofNat 64 k) ∧
       sel.length = k ∧ (∀ e ∈ sel, e ∈ act) ∧ sel.Pairwise before ∧ (∀ e ∈ act, e ∉ sel → ∀ a ∈ sel, before a e) ∧
       Elementwise s.vec v1 (nrange 0 k) [] (.reg f.vd.toNat) 1 l.fa.width (fun _ i => (x (sel.getD i 0)).raw) (fun _ _ => bad) ∧
       Elementwise v1 v (nrange 0 k) (vOpnds f 1) (.reg (f.vd.toNat + 1)) 1 (if l.fa.width = 64 then 64 else 32)
         (fun _ i => sel.getD i 0) (fun _ _ => bad)))

/-- The permutations complete: each active element takes the source element at the position that the instruction gives it, or zero for a
position at or beyond VL; VSLIDEUP writes nothing below its distance, VLUT looks bytes up in a table whatever VL is, VCOMPRESS packs the
chosen elements and counts them, and VEXPAND spreads them. -/
def Obligations.VectorPermutations : Prop :=
  ∀ (f : FmtV) (s : State), s.quiet → f.t.toNat ≤ 11 →
    let w := tw f.t
    let vl := s.th.vl
    let act := s.vec.active f.m.toNat vl
    let a := opnd f.qa f.va
    let b := opnd f.qb f.vb
    let dst := opnd f.qd f.vd
    let k := (s.x f.vb).toNat
    let at_ := fun j p => if p < vl then elemAt (s.vec.opBits a j) w p else 0
    let bad := fun j p => decide (p < vl) && s.vec.opPois a j (egOf w p)
    let Moves (i : Instr) (n : Nat) (act : List Nat) (val : Nat → Nat → Nat) (pois : Nat → Nat → Bool) : Prop :=
      (dst = .reg f.vd.toNat ∨ f.g = 1) →
      VectorReady s (vDecode s.vec.cfg s.cur.role f.g [vField f.qd f.vd f.g] (vFields f n)) (s.vlOk w) (vOpnds f n) [dst] →
      Completes i s (fun t => ∃ v, VectorDone s t v Evs.none 0 [] ∧ Elementwise s.vec v act (vOpnds f n) dst f.g w val pois)
    let From (i : Instr) (act : List Nat) (p : Nat → Nat) : Prop := Moves i 1 act (fun j e => at_ j (p e)) (fun j e => bad j (p e))
    let ix := fun j e => elemAt (s.vec.opBits b j) w e
    Moves (.vperm f) 2 act (fun j e => at_ j (ix j e)) (fun j e => bad j (ix j e) || s.vec.opPois b j (egOf w e)) ∧
    (f.opv.toNat % 4 = 0 → From (.vshuf f) act (fun e => e ^^^ k)) ∧
    (f.opv.toNat % 4 = 1 → From (.vshuf f) act (fun e => if k = 0 then e else e - e % k)) ∧
    (f.opv.toNat % 4 = 2 → From (.vshuf f) act (fun e => vl - 1 - e)) ∧
    From (.vslideup f) (act.filter fun e => decide (k ≤ e)) (fun e => e - k) ∧
    From (.vslidedn f) act (fun e => e + k) ∧
    (let t := fun j e => elemAt (s.vec.opBits a j) 8 e
     Moves (.vlut f) 2 act (fun j e => elemAt (s.vec.opBits b j) w (t j e))
       (fun j e => s.vec.opPois a j (egOf 8 e) || s.vec.opPois b j (egOf w (t j e)))) ∧
    (let c := (nrange 0 vl).filter (s.vec.maskBit (f.vb.toNat % 16))
     let src := fun p => elemAt (s.vec.opBits a 0) w p
     let poi := fun p => s.vec.opPois a 0 (egOf w p)
     VectorReady s (f.m == 0#4 && s.dec1 f [vField f.qd f.vd 1] (vFields f 1)) (s.vlOk w) [a] [dst] →
      Completes (.vcompress f) s (fun t => ∃ v, VectorDone s t v Evs.none 0 [f.vc] ∧
        (f.vc ≠ 0#6 → t.x f.vc = BitVec.ofNat 64 c.length) ∧
        Elementwise s.vec v (nrange 0 c.length) [a] dst 1 w (fun _ i => src (c.getD i 0)) (fun _ i => poi (c.getD i 0))) ∧
      Completes (.vexpand f) s (fun t => ∃ v, VectorDone s t v Evs.none 0 [] ∧
        Elementwise s.vec v c [a] dst 1 w (fun _ e => src (c.countP fun k => decide (k < e)))
          (fun _ e => poi (c.countP fun k => decide (k < e)))))

/-- The vector loads complete on local memory: unit-stride, strided, segment and gather forms, to registers or a ring. Element e of field
k takes the value at its address, converted to the register width under S; an element read from a poisoned or uncorrectable line is
poisoned; memory is as it was. VPREF completes: no register and no other triad changes, and beside translations and pulled lines of
migrating pages nothing of the device does. VGATHW completes: without `reuse`, where an element is active, the window registers first take
the window's elements from local memory; then each active element whose index lies in the window takes its window element and its bit of
mo is 0, and any other active element keeps its value and its bit of mo is 1. Where it rests on the model's own choices they are those of
log entries 8, 9, 87. -/
def Obligations.VectorLoadsAndGathers : Prop :=
  (∀ (f : FmtM) (s : State), s.quiet →
     let act := s.vec.active f.m.toNat s.th.vl
     let n := 2 ^ segWm f
     let w := wrBits f
     let base := s.x f.xbase + f.imm16.signExtend 64
     let Loads (i : Instr) (q : Bool) (dst : Opnd) (nf ww : Nat) (dsts srcs : List VField) (addr : Nat → Word) : Prop :=
       ∀ (pa : Nat → Nat → Nat) (key : Nat), LocalPlaces s .ld act nf n addr pa key →
         VectorReady s (f.scope.toNat != 4 && vDecode s.vec.cfg s.cur.role 1 dsts srcs) (s.vlOk ww) [] (if q then [dst] else []) →
         Completes i s (fun t => ∃ v ev,
           let bad := fun k e => decide (physQuality s (pa e k) n ≠ .clean)
           let x := fun k e => fillConv n (2 ^ segWr f) (segS f) (numberAt s (pa e k) n key)
           VectorDone s t v ev 0 [] ∧ Elementwise s.vec v act [] dst nf w (fun k e => (x k e).1) bad ∧
           EventsOf ev nf 0 act (fun k e => if bad k e then 0 else (x k e).2))
     let reg : Opnd := .reg f.v.toNat
     let ring : Opnd := .ring (f.v.toNat % 8)
     let unit := fun e => base + s.x f.xs + BitVec.ofNat 64 e * BitVec.ofNat 64 n
     let strided := fun e => base + BitVec.ofNat 64 e * s.x f.xs
     let index := fun e => elemAt (s.vec.reg f.xs.toNat) (idxBits f) e
     Loads (.vld f) false reg 1 w [vField false f.v 1] [] unit ∧ Loads (.qld f) true ring 1 w [vField true f.v 1] [] unit ∧
     Loads (.vlds f) false reg 1 w [vField false f.v 1] [] strided ∧ Loads (.qlds f) true ring 1 w [vField true f.v 1] [] strided ∧
     Loads (.vlseg f) false reg (nfOf f) w [vMulti false f.v (nfOf f) 1] []
       (fun e => base + BitVec.ofNat 64 e * (if f.xs = 0#6 then BitVec.ofNat 64 (nfOf f * n) else s.x f.xs)) ∧
     ((∀ e ∈ act, s.vec.opPois (.reg f.xs.toNat) 0 (egOf (idxBits f) e) = false) →
       Loads (.vgath f) false reg 1 (gathBits f) [vField false f.v 1] [vField false f.xs 1]
         (fun e => base + BitVec.ofNat 64 (index e * n)) ∧
       Loads (.qgath f) true ring 1 (gathBits f) [vField true f.v 1] [vField false f.xs 1]
         (fun e => base + BitVec.ofNat 64 (index e * n))) ∧
     (VectorReady s true true [] [] → Completes (.vpref f) s (fun t =>
       let stride := if f.xs = 0#6 then BitVec.ofNat 64 n else s.x f.xs
       t = { s with cores := t.cores, mem := t.mem, fab := t.fab, triads := t.triads } ∧ (∀ c, c ≠ s.cur.ctxn → t.triad c = s.triad c) ∧
       t.tr = s.tr.setRole s.cur.role t.th ∧ StandsAt s t s.th.successor [] ∧
       ((∀ x ∈ (s.core s.tr.core).tlb, nbits x.ent.toNat 7 2 ≠ 1) →
         (∀ e ∈ act, (locate s s.tr.core s.cred (s.x f.xbase + BitVec.ofNat 64 e * stride) .ld false).2 = s) → OnlyThread s t)))) ∧
  (∀ (f : FmtM) (s : State), s.quiet →
     let act := s.vec.active f.m.toNat s.th.vl
     let n := 2 ^ segWm f
     let w := wrBits f
     let base := s.x f.xbase
     let first := f.imm16.toNat / 1024
     let size := 2 ^ (f.imm16.toNat / 256 % 4)
     let per := 32768 * s.bound s.tr.core / w
     let index := fun e => elemAt (s.vec.reg f.xs.toNat) (idxBits f) e
     let mo := f.imm16.toNat % 16
     VectorReady s (f.scope.toNat != 4 && gwDecode s.vec.cfg s.cur.role f && vDecode s.vec.cfg s.cur.role 1 [vField false f.v 1]
       [vField false f.xs 1]) (s.vlOk (gathBits f)) [] [] →
     (∀ e ∈ act, s.vec.opPois (.reg f.xs.toNat) 0 (egOf (idxBits f) e) = false) → base.toNat % n = 0 →
     let hit := fun e => index e < size * per
     let Looks (window v : VecState) : Prop :=
       (∀ e, elemAt (v.reg f.v.toNat) w e = if e ∈ act ∧ hit e then elemAt (window.reg (first + index e / per)) w (index e % per)
         else elemAt (s.vec.reg f.v.toNat) w e) ∧
       (∀ k e, (tget 0 k v.m).testBit e = if k = mo ∧ e < s.th.vl then decide (e ∈ act ∧ ¬ hit e) else (tget 0 k s.vec.m).testBit e) ∧
       (∀ k, k ≠ f.v.toNat → (k < first ∨ first + size ≤ k) → v.reg k = s.vec.reg k) ∧
       (∀ k, first ≤ k → k < first + size → v.reg k = window.reg k) ∧ v.rings = s.vec.rings ∧ v.cfg = s.vec.cfg
     (f.imm16.toNat / 128 % 2 = 1 ∨ act = [] → Completes (.vgathw f) s (fun t => ∃ v, VectorDone s t v Evs.none 0 [] ∧ Looks s.vec v)) ∧
     (f.imm16.toNat / 128 % 2 = 0 → act ≠ [] → ∀ (pa : Nat → Nat) (key : Nat),
       LocalPlaces s .ld (nrange 0 (size * per)) 1 n (fun k => base + BitVec.ofNat 64 (k * n)) (fun k _ => pa k) key →
       Completes (.vgathw f) s (fun t => ∃ v window ev, VectorDone s t v ev 0 [] ∧ Looks window v ∧
         ∀ k, k < size * per → elemAt (window.reg (first + k / per)) w (k % per) =
           (fillConv n (2 ^ segWr f) (segS f) (numberAt s (pa k) n key)).1 % 2 ^ w)))

/-- The vector stores complete on local memory when no active element is poisoned: unit-stride, strided, segment and scatter forms, from
registers or a ring. Each active element's value, converted to the memory width under S, is stored at its address, the higher element
prevailing where two meet, and every other byte of memory is as it was. Where it rests on the model's own choices they are those of log
entry 8. -/
def Obligations.VectorStores : Prop :=
  ∀ (f : FmtM) (s : State), s.quiet →
    let act := s.vec.active f.m.toNat s.th.vl
    let n := 2 ^ segWm f
    let w := wrBits f
    let base := s.x f.xbase + f.imm16.signExtend 64
    let StoresTo (i : Instr) (q : Bool) (src : Opnd) (nf ww : Nat) (srcs : List VField) (addr : Nat → Word) : Prop :=
      ∀ (pa : Nat → Nat → Nat) (key : Nat), LocalPlaces s .st act nf n addr pa key → Storable s act nf n pa →
        (∀ e ∈ act, ∀ k, k < nf → s.vec.opPois src k (egOf w e) = false) →
        VectorReady s (f.scope.toNat != 4 && vDecode s.vec.cfg s.cur.role 1 [] srcs) (s.vlOk ww) (if q then [src] else []) [] →
        Completes i s (fun t => ∃ v ev,
          let x := fun k e => fillConv (2 ^ segWr f) n (segS f) (elemAt (s.vec.opBits src k) w e)
          VectorDone { s with mem := t.mem } t v ev 0 [] ∧ v = { s.vec with rings := v.rings } ∧
          RingsTaken s.vec v [src] (.reg 0) ∧ StoresElements s t act nf n pa key (fun e k => (x k e).1) ∧
          EventsOf ev nf 0 act (fun k e => (x k e).2))
    let reg : Opnd := .reg f.v.toNat
    let ring : Opnd := .ring (f.v.toNat % 8)
    let unit := fun e => base + s.x f.xs + BitVec.ofNat 64 e * BitVec.ofNat 64 n
    let strided := fun e => base + BitVec.ofNat 64 e * s.x f.xs
    StoresTo (.vst f) false reg 1 w [vField false f.v 1] unit ∧ StoresTo (.qst f) true ring 1 w [vField true f.v 1] unit ∧
    StoresTo (.vsts f) false reg 1 w [vField false f.v 1] strided ∧ StoresTo (.qsts f) true ring 1 w [vField true f.v 1] strided ∧
    StoresTo (.vsseg f) false reg (nfOf f) w [vMulti false f.v (nfOf f) 1]
      (fun e => base + BitVec.ofNat 64 e * (if f.xs = 0#6 then BitVec.ofNat 64 (nfOf f * n) else s.x f.xs)) ∧
    ((∀ e ∈ act, s.vec.opPois (.reg f.xs.toNat) 0 (egOf (idxBits f) e) = false) →
      StoresTo (.vscat f) false reg 1 (gathBits f) [vField false f.v 1, vField false f.xs 1]
        (fun e => base + BitVec.ofNat 64 (elemAt (s.vec.reg f.xs.toNat) (idxBits f) e * n)))

/-- VLBLK and VSBLK complete on local memory: each block with an active element moves whole between memory and registers, its 32 codes
from the packed element area to one byte each and its scale and pair-shift word to its eight companion bytes, or back. Where it rests on
the model's own choices they are those of log entries 8, 23. -/
def Obligations.BlockLoadsAndStores : Prop :=
  ∀ (f : FmtM) (s : State) (fm : Fmt), s.quiet → blkFmt f = some fm → s.th.vl % 32 = 0 →
    let act := s.vec.active f.m.toNat s.th.vl
    let blocks := ldedup (act.map (· / 32))
    let bb := 4 * fm.codeWidth + if fm.isPx then 4 else 0
    let base := s.x f.xbase + f.imm16.signExtend 64
    let vd := f.v.toNat
    ∀ (pa : Nat → Nat) (ps : Nat → Nat) (key : Nat), (act ≠ [] → base.toNat % 4 = 0) →
    let area (acc : Acc) : Prop := LocalPlaces s acc blocks (bb / 4) 4 (fun b => base + BitVec.ofNat 64 (b * bb)) (fun b k => pa b + 4 * k) key
    let scales (acc : Acc) : Prop := LocalPlaces s acc blocks 1 1 (fun b => s.x f.xs + BitVec.ofNat 64 b) (fun b _ => ps b) key
    let Ready (load : Bool) : Prop := VectorReady s (f.scope.toNat != 4 && vDecode s.vec.cfg s.cur.role 1
      (if load then [vMulti false f.v 2 1] else []) (if load then [] else [vMulti false f.v 2 1])) (s.vlOk 8) [] []
    (area .ld → scales .ld → Ready true → Completes (.vlblk f) s (fun t => ∃ v v1,
      let bits := fun b => ((nrange 0 (bb / 4)).map fun k => numberAt s (pa b + 4 * k) 4 key * 2 ^ (32 * k)).sum
      let codes := fun b => if fm.isPx then bits b / 2 ^ 32 else bits b
      let bad := fun b => decide (physQuality s (ps b) 1 ≠ .clean ∨ ∃ k, k < bb / 4 ∧ physQuality s (pa b + 4 * k) 4 ≠ .clean)
      VectorDone s t v Evs.none 0 [] ∧
      Elementwise s.vec v1 (blocks.flatMap fun b => nrange (32 * b) 32) [] (.reg vd) 1 8
        (fun _ e => elemAt (codes (e / 32)) fm.codeWidth (e % 32)) (fun _ e => bad (e / 32)) ∧
      Elementwise v1 v blocks [] (.reg (vd + 1)) 1 64
        (fun _ b => numberAt s (ps b) 1 key + bitsAt (s.vec.reg (vd + 1)) (64 * b + 8) 24 * 2 ^ 8 +
          (if fm.isPx then bits b % 2 ^ 32 else 0) * 2 ^ 32) (fun _ b => bad b))) ∧
    (area .st → scales .st → Storable s blocks (bb / 4) 4 (fun b k => pa b + 4 * k) → Storable s blocks 1 1 (fun b _ => ps b) →
      (∀ e ∈ act, s.vec.opPois (.reg vd) 0 (egOf 8 e) = false ∧ s.vec.opPois (.reg (vd + 1)) 0 (egOf 64 (e / 32)) = false) →
      (∀ b ∈ blocks, ∀ c ∈ blocks, (ps b < pa c ∨ pa c + bb ≤ ps b) ∧ (b ≠ c → ps b ≠ ps c ∧ (pa b + bb ≤ pa c ∨ pa c + bb ≤ pa b))) →
      Ready false → Completes (.vsblk f) s (fun t =>
        VectorDone { s with mem := t.mem } t s.vec Evs.none 0 [] ∧
        (∀ b ∈ blocks,
          let area := ((nrange 0 (bb / 4)).map fun k => numberAt t (pa b + 4 * k) 4 key * 2 ^ (32 * k)).sum
          numberAt t (ps b) 1 key = bitsAt (s.vec.reg (vd + 1)) (64 * b) 8 ∧
          (∀ i, i < 32 → bitsAt area ((if fm.isPx then 32 else 0) + i * fm.codeWidth) fm.codeWidth =
            elemAt (s.vec.reg vd) 8 (32 * b + i) % 2 ^ fm.codeWidth) ∧
          (fm.isPx = true → numberAt t (pa b) 4 key = bitsAt (s.vec.reg (vd + 1)) (64 * b + 32) 32)) ∧
        (∀ a, (∀ b ∈ blocks, a ≠ ps b ∧ (a < pa b ∨ pa b + bb ≤ a)) → physRead t a 1 key = physRead s a 1 key) ∧
        (∀ a j, (∀ b ∈ blocks, a / 64 ∉ linesOf (ps b) 1 ∧ a / 64 ∉ linesOf (pa b) bb) → physRead t a 1 j = physRead s a 1 j)))

/-- VSCADD and VAMO complete on local memory when no input element is poisoned: after VSCADD a place holds its old value plus every addend
that names it, for an integer T, and for a floating-point T the rounded sum where one element names it; after VAMO a place that one
element names holds the operation's result, and with RET its element takes the old value; an integer sum holds every addend that names its
place. Every other byte is as it was. Where it rests on the model's own choices they are those of log entries 8, 11, 21, 76, 80. -/
def Obligations.VectorAtomics : Prop :=
  ∀ (f : FmtM) (s : State), s.quiet →
    let act := s.vec.active f.m.toNat s.th.vl
    let index := fun e => elemAt (s.vec.reg f.xs.toNat) (idxBits f) e
    let addr := fun e => s.x f.xbase + BitVec.ofNat 64 (index e * 2 ^ segWm f)
    ∀ (pa : Nat → Nat) (key : Nat),
    (∀ e ∈ act, s.vec.opPois (.reg f.xs.toNat) 0 (egOf (idxBits f) e) = false) →
    let Apart (n : Nat) : Prop := ∀ e ∈ act, ∀ i ∈ act, pa e = pa i ∨ pa e + n ≤ pa i ∨ pa i + n ≤ pa e
    let Untouched (t : State) (n : Nat) : Prop :=
      (∀ a, (∀ e ∈ act, a < pa e ∨ pa e + n ≤ a) → physRead t a 1 key = physRead s a 1 key) ∧
      (∀ a j, (∀ e ∈ act, a / 64 ∉ linesOf (pa e) n) → physRead t a 1 j = physRead s a 1 j)
    (let n := 2 ^ segWm f
     let t4 := BitVec.ofNat 4 f.imm16.toNat
     let vc := f.imm16.toNat / 1024
     let b := fun e => elemAt (s.vec.reg f.v.toNat) (wrBits f) e
     LocalPlaces s .rmw act 1 n addr (fun e _ => pa e) key → Storable s act 1 n (fun e _ => pa e) → Apart n →
     (∀ e ∈ act, physQuality s (pa e) n = .clean ∧ s.vec.opPois (.reg vc) 0 (egOf 16 e) = false ∧ s.vec.opPois (.reg f.v.toNat) 0 (egOf (wrBits f) e) = false) →
     VectorReady s (f.scope.toNat != 4 && vDecode s.vec.cfg s.cur.role 1 []
       [vField false f.v 1, vField false f.xs 1, vField false (BitVec.ofNat 6 vc) 1]) (scaddOk f && s.vlOk (max (gathBits f) 16)) [] [] →
     Completes (.vscadd f) s (fun t => ∃ ev, VectorDone { s with mem := t.mem } t s.vec ev 0 [] ∧ Untouched t n ∧
       (t4.toNat ≤ 7 → ev = Evs.none ∧ ∀ e ∈ act, numberAt t (pa e) n key =
         (numberAt s (pa e) n key + ((act.filter fun i => pa i == pa e).map b).sum) % 2 ^ (8 * n)) ∧
       (8 ≤ t4.toNat → ∀ e ∈ act, (∀ i ∈ act, i ≠ e → pa i ≠ pa e) →
         let fm := fpFmt t4
         numberAt t (pa e) n key = (roundTo fm ⟨.rne, false, false, 0⟩
           (addV .rne (plainVal fm false (numberAt s (pa e) n key)) (plainVal fm false (b e))).1).1))) ∧
    (let t4 := BitVec.ofNat 4 (f.imm16.toNat / 4096)
     let n := tWidth t4 / 8
     let op := f.imm16.toNat / 256 % 16
     let ret := f.imm16.toNat % 2 == 1
     let b := fun e => elemAt (s.vec.reg f.v.toNat) (tWidth t4) e
     LocalPlaces s .rmw act 1 (max n (2 ^ segWm f)) addr (fun e _ => pa e) key → Storable s act 1 n (fun e _ => pa e) → Apart n →
     (∀ e ∈ act, physQuality s (pa e) n = .clean ∧ s.vec.opPois (.reg f.v.toNat) 0 (egOf (tWidth t4) e) = false) →
     VectorReady s (f.scope.toNat != 4 && vDecode s.vec.cfg s.cur.role 1 (if ret then [vField false f.v 1] else [])
       [vField false f.v 1, vField false f.xs 1]) (s.vlOk (max (gathBits f) (tWidth t4))) [] [] →
     let alone := fun e => ∀ i ∈ act, i ≠ e → pa i ≠ pa e
     Completes (.vamo f) s (fun t => ∃ (v : VecState) (old : Nat → Nat), VectorDone { s with mem := t.mem, fresh := t.fresh } t v Evs.none 0 [] ∧ Untouched t n ∧
       ((∀ e ∈ act, alone e) → t.fresh = s.fresh) ∧
       (op = 0 → ∀ e ∈ act, numberAt t (pa e) n key =
         (numberAt s (pa e) n key + ((act.filter fun i => pa i == pa e).map b).sum) % 2 ^ (8 * n)) ∧
       (∀ e ∈ act, alone e → old e = numberAt s (pa e) n key) ∧
       (∀ e ∈ act, alone e → numberAt t (pa e) n key = atomicNew op t4 (numberAt s (pa e) n key) (b e) 0 % 2 ^ (8 * n)) ∧
       (ret = false → v = s.vec) ∧
       (ret = true → Elementwise s.vec v act [] (.reg f.v.toNat) 1 (tWidth t4) (fun _ e => old e) (fun _ _ => false))))

/-- MTALLOC, its wait and MTFREE: the named slots that the triad does not hold become its own on every bound slab, as its gang kept them
under INHERIT and otherwise of the asked shape with zero rows and a zeroed weight region; where another triad holds one the instruction
waits or answers RANGE; MTFREE waits for the tile instructions issued before it on its slots and regions, and then gives up the named
slots that are held. xd tells which slots are held and the status. MTZERO, MTMOV and MTROW complete on held slots when no tile instruction
of the triad is under way, and MTZERO waits for one issued before it on its slot: zero rows and clear flags; a copy, a transposition, or
the element-by-element sum rounded to nearest; and one row moved between a tile and a vector register. MWFILL with its completion, and
MWINV: from issue until it is written a filled granule is pending; at completion each bound slab's buffer holds the source bytes of its
own part, unmarked, and xd reports DONE; MWINV zeroes its bytes and clears their poison. -/
def Obligations.TilesAndWeightBuffers : Prop :=
  (∀ (f : FmtE) (s : State), s.Started → s.cur.role = .computer →
     let A := slotsOf f
     let me := s.cur.ctxn
     let fp64 := fnBits f 8 1 == 1
     let kept := fun k => fnBits f 10 1 == 1 && s.keptHere k fp64
     let Answers (t : State) (status : Nat) : Prop := StandsAt s t s.th.successor [f.xd] ∧ (f.xd ≠ 0#6 →
       (t.x f.xd).toNat % 256 = status ∧ (t.x f.xd).toNat < 2 ^ 16 ∧ ∀ k, k < 8 → (t.x f.xd).getLsbD (8 + k) = t.holds k)
     let taken := ∃ k ∈ A, ∃ b ∈ s.mySlabs, ∃ c, c ≠ me ∧ (s.tileAt b k).holder = some c
     let wrong := ∃ k ∈ A, s.holds k = true ∧ s.slotShape k ≠ fp64
     let Allocates (i : Instr) : Prop :=
       (¬ taken → ¬ wrong → Completes i s (fun t =>
         OnlyThread { s with tiles := t.tiles, wbufs := t.wbufs } t ∧ Answers t 0 ∧
         SameTiles s t (A.filter fun k => !s.holds k) ∧
         (∀ b ∈ s.mySlabs, ∀ k ∈ A, s.holds k = false → t.tileAt b k =
           if kept k then { s.tileAt b k with holder := some me, kept := none } else ⟨fp64, some me, none, [], []⟩) ∧
         (∀ b, b ∉ s.mySlabs → t.wbuf b = s.wbuf b) ∧
         ∀ b ∈ s.mySlabs, ∀ o, memByte (t.wbuf b).bytes o =
           if o / regionSize ∈ A ∧ s.holds (o / regionSize) = false ∧ kept (o / regionSize) = false then 0
           else memByte (s.wbuf b).bytes o)) ∧
       (wrong ∨ (taken ∧ fnBits f 9 1 = 0) → Completes i s (fun t => OnlyThread s t ∧ Answers t 5)) ∧
       (¬ wrong → taken → fnBits f 9 1 = 1 → Completes i s (fun t => OnlyThread s t ∧ t.th = { s.th with stall := some (.mtalloc f) }))
     Allocates (.mtalloc f) ∧ (s.th.stall = some (.mtalloc f) → Allocates .mtallocWaitRelease) ∧
     (let regions := A.map fun k => (k * 0x20000, 0x20000)
      s.Behind A regions → Completes (.mtfree f) s (fun t => WaitsBehind s t A regions)) ∧
     (s.noTiles → Completes (.mtfree f) s (fun t =>
       OnlyThread { s with tiles := t.tiles, serial := t.serial } t ∧ Answers t (if A.all s.holds then 0 else 5) ∧
       SameTiles s t (A.filter s.holds) ∧
       ∀ b ∈ s.mySlabs, ∀ k ∈ A, s.holds k = true →
         t.tileAt b k = { s.tileAt b k with holder := none, kept := if fnBits f 8 1 = 1 then some s.tr.gang else none }))) ∧
  (∀ (f : FmtE) (s : State), s.quiet → s.Started →
     let d := unitSlot f
     let a := fnBits f 0 3
     let r := tileDim (s.slotShape d)
     let fm := tileFmt (s.slotShape d)
     (s.holds d = true → s.Behind [d] [] → Completes (.mtzero f) s (fun t => WaitsBehind s t [d] [])) ∧
     (s.noTiles → s.holds d = true → Completes (.mtzero f) s (fun t => OnlyThread { s with tiles := t.tiles, serial := t.serial } t ∧
       StandsAt s t s.th.successor [] ∧ SameTiles s t [d] ∧ ∀ b ∈ s.mySlabs, t.tileAt b d = { s.tileAt b d with rows := [], flags := [] })) ∧
     (s.noTiles → s.holds d = true → s.holds a = true → s.slotShape d = s.slotShape a → s.wholeSlot d → s.wholeSlot a →
       Completes (.mtmov f) s (fun t => ∃ ev, VectorDone { s with tiles := t.tiles, serial := t.serial } t s.vec ev 0 [] ∧ SameTiles s t [d] ∧
         ∀ b ∈ s.mySlabs, ∀ i, i < r →
           let now := t.tileAt b d
           let was := s.tileAt b d
           let src := s.tileAt b a
           (fnBits f 3 2 = 0 → ev = Evs.none ∧ now.row i = src.row i ∧ now.flag i = src.flag i) ∧
           (fnBits f 3 2 = 1 → ev = Evs.none ∧ (∀ j, j < r → (now.row i).getD j 0 = (src.row j).getD i 0) ∧
             (now.flag i = true ↔ src.flags ≠ [])) ∧
           (2 ≤ fnBits f 3 2 → now.flag i = (was.flag i || src.flag i) ∧ ∀ j, j < r → (now.row i).getD j 0 =
             (roundTo fm ⟨.rne, false, false, 0⟩
               (addV .rne (plainVal fm false ((was.row i).getD j 0)) (plainVal fm false ((src.row i).getD j 0))).1).1))) ∧
     (let w := if s.slotShape d then 64 else 32
      let put := fnBits f 0 1 == 1
      let fld := vField false f.xd 1
      let ρ := (s.x f.xb).toNat
      let h := s.rowHome d ρ
      let act := List.range (min r s.th.vl)
      s.noTiles → s.wholeSlot d →
      VectorReady s (vDecode s.vec.cfg s.cur.role 1 (if put then [] else [fld]) (if put then [fld] else [])) (s.holds d && s.vlOk w) [] [] →
       (s.nslabs * r ≤ ρ → Completes (.mtrow f) s (fun t => VectorDone { s with serial := t.serial } t s.vec Evs.none 0 [])) ∧
       (ρ < s.nslabs * r → put = false → Completes (.mtrow f) s (fun t => ∃ v, VectorDone { s with serial := t.serial } t v Evs.none 0 [] ∧
         Elementwise s.vec v act [] (.reg f.xd.toNat) 1 w (fun _ j => ((s.tileAt h.1 d).row h.2).getD j 0)
           (fun _ _ => (s.tileAt h.1 d).flag h.2))) ∧
       (ρ < s.nslabs * r → put = true → Completes (.mtrow f) s (fun t => VectorDone { s with tiles := t.tiles, serial := t.serial } t s.vec Evs.none 0 [] ∧
         SameTiles s t [d] ∧ (∀ b ∈ s.mySlabs, ∀ i, i < r → (b, i) ≠ h → (t.tileAt b d).row i = (s.tileAt b d).row i ∧
           (t.tileAt b d).flag i = (s.tileAt b d).flag i) ∧
         (∀ j, j < r → ((t.tileAt h.1 d).row h.2).getD j 0 =
           if j < s.th.vl then elemAt (s.vec.reg f.xd.toNat) w j else ((s.tileAt h.1 d).row h.2).getD j 0) ∧
         ((t.tileAt h.1 d).flag h.2 = true ↔ (∃ j ∈ act, s.vec.opPois (.reg f.xd.toNat) 0 (egOf w j) = true) ∨
           ((s.tileAt h.1 d).flag h.2 = true ∧ s.th.vl < r)))))) ∧
  (∀ (f : FmtE) (s : State), s.Started →
     let o := (s.x f.xb).toNat
     let n := (s.x f.xc).toNat
     let source := fillPieces s (s.x f.xa) n (nrange 0 s.nslabs)
     (∀ per u, s.th.tile = none → s.fillTarget o n = true → (s.x f.xa).toNat % 16 = 0 → source = .ok (per, u) → farOf per.flatten = [] →
       Completes (.mwfill f) s (fun t => OnlyThread { u with wbufs := t.wbufs, serial := u.serial + 1 } t ∧
         t.th = { u.th with tile := some ⟨u.serial, [], [(o, n)]⟩, stall := some (.mwfill f) } ∧
         ∀ b, (t.wbuf b).bytes = (u.wbuf b).bytes ∧
           ∀ g, smem g (t.wbuf b).pend = (smem g (u.wbuf b).pend || decide (b ∈ u.mySlabs) && decide (g ∈ granulesOf o n)))) ∧
     (∀ per u, s.tileBehind = false → s.th.stall = some (.mwfill f) → source = .ok (per, u) → farOf per.flatten = [] → deniedFrames per.flatten = [] →
       (∀ p ∈ per.flatten, pieceQuality u u.cur p = .clean) →
       (∀ pa key m fr, Piece.here pa key m fr ∈ per.flatten → markHolds u pa m = false) →
       Completes .mwfillComplete s (fun t => OnlyThread { u with wbufs := t.wbufs } t ∧ StandsAt u t u.th.successor [f.xd] ∧
         t.x f.xd = 0 ∧ ∀ (σ b : Nat) (ps : List Piece), u.mySlabs[σ]? = some b → per[σ]? = some ps → (ps.flatMap (pieceRead u u.cur)).length = n →
           memRead (t.wbuf b).bytes o n = ps.flatMap (pieceRead u u.cur) ∧
           (∀ a, a < o ∨ o + n ≤ a → memByte (t.wbuf b).bytes a = memByte (u.wbuf b).bytes a) ∧
           ∀ g ∈ granulesOf o n, smem g (t.wbuf b).pend = false ∧ smem g (t.wbuf b).pois = false)) ∧
     (let o := (s.x f.xa).toNat
      let n := (s.x f.xb).toNat
      s.fillTarget o n = true → s.noTiles → (∀ b ∈ s.mySlabs, ∀ g ∈ granulesOf o n, smem g (s.wbuf b).pend = false) →
       Completes (.mwinv f) s (fun t => OnlyThread { s with wbufs := t.wbufs, serial := t.serial } t ∧ StandsAt s t s.th.successor [] ∧
         ∀ b, (∀ a, memByte (t.wbuf b).bytes a = if b ∈ s.mySlabs ∧ o ≤ a ∧ a < o + n then 0 else memByte (s.wbuf b).bytes a) ∧
           ∀ g, smem g (t.wbuf b).pois = (smem g (s.wbuf b).pois && !(decide (b ∈ s.mySlabs) && decide (g ∈ granulesOf o n))))))

/-- OXADD, OXSUB and OXWGT complete on a held slot when no tile instruction of the triad is under way: every active row takes one rounded
fused multiply-add per step with every computed column, in the order of the steps; rings that were read give up their entry, and SN
advances by the number of steps under SR. Where it rests on the model's own choices they are those of log entry 25. -/
def Obligations.OuterProducts : Prop :=
  ∀ (f : FmtX) (s : State) (l : Lg), s.quiet → s.noTiles → s.cur.role = .computer →
    let k := f.ad.toNat
    let n := oxSteps f
    let r := tileDim (s.slotShape k)
    let cfg := s.vec.cfg
    s.holds k = true → s.oxLg f = some l → s.wholeSlot k →
    let vl := s.vlOk (maxWidth [l.fa.width, l.fb.width])
    let scale (o : OxOpnd) (fm : Fmt) : Option Nat := if l.scaled fm then some (o.comp n) else none
    let reads (o : OxOpnd) (fm : Fmt) : Nat → Nat → Nat → OxVal := fun σ t i =>
      oxRead s.vec s.nslabs l fm o.opnd (scale o fm) σ (if o.latched then 0 else t) (if o.latched then t * r + i else i) i (oxKph f + t)
    let Ends (i : Instr) (sub : Bool) (os : List Opnd) (cols : List Nat) (row col : Nat → Nat → Nat → OxVal) : Prop :=
      Completes i s (fun t => ∃ v ev, VectorDone { s with tiles := t.tiles, serial := t.serial } t v ev (if l.sr then n else 0) [] ∧
        v = { s.vec with rings := v.rings } ∧ RingsTaken s.vec v os (.reg 0) ∧ OuterProduct s t f l sub cols row col)
    (let oa : OxOpnd := ⟨oxQa f, f.va.toNat, !oxLatb f⟩
     let ob : OxOpnd := ⟨oxQb f, f.vb.toNat, oxLatb f⟩
     let cols := List.range (if f.xs = 0#6 then r else min (s.x f.xs).toNat r)
     VectorReady s (oa.decode cfg n && ob.decode cfg n) (oa.dispatch cfg l l.fa r n && ob.dispatch cfg l l.fb r n && vl) [oa.opnd, ob.opnd] [] →
      Ends (.oxadd f) false [oa.opnd, ob.opnd] cols (reads oa l.fa) (reads ob l.fb) ∧
      Ends (.oxsub f) true [oa.opnd, ob.opnd] cols (reads oa l.fa) (reads ob l.fb)) ∧
    (let oa : OxOpnd := ⟨oxQa f, f.va.toNat, true⟩
     let o := (s.x f.vb).toNat
     let block := if f.opv.toNat / 2 % 2 = 1 then 32 else 16
     let cols := (List.range r).filter fun j => f.xs = 0#6 || (s.x f.xs).toNat.testBit (j / block)
     let st := wStream l cols.length n
     VectorReady s (oa.decode cfg n) (oa.dispatch cfg l l.fa r n && o % 16 == 0 && s.inRegions o st.total && vl) [oa.opnd] [] →
     (∀ b ∈ s.mySlabs, ∀ g ∈ granulesOf o st.total, smem g (s.wbuf b).pend = false) →
      Ends (.oxwgt f) (f.opv.toNat % 2 == 1) [oa.opnd] cols (reads oa l.fa) (fun σ t j =>
        weightVal (s.wbuf (s.mySlabs.getD σ 0)) l o cols.length st (cols.idxOf j) t (oxKph f + t)))

/-- MTLD, MTST and MLDFF complete on local memory: MTLD puts each active row into its tile with its poison as the row's flag, MTST stores
each active row of a tile without flags, and MLDFF loads the rows before the first one with an address that faults and counts them. Where
it rests on the model's own choices they are those of log entries 8, 24, 26. -/
def Obligations.TileLoadsAndStores : Prop :=
  ∀ (f : FmtM) (s : State), s.quiet → s.noTiles → f.scope.toNat ≠ 4 →
    (let k := f.v.toNat
     let r := tileDim (s.slotShape k)
     let n := 2 ^ segWm f
     let rows := s.tileRows f k
     let addr := fun ρ => s.memBase f + BitVec.ofNat 64 ρ * s.x f.xs
     let ready := VectorReady s true (s.tileOk f k && s.vlOk (if s.slotShape k then 64 else 32)) [] []
     ∀ (pa : Nat → Nat → Nat) (key : Nat), s.wholeSlot k → ready →
      (LocalPlaces s .ld rows r n addr pa key → (∀ ρ ∈ rows, ∀ j, j < r → physQuality s (pa ρ j) n ≠ .uncorrectable) →
        Completes (.mtld f) s (fun t => VectorDone { s with tiles := t.tiles, serial := t.serial } t s.vec Evs.none 0 [] ∧ SameTiles s t [k] ∧
          ∀ σ b, s.mySlabs[σ]? = some b → ∀ i, i < r →
            (t.tileAt b k).row i = (if σ * r + i ∈ rows then (List.range r).map fun j => numberAt s (pa (σ * r + i) j) n key
              else (s.tileAt b k).row i) ∧
            ((t.tileAt b k).flag i = if σ * r + i ∈ rows then (List.range r).any fun j => physQuality s (pa (σ * r + i) j) n == .poisoned
              else (s.tileAt b k).flag i))) ∧
      (let at_ := fun ρ => (s.tileAt (s.rowHome k ρ).1 k)
       LocalPlaces s .st rows r n addr pa key → Storable s rows r n pa → (∀ ρ ∈ rows, (at_ ρ).flag (ρ % r) = false) →
        Completes (.mtst f) s (fun t => VectorDone { s with mem := t.mem, serial := t.serial } t s.vec Evs.none 0 [] ∧
          StoresElements s t rows r n pa key (fun ρ j => ((at_ ρ).row (ρ % r)).getD j 0)))) ∧
    (let w := wrBits f
     let rl := ffRow f
     let m := wmBytes f
     let xg := BitVec.ofNat 6 f.imm16.toNat
     let n := (s.x xg).toNat
     let addr := fun ρ => s.x f.xbase + BitVec.ofNat 64 ρ * s.x f.xs
     ∀ (g : Nat) (pa : Nat → Nat → Nat) (key : Nat), g ≤ n → (g = 0 → n = 0) →
      LocalPlaces s .ld (List.range g) rl m addr pa key →
      (∀ ρ, g ≤ ρ → ρ < n → ∀ i, i < rl → ∃ p, locate s s.tr.core s.cred (addr ρ + BitVec.ofNat 64 (i * m)) .ld false = (p, s)) →
      (g < n → ∃ i, i < rl ∧ ∃ c, locate s s.tr.core s.cred (addr g + BitVec.ofNat 64 (i * m)) .ld false = (.fault c, s)) →
      (∀ ρ, ρ < g → ∀ i, i < rl → physQuality s (pa ρ i) m = .clean) →
      VectorReady s (f.m == 0#4 && vDecode s.vec.cfg s.cur.role 1 [vField false f.v 1] [])
        (decide (n ≤ s.nslabs * (32768 / (w * rl))) && s.vlOk w) [] [] →
      Completes (.mldff f) s (fun t => ∃ v ev, VectorDone s t v ev 0 [xg] ∧ (xg ≠ 0#6 → t.x xg = BitVec.ofNat 64 g) ∧
        ∃ val : Nat → Nat × Ev,
          (∀ ρ, ρ < g → ∀ i, i < rl → val (ffElem s.nslabs w rl ρ i) = fillConv m (wrBytes f) (segS f) (numberAt s (pa ρ i) m key)) ∧
          let act := (List.range g).flatMap fun ρ => (List.range rl).map fun i => ffElem s.nslabs w rl ρ i
          Elementwise s.vec v act [] (.reg f.v.toNat) 1 w (fun _ e => (val e).1) (fun _ _ => false) ∧
          EventsOf ev 1 0 act (fun _ e => (val e).2)))

/-- CSTREAM, CTENSOR and CREMAP complete in the loader on an idle channel when the checks of their issue pass: the command stands in its
channel, BUSY, under the issuing thread's credentials, with a watermark at the lowest byte of an atlas destination, and xd reads DONE; a
command with nothing to copy leaves its channel idle with DONE. A remap whose list stands finished at a local address takes its extents
from the list's counts, and any other covers the sheets from its bases on. ENGINE_FAULT_PAUSE: a stream that meets a translation fault at
the next element pauses there, and the thread that issued it will be told of the channel, the element and the address; the watermark of an
atlas destination stands at the first byte not written, and nothing else of the device changes. PBINV drops the parameter blocks that its
core has cached of the window, or of every window, of the thread's invocation; CHINT sends the expander behind a page one hint of the
page's extent, and with a length of 0 sends nothing. Where it rests on the model's own choices they are those of log entries 27, 44. -/
def Obligations.CopyCommandsStartAndPause : Prop :=
  (∀ (f : FmtE) (s : State), s.Started → s.cur.role = .loader → (s.tr.chan (chanOf f)).cmd = none →
     let Starts (i : Instr) (u : State) (op : CopyOp) (reads writes : List (Nat × Nat)) (hdr : Option (Nat × Nat × Nat)) : Prop :=
       Completes i s (fun t =>
         OnlyChannel { u with serial := u.serial + 1 } t (chanOf f)
           { donen := 0, status := 0, wmA := !writes.isEmpty, mark := ((hull writes).head?.map (·.1)).getD 0,
             dhi := ((hull writes).head?.map (·.2)).getD 0,
             cmd := some { op := op, role := .loader, cred := u.cred, order := u.serial, prog := 0, missed := [], ended := false,
                           faulted := false, met := [], logged := [], reads := reads, writes := writes, hdr := hdr,
                           after := (u.fab.replay.filter fun r => !r.abandoned && r.owner == some u.cur).map (·.num) } } ∧
         StandsAt u t u.th.successor [f.xd] ∧ t.x f.xd = 0)
     let Empty (i : Instr) (u : State) : Prop := Completes i s (fun t =>
       OnlyChannel u t (chanOf f) ⟨0, 0, false, 0, 0, none⟩ ∧ StandsAt u t u.th.successor [f.xd] ∧ t.x f.xd = 0)
     (let m : Nat := 2 ^ fnBits f 0 2
      let r : Nat := 2 ^ fnBits f 2 2
      let src := s.x f.xa
      let dst := s.x f.xb
      let stride : Int := if f.xc = 0#6 then (m : Int) else (s.x f.xc).toInt
      let froms := (List.range s.th.vl).map fun e => src + BitVec.ofInt 64 (stride * (e : Int))
      let tos := (List.range s.th.vl).map fun e => dst + BitVec.ofNat 64 (e * r)
      src.toNat % m = 0 → stride % (m : Int) = 0 → dst.toNat % r = 0 →
       (s.th.vl = 0 → Empty (.cstream f) s) ∧
       (s.th.vl ≠ 0 → (∀ a ∈ froms ++ tos, classify a ≠ .noncanon) → twoSheets (elemAtlas r tos) = false →
         faultyUnits s s.tr.tag (elemAtlas m froms ++ elemAtlas r tos) = [] →
         Starts (.cstream f) s (.stream src dst stride s.th.vl m r (fnBits f 4 1 == 1)) (hull (elemAtlas m froms)) (hull (elemAtlas r tos))
           none)) ∧
     (∀ (blk : List Byte) (u : State), (s.x f.xa).toNat % 64 = 0 → (s.tr.win (fnBits f 0 3)).size ≠ 0 →
       s.paramBlock (fnBits f 0 3) (s.tr.win (fnBits f 0 3)) (s.x f.xa).toNat = .ok (blk, false) u →
       let p := readTensor blk
       let sb := BitVec.ofNat 64 p.sbase + s.x f.xb
       let db := BitVec.ofNat 64 p.dbase + s.x f.xc
       let xb := BitVec.ofNat 64 p.xbase
       let xn : Int := (p.xw * p.ext.getD p.xd 1 : Nat) - 1
       let indexed := p.xd != 7
       let indices := if indexed then spanAtlas xb 0 xn else []
       p.bad blk = false → sb.toNat % p.ew = 0 → db.toNat % p.ew = 0 → (indexed = true → p.xbase % p.xw = 0) →
       (p.count = 0 → Empty (.ctensor f) u) ∧
       (p.count ≠ 0 → spanOk sb p.srcSpan.1 p.srcSpan.2 = true → spanOk db p.dstSpan.1 p.dstSpan.2 = true →
         (indexed = true → spanOk xb 0 xn = true) → twoSheets (spanAtlas db p.dstSpan.1 p.dstSpan.2) = false →
         faultyUnits u s.tr.tag (u.tensorTouch p sb db) = [] →
         Starts (.ctensor f) u (.tensor blk (s.x f.xb) (s.x f.xc)) (spanAtlas sb p.srcSpan.1 p.srcSpan.2 ++ indices)
           (spanAtlas db p.dstSpan.1 p.dstSpan.2) none)) ∧
     (let f64 := fnBits f 0 1 == 1
      let n := if f64 then 8 else 4
      let ncomp := fnBits f 1 6 + 1
      let recs := s.x f.xa
      let old := s.x f.xb
      let new_ := s.x f.xc
      let seen := if sheetBusy s (sheetsFrom recs false) then none else peek s s.tr.core s.cred recs 16
      recs.toNat % 4 = 0 → old.toNat % n = 0 → new_.toNat % n = 0 →
      (∀ b, seen = some b →
       let h := (numIn b 0 4, numIn b 4 4, numIn b 8 4)
       let rs := remapRanges recs old new_ (ncomp * n) h
       let at_ := fun k => rangeAtlas (rs.getD k (0, 0))
       remapRefused rs = false → faultyUnits s s.tr.tag (s.remapTouch recs old new_ (ncomp * n) h) = [] →
       Starts (.cremap f) s (.remap recs old new_ f64 ncomp) (at_ 0 ++ at_ 1) (at_ 2) (some h)) ∧
      (seen = none → (∀ a ∈ [recs, old, new_], classify a ≠ .noncanon) →
       faultyUnits s s.tr.tag (elemAtlas 4 [recs] ++ elemAtlas n [old, new_]) = [] →
       Starts (.cremap f) s (.remap recs old new_ f64 ncomp) (sheetsFrom recs false ++ sheetsFrom old false) (sheetsFrom new_ true) none))) ∧
  (∀ (s : State) (tr : Triad) (c : CopyCmd) (src dst : Word) (stride : Int) (count m r : Nat) (sx : Bool) (cause : Nat),
     let n := s.occ.n
     let k := s.occ.k
     let a := src + BitVec.ofInt 64 (stride * (c.prog : Int))
     s.occ.flag = false → tfind n s.triads = some tr → (tr.chan k).cmd = some c → c.op = .stream src dst stride count m r sx →
     copyHeld s tr.core c = false → c.ended = false → c.met = [] → c.prog < count → c.log = [] →
     1 ≤ m → locate s tr.core c.cred a .ld true = (.fault cause, s) → cause ≠ 5 → cause ≠ 7 →
     Completes .engineFaultPause s (fun t =>
       t = { s with triads := t.triads } ∧ (∀ j, j ≠ n → t.triad j = s.triad j) ∧
       (∀ j, j ≠ k → (t.triad n).chan j = tr.chan j) ∧ (t.triad n).chan k = { tr.chan k with mark := ((t.triad n).chan k).mark, cmd := some { c with faulted := true, hdr := none } } ∧
       ((tr.chan k).wmA = false → ((t.triad n).chan k).mark = (tr.chan k).mark) ∧
       (∀ lo, (tr.chan k).wmA = true → atlasOf dst = some lo → lo + count * r ≤ 2 ^ 29 → 1 ≤ r → c.missed = [] →
         ((t.triad n).chan k).mark = lo + c.prog * r) ∧
       t.triad n = { tr.setRole c.role ((t.triad n).role c.role) with chans := (t.triad n).chans } ∧
       (t.triad n).role c.role = { tr.role c.role with async := (tr.role c.role).async ++
         [{ cls := 4, sub := cause, eng := true, unit := k, elem := c.prog, faddr := a, cmd := some c.order }] })) ∧
  (∀ (f : FmtE) (s : State), s.Started →
     Completes (.pbinv f) s (fun t =>
       let core := s.tr.core
       OnlyThread { s with cores := t.cores } t ∧ StandsAt s t s.th.successor [] ∧ (∀ c, c ≠ core → t.core c = s.core c) ∧
       t.core core = { s.core core with pblk := (t.core core).pblk } ∧ ∀ b : PBlk, b ∈ (t.core core).pblk ↔ b ∈ (s.core core).pblk ∧
         ¬ ((fnBits f 3 1 = 1 ∨ b.win = fnBits f 0 3) ∧ b.entry = (tfind s.tr.gang s.gangs).map (·.entry))) ∧
     (let a := s.x f.xa
      let n := (s.x f.xb).toNat
      (n = 0 → Completes (.chint f) s (fun t => Writes s t f.xd 0)) ∧
      (∀ u pa key frame p, n ≠ 0 → a.toNat % 65536 + n ≤ 65536 → locate s s.tr.core s.cred a .ld false = (.here pa key frame, u) →
       portOf pa = some p → (s.io.port p).expander = true → (s.io.port p).iso = false →
       Completes (.chint f) s (fun t => ∃ io, io = { u.io with hints := u.io.hints ++
           [⟨p, 0x7F#8, Config.vendorId, 0x01#8, BitVec.ofNat 128 (fnBits f 0 2 * 2 ^ 96 + n * 2 ^ 64 + pa % 2 ^ 42)⟩] } ∧
         Writes { u with io := io } t f.xd 0))))

/-- COPY_COMMAND_COMPLETE on local memory with destinations apart from the sources, each within a line as their alignment has it: each
element of a stream takes its source's value in the element size of the destination, each box point of a tensor copy its source element,
and each component of a remap record the source, the mean or the weighted sum of its old cells; where box points or records share a
destination, one of their values stands there; no other byte changes, and the channel is idle with the full count and DONE. Where it rests
on the model's own choices they are those of log entries 13, 44, 80. -/
def Obligations.CopiesMoveTheirElements : Prop :=
  ∀ (s : State) (tr : Triad) (c : CopyCmd),
    let n := s.occ.n
    let k := s.occ.k
    let ch := tr.chan k
    tfind n s.triads = some tr → ch.cmd = some c → c.faulted = false → c.ended = false → c.met = [] → c.prog = 0 → c.missed = [] →
    c.news = [] → c.log = [] → c.sheet = [] → copyHeld s tr.core c = false → engineUnacked s c.order = false → Settled s tr.core →
    let Moves (shared : Bool) (count fields size key : Nat) (to_ : Nat → Nat → Word) (pa : Nat → Nat → Nat) (val : Nat → Nat → Nat) (dhi : Nat) : Prop :=
      (∀ e, e < count → ∀ j, j < fields → TakesAt s tr.core c.cred (to_ e j) size (pa e j) key ∧ pa e j % 64 + size ≤ 64) →
      Completes .copyCommandComplete s (fun t =>
        (if shared then
            StoresSome s t (List.range count) fields size pa key val ∧
            t = { s with mem := t.mem, triads := t.triads, units := t.units, fresh := t.fresh }
          else StoresElements s t (List.range count) fields size pa key val ∧
            t = { s with mem := t.mem, triads := t.triads, units := t.units }) ∧ (∀ m, m ≠ n → t.triad m = s.triad m) ∧
        t.triad n = { tr with chans := (t.triad n).chans } ∧ (∀ j, j ≠ k → (t.triad n).chan j = tr.chan j) ∧
        (t.triad n).chan k = ⟨count, 0, false, if ch.wmA then dhi + 1 else ch.mark, dhi, none⟩)
    let written (count fields size : Nat) (pa : Nat → Nat → Nat) (line : Nat) : Prop :=
      ∃ e, e < count ∧ ∃ j, j < fields ∧ line ∈ linesOf (pa e j) size
    (∀ src dst stride count m r sx, c.op = .stream src dst stride count m r sx → 1 ≤ r →
      ∀ (pa : Nat → Nat → Nat) (key : Nat) (from_ : Nat → List Byte),
      (∀ e, e < count → (from_ e).length = m ∧ HoldsAt s tr.core c.cred (src + BitVec.ofInt 64 (stride * (e : Int))) (from_ e) (written count 1 r pa)) →
      Moves false count 1 r key (fun e _ => dst + BitVec.ofNat 64 (e * r)) pa (fun e _ => (fillConv m r sx (bytesNat (from_ e))).1) ch.dhi) ∧
    (∀ blk sadd dadd, c.op = .tensor blk sadd dadd →
      let p := readTensor blk
      ∀ (pa : Nat → Nat → Nat) (key : Nat) (from_ : Nat → List Byte) (index : Nat → Option Nat),
      (∀ e, e < p.count →
        (if p.xd = 7 then index e = none else ∃ v, index e = some v ∧ v < 2 ^ (8 * p.xw) ∧ HoldsAt s tr.core c.cred
          (BitVec.ofNat 64 (p.xbase + p.xw * (p.point e).getD p.xd 0)) (natBytes p.xw v) (written p.count 1 p.ew pa)) ∧
        (from_ e).length = p.ew ∧ HoldsAt s tr.core c.cred (BitVec.ofNat 64 p.sbase + sadd + BitVec.ofInt 64 (p.src e (index e)))
          (from_ e) (written p.count 1 p.ew pa)) →
      Moves true p.count 1 p.ew key (fun e _ => BitVec.ofNat 64 p.dbase + dadd + BitVec.ofInt 64 (p.dst e)) pa
        (fun e _ => bytesNat (from_ e)) ch.dhi) ∧
    (∀ recs old new_ f64 ncomp, c.op = .remap recs old new_ f64 ncomp →
      let size := if f64 then 8 else 4
      let fm : Fmt := if f64 then .fp64 else .fp32
      ∀ (pa : Nat → Nat → Nat) (key : Nat) (head : List Byte) (rec_ : Nat → List Byte) (val : Nat → Nat → Nat),
      let word (b : List Byte) (o n : Nat) : Nat := bytesNat ((b.drop o).take n)
      let count := word head 0 4
      let nold := word head 4 4
      let nnew := word head 8 4
      let apart := written count ncomp size pa
      let counts := (count, nold, nnew)
      (c.hdr = some counts ∨ (c.hdr = none ∧ head.length = 16 ∧ HoldsAt s tr.core c.cred recs head apart ∧
        remapRefused (remapRanges recs old new_ (ncomp * size) counts) = false)) →
      1 ≤ count → 1 ≤ ncomp →
      (∀ e, e < count → (rec_ e).length = 96 ∧ HoldsAt s tr.core c.cred (recs + BitVec.ofNat 64 (16 + 96 * e)) (rec_ e) apart ∧
        let rule := word (rec_ e) 4 1
        let cells := (List.range (if rule = 0 then 1 else word (rec_ e) 5 1)).map fun j => word (rec_ e) (8 + 4 * j) 4
        let weights := (List.range (word (rec_ e) 5 1)).map fun j => word (rec_ e) (48 + 4 * j) 4
        word (rec_ e) 0 4 < nnew ∧ rule ≤ 2 ∧ 1 ≤ word (rec_ e) 5 1 ∧ word (rec_ e) 5 1 ≤ 10 ∧ (∀ x ∈ cells, x < nold) ∧
        ∀ j, j < ncomp → ∃ from_ : Nat → Nat, (∀ x ∈ cells, from_ x < 2 ^ (8 * size) ∧
            HoldsAt s tr.core c.cred (old + BitVec.ofNat 64 ((x * ncomp + j) * size)) (natBytes size (from_ x)) apart) ∧
          val e j = if rule = 0 then from_ (cells.headD 0) else remapValue fm rule (cells.map from_) weights) →
      Moves true count ncomp size key (fun e j => new_ + BitVec.ofNat 64 ((word (rec_ e) 0 4 * ncomp + j) * size)) pa val
        (match c.hdr, atlasOf new_ with
          | none, some t => t + nnew * (ncomp * size) - 1
          | _, _ => ch.dhi))

/-- The waits on channels: a command's wait for its channel ends when the channel is idle, and a watermark's wait ends with the access
made again; CWAIT answers the status that stands highest in R219 among its channels once all are idle, and waits until then; CSTAT reads
the completion word. Where it rests on the model's own choices they are those of log entry 22. -/
def Obligations.ChannelsAreWaitedForAndRead : Prop :=
  ∀ (f : FmtE) (s : State), s.Started →
    (∀ k, s.th.stall = some (.channel k) →
      Completes .channelBusyRelease s (fun t => OnlyThread s t ∧
        t.th = if (s.tr.chan k).cmd = none then { s.th with stall := none } else s.th)) ∧
    (s.th.stall = some .watermark → Completes .watermarkWaitRelease s (fun t => t.th = { s.th with stall := none } ∧
      let vector := s.th.word.any fun w => vectorOp (wordOp w).toNat
      OnlyThread { s with agenda := if vector then .run s.cur :: s.agenda else s.agenda } t)) ∧
    (let idle := ∀ k, k < 16 → f.fn.toNat.testBit k = true → (s.tr.chan k).cmd = none
     let has (st : Nat) : Prop := ∃ k, k < 16 ∧ f.fn.toNat.testBit k = true ∧ (s.tr.chan k).status = st
     let Waits (i : Instr) : Prop :=
      (¬ idle → Completes i s (fun t => OnlyThread s t ∧ t.th = { s.th with stall := some (.cwait f) })) ∧
      (idle → Completes i s (fun t => ∃ st, Writes s t f.xd (BitVec.ofNat 64 st) ∧ (st ≠ 0 → has st) ∧
        ∀ u, has u → st ∈ statusOrder ∧ (u ∈ statusOrder → statusOrder.idxOf st ≤ statusOrder.idxOf u)))
     Waits (.cwait f) ∧ (s.th.stall = some (.cwait f) → Waits .cwaitRelease)) ∧
    (let c := s.tr.chan (chanOf f)
     Completes (.cstat f) s (fun t => Writes s t f.xd
      (BitVec.ofNat 64 ((if c.cmd.isSome then 2 ^ 63 else 0) + c.donen % 2 ^ 32 * 2 ^ 8 + c.status % 2 ^ 8))))

/-- FENCE, its release and SBAR: with no remote store of the thread unacknowledged, FENCE answers DONE, or PEER_LOST with VSTAT.PEER where
one was abandoned, and SBAR goes on; else the thread waits at its word. BINIT completes with the outcome of R257 on the name's cell:
bound, given another count, released or refused. BARRIVE arrives, and BSYNC and VFBAR wait for the phase they joined, or the one named;
the wait ends when that phase has passed. Where it rests on the model's own choices they are those of log entries 8, 12. -/
def Obligations.FencesAndBarriers : Prop :=
  (∀ (f : FmtY) (s : State), s.Started → f.scope.toNat ≠ 4 →
     let open_ (mask : Nat) : Prop := ∃ r ∈ s.fab.replay, r.abandoned = false ∧ r.owner = some s.cur ∧ mask.testBit r.stream = true
     let any_ : Prop := ∃ r ∈ s.fab.replay, r.abandoned = false ∧ r.owner = some s.cur
     let lost : Prop := ∃ r ∈ s.fab.replay, r.abandoned = true ∧ r.owner = some s.cur
     let Waits (i : Instr) (w : Stall) : Prop := Completes i s (fun t => OnlyThread s t ∧ t.th = { s.th with stall := some w })
     let Fences (i : Instr) : Prop :=
       (any_ → Waits i (.fence f)) ∧
       (¬ any_ → ¬ lost → Completes i s (fun t => Writes s t f.xd 0)) ∧
       (¬ any_ → lost → Completes i s (fun t => Writes (s.modTr fun r => { r with vstat := r.vstat ||| 0x40000#64 }) t f.xd 4))
     Fences (.fence f) ∧ (s.th.stall = some (.fence f) → Fences .fenceRelease) ∧
     (let mask := f.imm8.toNat % 16
      (open_ mask → Waits (.sbar f) (.drain mask)) ∧
      (¬ open_ mask → Completes (.sbar f) s (fun t => OnlyThread s t ∧ StandsAt s t s.th.successor [])))) ∧
  (∀ (f : FmtY) (s : State), s.Started → s.th.resume = none →
     let name := f.imm8.toNat
     let n := (s.x f.xa).toNat
     let core := s.tr.core
     let gang := s.tr.gang
     let Ends (i : Instr) (u : State) (phase status : Nat) : Prop :=
       Completes i s (fun t => Writes u t f.xd (BitVec.ofNat 64 (phase * 256 + status)))
     let waited (i : Nat) : Prop := ∃ p ∈ s.triads, p.2.core = core ∧ p.2.gang = gang ∧
       ∃ r ph xd peer, (p.2.role r).stall = some (.barrier i ph xd peer)
     (4095 < n → Ends (.binit f) s 0 5) ∧
     (n ≤ 4095 → s.cell name = none →
       (n = 0 → Ends (.binit f) s 0 0) ∧
       (∀ i, n ≠ 0 → i < 256 → tfind i (s.core core).cells = none → (∀ j, j < i → tfind j (s.core core).cells ≠ none) →
         Ends (.binit f) (s.setCell i ⟨gang, name, n, 0, 0⟩) 0 0) ∧
       (n ≠ 0 → (∀ i, i < 256 → tfind i (s.core core).cells ≠ none) → Ends (.binit f) s 0 5)) ∧
     (∀ i c, s.cell name = some (i, c) →
       (n = 0 → c.arrived = 0 → ¬ waited i →
         Ends (.binit f) (s.modCore core fun k => { k with cells := tdel i k.cells }) c.phase 0) ∧
       (n = 0 → c.arrived ≠ 0 ∨ waited i → Ends (.binit f) s c.phase 5) ∧
       (1 ≤ n → n ≤ 4095 → c.expect = n → Ends (.binit f) s c.phase 0) ∧
       (1 ≤ n → n ≤ 4095 → c.expect ≠ n → c.arrived = 0 → Ends (.binit f) (s.setCell i { c with expect := n }) c.phase 0) ∧
       (1 ≤ n → n ≤ 4095 → c.expect ≠ n → c.arrived ≠ 0 → Ends (.binit f) s c.phase 5) ∧
       (let last := decide ((c.arrived + 1) % 4096 = c.expect)
        let c' : Cell := { c with arrived := if last then 0 else (c.arrived + 1) % 4096,
                                  phase := if last then (c.phase + 1) % 65536 else c.phase }
        let passed (at_ target : Nat) : Prop := 1 ≤ (at_ + 65536 - target) % 65536 ∧ (at_ + 65536 - target) % 65536 ≤ 32767
        let Awaits (i' : Instr) (u : State) (at_ target : Nat) : Prop :=
         (passed at_ target → Ends i' u at_ 0) ∧
         (¬ passed at_ target → Completes i' s (fun t => OnlyThread u t ∧
           t.th = { s.th with stall := some (.barrier i target f.xd.toNat false) }))
        Ends (.barrive f) (s.setCell i c') c.phase 0 ∧
        (f.fn = 0#32 → c.phase < 65536 → tfind i (s.core core).cells = some c → Awaits (.bsync f) (s.setCell i c') c'.phase c.phase) ∧
        (f.fn = 1#32 → tfind i (s.core core).cells = some c → Awaits (.bsync f) s c.phase (n % 65536)) ∧
        (f.scope.toNat ≠ 4 → (∀ r ∈ s.fab.replay, r.owner ≠ some s.cur) →
         (f.fn = 0#32 → Ends (.vfbar f) (s.setCell i c') c.phase 0) ∧
         (f.fn = 1#32 → c.phase < 65536 → Awaits (.vfbar f) (s.setCell i c') c'.phase c.phase)) ∧
        (∀ target peer, s.th.stall = some (.barrier i target f.xd.toNat peer) → target < 65536 →
         tfind i (s.core core).cells = some c →
         (passed c.phase target → Ends .barrierWaitRelease s c.phase (if peer then 4 else 0)) ∧
         (¬ passed c.phase target → Completes .barrierWaitRelease s (fun t => OnlyThread s t ∧ t.th = s.th))))))

/-- The BKOPs complete when their checks pass: the command joins the queues of the bank units that own its rows with one count of its
order, xd reads DONE and no memory changes; without room in a queue, or behind an older command that waits, the thread waits, and
BKOP_QUEUE_ADMISSION lets it in; a command of no elements is DONE at once, and one of bad ranges RANGE. BKFENCE and its release: with
commands of the thread still to be applied it waits; else it answers the status that stands highest in R219 among those that its applied
commands left, DONE with none, and forgets them. Where it rests on the model's own choices they are those of log entry 33. -/
def Obligations.BankCommandsAreQueuedAndJoined : Prop :=
  (∀ (f : FmtE) (s : State), s.Started →
     let cmd (op : Nat) : BankCmd := {
       tid := some s.cur, entry := (entryOf s s.cur).getD 0, core := s.tr.core, asid := asidOf s.tr.ptbase, order := s.serial, op := op,
       fmt := fnBits f 4 2, red := fnBits f 6 2, d := (s.x f.xa).toNat, s := (s.x f.xb).toNat, n := (s.x f.xc).toNat,
       u := (s.x (f.unit.setWidth 6)).toNat, alpha := s.x (f.unit.setWidth 6), idx := [], vals := [], pages := [], left := [],
       sums := [], met := [] }
     let room (u : State) (c : BankCmd) : Prop := (∀ b ∈ c.left, (u.bank.filter fun d => smem b d.left).length < 32) ∧
       ∀ p ∈ u.triads, ∀ r d xd, (p.2.role r).stall = some (.bkop d xd) → d.order < c.order → ∀ b ∈ d.left, b ∉ c.left
     let still (u : State) (c : BankCmd) : Prop := ∀ va, va / 65536 ∈ c.pages.map (·.1) →
       ∀ pa key dom den lvl e, (translate u c.core u.cred (va / 65536 * 65536) .ld false).1 = .ok pa key dom den lvl e → nbits e 7 2 ≠ 1
     let Queues (op : Nat) (i : Instr) : Prop :=
       ((cmd op).badRange = true → Completes i s (fun t => Writes s t f.xd 5)) ∧
       ((cmd op).badRange = false → (cmd op).n = 0 → Completes i s (fun t => Writes s t f.xd 0)) ∧
       (∀ c frames u0 ps0 u1 ps u, (cmd op).badRange = false → (cmd op).n ≠ 0 → (cmd op).misaligned = none →
         bankRead { s with serial := s.serial + 1 } (cmd op) = .ok (c, frames) u0 →
         bankRanges u0.tr.core u0.cred c.ranges u0 [] = .ok (ps0, u1) → bankPages u1.tr.core u1.cred .rmw c.scatGranules u1 ps0 = .ok (ps, u) →
         let c1 : BankCmd := { c with pages := ps.foldl (fun t p => tset p.gran (p.frame, p.key) t) [] }
         let c2 : BankCmd := { c1 with left := c1.needs }
         c1.scatOut = false → (∀ p ∈ ps, p.frame < 2 ^ 39 ∧ p.denied = false) → (∀ a ∈ frames, a < 2 ^ 39) → c1.sealedFrames u ps = [] →
         still u c2 →
         (room u c2 → Completes i s (fun t => Writes { u with bank := u.bank ++ [c2] } t f.xd 0)) ∧
         (¬ room u c2 → Completes i s (fun t => OnlyThread u t ∧ t.th = { u.th with stall := some (.bkop c2 f.xd.toNat) })))
     Queues 0 (.bkopAdd f) ∧ Queues 1 (.bkopMin f) ∧ Queues 2 (.bkopMax f) ∧ Queues 3 (.bkopFma f) ∧ Queues 4 (.bkopScadd f) ∧
     Queues 5 (.bkopRowred f) ∧ Queues 6 (.bkopIscat f) ∧
     (∀ c, s.th.stall = some (.bkop c f.xd.toNat) → still s c →
       (room s c → Completes .bkopQueueAdmission s (fun t => Writes { s with bank := s.bank ++ [c] } t f.xd 0)) ∧
       (¬ room s c → Completes .bkopQueueAdmission s (fun t => OnlyThread s t ∧ t.th = s.th)))) ∧
  (∀ (f : FmtY) (s : State), s.Started →
     let busy : Prop := ∃ c ∈ s.bank, c.tid = some s.cur
     let Joins (i : Instr) : Prop :=
       (busy → Completes i s (fun t => OnlyThread s t ∧ t.th = { s.th with stall := some (.bkfence f) })) ∧
       (¬ busy → Completes i s (fun t => ∃ st, Writes (s.modTh fun r => { r with bank := [] }) t f.xd (BitVec.ofNat 64 st) ∧
         (st ≠ 0 → st ∈ s.th.bank) ∧ ∀ u ∈ s.th.bank, u ∈ statusOrder → statusOrder.idxOf st ≤ statusOrder.idxOf u))
     Joins (.bkfence f) ∧ (s.th.stall = some (.bkfence f) → Joins .bkfenceRelease))

/-- BAU_APPLY: a bank unit applies its part of the oldest command in its queue, reading and writing clean memory: each element it owns
takes the operation's result, each result word of ROWRED its row's reduction; the last unit to apply ends the command with DONE. An
element in an extent that was sealed since is not written and the status is DENIED. Where it rests on the model's own choices they are
those of log entries 33, 44. -/
def Obligations.BankUnitsApplyCommands : Prop :=
  ∀ (s : State) (c : BankCmd) (t0 : Tid) (key : Nat),
    let b := s.occ.n
    let w := bankEsz c.fmt
    let fm := bankFmt c.fmt
    let pa := fun i => (c.place (c.dest i)).1
    let src := fun i => (c.place (c.s + i * w)).1
    let act := (List.range c.n).filter fun i => bauOf (pa i) == b
    let Clean (a n : Nat) : Prop := physQuality s a n = .clean
    let Ends (t : State) (st : Nat) : Prop :=
      t = { s with mem := t.mem, bank := t.bank, triads := t.triads } ∧
      (sdel b c.left ≠ [] → t.triads = s.triads ∧ t.bank.map (·.order) = s.bank.map (·.order) ∧
        ∀ d ∈ s.bank, d.order ≠ c.order → d ∈ t.bank) ∧
      (sdel b c.left = [] → t.bank = (s.bank.filter fun d => d.order != c.order) ∧ (s.Has t0.ctxn → st ∈ (t.thread t0).bank) ∧
        ∀ r, r ≠ t0 → t.thread r = s.thread r)
    (s.bank.find? fun d => smem b d.left) = some c → c.tid = some t0 → c.met = [] → shadowPort s = none →
    (c.op ≤ 4 ∨ c.op = 6 →
      (∀ i ∈ act, (c.place (c.dest i)).2 = key ∧ Clean (pa i) w ∧ Reached s (pa i)) →
      (c.op ≤ 4 → ∀ i ∈ act, (c.place (c.s + i * w)).2 = key ∧ Clean (src i) w ∧ (src i = pa i ∨ ∀ j ∈ act, src i / 64 ≠ pa j / 64)) →
      (c.op = 6 → ∀ i ∈ act, (c.vals.getD i (0, false)).2 = false) →
      (∀ i ∈ act, pa i % w = 0) → (c.op ≤ 4 → ∀ i ∈ act, ∀ j ∈ act, i ≠ j → pa i ≠ pa j) →
      let sealed_ := fun i => inSealed s (pa i) w
      Completes .bauApply s (fun t => Ends t (if act.any sealed_ then stDenied else 0) ∧
        (∀ i ∈ act, sealed_ i = false → (∀ j ∈ act, j ≠ i → pa j ≠ pa i) →
          let m := numberAt s (pa i) w key
          let v := if c.op = 6 then (c.vals.getD i (0, false)).1 else numberAt s (src i) w key
          let x := plainVal fm false m
          let y := plainVal fm false v
          let a := plainVal fm false (c.alpha.toNat % 2 ^ fm.width)
          let rounded (r : Val × Ev) : Nat := (roundTo fm ⟨.rne, false, false, 0⟩ r.1).1
          numberAt t (pa i) w key = (match c.op with
            | 1 => (selMinMax fm false false x y m v).1
            | 2 => (selMinMax fm true false x y m v).1
            | 3 => rounded (fmaV .rne x a y)
            | 4 => rounded (fmaV .rne a y x)
            | _ => rounded (addV .rne x y)) % 2 ^ (8 * w)) ∧
        (∀ a, (∀ i ∈ act, sealed_ i = true ∨ a < pa i ∨ pa i + w ≤ a) → physRead t a 1 key = physRead s a 1 key) ∧
        (∀ a j, (∀ i ∈ act, a / 64 ∉ linesOf (pa i) w) → physRead t a 1 j = physRead s a 1 j))) ∧
    (let rw := bankAsz c.fmt
     let at_ := fun k => (c.place (c.u + k * rw)).1
     let rows := List.range c.rows.length
     c.op = 5 → c.sums = [] → (∀ k ∈ rows, bauOf (at_ k) = b ∧ (c.place (c.u + k * rw)).2 = key ∧ Reached s (at_ k) ∧
       at_ k % rw = 0) →
     (∀ k ∈ rows, inSealed s (at_ k) rw = false ∧ bauOf (c.place (c.rows.getD k 0)).1 = b ∧ (rowSum s c (c.rows.getD k 0)).2 = false) →
     (∀ j ∈ rows, ∀ k ∈ rows, j ≠ k → at_ j + rw ≤ at_ k ∨ at_ k + rw ≤ at_ j) →
     Completes .bauApply s (fun t => Ends t 0 ∧
      (∀ k ∈ rows, numberAt t (at_ k) rw key = (rowSum s c (c.rows.getD k 0)).1 % 2 ^ (8 * rw)) ∧
      (∀ a, (∀ k ∈ rows, a < at_ k ∨ at_ k + rw ≤ a) → physRead t a 1 key = physRead s a 1 key) ∧
      (∀ a j, (∀ k ∈ rows, a / 64 ∉ linesOf (at_ k) rw) → physRead t a 1 j = physRead s a 1 j)))

/-- XPROBE completes without a trap: OK or the cause that the access would meet, and the leaf's level, migration, P, X and W bits, with
the physical address for a privileged thread; an address that is neither virtual nor atlas answers cause 5, an atlas address its offset.
XINV and XINVALL in a privileged thread: the cores in scope forget the translations of the address and ASID, or of the ASID, or all of
them, and no others. With no store, read or bank command in flight they complete; a thread with stores unacknowledged waits first, and
after the drop they wait for remote stores made through dropped translations. Where it rests on the model's own choices they are those of
log entries 34, 35. -/
def Obligations.ProbesAndInvalidations : Prop :=
  (∀ (f : FmtA) (s : State), s.Started →
     let a := s.x f.xa + f.imm16.signExtend 64
     let acc : Acc := match f.opv.toNat % 4 with
       | 0 => .ld
       | 1 => .st
       | 2 => .rmw
       | _ => .fetch
     (classify a = .noncanon → Completes (.xprobe f) s (fun t => Writes s t f.xd (BitVec.ofNat 64 (5 * 2 ^ 60)))) ∧
     (∀ n, classify a = .atlas n → Completes (.xprobe f) s (fun t => Writes s t f.xd
       (BitVec.ofNat 64 ((if atlasFault s s.tr.tag n then 7 * 2 ^ 60 else 2 ^ 63) + 3 * 2 ^ 58 + n)))) ∧
     (∀ va, classify a = .virt va →
       (∀ cause u, lookup s s.tr.core s.cred va = (.fault cause, u) →
         Completes (.xprobe f) s (fun t => Writes u t f.xd (BitVec.ofNat 64 (cause * 2 ^ 60)))) ∧
       (∀ lvl e u, lookup s s.tr.core s.cred va = (.leaf lvl e, u) → nbits e 7 2 ≠ 1 →
         let met : Nat := match (translate s s.tr.core s.cred va acc false).1 with
           | .fault cause => cause * 2 ^ 60
           | .ok _ _ _ true _ _ => 6 * 2 ^ 60
           | .ok _ _ _ false _ _ => 2 ^ 63
         Completes (.xprobe f) s (fun t => Writes u t f.xd (BitVec.ofNat 64 (met + (lvl - 1) * 2 ^ 58 + nbits e 7 2 * 2 ^ 56 +
           nbits e 4 1 * 2 ^ 55 + nbits e 3 1 * 2 ^ 54 + nbits e 2 1 * 2 ^ 53 +
           if s.th.priv then nbits e 16 36 * 65536 + va % 2 ^ pageShift lvl else 0)))))) ∧
  (∀ (f : FmtA) (g : FmtY) (s : State), s.Started → s.th.priv = true → s.th.stall = none →
     let inside (scope c : Nat) : Prop := scope = 3 ∨ (scope = 2 ∧ c / 28 = s.tr.core / 28) ∨ (scope = 1 ∧ c = s.tr.core)
     let Drops (i : Instr) (scope : Nat) (mine : Nat → Prop) (hit : Tlb → Prop) : Prop := 1 ≤ scope → scope ≤ 3 →
       let Dropped (t : State) : Prop := OnlyThread { s with cores := t.cores } t ∧
         ∀ c, t.core c = { s.core c with tlb := (t.core c).tlb } ∧
           ∀ e, e ∈ (t.core c).tlb ↔ e ∈ (s.core c).tlb ∧ ¬ (inside scope c ∧ hit e)
       ((∃ r ∈ s.fab.replay, r.abandoned = false ∧ r.owner = some s.cur) →
         Completes i s (fun t => OnlyThread s t ∧ t.th = { s.th with stall := some (.drain 15) })) ∧
       (∀ w ∈ s.fab.replay, (∀ r ∈ s.fab.replay, r.abandoned = false → r.owner ≠ some s.cur) → w.abandoned = false →
         (∃ c a, w.via = some (c, a) ∧ inside scope c ∧ mine a) → Completes i s (fun t => Dropped t ∧
           ∃ ws bs rs, t.th = { s.th with stall := some (.xinv ws bs rs) } ∧ w.num ∈ ws)) ∧
       ((∀ r ∈ s.fab.replay, r.abandoned = true) → s.bank = [] → s.fab.reads = [] → Completes i s (fun t =>
         Dropped t ∧ StandsAt s t s.th.successor []))
     let va := (s.x f.xa + f.imm16.signExtend 64).toNat
     Drops (.xinv f) (f.opv.toNat % 8) (fun a => a = (s.x f.xb).toNat % 4096) (fun e => e.asid = (s.x f.xb).toNat % 4096 ∧ va < 2 ^ 57 ∧
       ((nbits e.ent.toNat 1 1 = 1 ∧ e.page = va / 2 ^ pageShift e.level) ∨ (f.opv.toNat / 8 % 2 = 1 ∧ nbits e.ent.toNat 1 1 = 0))) ∧
     Drops (.xinvall g) g.scope.toNat (fun a => g.fn = 1#32 ∨ a = (s.x g.xa).toNat % 4096) (fun e => g.fn = 1#32 ∨ e.asid = (s.x g.xa).toNat % 4096))

/-- The mesh commands and TOPOLOGY_QUEUE_ADMISSION: a command whose block, mesh and destination are in order joins the queue of its die's
topology engine, or runs at once while fewer than four do; an object that it builds takes a free mesh entry, its completion word reads
BUSY, and xd reads DONE; with sixteen commands queued, or remote stores of the thread unacknowledged, the thread waits and keeps its
entry. A build that finds no free entry, or whose destination is not aligned or not in local HBM4E, answers RANGE.
TOPOLOGY_COMMAND_COMPLETE: a running command whose reads and writes are made ends: its completion word takes its count and the status that
stands highest in R219, what it built is sealed after DONE, and of MMIGRATE the parts that were written, and freed otherwise, and its
place goes to the next in the queue. Where it rests on the model's own choices they are those of log entries 37, 39, 40, 41, 42, 44. -/
def Obligations.TopologyCommands : Prop :=
  (∀ (f : FmtE) (s : State), s.Started →
     let die := dieOf s.tr.core
     let Enters (i : Instr) (u : State) (op : Nat) (b : List Byte) (mesh : Option Nat) (build : List Nat) : Prop :=
       let open_ : Prop := ∃ r ∈ u.fab.replay, r.abandoned = false ∧ r.owner = some u.cur
       ((16 ≤ (u.topo die).queue.length ∨ open_) →
         Completes i s (fun t => OnlyThread u t ∧ t.th = { u.th with stall := some (.topo f op b mesh build) })) ∧
       ∀ (pa key : Nat), (u.topo die).queue.length < 16 → ¬ open_ → Settled u u.tr.core →
         (blkWord b 0).toNat % 8 = 0 → TakesAt u u.tr.core u.cred (blkWord b 0) 8 pa key →
         let c : TopoCmd := {
           tid := s.cur, core := s.tr.core, op := op, blk := b, cred := s.cred, order := s.serial, build := build, mesh := mesh,
           faulted := false, ended := false, busy := true, aborted := false, result := none, met := [], logged := [], log := [], sheet := [] }
         Completes i s (fun t =>
           t = { u with mem := t.mem, triads := t.triads, topos := t.topos, serial := s.serial + 1 } ∧
           (∀ k, k ≠ s.cur.ctxn → t.triad k = s.triad k) ∧ t.tr = u.tr.setRole u.cur.role t.th ∧
           StandsAt u t u.th.successor [f.xd] ∧ t.x f.xd = 0 ∧ Stores u t pa (natBytes 8 (2 ^ 63)) key ∧
           (∀ d, d ≠ die → t.topo d = u.topo d) ∧
           (t.topo die).running = (u.topo die).running ++ ((u.topo die).queue ++ [c]).take (4 - (u.topo die).running.length) ∧
           (t.topo die).queue = ((u.topo die).queue ++ [c]).drop (4 - (u.topo die).running.length))
     let Accepts (i : Instr) (op : Nat) : Prop := ∀ (b : List Byte) (u : State) (mesh : Option Nat),
       (s.x f.xa).toNat % 64 = 0 → readRange s (s.x f.xa) 64 true = .ok (b, []) u →
       (∀ k ∈ blkZeros op, blkNat b k = 0) → blkNat b 0 % 8 = 0 → blkArrays op b = true →
       (if op = 0 then mesh = none else ∃ e, mesh = some e ∧ meshNamed u u.tr.core u.cred (blkWord b 1) (some u.tr.tag) = (some e, u)) →
       (builds op = false → Enters i u op b mesh []) ∧
       ∀ h, builds op = true → handleAt u u.tr.core u.cred (blkWord b 2) = (h, u) →
         ((h = .bad ∨ freeMesh u = none) → Completes i s (fun t => Writes u t f.xd 5)) ∧
         ∀ n, h ≠ .bad → freeMesh u = some n → ∃ ent : MeshEnt, ent.isSealed = false ∧ ent.tag = s.tr.tag ∧
           (∀ at_, h = .frame at_ → ent.base = at_) ∧ Enters i { u with meshes := tset n ent u.meshes } op b mesh [n]
     Accepts (.mbuild f) 0 ∧ Accepts (.madapt f) 1 ∧ Accepts (.mcolor f) 2 ∧ Accepts (.mcut f) 3 ∧ Accepts (.mmigrate f) 4 ∧
     Accepts (.mghost f) 5 ∧
     (∀ op b mesh build, s.th.stall = some (.topo f op b mesh build) → Enters .topologyQueueAdmission s op b mesh build)) ∧
  (∀ (s : State) (c : TopoCmd) (r : TopoRan) (pa key : Nat),
     let die := s.occ.n
     let u := r.e.s
     s.occ.flag = false → (s.topo die).running[s.occ.k]? = some c → c.faulted = false → c.ended = false → c.aborted = false →
     c.result = none → topoRun s c s.occ.env = r → r.e.fault = none → r.e.short = false → r.e.full = false → r.e.cred = c.cred → r.e.core = c.core →
     u.topos = s.topos → engineUnacked u c.order = false → Settled u c.core →
     (∀ d ∈ (s.topo die).running, d.order = c.order → d = c) →
     (blkWord c.blk 0).toNat % 8 = 0 → TakesAt u c.core c.cred (blkWord c.blk 0) 8 pa key →
     (∀ m ∈ u.meshes, m.1 ∈ r.build → ∀ x ∈ m.2.exts, x.1 + x.2 ≤ pa ∨ pa + 8 ≤ x.1) →
     let st := topStatus r.e.met
     Completes .topologyCommandComplete s (fun t =>
       t = { u with mem := t.mem, topos := t.topos, meshes := t.meshes, units := t.units } ∧
       Stores u t pa (natBytes 8 (r.count % 2 ^ 32 * 2 ^ 8 + st)) key ∧
       (∀ n m, (n, m) ∈ t.meshes ↔ (n ∉ r.build ∧ (n, m) ∈ u.meshes) ∨
         (n ∈ r.build ∧ ∃ o, (n, o) ∈ u.meshes ∧ m = { o with isSealed := true } ∧ if c.op = 4 then o.exts ≠ [] else st = 0)) ∧
       (∀ d, d ≠ die → t.topo d = s.topo d) ∧
       let rest := (s.topo die).running.filter fun d => d.order != c.order
       (t.topo die).running = rest ++ (s.topo die).queue.take (4 - rest.length) ∧
       (t.topo die).queue = (s.topo die).queue.drop (4 - rest.length)))

/-- MCOLOR and MCUT on local memory: MCOLOR gives each face, in the order of faces, the lowest colour that no earlier face sharing a cell
with it holds; MCUT gives inner part start k the least cell whose weights below reach k parts of the whole, the first start 0 and the last
the number of cells. -/
def Obligations.ColoursAndCutsAreThoseOfTheRules : Prop :=
  ∀ (s : State) (c : TopoCmd) (hb : List Byte) (pa key kw pw : Nat),
    let mesh := blkWord c.blk 1
    let Reads (a : Word) (bs : List Byte) (apart : Nat → Prop) : Prop := HoldsAt s c.core c.cred a bs apart
    c.busy = true → c.met = [] → c.log = [] → c.sheet = [] → Settled s c.core → hb.length = 256 →
    TakesAt s c.core c.cred (blkWord c.blk 0) 8 pw kw →
    (∀ faces : Nat → List Byte,
      let n := objNface hb
      let apart := fun line => line ∈ linesOf pa (2 * n)
      c.op = 2 → Reads mesh hb apart → TakesAt s c.core c.cred (blkWord c.blk 4) (2 * n) pa key → (blkWord c.blk 4).toNat % 2 = 0 →
      (∀ i, i < n → (faces i).length = 16 ∧ Reads (mesh + BitVec.ofNat 64 (objOff hb 2) + BitVec.ofNat 64 (16 * i)) (faces i) apart) →
      let cells := fun i => [bytesNat ((faces i).take 4), bytesNat (((faces i).drop 4).take 4)]
      let meet := fun i j => ∃ x, x ≠ 0xFFFFFFFF ∧ x ∈ cells i ∧ x ∈ cells j
      ∃ colour : Nat → Nat,
        (∀ i, i < n → (∀ j, j < i → meet i j → colour j ≠ colour i) ∧ ∀ k, k < colour i → ∃ j, j < i ∧ meet i j ∧ colour j = k) ∧
        let r := topoRun s c ⟨[], [], []⟩
        r.e.going = true ∧ r.e.met = [] ∧ r.build = [] ∧ (∀ i, i < n → colour i < r.count) ∧
        (∀ k, k < r.count → ∃ i, i < n ∧ colour i = k) ∧
        (∀ i, i < n → numberAt r.e.s (pa + 2 * i) 2 key = colour i % 65536) ∧
        r.e.s = { s with mem := r.e.s.mem } ∧ ∀ a j, a / 64 ∉ linesOf pa (2 * n) → physRead r.e.s a 1 j = physRead s a 1 j) ∧
    (∀ weight : Nat → Nat,
      let n := objNcell hb
      let p := blkNat c.blk 5
      let apart := fun line => line ∈ linesOf pa (4 * (p + 1))
      c.op = 3 → Reads mesh hb apart → TakesAt s c.core c.cred (blkWord c.blk 6) (4 * (p + 1)) pa key → (blkWord c.blk 6).toNat % 4 = 0 → 1 ≤ p →
      (if blkNat c.blk 4 = 0 then ∀ i, weight i = 1
        else ∀ i, i < n → weight i < 2 ^ 32 ∧ Reads (blkWord c.blk 4 + BitVec.ofNat 64 (4 * i)) (natBytes 4 (weight i)) apart) →
      let below := fun x => ((List.range x).map weight).sum
      let r := topoRun s c ⟨[], [], []⟩
      r.e.going = true ∧ r.e.met = [] ∧ r.build = [] ∧ r.count = p ∧ r.e.s = { s with mem := r.e.s.mem } ∧
      (∀ k, k ≤ p → ∃ b, numberAt r.e.s (pa + 4 * k) 4 key = b ∧ (k = 0 → b = 0) ∧ (k = p → b = n) ∧
        (0 < k → k < p → b ≤ n ∧ k * below n ≤ below b * p ∧ ∀ x, x < b → below x * p < k * below n)) ∧
      ∀ a j, a / 64 ∉ linesOf pa (4 * (p + 1)) → physRead r.e.s a 1 j = physRead s a 1 j)

/-- The bytes of an object are header, roots, cells, faces, folio directory, folios and ghost records: the header counts and places them,
each record stands at its number, and each folio holds the entries of the cells that fit. MADAPT's rules: a cell that stands in no
standing group keeps its level or is refined once, a group that stands has all its cells coarsened, flagged 2 and with no neighbour that
ends above their old level, and where neighbours differed by one level at most they still do; the new cells are those kept, the children
of those refined and the parents of groups, each with its record. MBUILD and MADAPT on local memory write their object at DST, whose
frames its mesh entry holds, and MADAPT its remap list, a record for each new cell; bad roots, crowded faces and a short buffer end MBUILD
RANGE. A part object owns the cells of its part and holds as ghosts those within its depth across faces, each with its owner's part and
number there; MMIGRATE on local memory writes each part's object and copies its field elements, and MGHOST copies the ghosts' elements,
bits unchanged. Where it rests on the model's own choices they are those of log entries 36, 37, 38, 39, 41, 42, 44. -/
def Obligations.BuiltObjectsHoldTheirBytes : Prop :=
  ((∀ o : MObj,
     let b := objBytes o
     let faces := objFaces o
     let es := o.nbrs.zipIdx.map fun p => folioEntry p.2 p.1
     let nf := objNfolio b
     let up := fun n => (n + 255) / 256 * 256
     let num := numIn b
     let at_ := objOff b
     (∀ r ∈ o.roots, r.length = 48) → (∀ c ∈ o.cells, c.2.1 < 4 ∧ c.2.2.1 < 16) → (∀ e ∈ es, e.length ≤ 248) → b.length < 2 ^ 64 →
     o.roots.length < 2 ^ 32 → o.cells.length < 2 ^ 32 → faces.length < 2 ^ 32 → es.length < 2 ^ 32 → o.ghosts.length < 2 ^ 32 →
     (objNroot b = o.roots.length ∧ objNcell b = o.cells.length ∧ objNface b = faces.length ∧ objNown b = o.nown % 2 ^ 32 ∧
       objNghost b = o.ghosts.length ∧ objPart b = o.part % 2 ^ 16 ∧ objNpart b = o.npart % 2 ^ 16 ∧ num 30 1 = o.gdepth % 2 ^ 8) ∧
     ((∀ c ∈ o.cells, c.2.2.1 ≤ num 28 1) ∧ (o.cells = [] → num 28 1 = 0) ∧ (o.cells ≠ [] → ∃ c ∈ o.cells, c.2.2.1 = num 28 1) ∧
       ∀ k, k < 8 → ((num 29 1).testBit k = true ↔ ∃ c ∈ o.cells, c.2.1 = k)) ∧
     (at_ 0 = 256 ∧ at_ 1 = at_ 0 + up (48 * o.roots.length) ∧ at_ 2 = at_ 1 + up (16 * o.cells.length) ∧
       at_ 3 = at_ 2 + up (16 * faces.length) ∧ at_ 4 = at_ 3 + up (4 * nf) ∧ at_ 5 = at_ 4 + 256 * nf ∧
       at_ 6 = at_ 5 + up (8 * o.ghosts.length) ∧ b.length = at_ 6) ∧
     (∀ i r, o.roots[i]? = some r → (b.drop (at_ 0 + 48 * i)).take 48 = r) ∧
     (∀ i c, o.cells[i]? = some c → num (at_ 1 + 16 * i) 4 = c.1 % 2 ^ 32 ∧ num (at_ 1 + 16 * i + 4) 4 = c.2.1 + 16 * c.2.2.1 ∧
       num (at_ 1 + 16 * i + 8) 8 = c.2.2.2 % 2 ^ 64) ∧
     (∀ i f, faces[i]? = some f →
       let p := at_ 2 + 16 * i
       num p 4 = f.owner % 2 ^ 32 ∧ num (p + 4) 4 = f.nbr % 2 ^ 32 ∧ num (p + 8) 1 = f.oface % 2 ^ 8 ∧ num (p + 9) 1 = f.nface % 2 ^ 8 ∧
       num (p + 10) 1 = f.flags % 2 ^ 8 ∧ num (p + 11) 1 = f.quad % 2 ^ 8 ∧ num (p + 12) 4 = f.btag % 2 ^ 32) ∧
     (∀ i g, o.ghosts[i]? = some g → num (at_ 5 + 8 * i) 4 = g.1 % 2 ^ 32 ∧ num (at_ 5 + 8 * i + 4) 4 = g.2 % 2 ^ 32) ∧
     ∃ first : Nat → Nat, first 0 = 0 ∧ first nf = es.length ∧ ∀ k, k < nf →
       let p := at_ 4 + 256 * k
       let stream := ((es.drop (first k)).take (first (k + 1) - first k)).flatten
       first k < first (k + 1) ∧ num (at_ 3 + 4 * k) 4 = first k ∧ num p 4 = first k ∧ num (p + 4) 2 = first (k + 1) - first k ∧
       num (p + 6) 2 = stream.length ∧ stream.length ≤ 248 ∧
       (b.drop (p + 8)).take 248 = stream ++ List.replicate (248 - stream.length) 0 ∧
       (k + 1 < nf → 248 < stream.length + (es.getD (first (k + 1)) []).length)) ∧
   (∀ n, n < 2 ^ 35 →
     let v := varint 5 n
     (v.zipIdx.map fun p => p.1.toNat % 128 * 128 ^ p.2).sum = n ∧ ∀ i, i < v.length → (128 ≤ (v.getD i 0).toNat ↔ i + 1 < v.length)) ∧
   (∀ (c : Nat) (ns : List Nbr), ns.length ≤ 8 →
     ∃ tail, folioEntry c ns = natBytes 2 (numIn (folioEntry c ns) 0 2) ++ tail ∧
       (∀ f x, ns[f]? = some x → nbits (numIn (folioEntry c ns) 0 2) (2 * f) 2 = match x with
         | .edge _ => 0
         | .one .. => 1
         | .four _ => 2) ∧
       tail = ns.flatMap fun x => match x with
         | .edge t => varint 5 t
         | .one n nf co q => varint 5 (zigzag n c) ++ [BitVec.ofNat 8 (nf + (if co then 8 else 0) + 16 * q)]
         | .four l => l.flatMap fun y => varint 5 (zigzag y.1 c) ++ [BitVec.ofNat 8 y.2])) ∧
  (∀ (roots : List (List Byte)) (cells : List MCell) (nbrs : List (List Nbr)) (flags : List Nat) (interp : Bool),
     let old := fun c => ((cells[c]?).map MCell.level).getD 0
     let adj := fun c d => d < cells.length ∧ d ∈ (nbrs.getD c []).flatMap Nbr.cells
     let a := adaptLevels roots cells nbrs flags
     let lvl := fun c => a.lvl.getD c 0
     let grouped := fun c => ∃ g ∈ a.groups, c ∈ g
     nbrs.length = cells.length → (∀ c d, c < cells.length → adj c d → old d ≤ old c + 1) →
     a.lvl.length = cells.length ∧
     (∀ c, c < cells.length → (grouped c → flags.getD c 0 = 2 ∧ 1 ≤ old c ∧ lvl c = old c - 1) ∧
       (¬ grouped c → lvl c = old c ∨ lvl c = old c + 1) ∧ (flags.getD c 0 = 1 → old c < 15 → lvl c = old c + 1)) ∧
     (∀ c d, c < cells.length → adj c d → lvl d ≤ lvl c + 1 ∧ (grouped c → lvl d ≤ old c)) ∧
     (∀ g ∈ a.groups, ∃ c0 x0, c0 ∈ g ∧ cells[c0]? = some x0 ∧
       let up := x0.path.dropLast
       g.length = kidCount (pathKind (rootKind (roots.getD x0.root [])) up) ∧
       ∀ k c, g[k]? = some c → ∃ x, cells[c]? = some x ∧ x.root = x0.root ∧ x.path = up ++ [k]) ∧
     ∀ x, x ∈ adaptCells cells nbrs a interp roots ↔
       (∃ c x0, cells[c]? = some x0 ∧ lvl c = old c ∧ x = (x0, ⟨0, [c], []⟩)) ∨
       (∃ c x0 k, cells[c]? = some x0 ∧ lvl c = old c + 1 ∧ k < kidCount x0.kind ∧ x = (x0.kid k, kidRemap x0 c (nbrs.getD c []) interp k) ∧
         (interp = false → x.2 = ⟨0, [c], []⟩) ∧
         (interp = true → ∃ others, x.2 = ⟨2, c :: others, quarterFp (4 - others.length) :: List.replicate others.length (quarterFp 1)⟩ ∧
           ∀ d ∈ others, d ∈ (nbrs.getD c []).flatMap Nbr.cells)) ∨
       ∃ g ∈ a.groups, ∃ c x0, c ∈ g ∧ cells[c]? = some x0 ∧ x = (leafCell roots x0.root x0.path.dropLast, ⟨1, g, []⟩)) ∧
  (∀ (s : State) (c : TopoCmd) (pa key pl kl : Nat),
     let dst := blkWord c.blk 2
     let Reads (a : Word) (bs : List Byte) : Prop := HoldsAt s c.core c.cred a bs (fun _ => False)
     let r := topoRun s c ⟨[], [], []⟩
     let u := r.e.s
     let Bytes (at_ k : Nat) (bs : List Byte) : Prop := ∀ o, o < bs.length → physRead u (at_ + o) 1 k = [bs.getD o 0]
     let Built (b : List Byte) (count : Nat) : Prop := r.e.going = true ∧ r.e.met = [] ∧ r.count = count ∧ r.build = c.build ∧ Bytes pa key b ∧
       u = { s with mem := u.mem, meshes := u.meshes } ∧
       ∀ n m, tfind n s.meshes = some m →
         (n ∉ c.build → tfind n u.meshes = some m) ∧
         (n ∈ c.build → ∃ m', tfind n u.meshes = some m' ∧ m'.base = pa ∧ m'.isSealed = m.isSealed ∧ m'.tag = m.tag ∧
           ∀ x, (∃ p ∈ m'.exts, p.1 ≤ x ∧ x < p.1 + p.2) ↔ pa ≤ x ∧ x < pa + b.length)
     c.busy = true → c.met = [] → c.log = [] → c.sheet = [] → Settled s c.core →
     (∀ roots : List (List Byte),
       let cells := roots.zipIdx.map fun p => rootCell p.1 p.2
       let b := objBytes (wholeObj roots cells)
       let good : Prop := (∀ q ∈ roots, goodRoot q = true) ∧ crowdedFace cells = false
       c.op = 0 → roots.length = blkNat c.blk 5 → (∀ q ∈ roots, q.length = 48) → Reads (blkWord c.blk 4) roots.flatten →
       (¬ good → r.e.going = true ∧ r.e.met = [5] ∧ r.count = roots.length ∧ u = s) ∧
       (good → blkNat c.blk 3 < b.length → r.e.going = true ∧ r.e.met = [5] ∧ r.count = b.length / 256 ∧ u = s) ∧
       (good → b.length ≤ blkNat c.blk 3 → TakesAt s c.core c.cred dst b.length pa key → pa + b.length ≤ 2 ^ 39 →
         Built b roots.length ∧ ∀ a j, a / 64 ∉ linesOf pa b.length → physRead u a 1 j = physRead s a 1 j)) ∧
     (∀ hb mb fl : List Byte,
       let roots := objRoots mb
       let cells := objCells mb
       let nbrs := meshNbrs cells
       let new_ := adaptCells cells nbrs (adaptLevels roots cells nbrs (fl.map (·.toNat))) (blkNat c.blk 7 == 1) roots
       let o := wholeObj roots (new_.map (·.1))
       let b := objBytes o
       let n := 16 + 96 * new_.length
       c.op = 1 → hb.length = 256 → Reads (blkWord c.blk 1) hb → mb.length = objOff hb 6 → Reads (blkWord c.blk 1) mb →
       fl.length = objNcell mb → Reads (blkWord c.blk 4) fl → (∀ x ∈ fl, x.toNat ≤ 2) → new_.length ≤ blkNat c.blk 6 →
       new_.length ≤ 2 ^ 32 - 2 → (objFaces o).length ≤ 2 ^ 32 - 2 → b.length ≤ blkNat c.blk 3 →
       TakesAt s c.core c.cred dst b.length pa key → pa + b.length ≤ 2 ^ 39 → TakesAt s c.core c.cred (blkWord c.blk 5) n pl kl →
       (∀ l ∈ linesOf pa b.length, l ∉ linesOf pl n) →
       Built b new_.length ∧ (∀ a j, a / 64 ∉ linesOf pa b.length → a / 64 ∉ linesOf pl n → physRead u a 1 j = physRead s a 1 j) ∧
       numberAt u pl 4 kl = new_.length ∧ numberAt u (pl + 4) 4 kl = fl.length % 2 ^ 32 ∧ numberAt u (pl + 8) 4 kl = new_.length ∧
       numberAt u (pl + 12) 4 kl = b.length / 256 % 2 ^ 32 ∧
       ∀ i x, new_[i]? = some x →
         let q := pl + 16 + 96 * i
         numberAt u q 4 kl = i ∧ numberAt u (q + 4) 1 kl = x.2.rule % 2 ^ 8 ∧ numberAt u (q + 5) 1 kl = x.2.srcs.length % 2 ^ 8 ∧
         numberAt u (q + 6) 2 kl = 0 ∧ (∀ k, k < 10 → numberAt u (q + 8 + 4 * k) 4 kl = x.2.srcs.getD k 0 % 2 ^ 32 ∧
           numberAt u (q + 48 + 4 * k) 4 kl = x.2.wts.getD k 0 % 2 ^ 32) ∧ numberAt u (q + 88) 8 kl = 0)) ∧
  ((∀ (roots : List (List Byte)) (cells : List MCell) (nbrs : List (List Nbr)) (starts : List Nat) (p depth : Nat),
     let n := cells.length
     let q := partObj roots cells nbrs starts p depth
     let at_ := fun k => starts.getD k 0
     let own := fun c => at_ p ≤ c ∧ c < at_ (p + 1)
     let near := fun c d => d < n ∧ d ∈ (nbrs.getD c []).flatMap Nbr.cells
     let first := fun d => d < n ∧ ¬ own d ∧ ∃ c, own c ∧ near c d
     nbrs.length = n → p + 1 < starts.length → at_ 0 = 0 → at_ (starts.length - 1) = n → (∀ k, k + 1 < starts.length → at_ k ≤ at_ (k + 1)) →
     depth = 1 ∨ depth = 2 →
     q.1.nown = at_ (p + 1) - at_ p ∧ q.1.part = p ∧ q.1.npart = starts.length - 1 ∧ q.1.gdepth = depth ∧
     (∃ gs : List Nat, q.2 = nrange (at_ p) (at_ (p + 1) - at_ p) ++ gs ∧ gs.Pairwise (· < ·) ∧ gs.length = q.1.ghosts.length ∧
       (∀ d, d ∈ gs ↔ first d ∨ (depth = 2 ∧ d < n ∧ ¬ own d ∧ ∃ c, first c ∧ near c d)) ∧
       ∀ (i d : Nat), gs[i]? = some d → ∃ k, k + 1 < starts.length ∧ at_ k ≤ d ∧ d < at_ (k + 1) ∧ q.1.ghosts[i]? = some (d - at_ k, k)) ∧
     (∃ rs : List Nat, rs.Pairwise (· < ·) ∧ q.1.roots = rs.map (fun r => roots.getD r []) ∧
       (∀ r, r ∈ rs ↔ ∃ (c : Nat) (x : MCell), c ∈ q.2 ∧ cells[c]? = some x ∧ x.root = r) ∧
       q.1.cells.length = q.2.length ∧
       ∀ (i c : Nat) (x : MCell), q.2[i]? = some c → cells[c]? = some x →
         ∃ k : Nat, rs[k]? = some x.root ∧ q.1.cells[i]? = some (k, x.kind, x.level, pathNat x.path)) ∧
     (∀ (i c : Nat), q.2[i]? = some c →
       let here := fun (m l : Nat) => (q.2[l]? = some m) ∨ (m ∉ q.2 ∧ l = 0xFFFFFFFE)
       ∃ ns : List Nbr, q.1.nbrs[i]? = some ns ∧ ns.length = (nbrs.getD c []).length ∧ ∀ (f : Nat) (x : Nbr), (nbrs.getD c [])[f]? = some x →
         match x with
         | .edge t => ns[f]? = some (.edge t)
         | .one m nf co qd => ∃ l, here m l ∧ ns[f]? = some (.one l nf co qd)
         | .four l => ∃ l' : List (Nat × Nat), ns[f]? = some (.four l') ∧ l'.length = l.length ∧
           ∀ (k : Nat) (y : Nat × Nat), l[k]? = some y → ∃ z, here y.1 z ∧ l'[k]? = some (z, y.2))) ∧
   ∀ (s : State) (c : TopoCmd) (hb tbl : List Byte) (val : Nat → Nat → List Byte) (pf kf : Nat → Nat),
     let mig := blkNat c.blk 7
     let np := migP mig
     let nc := migNcomp mig
     let w := migEsz mig
     let fld := fun k => numIn tbl (32 * k + 16) 8
     let r := topoRun s c ⟨[], [], []⟩
     let u := r.e.s
     let Bytes (at_ k : Nat) (bs : List Byte) : Prop := ∀ o, o < bs.length → physRead u (at_ + o) 1 k = [bs.getD o 0]
     let Reads (a : Word) (bs : List Byte) (apart : Nat → Prop) : Prop := HoldsAt s c.core c.cred a bs apart
     let mesh := blkWord c.blk 1
     c.busy = true → c.met = [] → c.log = [] → c.sheet = [] → Settled s c.core → hb.length = 256 →
     tbl.length = 32 * np → (∀ i j, (val i j).length = w) →
     (∀ (mb : List Byte) (starts pa key : Nat → Nat),
       let n := objNcell mb
       let part := fun k => partObj (objRoots mb) (objCells mb) (meshNbrs (objCells mb)) ((List.range (np + 1)).map starts) k (migDepth mig)
       let obj := fun k => objBytes (part k).1
       let src := blkNat c.blk 6
       let flen := fun k => if src = 0 then 0 else (part k).2.length * nc * w
       let apart := fun l => ∃ k, k < np ∧ (l ∈ linesOf (pa k) (obj k).length ∨ l ∈ linesOf (pf k) (flen k))
       c.op = 4 → Reads mesh hb apart → mb.length = objOff hb 6 → Reads mesh mb apart →
       (∀ k, k ≤ np → starts k < 2 ^ 32 ∧ Reads (blkWord c.blk 4 + BitVec.ofNat 64 (4 * k)) (natBytes 4 (starts k)) apart) →
       starts 0 = 0 → starts np = n → (∀ k, k < np → starts k ≤ starts (k + 1)) → Reads (blkWord c.blk 5) tbl apart →
       (∀ k, k < np → numIn tbl (32 * k) 8 % 65536 = 0 ∧ (obj k).length ≤ numIn tbl (32 * k + 8) 8 ∧ pa k + (obj k).length ≤ 2 ^ 39 ∧
         TakesAt s c.core c.cred (BitVec.ofNat 64 (numIn tbl (32 * k) 8)) (obj k).length (pa k) (key k) ∧
         TakesAt s c.core c.cred (BitVec.ofNat 64 (fld k)) (flen k) (pf k) (kf k)) →
       (∀ k l, k < np → l < np → (∀ x ∈ linesOf (pa k) (obj k).length, x ∉ linesOf (pf l) (flen l)) ∧
         (k ≠ l → (∀ x ∈ linesOf (pa k) (obj k).length, x ∉ linesOf (pa l) (obj l).length) ∧
           ∀ x ∈ linesOf (pf k) (flen k), x ∉ linesOf (pf l) (flen l))) →
       (src ≠ 0 → ∀ i j, i < n → j < nc → Reads (BitVec.ofNat 64 (src + (i * nc + j) * w)) (val i j) apart) →
       s.meshes.length + np ≤ 256 →
       r.e.going = true ∧ r.e.met = [] ∧ r.count = np ∧ u = { s with mem := u.mem, meshes := u.meshes } ∧
       (∀ i, i ∉ r.build → tfind i u.meshes = tfind i s.meshes) ∧
       (∀ k, k < np → Bytes (pa k) (key k) (obj k) ∧ ∃ i m, i ∈ r.build ∧ tfind i s.meshes = none ∧ tfind i u.meshes = some m ∧
         m.base = pa k ∧ m.tag = c.cred.tag ∧
         ∀ x, (∃ p ∈ m.exts, p.1 ≤ x ∧ x < p.1 + p.2) ↔ pa k ≤ x ∧ x < pa k + (obj k).length) ∧
       (src ≠ 0 → ∀ k i cell j, k < np → (part k).2[i]? = some cell → j < nc → Bytes (pf k + (i * nc + j) * w) (kf k) (val cell j)) ∧
       ∀ a j, ¬ apart (a / 64) → physRead u a 1 j = physRead s a 1 j) ∧
     (∀ (loc own : Nat → Nat),
       let ng := objNghost hb
       let n := ng * nc * w
       let apart := fun l => l ∈ linesOf (pf 0) n
       c.op = 5 → Reads mesh hb apart → Reads (blkWord c.blk 4) tbl apart →
       (objNpart hb ≠ np → r.e.going = true ∧ r.e.met = [5] ∧ r.count = 0 ∧ u = s) ∧
       (objNpart hb = np → objPart hb < np → (∀ g, g < ng → loc g < 2 ^ 32 ∧ own g < np ∧
           Reads (mesh + BitVec.ofNat 64 (objOff hb 5) + BitVec.ofNat 64 (8 * g)) (natBytes 4 (loc g) ++ natBytes 4 (own g)) apart) →
         (∀ g j, g < ng → j < nc → Reads (BitVec.ofNat 64 (fld (own g) + (loc g * nc + j) * w)) (val g j) apart) →
         TakesAt s c.core c.cred (BitVec.ofNat 64 (fld (objPart hb) + objNown hb * nc * w)) n (pf 0) (kf 0) →
         r.e.going = true ∧ r.e.met = [] ∧ r.count = ng ∧ r.build = [] ∧ u = { s with mem := u.mem } ∧
         (∀ g j, g < ng → j < nc → Bytes (pf 0 + (g * nc + j) * w) (kf 0) (val g j)) ∧
         ∀ a j, ¬ apart (a / 64) → physRead u a 1 j = physRead s a 1 j)))

/-- MFREE with its release and MQUERY: MFREE empties the mesh entry of a sealed object once no command, VNBR or VFACE that found it sealed
is left, another MFREE that waits for the entry then has nothing to free, and MFREE answers RANGE where the handle names none; MQUERY
waits for a completion word or reads a count of an object's header. Where it rests on the model's own choices they are those of log
entries 60, 88. -/
def Obligations.MeshesAreFreedAndQueried : Prop :=
  ∀ (f : FmtE) (s : State), s.Started →
    let Frees (i : Instr) (u : State) (e : Nat) : Prop :=
      (meshRead u e = false → Completes i s (fun t => t = { u with meshes := tdel e u.meshes, triads := t.triads } ∧
        StandsAt u t u.th.successor [f.xd] ∧ t.x f.xd = 0 ∧
        (∀ c q, Tid.mk c q ≠ s.cur → (t.triad c).role q = ((u.triad c).role q).unname e) ∧
        ∀ c, t.triad c = { u.triad c with
          loader := (t.triad c).loader, computer := (t.triad c).computer, storer := (t.triad c).storer })) ∧
      (meshRead u e = true → Completes i s (fun t => OnlyThread u t ∧ t.th = { u.th with stall := some (.mfree f (some e)) }))
    let tag := if s.th.priv then none else some s.tr.tag
    let h := s.x f.xa
    let Awaits (i : Instr) (w : Stall) : Prop := ∀ (u : State) (pa key frame : Nat),
      Finds s u h 8 .ld pa key frame → physQuality u pa 8 = .clean →
      let v := numberAt u pa 8 key
      (v < 2 ^ 63 → Completes i s (fun t => Writes u t f.xd (BitVec.ofNat 64 v))) ∧
      (2 ^ 63 ≤ v → Completes i s (fun t => OnlyThread u t ∧ t.th = { u.th with stall := some w, rbuf := [], want := [] }))
    (∀ u, meshNamed s s.tr.core s.cred h tag = (none, u) → Completes (.mfree f) s (fun t => Writes u t f.xd 5)) ∧
    (∀ u e, meshNamed s s.tr.core s.cred h tag = (some e, u) → Frees (.mfree f) u e) ∧
    (∀ e, s.th.stall = some (.mfree f (some e)) → Frees .mfreeRelease s e) ∧
    (s.th.stall = some (.mfree f none) → Completes .mfreeRelease s (fun t => Writes s t f.xd 0)) ∧
    Awaits (.mqueryWait f) (.mquery f) ∧ (s.th.stall = some (.mquery f) → Awaits .mqueryWaitRelease (.mquery f)) ∧
    (h.toNat % 8 = 0 → Awaits (.tstatWait f) (.tstat f)) ∧ (s.th.stall = some (.tstat f) → Awaits .tstatWaitRelease (.tstat f)) ∧
    (∀ u, meshNamed s s.tr.core s.cred h (some s.tr.tag) = (none, u) →
      Completes (.mqueryCount f) s (fun t => Writes u t f.xd (BitVec.allOnes 64))) ∧
    (∀ u e hb, meshNamed s s.tr.core s.cred h (some s.tr.tag) = (some e, u) → hb.length = 256 →
      HoldsAt u s.tr.core s.cred h hb (fun _ => False) →
      let word (o n : Nat) : Nat := bytesNat ((hb.drop o).take n)
      let Counts (k v : Nat) : Prop := fnBits f 0 4 = k → Completes (.mqueryCount f) s (fun t => Writes u t f.xd (BitVec.ofNat 64 v))
      Counts 1 (word 4 4) ∧ Counts 2 (word 8 4) ∧ Counts 3 (word 0 4) ∧ Counts 4 (word 16 4) ∧ Counts 5 (word 20 4) ∧
      Counts 6 (word 80 8) ∧ Counts 7 (word 24 2 + word 26 2 * 2 ^ 16))

/-- VNBR and VFACE complete on a sealed object in local memory: element e reads of the cell or face that its number names what SEL asks
for; VFACE reads the fields of the face's record, and a number at or beyond the count of faces or cells reads all ones. Where it rests on
the model's own choices they are those of log entry 43. -/
def Obligations.MeshElementsAreLoaded : Prop :=
  ∀ (f : FmtM) (s : State) (ent : Nat) (head dir : List Byte), s.quiet → f.scope.toNat ≠ 4 →
    let h := s.x f.xbase
    let act := s.vec.active f.m.toNat s.th.vl
    let dst := opnd (meshRing f) f.v
    let num := fun e => (if meshIdx f then elemAt (s.vec.reg f.xs.toNat) 32 e else (s.x f.xs).toNat + e) % 2 ^ 32
    let s1 := s.modTh fun r => { r with mesh := some ent }
    let Holds (off : Nat) (bs : List Byte) : Prop := HoldsAt s1 s.tr.core s.cred (h + BitVec.ofNat 64 off) bs (fun _ => False)
    let view : MeshView := ⟨h, ent, head, dir⟩
    act ≠ [] → Settled s s.tr.core → (∀ p ∈ s.tr.chans, p.2.wmA = false) →
    (meshIdx f = true → ∀ e ∈ act, s.vec.opPois (.reg f.xs.toNat) 0 (egOf 32 e) = false) →
    meshNamed s s.tr.core s.cred h (some s.tr.tag) = (some ent, s) → head.length = 256 → Holds 0 head →
    dir.length = 4 * objNfolio head → Holds (objOff head 3) dir →
    VectorReady s (vDecode s.vec.cfg s.cur.role 1 [vField (meshRing f) f.v 1] (if meshIdx f then [vField false f.xs 1] else []))
      (s.vlOk 32) [] (if meshRing f then [dst] else []) →
    let Loads (i : Instr) (val : Nat → Nat) : Prop := Completes i s (fun t => ∃ v, VectorDone s t v Evs.none 0 [] ∧
      Elementwise s.vec v act [] dst 1 32 (fun _ e => val e) (fun _ _ => false))
    (∀ rec_ : Nat → List Byte, objOff head 2 % 16 = 0 →
      (∀ e ∈ act, num e < objNface head → (rec_ e).length = 16 ∧ Holds (objOff head 2 + 16 * num e) (rec_ e)) →
      let word (e o n : Nat) : Nat := bytesNat (((rec_ e).drop o).take n)
      Loads (.vface f) (fun e => if objNface head ≤ num e then 0xFFFFFFFF else match meshSel f with
        | 0 => word e 0 4
        | 1 => word e 4 4
        | 2 => word e 8 1
        | 3 => word e 9 1
        | 4 => word e 10 1
        | 5 => word e 12 2
        | _ => word e 11 1)) ∧
    (∀ elt : Nat → MeshElt, (∀ e ∈ act, view.nbr s1 f (num e) = (elt e, s1)) →
      (∀ e ∈ act, ∀ x ∈ (elt e).subs, x.1.toNat % x.2 = 0 ∧ ∃ bs, bs.length = x.2 ∧ HoldsAt s1 s.tr.core s.cred x.1 bs (fun _ => False)) →
      Loads (.vnbr f) (fun e => (elt e).value) ∧
      ∀ e ∈ act, objNcell head ≤ num e → (elt e).value = 0xFFFFFFFF)

/-- TSUBMIT and its wait: a record that the thread may submit and that fits goes into the ring at Q_TAIL, wrapping at its end, Q_TAIL
moves past it, and xd reads the sequence number it will get; without room the thread waits under WAIT and reads RANGE otherwise; a queue
that does not take it answers DENIED, a malformed header RANGE. TSIGNAL and TSTAT: `progress` restarts the watchdog of the thread's queue;
`write` and `add` fence, then store to or add to local memory and answer the fence's status; TSTAT reads the state of a queue, for another
domain all ones, and the words of a stream's descriptor. Where it rests on the model's own choices they are those of log entries 12, 60. -/
def Obligations.RecordsAreSubmittedAndSignalled : Prop :=
  (∀ (f : FmtE) (s : State), s.Started →
     let q := f.unit.toNat
     let Enters (i : Instr) (u : State) (bs : List Byte) : Prop :=
       let k := u.queue q
       (k.avail + bs.length < k.size → bs.length < k.size → bs ≠ [] → shadowPort u = none →
         (∀ o, o < k.size → Reached u (k.base.toNat + o) ∧ inSealed u (k.base.toNat + o) 1 = false) →
         Completes i s (fun t =>
           let at_ := fun j => k.base.toNat + (k.tail + j) % k.size
           t = { u with mem := t.mem, queues := t.queues, triads := t.triads } ∧ (∀ c, c ≠ s.cur.ctxn → t.triad c = u.triad c) ∧
           t.tr = u.tr.setRole u.cur.role t.th ∧ StandsAt u t u.th.successor [f.xd] ∧
           (f.xd ≠ 0#6 → t.x f.xd = BitVec.ofNat 64 ((k.seq + k.pending u) % 2 ^ 32 * 256)) ∧
           (∀ p, p ≠ q → t.queue p = u.queue p) ∧ t.queue q = { k with tail := (k.tail + bs.length) % k.size } ∧
           (∀ j, j < bs.length → physRead t (at_ j) 1 0 = [bs.getD j 0]) ∧
           (∀ a, (∀ j, j < bs.length → a ≠ at_ j) → physRead t a 1 0 = physRead u a 1 0) ∧
           ∀ a key, (∀ j, j < bs.length → a / 64 ≠ at_ j / 64) → physRead t a 1 key = physRead u a 1 key)) ∧
       (k.size ≤ k.avail + bs.length →
         (f.fn.getLsbD 0 = true → Completes i s (fun t => OnlyThread u t ∧ t.th = { u.th with stall := some (.tsubmit f bs) })) ∧
         (f.fn.getLsbD 0 = false → Completes i s (fun t => Writes u t f.xd 5)))
     (∀ hb d bs frames u0 u', (s.x f.xa).toNat % 8 = 0 → (∀ r ∈ s.fab.replay, r.owner = some s.cur → r.abandoned = true) →
       readRange s (s.x f.xa) 8 true = .ok (hb, d) u0 →
       let len := nbits (bytesNat hb) 16 8
       readRange u0 (s.x f.xa) (max 8 (8 * len)) true = .ok (bs, frames) u' →
       let u := logDenied u' kLoad frames
       let h := bytesNat (bs.take 8)
       let k := u.queue q
       let mine := s.th.priv = true ∨ (s.tr.tag = k.dom ∧ h.testBit 4 = false ∧ h.testBit 5 = false)
       let sound := nbits h 24 40 = 0 ∧ (splitRec (fmaskBits h) ((recWords bs).drop 1)).2 + 1 = len ∧ (k.taken = true ∨ h % 65536 = 0xFFFF)
       (¬ (k.devsub = true ∧ k.state = 1 ∧ mine) → Completes (.tsubmit f) s (fun t => Writes u t f.xd 6)) ∧
       (k.devsub = true → k.state = 1 → mine → ¬ sound → Completes (.tsubmit f) s (fun t => Writes u t f.xd 5)) ∧
       (k.devsub = true → k.state = 1 → mine → sound → Enters (.tsubmit f) u bs)) ∧
     (∀ bs, s.th.stall = some (.tsubmit f bs) → Enters .tsubmitSpaceRelease s bs)) ∧
  (∀ (f : FmtE) (s : State), s.Started →
     let lost : Bool := s.fab.replay.any fun r => r.abandoned && r.owner == some s.cur
     let st : Word := if lost then 4 else 0
     let b := s.x f.xb
     Completes (.tsignalProgress f) s (fun t =>
       Writes (s.modQueue s.tr.queue fun k => { k with wdNs := 0, wdStage := 0 }) t f.xd 0) ∧
     (∀ (u : State) (pa key frame : Nat), (∀ r ∈ s.fab.replay, r.owner = some s.cur → r.abandoned = true) →
       inSealed u pa 8 = false → Reached u pa → shadowPort u = none →
       let v := if lost then u.modTr fun r => { r with vstat := r.vstat ||| 0x40000#64 } else u
       let Puts (i : Instr) (n : Nat) : Prop := Completes i s (fun t => OnlyMemory v t ∧ StandsAt v t v.th.successor [f.xd] ∧
         (t.x f.xd = if f.xd = 0#6 then 0 else st) ∧ Stores v t pa (natBytes 8 n) key)
       (Finds s u (s.x f.xa) 8 .st pa key frame → Puts (.tsignalWrite f) b.toNat) ∧
       (Finds s u (s.x f.xa) 8 .rmw pa key frame → physQuality u pa 8 = .clean →
         Puts (.tsignalAdd f) ((numberAt u pa 8 key + b.toNat) % 2 ^ 64))) ∧
     (let k := s.queue f.unit.toNat
      (s.th.priv = true ∨ s.tr.tag = k.dom → Completes (.tstatQueue f) s (fun t => Writes s t f.xd
       (BitVec.ofNat 64 (k.state * 2 ^ 62 + k.cls * 2 ^ 60 + k.pending s % 2 ^ 32)))) ∧
      (s.th.priv = false → s.tr.tag ≠ k.dom → Completes (.tstatQueue f) s (fun t => Writes s t f.xd (BitVec.allOnes 64)))) ∧
     (let d := tget (⟨0, 0, 0, 0⟩ : Desc) (f.unit.toNat % 32) s.tr.streams
      let sel := f.fn.toNat % 16
      Completes (.tstatHandle f) s (fun t => Writes s t f.xd
       (if sel = 2 then d.w0 else if sel = 3 then d.w1 else if sel = 4 then d.w2 else d.w3))))

/-- RECORD_TAKE: the record at Q_HEAD that keeps every rule waits for admission with its effective values, each field that its mask lacks
as it was inherited; a record that breaks a limit writes RANGE and is passed over; an unaligned Q_TAIL, a length of 0, a mask that implies
another length, an incomplete first mask or bytes that do not read clean fault the queue with their cause. ZERO_GANG_COMPLETE and
ADMISSION: a record of no gangs completes with DONE in its completion word and its queue passes it; a record whose cost its queue's
deficit covers takes a scoreboard entry, its word reads BUSY, its queue passes it, and every queue that is left without a ready record has
a deficit of 0. Where it rests on the model's own choices they are those of log entries 54, 59. -/
def Obligations.RecordsAreTakenAndAdmitted : Prop :=
  (∀ s : State,
     let q := s.occ.n
     let k := s.queue q
     k.en = true → k.state = 1 → k.ready = none →
     let h := bytesNat (ringBytes s k k.head 8)
     let len := nbits h 16 8
     let ws := (recWords (ringBytes s k k.head (8 * len))).drop 1
     let fs := splitRec (fmaskBits h) ws
     let Faults (cause : Nat) : Prop := Completes .recordTake s (fun t =>
       t = s.modQueue q fun k => { k with state := 2, deficit := 0, fault := BitVec.ofNat 64 (k.head * 2 ^ 32 + cause) })
     (k.tail % 8 ≠ 0 → Faults 1) ∧
     (k.tail % 8 = 0 → k.avail < 8 → Completes .recordTake s (fun t => t = s)) ∧
     (k.tail % 8 = 0 → 8 ≤ k.avail → ringClean s k k.head 8 = false → Faults 4) ∧
     (k.tail % 8 = 0 → 8 ≤ k.avail → ringClean s k k.head 8 = true →
       (nbits h 24 40 ≠ 0 → Faults 1) ∧
       (nbits h 24 40 = 0 → len = 0 → Faults 2) ∧
       (nbits h 24 40 = 0 → len ≠ 0 → k.avail < 8 * len → Completes .recordTake s (fun t => t = s)) ∧
       (nbits h 24 40 = 0 → len ≠ 0 → 8 * len ≤ k.avail →
         (ringClean s k k.head (8 * len) = false → Faults 4) ∧
         (ringClean s k k.head (8 * len) = true →
           (fs.2 + 1 ≠ len → Faults 2) ∧
           (fs.2 + 1 = len → k.taken = false → h % 65536 ≠ 0xFFFF → Faults 3) ∧
           (fs.2 + 1 = len → k.taken = true ∨ h % 65536 = 0xFFFF →
             let r := effRec k.inh fs.1
             badRec k.privok fs.1 r = true ∨ (r.gangs ≠ 0 ∧ slabPool s < r.ncores * r.slabs) → s.TakesWord r → Settled s 0 →
             Completes .recordTake s (fun t => t = { s with mem := t.mem, queues := t.queues } ∧ WordReads s t r 5 ∧
               (∀ p, p ≠ q → t.queue p = s.queue p) ∧
               t.queue q = { k with head := (k.head + 8 * len) % k.size, seq := (k.seq + 1) % 2 ^ 32, taken := true })) ∧
           (fs.2 + 1 = len → k.taken = true ∨ h % 65536 = 0xFFFF → badRec k.privok fs.1 (effRec k.inh fs.1) = false →
             ((effRec k.inh fs.1).gangs ≠ 0 → (effRec k.inh fs.1).ncores * (effRec k.inh fs.1).slabs ≤ slabPool s) →
             Completes .recordTake s (fun t => ∃ r, t = (s.modQueue q fun k => { k with ready := some (r, 8 * len) }) ∧
               (∀ b ws, tfind b fs.1 = some ws →
                 (b = 0 → r.prog = ws) ∧ (b = 1 → r.shape = ws.headD 0) ∧ (b = 2 → r.sheet = ws.headD 0) ∧ (b = 3 → r.seed = ws.headD 0) ∧
                 (b = 4 → r.ptbase = ws.headD 0) ∧ (b = 5 → r.ctx = ws.headD 0) ∧ (b = 6 → r.cw = ws.headD 0) ∧
                 (∀ n, n < 8 → b = 8 + n → tget ⟨0, 0⟩ n r.wins = ⟨ws.headD 0, (ws.getD 1 0).toNat % 2 ^ 32⟩)) ∧
               (∀ b, tfind b fs.1 = none →
                 (b = 0 → r.prog = k.inh.prog) ∧ (b = 1 → r.shape = k.inh.shape) ∧ (b = 2 → r.sheet = k.inh.sheet) ∧
                 (b = 3 → r.seed = k.inh.seed) ∧ (b = 4 → r.ptbase = k.inh.ptbase) ∧ (b = 5 → r.ctx = k.inh.ctx) ∧ (b = 6 → r.cw = k.inh.cw) ∧
                 (b = 7 → r.streams = k.inh.streams) ∧
                 ∀ n, n < 8 → b = 8 + n → tget ⟨0, 0⟩ n r.wins = tget ⟨0, 0⟩ n k.inh.wins))))))) ∧
  (∀ (s : State) (q : Nat) (r : Rec) (len : Nat),
     let k := s.queue q
     let passed : Queue := { k with head := (k.head + len) % k.size, seq := (k.seq + 1) % 2 ^ 32, taken := true, ready := none, inh := r }
     k.ready = some (r, len) → k.en = true → k.state = 1 → (k.serial = true → ∀ e, k.last = some e → tfind e s.entries = none) → Settled s 0 →
     s.TakesWord r →
     (q = s.occ.n → r.gangs = 0 → Completes .zeroGangComplete s (fun t =>
       t = { s with mem := t.mem, queues := t.queues } ∧ (∀ p, p ≠ q → t.queue p = s.queue p) ∧ t.queue q = { passed with last := none, wdNs := 0, wdStage := 0 } ∧ WordReads s t r 0)) ∧
     (r.gangs ≠ 0 → q < 128 → s.entries.length < 64 → (∀ p, p < 128 → p ≠ q → readyCost s p = none) → s.io.admitPaused = false →
       serving s = true → tfind s.serial s.entries = none → (k.tail + k.size - passed.head % k.size) % k.size < 8 → k.tail % 8 = 0 →
       r.gangs * r.k ≤ min (k.deficit + max 1 k.quant) (2 ^ 32 - 1) →
       Completes .admission s (fun t =>
         t = { s with mem := t.mem, queues := t.queues, entries := t.entries, lastQueue := t.lastQueue, serial := s.serial + 1 } ∧
         (∀ p, p ≠ q → t.queue p = { s.queue p with deficit := 0 }) ∧
         t.queue q = { passed with deficit := 0, last := some s.serial } ∧
         t.entries = tset s.serial ⟨r, q, k.cls, s.serial, 0, 0, 0, false, []⟩ s.entries ∧ WordReads s t r (2 ^ 63))))

/-- GANG_PLACEMENT and QUAD_REBIND: the senior entry's next gang gets the cores that placement finds, each with its slots and its range of
every bound sheet, marked with the gang and its domain and zero where it had been used before; an idle quad takes the binding asked for,
and the arbiters of its cores begin anew. TRIAD_START: every triad of a placed gang starts under a free context number with the record's
entry points, privilege, seed, page table, domain and key, registers of 0 and VL 0, its numbers in the gang and the invocation, and its
own context area; it owns its slot's vector state where nobody does. Where it rests on the model's own choices they are those of log
entries 56, 57. -/
def Obligations.GangsArePlacedAndTriadsStart : Prop :=
  (∀ (s : State) (key : Nat) (e : Entry), senior s = some (key, e) →
     let r := e.rcd
     (∀ cs, resumable s = false → ctxnsTaken s + r.k ≤ 4096 → serving s = true → findPlace s r = some cs → (∀ d ∈ r.streams, d.2.rlen = 0) →
       Completes .gangPlacement s (fun t => ∃ v : Gang,
         tfind s.serial t.gangs = some v ∧ v.entry = key ∧ v.gangId = e.placed ∧ v.tag = r.tag ∧ v.cores = cs.map (·.core) ∧
         v.k = r.k ∧ v.slots.length = r.k ∧ v.soff = r.soff ∧ v.slen = r.slen ∧ v.ctxns = [] ∧ v.started = false ∧ v.preempted = false ∧
         (∀ g, g ≠ s.serial → tfind g t.gangs = tfind g s.gangs) ∧
         tfind key t.entries = some { e with placed := e.placed + 1, fills := e.fills } ∧
         (∀ c ∈ v.cores, ∀ w ∈ t.slabs c, ∀ n, r.soff ≤ n → n < r.soff + r.slen →
           tfind (64 * w + n) t.units = some ⟨some s.serial, r.tag⟩ ∧
           (tfind (64 * w + n) s.units ≠ none → ∀ o, o < 65536 →
             memByte t.mem.cells (2 ^ 44 + w / 28 * 2 ^ 27 + w % 28 * 2 ^ 22 + 65536 * n + o) = 0)) ∧
         t.queue e.queue = { s.queue e.queue with wdNs := 0, wdStage := 0 } ∧
         t.triads = s.triads ∧ t.slots = s.slots ∧ t.tiles = s.tiles)) ∧
     (let die := s.occ.n
      let wq := s.occ.k
      let mode := s.occ.j
      die < 4 → wq < 7 → mode ≤ 4 → quadIdle s die wq = true → (∃ p, p < 4 ∧ (slabPlaces mode p).length = r.slabs) →
      Completes .quadRebind s (fun t => t = { s with modes := t.modes, cores := t.cores } ∧
       (∀ c, t.core c = if c / 4 = 7 * die + wq then { s.core c with lastSlot := 3 } else s.core c) ∧
       ∀ n, tget 0 n t.modes = if n = 7 * die + wq then mode else tget 0 n s.modes))) ∧
  (∀ (s : State) (v : Gang) (e : Entry),
     let g := s.occ.n
     let r := e.rcd
     tfind g s.gangs = some v → tfind v.entry s.entries = some e → v.started = false → s.triads.length + v.k ≤ 4096 →
     Completes .triadStart s (fun t =>
       (∃ v', tfind g t.gangs = some v' ∧ v'.started = true ∧ v'.ctxns.length = v.ctxns.length + v.k) ∧
       (∀ c, s.Has c → t.triad c = s.triad c) ∧ t.mem = s.mem ∧ t.queues = s.queues ∧ t.units = s.units ∧
       (∀ i, i < v.k → ∃ c, c < 4096 ∧ ¬ s.Has c ∧ t.Has c ∧
         let n := t.triad c
         let at_ := v.slots.getD i (0, 0)
         let fresh := fun (j : Nat) (l : RoleState) => l = RoleState.start (r.prog.getD j 0) (nbits r.ctx.toNat 19 1 == 1)
         n.core = at_.1 ∧ n.slot = at_.2 ∧ n.gang = g ∧ n.queue = e.queue ∧ n.gangId = v.gangId ∧ n.gangs = r.shape.toNat % 2 ^ 17 ∧
         n.triadId = i ∧ fresh 0 n.loader ∧ fresh 1 n.computer ∧ fresh 2 n.storer ∧ n.vstat = 0 ∧ n.sn = 0 ∧ n.seed = r.seed ∧
         n.ptbase = r.ptbase ∧ n.tag = r.ctx.toNat % 2 ^ 12 ∧ n.ptkey = nbits r.ctx.toNat 12 7 ∧ n.streams = r.streams ∧
         n.traprec = BitVec.ofNat 64 ((if s.io.poolSet then 2 ^ 63 else 0) + s.io.pool.toNat + 4096 * c)) ∧
       ∀ key, ((s.slot key).owner ≠ none → t.slot key = s.slot key) ∧
         ((s.slot key).owner = none → t.slot key = s.slot key ∨ ∃ c, t.slot key = ⟨some c, VecState.start⟩)))

/-- TRIAD_RETIRE: a triad that has ended, with every command and remote store of it complete, is gone with its slot, its vector state and
its tile slots; the gang's barrier cells go with its last triad on the core; its gang counts it, and is gone itself with its last triad;
the invocation whose last gang has gone gives its entry back and writes its count with KILLED or the status of its fills. The watchdog: at
the limit of a queue with a resident gang, STAGE 0 forces the pre-emption of every triad of the queue that is not parked, or goes to STAGE
1 where there is none, and STAGE 1, or the end of the grace while one still runs, kills the queue's gangs, whose invocation ends KILLED,
and faults the queue at STAGE 2. Where it rests on the model's own choices they are those of log entries 58, 59. -/
def Obligations.TriadsRetireAndTheWatchdogKills : Prop :=
  (∀ (s : State) (tr : Triad) (v : Gang),
     let c := s.occ.n
     tfind c s.triads = some tr → mayRetire s c = true → tfind tr.gang s.gangs = some v →
     Completes .triadRetire s (fun t =>
       ¬ t.Has c ∧ (∀ k, k ≠ c → t.triad k = s.triad k) ∧
       (∀ k, (t.slot k).owner = if (s.slot k).owner = some c then none else (s.slot k).owner) ∧
       (∀ k, (t.slot k).vec = (s.slot k).vec) ∧
       (∀ k, t.tile k = if (s.tile k).holder = some c then { s.tile k with holder := none, kept := none } else s.tile k) ∧
       ((∀ x ∈ v.slots, x ≠ (tr.core, tr.slot) → x.1 ≠ tr.core) → ∀ p ∈ (t.core tr.core).cells, p.2.gang ≠ tr.gang) ∧
       (v.retired + 1 ≠ v.k → t.mem = s.mem ∧ ∃ v', tfind tr.gang t.gangs = some v' ∧ v'.retired = v.retired + 1 ∧ c ∉ v'.ctxns ∧
         (tr.core, tr.slot) ∉ v'.slots) ∧
       (v.retired + 1 = v.k → tfind tr.gang t.gangs = none ∧
         ∀ e, tfind v.entry s.entries = some e → e.retired + 1 + e.killedGangs = e.rcd.gangs → s.Unwritten v.entry →
           s.TakesWord e.rcd → Settled s 0 →
           tfind v.entry t.entries = none ∧ WordReads s t e.rcd ((e.retired + 1) % 2 ^ 32 * 2 ^ 8 +
             if e.killedGangs ≠ 0 ∨ e.dropped = true then 8 else topStatus e.fills)))) ∧
  (∀ s : State,
     let q := s.occ.n
     let k := s.queue q
     let Kills (i : Instr) : Prop := Completes i s (fun t =>
       (t.queue q).state = 2 ∧ (t.queue q).wdStage = 2 ∧
       (∀ g v e, tfind g s.gangs = some v → tfind v.entry s.entries = some e → e.queue = q → tfind g t.gangs = none) ∧
       ∀ key e, tfind key s.entries = some e → e.queue = q → (∀ p ∈ s.entries, p.2.queue = q → p = (key, e)) → (s.gangs.map (·.1)).Nodup →
         e.placed = e.retired + e.killedGangs + s.gangs.countP (fun g => g.2.entry == key) → s.Unwritten key →
         (∀ p ∈ s.topos, p.2.queue = [] ∧ p.2.running = []) → s.TakesWord e.rcd → Settled s 0 →
         tfind key t.entries = none ∧ WordReads s t e.rcd (e.retired % 2 ^ 32 * 2 ^ 8 + 8))
     (k.wdEn = true → queueResident s q = true → 1000 * k.wdLimit ≤ k.wdNs → k.wdForced = none →
       (k.wdStage = 1 → Kills .watchdogLimitExpiry) ∧
       (k.wdStage = 0 → Completes .watchdogLimitExpiry s (fun t =>
         t = { s with triads := t.triads, queues := t.queues } ∧ (∀ p, p ≠ q → t.queue p = s.queue p) ∧
         (∀ c tr, tfind c s.triads = some tr →
           tfind c t.triads = some (if tr.queue = q ∧ tr.parked = false then { tr with wdog := true } else tr)) ∧
         ((∃ p ∈ s.triads, p.2.queue = q ∧ p.2.parked = false) → t.queue q = { k with wdForced := some 0 }) ∧
         ((∀ p ∈ s.triads, p.2.queue = q → p.2.parked = true ∧ p.2.wdog = false) →
           t.queue q = { k with wdStage := 1, wdNs := 0, wdForced := none })))) ∧
     (∀ n, k.wdForced = some n → k.wdEn = true → 1000 * k.wdGrace ≤ n → (∃ p ∈ s.triads, p.2.queue = q ∧ p.2.wdog = true) →
       Kills .watchdogGraceExpiry))

/-- Traps of instructions: TRAP completes and traps CALL with its operand, an unassigned opcode traps ILLOP, a privileged instruction in
user mode PRIV, TRET and IDLE outside a handler ILLOPND, a transfer to an unaligned block or an unaligned load or store ALIGN with the
address, a translation that faults PGFAULT with its cause. Where no handler or area is set, or in a handler, the gang is killed. A vector
instruction in a triad that does not own its slot traps VSWITCH, a read through an unbound window PARAM, a mesh instruction whose handle
names no sealed object PARAM with the handle, an access to a poisoned or uncorrectable line POISON or UE with its address, and a scalar
result that raises an enabled event FPX after it is written. A vector load, some of whose elements meet translation faults, loads every
other element, sets in m15 the elements that it did not load, and traps PGFAULT for a reissue: the record names the lowest of them, the
granules that they lie in, and the events held. Where it rests on the model's own choices they are those of log entries 26, 28, 29, 43,
49. -/
def Obligations.TrapsEnterTheHandler : Prop :=
  (∀ (s : State), s.Started →
     let c := s.cur.ctxn
     let only (p : TrapPost) : Role → Option TrapPost := fun q => if q = s.cur.role then some p else none
     let Gone (t : State) : Prop := tfind s.tr.gang t.gangs = none ∧
       ∀ v, tfind s.tr.gang s.gangs = some v → ∀ k ∈ v.ctxns, (s.triad k).gang = s.tr.gang → ¬ t.Has k
     let Traps (i : Instr) (u : State) (p : TrapPost) : Prop :=
       (Stoppable u c → TrapFree u c → Completes i s (fun t => EntersHandler u t c s.cur.role (only p))) ∧
       (TrapFree s c → (∀ q, inFlight (s.tr.role q) = false) →
         (s.core s.tr.core).trapvec.getLsbD 63 = false ∨ s.tr.traprec.getLsbD 63 = false → Completes i s Gone) ∧
       (s.th.inHandler = true → s.tr.trapper = none → Completes i s Gone)
     let At (i : Instr) (cls : Nat) (a : Word) : Prop := Traps i s { cls := cls, faddr := a, resume := s.th.pc }
     (∀ f : FmtY, Traps (.trap f) s.advance { cls := 13, elem := f.imm8.toNat, resume := s.th.successor }) ∧
     (∀ op pl, At (.unassignedOpcode op pl) 0 0) ∧
     (s.th.priv = false → (∀ f, At (.tret f) 2 0) ∧ (∀ f, At (.idle f) 2 0) ∧ (∀ f, At (.ssave f) 2 0) ∧ (∀ f, At (.srstor f) 2 0) ∧
       (∀ f, At (.vsave f) 2 0) ∧ (∀ f, At (.vrstor f) 2 0) ∧ (∀ f, At (.xinv f) 2 0) ∧ (∀ f, At (.xinvall f) 2 0) ∧
       (∀ f, At (.denylogRead f) 2 0) ∧ (∀ f, isSy (stateRegNo f) = true → At (.mfsr f) 2 0 ∧ At (.mtsr f) 2 0) ∧ (∀ f, At (.swapidBind f) 2 0) ∧ (∀ f, At (.swapidShadow f) 2 0) ∧
       (∀ f, At (.swapidUnshadow f) 2 0) ∧ (∀ f, At (.swapidAssume f) 2 0) ∧ ∀ f, At (.swapidUnbind f) 2 0) ∧
     (s.th.priv = true → s.th.inHandler = false → (∀ f, At (.tret f) 1 0) ∧ ∀ f, At (.idle f) 1 0) ∧
     (∀ f : FmtJ,
       let rel := s.th.pc + f.disp40.signExtend 64 * 8#64
       let abs := s.x f.xa + f.disp40.signExtend 64 * 8#64
       (rel.toNat % 128 ≠ 0 → At (.bc f) 3 rel ∧ At (.bal f) 3 rel ∧ (f.xa ≠ 0#6 → At (.loop f) 3 rel)) ∧
       (abs.toNat % 128 ≠ 0 → At (.jr f) 3 abs ∧ At (.jalr f) 3 abs) ∧ (f.xa = 0#6 → At (.loop f) 1 0)) ∧
     (∀ f : FmtM, f.scope.toNat ≠ 4 →
       ((s.eaM f).toNat % 2 ^ segWm f ≠ 0 → At (.ld f) 3 (s.eaM f) ∧ At (.st f) 3 (s.eaM f)) ∧
       ((s.eaM f).toNat % 2 ^ segWm f = 0 → ∀ cause u, Stoppable u c → TrapFree u c →
         let p : TrapPost := { cls := 4, sub := cause, faddr := s.eaM f, resume := s.th.pc }
         (locate s s.tr.core s.cred (s.eaM f) .ld true = (.fault cause, u) →
           Completes (.ld f) s (fun t => EntersHandler u t c s.cur.role (only p))) ∧
         (locate s s.tr.core s.cred (s.eaM f) .st true = (.fault cause, u) →
           Completes (.st f) s (fun t => EntersHandler u t c s.cur.role (only p)))))) ∧
  (∀ (s : State), s.Started →
     let c := s.cur.ctxn
     let only (p : TrapPost) : Role → Option TrapPost := fun q => if q = s.cur.role then some p else none
     let Enters (i : Instr) (u : State) (p : TrapPost) : Prop :=
       Stoppable u c → TrapFree u c → Completes i s (fun t => EntersHandler u t c s.cur.role (only p))
     let At (i : Instr) (cls : Nat) (a : Word) : Prop := Enters i s { cls := cls, faddr := a, resume := s.th.pc }
     (s.vpNow = none → s.ownsVec = false →
       (∀ f, At (.vcfg f) 9 0) ∧
       (∀ f : FmtM, f.scope.toNat ≠ 4 →
         (vDecode s.vec.cfg s.cur.role 1 [vField false f.v 1] [] = true → At (.vld f) 9 0 ∧ At (.vlds f) 9 0) ∧
         (vDecode s.vec.cfg s.cur.role 1 [] [vField false f.v 1] = true → At (.vst f) 9 0 ∧ At (.vsts f) 9 0)) ∧
       (∀ m, s.th.resume = some m → m.cont = true →
         (∀ f : FmtY, At (.bsync f) 9 0 ∧ (f.scope.toNat ≠ 4 → At (.vfbar f) 9 0)) ∧
         (s.cur.role = .computer → ∀ f, At (.vfetch f) 9 0))) ∧
     (∀ f : FmtB,
       let o := s.x f.xa + f.imm32.signExtend 64
       let n := tWidth (if f.t = 15#4 then 7#4 else f.t) / 8
       (o.toNat % n ≠ 0 → At (.ldw f) 3 o) ∧ (o.toNat % n = 0 → (s.tr.win (f.opv.toNat % 8)).size = 0 → At (.ldw f) 5 0)) ∧
     (∀ (f : FmtM) (u : State) (pa key frame : Nat), f.scope.toNat ≠ 4 → Finds s u (s.eaM f) (2 ^ segWm f) .ld pa key frame →
       let Meets (cls : Nat) : Prop := Enters (.ld f) u { cls := cls, faddr := s.eaM f, resume := s.th.pc }
       (physQuality u pa (2 ^ segWm f) = .poisoned → Meets 6) ∧ (physQuality u pa (2 ^ segWm f) = .uncorrectable → Meets 7)) ∧
     (∀ (f : FmtA) (u : State) (pa key frame : Nat), amoScope f ≠ 4 →
       let a := s.x f.xa + f.imm16.signExtend 64
       let n := tWidth f.t / 8
       Finds s u a n .rmw pa key frame → inSealed u pa n = false →
       let Meets (i : Instr) (cls : Nat) : Prop := Enters i u { cls := cls, faddr := a, resume := s.th.pc }
       (physQuality u pa n = .poisoned → Meets (.amo f) 6 ∧ Meets (.cas f) 6) ∧
       (physQuality u pa n = .uncorrectable → Meets (.amo f) 7 ∧ Meets (.cas f) 7)) ∧
     (∀ (f : FmtM) (e : Nat) (es : List Nat) (at_ : Loc), s.quiet → f.scope.toNat ≠ 4 →
       let h := s.x f.xbase
       s.vec.active f.m.toNat s.th.vl = e :: es → h.toNat % 4 = 0 → locate s s.tr.core s.cred h .ld false = (at_, s) → at_.isFault = false →
       meshNamed s s.tr.core s.cred h (some s.tr.tag) = (none, s) →
       (meshIdx f = true → ∀ k ∈ e :: es, s.vec.opPois (.reg f.xs.toNat) 0 (egOf 32 k) = false) →
       VectorReady s (vDecode s.vec.cfg s.cur.role 1 [vField (meshRing f) f.v 1] (if meshIdx f then [vField false f.xs 1] else []))
         (s.vlOk 32) [] (if meshRing f then [opnd (meshRing f) f.v] else []) →
       let p : TrapPost := { cls := 5, sub := 1, elem := e, faddr := h, resume := s.th.pc }
       Enters (.vnbr f) s p ∧ Enters (.vface f) s p) ∧
     (∀ f : FmtA, (fpRm f = 5 → s.cur.role = .computer) → Stoppable s c → TrapFree s c →
       let m := fpMode f
       let a := s.fpVal f f.xa
       let b := s.fpVal f f.xb
       let Fpx (i : Instr) (x : Val × Ev) : Prop :=
         let r := roundTo (fpFmt f.t) (s.fpCtx f) x.1
         enabled s.tr.vstat &&& (x.2 ||| r.2) ≠ 0 →
         Completes i s (fun t => ∃ u, FpResult s u f.xd r.1 (x.2 ||| r.2) (fpRm f == 5) ∧
           EntersHandler u t c s.cur.role (only { cls := 8, resume := s.th.successor }))
       Fpx (.fadd f) (addV m a b) ∧ Fpx (.fsub f) (addV m a b.negate) ∧ Fpx (.fmul f) (mulV a b) ∧ Fpx (.fdiv f) (divV a b) ∧
       Fpx (.fsqrt f) (sqrtV a) ∧ Fpx (.ffma f) (fmaV m a b (s.fpVal f f.xc)))) ∧
  (∀ (f : FmtM) (s : State), s.quiet → f.o = 0#1 →
     let c := s.cur.ctxn
     let act := s.vec.active f.m.toNat s.th.vl
     let n := 2 ^ segWm f
     let w := wrBits f
     let base := s.x f.xbase + f.imm16.signExtend 64
     let Batched (i : Instr) (addr : Nat → Word) : Prop := ∀ (pa : Nat → Nat) (key : Nat) (cause : Nat → Option Nat) (e0 : Nat) (more : List Nat),
       (∀ e ∈ act, (addr e).toNat % n = 0 ∧ isVirt (addr e) = true ∧ match cause e with
         | some k => locate s s.tr.core s.cred (addr e) .ld false = (.fault k, s)
         | none => markHolds s (pa e) n = false ∧ ∃ frame, locate s s.tr.core s.cred (addr e) .ld false = (.here (pa e) key frame, s)) →
       let left := act.filter fun e => (cause e).isSome
       let good := act.filter fun e => (cause e).isNone
       left = e0 :: more → Settled s s.tr.core →
       VectorReady s (f.scope.toNat != 4 && vDecode s.vec.cfg s.cur.role 1 [vField false f.v 1] []) (s.vlOk w) [] [] →
       Stoppable s c → TrapFree s c →
       Completes i s (fun t => ∃ u v ev p, u = { s with slots := u.slots } ∧
         u.slot s.tr.slotKey = { s.slot s.tr.slotKey with vec := v } ∧ (∀ k, k ≠ s.tr.slotKey → u.slot k = s.slot k) ∧
         (let bad := fun e => decide (physQuality s (pa e) n ≠ .clean)
          let x := fun e => fillConv n (2 ^ segWr f) (segS f) (numberAt s (pa e) n key)
          Elementwise s.vec { v with m := s.vec.m } good [] (.reg f.v.toNat) 1 w (fun _ e => (x e).1) (fun _ e => bad e) ∧
          EventsOf ev 1 0 good (fun _ e => if bad e then 0 else (x e).2)) ∧
         (∀ e, e < s.th.vl → (v.maskBit 15 e = true ↔ e ∈ left)) ∧ (∀ k, k < 15 → v.mask k = s.vec.mask k) ∧
         EntersHandler u t c s.cur.role (fun q => if q = s.cur.role then some p else none) ∧
         p = { cls := 4, sub := (cause e0).getD 0, elem := e0, faddr := addr e0, resume := s.th.pc, reissue := true, npage := p.npage,
               pages := p.pages, cnt := p.cnt, held := ev.ev, hix := ev.ix } ∧
         ∃ gs : List (Nat × Nat), p.npage = gs.length ∧ p.pages = gs.take 16 ∧ (gs.map (·.1)).Nodup ∧
           ∀ g k, (g, k) ∈ gs ↔ ∃ e ∈ left, (addr e).toNat / 65536 * 65536 = g ∧ cause e = some k ∧
             ∀ d ∈ left, d < e → (addr d).toNat / 65536 * 65536 ≠ g)
     Batched (.vld f) (fun e => base + s.x f.xs + BitVec.ofNat 64 e * BitVec.ofNat 64 n) ∧
     Batched (.vlds f) (fun e => base + BitVec.ofNat 64 e * s.x f.xs))

/-- TRAP_ENTRY: a triad whose trap was pending enters the handler: for the traps that its roles had met, for a forced pre-emption, or for
the first FABRIC trap of a role before its engine faults. BARRIER_DEADLOCK: every waiting role of a gang that can never go on traps
BARRIER. TRET in a handler and PREEMPTED_GANG_RESUME: each triad goes on as its context area says, and the engine command whose fault a
role's record reported goes on, or ends PARTIAL under ENDCMD; an area that holds what no area may hold kills the gang. IDLE parks the
triad and leaves the handler, and its gang is pre-empted once all its triads are parked. Where it rests on the model's own choices they
are those of log entries 28, 32, 46. -/
def Obligations.PendingTrapsReturnsAndParking : Prop :=
  (∀ (s : State),
     let c := s.cur.ctxn
     let tr := s.tr
     let only (p : TrapPost) : Role → Option TrapPost := fun q => if q = s.cur.role then some p else none
     (∀ h p, Stoppable s c → tr.trapper = some h → (tr.role h).trap = some p →
       Completes .trapEntry s (fun t => EntersHandler s t c h (fun q => (tr.role q).trap))) ∧
     (Stoppable s c → TrapFree s c → tr.handling = none → tr.parked = false →
       (tr.wdog = true → Completes .trapEntry s (fun t =>
         EntersHandler s t c .computer (fun q => if q = .computer then some { cls := 10, resume := tr.computer.pc } else none) ∧
         ∀ n, (s.queue tr.queue).wdForced = some n → (s.triads.map (·.1)).Pairwise (· < ·) →
           (∀ p ∈ s.triads, p.2.queue = tr.queue → p.2.wdog = true → p.1 = c) →
           t.queue tr.queue = { s.queue tr.queue with wdStage := 1, wdNs := 0, wdForced := none })) ∧
       (tr.wdog = false → ∀ p : TrapPost,
         (∃ l l', s.th.async = l ++ p :: l' ∧ ((p.cls = 12 ∧ ∀ q ∈ l, q.cls ≠ 12) ∨ (l = [] ∧ ∀ q ∈ s.th.async, q.cls ≠ 12))) →
         Completes .trapEntry s (fun t => EntersHandler (s.modTh fun r => { r with async := r.async.erase p }) t c s.cur.role
           (only { p with resume := s.th.pc })))) ∧
     (∀ (k : Nat) (n : Triad) (h : Role), Stoppable s k → TrapFree s k → tfind k s.triads = some n → n.core = s.occ.n → n.parked = false →
       (∀ p ∈ s.triads, p.2.core = s.occ.n → p = (k, n)) → (∀ p ∈ n.chans, p.2.cmd = none) → (s.triads.map (·.1)).Pairwise (· < ·) →
       (∀ q, ((n.role q).ended = true ∧ (n.role q).stall = none) ∨ (n.role q).ended = false ∧ ∃ i ph xd peer cell,
          (n.role q).stall = some (.barrier i ph xd peer) ∧
         tfind i (s.core n.core).cells = some cell ∧ cell.passed ph = false) →
       (n.role h).ended = false → (∀ q, q.num < h.num → (n.role q).ended = true) →
       Completes .barrierDeadlock s (fun t => EntersHandler s t k h (fun q => match (n.role q).stall with
         | some (.barrier _ ph _ _) => some { cls := 11, sub := 2, elem := ph, resume := (n.role q).pc }
         | _ => none)))) ∧
  (∀ (s : State),
     let area (c : Nat) : List Byte := physRead s (areaOf (s.triad c).traprec) 4096 0
     let bad (c : Nat) : Prop := badHeader (area c) = true ∨ (∃ b ∈ (area c).drop 0xD00, b ≠ 0) ∨
       ∃ q : Role, badRoleBlock (8 * s.bound (s.triad c).core) (((area c).drop (0x100 + 0x400 * q.num)).take 1024) = true
     (∀ f : FmtY, s.Started → s.th.priv = true → s.th.inHandler = true →
       (bad s.cur.ctxn → Completes (.tret f) s (fun t => tfind s.tr.gang t.gangs = none)) ∧
       (¬ bad s.cur.ctxn → Completes (.tret f) s (fun t =>
         Returns s t s.cur.ctxn (area s.cur.ctxn) ∧ (∀ k, k ≠ s.cur.ctxn → t.triad k = s.triad k) ∧
         t = { s with triads := t.triads, topos := t.topos } ∧
         ((∀ q, (s.tr.role q).reported = none) → t.tr.chans = s.tr.chans ∧ t.topos = s.topos) ∧
         (∀ q k, (s.tr.role q).reported = some k → (∀ p, p ≠ q → (s.tr.role p).reported = none) →
           let w := fun o => wordIn (area s.cur.ctxn) (o + 0x400 * q.num)
           let ends : Bool := nbits (w 0x318).toNat 62 2 == 3 && (w 0x310).getLsbD 4
           (∀ u, tfind u t.tr.chans = (tfind u s.tr.chans).map fun ch => { ch with cmd := ch.cmd.map fun cmd =>
             if cmd.order = k then { cmd with faulted := false, met := if ends then 1 :: cmd.met else cmd.met } else cmd }) ∧
           ∀ d, tfind d t.topos = (tfind d s.topos).map fun e => { e with running := e.running.map fun cmd =>
             if cmd.order = k then { cmd with faulted := false, ended := ends } else cmd })))) ∧
     (∀ v, tfind s.occ.n s.gangs = some v → v.preempted = true →
       (∀ g w, (g, w) ∈ s.gangs → g ≠ s.occ.n → w.preempted = false → ∀ k ∈ w.slots, k ∉ v.slots) →
       (∀ c ∈ v.ctxns, s.Has c → (s.triad c).gang = s.occ.n ∧ (s.triad c).parked = true ∧ ¬ bad c ∧ ∀ q, ((s.triad c).role q).reported = none) →
       Completes .preemptedGangResume s (fun t =>
         t = { s with triads := t.triads, gangs := t.gangs } ∧
         tfind s.occ.n t.gangs = some { v with preempted := false } ∧ (∀ g, g ≠ s.occ.n → tfind g t.gangs = tfind g s.gangs) ∧
         (∀ c ∈ v.ctxns, s.Has c → Returns s t c (area c)) ∧ ∀ c, c ∉ v.ctxns → t.triad c = s.triad c)) ∧
     (∀ f : FmtY, s.Started → s.th.priv = true → s.th.inHandler = true → (s.queue s.tr.queue).wdForced = none →
       Completes (.idle f) s (fun t =>
         t = { s with triads := t.triads, gangs := t.gangs } ∧ (∀ k, k ≠ s.cur.ctxn → t.triad k = s.triad k) ∧
         t.tr = { s.tr.setRole s.cur.role t.th with handling := none, parked := true, wdog := false } ∧
         t.th = { s.th.advance with inHandler := false, blk := [] } ∧
         ∀ g, tfind g t.gangs = (tfind g s.gangs).map fun v =>
           if g = s.tr.gang ∧ ∀ p ∈ t.triads, p.2.gang = g → p.2.parked = true then { v with preempted := true } else v)))

/-- SSAVE, SRSTOR, VSAVE and VRSTOR complete in a privileged thread on memory in reach: SSAVE stores the context area and SRSTOR loads it,
VSAVE stores the slot's vector state as R359 lays it out once no vector instruction of its owner is under way, VRSTOR takes it from such a
place and makes its triad the owner, VRSTOR with INIT makes it the vector state of a start. Where it rests on the model's own choices they
are those of log entries 30, 31, 32. -/
def Obligations.ContextsAndVectorStateAreSavedAndRestored : Prop :=
  ∀ (f : FmtE) (s : State), s.Started → s.th.priv = true →
    let a := s.x f.xa
    let area := areaOf s.tr.traprec
    let n := s.bound s.tr.core
    let none_ : Nat → Prop := fun _ => False
    let Done (t : State) (v : Word) : Prop := StandsAt s t s.th.successor [f.xd] ∧ t.x f.xd = if f.xd = 0#6 then 0 else v
    a.toNat % 4096 = 0 → Settled s s.tr.core → replayUsed s ≤ 262144 →
    let Virt (len : Nat) : Prop := ∀ o, o < len → isVirt (a + BitVec.ofNat 64 o) = true
    (∀ pa key, Virt 4096 → TakesAt s s.tr.core s.cred a 4096 pa key → physQuality s area 4096 = .clean → area < 2 ^ 39 →
      Completes (.ssave f) s (fun t => OnlyMemory s t ∧ Done t 0 ∧ Fills s t pa (physRead s area 4096 0) key)) ∧
    (∀ bs, bs.length = 4096 → Virt 4096 → HoldsAt s s.tr.core s.cred a bs none_ → area < 2 ^ 39 → inSealed s area 4096 = false →
      Completes (.srstor f) s (fun t => OnlyMemory s t ∧ Done t 0 ∧ Stores s t area bs 0)) ∧
    (∀ o pa key, (s.slot s.tr.slotKey).owner = some o → o < 4096 → s.vec.fits n → Virt (0x8000 + 0x70000 * n) →
      TakesAt s s.tr.core s.cred a (0x8000 + 0x70000 * n) pa key →
      (vecUnderWay s o = true → Completes (.vsave f) s (fun t => OnlyThread s t ∧ t.th = { s.th with stall := some .vsave })) ∧
      (vecUnderWay s o = false → Completes (.vsave f) s (fun t => OnlyMemory s t ∧ Done t 0 ∧ ∃ bs, Saves n s.vec bs ∧ numIn bs 0x20 8 = o ∧ Fills s t pa bs key))) ∧
    ((s.slot s.tr.slotKey).owner = none → Completes (.vsave f) s (fun t => Writes s t f.xd 5)) ∧
    (let Owns (i : Instr) (P : VecState → Word → Prop) : Prop := Completes i s (fun t => ∃ v st,
        t = { s with triads := t.triads, slots := t.slots } ∧ (∀ c, c ≠ s.cur.ctxn → t.triad c = s.triad c) ∧
        t.tr = s.tr.setRole s.cur.role t.th ∧ Done t st ∧ t.slot s.tr.slotKey = ⟨some s.cur.ctxn, v⟩ ∧
        (∀ k, k ≠ s.tr.slotKey → t.slot k = s.slot k) ∧ P v st)
     (f.fn = 1#24 → Owns (.vrstor f) (fun v st => v = VecState.start ∧ st = 0)) ∧
     (f.fn ≠ 1#24 → ∀ bs, bs.length = 0x8000 + 0x70000 * n → Virt bs.length → HoldsAt s s.tr.core s.cred a bs none_ →
      (badSave n bs = true → Completes (.vrstor f) s (fun t => Writes s t f.xd 5)) ∧
      (badSave n bs = false → n = 1 ∨ n = 2 ∨ n = 4 → Owns (.vrstor f) (fun v st => Saves n v bs ∧
        (∀ q, ∀ e ∈ v.ring q, e.open_ = false) ∧
        ((v.pois = [] ∧ ∀ q, q < 8 → ∀ e ∈ v.ring q, e.pois = []) → st = 0) ∧
        (¬ (v.pois = [] ∧ ∀ q, q < 8 → ∀ e ∈ v.ring q, e.pois = []) → st = 2)))))

/-- RAMO to another chip sends a returning atomic with the next WSEQ and waits, or, where its home is cut off, goes on with a FABRIC trap
pending. FSTAT reads an identity entry, the thread's abandoned writes, the replay buffer, or asks the home's log; FREPLAY sends the
triad's abandoned writes again under new numbers and FDISCARD drops them; a full replay buffer holds a write until there is room. SWAPID
of a privileged thread puts its change on the management ring and waits, or answers RANGE for no LCN. IDENTITY_CHANGE_APPLY takes the
first change: it answers PEER_LOST for a silent port, RANGE where R385's precondition fails, else DONE with the entry changed as R385
says; a replica that takes an LCN over goes on after the last write of each source and publishes those numbers. SWAP_MARK_RECEIPT drops
the writes that were performed and sends the later ones again after the mark. Where it rests on the model's own choices they are those of
log entries 10, 11, 65, 66, 78. -/
def Obligations.RemoteAtomicsReplayAndIdentityChanges : Prop :=
  (∀ (f : FmtA) (g : FmtE) (s : State), s.Started →
     let lcn := (s.x g.xa).toNat
     let mine : Replay → Prop := fun r => r.abandoned = true ∧ r.lcn = lcn ∧ ∃ o, r.owner = some o ∧ o.ctxn = s.cur.ctxn
     let isMine : Replay → Bool := fun r => r.abandonedBy s.cur.ctxn lcn
     let flits (rs : List Replay) : Nat := (rs.map fun r => if r.txn.data = [] then 2 else 3 + (r.txn.data.length + 63) / 64).sum
     (∀ pa key u, (s.x f.xa + f.imm16.signExtend 64).toNat % (tWidth f.t / 8) = 0 →
       locate s s.tr.core s.cred (s.x f.xa + f.imm16.signExtend 64) .rmw true = (.far pa key, u) →
       let l := pa / 2 ^ 44 % 128
       (cutOff u s.cur l = true → Completes (.ramo f) s (fun t => OnlyThread u t ∧ t.th.pc = u.th.successor ∧ (∀ n, t.x n = u.x n) ∧
         ∃ p : TrapPost, t.th.async = u.th.async ++ [p] ∧ p.cls = 12 ∧ p.sub = 2 ∧ p.faddr = s.x f.xa + f.imm16.signExtend 64)) ∧
       (cutOff u s.cur l = false → 262144 < replayUsed u + 2 ∨ smem l u.fab.awaited = true → Completes (.ramo f) s (fun t =>
         OnlyThread u t ∧ t.th = { u.th with stall := some (.replay 2) })) ∧
       (cutOff u s.cur l = false → replayUsed u + 2 ≤ 262144 → smem l u.fab.awaited = false → Completes (.ramo f) s (fun t => ∃ q : Txn,
         let w := nextWseq u l
         let op := f.opv.toNat % 16
         t = { u with triads := t.triads, fab := t.fab } ∧ (∀ c, c ≠ s.cur.ctxn → t.triad c = u.triad c) ∧
         t.tr = u.tr.setRole u.cur.role t.th ∧ t.th = { u.th with stall := t.th.stall } ∧
         t.th.stall = some (.atomic l w f.xd.toNat f.t.toNat (s.x f.xa + f.imm16.signExtend 64) none) ∧ q.tagOk = true ∧
         q.kind = 3 ∧ q.addr = pa % 2 ^ 44 ∧ q.key = key ∧ q.op = op ∧ q.ty = f.t.toNat ∧ q.operand = s.x f.xb ∧ q.wseq = w ∧
         q.dport = (u.ident l).port ∧ q.sport = u.fab.idtab.port ∧ (op = 8 → q.cmpval = s.x f.xc) ∧
         (∃ r : Replay, t.fab.replay = u.fab.replay ++ [r] ∧ r.lcn = l ∧ r.txn = q ∧ r.owner = some s.cur ∧ r.returns = true ∧
           r.abandoned = false) ∧
         t.fab.out = u.fab.out ++ [q] ∧ nextWseq t l = (w + 1) % 2 ^ 32 ∧ ∀ k, k ≠ l → nextWseq t k = nextWseq u k))) ∧
     (let sel := g.fn.toNat % 16
      let e := s.ident lcn
      (127 < lcn → Completes (.fstat g) s (fun t => Writes s t g.xd (BitVec.allOnes 64))) ∧
      (lcn ≤ 127 →
       (sel = 0 → Completes (.fstat g) s (fun t => Writes s t g.xd (BitVec.ofNat 64
         (e.state * 2 ^ 62 + (if e.shv then 2 ^ 61 else 0) + (if e.cur then 2 ^ 60 else 0) + e.shport * 2 ^ 8 + e.port)))) ∧
       (sel = 1 → Completes (.fstat g) s (fun t => Writes s t g.xd (BitVec.ofNat 64
         (flits (s.fab.replay.filter isMine) * 2 ^ 32 + (s.fab.replay.filter isMine).length)))) ∧
       (sel = 4 → Completes (.fstat g) s (fun t => Writes s t g.xd (BitVec.ofNat 64
         (flits (s.fab.replay.filter (·.abandoned)) * 2 ^ 32 + flits s.fab.replay)))) ∧
       (sel = 2 ∨ sel = 3 → e.state ≠ 1 → Completes (.fstat g) s (fun t => Writes s t g.xd 0)) ∧
       (e.state = 1 → lcn = s.fab.idtab.lcn → s.fab.idtab.rep = false →
         let w := (s.x g.xb).toNat % 2 ^ 32
         let old := (s.fab.rlog.find? fun e => e.sport == s.fab.idtab.port && e.wseq == w).map (·.old)
         let known := smem lcn s.fab.known
         let applied : Bool := known && (tfind lcn s.fab.marks).any (seqLe w)
         (sel = 2 → Completes (.fstat g) s (fun t => Writes s t g.xd (BitVec.ofNat 64
           ((if known then 4 else 0) + (if old.isSome then 2 else 0) + if applied then 1 else 0)))) ∧
         (sel = 3 → Completes (.fstat g) s (fun t => Writes s t g.xd (old.getD 0)))) ∧
       (sel = 2 ∨ sel = 3 → e.state = 1 → lcn ≠ s.fab.idtab.lcn ∨ s.fab.idtab.rep = true → Completes (.fstat g) s (fun t => ∃ r : OutRead,
         t = { s with triads := t.triads, fab := t.fab } ∧ t.th = { s.th with stall := some (.fstat g) } ∧
         t.fab.reads = s.fab.reads ++ [r] ∧ r.lcn = lcn ∧ r.tid = s.cur ∧ r.txn.kind = 9 ∧ r.txn.wseq = (s.x g.xb).toNat % 2 ^ 32 ∧
         t.fab.out = s.fab.out ++ [r.txn] ∧ t.fab.replay = s.fab.replay)))) ∧
     ((127 < lcn → Completes (.freplay g) s (fun t => Writes s t g.xd 5) ∧ Completes (.fdiscard g) s (fun t => Writes s t g.xd 5)) ∧
      (lcn ≤ 127 →
       Completes (.fdiscard g) s (fun t => Writes { s with fab := t.fab } t g.xd 0 ∧
         t.fab = { s.fab with replay := t.fab.replay } ∧ ∀ r, r ∈ t.fab.replay ↔ r ∈ s.fab.replay ∧ ¬ mine r) ∧
       ((s.ident lcn).state ≠ 1 → Completes (.freplay g) s (fun t => Writes s t g.xd 4)) ∧
       ((s.ident lcn).state = 1 → smem lcn s.fab.awaited = true →
         Completes (.freplay g) s (fun t => OnlyThread s t ∧ t.th = { s.th with stall := some (.drain 15) })) ∧
       ((s.ident lcn).state = 1 → smem lcn s.fab.awaited = false → (∀ r ∈ s.fab.replay, ¬ mine r) →
         Completes (.freplay g) s (fun t => Writes s t g.xd 0)) ∧
       ((s.ident lcn).state = 1 → smem lcn s.fab.awaited = false → (∃ r ∈ s.fab.replay, mine r) → (∀ r ∈ s.fab.replay, r.owner = some s.cur → r.abandoned = true) →
         nextWseq s lcn < 2 ^ 32 →
         let own := s.fab.replay.filter isMine
         Completes (.freplay g) s (fun t => ∃ new : List Replay,
           t = { s with triads := t.triads, fab := t.fab } ∧ (∃ w, t.th = { s.th with stall := some (.freplay g w) } ∧
             w = (nextWseq t lcn + 2 ^ 32 - 1) % 2 ^ 32) ∧
           t.fab.replay = (s.fab.replay.filter fun r => !isMine r) ++ new ∧ new.length = own.length ∧
           t.fab.out = s.fab.out ++ new.map (·.txn) ∧ nextWseq t lcn = (nextWseq s lcn + own.length) % 2 ^ 32 ∧
           ∀ (i : Nat) (r : Replay), own[i]? = some r → new[i]? = some { r with
             abandoned := false, txn := { r.txn with wseq := (nextWseq s lcn + i) % 2 ^ 32, dport := (s.ident lcn).port }.sealed })))) ∧
     (∀ last, s.th.stall = some (.freplay g last) → s.tr.trapper = none →
       ((s.ident lcn).state ≠ 1 ∨ (∃ r ∈ s.fab.replay, mine r) → Completes .freplayComplete s (fun t => Writes s t g.xd 4)) ∧
       ((s.ident lcn).state = 1 → (∀ r ∈ s.fab.replay, ¬ mine r) →
         (∀ r ∈ s.fab.replay, r.lcn = lcn → (∃ o, r.owner = some o ∧ o.ctxn = s.cur.ctxn) → ¬ NotAfter r.txn.wseq last) →
         Completes .freplayComplete s (fun t => Writes s t g.xd 0)) ∧
       ((s.ident lcn).state = 1 → (∀ r ∈ s.fab.replay, ¬ mine r) →
         (∃ r ∈ s.fab.replay, r.lcn = lcn ∧ (∃ o, r.owner = some o ∧ o.ctxn = s.cur.ctxn) ∧ NotAfter r.txn.wseq last) →
         Completes .freplayComplete s (fun t => t = s))) ∧
     (∀ n, s.th.stall = some (.replay n) →
       (262144 < replayUsed s + n → Completes .replayRoomRelease s (fun t => t = s)) ∧
       (replayUsed s + n ≤ 262144 → Completes .replayRoomRelease s (fun t => t.th = { s.th with stall := none } ∧
         let vector := s.th.word.any fun w => vectorOp (wordOp w).toNat
         OnlyThread { s with agenda := if vector then .run s.cur :: s.agenda else s.agenda } t)))) ∧
  (∀ (f : FmtE) (s : State),
     (s.Started → s.th.priv = true →
       let lcn := (s.x f.xa).toNat
       let Sends (i : Instr) (op : Nat) (force : Bool) : Prop :=
         (127 < lcn → Completes i s (fun t => Writes s t f.xd 5)) ∧
         (lcn ≤ 127 → Completes i s (fun t =>
           OnlyThread { s with fab := { s.fab with ring := s.fab.ring ++ [⟨op, force, lcn, (s.x f.xb).toNat, some s.cur⟩] } } t ∧
           t.th = { s.th with stall := some (.swapid f.xd.toNat) }))
       Sends (.swapidBind f) 0 false ∧ Sends (.swapidShadow f) 1 false ∧ Sends (.swapidUnshadow f) 2 false ∧
       Sends (.swapidAssume f) 3 (f.fn.getLsbD 3) ∧ Sends (.swapidUnbind f) 4 false) ∧
     (∀ c rest, s.occ.flag = false → s.fab.ring = c :: rest → c.op ≤ 4 → c.port ≠ s.fab.idtab.port → s.fab.idtab.shd = false →
       shadowPort s = none → (c.lcn ≠ s.fab.idtab.lcn ∨ s.fab.idtab.rep = true) →
       (∀ w, c.asker = some w → s.Has w.ctxn ∧ (s.triad w.ctxn).trapper = none ∧ ∃ d, d < 64 ∧ (s.thread w).stall = some (.swapid d)) →
       let e := s.ident c.lcn
       let told := s.occ.ring
       let silent := c.op ≤ 1 ∧ c.port < 144 ∧ told.silent = true
       let allowed := (c.op = 0 ∧ e.state = 0 ∧ c.port < 144 ∧ told.enabled = true ∧ told.rep = true) ∨
         (c.op = 1 ∧ e.state = 1 ∧ e.shv = false ∧ c.port < 144 ∧ told.enabled = true ∧ told.rep = true ∧ told.shadowing = false) ∨
         (c.op = 2 ∧ e.shv = true) ∨ (c.op = 3 ∧ e.state = 2 ∧ e.shv = true ∧ (e.cur = true ∨ c.force = true)) ∨ (c.op = 4 ∧ e.state = 2)
       let Answers (t : State) (st : Nat) : Prop := t.mem = s.mem ∧ t.fab.ring = rest ∧ t.fab.idtab = s.fab.idtab ∧
         (∀ l, l ≠ c.lcn → t.ident l = s.ident l) ∧
         (c.asker = none → t.io.idcmd = st ∧ t.triads = s.triads) ∧
         ∀ w d, c.asker = some w → (s.thread w).stall = some (.swapid d) →
           t.thread w = ((s.thread w).setXr d (BitVec.ofNat 64 st)).advance ∧ ∀ v, v ≠ w → t.thread v = s.thread v
       (silent → Completes .identityChangeApply s (fun t => Answers t 4 ∧ t.ident c.lcn = e)) ∧
       (¬ silent → ¬ allowed → Completes .identityChangeApply s (fun t => Answers t 5 ∧ t.ident c.lcn = e)) ∧
       (¬ silent → allowed → Completes .identityChangeApply s (fun t => Answers t 0 ∧
         (c.op = 0 → t.ident c.lcn = { e with port := c.port, state := 1 }) ∧
         (c.op = 1 → t.ident c.lcn = { e with shv := true, shport := c.port }) ∧
         (c.op = 2 → t.ident c.lcn = { e with shv := false, cur := false }) ∧
         (c.op = 3 → t.ident c.lcn = { e with port := e.shport, shport := 0, shv := false, cur := false, state := 1 } ∧
           smem c.lcn t.fab.awaited = true) ∧
         (c.op = 4 → t.ident c.lcn = { e with state := 0 })))) ∧
     (∀ c rest, s.occ.flag = false → s.fab.ring = c :: rest → c.op = 3 → c.asker = none → s.fab.idtab.shd = true →
       let e := s.ident c.lcn
       e.shport = s.fab.idtab.port → e.state = 2 → e.shv = true → e.cur = true ∨ c.force = true →
       Completes .identityChangeApply s (fun t => t.mem = s.mem ∧ t.fab.ring = rest ∧ t.io.idcmd = 0 ∧
         t.fab.idtab = { s.fab.idtab with rep := false, shd := false, cur := false, shlcn := 0, lcn := c.lcn } ∧
         t.ident c.lcn = { e with port := e.shport, shport := 0, shv := false, cur := false, state := 1 } ∧
         (∀ p m, tfind p s.fab.lseq = some m → expected t p = (m + 1) % 2 ^ 32) ∧
         ∀ p, p < 144 → (c.lcn, p, tget (2 ^ 32 - 1) p s.fab.lseq) ∈ t.fab.swapMarks)) ∧
     (let l := s.occ.n
      let m := s.occ.k
      m < 2 ^ 32 → s.noneEnding → l < 128 →
      let done : Replay → Bool := fun r => r.lcn == l && r.abandoned && r.txn.wseq != 2 ^ 32 && seqLe r.txn.wseq m
      let later := s.fab.replay.filter fun r => r.lcn == l && !r.abandoned
      Completes .swapMarkReceipt s (fun t => ∃ new : List Replay,
       t = { s with fab := t.fab } ∧ tfind l t.fab.marks = some m ∧ smem l t.fab.known = true ∧ smem l t.fab.awaited = false ∧
       t.fab.replay = (s.fab.replay.filter fun r => !done r && !(r.lcn == l && !r.abandoned)) ++ new ∧ new.length = later.length ∧
       t.fab.out = s.fab.out ++ new.map (·.txn) ∧ nextWseq t l = (m + 1 + later.length) % 2 ^ 32 ∧
       ∀ (i : Nat) (r : Replay), later[i]? = some r → new[i]? = some { r with
         txn := { r.txn with wseq := (m + 1 + i) % 2 ^ 32, dport := (s.ident l).port }.sealed })))

/-- What arrives at the fabric port for a thread: a read response fills the lines that the read asked for, poisoned where the tag fails or
the line came so; an atomic response gives xd the old value, or the status of TSIGNAL's fence, and ends the wait; an acknowledgement frees
every write up to its number; a nack frees what came before its number and the rest is sent again; a heartbeat counts as heard, and one is
sent every microsecond. The port and its domain: training brings the port up with its number; a frame grants as R372 says; a domain reset
drops what is in flight, the third within 10 ms fences a slice or stops the domain, and retraining sends what is unanswered again and asks
the log for the atomics whose answers are lost; 8 microseconds of silence or a death notice lose an LCN, and a device that hears nobody
loses them all. Where it rests on the model's own choices they are those of log entries 51, 61, 62, 64, 65, 84. -/
def Obligations.FabricAnswersAndThePort : Prop :=
  (∀ (s : State), s.port →
     let q := s.arrival
     let heard : Fabric := { s.fab with heard := tset q.sport s.time s.fab.heard }
     (∀ l (r : OutRead) l',
       let answers (p : OutRead) : Prop := p.txn.kind = 0 ∧ homePort s p.lcn = q.sport ∧ (q.tagOk = true → p.txn.addr = q.addr)
       q.tagOk = false ∨ q.kind = 1 → s.fab.reads = l ++ r :: l' → answers r → (∀ p ∈ l, ¬ answers p) → s.Has r.tid.ctxn →
       (∀ p ∈ s.fab.reads, p.num = r.num → p = r) →
       Completes .readResponse s (fun t =>
         let mine (k : Nat) : Prop := r.slot ≤ k ∧ k < r.slot + r.txn.nbyte / 64
         t = { s with triads := t.triads, fab := t.fab } ∧ t.fab = { heard with reads := t.fab.reads } ∧
         (∀ p, p ∈ t.fab.reads ↔ p ∈ s.fab.reads ∧ p ≠ r) ∧ (∀ v, v ≠ r.tid → t.thread v = s.thread v) ∧
         t.thread r.tid = { s.thread r.tid with rbuf := (t.thread r.tid).rbuf, want := (t.thread r.tid).want } ∧
         ∀ k, (mine k → k ∉ (t.thread r.tid).want ∧ tfind k (t.thread r.tid).rbuf =
             some ⟨(q.data.drop (64 * (k - r.slot))).take 64, !q.tagOk || q.pmask.contains (k - r.slot)⟩) ∧
           (¬ mine k → tfind k (t.thread r.tid).rbuf = tfind k (s.thread r.tid).rbuf ∧
             (k ∈ (t.thread r.tid).want ↔ k ∈ (s.thread r.tid).want)))) ∧
     (∀ l o d ty ea fence, q.tagOk = true → q.kind = 4 → q.data.length = 8 → s.noneEnding → lcnAt s q.sport = some l →
       (∀ r ∈ s.fab.reads, ¬ (r.txn.kind = 9 ∧ r.txn.wseq = q.wseq ∧ r.lcn = l)) → s.Has o.ctxn → (s.triad o.ctxn).trapper = none →
       d < 64 → ty < 12 → (s.thread o).stall = some (.atomic l q.wseq d ty ea fence) →
       (∀ v, v ≠ o → (∀ d' ty' ea' f', (s.thread v).stall ≠ some (.atomic l q.wseq d' ty' ea' f')) ∧
         ∀ a b wait g p, (s.thread v).stall = some (.vatomic a b wait g p) → ∀ x ∈ wait, (x.1, x.2.1) ≠ (l, q.wseq)) →
       Completes .atomicResponse s (fun t =>
         let T := BitVec.ofNat 4 ty
         t = { s with triads := t.triads, fab := t.fab } ∧ t.fab = { heard with replay := t.fab.replay } ∧
         (∀ r, r ∈ t.fab.replay ↔ r ∈ s.fab.replay ∧ ¬ (r.lcn = l ∧ r.txn.kind = 3 ∧ r.txn.wseq = q.wseq ∧ r.abandoned = false)) ∧
         (∀ v, v ≠ o → t.thread v = s.thread v) ∧
         (∀ c, (t.triad c).vstat = if c = o.ctxn ∧ fence = some 4 then (s.triad c).vstat ||| 0x40000#64 else (s.triad c).vstat) ∧
         t.thread o = ((s.thread o).setXr d (match fence with
           | some st => BitVec.ofNat 64 st
           | none => widen T (BitVec.ofNat _ (bytesNat q.data)))).advance)) ∧
     (q.tagOk = true → s.fab.shadowWait = [] → s.noneEnding →
       let freed (w : Nat) (r : Replay) : Prop :=
         r.abandoned = false ∧ r.txn.wseq ≠ 2 ^ 32 ∧ homePort s r.lcn = q.sport ∧ NotAfter r.txn.wseq w
       (q.kind = 5 → Completes .fabricAck s (fun t => t = { s with fab := { heard with replay := t.fab.replay } } ∧
         ∀ r, r ∈ t.fab.replay ↔ r ∈ s.fab.replay ∧ ¬ freed q.wseq r)) ∧
       (q.kind = 6 → Completes .fabricNack s (fun t => t = { s with fab := { heard with replay := t.fab.replay, out := t.fab.out } } ∧
         (∀ r, r ∈ t.fab.replay ↔ r ∈ s.fab.replay ∧ ¬ freed ((q.wseq + 2 ^ 32 - 1) % 2 ^ 32) r) ∧
         ∃ again, t.fab.out = s.fab.out ++ again ∧ ∀ x, x ∈ again ↔
           (∃ r ∈ t.fab.replay, r.abandoned = false ∧ r.txn.wseq ≠ 2 ^ 32 ∧ homePort s r.lcn = q.sport ∧ x = { r.txn with dport := q.sport }) ∨
           ∃ r ∈ s.fab.reads, homePort s r.lcn = q.sport ∧ x = { r.txn with dport := q.sport }))) ∧
     (q.tagOk = false → (s.fab.reads = [] → Completes .readResponse s (fun t => t = { s with fab := heard })) ∧
       Completes .fabricAck s (fun t => t = { s with fab := heard }) ∧ Completes .fabricNack s (fun t => t = { s with fab := heard })) ∧
     Completes .heartbeat s (fun t => t = { s with fab := heard }) ∧
     (s.fab.hbLast + 1000 ≤ s.time → Completes .heartbeatSend s (fun t => ∃ x : Txn,
       t = { s with fab := { s.fab with hbLast := s.time, out := s.fab.out ++ [x] } } ∧ x.kind = 7 ∧ x.dport = 255 ∧
       x.sport = s.fab.idtab.port ∧ x.tagOk = true)) ∧
     (s.time < s.fab.hbLast + 1000 → Completes .heartbeatSend s (fun t => t = s))) ∧
  (∀ (s : State),
     let own := s.fab.idtab.port
     let unanswered (t : State) (again : List Txn) : Prop := ∀ x, x ∈ again ↔
       (∃ r ∈ s.fab.replay, r.abandoned = false ∧ r.txn.wseq ≠ 2 ^ 32 ∧ x = { r.txn with dport := homePort t r.lcn }) ∨
       ∃ r ∈ s.fab.reads, x = { r.txn with dport := homePort t r.lcn }
     let timers (t : State) : Prop := ∀ l, l < 128 → (s.ident l).state = 1 → (s.ident l).port ≠ t.fab.idtab.port →
       tfind (s.ident l).port t.fab.heard = some s.time
     (s.fab.idtab.fen = true → s.fab.idtab.fst = 1 → Completes .fabricPortUp s (fun t =>
       t = { s with fab := { s.fab with idtab := { s.fab.idtab with fst := 2, port := s.occ.n % 144 }, heard := t.fab.heard } } ∧ timers t)) ∧
     (let recent := s.fab.resets.filter fun r => decide (s.time < r.1 + 10000000)
      let fst := if s.fab.idtab.fen = true ∧ s.fab.idtab.fst ≠ 0 then 3 else s.fab.idtab.fst
      let dropped (rs : List (Nat × Option Nat)) : Fabric :=
        { s.fab with out := [], paths := [], grants := [], resets := rs, idtab := { s.fab.idtab with fst := fst } }
      let slice := if s.occ.flag then some s.occ.k else none
      (recent.length < 2 → Completes .domainReset s (fun t => t = { s with fab := dropped (recent ++ [(s.time, slice)]) })) ∧
      (2 ≤ recent.length → (s.occ.flag = true ∧ (∀ r ∈ recent, r.2 = some s.occ.k) ∧ s.fab.fenced = [] →
          Completes .domainReset s (fun t => t = { s with fab := { dropped [] with fenced := [s.occ.k] } })) ∧
        (s.occ.flag = false ∨ (∃ r ∈ recent, r.2 ≠ some s.occ.k) ∨ s.fab.fenced ≠ [] →
          Completes .domainReset s (fun t => t.fab.stopped = true ∧ t.fab.idtab = { s.fab.idtab with fst := 0 } ∧
            ∀ l, l < 128 → l ≠ s.fab.idtab.lcn → (s.ident l).state = 1 → (t.ident l).state = 2)))) ∧
     (s.fab.idtab.fst = 3 → s.fab.stopped = false →
       let waits (l w : Nat) : Prop := ∃ u ∈ allThreads s, (∃ d ty ea f, (s.thread u).stall = some (.atomic l w d ty ea f)) ∨
         ∃ a b wait g p, (s.thread u).stall = some (.vatomic a b wait g p) ∧ ∃ x ∈ wait, x.1 = l ∧ x.2.1 = w
       let kept (l w : Nat) : Prop := (∃ r ∈ s.fab.replay, r.lcn = l ∧ r.txn.wseq = w ∧ r.returns = true) ∨
         ∃ r ∈ s.fab.reads, r.txn.kind = 9 ∧ r.lcn = l ∧ r.txn.wseq = w
       ((∀ l w, waits l w → kept l w) → Completes .domainResetRetrained s (fun t =>
         t = { s with fab := { s.fab with idtab := { s.fab.idtab with fst := 2 }, heard := t.fab.heard, out := t.fab.out } } ∧ timers t ∧
         ∃ again, t.fab.out = s.fab.out ++ again ∧ unanswered t again)) ∧
       ∀ l w, waits l w → ¬ kept l w → Completes .domainResetRetrained s (fun t =>
         ∃ z ∈ t.fab.out, z.kind = 9 ∧ z.wseq = w ∧ z.dport = (s.ident l).port ∧ ∃ r ∈ t.fab.reads, r.txn = z ∧ r.lcn = l)) ∧
     (s.occ.flag = false → own < 144 →
       let busy := s.fab.paths.filter fun p => decide (1 < p.2.2)
       let asks (i o : Nat) : Prop := i < 144 ∧ o < 144 ∧ i ∉ s.fab.disabled ∧ o ∉ s.fab.disabled ∧ (∀ p ∈ busy, p.1 ≠ i ∧ p.2.1 ≠ o) ∧
         ((s.port ∧ i = own ∧ ∃ x, portHead s = some x ∧ x.dport = o) ∨
           (i ≠ own ∧ ∃ v ∈ s.occ.env.parts, ∃ n, otherRequest v = some (i, o, n)))
       let turn (o : Nat) : Nat := (o + 144 - s.fab.frame % 144) % 144
       let turnAt (o i : Nat) : Nat := (i + 144 - (s.fab.frame + o) % 144) % 144
       Completes .frameArbitration s (fun t =>
         let before (i o : Nat) : Prop := ∃ p, p < 144 ∧ turn p < turn o ∧ tfind p t.fab.grants = some i
         t = { s with fab := { s.fab with
           frame := s.fab.frame + 1, grants := t.fab.grants, paths := t.fab.paths, out := t.fab.out, corrected := s.fab.corrected + s.occ.j } } ∧
         (∀ o i, o < 144 → (tfind o t.fab.grants = some i ↔ asks i o ∧ ¬ before i o ∧
           ∀ p, asks p o → turnAt o p < turnAt o i → before p o)) ∧
         (∀ o, 144 ≤ o → tfind o t.fab.grants = none) ∧ (∀ p ∈ busy, (p.1, p.2.1, p.2.2 - 1) ∈ t.fab.paths) ∧
         (∀ x ∈ s.fab.out, x ∉ t.fab.out → x.dport = 255 ∨ (portHead s = some x ∧ tfind x.dport t.fab.grants = some own)) ∧
         ∀ x, x ∈ t.fab.out → x ∈ s.fab.out ∧ x.dport ≠ 255)) ∧
     (∀ l, s.occ.n = l → s.occ.flag = false → (s.ident l).state = 1 → s.noneEnding → s.noneWaits l →
       Completes .deathNotice s (fun t => LosesLcn s t l ∧ (s.ident l).port ∈ t.fab.disabled) ∧
       (s.port → (s.ident l).port ≠ own → tget 0 (s.ident l).port s.fab.heard + 8000 ≤ s.time →
         ((∃ p ∈ s.fab.heard, p.1 ≠ (s.ident l).port ∧ p.1 ≠ own ∧ s.time < p.2 + 8000) →
           Completes .peerSilenceExpiry s (fun t => LosesLcn s t l ∧ (s.ident l).port ∈ t.fab.disabled ∧
             t.fab.notices = s.fab.notices ++ [(s.ident l).port])) ∧
         ((∀ p ∈ s.fab.heard, p.1 ≠ (s.ident l).port → p.1 ≠ own → p.2 + 8000 ≤ s.time) → (∀ k, s.noneWaits k) →
           Completes .peerSilenceExpiry s (fun t => t.fab.idtab = { s.fab.idtab with fst := 0 } ∧
             (∀ k, k < 128 → (s.ident k).state = 1 → (t.ident k).state = 2) ∧ t.mem = s.mem)))) ∧
     (∀ p, s.occ.n = p → s.occ.flag = true → shadowPort s ≠ some p → Completes .deathNotice s (fun t =>
       t = { s with fab := { s.fab with idents := t.fab.idents, disabled := sadd p s.fab.disabled } } ∧
       ∀ k, t.ident k = if (s.ident k).shv = true ∧ (s.ident k).shport = p then { s.ident k with shv := false, cur := false } else s.ident k)))

/-- What a home does: a read is answered with the lines' bytes and their poison; a write in order is stored and acknowledged, one out of
order or with a bad tag is nacked and does nothing, and the parts of a unit wait for its last one; a returning atomic in order is applied
once, logged, answered with the old value and acknowledged, one that meets poison answered without a value, a repeated one answered from
the log; a replica applies the writes and log entries forwarded to it in order. Where it rests on the model's own choices they are those
of log entries 61, 63, 75, 77, 84. -/
def Obligations.HomesServeTheFabric : Prop :=
  ∀ (s : State) (q : Txn), s.port →
    let own := s.fab.idtab.port
    let heard : Fabric := { s.fab with heard := tset q.sport s.time s.fab.heard }
    let awaited := expected s q.sport
    let next := (q.wseq + 1) % 2 ^ 32
    let n := q.data.length
    let local_ (k : Nat) : Prop := 1 ≤ k ∧ q.addr < 2 ^ 39 ∧ q.addr + k ≤ 2 ^ 39
    let From (x : Txn) (kind : Nat) : Prop := x.kind = kind ∧ x.dport = q.sport ∧ x.sport = own ∧ x.tagOk = true
    let Nacks (i : Instr) : Prop := Completes i s (fun t => ∃ x : Txn, t = { s with fab := { heard with out := s.fab.out ++ [x] } } ∧
      From x 6 ∧ x.wseq = awaited)
    let Acks (x : Txn) : Prop := From x 5 ∧ x.wseq = q.wseq
    let Gives (x : Txn) (bs : List Byte) : Prop := From x 4 ∧ x.wseq = q.wseq ∧ x.data = bs
    let T := BitVec.ofNat 4 q.ty
    let k := tWidth T / 8
    let old := numberAt s q.addr k q.key
    let Applies (i : Instr) (held : List Txn) (h : Tbl Nat) : Prop := Completes i s (fun t => ∃ x y : Txn,
      Gives x (natBytes 8 old) ∧ Acks y ∧
      t = { s with mem := t.mem, fab := { s.fab with
        heard := h, heldAtomics := held, expect := tset q.sport next s.fab.expect, out := s.fab.out ++ [x, y], rlog := t.fab.rlog } } ∧
      (∃ l, t.fab.rlog = l ++ [⟨q.sport, q.wseq, BitVec.ofNat 64 old, s.time⟩] ∧ (s.fab.rlog.length < 16384 → l = s.fab.rlog)) ∧
      Stores s t q.addr (natBytes k (atomicNew q.op T old q.operand.toNat q.cmpval.toNat)) q.key)
    let clean := slotEmpty s q.key = false ∧ physQuality s q.addr k = .clean
    let fit := q.wseq = awaited ∧ local_ k ∧ shadowPort s = none ∧ clean ∧ inSealed s q.addr k = false
    let room := s.fab.rlog.length < 16384 ∨ ∃ e l, s.fab.rlog = e :: l ∧ e.time + 100000 ≤ s.time
    (fit → room → ∀ rest, s.fab.heldAtomics = q :: rest → Applies .resultLogAgeing rest s.fab.heard) ∧
    (q = s.arrival →
    (q.tagOk = false → Nacks .fabricRead ∧ Nacks .fabricWrite ∧ Nacks .returningAtomic ∧ Nacks .resultLogRead) ∧
    (q.tagOk = true →
      (q.kind = 0 → local_ q.nbyte →
        (q.more = true → Completes .fabricRead s (fun t => t = { s with fab := { heard with heldUnits := s.fab.heldUnits ++ [q] } })) ∧
        (q.more = false → (∀ h ∈ s.fab.heldUnits, h.kind = 0 → h.sport ≠ q.sport) →
          Completes .fabricRead s (fun t => ∃ x : Txn, t = { s with fab := { heard with out := s.fab.out ++ [x] } } ∧
            From x 1 ∧ x.addr = q.addr ∧ x.nbyte = q.nbyte ∧ x.data = physRead s q.addr q.nbyte q.key ∧
            ∀ i, i ∈ x.pmask ↔ i < (linesOf q.addr q.nbyte).length ∧
              (slotEmpty s q.key = true ∨ physQuality s (64 * (q.addr / 64 + i)) 64 ≠ .clean)))) ∧
      (q.kind = 2 → (q.wseq ≠ awaited → Nacks .fabricWrite) ∧
        (q.wseq = awaited → local_ n →
          (q.more = true → Completes .fabricWrite s (fun t => t = { s with fab := { heard with
            expect := tset q.sport next s.fab.expect, heldUnits := s.fab.heldUnits ++ [q] } })) ∧
          (q.more = false → (∀ h ∈ s.fab.heldUnits, h.kind = 2 → h.sport ≠ q.sport) → shadowPort s = none → slotEmpty s q.key = false →
            inSealed s q.addr n = false → (∀ b ∈ q.ben, b = true) → q.pmask = [] →
            Completes .fabricWrite s (fun t => ∃ x : Txn, Acks x ∧
              t = { s with mem := t.mem, fab := { heard with expect := tset q.sport next s.fab.expect, out := s.fab.out ++ [x] } } ∧
              Stores s t q.addr q.data q.key)))) ∧
      (q.kind = 3 →
        let again : List LogEnt → Prop := fun l => ∀ d ∈ l, d.sport ≠ q.sport ∨ d.wseq ≠ q.wseq
        (fit → room → Applies .returningAtomic s.fab.heldAtomics heard.heard) ∧
        (q.wseq = awaited → local_ k → shadowPort s = none → room → ¬ clean → Completes .returningAtomic s (fun t => ∃ x y : Txn,
          Gives x [] ∧ Acks y ∧ t = { s with fab := { heard with
            expect := tset q.sport next s.fab.expect, out := s.fab.out ++ [x, y] } })) ∧
        (q.wseq = awaited → local_ k → ¬ room → Completes .returningAtomic s (fun t => t = { s with fab := { heard with
          heldAtomics := if s.fab.heldAtomics.any (fun h => h.sport == q.sport && h.wseq == q.wseq) then s.fab.heldAtomics
            else s.fab.heldAtomics ++ [q] } })) ∧
        (q.wseq ≠ awaited → ¬ NotAfter q.wseq awaited → Nacks .returningAtomic) ∧
        (q.wseq ≠ awaited → NotAfter q.wseq awaited →
          let Tells (bs : List Byte) : Prop := Completes .returningAtomic s (fun t => ∃ x : Txn, Gives x bs ∧
            t = { s with fab := { heard with out := s.fab.out ++ [x] } })
          (∀ e l l', s.fab.rlog = l ++ e :: l' → e.sport = q.sport → e.wseq = q.wseq → again l → Tells (natBytes 8 e.old.toNat)) ∧
          (again s.fab.rlog → Tells (if inSealed s q.addr k then natBytes 8 0 else [])))) ∧
      (q.kind = 9 →
        let Tells (bs : List Byte) : Prop := Completes .resultLogRead s (fun t => ∃ x : Txn, Gives x bs ∧
          t = { s with fab := { heard with out := s.fab.out ++ [x] } })
        (∀ e l l', s.fab.rlog = l ++ e :: l' → e.sport = q.sport → e.wseq = q.wseq →
          (∀ d ∈ l, d.sport ≠ q.sport ∨ d.wseq ≠ q.wseq) → Tells (natBytes 8 e.old.toNat)) ∧
        ((∀ e ∈ s.fab.rlog, e.sport ≠ q.sport ∨ e.wseq ≠ q.wseq) → Tells []))) ∧
    (s.fab.idtab.rep = true → s.fab.idtab.shd = true →
      (q.tagOk = false ∨ (q.kind = 8 ∧ q.wseq ≠ awaited) → Nacks .shadowWrite) ∧
      (q.tagOk = true → q.kind = 8 → q.wseq = awaited → q.pmask = [] → q.addr < 2 ^ 39 →
        let Takes (P : State → Prop) : Prop := Completes .shadowWrite s (fun t => ∃ x : Txn, Acks x ∧
          t = { s with mem := t.mem, fab := { heard with
            expect := tset q.sport next s.fab.expect, out := s.fab.out ++ [x], rlog := t.fab.rlog, lseq := t.fab.lseq } } ∧
          (q.origPort ≠ 255 → tfind q.origPort s.fab.lseq = none → tfind q.origPort t.fab.lseq = some q.origSeq) ∧
          (∀ p, p ≠ q.origPort → tfind p t.fab.lseq = tfind p s.fab.lseq) ∧ P t)
        (local_ n → slotEmpty s q.key = false → inSealed s q.addr n = false → (∀ b ∈ q.ben, b = true) →
          Takes (fun t => t.fab.rlog = s.fab.rlog ∧ Stores s t q.addr q.data q.key)) ∧
        (n = 0 → Takes (fun t => t.mem = s.mem ∧ ∃ l, t.fab.rlog = l ++ [⟨q.origPort, q.origSeq, q.operand, s.time⟩])))) ∧
    (s.fab.idtab.rep = false ∨ s.fab.idtab.shd = false → q.tagOk = false ∨ q.kind = 8 →
      Completes .shadowWrite s (fun t => t = { s with fab := heard }))) ∧
    (∀ l, s.occ.n = l → (s.ident l).shv = true → (s.ident l).cur = false →
      (l ≠ s.fab.idtab.lcn ∨ shadowPort s = none ∨ s.fab.sweep = some (2 ^ 33) →
        Completes .shadowSweepComplete s (fun t => t.ident l = { s.ident l with cur := true } ∧ (∀ k, k ≠ l → t.ident k = s.ident k) ∧
          t = { s with fab := { s.fab with
            idents := t.fab.idents, sweep := t.fab.sweep, idtab := { s.fab.idtab with cur := t.fab.idtab.cur } } })) ∧
      (l = s.fab.idtab.lcn → shadowPort s ≠ none → s.fab.sweep ≠ some (2 ^ 33) → Completes .shadowSweepComplete s (fun t => t = s)))

/-- The semaphore and the control window: an acquire of a free, lapsed or own SY_SEM takes it, a release frees it, a renew restores its
lease, and any other writer changes nothing; every other write of the window is performed only for the owner, whose lease it restores.
Where it rests on the model's own choices they are those of log entries 55, 67. -/
def Obligations.TheOwnerWritesTheControlWindow : Prop :=
  ∀ s : State,
    let who := s.occ.who
    let v := s.occ.value
    let n := s.occ.n
    let m := s.io.sem
    let reach := s.io.power ≠ 2 ∧ (who = 2 ∨ (who < 2 ∧ (s.io.port who).expander = false))
    let r := who % 3 + 1
    let owns := reach ∧ m.owner = r ∧ m.remNs ≠ 0
    let full (lease : Nat) : Nat := max 1 lease * 1000000
    let lease := v.toNat / 2 ^ 16 % 2 ^ 16
    let Stays (i : Instr) : Prop := Completes i s (fun t => t = s)
    let Sems (i : Instr) (x : Sem) : Prop := Completes i s (fun t => t = { s with io := { s.io with sem := x } })
    let Writes (i : Instr) (u : State) : Prop :=
      (owns → Completes i s (fun t => t = { u with io := { u.io with sem := { m with remNs := full m.lease } } })) ∧ (¬ owns → Stays i)
    (reach →
      (m.owner = 0 → Sems .semAcquire { m with owner := r, remNs := full m.lease }) ∧
      (m.owner ≠ 0 → m.remNs = 0 → Sems .semAcquire { m with owner := r, takes := (m.takes + 1) % 65536, remNs := full m.lease }) ∧
      (m.owner = r → m.remNs ≠ 0 → Sems .semAcquire { m with lease := lease, remNs := full lease } ∧
        Sems .semRelease { m with owner := 0, lease := lease, remNs := 0 } ∧ Sems .semRenew { m with lease := lease, remNs := full lease }) ∧
      (m.owner ≠ 0 → m.owner ≠ r → m.remNs ≠ 0 → Stays .semAcquire)) ∧
    (¬ owns → Stays .semRelease ∧ Stays .semRenew) ∧ (¬ reach → Stays .semAcquire) ∧
    (m.owner ≠ 0 → m.remNs ≤ 1 → Sems .semLeaseLapse { m with remNs := 0 }) ∧
    (let p := n % 2
     let port := s.io.port p
     (port.iso = true → Writes .isoclr { s with io := s.io.setPort p { port with iso := false, link := false } }) ∧
     (port.iso = false → Writes .isoclr s)) ∧
    (let base := v.toNat
     (s.triads = [] → base % 2 ^ 24 = 0 → base + 2 ^ 24 ≤ 2 ^ 39 → Writes .poolWrite { s with io := { s.io with pool := v, poolSet := true } }) ∧
     (s.triads ≠ [] ∨ base % 2 ^ 24 ≠ 0 ∨ 2 ^ 39 < base + 2 ^ 24 → Stays .poolWrite)) ∧
    (let Asks (i : Instr) (op : Nat) (force : Bool) : Prop :=
       Writes i { s with fab := { s.fab with ring := s.fab.ring ++ [⟨op, force, n % 128, s.occ.k % 256, none⟩] } }
     Asks .idcmdBind 0 false ∧ Asks .idcmdShadow 1 false ∧ Asks .idcmdUnshadow 2 false ∧ Asks .idcmdAssume 3 s.occ.flag ∧
       Asks .idcmdUnbind 4 false) ∧
    (let u := { s with io := { s.io with pwrlim := max 1200 (min 2400 (v.toNat % 2 ^ 16)) } }
     (who ≠ 2 → Writes .pwrlimWrite u) ∧ (who = 2 → s.io.power ≠ 2 → ¬ owns → Completes .pwrlimWrite s (fun t => t = u)) ∧
     (who = 2 → owns → Writes .pwrlimWrite u)) ∧
    (n % 128 ≠ 0 → Writes .keyLoad { s with keys := tset (n % 128) (bytesNat s.io.keydata) s.keys } ∧
      Writes .keyEmpty { s with keys := tdel (n % 128) s.keys }) ∧ (n % 128 = 0 → Stays .keyLoad ∧ Stays .keyEmpty) ∧
    (let q := n % 128
     let k := s.queue q
     let sz := v.toNat % 32
     let good := k.base.toNat % 4096 = 0 ∧ 12 ≤ sz ∧ sz ≤ 24 ∧ ringPlaced s k.base.toNat (2 ^ sz) = true
     let set (en : Bool) : Queue := { k with
       en := en, dom := v.toNat / 2 ^ 48 % 2 ^ 12, devsub := v.getLsbD 47, privok := v.getLsbD 46, serial := v.getLsbD 45,
       cls := v.toNat / 2 ^ 40 % 4, quant := v.toNat / 2 ^ 16 % 2 ^ 24, log2sz := sz }
     let put (k : Queue) : State := { s with queues := tset q k s.queues }
     (v.getLsbD 60 = false → k.state ≠ 2 →
       (good → Writes .queueEnable (put { set true with state := 1 })) ∧ (¬ good → Writes .queueEnable (put { set false with state := 0, deficit := 0 }))) ∧
     (v.getLsbD 60 = false → k.state = 2 → (good → Writes .queueEnable (put (set true))) ∧
       (¬ good → Writes .queueEnable (put { set false with deficit := 0 }))) ∧
     (∀ en : Bool, (en = true ↔ v.getLsbD 63 = true ∧ good) → Writes .queueReset (put { set en with
       head := 0, tail := 0, inh := Rec.init, fault := 0, seq := 0, taken := false, ready := none, cwlost := false, deficit := 0,
       state := if en then 1 else 0 })) ∧
     (k.devsub = false → Writes .queueDoorbell (put { k with tail := v.toNat % 2 ^ k.log2sz })) ∧
     (k.devsub = true → Stays .queueDoorbell)) ∧
    (let W := Writes .controlRegisterWrite
     let Word (off : Nat) (P : Nat → State → Prop) : Prop := ∀ q, q < 128 → n = 0x1000 + 64 * q + off → P q s
     let Put (q : Nat) (k : Queue) : Prop := W { s with queues := tset q k s.queues }
     let clear (b : Bool) (p : Port) : Port := if b = true ∧ p.iso = true then { p with iso := false, link := false } else p
     (n = 0 →
       let cmd := v.toNat / 2 ^ 59 % 4
       (¬ reach → Stays .controlRegisterWrite) ∧ (reach →
         (cmd = 1 → (m.owner = 0 → Sems .controlRegisterWrite { m with owner := r, remNs := full m.lease }) ∧
           (m.owner ≠ 0 → m.remNs = 0 → Sems .controlRegisterWrite { m with
             owner := r, takes := (m.takes + 1) % 65536, remNs := full m.lease })) ∧
         (cmd ≠ 2 → owns → Sems .controlRegisterWrite { m with lease := lease, remNs := full lease }) ∧
         (cmd = 2 → owns → Sems .controlRegisterWrite { m with owner := 0, lease := lease, remNs := 0 }) ∧
         (¬ owns → cmd ≠ 1 ∨ (m.owner ≠ 0 ∧ m.remNs ≠ 0) → Stays .controlRegisterWrite))) ∧
     (n = 0x10 → W { s with io := { s.io with port0 := clear (v.getLsbD 3) s.io.port0, port1 := clear (v.getLsbD 11) s.io.port1 } }) ∧
     (n = 0x18 → (s.triads = [] ∧ v.toNat % 2 ^ 24 = 0 ∧ v.toNat + 2 ^ 24 ≤ 2 ^ 39 → W { s with io := { s.io with pool := v, poolSet := true } }) ∧
       (s.triads ≠ [] ∨ v.toNat % 2 ^ 24 ≠ 0 ∨ 2 ^ 39 < v.toNat + 2 ^ 24 → Stays .controlRegisterWrite)) ∧
     (n = 0x20 → v.toNat % 8 < 5 → W { s with fab := { s.fab with
       ring := s.fab.ring ++ [⟨v.toNat % 8, v.getLsbD 3, v.toNat / 2 ^ 8 % 128, v.toNat / 2 ^ 16 % 256, none⟩] } }) ∧
     (n = 0x20 → 5 ≤ v.toNat % 8 → owns → Completes .controlRegisterWrite s (fun t =>
       t = { s with fresh := s.fresh + 1, io := { s.io with idcmd := t.io.idcmd, sem := { m with remNs := full m.lease } } })) ∧
     (n = 0x28 →
       let u := { s with io := { s.io with pwrlim := max 1200 (min 2400 (v.toNat % 2 ^ 16)) } }
       (who ≠ 2 ∨ owns → W u) ∧ (who = 2 → s.io.power ≠ 2 → ¬ owns → Completes .controlRegisterWrite s (fun t => t = u))) ∧
     (∀ j, j < 8 → n = 0x40 + 8 * j → s.io.keydata.length = 64 → W { s with io := { s.io with
       keydata := s.io.keydata.take (8 * j) ++ natBytes 8 v.toNat ++ s.io.keydata.drop (8 * j + 8) } }) ∧
     (n = 0x80 → let slot := v.toNat % 128
       (slot = 0 → Stays .controlRegisterWrite) ∧
       (slot ≠ 0 → W { s with keys := if v.getLsbD 7 then tset slot (bytesNat s.io.keydata) s.keys else tdel slot s.keys })) ∧
     (∀ c, c < 112 → n = 0x400 + 8 * c → W { s with cores := tset c { s.core c with trapvec := v &&& 0x81FFFFFFFFFFF800#64 } s.cores }) ∧
     Word 0 (fun q s => Put q { s.queue q with base := v }) ∧
     Word 0x18 (fun q s => ((s.queue q).devsub = false → Put q { s.queue q with tail := v.toNat % 2 ^ (s.queue q).log2sz }) ∧
       ((s.queue q).devsub = true → Stays .controlRegisterWrite)) ∧
     Word 0x20 (fun q s => Put q { s.queue q with
       wdEn := v.getLsbD 63, wdGrace := v.toNat / 2 ^ 32 % 2 ^ 24, wdLimit := v.toNat % 2 ^ 32 }) ∧
     Word 0x10 (fun _ _ => Stays .controlRegisterWrite) ∧
     (∀ off, off < 0x40 → 0x28 ≤ off → Word off (fun _ _ => Stays .controlRegisterWrite)) ∧
     (0x8000 ≤ n → n < 0x10000 → n % 8 = 0 →
       (¬ owns → Stays .controlRegisterWrite) ∧ (owns → Completes .controlRegisterWrite s (fun t =>
         t = { s with io := { s.io with mbox := t.io.mbox, sem := { m with remNs := full m.lease } } } ∧
         ∀ o, t.io.mbox.getD o 0 = if n - 0x8000 ≤ o ∧ o < n - 0x8000 + 8 then (natBytes 8 v.toNat).getD (o - (n - 0x8000)) 0
           else s.io.mbox.getD o 0))) ∧
     (n = 0x08 ∨ n = 0x30 ∨ n = 0x38 ∨ (0x88 ≤ n ∧ n < 0x400) ∨ (0x780 ≤ n ∧ n < 0x1000) ∨ (0x3000 ≤ n ∧ n < 0x8000) ∨ 0x10000 ≤ n ∨
       n % 8 ≠ 0 → Stays .controlRegisterWrite))

/-- Host memory traffic and the ports: a write of a host-mode port stores under key slot 0, to a sealed extent it is discarded and logged;
a read is answered with its bytes and the lines among them that read badly, and a host that says so holds the lines from then on; an
address that no HBM4E serves stops the model; a read timeout isolates an expander's port; a link comes up. Bring-up, power and
temperature: reset leaves every register at its reset value and the ports in the modes of their straps; firmware whose key and signature
hold is measured, reduced service, full-rate training and full service follow one another; the clock steps down, never below 750 MHz; a
thermal trip kills every gang, its invocations end KILLED and the device halts; D3hot keeps everything and D3cold nothing. Where it rests
on the model's own choices they are those of log entries 68, 69, 70, 71, 72. -/
def Obligations.HostPortsBringUpAndPower : Prop :=
  (∀ s : State,
     let a := s.occ.n
     let p := a % 2
     let who := s.occ.who
     let k := s.occ.k
     let reach := s.io.power ≠ 2 ∧ who < 2 ∧ (s.io.port who).expander = false
     (reach → ∀ bs, s.occ.data = some bs → bs ≠ [] →
       (a + bs.length ≤ 2 ^ 39 → inSealed s a bs.length = false → shadowPort s = none →
         Completes .hostCxlMemRequest s (fun t => t = { s with mem := t.mem } ∧ Stores s t a bs 0 ∧
           (s.occ.flag = true → ∀ l ∈ linesOf a bs.length, tfind l t.mem.held = some who))) ∧
       (a + bs.length ≤ 2 ^ 39 → inSealed s a bs.length = true → s.denyLost = 0 → s.deny.length < 4096 →
         Completes .hostCxlMemRequest s (fun t => ∃ e, t = { s with deny := s.deny ++ [e] } ∧ e.toNat / 2 ^ 61 = 2 ∧
           e.toNat % 2 ^ 36 = a / 65536)) ∧
       (2 ^ 39 < a + bs.length → exec .hostCxlMemRequest s = .fault .noMemory)) ∧
     (reach → s.occ.data = none → k ≠ 0 →
       (a + k ≤ 2 ^ 39 → Completes .hostCxlMemRequest s (fun t => ∃ x : HostAnswer,
         t = { s with mem := t.mem, io := { s.io with answers := s.io.answers ++ [x] } } ∧ x.port = who ∧ x.data = physRead s a k 0 ∧
         (∀ l, l ∈ x.poisoned ↔ l ∈ linesOf a k ∧ physQuality s (64 * l) 64 ≠ .clean) ∧ (s.occ.flag = false → t.mem = s.mem) ∧
         (s.occ.flag = true → t.mem = { s.mem with held := t.mem.held } ∧ ∀ l ∈ linesOf a k, tfind l t.mem.held = some who))) ∧
       (2 ^ 39 < a + k → exec .hostCxlMemRequest s = .fault .noMemory)) ∧
     (¬ reach → Completes .hostCxlMemRequest s (fun t => t = s)) ∧
     ((s.io.port p).expander = true → (s.io.port p).iso = false → s.occ.flag = false →
       Completes .expanderReadTimeout s (fun t => t = { s with io := s.io.setPort p { s.io.port p with iso := true } })) ∧
     (s.io.power ≠ 2 → Completes .cxlLinkUp s (fun t => t = { s with io := s.io.setPort p { s.io.port p with link := true } }))) ∧
  (∀ s : State,
     let d := s.io
     let resident := s.gangs ≠ []
     let Sets (i : Instr) (x : IoDie) : Prop := Completes i s (fun t => t = { s with io := x })
     Completes .deviceReset s (fun t =>
       t = { State.reset with mem := { s.mem with held := [], recalls := [] }, io := t.io, agenda := s.agenda, fresh := s.fresh, serial := s.serial } ∧
       t.io = { State.reset.io with port0 := ⟨s.occ.flag, false, false⟩, port1 := ⟨s.occ.flag2, false, false⟩, code := t.io.code } ∧
       (t.io.code = 3 ↔ s.occ.flag = true ∧ s.occ.flag2 = true) ∧ (t.io.code = 3 ∨ t.io.code = 0)) ∧
     (d.stage = 0 → d.code = 0 → d.power = 0 →
       let package := s.occ.data.getD []
       let holds := 29856 ≤ package.length ∧ bytesNat (shake256 32 (package.take 64)) = Config.keyDigest ∧
         Config.slhVerify (package.take 64) ((package.drop 64).take 29792) (package.drop 29856) = true
       let verified (t : State) (mrs : List (List Byte)) : Prop :=
         t = { s with io := { d with stage := 1, attest := t.io.attest, mrs := mrs }, fresh := s.fresh + 1 }
       Completes .firmwareVerify s (fun t => (¬ holds → t = { s with io := { d with code := 1 } }) ∧
         (holds → s.occ.env.parts = [] → verified t d.mrs) ∧ (∀ p, holds → s.occ.env.parts = [p] → verified t (lset (p % 8)
           (shake256 64 (d.mrs.getD (p % 8) [] ++ shake256 64 (s.occ.env.data.take (p / 8)))) d.mrs)))) ∧
     (d.stage = 1 → d.code = 0 → Sets .reducedServiceStart { d with stage := 2, clock := 8, hbmFull := false }) ∧
     (d.stage = 1 ∨ d.stage = 2 → Sets .hbmTrainingFailed { d with code := 2 }) ∧
     (d.stage = 2 → d.code = 0 → (s.occ.flag = true → Sets .fullRateTrainingComplete { d with trained := d.trained ||| (s.occ.n % 256) }) ∧
       (s.occ.flag = false → Sets .fullRateTrainingComplete { d with trained := 255, admitPaused := true })) ∧
     (d.stage = 2 → d.code = 0 → d.trained = 255 → d.admitPaused = true → ¬ resident →
       Sets .fullServiceStart { d with stage := 3, clock := 16, hbmFull := true, admitPaused := false }) ∧
     (resident → Sets .fullServiceStart d) ∧
     (Sets .powerLimitThrottle { d with clock := max 8 (d.clock - 1) } ∧ Sets .thermalThrottle { d with clock := max 8 (d.clock - 1) }) ∧
     (d.power ≠ 2 → d.stage ≠ 4 → Completes .thermalTrip s (fun t =>
       t.io = { d with stage := 4, code := 4, fatal := true } ∧ (∀ g, tfind g t.gangs = none) ∧ (∀ e, tfind e s.entries = none → tfind e t.entries = none) ∧
       ∀ key e, tfind key s.entries = some e → (∀ p ∈ s.entries, p.1 ≠ key → p.2.rcd.cw = 0) → (s.gangs.map (·.1)).Nodup →
         e.placed = e.retired + e.killedGangs + s.gangs.countP (fun g => g.2.entry == key) → s.Unwritten key →
         (∀ p ∈ s.topos, p.2.queue = [] ∧ p.2.running = []) → s.TakesWord e.rcd → Settled s 0 →
         tfind key t.entries = none ∧ WordReads s t e.rcd (e.retired % 2 ^ 32 * 2 ^ 8 + 8))) ∧
     (d.power = 0 → ¬ resident → Sets .d3hotEntry { d with power := 1 }) ∧ (resident → Sets .d3hotEntry d) ∧
     (d.power = 1 → Sets .d3hotExit { d with power := 0 }) ∧
     Completes .powerRemoval s (fun t =>
       t = { State.reset with mem := t.mem, io := { State.reset.io with power := 2 }, agenda := s.agenda, fresh := s.fresh, serial := s.serial } ∧
       ∀ a, memByte t.mem.cells a = if 2 ^ 42 ≤ a ∧ a < 3 * 2 ^ 42 then memByte s.mem.cells a else 0) ∧
     (d.stage ≠ 0 → d.power ≠ 2 → (s.occ.who = 2 ∨ (s.occ.who < 2 ∧ (d.port s.occ.who).expander = false)) →
       let nonce := natBytes 32 s.occ.nonce.toNat
       Sets .attestationQuote { d with
         mbox := nonce ++ natBytes 49856 (Config.sign d.attest (nonce ++ d.mrs.flatten ++
         natBytes 8 (d.trained * 2 ^ 16 + d.code * 2 ^ 8 + d.stage) ++ natBytes 1 s.fab.idtab.port)) ++
         Config.attestCert d.attest ++ Config.identityCert }))

/-- Decoding and encoding agree: every instruction with legal fields has a word for each value of E, and that word decodes to it; and a
word that decodes to an instruction is the word of that instruction. -/
def Obligations.DecodingInvertsEncoding : Prop :=
  (∀ (e : Bool) (i : Instr), wellFormed i = true → ∃ w, encode e i = some w ∧ decode w = .ok i ∧ wordE w = e) ∧
  ∀ (w : Word) (i : Instr), decode w = .ok i → wellFormed i = true ∧ encode (wordE w) i = some w

/-- The words that the spec writes out for its examples decode to the instructions that it writes beside them. -/
def Obligations.SpecWordsDecode : Prop :=
  let Is (w : Word) (i : Instr) : Prop := decode w = .ok i
  (Is 0x1A04000000004007 (.ldw ⟨2, 0, 8, 0, 7⟩) ∧ Is 0x0C02080000002803 (.addi ⟨1, 1, 5, 0, 3⟩) ∧
    Is 0x1882100000180000 (.st ⟨1, 2, 0, 0, 0, 0, 0, 0, 0, 24, 0⟩) ∧ Is 0xA280000000000000 (.exit ⟨0, 0, 0, 0, 0⟩)) ∧
  (Is 0x28861000000F0000 (.vcfg ⟨3, 2, 0, 0, 0, 15, 0⟩) ∧ Is 0x23062A0000000020 (.vfetch ⟨3, 5, 2, 32⟩) ∧
    Is 0x23904A0000000010 (.vpbr ⟨8, 9, 2, 16⟩) ∧ Is 0xA400000000000000 (.vjoin ⟨0, 0, 0, 0, 0⟩)) ∧
  (Is 0x110820A000790000 (.fadd ⟨4, 4, 5, 0, 7, 9, 0⟩) ∧ Is 0xA20200FFFFFFFFF0 (.loop ⟨1, 0, 0, 0xFFFFFFFFF0⟩) ∧
    Is 0x158C200000790002 (.fcvt ⟨6, 4, 0, 0, 7, 9, 2⟩) ∧ Is 0x1B0028000000400F (.mtsr ⟨0, 5, 8, 0, 15⟩)) ∧
  (Is 0x2804080000090000 (.setvl ⟨2, 1, 0, 0, 0, 9, 0⟩) ∧ Is 0x2B144120101C0009 (.vdiv ⟨10, 8, 9, 0, 2, 0, 7, 0, 0, 0, 9⟩) ∧
    Is 0x48164000013C000F (.vcvt ⟨11, 8, 0, 0, 0, 9, 7, 0, 0, 0, 15⟩) ∧ Is 0x4D204062001C0009 (.vtopk ⟨16, 8, 3, 4, 0, 0, 7, 0, 0, 0, 9⟩)) ∧
  (Is 0x5410100600130000 (.vld ⟨8, 2, 0, 3, 0, 0, 0, 0, 0, 19, 0⟩) ∧ Is 0x549C180000000050 (.vst ⟨14, 3, 0, 0, 0, 0, 0, 0, 0, 0, 80⟩) ∧
    Is 0x5510106000140000 (.vlds ⟨8, 2, 3, 0, 0, 0, 0, 0, 0, 20, 0⟩) ∧ Is 0x701818A000000001 (.vnbr ⟨12, 3, 5, 0, 0, 0, 0, 0, 0, 0, 1⟩)) ∧
  (Is 0x6206000000000001 (.mtalloc ⟨3, 0, 0, 0, 0, 1⟩) ∧ Is 0x60020C0008A00009 (.oxadd ⟨0, 8, 12, 0, 0, 2, 10, 0, 0, 0, 9⟩) ∧
    Is 0x680A10600100000A (.cstream ⟨5, 2, 3, 0, 1, 10⟩) ∧ Is 0x6C0A100184000045 (.bkopRowred ⟨5, 2, 0, 3, 4, 0x45⟩)) ∧
  (Is 0xF40A000500000000 (.fence ⟨5, 0, 0, 5, 0⟩) ∧ Is 0x7480001900000000 (.sbar ⟨0, 0, 3, 1, 0⟩) ∧
    Is 0x770A201800000000 (.binit ⟨5, 4, 3, 0, 0⟩) ∧ Is 0x760E401800000001 (.bsync ⟨7, 8, 3, 0, 1⟩)) ∧
  (Is 0x7A0A1000001F0000 (.xprobe ⟨5, 2, 0, 0, 1, 15, 0⟩) ∧ Is 0x7A801880003F0000 (.xinv ⟨0, 3, 4, 0, 3, 15, 0⟩) ∧
    Is 0x6D8A100000000000 (.madapt ⟨5, 2, 0, 0, 0, 0⟩) ∧ Is 0x720A100009000000 (.tsubmit ⟨5, 2, 0, 0, 9, 0⟩)) ∧
  (Is 0x778A106000070000 (.ramo ⟨5, 2, 3, 0, 0, 7, 0⟩) ∧ Is 0x780C106000000002 (.fstat ⟨6, 2, 3, 0, 0, 2⟩) ∧
    Is 0x798A100000000003 (.swapidAssume ⟨5, 2, 0, 0, 0, 3⟩) ∧ Is 0xFC00003800000000 (.trap ⟨0, 0, 7, 0, 0⟩) ∧
    Is 0xFC80000000000000 (.tret ⟨0, 0, 0, 0, 0⟩) ∧ Is 0x7D0A100000000000 (.vsave ⟨5, 2, 0, 0, 0, 0⟩))

/-- A step runs the decoded instruction: a thread whose turn it is, with no trap due and no stall, whose block holds a word at its pc that
decodes, takes the step that exec gives the instruction; a word that does not decode traps ILLOP, and outside a block it enters its block.
The turn comes from the agenda, or from the round when nothing stands before it. What is on the agenda happens first: an event takes the
step that exec gives its row with what the agenda says of it, and a tick lets its nanoseconds pass; the shadow sweep sends its next line.
A device that is not in service does nothing by itself but let time pass. Where it rests on the model's own choices they are those of log
entries 1, 3, 4, 71, 79. -/
def Obligations.StepRunsTheDecodedInstruction : Prop :=
  (∀ (s u : State) (i : Instr),
     (∃ t rest, s.agenda = .run t :: rest ∧ u = { s with agenda := rest, cur := t }) ∨
       (s.agenda = [] ∧ serving s = true ∧ (let s := { s with slip := none }
         ∃ k t, s.turn ≤ k ∧ (round s)[k]? = some (.run t) ∧
         (∀ j p, s.turn ≤ j → j < k → (round s)[j]? = some p → ready s p = false) ∧ ready s (.run t) = true ∧
         u = { s with turn := k + 1, cur := t } ∧ vectorReady u t = false)) →
     u.Started → trapDue u = false → u.tr.live u.cur.role = true → u.th.stall = none →
     (∀ w, u.th.word = some w → decode w = .ok i → step s = exec i u) ∧
     (∀ w r, u.th.word = some w → decode w = .error r → step s = .next u.trapIllop) ∧
     (u.th.word = none → step s = exec .blockEntry u)) ∧
  (∀ s : State,
     (∀ i o rest, s.agenda = .event i o :: rest → step s = exec i { s with agenda := rest, occ := o }) ∧
     (∀ n rest, s.agenda = .tick n :: rest → ∃ t, step s = .next t ∧ t.time = s.time + n ∧ t.agenda = rest ∧ t.mem = s.mem ∧
       t.triads = s.triads) ∧
     (∀ n p rest, s.agenda = .sweep :: rest → s.fab.sweep = some n → n < 2 ^ 33 → shadowPort s = some p → ∃ t, step s = .next t ∧
       t.agenda = rest ∧ t.mem = s.mem ∧ t.triads = s.triads ∧ t.fab.sweep = some (n + 1) ∧ ∃ r : Replay, t.fab.replay = s.fab.replay ++ [r] ∧
       r.lcn = 128 ∧ r.owner = none ∧ r.txn.kind = 8 ∧ r.txn.dport = p ∧ r.txn.addr = 64 * n ∧ r.txn.key = lineSlot s n ∧
       r.txn.data = physRead s (64 * n) 64 (lineSlot s n) ∧ (r.txn.pmask = [] ↔ physQuality s (64 * n) 64 = .clean)) ∧
     (s.agenda = [] → s.io.power = 2 → step s = .next s) ∧
     (s.agenda = [] → serving s = false → s.io.power = 0 → s.io.stage ≠ 4 →
       ∃ t, step s = .next t ∧ s.time < t.time ∧ t.agenda = [] ∧ t.mem = s.mem ∧ t.triads = s.triads))

/-- Every step keeps the canonical form of memory: addresses strictly rising, no entry equal to what an unlisted address reads as. -/
def Obligations.EveryStepKeepsMemoryCanonical : Prop :=
  ∀ s t : State, s.mem.wf = true → step s = .next t → t.mem.wf = true

/-- The device right after reset has the canonical memory with nothing listed, and the reset values of the spec: SERVICE_LEVEL 0, PWRLIM
2400, LEASE 100, SY_IDTAB 0, no identity entry live, every queue disabled with QUANT 0x1000, LOG2SZ 12, its watchdog enabled with a grace
of 1000 and a limit of 100000 microseconds, no key loaded, no trap vector enabled, every quad in binding mode 0 and the clock at 1.5 GHz.
Where it rests on the model's own choices they are those of log entries 5, 6, 7. -/
def Obligations.ResetGivesTheSpecsValues : Prop :=
  let s := State.reset
  s.mem.wf = true ∧ s.mem = Mem.none ∧ s.triads = [] ∧ s.gangs = [] ∧ s.entries = [] ∧ s.deny = [] ∧ s.time = 0 ∧
  s.io.stage = 0 ∧ s.io.code = 0 ∧ s.io.trained = 0 ∧ s.io.pwrlim = 2400 ∧ s.io.sem = ⟨0, 0, 100, 0⟩ ∧ s.io.clock = 16 ∧
  s.fab.idtab.word = 0 ∧ (∀ l, (s.ident l).state = 0) ∧ (∀ c, (s.core c).trapvec = 0 ∧ s.mode c = 0) ∧
  (∀ k, k ≠ 0 → slotEmpty s k = true) ∧
  ∀ q, (s.queue q).en = false ∧ (s.queue q).state = 0 ∧ (s.queue q).quant = 0x1000 ∧ (s.queue q).log2sz = 12 ∧
    (s.queue q).wdog = 0x800003E8000186A0#64
end

