-- ==== Sys2Proof/Laws/Tables.lean ====
section
/-! SUPPORT. Sparse tables and number sets: a read after a write. -/

namespace Sys2Proof.Machine

@[simp] theorem tfind_tset_same {α : Type} (k : Nat) (v : α) (t : Tbl α) : tfind k (tset k v t) = some v := by
  induction t with
  | nil => simp [tset, tfind]
  | cons p t ih => obtain ⟨j, w⟩ := p; simp only [tset]; split <;> [skip; split] <;> simp_all [tfind]

@[simp] theorem tfind_tset_ne {α : Type} {j k : Nat} (h : j ≠ k) (v : α) (t : Tbl α) : tfind j (tset k v t) = tfind j t := by
  induction t with
  | nil => simp [tset, tfind, Ne.symm h]
  | cons p t ih => obtain ⟨i, w⟩ := p; simp only [tset]; split <;> [skip; split] <;> simp_all [tfind, Ne.symm h]

theorem tfind_tset {α : Type} (j k : Nat) (v : α) (t : Tbl α) : tfind j (tset k v t) = if j = k then some v else tfind j t := by
  split <;> simp_all

@[simp] theorem tget_tset_same {α : Type} (d : α) (k : Nat) (v : α) (t : Tbl α) : tget d k (tset k v t) = v := by simp [tget]

@[simp] theorem tget_tset_ne {α : Type} (d : α) {j k : Nat} (h : j ≠ k) (v : α) (t : Tbl α) :
    tget d j (tset k v t) = tget d j t := by simp [tget, h]

theorem tget_tset {α : Type} (d : α) (j k : Nat) (v : α) (t : Tbl α) : tget d j (tset k v t) = if j = k then v else tget d j t := by
  split <;> simp_all

@[simp] theorem tget_nil {α : Type} (d : α) (k : Nat) : tget d k [] = d := rfl

@[simp] theorem tfind_tdel_same {α : Type} (k : Nat) (t : Tbl α) : tfind k (tdel k t) = none := by
  induction t with
  | nil => rfl
  | cons p t ih => obtain ⟨j, w⟩ := p; simp only [tdel]; split <;> simp_all [tfind]

@[simp] theorem tfind_tdel_ne {α : Type} {j k : Nat} (h : j ≠ k) (t : Tbl α) : tfind j (tdel k t) = tfind j t := by
  induction t with
  | nil => rfl
  | cons p t ih => obtain ⟨i, w⟩ := p; simp only [tdel]; split <;> simp_all [tfind, Ne.symm h]

@[simp] theorem mem_nrange {a n k : Nat} : k ∈ nrange a n ↔ a ≤ k ∧ k < a + n := by
  simp only [nrange, List.mem_map, List.mem_range]
  exact ⟨fun ⟨x, hx, e⟩ => by omega, fun h => ⟨k - a, by omega⟩⟩

@[simp] theorem length_nrange (a n : Nat) : (nrange a n).length = n := by simp [nrange]

@[simp] theorem length_natBytes (n v : Nat) : (natBytes n v).length = n := by
  induction n generalizing v with
  | zero => rfl
  | succ n ih => simp [natBytes, ih]

theorem bytesNat_natBytes (n v : Nat) : bytesNat (natBytes n v) = v % 256 ^ n := by
  induction n generalizing v with
  | zero => simp [natBytes, bytesNat, Nat.mod_one]
  | succ n ih =>
    have h : (BitVec.ofNat 8 v).toNat = v % 256 := BitVec.toNat_ofNat v 8
    rw [natBytes, bytesNat, ih, h, Nat.pow_succ', Nat.mod_mul]

theorem mem_sadd {k j : Nat} {s : NatSet} : j ∈ sadd k s ↔ j = k ∨ j ∈ s := by
  induction s with
  | nil => simp [sadd]
  | cons a t ih => simp only [sadd]; grind

theorem mem_sdel {k j : Nat} {s : NatSet} : j ∈ sdel k s ↔ j ≠ k ∧ j ∈ s := by
  induction s with
  | nil => simp [sdel]
  | cons a t ih => simp only [sdel]; grind

theorem smem_sadd (k j : Nat) (s : NatSet) : smem j (sadd k s) = (decide (j = k) || smem j s) := by
  simp [smem, mem_sadd, List.contains_eq_mem, Bool.decide_or]

theorem smem_sdel (k j : Nat) (s : NatSet) : smem j (sdel k s) = (decide (j ≠ k) && smem j s) := by
  simp [smem, mem_sdel, List.contains_eq_mem, Bool.decide_and]

theorem mem_saddAll {j : Nat} {ks : List Nat} {s : NatSet} : j ∈ saddAll ks s ↔ j ∈ ks ∨ j ∈ s := by
  induction ks generalizing s with
  | nil => simp [saddAll]
  | cons a t ih =>
    have : saddAll (a :: t) s = saddAll t (sadd a s) := rfl
    rw [this, ih, mem_sadd]; simp; tauto

theorem mem_sdelAll {j : Nat} {ks : List Nat} {s : NatSet} : j ∈ sdelAll ks s ↔ j ∉ ks ∧ j ∈ s := by
  induction ks generalizing s with
  | nil => simp [sdelAll]
  | cons a t ih =>
    have : sdelAll (a :: t) s = sdelAll t (sdel a s) := rfl
    rw [this, ih, mem_sdel]; simp; tauto

end Sys2Proof.Machine
end

