-- ==== Sys2Proof/Laws/Mem.lean ====
section
/-! SUPPORT. Memory: a read after a write, and that every operation on memory keeps its canonical form. -/

namespace Sys2Proof.Machine

/-! Reads. -/

theorem tfind_append {α : Type} (k : Nat) (a b : Tbl α) : tfind k (a ++ b) = (tfind k a).or (tfind k b) := by
  induction a with
  | nil => simp [tfind]
  | cons p t ih => obtain ⟨j, v⟩ := p; simp only [List.cons_append, tfind]; split <;> simp [ih]

theorem tfind_filter {α : Type} (k : Nat) (p : Nat → Bool) (t : Tbl α) :
    tfind k (t.filter fun x => p x.1) = if p k then tfind k t else none := by
  induction t with
  | nil => simp [tfind]
  | cons x t ih => obtain ⟨j, v⟩ := x; simp only [List.filter_cons, tfind]; grind [tfind]

theorem tfind_cellsOf (x a : Nat) (bs : List Byte) :
    (tfind x (cellsOf a bs)).getD 0 = if a ≤ x then (bs[x - a]?).getD 0 else 0 := by
  induction bs generalizing a with
  | nil => simp [cellsOf, tfind]
  | cons b t ih =>
    simp only [cellsOf]
    have step : (if a + 1 ≤ x then (t[x - (a + 1)]?).getD 0 else 0) = if a = x then 0 else if a ≤ x then ((b :: t)[x - a]?).getD 0 else 0 := by
      by_cases h1 : a + 1 ≤ x
      · have e : x - a = (x - (a + 1)) + 1 := by omega
        simp [h1, e, show a ≠ x by omega, show a ≤ x by omega]
      · by_cases h2 : a = x
        · simp [h2]
        · simp [h1, h2, show ¬ a ≤ x by omega]
    split
    · next hb => rw [ih, step]; by_cases h : a = x <;> simp_all
    · simp only [tfind]; split
      · next h => simp [h]
      · next h => rw [ih, step]; simp [h]

theorem length_cellsOf_lt (a : Nat) (bs : List Byte) : ∀ p ∈ cellsOf a bs, a ≤ p.1 ∧ p.1 < a + bs.length := by
  induction bs generalizing a with
  | nil => simp [cellsOf]
  | cons b t ih =>
    intro p hp
    have rest : p ∈ cellsOf (a + 1) t → a ≤ p.1 ∧ p.1 < a + (t.length + 1) := fun h => by have := ih (a + 1) p h; omega
    simp only [cellsOf] at hp
    split at hp
    · exact rest hp
    · rcases List.mem_cons.mp hp with e | h
      · subst e; exact ⟨Nat.le_refl _, by simp⟩
      · exact rest h

theorem tfind_eq_none {α : Type} {k : Nat} {t : Tbl α} (h : ∀ p ∈ t, p.1 ≠ k) : tfind k t = none := by
  induction t with
  | nil => rfl
  | cons x t ih => obtain ⟨j, v⟩ := x; simp_all [tfind]

/-- A byte after a write of bytes from an address. -/
theorem memByte_memWrite (m : List Host.Cell) (a : Nat) (bs : List Byte) (x : Nat) :
    memByte (memWrite m a bs) x = if a ≤ x ∧ x < a + bs.length then (bs[x - a]?).getD 0 else memByte m x := by
  have f1 := tfind_filter x (fun p => decide (p < a)) m
  have f2 := tfind_filter x (fun p => decide (a + bs.length ≤ p)) m
  unfold memByte memWrite tget
  rw [tfind_append, tfind_append, f1, f2]
  by_cases h : a ≤ x ∧ x < a + bs.length
  · have := tfind_cellsOf x a bs
    have e1 : ¬ x < a := by omega
    have e2 : ¬ a + bs.length ≤ x := by omega
    simp only [h.1, if_true] at this
    simpa [h, e1, e2] using this
  · have e : tfind x (cellsOf a bs) = none := tfind_eq_none fun p hp e => by have := length_cellsOf_lt a bs p hp; omega
    rcases Nat.lt_or_ge x a with h1 | h1
    · have e2 : ¬ a + bs.length ≤ x := by omega
      simp [h, h1, e, e2]
    · have e2 : a + bs.length ≤ x := by omega
      simp [show ¬ x < a by omega, e, e2, show ¬ (a ≤ x ∧ x < a + bs.length) from h]

/-! The canonical form. -/

theorem cellsWf_mono {lo hi : Nat} (h : hi ≤ lo) {m : List Host.Cell} (w : cellsWf lo m = true) : cellsWf hi m = true := by
  cases m with
  | nil => rfl
  | cons p t => obtain ⟨a, b⟩ := p; simp only [cellsWf, Bool.and_eq_true, decide_eq_true_eq] at *; exact ⟨⟨by omega, w.1.2⟩, w.2⟩

theorem cellsWf_filter (p : Nat → Bool) {lo : Nat} {m : List Host.Cell} (w : cellsWf lo m = true) :
    cellsWf lo (m.filter fun x => p x.1) = true := by
  induction m generalizing lo with
  | nil => rfl
  | cons q t ih =>
    obtain ⟨a, b⟩ := q
    simp only [cellsWf, Bool.and_eq_true, decide_eq_true_eq] at w
    simp only [List.filter_cons]
    split
    · simp only [cellsWf, Bool.and_eq_true, decide_eq_true_eq]; exact ⟨w.1, ih w.2⟩
    · exact cellsWf_mono (by omega) (ih w.2)

theorem cellsWf_filter_ge {lo k : Nat} {m : List Host.Cell} (w : cellsWf lo m = true) :
    cellsWf k (m.filter fun x => k ≤ x.1) = true := by
  induction m generalizing lo with
  | nil => rfl
  | cons q t ih =>
    obtain ⟨a, b⟩ := q
    simp only [cellsWf, Bool.and_eq_true, decide_eq_true_eq] at w
    simp only [List.filter_cons]
    split
    · next h =>
      simp only [cellsWf, Bool.and_eq_true, decide_eq_true_eq] at *
      exact ⟨⟨h, w.1.2⟩, cellsWf_filter (fun x => decide (k ≤ x)) w.2⟩
    · exact ih w.2

theorem cellsWf_append {lo k : Nat} {a b : List Host.Cell} (ha : cellsWf lo a = true) (hb : cellsWf k b = true)
    (hl : ∀ p ∈ a, p.1 < k) (h : lo ≤ k) : cellsWf lo (a ++ b) = true := by
  induction a generalizing lo with
  | nil => exact cellsWf_mono h hb
  | cons q t ih =>
    obtain ⟨x, y⟩ := q
    simp only [List.cons_append, cellsWf, Bool.and_eq_true, decide_eq_true_eq] at *
    have hx := hl (x, y) (by simp)
    exact ⟨ha.1, ih ha.2 (fun p hp => hl p (by simp [hp])) hx⟩

theorem cellsWf_cellsOf (a : Nat) (bs : List Byte) : cellsWf a (cellsOf a bs) = true := by
  induction bs generalizing a with
  | nil => rfl
  | cons b t ih =>
    simp only [cellsOf]; split
    · exact cellsWf_mono (by omega) (ih (a + 1))
    · next h => simpa [cellsWf, ih] using h

/-- Writing bytes keeps the canonical form. -/
theorem cellsWf_memWrite {m : List Host.Cell} (w : cellsWf 0 m = true) (a : Nat) (bs : List Byte) : cellsWf 0 (memWrite m a bs) = true := by
  unfold memWrite
  rw [List.append_assoc]
  refine cellsWf_append (k := a) (cellsWf_filter (fun x => decide (x < a)) w) ?_ ?_ (Nat.zero_le _)
  · exact cellsWf_append (cellsWf_cellsOf a bs) (cellsWf_filter_ge w) (fun p hp => (length_cellsOf_lt a bs p hp).2) (by omega)
  · intro p hp; simpa using (List.mem_filter.mp hp).2

theorem Mem.wf_rekey {m : Mem} (w : m.wf = true) (l k : Nat) : (rekey m l k).wf = true := by
  unfold rekey; split
  · exact w
  · exact cellsWf_memWrite w _ _

theorem Mem.wf_store {m : Mem} (w : m.wf = true) (pa : Nat) (bs : List Byte) (key : Nat) : (m.store pa bs key).wf = true := by
  have h : ∀ (ls : List Nat) (m : Mem), m.wf = true → (ls.foldl (fun m l => rekey m l key) m).wf = true := by
    intro ls
    induction ls with
    | nil => exact fun m w => w
    | cons l t ih => exact fun m w => ih _ (Mem.wf_rekey w l key)
  exact cellsWf_memWrite (m := (List.foldl _ m _).cells) (h _ m w) _ _

/-- What goes to the replica changes nothing of the device but its fabric. -/
theorem sendHeld_device (s : State) (r : Replay) : sendHeld s r = { s with fab := (sendHeld s r).fab } := by
  unfold sendHeld; split <;> rfl

theorem shadowSend_device (s : State) (port : Nat) (t : Txn) : shadowSend s port t = { s with fab := (shadowSend s port t).fab } :=
  sendHeld_device s _

theorem shadowLines_device (port slot : Nat) (p : Bool) :
    ∀ (fuel : Nat) (s : State) (pa : Nat) (bs : List Byte),
      shadowLines s port slot p fuel pa bs = { s with fab := (shadowLines s port slot p fuel pa bs).fab }
  | 0, _, _, _ => rfl
  | fuel + 1, s, pa, bs => by
    unfold shadowLines
    split
    · rfl
    · simp only []
      rw [shadowLines_device port slot p fuel]
      rw [shadowSend_device]

theorem shadowWrite_device (s : State) (pa slot : Nat) (bs : List Byte) (p : Bool) :
    shadowWrite s pa slot bs p = { s with fab := (shadowWrite s pa slot bs p).fab } := by
  unfold shadowWrite; split
  · rfl
  · split
    · exact shadowLines_device _ _ _ _ _ _ _
    · rfl

@[simp] theorem shadowWrite_mem (s : State) (pa slot : Nat) (bs : List Byte) (p : Bool) : (shadowWrite s pa slot bs p).mem = s.mem := by
  rw [shadowWrite_device]
@[simp] theorem shadowWrite_keys (s : State) (pa slot : Nat) (bs : List Byte) (p : Bool) : (shadowWrite s pa slot bs p).keys = s.keys := by
  rw [shadowWrite_device]
@[simp] theorem shadowWrite_io (s : State) (pa slot : Nat) (bs : List Byte) (p : Bool) : (shadowWrite s pa slot bs p).io = s.io := by
  rw [shadowWrite_device]

/-- Storing at a physical address keeps the canonical form. -/
theorem wf_physWrite {s : State} (w : s.mem.wf = true) (pa : Nat) (bs : List Byte) (slot : Nat) : (physWrite s pa bs slot).mem.wf = true := by
  simp only [physWrite]
  generalize (_ || bs.isEmpty) = c
  cases c
  · simpa using Mem.wf_store w _ _ _
  · exact w

/-- Poisoning lines keeps the canonical form. -/
theorem wf_physPoison {s : State} (w : s.mem.wf = true) (pa n slot : Nat) : (physPoison s pa n slot).mem.wf = true := by
  have h : ∀ (ls : List Nat) (s : State), s.mem.wf = true →
      (ls.foldl (fun s l => shadowWrite s (64 * l) slot (physRead s (64 * l) 64 slot) true) s).mem.wf = true := by
    intro ls
    induction ls with
    | nil => exact fun _ w => w
    | cons l t ih => exact fun s w => ih _ (by simpa using w)
  unfold physPoison
  split
  · exact w
  · simp only []; split
    · exact w
    · exact h _ _ w

end Sys2Proof.Machine
end

