-- ==== Sys2Proof/Laws/State.lean ====
section
/-! SUPPORT. What each small update of the state leaves alone, field by field, and what reading gives after writing. -/

namespace Sys2Proof.Machine

/-! Triads, roles and registers. -/

@[simp] theorem State.modTriad_mem (s : State) (c : Nat) (g : Triad → Triad) : (s.modTriad c g).mem = s.mem := by
  unfold State.modTriad; split <;> rfl
@[simp] theorem State.modTriad_time (s : State) (c : Nat) (g : Triad → Triad) : (s.modTriad c g).time = s.time := by
  unfold State.modTriad; split <;> rfl
@[simp] theorem State.modTriad_slots (s : State) (c : Nat) (g : Triad → Triad) : (s.modTriad c g).slots = s.slots := by
  unfold State.modTriad; split <;> rfl
@[simp] theorem State.modTriad_cores (s : State) (c : Nat) (g : Triad → Triad) : (s.modTriad c g).cores = s.cores := by
  unfold State.modTriad; split <;> rfl
@[simp] theorem State.modTriad_modes (s : State) (c : Nat) (g : Triad → Triad) : (s.modTriad c g).modes = s.modes := by
  unfold State.modTriad; split <;> rfl
@[simp] theorem State.modTriad_units (s : State) (c : Nat) (g : Triad → Triad) : (s.modTriad c g).units = s.units := by
  unfold State.modTriad; split <;> rfl
@[simp] theorem State.modTriad_zeroed (s : State) (c : Nat) (g : Triad → Triad) : (s.modTriad c g).zeroed = s.zeroed := by
  unfold State.modTriad; split <;> rfl
@[simp] theorem State.modTriad_tiles (s : State) (c : Nat) (g : Triad → Triad) : (s.modTriad c g).tiles = s.tiles := by
  unfold State.modTriad; split <;> rfl
@[simp] theorem State.modTriad_wbufs (s : State) (c : Nat) (g : Triad → Triad) : (s.modTriad c g).wbufs = s.wbufs := by
  unfold State.modTriad; split <;> rfl
@[simp] theorem State.modTriad_bank (s : State) (c : Nat) (g : Triad → Triad) : (s.modTriad c g).bank = s.bank := by
  unfold State.modTriad; split <;> rfl
@[simp] theorem State.modTriad_topos (s : State) (c : Nat) (g : Triad → Triad) : (s.modTriad c g).topos = s.topos := by
  unfold State.modTriad; split <;> rfl
@[simp] theorem State.modTriad_meshes (s : State) (c : Nat) (g : Triad → Triad) : (s.modTriad c g).meshes = s.meshes := by
  unfold State.modTriad; split <;> rfl
@[simp] theorem State.modTriad_queues (s : State) (c : Nat) (g : Triad → Triad) : (s.modTriad c g).queues = s.queues := by
  unfold State.modTriad; split <;> rfl
@[simp] theorem State.modTriad_entries (s : State) (c : Nat) (g : Triad → Triad) : (s.modTriad c g).entries = s.entries := by
  unfold State.modTriad; split <;> rfl
@[simp] theorem State.modTriad_gangs (s : State) (c : Nat) (g : Triad → Triad) : (s.modTriad c g).gangs = s.gangs := by
  unfold State.modTriad; split <;> rfl
@[simp] theorem State.modTriad_lastQueue (s : State) (c : Nat) (g : Triad → Triad) : (s.modTriad c g).lastQueue = s.lastQueue := by
  unfold State.modTriad; split <;> rfl
@[simp] theorem State.modTriad_deny (s : State) (c : Nat) (g : Triad → Triad) : (s.modTriad c g).deny = s.deny := by
  unfold State.modTriad; split <;> rfl
@[simp] theorem State.modTriad_denyLost (s : State) (c : Nat) (g : Triad → Triad) : (s.modTriad c g).denyLost = s.denyLost := by
  unfold State.modTriad; split <;> rfl
@[simp] theorem State.modTriad_keys (s : State) (c : Nat) (g : Triad → Triad) : (s.modTriad c g).keys = s.keys := by
  unfold State.modTriad; split <;> rfl
@[simp] theorem State.modTriad_fab (s : State) (c : Nat) (g : Triad → Triad) : (s.modTriad c g).fab = s.fab := by
  unfold State.modTriad; split <;> rfl
@[simp] theorem State.modTriad_io (s : State) (c : Nat) (g : Triad → Triad) : (s.modTriad c g).io = s.io := by
  unfold State.modTriad; split <;> rfl
@[simp] theorem State.modTriad_cur (s : State) (c : Nat) (g : Triad → Triad) : (s.modTriad c g).cur = s.cur := by
  unfold State.modTriad; split <;> rfl
@[simp] theorem State.modTriad_occ (s : State) (c : Nat) (g : Triad → Triad) : (s.modTriad c g).occ = s.occ := by
  unfold State.modTriad; split <;> rfl
@[simp] theorem State.modTriad_agenda (s : State) (c : Nat) (g : Triad → Triad) : (s.modTriad c g).agenda = s.agenda := by
  unfold State.modTriad; split <;> rfl
@[simp] theorem State.modTriad_turn (s : State) (c : Nat) (g : Triad → Triad) : (s.modTriad c g).turn = s.turn := by
  unfold State.modTriad; split <;> rfl
@[simp] theorem State.modTriad_fresh (s : State) (c : Nat) (g : Triad → Triad) : (s.modTriad c g).fresh = s.fresh := by
  unfold State.modTriad; split <;> rfl
@[simp] theorem State.modTriad_serial (s : State) (c : Nat) (g : Triad → Triad) : (s.modTriad c g).serial = s.serial := by
  unfold State.modTriad; split <;> rfl

@[simp] theorem State.modRole_mem (s : State) (u : Tid) (g : RoleState → RoleState) : (s.modRole u g).mem = s.mem := by
  simp [State.modRole]
@[simp] theorem State.modRole_time (s : State) (u : Tid) (g : RoleState → RoleState) : (s.modRole u g).time = s.time := by
  simp [State.modRole]
@[simp] theorem State.modRole_slots (s : State) (u : Tid) (g : RoleState → RoleState) : (s.modRole u g).slots = s.slots := by
  simp [State.modRole]
@[simp] theorem State.modRole_cores (s : State) (u : Tid) (g : RoleState → RoleState) : (s.modRole u g).cores = s.cores := by
  simp [State.modRole]
@[simp] theorem State.modRole_modes (s : State) (u : Tid) (g : RoleState → RoleState) : (s.modRole u g).modes = s.modes := by
  simp [State.modRole]
@[simp] theorem State.modRole_units (s : State) (u : Tid) (g : RoleState → RoleState) : (s.modRole u g).units = s.units := by
  simp [State.modRole]
@[simp] theorem State.modRole_zeroed (s : State) (u : Tid) (g : RoleState → RoleState) : (s.modRole u g).zeroed = s.zeroed := by
  simp [State.modRole]
@[simp] theorem State.modRole_tiles (s : State) (u : Tid) (g : RoleState → RoleState) : (s.modRole u g).tiles = s.tiles := by
  simp [State.modRole]
@[simp] theorem State.modRole_wbufs (s : State) (u : Tid) (g : RoleState → RoleState) : (s.modRole u g).wbufs = s.wbufs := by
  simp [State.modRole]
@[simp] theorem State.modRole_bank (s : State) (u : Tid) (g : RoleState → RoleState) : (s.modRole u g).bank = s.bank := by
  simp [State.modRole]
@[simp] theorem State.modRole_topos (s : State) (u : Tid) (g : RoleState → RoleState) : (s.modRole u g).topos = s.topos := by
  simp [State.modRole]
@[simp] theorem State.modRole_meshes (s : State) (u : Tid) (g : RoleState → RoleState) : (s.modRole u g).meshes = s.meshes := by
  simp [State.modRole]
@[simp] theorem State.modRole_queues (s : State) (u : Tid) (g : RoleState → RoleState) : (s.modRole u g).queues = s.queues := by
  simp [State.modRole]
@[simp] theorem State.modRole_entries (s : State) (u : Tid) (g : RoleState → RoleState) : (s.modRole u g).entries = s.entries := by
  simp [State.modRole]
@[simp] theorem State.modRole_gangs (s : State) (u : Tid) (g : RoleState → RoleState) : (s.modRole u g).gangs = s.gangs := by
  simp [State.modRole]
@[simp] theorem State.modRole_lastQueue (s : State) (u : Tid) (g : RoleState → RoleState) : (s.modRole u g).lastQueue = s.lastQueue := by
  simp [State.modRole]
@[simp] theorem State.modRole_deny (s : State) (u : Tid) (g : RoleState → RoleState) : (s.modRole u g).deny = s.deny := by
  simp [State.modRole]
@[simp] theorem State.modRole_denyLost (s : State) (u : Tid) (g : RoleState → RoleState) : (s.modRole u g).denyLost = s.denyLost := by
  simp [State.modRole]
@[simp] theorem State.modRole_keys (s : State) (u : Tid) (g : RoleState → RoleState) : (s.modRole u g).keys = s.keys := by
  simp [State.modRole]
@[simp] theorem State.modRole_fab (s : State) (u : Tid) (g : RoleState → RoleState) : (s.modRole u g).fab = s.fab := by
  simp [State.modRole]
@[simp] theorem State.modRole_io (s : State) (u : Tid) (g : RoleState → RoleState) : (s.modRole u g).io = s.io := by
  simp [State.modRole]
@[simp] theorem State.modRole_cur (s : State) (u : Tid) (g : RoleState → RoleState) : (s.modRole u g).cur = s.cur := by
  simp [State.modRole]
@[simp] theorem State.modRole_occ (s : State) (u : Tid) (g : RoleState → RoleState) : (s.modRole u g).occ = s.occ := by
  simp [State.modRole]
@[simp] theorem State.modRole_agenda (s : State) (u : Tid) (g : RoleState → RoleState) : (s.modRole u g).agenda = s.agenda := by
  simp [State.modRole]
@[simp] theorem State.modRole_turn (s : State) (u : Tid) (g : RoleState → RoleState) : (s.modRole u g).turn = s.turn := by
  simp [State.modRole]
@[simp] theorem State.modRole_fresh (s : State) (u : Tid) (g : RoleState → RoleState) : (s.modRole u g).fresh = s.fresh := by
  simp [State.modRole]
@[simp] theorem State.modRole_serial (s : State) (u : Tid) (g : RoleState → RoleState) : (s.modRole u g).serial = s.serial := by
  simp [State.modRole]

@[simp] theorem State.modTr_mem (s : State) (g : Triad → Triad) : (s.modTr g).mem = s.mem := by
  simp [State.modTr]
@[simp] theorem State.modTr_time (s : State) (g : Triad → Triad) : (s.modTr g).time = s.time := by
  simp [State.modTr]
@[simp] theorem State.modTr_slots (s : State) (g : Triad → Triad) : (s.modTr g).slots = s.slots := by
  simp [State.modTr]
@[simp] theorem State.modTr_cores (s : State) (g : Triad → Triad) : (s.modTr g).cores = s.cores := by
  simp [State.modTr]
@[simp] theorem State.modTr_modes (s : State) (g : Triad → Triad) : (s.modTr g).modes = s.modes := by
  simp [State.modTr]
@[simp] theorem State.modTr_units (s : State) (g : Triad → Triad) : (s.modTr g).units = s.units := by
  simp [State.modTr]
@[simp] theorem State.modTr_zeroed (s : State) (g : Triad → Triad) : (s.modTr g).zeroed = s.zeroed := by
  simp [State.modTr]
@[simp] theorem State.modTr_tiles (s : State) (g : Triad → Triad) : (s.modTr g).tiles = s.tiles := by
  simp [State.modTr]
@[simp] theorem State.modTr_wbufs (s : State) (g : Triad → Triad) : (s.modTr g).wbufs = s.wbufs := by
  simp [State.modTr]
@[simp] theorem State.modTr_bank (s : State) (g : Triad → Triad) : (s.modTr g).bank = s.bank := by
  simp [State.modTr]
@[simp] theorem State.modTr_topos (s : State) (g : Triad → Triad) : (s.modTr g).topos = s.topos := by
  simp [State.modTr]
@[simp] theorem State.modTr_meshes (s : State) (g : Triad → Triad) : (s.modTr g).meshes = s.meshes := by
  simp [State.modTr]
@[simp] theorem State.modTr_queues (s : State) (g : Triad → Triad) : (s.modTr g).queues = s.queues := by
  simp [State.modTr]
@[simp] theorem State.modTr_entries (s : State) (g : Triad → Triad) : (s.modTr g).entries = s.entries := by
  simp [State.modTr]
@[simp] theorem State.modTr_gangs (s : State) (g : Triad → Triad) : (s.modTr g).gangs = s.gangs := by
  simp [State.modTr]
@[simp] theorem State.modTr_lastQueue (s : State) (g : Triad → Triad) : (s.modTr g).lastQueue = s.lastQueue := by
  simp [State.modTr]
@[simp] theorem State.modTr_deny (s : State) (g : Triad → Triad) : (s.modTr g).deny = s.deny := by
  simp [State.modTr]
@[simp] theorem State.modTr_denyLost (s : State) (g : Triad → Triad) : (s.modTr g).denyLost = s.denyLost := by
  simp [State.modTr]
@[simp] theorem State.modTr_keys (s : State) (g : Triad → Triad) : (s.modTr g).keys = s.keys := by
  simp [State.modTr]
@[simp] theorem State.modTr_fab (s : State) (g : Triad → Triad) : (s.modTr g).fab = s.fab := by
  simp [State.modTr]
@[simp] theorem State.modTr_io (s : State) (g : Triad → Triad) : (s.modTr g).io = s.io := by
  simp [State.modTr]
@[simp] theorem State.modTr_cur (s : State) (g : Triad → Triad) : (s.modTr g).cur = s.cur := by
  simp [State.modTr]
@[simp] theorem State.modTr_occ (s : State) (g : Triad → Triad) : (s.modTr g).occ = s.occ := by
  simp [State.modTr]
@[simp] theorem State.modTr_agenda (s : State) (g : Triad → Triad) : (s.modTr g).agenda = s.agenda := by
  simp [State.modTr]
@[simp] theorem State.modTr_turn (s : State) (g : Triad → Triad) : (s.modTr g).turn = s.turn := by
  simp [State.modTr]
@[simp] theorem State.modTr_fresh (s : State) (g : Triad → Triad) : (s.modTr g).fresh = s.fresh := by
  simp [State.modTr]
@[simp] theorem State.modTr_serial (s : State) (g : Triad → Triad) : (s.modTr g).serial = s.serial := by
  simp [State.modTr]

@[simp] theorem State.modTh_mem (s : State) (g : RoleState → RoleState) : (s.modTh g).mem = s.mem := by
  simp [State.modTh]
@[simp] theorem State.modTh_time (s : State) (g : RoleState → RoleState) : (s.modTh g).time = s.time := by
  simp [State.modTh]
@[simp] theorem State.modTh_slots (s : State) (g : RoleState → RoleState) : (s.modTh g).slots = s.slots := by
  simp [State.modTh]
@[simp] theorem State.modTh_cores (s : State) (g : RoleState → RoleState) : (s.modTh g).cores = s.cores := by
  simp [State.modTh]
@[simp] theorem State.modTh_modes (s : State) (g : RoleState → RoleState) : (s.modTh g).modes = s.modes := by
  simp [State.modTh]
@[simp] theorem State.modTh_units (s : State) (g : RoleState → RoleState) : (s.modTh g).units = s.units := by
  simp [State.modTh]
@[simp] theorem State.modTh_zeroed (s : State) (g : RoleState → RoleState) : (s.modTh g).zeroed = s.zeroed := by
  simp [State.modTh]
@[simp] theorem State.modTh_tiles (s : State) (g : RoleState → RoleState) : (s.modTh g).tiles = s.tiles := by
  simp [State.modTh]
@[simp] theorem State.modTh_wbufs (s : State) (g : RoleState → RoleState) : (s.modTh g).wbufs = s.wbufs := by
  simp [State.modTh]
@[simp] theorem State.modTh_bank (s : State) (g : RoleState → RoleState) : (s.modTh g).bank = s.bank := by
  simp [State.modTh]
@[simp] theorem State.modTh_topos (s : State) (g : RoleState → RoleState) : (s.modTh g).topos = s.topos := by
  simp [State.modTh]
@[simp] theorem State.modTh_meshes (s : State) (g : RoleState → RoleState) : (s.modTh g).meshes = s.meshes := by
  simp [State.modTh]
@[simp] theorem State.modTh_queues (s : State) (g : RoleState → RoleState) : (s.modTh g).queues = s.queues := by
  simp [State.modTh]
@[simp] theorem State.modTh_entries (s : State) (g : RoleState → RoleState) : (s.modTh g).entries = s.entries := by
  simp [State.modTh]
@[simp] theorem State.modTh_gangs (s : State) (g : RoleState → RoleState) : (s.modTh g).gangs = s.gangs := by
  simp [State.modTh]
@[simp] theorem State.modTh_lastQueue (s : State) (g : RoleState → RoleState) : (s.modTh g).lastQueue = s.lastQueue := by
  simp [State.modTh]
@[simp] theorem State.modTh_deny (s : State) (g : RoleState → RoleState) : (s.modTh g).deny = s.deny := by
  simp [State.modTh]
@[simp] theorem State.modTh_denyLost (s : State) (g : RoleState → RoleState) : (s.modTh g).denyLost = s.denyLost := by
  simp [State.modTh]
@[simp] theorem State.modTh_keys (s : State) (g : RoleState → RoleState) : (s.modTh g).keys = s.keys := by
  simp [State.modTh]
@[simp] theorem State.modTh_fab (s : State) (g : RoleState → RoleState) : (s.modTh g).fab = s.fab := by
  simp [State.modTh]
@[simp] theorem State.modTh_io (s : State) (g : RoleState → RoleState) : (s.modTh g).io = s.io := by
  simp [State.modTh]
@[simp] theorem State.modTh_cur (s : State) (g : RoleState → RoleState) : (s.modTh g).cur = s.cur := by
  simp [State.modTh]
@[simp] theorem State.modTh_occ (s : State) (g : RoleState → RoleState) : (s.modTh g).occ = s.occ := by
  simp [State.modTh]
@[simp] theorem State.modTh_agenda (s : State) (g : RoleState → RoleState) : (s.modTh g).agenda = s.agenda := by
  simp [State.modTh]
@[simp] theorem State.modTh_turn (s : State) (g : RoleState → RoleState) : (s.modTh g).turn = s.turn := by
  simp [State.modTh]
@[simp] theorem State.modTh_fresh (s : State) (g : RoleState → RoleState) : (s.modTh g).fresh = s.fresh := by
  simp [State.modTh]
@[simp] theorem State.modTh_serial (s : State) (g : RoleState → RoleState) : (s.modTh g).serial = s.serial := by
  simp [State.modTh]

@[simp] theorem State.setX_mem (s : State) (n : BitVec 6) (v : Word) : (s.setX n v).mem = s.mem := by
  simp [State.setX]
@[simp] theorem State.setX_time (s : State) (n : BitVec 6) (v : Word) : (s.setX n v).time = s.time := by
  simp [State.setX]
@[simp] theorem State.setX_slots (s : State) (n : BitVec 6) (v : Word) : (s.setX n v).slots = s.slots := by
  simp [State.setX]
@[simp] theorem State.setX_cores (s : State) (n : BitVec 6) (v : Word) : (s.setX n v).cores = s.cores := by
  simp [State.setX]
@[simp] theorem State.setX_modes (s : State) (n : BitVec 6) (v : Word) : (s.setX n v).modes = s.modes := by
  simp [State.setX]
@[simp] theorem State.setX_units (s : State) (n : BitVec 6) (v : Word) : (s.setX n v).units = s.units := by
  simp [State.setX]
@[simp] theorem State.setX_zeroed (s : State) (n : BitVec 6) (v : Word) : (s.setX n v).zeroed = s.zeroed := by
  simp [State.setX]
@[simp] theorem State.setX_tiles (s : State) (n : BitVec 6) (v : Word) : (s.setX n v).tiles = s.tiles := by
  simp [State.setX]
@[simp] theorem State.setX_wbufs (s : State) (n : BitVec 6) (v : Word) : (s.setX n v).wbufs = s.wbufs := by
  simp [State.setX]
@[simp] theorem State.setX_bank (s : State) (n : BitVec 6) (v : Word) : (s.setX n v).bank = s.bank := by
  simp [State.setX]
@[simp] theorem State.setX_topos (s : State) (n : BitVec 6) (v : Word) : (s.setX n v).topos = s.topos := by
  simp [State.setX]
@[simp] theorem State.setX_meshes (s : State) (n : BitVec 6) (v : Word) : (s.setX n v).meshes = s.meshes := by
  simp [State.setX]
@[simp] theorem State.setX_queues (s : State) (n : BitVec 6) (v : Word) : (s.setX n v).queues = s.queues := by
  simp [State.setX]
@[simp] theorem State.setX_entries (s : State) (n : BitVec 6) (v : Word) : (s.setX n v).entries = s.entries := by
  simp [State.setX]
@[simp] theorem State.setX_gangs (s : State) (n : BitVec 6) (v : Word) : (s.setX n v).gangs = s.gangs := by
  simp [State.setX]
@[simp] theorem State.setX_lastQueue (s : State) (n : BitVec 6) (v : Word) : (s.setX n v).lastQueue = s.lastQueue := by
  simp [State.setX]
@[simp] theorem State.setX_deny (s : State) (n : BitVec 6) (v : Word) : (s.setX n v).deny = s.deny := by
  simp [State.setX]
@[simp] theorem State.setX_denyLost (s : State) (n : BitVec 6) (v : Word) : (s.setX n v).denyLost = s.denyLost := by
  simp [State.setX]
@[simp] theorem State.setX_keys (s : State) (n : BitVec 6) (v : Word) : (s.setX n v).keys = s.keys := by
  simp [State.setX]
@[simp] theorem State.setX_fab (s : State) (n : BitVec 6) (v : Word) : (s.setX n v).fab = s.fab := by
  simp [State.setX]
@[simp] theorem State.setX_io (s : State) (n : BitVec 6) (v : Word) : (s.setX n v).io = s.io := by
  simp [State.setX]
@[simp] theorem State.setX_cur (s : State) (n : BitVec 6) (v : Word) : (s.setX n v).cur = s.cur := by
  simp [State.setX]
@[simp] theorem State.setX_occ (s : State) (n : BitVec 6) (v : Word) : (s.setX n v).occ = s.occ := by
  simp [State.setX]
@[simp] theorem State.setX_agenda (s : State) (n : BitVec 6) (v : Word) : (s.setX n v).agenda = s.agenda := by
  simp [State.setX]
@[simp] theorem State.setX_turn (s : State) (n : BitVec 6) (v : Word) : (s.setX n v).turn = s.turn := by
  simp [State.setX]
@[simp] theorem State.setX_fresh (s : State) (n : BitVec 6) (v : Word) : (s.setX n v).fresh = s.fresh := by
  simp [State.setX]
@[simp] theorem State.setX_serial (s : State) (n : BitVec 6) (v : Word) : (s.setX n v).serial = s.serial := by
  simp [State.setX]

@[simp] theorem State.advance_mem (s : State) : s.advance.mem = s.mem := by
  simp [State.advance]
@[simp] theorem State.advance_time (s : State) : s.advance.time = s.time := by
  simp [State.advance]
@[simp] theorem State.advance_slots (s : State) : s.advance.slots = s.slots := by
  simp [State.advance]
@[simp] theorem State.advance_cores (s : State) : s.advance.cores = s.cores := by
  simp [State.advance]
@[simp] theorem State.advance_modes (s : State) : s.advance.modes = s.modes := by
  simp [State.advance]
@[simp] theorem State.advance_units (s : State) : s.advance.units = s.units := by
  simp [State.advance]
@[simp] theorem State.advance_zeroed (s : State) : s.advance.zeroed = s.zeroed := by
  simp [State.advance]
@[simp] theorem State.advance_tiles (s : State) : s.advance.tiles = s.tiles := by
  simp [State.advance]
@[simp] theorem State.advance_wbufs (s : State) : s.advance.wbufs = s.wbufs := by
  simp [State.advance]
@[simp] theorem State.advance_bank (s : State) : s.advance.bank = s.bank := by
  simp [State.advance]
@[simp] theorem State.advance_topos (s : State) : s.advance.topos = s.topos := by
  simp [State.advance]
@[simp] theorem State.advance_meshes (s : State) : s.advance.meshes = s.meshes := by
  simp [State.advance]
@[simp] theorem State.advance_queues (s : State) : s.advance.queues = s.queues := by
  simp [State.advance]
@[simp] theorem State.advance_entries (s : State) : s.advance.entries = s.entries := by
  simp [State.advance]
@[simp] theorem State.advance_gangs (s : State) : s.advance.gangs = s.gangs := by
  simp [State.advance]
@[simp] theorem State.advance_lastQueue (s : State) : s.advance.lastQueue = s.lastQueue := by
  simp [State.advance]
@[simp] theorem State.advance_deny (s : State) : s.advance.deny = s.deny := by
  simp [State.advance]
@[simp] theorem State.advance_denyLost (s : State) : s.advance.denyLost = s.denyLost := by
  simp [State.advance]
@[simp] theorem State.advance_keys (s : State) : s.advance.keys = s.keys := by
  simp [State.advance]
@[simp] theorem State.advance_fab (s : State) : s.advance.fab = s.fab := by
  simp [State.advance]
@[simp] theorem State.advance_io (s : State) : s.advance.io = s.io := by
  simp [State.advance]
@[simp] theorem State.advance_cur (s : State) : s.advance.cur = s.cur := by
  simp [State.advance]
@[simp] theorem State.advance_occ (s : State) : s.advance.occ = s.occ := by
  simp [State.advance]
@[simp] theorem State.advance_agenda (s : State) : s.advance.agenda = s.agenda := by
  simp [State.advance]
@[simp] theorem State.advance_turn (s : State) : s.advance.turn = s.turn := by
  simp [State.advance]
@[simp] theorem State.advance_fresh (s : State) : s.advance.fresh = s.fresh := by
  simp [State.advance]
@[simp] theorem State.advance_serial (s : State) : s.advance.serial = s.serial := by
  simp [State.advance]

@[simp] theorem State.goto_mem (s : State) (a : Word) : (s.goto a).mem = s.mem := by
  simp [State.goto]
@[simp] theorem State.goto_time (s : State) (a : Word) : (s.goto a).time = s.time := by
  simp [State.goto]
@[simp] theorem State.goto_slots (s : State) (a : Word) : (s.goto a).slots = s.slots := by
  simp [State.goto]
@[simp] theorem State.goto_cores (s : State) (a : Word) : (s.goto a).cores = s.cores := by
  simp [State.goto]
@[simp] theorem State.goto_modes (s : State) (a : Word) : (s.goto a).modes = s.modes := by
  simp [State.goto]
@[simp] theorem State.goto_units (s : State) (a : Word) : (s.goto a).units = s.units := by
  simp [State.goto]
@[simp] theorem State.goto_zeroed (s : State) (a : Word) : (s.goto a).zeroed = s.zeroed := by
  simp [State.goto]
@[simp] theorem State.goto_tiles (s : State) (a : Word) : (s.goto a).tiles = s.tiles := by
  simp [State.goto]
@[simp] theorem State.goto_wbufs (s : State) (a : Word) : (s.goto a).wbufs = s.wbufs := by
  simp [State.goto]
@[simp] theorem State.goto_bank (s : State) (a : Word) : (s.goto a).bank = s.bank := by
  simp [State.goto]
@[simp] theorem State.goto_topos (s : State) (a : Word) : (s.goto a).topos = s.topos := by
  simp [State.goto]
@[simp] theorem State.goto_meshes (s : State) (a : Word) : (s.goto a).meshes = s.meshes := by
  simp [State.goto]
@[simp] theorem State.goto_queues (s : State) (a : Word) : (s.goto a).queues = s.queues := by
  simp [State.goto]
@[simp] theorem State.goto_entries (s : State) (a : Word) : (s.goto a).entries = s.entries := by
  simp [State.goto]
@[simp] theorem State.goto_gangs (s : State) (a : Word) : (s.goto a).gangs = s.gangs := by
  simp [State.goto]
@[simp] theorem State.goto_lastQueue (s : State) (a : Word) : (s.goto a).lastQueue = s.lastQueue := by
  simp [State.goto]
@[simp] theorem State.goto_deny (s : State) (a : Word) : (s.goto a).deny = s.deny := by
  simp [State.goto]
@[simp] theorem State.goto_denyLost (s : State) (a : Word) : (s.goto a).denyLost = s.denyLost := by
  simp [State.goto]
@[simp] theorem State.goto_keys (s : State) (a : Word) : (s.goto a).keys = s.keys := by
  simp [State.goto]
@[simp] theorem State.goto_fab (s : State) (a : Word) : (s.goto a).fab = s.fab := by
  simp [State.goto]
@[simp] theorem State.goto_io (s : State) (a : Word) : (s.goto a).io = s.io := by
  simp [State.goto]
@[simp] theorem State.goto_cur (s : State) (a : Word) : (s.goto a).cur = s.cur := by
  simp [State.goto]
@[simp] theorem State.goto_occ (s : State) (a : Word) : (s.goto a).occ = s.occ := by
  simp [State.goto]
@[simp] theorem State.goto_agenda (s : State) (a : Word) : (s.goto a).agenda = s.agenda := by
  simp [State.goto]
@[simp] theorem State.goto_turn (s : State) (a : Word) : (s.goto a).turn = s.turn := by
  simp [State.goto]
@[simp] theorem State.goto_fresh (s : State) (a : Word) : (s.goto a).fresh = s.fresh := by
  simp [State.goto]
@[simp] theorem State.goto_serial (s : State) (a : Word) : (s.goto a).serial = s.serial := by
  simp [State.goto]

@[simp] theorem State.stallOn_mem (s : State) (w : Stall) : (s.stallOn w).mem = s.mem := by
  simp [State.stallOn]
@[simp] theorem State.stallOn_time (s : State) (w : Stall) : (s.stallOn w).time = s.time := by
  simp [State.stallOn]
@[simp] theorem State.stallOn_slots (s : State) (w : Stall) : (s.stallOn w).slots = s.slots := by
  simp [State.stallOn]
@[simp] theorem State.stallOn_cores (s : State) (w : Stall) : (s.stallOn w).cores = s.cores := by
  simp [State.stallOn]
@[simp] theorem State.stallOn_modes (s : State) (w : Stall) : (s.stallOn w).modes = s.modes := by
  simp [State.stallOn]
@[simp] theorem State.stallOn_units (s : State) (w : Stall) : (s.stallOn w).units = s.units := by
  simp [State.stallOn]
@[simp] theorem State.stallOn_zeroed (s : State) (w : Stall) : (s.stallOn w).zeroed = s.zeroed := by
  simp [State.stallOn]
@[simp] theorem State.stallOn_tiles (s : State) (w : Stall) : (s.stallOn w).tiles = s.tiles := by
  simp [State.stallOn]
@[simp] theorem State.stallOn_wbufs (s : State) (w : Stall) : (s.stallOn w).wbufs = s.wbufs := by
  simp [State.stallOn]
@[simp] theorem State.stallOn_bank (s : State) (w : Stall) : (s.stallOn w).bank = s.bank := by
  simp [State.stallOn]
@[simp] theorem State.stallOn_topos (s : State) (w : Stall) : (s.stallOn w).topos = s.topos := by
  simp [State.stallOn]
@[simp] theorem State.stallOn_meshes (s : State) (w : Stall) : (s.stallOn w).meshes = s.meshes := by
  simp [State.stallOn]
@[simp] theorem State.stallOn_queues (s : State) (w : Stall) : (s.stallOn w).queues = s.queues := by
  simp [State.stallOn]
@[simp] theorem State.stallOn_entries (s : State) (w : Stall) : (s.stallOn w).entries = s.entries := by
  simp [State.stallOn]
@[simp] theorem State.stallOn_gangs (s : State) (w : Stall) : (s.stallOn w).gangs = s.gangs := by
  simp [State.stallOn]
@[simp] theorem State.stallOn_lastQueue (s : State) (w : Stall) : (s.stallOn w).lastQueue = s.lastQueue := by
  simp [State.stallOn]
@[simp] theorem State.stallOn_deny (s : State) (w : Stall) : (s.stallOn w).deny = s.deny := by
  simp [State.stallOn]
@[simp] theorem State.stallOn_denyLost (s : State) (w : Stall) : (s.stallOn w).denyLost = s.denyLost := by
  simp [State.stallOn]
@[simp] theorem State.stallOn_keys (s : State) (w : Stall) : (s.stallOn w).keys = s.keys := by
  simp [State.stallOn]
@[simp] theorem State.stallOn_fab (s : State) (w : Stall) : (s.stallOn w).fab = s.fab := by
  simp [State.stallOn]
@[simp] theorem State.stallOn_io (s : State) (w : Stall) : (s.stallOn w).io = s.io := by
  simp [State.stallOn]
@[simp] theorem State.stallOn_cur (s : State) (w : Stall) : (s.stallOn w).cur = s.cur := by
  simp [State.stallOn]
@[simp] theorem State.stallOn_occ (s : State) (w : Stall) : (s.stallOn w).occ = s.occ := by
  simp [State.stallOn]
@[simp] theorem State.stallOn_agenda (s : State) (w : Stall) : (s.stallOn w).agenda = s.agenda := by
  simp [State.stallOn]
@[simp] theorem State.stallOn_turn (s : State) (w : Stall) : (s.stallOn w).turn = s.turn := by
  simp [State.stallOn]
@[simp] theorem State.stallOn_fresh (s : State) (w : Stall) : (s.stallOn w).fresh = s.fresh := by
  simp [State.stallOn]
@[simp] theorem State.stallOn_serial (s : State) (w : Stall) : (s.stallOn w).serial = s.serial := by
  simp [State.stallOn]

@[simp] theorem State.done_mem (s : State) (n : BitVec 6) (v : Word) : (s.done n v).mem = s.mem := by
  simp [State.done]
@[simp] theorem State.done_time (s : State) (n : BitVec 6) (v : Word) : (s.done n v).time = s.time := by
  simp [State.done]
@[simp] theorem State.done_slots (s : State) (n : BitVec 6) (v : Word) : (s.done n v).slots = s.slots := by
  simp [State.done]
@[simp] theorem State.done_cores (s : State) (n : BitVec 6) (v : Word) : (s.done n v).cores = s.cores := by
  simp [State.done]
@[simp] theorem State.done_modes (s : State) (n : BitVec 6) (v : Word) : (s.done n v).modes = s.modes := by
  simp [State.done]
@[simp] theorem State.done_units (s : State) (n : BitVec 6) (v : Word) : (s.done n v).units = s.units := by
  simp [State.done]
@[simp] theorem State.done_zeroed (s : State) (n : BitVec 6) (v : Word) : (s.done n v).zeroed = s.zeroed := by
  simp [State.done]
@[simp] theorem State.done_tiles (s : State) (n : BitVec 6) (v : Word) : (s.done n v).tiles = s.tiles := by
  simp [State.done]
@[simp] theorem State.done_wbufs (s : State) (n : BitVec 6) (v : Word) : (s.done n v).wbufs = s.wbufs := by
  simp [State.done]
@[simp] theorem State.done_bank (s : State) (n : BitVec 6) (v : Word) : (s.done n v).bank = s.bank := by
  simp [State.done]
@[simp] theorem State.done_topos (s : State) (n : BitVec 6) (v : Word) : (s.done n v).topos = s.topos := by
  simp [State.done]
@[simp] theorem State.done_meshes (s : State) (n : BitVec 6) (v : Word) : (s.done n v).meshes = s.meshes := by
  simp [State.done]
@[simp] theorem State.done_queues (s : State) (n : BitVec 6) (v : Word) : (s.done n v).queues = s.queues := by
  simp [State.done]
@[simp] theorem State.done_entries (s : State) (n : BitVec 6) (v : Word) : (s.done n v).entries = s.entries := by
  simp [State.done]
@[simp] theorem State.done_gangs (s : State) (n : BitVec 6) (v : Word) : (s.done n v).gangs = s.gangs := by
  simp [State.done]
@[simp] theorem State.done_lastQueue (s : State) (n : BitVec 6) (v : Word) : (s.done n v).lastQueue = s.lastQueue := by
  simp [State.done]
@[simp] theorem State.done_deny (s : State) (n : BitVec 6) (v : Word) : (s.done n v).deny = s.deny := by
  simp [State.done]
@[simp] theorem State.done_denyLost (s : State) (n : BitVec 6) (v : Word) : (s.done n v).denyLost = s.denyLost := by
  simp [State.done]
@[simp] theorem State.done_keys (s : State) (n : BitVec 6) (v : Word) : (s.done n v).keys = s.keys := by
  simp [State.done]
@[simp] theorem State.done_fab (s : State) (n : BitVec 6) (v : Word) : (s.done n v).fab = s.fab := by
  simp [State.done]
@[simp] theorem State.done_io (s : State) (n : BitVec 6) (v : Word) : (s.done n v).io = s.io := by
  simp [State.done]
@[simp] theorem State.done_cur (s : State) (n : BitVec 6) (v : Word) : (s.done n v).cur = s.cur := by
  simp [State.done]
@[simp] theorem State.done_occ (s : State) (n : BitVec 6) (v : Word) : (s.done n v).occ = s.occ := by
  simp [State.done]
@[simp] theorem State.done_agenda (s : State) (n : BitVec 6) (v : Word) : (s.done n v).agenda = s.agenda := by
  simp [State.done]
@[simp] theorem State.done_turn (s : State) (n : BitVec 6) (v : Word) : (s.done n v).turn = s.turn := by
  simp [State.done]
@[simp] theorem State.done_fresh (s : State) (n : BitVec 6) (v : Word) : (s.done n v).fresh = s.fresh := by
  simp [State.done]
@[simp] theorem State.done_serial (s : State) (n : BitVec 6) (v : Word) : (s.done n v).serial = s.serial := by
  simp [State.done]

@[simp] theorem State.orVstat_mem (s : State) (c : Nat) (w : Word) : (s.orVstat c w).mem = s.mem := by
  simp [State.orVstat]
@[simp] theorem State.orVstat_time (s : State) (c : Nat) (w : Word) : (s.orVstat c w).time = s.time := by
  simp [State.orVstat]
@[simp] theorem State.orVstat_slots (s : State) (c : Nat) (w : Word) : (s.orVstat c w).slots = s.slots := by
  simp [State.orVstat]
@[simp] theorem State.orVstat_cores (s : State) (c : Nat) (w : Word) : (s.orVstat c w).cores = s.cores := by
  simp [State.orVstat]
@[simp] theorem State.orVstat_modes (s : State) (c : Nat) (w : Word) : (s.orVstat c w).modes = s.modes := by
  simp [State.orVstat]
@[simp] theorem State.orVstat_units (s : State) (c : Nat) (w : Word) : (s.orVstat c w).units = s.units := by
  simp [State.orVstat]
@[simp] theorem State.orVstat_zeroed (s : State) (c : Nat) (w : Word) : (s.orVstat c w).zeroed = s.zeroed := by
  simp [State.orVstat]
@[simp] theorem State.orVstat_tiles (s : State) (c : Nat) (w : Word) : (s.orVstat c w).tiles = s.tiles := by
  simp [State.orVstat]
@[simp] theorem State.orVstat_wbufs (s : State) (c : Nat) (w : Word) : (s.orVstat c w).wbufs = s.wbufs := by
  simp [State.orVstat]
@[simp] theorem State.orVstat_bank (s : State) (c : Nat) (w : Word) : (s.orVstat c w).bank = s.bank := by
  simp [State.orVstat]
@[simp] theorem State.orVstat_topos (s : State) (c : Nat) (w : Word) : (s.orVstat c w).topos = s.topos := by
  simp [State.orVstat]
@[simp] theorem State.orVstat_meshes (s : State) (c : Nat) (w : Word) : (s.orVstat c w).meshes = s.meshes := by
  simp [State.orVstat]
@[simp] theorem State.orVstat_queues (s : State) (c : Nat) (w : Word) : (s.orVstat c w).queues = s.queues := by
  simp [State.orVstat]
@[simp] theorem State.orVstat_entries (s : State) (c : Nat) (w : Word) : (s.orVstat c w).entries = s.entries := by
  simp [State.orVstat]
@[simp] theorem State.orVstat_gangs (s : State) (c : Nat) (w : Word) : (s.orVstat c w).gangs = s.gangs := by
  simp [State.orVstat]
@[simp] theorem State.orVstat_lastQueue (s : State) (c : Nat) (w : Word) : (s.orVstat c w).lastQueue = s.lastQueue := by
  simp [State.orVstat]
@[simp] theorem State.orVstat_deny (s : State) (c : Nat) (w : Word) : (s.orVstat c w).deny = s.deny := by
  simp [State.orVstat]
@[simp] theorem State.orVstat_denyLost (s : State) (c : Nat) (w : Word) : (s.orVstat c w).denyLost = s.denyLost := by
  simp [State.orVstat]
@[simp] theorem State.orVstat_keys (s : State) (c : Nat) (w : Word) : (s.orVstat c w).keys = s.keys := by
  simp [State.orVstat]
@[simp] theorem State.orVstat_fab (s : State) (c : Nat) (w : Word) : (s.orVstat c w).fab = s.fab := by
  simp [State.orVstat]
@[simp] theorem State.orVstat_io (s : State) (c : Nat) (w : Word) : (s.orVstat c w).io = s.io := by
  simp [State.orVstat]
@[simp] theorem State.orVstat_cur (s : State) (c : Nat) (w : Word) : (s.orVstat c w).cur = s.cur := by
  simp [State.orVstat]
@[simp] theorem State.orVstat_occ (s : State) (c : Nat) (w : Word) : (s.orVstat c w).occ = s.occ := by
  simp [State.orVstat]
@[simp] theorem State.orVstat_agenda (s : State) (c : Nat) (w : Word) : (s.orVstat c w).agenda = s.agenda := by
  simp [State.orVstat]
@[simp] theorem State.orVstat_turn (s : State) (c : Nat) (w : Word) : (s.orVstat c w).turn = s.turn := by
  simp [State.orVstat]
@[simp] theorem State.orVstat_fresh (s : State) (c : Nat) (w : Word) : (s.orVstat c w).fresh = s.fresh := by
  simp [State.orVstat]
@[simp] theorem State.orVstat_serial (s : State) (c : Nat) (w : Word) : (s.orVstat c w).serial = s.serial := by
  simp [State.orVstat]

@[simp] theorem State.merge_mem (s : State) (e : Evs) : (s.merge e).mem = s.mem := by
  simp [State.merge]
@[simp] theorem State.merge_time (s : State) (e : Evs) : (s.merge e).time = s.time := by
  simp [State.merge]
@[simp] theorem State.merge_slots (s : State) (e : Evs) : (s.merge e).slots = s.slots := by
  simp [State.merge]
@[simp] theorem State.merge_cores (s : State) (e : Evs) : (s.merge e).cores = s.cores := by
  simp [State.merge]
@[simp] theorem State.merge_modes (s : State) (e : Evs) : (s.merge e).modes = s.modes := by
  simp [State.merge]
@[simp] theorem State.merge_units (s : State) (e : Evs) : (s.merge e).units = s.units := by
  simp [State.merge]
@[simp] theorem State.merge_zeroed (s : State) (e : Evs) : (s.merge e).zeroed = s.zeroed := by
  simp [State.merge]
@[simp] theorem State.merge_tiles (s : State) (e : Evs) : (s.merge e).tiles = s.tiles := by
  simp [State.merge]
@[simp] theorem State.merge_wbufs (s : State) (e : Evs) : (s.merge e).wbufs = s.wbufs := by
  simp [State.merge]
@[simp] theorem State.merge_bank (s : State) (e : Evs) : (s.merge e).bank = s.bank := by
  simp [State.merge]
@[simp] theorem State.merge_topos (s : State) (e : Evs) : (s.merge e).topos = s.topos := by
  simp [State.merge]
@[simp] theorem State.merge_meshes (s : State) (e : Evs) : (s.merge e).meshes = s.meshes := by
  simp [State.merge]
@[simp] theorem State.merge_queues (s : State) (e : Evs) : (s.merge e).queues = s.queues := by
  simp [State.merge]
@[simp] theorem State.merge_entries (s : State) (e : Evs) : (s.merge e).entries = s.entries := by
  simp [State.merge]
@[simp] theorem State.merge_gangs (s : State) (e : Evs) : (s.merge e).gangs = s.gangs := by
  simp [State.merge]
@[simp] theorem State.merge_lastQueue (s : State) (e : Evs) : (s.merge e).lastQueue = s.lastQueue := by
  simp [State.merge]
@[simp] theorem State.merge_deny (s : State) (e : Evs) : (s.merge e).deny = s.deny := by
  simp [State.merge]
@[simp] theorem State.merge_denyLost (s : State) (e : Evs) : (s.merge e).denyLost = s.denyLost := by
  simp [State.merge]
@[simp] theorem State.merge_keys (s : State) (e : Evs) : (s.merge e).keys = s.keys := by
  simp [State.merge]
@[simp] theorem State.merge_fab (s : State) (e : Evs) : (s.merge e).fab = s.fab := by
  simp [State.merge]
@[simp] theorem State.merge_io (s : State) (e : Evs) : (s.merge e).io = s.io := by
  simp [State.merge]
@[simp] theorem State.merge_cur (s : State) (e : Evs) : (s.merge e).cur = s.cur := by
  simp [State.merge]
@[simp] theorem State.merge_occ (s : State) (e : Evs) : (s.merge e).occ = s.occ := by
  simp [State.merge]
@[simp] theorem State.merge_agenda (s : State) (e : Evs) : (s.merge e).agenda = s.agenda := by
  simp [State.merge]
@[simp] theorem State.merge_turn (s : State) (e : Evs) : (s.merge e).turn = s.turn := by
  simp [State.merge]
@[simp] theorem State.merge_fresh (s : State) (e : Evs) : (s.merge e).fresh = s.fresh := by
  simp [State.merge]
@[simp] theorem State.merge_serial (s : State) (e : Evs) : (s.merge e).serial = s.serial := by
  simp [State.merge]

@[simp] theorem State.bumpSn_mem (s : State) (n : Nat) : (s.bumpSn n).mem = s.mem := by
  simp [State.bumpSn]
@[simp] theorem State.bumpSn_time (s : State) (n : Nat) : (s.bumpSn n).time = s.time := by
  simp [State.bumpSn]
@[simp] theorem State.bumpSn_slots (s : State) (n : Nat) : (s.bumpSn n).slots = s.slots := by
  simp [State.bumpSn]
@[simp] theorem State.bumpSn_cores (s : State) (n : Nat) : (s.bumpSn n).cores = s.cores := by
  simp [State.bumpSn]
@[simp] theorem State.bumpSn_modes (s : State) (n : Nat) : (s.bumpSn n).modes = s.modes := by
  simp [State.bumpSn]
@[simp] theorem State.bumpSn_units (s : State) (n : Nat) : (s.bumpSn n).units = s.units := by
  simp [State.bumpSn]
@[simp] theorem State.bumpSn_zeroed (s : State) (n : Nat) : (s.bumpSn n).zeroed = s.zeroed := by
  simp [State.bumpSn]
@[simp] theorem State.bumpSn_tiles (s : State) (n : Nat) : (s.bumpSn n).tiles = s.tiles := by
  simp [State.bumpSn]
@[simp] theorem State.bumpSn_wbufs (s : State) (n : Nat) : (s.bumpSn n).wbufs = s.wbufs := by
  simp [State.bumpSn]
@[simp] theorem State.bumpSn_bank (s : State) (n : Nat) : (s.bumpSn n).bank = s.bank := by
  simp [State.bumpSn]
@[simp] theorem State.bumpSn_topos (s : State) (n : Nat) : (s.bumpSn n).topos = s.topos := by
  simp [State.bumpSn]
@[simp] theorem State.bumpSn_meshes (s : State) (n : Nat) : (s.bumpSn n).meshes = s.meshes := by
  simp [State.bumpSn]
@[simp] theorem State.bumpSn_queues (s : State) (n : Nat) : (s.bumpSn n).queues = s.queues := by
  simp [State.bumpSn]
@[simp] theorem State.bumpSn_entries (s : State) (n : Nat) : (s.bumpSn n).entries = s.entries := by
  simp [State.bumpSn]
@[simp] theorem State.bumpSn_gangs (s : State) (n : Nat) : (s.bumpSn n).gangs = s.gangs := by
  simp [State.bumpSn]
@[simp] theorem State.bumpSn_lastQueue (s : State) (n : Nat) : (s.bumpSn n).lastQueue = s.lastQueue := by
  simp [State.bumpSn]
@[simp] theorem State.bumpSn_deny (s : State) (n : Nat) : (s.bumpSn n).deny = s.deny := by
  simp [State.bumpSn]
@[simp] theorem State.bumpSn_denyLost (s : State) (n : Nat) : (s.bumpSn n).denyLost = s.denyLost := by
  simp [State.bumpSn]
@[simp] theorem State.bumpSn_keys (s : State) (n : Nat) : (s.bumpSn n).keys = s.keys := by
  simp [State.bumpSn]
@[simp] theorem State.bumpSn_fab (s : State) (n : Nat) : (s.bumpSn n).fab = s.fab := by
  simp [State.bumpSn]
@[simp] theorem State.bumpSn_io (s : State) (n : Nat) : (s.bumpSn n).io = s.io := by
  simp [State.bumpSn]
@[simp] theorem State.bumpSn_cur (s : State) (n : Nat) : (s.bumpSn n).cur = s.cur := by
  simp [State.bumpSn]
@[simp] theorem State.bumpSn_occ (s : State) (n : Nat) : (s.bumpSn n).occ = s.occ := by
  simp [State.bumpSn]
@[simp] theorem State.bumpSn_agenda (s : State) (n : Nat) : (s.bumpSn n).agenda = s.agenda := by
  simp [State.bumpSn]
@[simp] theorem State.bumpSn_turn (s : State) (n : Nat) : (s.bumpSn n).turn = s.turn := by
  simp [State.bumpSn]
@[simp] theorem State.bumpSn_fresh (s : State) (n : Nat) : (s.bumpSn n).fresh = s.fresh := by
  simp [State.bumpSn]
@[simp] theorem State.bumpSn_serial (s : State) (n : Nat) : (s.bumpSn n).serial = s.serial := by
  simp [State.bumpSn]

@[simp] theorem State.modCore_mem (s : State) (c : Nat) (g : Core → Core) : (s.modCore c g).mem = s.mem := rfl
@[simp] theorem State.modCore_time (s : State) (c : Nat) (g : Core → Core) : (s.modCore c g).time = s.time := rfl
@[simp] theorem State.modCore_triads (s : State) (c : Nat) (g : Core → Core) : (s.modCore c g).triads = s.triads := rfl
@[simp] theorem State.modCore_slots (s : State) (c : Nat) (g : Core → Core) : (s.modCore c g).slots = s.slots := rfl
@[simp] theorem State.modCore_modes (s : State) (c : Nat) (g : Core → Core) : (s.modCore c g).modes = s.modes := rfl
@[simp] theorem State.modCore_units (s : State) (c : Nat) (g : Core → Core) : (s.modCore c g).units = s.units := rfl
@[simp] theorem State.modCore_zeroed (s : State) (c : Nat) (g : Core → Core) : (s.modCore c g).zeroed = s.zeroed := rfl
@[simp] theorem State.modCore_tiles (s : State) (c : Nat) (g : Core → Core) : (s.modCore c g).tiles = s.tiles := rfl
@[simp] theorem State.modCore_wbufs (s : State) (c : Nat) (g : Core → Core) : (s.modCore c g).wbufs = s.wbufs := rfl
@[simp] theorem State.modCore_bank (s : State) (c : Nat) (g : Core → Core) : (s.modCore c g).bank = s.bank := rfl
@[simp] theorem State.modCore_topos (s : State) (c : Nat) (g : Core → Core) : (s.modCore c g).topos = s.topos := rfl
@[simp] theorem State.modCore_meshes (s : State) (c : Nat) (g : Core → Core) : (s.modCore c g).meshes = s.meshes := rfl
@[simp] theorem State.modCore_queues (s : State) (c : Nat) (g : Core → Core) : (s.modCore c g).queues = s.queues := rfl
@[simp] theorem State.modCore_entries (s : State) (c : Nat) (g : Core → Core) : (s.modCore c g).entries = s.entries := rfl
@[simp] theorem State.modCore_gangs (s : State) (c : Nat) (g : Core → Core) : (s.modCore c g).gangs = s.gangs := rfl
@[simp] theorem State.modCore_lastQueue (s : State) (c : Nat) (g : Core → Core) : (s.modCore c g).lastQueue = s.lastQueue := rfl
@[simp] theorem State.modCore_deny (s : State) (c : Nat) (g : Core → Core) : (s.modCore c g).deny = s.deny := rfl
@[simp] theorem State.modCore_denyLost (s : State) (c : Nat) (g : Core → Core) : (s.modCore c g).denyLost = s.denyLost := rfl
@[simp] theorem State.modCore_keys (s : State) (c : Nat) (g : Core → Core) : (s.modCore c g).keys = s.keys := rfl
@[simp] theorem State.modCore_fab (s : State) (c : Nat) (g : Core → Core) : (s.modCore c g).fab = s.fab := rfl
@[simp] theorem State.modCore_io (s : State) (c : Nat) (g : Core → Core) : (s.modCore c g).io = s.io := rfl
@[simp] theorem State.modCore_cur (s : State) (c : Nat) (g : Core → Core) : (s.modCore c g).cur = s.cur := rfl
@[simp] theorem State.modCore_occ (s : State) (c : Nat) (g : Core → Core) : (s.modCore c g).occ = s.occ := rfl
@[simp] theorem State.modCore_agenda (s : State) (c : Nat) (g : Core → Core) : (s.modCore c g).agenda = s.agenda := rfl
@[simp] theorem State.modCore_turn (s : State) (c : Nat) (g : Core → Core) : (s.modCore c g).turn = s.turn := rfl
@[simp] theorem State.modCore_fresh (s : State) (c : Nat) (g : Core → Core) : (s.modCore c g).fresh = s.fresh := rfl
@[simp] theorem State.modCore_serial (s : State) (c : Nat) (g : Core → Core) : (s.modCore c g).serial = s.serial := rfl

@[simp] theorem State.modSlot_mem (s : State) (k : Nat) (g : Slot → Slot) : (s.modSlot k g).mem = s.mem := rfl
@[simp] theorem State.modSlot_time (s : State) (k : Nat) (g : Slot → Slot) : (s.modSlot k g).time = s.time := rfl
@[simp] theorem State.modSlot_triads (s : State) (k : Nat) (g : Slot → Slot) : (s.modSlot k g).triads = s.triads := rfl
@[simp] theorem State.modSlot_cores (s : State) (k : Nat) (g : Slot → Slot) : (s.modSlot k g).cores = s.cores := rfl
@[simp] theorem State.modSlot_modes (s : State) (k : Nat) (g : Slot → Slot) : (s.modSlot k g).modes = s.modes := rfl
@[simp] theorem State.modSlot_units (s : State) (k : Nat) (g : Slot → Slot) : (s.modSlot k g).units = s.units := rfl
@[simp] theorem State.modSlot_zeroed (s : State) (k : Nat) (g : Slot → Slot) : (s.modSlot k g).zeroed = s.zeroed := rfl
@[simp] theorem State.modSlot_tiles (s : State) (k : Nat) (g : Slot → Slot) : (s.modSlot k g).tiles = s.tiles := rfl
@[simp] theorem State.modSlot_wbufs (s : State) (k : Nat) (g : Slot → Slot) : (s.modSlot k g).wbufs = s.wbufs := rfl
@[simp] theorem State.modSlot_bank (s : State) (k : Nat) (g : Slot → Slot) : (s.modSlot k g).bank = s.bank := rfl
@[simp] theorem State.modSlot_topos (s : State) (k : Nat) (g : Slot → Slot) : (s.modSlot k g).topos = s.topos := rfl
@[simp] theorem State.modSlot_meshes (s : State) (k : Nat) (g : Slot → Slot) : (s.modSlot k g).meshes = s.meshes := rfl
@[simp] theorem State.modSlot_queues (s : State) (k : Nat) (g : Slot → Slot) : (s.modSlot k g).queues = s.queues := rfl
@[simp] theorem State.modSlot_entries (s : State) (k : Nat) (g : Slot → Slot) : (s.modSlot k g).entries = s.entries := rfl
@[simp] theorem State.modSlot_gangs (s : State) (k : Nat) (g : Slot → Slot) : (s.modSlot k g).gangs = s.gangs := rfl
@[simp] theorem State.modSlot_lastQueue (s : State) (k : Nat) (g : Slot → Slot) : (s.modSlot k g).lastQueue = s.lastQueue := rfl
@[simp] theorem State.modSlot_deny (s : State) (k : Nat) (g : Slot → Slot) : (s.modSlot k g).deny = s.deny := rfl
@[simp] theorem State.modSlot_denyLost (s : State) (k : Nat) (g : Slot → Slot) : (s.modSlot k g).denyLost = s.denyLost := rfl
@[simp] theorem State.modSlot_keys (s : State) (k : Nat) (g : Slot → Slot) : (s.modSlot k g).keys = s.keys := rfl
@[simp] theorem State.modSlot_fab (s : State) (k : Nat) (g : Slot → Slot) : (s.modSlot k g).fab = s.fab := rfl
@[simp] theorem State.modSlot_io (s : State) (k : Nat) (g : Slot → Slot) : (s.modSlot k g).io = s.io := rfl
@[simp] theorem State.modSlot_cur (s : State) (k : Nat) (g : Slot → Slot) : (s.modSlot k g).cur = s.cur := rfl
@[simp] theorem State.modSlot_occ (s : State) (k : Nat) (g : Slot → Slot) : (s.modSlot k g).occ = s.occ := rfl
@[simp] theorem State.modSlot_agenda (s : State) (k : Nat) (g : Slot → Slot) : (s.modSlot k g).agenda = s.agenda := rfl
@[simp] theorem State.modSlot_turn (s : State) (k : Nat) (g : Slot → Slot) : (s.modSlot k g).turn = s.turn := rfl
@[simp] theorem State.modSlot_fresh (s : State) (k : Nat) (g : Slot → Slot) : (s.modSlot k g).fresh = s.fresh := rfl
@[simp] theorem State.modSlot_serial (s : State) (k : Nat) (g : Slot → Slot) : (s.modSlot k g).serial = s.serial := rfl

@[simp] theorem State.modVec_mem (s : State) (g : VecState → VecState) : (s.modVec g).mem = s.mem := rfl
@[simp] theorem State.modVec_time (s : State) (g : VecState → VecState) : (s.modVec g).time = s.time := rfl
@[simp] theorem State.modVec_triads (s : State) (g : VecState → VecState) : (s.modVec g).triads = s.triads := rfl
@[simp] theorem State.modVec_cores (s : State) (g : VecState → VecState) : (s.modVec g).cores = s.cores := rfl
@[simp] theorem State.modVec_modes (s : State) (g : VecState → VecState) : (s.modVec g).modes = s.modes := rfl
@[simp] theorem State.modVec_units (s : State) (g : VecState → VecState) : (s.modVec g).units = s.units := rfl
@[simp] theorem State.modVec_zeroed (s : State) (g : VecState → VecState) : (s.modVec g).zeroed = s.zeroed := rfl
@[simp] theorem State.modVec_tiles (s : State) (g : VecState → VecState) : (s.modVec g).tiles = s.tiles := rfl
@[simp] theorem State.modVec_wbufs (s : State) (g : VecState → VecState) : (s.modVec g).wbufs = s.wbufs := rfl
@[simp] theorem State.modVec_bank (s : State) (g : VecState → VecState) : (s.modVec g).bank = s.bank := rfl
@[simp] theorem State.modVec_topos (s : State) (g : VecState → VecState) : (s.modVec g).topos = s.topos := rfl
@[simp] theorem State.modVec_meshes (s : State) (g : VecState → VecState) : (s.modVec g).meshes = s.meshes := rfl
@[simp] theorem State.modVec_queues (s : State) (g : VecState → VecState) : (s.modVec g).queues = s.queues := rfl
@[simp] theorem State.modVec_entries (s : State) (g : VecState → VecState) : (s.modVec g).entries = s.entries := rfl
@[simp] theorem State.modVec_gangs (s : State) (g : VecState → VecState) : (s.modVec g).gangs = s.gangs := rfl
@[simp] theorem State.modVec_lastQueue (s : State) (g : VecState → VecState) : (s.modVec g).lastQueue = s.lastQueue := rfl
@[simp] theorem State.modVec_deny (s : State) (g : VecState → VecState) : (s.modVec g).deny = s.deny := rfl
@[simp] theorem State.modVec_denyLost (s : State) (g : VecState → VecState) : (s.modVec g).denyLost = s.denyLost := rfl
@[simp] theorem State.modVec_keys (s : State) (g : VecState → VecState) : (s.modVec g).keys = s.keys := rfl
@[simp] theorem State.modVec_fab (s : State) (g : VecState → VecState) : (s.modVec g).fab = s.fab := rfl
@[simp] theorem State.modVec_io (s : State) (g : VecState → VecState) : (s.modVec g).io = s.io := rfl
@[simp] theorem State.modVec_cur (s : State) (g : VecState → VecState) : (s.modVec g).cur = s.cur := rfl
@[simp] theorem State.modVec_occ (s : State) (g : VecState → VecState) : (s.modVec g).occ = s.occ := rfl
@[simp] theorem State.modVec_agenda (s : State) (g : VecState → VecState) : (s.modVec g).agenda = s.agenda := rfl
@[simp] theorem State.modVec_turn (s : State) (g : VecState → VecState) : (s.modVec g).turn = s.turn := rfl
@[simp] theorem State.modVec_fresh (s : State) (g : VecState → VecState) : (s.modVec g).fresh = s.fresh := rfl
@[simp] theorem State.modVec_serial (s : State) (g : VecState → VecState) : (s.modVec g).serial = s.serial := rfl

@[simp] theorem State.modQueue_mem (s : State) (q : Nat) (g : Queue → Queue) : (s.modQueue q g).mem = s.mem := rfl
@[simp] theorem State.modQueue_time (s : State) (q : Nat) (g : Queue → Queue) : (s.modQueue q g).time = s.time := rfl
@[simp] theorem State.modQueue_triads (s : State) (q : Nat) (g : Queue → Queue) : (s.modQueue q g).triads = s.triads := rfl
@[simp] theorem State.modQueue_slots (s : State) (q : Nat) (g : Queue → Queue) : (s.modQueue q g).slots = s.slots := rfl
@[simp] theorem State.modQueue_cores (s : State) (q : Nat) (g : Queue → Queue) : (s.modQueue q g).cores = s.cores := rfl
@[simp] theorem State.modQueue_modes (s : State) (q : Nat) (g : Queue → Queue) : (s.modQueue q g).modes = s.modes := rfl
@[simp] theorem State.modQueue_units (s : State) (q : Nat) (g : Queue → Queue) : (s.modQueue q g).units = s.units := rfl
@[simp] theorem State.modQueue_zeroed (s : State) (q : Nat) (g : Queue → Queue) : (s.modQueue q g).zeroed = s.zeroed := rfl
@[simp] theorem State.modQueue_tiles (s : State) (q : Nat) (g : Queue → Queue) : (s.modQueue q g).tiles = s.tiles := rfl
@[simp] theorem State.modQueue_wbufs (s : State) (q : Nat) (g : Queue → Queue) : (s.modQueue q g).wbufs = s.wbufs := rfl
@[simp] theorem State.modQueue_bank (s : State) (q : Nat) (g : Queue → Queue) : (s.modQueue q g).bank = s.bank := rfl
@[simp] theorem State.modQueue_topos (s : State) (q : Nat) (g : Queue → Queue) : (s.modQueue q g).topos = s.topos := rfl
@[simp] theorem State.modQueue_meshes (s : State) (q : Nat) (g : Queue → Queue) : (s.modQueue q g).meshes = s.meshes := rfl
@[simp] theorem State.modQueue_entries (s : State) (q : Nat) (g : Queue → Queue) : (s.modQueue q g).entries = s.entries := rfl
@[simp] theorem State.modQueue_gangs (s : State) (q : Nat) (g : Queue → Queue) : (s.modQueue q g).gangs = s.gangs := rfl
@[simp] theorem State.modQueue_lastQueue (s : State) (q : Nat) (g : Queue → Queue) : (s.modQueue q g).lastQueue = s.lastQueue := rfl
@[simp] theorem State.modQueue_deny (s : State) (q : Nat) (g : Queue → Queue) : (s.modQueue q g).deny = s.deny := rfl
@[simp] theorem State.modQueue_denyLost (s : State) (q : Nat) (g : Queue → Queue) : (s.modQueue q g).denyLost = s.denyLost := rfl
@[simp] theorem State.modQueue_keys (s : State) (q : Nat) (g : Queue → Queue) : (s.modQueue q g).keys = s.keys := rfl
@[simp] theorem State.modQueue_fab (s : State) (q : Nat) (g : Queue → Queue) : (s.modQueue q g).fab = s.fab := rfl
@[simp] theorem State.modQueue_io (s : State) (q : Nat) (g : Queue → Queue) : (s.modQueue q g).io = s.io := rfl
@[simp] theorem State.modQueue_cur (s : State) (q : Nat) (g : Queue → Queue) : (s.modQueue q g).cur = s.cur := rfl
@[simp] theorem State.modQueue_occ (s : State) (q : Nat) (g : Queue → Queue) : (s.modQueue q g).occ = s.occ := rfl
@[simp] theorem State.modQueue_agenda (s : State) (q : Nat) (g : Queue → Queue) : (s.modQueue q g).agenda = s.agenda := rfl
@[simp] theorem State.modQueue_turn (s : State) (q : Nat) (g : Queue → Queue) : (s.modQueue q g).turn = s.turn := rfl
@[simp] theorem State.modQueue_fresh (s : State) (q : Nat) (g : Queue → Queue) : (s.modQueue q g).fresh = s.fresh := rfl
@[simp] theorem State.modQueue_serial (s : State) (q : Nat) (g : Queue → Queue) : (s.modQueue q g).serial = s.serial := rfl

@[simp] theorem State.modFab_mem (s : State) (g : Fabric → Fabric) : (s.modFab g).mem = s.mem := rfl
@[simp] theorem State.modFab_time (s : State) (g : Fabric → Fabric) : (s.modFab g).time = s.time := rfl
@[simp] theorem State.modFab_triads (s : State) (g : Fabric → Fabric) : (s.modFab g).triads = s.triads := rfl
@[simp] theorem State.modFab_slots (s : State) (g : Fabric → Fabric) : (s.modFab g).slots = s.slots := rfl
@[simp] theorem State.modFab_cores (s : State) (g : Fabric → Fabric) : (s.modFab g).cores = s.cores := rfl
@[simp] theorem State.modFab_modes (s : State) (g : Fabric → Fabric) : (s.modFab g).modes = s.modes := rfl
@[simp] theorem State.modFab_units (s : State) (g : Fabric → Fabric) : (s.modFab g).units = s.units := rfl
@[simp] theorem State.modFab_zeroed (s : State) (g : Fabric → Fabric) : (s.modFab g).zeroed = s.zeroed := rfl
@[simp] theorem State.modFab_tiles (s : State) (g : Fabric → Fabric) : (s.modFab g).tiles = s.tiles := rfl
@[simp] theorem State.modFab_wbufs (s : State) (g : Fabric → Fabric) : (s.modFab g).wbufs = s.wbufs := rfl
@[simp] theorem State.modFab_bank (s : State) (g : Fabric → Fabric) : (s.modFab g).bank = s.bank := rfl
@[simp] theorem State.modFab_topos (s : State) (g : Fabric → Fabric) : (s.modFab g).topos = s.topos := rfl
@[simp] theorem State.modFab_meshes (s : State) (g : Fabric → Fabric) : (s.modFab g).meshes = s.meshes := rfl
@[simp] theorem State.modFab_queues (s : State) (g : Fabric → Fabric) : (s.modFab g).queues = s.queues := rfl
@[simp] theorem State.modFab_entries (s : State) (g : Fabric → Fabric) : (s.modFab g).entries = s.entries := rfl
@[simp] theorem State.modFab_gangs (s : State) (g : Fabric → Fabric) : (s.modFab g).gangs = s.gangs := rfl
@[simp] theorem State.modFab_lastQueue (s : State) (g : Fabric → Fabric) : (s.modFab g).lastQueue = s.lastQueue := rfl
@[simp] theorem State.modFab_deny (s : State) (g : Fabric → Fabric) : (s.modFab g).deny = s.deny := rfl
@[simp] theorem State.modFab_denyLost (s : State) (g : Fabric → Fabric) : (s.modFab g).denyLost = s.denyLost := rfl
@[simp] theorem State.modFab_keys (s : State) (g : Fabric → Fabric) : (s.modFab g).keys = s.keys := rfl
@[simp] theorem State.modFab_io (s : State) (g : Fabric → Fabric) : (s.modFab g).io = s.io := rfl
@[simp] theorem State.modFab_cur (s : State) (g : Fabric → Fabric) : (s.modFab g).cur = s.cur := rfl
@[simp] theorem State.modFab_occ (s : State) (g : Fabric → Fabric) : (s.modFab g).occ = s.occ := rfl
@[simp] theorem State.modFab_agenda (s : State) (g : Fabric → Fabric) : (s.modFab g).agenda = s.agenda := rfl
@[simp] theorem State.modFab_turn (s : State) (g : Fabric → Fabric) : (s.modFab g).turn = s.turn := rfl
@[simp] theorem State.modFab_fresh (s : State) (g : Fabric → Fabric) : (s.modFab g).fresh = s.fresh := rfl
@[simp] theorem State.modFab_serial (s : State) (g : Fabric → Fabric) : (s.modFab g).serial = s.serial := rfl

end Sys2Proof.Machine
end

