-- ==== Sys2Proof/Laws/Regs.lean ====
section
/-! SUPPORT. Registers and threads: a read after a write, and what a write leaves alone. -/

namespace Sys2Proof.Machine

/-! Roles of a triad. -/

@[simp] theorem Triad.role_setRole_same (t : Triad) (r : Role) (v : RoleState) : (t.setRole r v).role r = v := by cases r <;> rfl

@[simp] theorem Triad.role_setRole_ne (t : Triad) {q r : Role} (h : q ≠ r) (v : RoleState) : (t.setRole r v).role q = t.role q := by
  cases q <;> cases r <;> simp_all [Triad.setRole, Triad.role]

@[simp] theorem RoleState.xr_zero (r : RoleState) : r.xr 0 = 0 := rfl

@[simp] theorem RoleState.xr_setXr_same (r : RoleState) {n : Nat} (h : n ≠ 0) (v : Word) : (r.setXr n v).xr n = v := by
  simp [RoleState.xr, RoleState.setXr, h]

@[simp] theorem RoleState.xr_setXr_ne (r : RoleState) {m n : Nat} (h : m ≠ n) (v : Word) : (r.setXr n v).xr m = r.xr m := by
  unfold RoleState.xr RoleState.setXr; split <;> [rfl; split] <;> simp_all

@[simp] theorem RoleState.setXr_zero (r : RoleState) (v : Word) : r.setXr 0 v = r := rfl

@[simp] theorem RoleState.setXr_pc (r : RoleState) (n : Nat) (v : Word) : (r.setXr n v).pc = r.pc := by
  unfold RoleState.setXr; split <;> rfl
@[simp] theorem RoleState.setXr_blkBase (r : RoleState) (n : Nat) (v : Word) : (r.setXr n v).blkBase = r.blkBase := by
  unfold RoleState.setXr; split <;> rfl
@[simp] theorem RoleState.setXr_blk (r : RoleState) (n : Nat) (v : Word) : (r.setXr n v).blk = r.blk := by
  unfold RoleState.setXr; split <;> rfl
@[simp] theorem RoleState.setXr_vl (r : RoleState) (n : Nat) (v : Word) : (r.setXr n v).vl = r.vl := by
  unfold RoleState.setXr; split <;> rfl
@[simp] theorem RoleState.setXr_priv (r : RoleState) (n : Nat) (v : Word) : (r.setXr n v).priv = r.priv := by
  unfold RoleState.setXr; split <;> rfl
@[simp] theorem RoleState.setXr_ended (r : RoleState) (n : Nat) (v : Word) : (r.setXr n v).ended = r.ended := by
  unfold RoleState.setXr; split <;> rfl
@[simp] theorem RoleState.setXr_inHandler (r : RoleState) (n : Nat) (v : Word) : (r.setXr n v).inHandler = r.inHandler := by
  unfold RoleState.setXr; split <;> rfl
@[simp] theorem RoleState.setXr_trap (r : RoleState) (n : Nat) (v : Word) : (r.setXr n v).trap = r.trap := by
  unfold RoleState.setXr; split <;> rfl
@[simp] theorem RoleState.setXr_async (r : RoleState) (n : Nat) (v : Word) : (r.setXr n v).async = r.async := by
  unfold RoleState.setXr; split <;> rfl
@[simp] theorem RoleState.setXr_bank (r : RoleState) (n : Nat) (v : Word) : (r.setXr n v).bank = r.bank := by
  unfold RoleState.setXr; split <;> rfl
@[simp] theorem RoleState.setXr_stall (r : RoleState) (n : Nat) (v : Word) : (r.setXr n v).stall = r.stall := by
  unfold RoleState.setXr; split <;> rfl
@[simp] theorem RoleState.setXr_resume (r : RoleState) (n : Nat) (v : Word) : (r.setXr n v).resume = r.resume := by
  unfold RoleState.setXr; split <;> rfl

@[simp] theorem RoleState.lastWord_setXr (r : RoleState) (n : Nat) (v : Word) : (r.setXr n v).lastWord = r.lastWord := by
  simp [RoleState.lastWord]
@[simp] theorem RoleState.successor_setXr (r : RoleState) (n : Nat) (v : Word) : (r.setXr n v).successor = r.successor := by
  simp [RoleState.successor]

@[simp] theorem RoleState.xr_settle (r : RoleState) (n : Nat) : r.settle.xr n = r.xr n := rfl
@[simp] theorem RoleState.xr_advance (r : RoleState) (n : Nat) : r.advance.xr n = r.xr n := rfl
@[simp] theorem RoleState.xr_goto (r : RoleState) (a : Word) (n : Nat) : (r.goto a).xr n = r.xr n := rfl
@[simp] theorem RoleState.advance_pc (r : RoleState) : r.advance.pc = r.successor := rfl
@[simp] theorem RoleState.advance_vl (r : RoleState) : r.advance.vl = r.vl := rfl
@[simp] theorem RoleState.advance_priv (r : RoleState) : r.advance.priv = r.priv := rfl
@[simp] theorem RoleState.advance_stall (r : RoleState) : r.advance.stall = none := rfl
@[simp] theorem RoleState.goto_pc (r : RoleState) (a : Word) : (r.goto a).pc = a := rfl
@[simp] theorem RoleState.goto_stall (r : RoleState) (a : Word) : (r.goto a).stall = none := rfl

/-! Triads and threads of the device. -/

theorem State.triad_modTriad (s : State) (c : Nat) (g : Triad → Triad) (h : s.Has c) :
    (s.modTriad c g).triad c = g (s.triad c) := by
  unfold State.Has at h
  cases e : tfind c s.triads with
  | none => simp [e] at h
  | some t => simp [State.modTriad, State.triad, e, tget]

@[simp] theorem State.triad_modTriad_ne (s : State) {b c : Nat} (n : b ≠ c) (g : Triad → Triad) :
    (s.modTriad c g).triad b = s.triad b := by
  unfold State.modTriad; split <;> simp [State.triad, n]

@[simp] theorem State.has_modTriad (s : State) (b c : Nat) (g : Triad → Triad) : (s.modTriad c g).Has b ↔ s.Has b := by
  unfold State.Has State.modTriad; split <;> simp_all [tfind_tset] ; grind

@[simp] theorem State.has_modRole (s : State) (b : Nat) (u : Tid) (g : RoleState → RoleState) : (s.modRole u g).Has b ↔ s.Has b := by
  simp [State.modRole]
@[simp] theorem State.has_modTr (s : State) (b : Nat) (g : Triad → Triad) : (s.modTr g).Has b ↔ s.Has b := by simp [State.modTr]
@[simp] theorem State.has_modTh (s : State) (b : Nat) (g : RoleState → RoleState) : (s.modTh g).Has b ↔ s.Has b := by simp [State.modTh]
@[simp] theorem State.has_setX (s : State) (b : Nat) (n : BitVec 6) (v : Word) : (s.setX n v).Has b ↔ s.Has b := by simp [State.setX]
@[simp] theorem State.has_advance (s : State) (b : Nat) : s.advance.Has b ↔ s.Has b := by simp [State.advance]

theorem State.tr_modTr (s : State) (g : Triad → Triad) (h : s.Has s.cur.ctxn) : (s.modTr g).tr = g s.tr := by
  simpa [State.tr, State.modTr] using s.triad_modTriad s.cur.ctxn g h

theorem State.tr_modTh (s : State) (g : RoleState → RoleState) (h : s.Has s.cur.ctxn) :
    (s.modTh g).tr = s.tr.setRole s.cur.role (g s.th) := by
  have e : (s.modTh g).tr = (s.modTriad s.cur.ctxn fun tr => tr.setRole s.cur.role (g (tr.role s.cur.role))).triad s.cur.ctxn := by
    simp [State.tr, State.modTh, State.modRole]
  rw [e, s.triad_modTriad _ _ h]; rfl

theorem State.th_modTh (s : State) (g : RoleState → RoleState) (h : s.Has s.cur.ctxn) : (s.modTh g).th = g s.th := by
  have e : (s.modTh g).th = (s.modTh g).tr.role s.cur.role := by simp [State.th, State.tr, State.thread]
  rw [e, s.tr_modTh g h]; simp

/-- Another role of the same triad, or a role of another triad, is not touched by what the current thread does to itself. -/
theorem State.thread_modTh_ne (s : State) (g : RoleState → RoleState) {u : Tid} (h : u ≠ s.cur) : (s.modTh g).thread u = s.thread u := by
  obtain ⟨c, r⟩ := u
  by_cases hc : c = s.cur.ctxn
  · subst hc
    have hr : r ≠ s.cur.role := fun e => h (by cases s.cur; simp_all)
    unfold State.thread State.modTh State.modRole
    by_cases hh : s.Has s.cur.ctxn
    · rw [s.triad_modTriad _ _ hh]; simp [hr]
    · have e : tfind s.cur.ctxn s.triads = none := by simpa [State.Has] using hh
      simp [State.modTriad, e]
  · simp [State.thread, State.modTh, State.modRole, hc]

theorem State.x_setX_same (s : State) (n : BitVec 6) (v : Word) (h : s.Has s.cur.ctxn) (hn : n ≠ 0#6) : (s.setX n v).x n = v := by
  have hz : n.toNat ≠ 0 := fun e => hn (BitVec.eq_of_toNat_eq (by simpa using e))
  have e : (s.setX n v).x n = (s.modTh fun r => r.setXr n.toNat v).th.xr n.toNat := rfl
  rw [e, s.th_modTh _ h]; simp [hz]

theorem State.x_setX_ne (s : State) {m n : BitVec 6} (v : Word) (h : s.Has s.cur.ctxn) (hn : m ≠ n) : (s.setX n v).x m = s.x m := by
  have hz : m.toNat ≠ n.toNat := fun e => hn (BitVec.eq_of_toNat_eq e)
  have e : (s.setX n v).x m = (s.modTh fun r => r.setXr n.toNat v).th.xr m.toNat := rfl
  rw [e, s.th_modTh _ h]; simp [hz, State.x]

@[simp] theorem State.x_zero (s : State) : s.x 0#6 = 0 := rfl

/-- `done` in one thread update: the register written and the pc at the successor. -/
theorem State.done_eq (s : State) (n : BitVec 6) (v : Word) (h : s.Has s.cur.ctxn) :
    (s.done n v).th = (s.th.setXr n.toNat v).advance := by
  have h' : (s.setX n v).Has (s.setX n v).cur.ctxn := by simpa using h
  have e1 : (s.setX n v).th = s.th.setXr n.toNat v := s.th_modTh _ h
  rw [State.done, State.advance, State.th_modTh _ _ h', e1]

/-- Everything that `done` does to the current thread's triad. -/
theorem State.done_tr (s : State) (n : BitVec 6) (v : Word) (h : s.Has s.cur.ctxn) :
    (s.done n v).tr = s.tr.setRole s.cur.role (s.th.setXr n.toNat v).advance := by
  have h' : (s.setX n v).Has (s.setX n v).cur.ctxn := by simpa using h
  have e1 : (s.setX n v).th = s.th.setXr n.toNat v := s.th_modTh _ h
  have e2 : (s.setX n v).tr = s.tr.setRole s.cur.role (s.th.setXr n.toNat v) := s.tr_modTh _ h
  rw [State.done, State.advance, State.tr_modTh _ _ h', e1, e2, State.setX_cur]
  cases s.cur.role <;> rfl

theorem State.x_done_same (s : State) (n : BitVec 6) (v : Word) (h : s.Has s.cur.ctxn) (hn : n ≠ 0#6) : (s.done n v).x n = v := by
  have hz : n.toNat ≠ 0 := fun e => hn (BitVec.eq_of_toNat_eq (by simpa using e))
  simp [State.x, s.done_eq n v h, hz]

theorem State.x_done_ne (s : State) {m n : BitVec 6} (v : Word) (h : s.Has s.cur.ctxn) (hn : m ≠ n) : (s.done n v).x m = s.x m := by
  have hz : m.toNat ≠ n.toNat := fun e => hn (BitVec.eq_of_toNat_eq e)
  simp [State.x, s.done_eq n v h, hz]

theorem State.pc_done (s : State) (n : BitVec 6) (v : Word) (h : s.Has s.cur.ctxn) : (s.done n v).th.pc = s.th.successor := by
  simp [s.done_eq n v h]

theorem State.thread_done_ne (s : State) (n : BitVec 6) (v : Word) {u : Tid} (h : u ≠ s.cur) : (s.done n v).thread u = s.thread u := by
  have h2 : u ≠ (s.setX n v).cur := by simpa using h
  rw [State.done, State.advance, State.thread_modTh_ne _ _ h2]
  exact s.thread_modTh_ne _ h

end Sys2Proof.Machine
end

