-- ==== Sys2Proof/Laws/Ops.lean ====
section
/-! SUPPORT. What the shared operations do, said once: the end of an instruction (`advance`, `goto`, `done`), the merge of events
and `finish`. -/

namespace Sys2Proof.Machine

theorem State.modTriad_device (s : State) (c : Nat) (g : Triad → Triad) :
    s.modTriad c g = { s with triads := (s.modTriad c g).triads } := by
  unfold State.modTriad; split <;> rfl

/-- Changing the current triad touches nothing else of the device. -/
theorem onlyTriad_modTr (s : State) (g : Triad → Triad) : OnlyTriad s (s.modTr g) where
  device := s.modTriad_device _ _
  others := fun c hc => by simp [State.modTr, hc]
  bytes := fun a => by simp

theorem onlyTriad_modTh (s : State) (g : RoleState → RoleState) : OnlyTriad s (s.modTh g) where
  device := s.modTriad_device _ _
  others := fun c hc => by simp [State.modTh, State.modRole, hc]
  bytes := fun a => by simp

theorem OnlyTriad.refl (s : State) : OnlyTriad s s := ⟨rfl, fun _ _ => rfl, fun _ => rfl⟩

theorem OnlyTriad.cur {s t : State} (h : OnlyTriad s t) : t.cur = s.cur := by rw [h.device]

theorem OnlyTriad.trans {s t u : State} (h : OnlyTriad s t) (k : OnlyTriad t u) : OnlyTriad s u where
  device := by have a := h.device; have b := k.device; rw [a] at b; exact b
  others := fun c hc => by rw [k.others c (by rw [h.cur]; exact hc), h.others c hc]
  bytes := fun a => (k.bytes a).trans (h.bytes a)

/-- Changing the current thread touches nothing of its triad but the thread's role. -/
theorem onlyThread_modTh (s : State) (g : RoleState → RoleState) (h : s.Started) : OnlyThread s (s.modTh g) where
  toOnlyTriad := onlyTriad_modTh s g
  triad := by rw [s.tr_modTh g h, s.th_modTh g h]

theorem started_modTh {s : State} (g : RoleState → RoleState) (h : s.Started) : (s.modTh g).Started := by
  unfold State.Started at *; simpa using h

theorem started_modTr {s : State} (g : Triad → Triad) (h : s.Started) : (s.modTr g).Started := by
  unfold State.Started at *; simpa using h

theorem State.advance_th (s : State) (h : s.Started) : s.advance.th = s.th.advance := s.th_modTh _ h

theorem State.goto_th (s : State) (a : Word) (h : s.Started) : (s.goto a).th = s.th.goto a := s.th_modTh _ h

/-- `advance`: the thread goes on at the successor of its word, and nothing else changes. -/
theorem advances (s : State) (h : s.Started) : OnlyThread s s.advance ∧ StandsAt s s.advance s.th.successor [] := by
  refine ⟨onlyThread_modTh s _ h, ?_, fun n _ => ?_, ?_⟩
  · rw [s.advance_th h]; rfl
  · simp [State.x, s.advance_th h]
  · rw [s.advance_th h]; rfl

/-- `goto`: the thread goes on at the target, and nothing else changes. -/
theorem goes (s : State) (a : Word) (h : s.Started) : OnlyThread s (s.goto a) ∧ StandsAt s (s.goto a) a [] := by
  refine ⟨onlyThread_modTh s _ h, ?_, fun n _ => ?_, ?_⟩
  · rw [s.goto_th a h]; rfl
  · simp [State.x, s.goto_th a h]
  · rw [s.goto_th a h]; rfl

theorem State.done_device (s : State) (d : BitVec 6) (v : Word) : OnlyTriad s (s.done d v) :=
  (onlyTriad_modTh s _).trans (onlyTriad_modTh _ _)

/-- `done`: the register is written, the thread goes on at the successor of its word, and nothing else changes. -/
theorem writes_done (s : State) (d : BitVec 6) (v : Word) (h : s.Started) : Writes s (s.done d v) d v where
  toOnlyTriad := s.done_device d v
  triad := by rw [s.done_tr d v h, s.done_eq d v h]
  pc := s.pc_done d v h
  regs := fun n hn => s.x_done_ne v h (by simpa using hn)
  role := by
    rw [s.done_eq d v h]
    by_cases hd : d.toNat = 0 <;> simp [RoleState.advance, RoleState.settle, RoleState.setXr, hd]
  value := by
    by_cases hd : d = 0#6
    · subst hd; simp
    · simp [hd, s.x_done_same d v h hd]

@[simp] theorem Triad.role_merge (t : Triad) (e : Evs) (r : Role) : (t.merge e).role r = t.role r := by cases r <;> rfl

theorem enabled_merge (v : Word) (e : Ev) : enabled (v ||| BitVec.setWidth 64 e) = enabled v := by
  unfold enabled; ext i hi
  have : e.getLsbD (8 + i) = false := BitVec.getLsbD_of_ge _ _ (by omega)
  simp [BitVec.getElem_extractLsb', this]

theorem eixMerge_get (l : List Word) (e : Evs) {c : Nat} (h : c < 6) :
    (List.map (fun c => eixMerge (l.getD c 0) (e.ev.getLsbD c) (e.ix.getD c 0)) (nrange 0 6)).getD c 0 =
      eixMerge (l.getD c 0) (e.ev.getLsbD c) (e.ix.getD c 0) := by
  obtain rfl | rfl | rfl | rfl | rfl | rfl : c = 0 ∨ c = 1 ∨ c = 2 ∨ c = 3 ∨ c = 4 ∨ c = 5 := by omega
  all_goals rfl

/-- The current thread after a change of its triad that leaves the roles alone. -/
theorem State.th_modTr (s : State) (g : Triad → Triad) (h : s.Started) (hg : ∀ t r, (g t).role r = t.role r) :
    (s.modTr g).th = s.th := by
  have e : (s.modTr g).th = (s.modTr g).tr.role s.cur.role := by simp [State.th, State.tr, State.thread]
  rw [e, s.tr_modTr g h, hg]; rfl

/-- The state to which a scalar floating-point word comes before its events are merged. -/
def State.fpWrite (s : State) (d : BitVec 6) (bits : Nat) (sr : Bool) : State :=
  let s := s.setX d (BitVec.ofNat 64 bits)
  if sr then s.bumpSn 1 else s

theorem fpWrite_facts (s : State) (d : BitVec 6) (bits : Nat) (sr : Bool) (h : s.Started) :
    let t := s.fpWrite d bits sr
    OnlyTriad s t ∧ t.Started ∧ t.cur = s.cur ∧ t.th = s.th.setXr d.toNat (BitVec.ofNat 64 bits) ∧
      t.tr = { s.tr.setRole s.cur.role t.th with sn := if sr then s.tr.sn + 1#64 else s.tr.sn } := by
  have h1 : (s.setX d (BitVec.ofNat 64 bits)).Started := started_modTh _ h
  have e1 : (s.setX d (BitVec.ofNat 64 bits)).th = s.th.setXr d.toNat (BitVec.ofNat 64 bits) := s.th_modTh _ h
  have e2 : (s.setX d (BitVec.ofNat 64 bits)).tr = s.tr.setRole s.cur.role (s.th.setXr d.toNat (BitVec.ofNat 64 bits)) := s.tr_modTh _ h
  cases sr with
  | false =>
    refine ⟨(show OnlyTriad s (s.setX d (BitVec.ofNat 64 bits)) from onlyTriad_modTh s _), h1, by simp [State.fpWrite], e1, ?_⟩
    show (s.setX d (BitVec.ofNat 64 bits)).tr = _
    simp only [State.fpWrite, Bool.false_eq_true, if_false, e1, e2]
    cases s.cur.role <;> rfl
  | true =>
    have e3 : (s.fpWrite d bits true).th = s.th.setXr d.toNat (BitVec.ofNat 64 bits) := by
      show State.th (State.modTr _ _) = _
      rw [State.th_modTr _ _ h1 (fun t r => by cases r <;> rfl), e1]
    refine ⟨(onlyTriad_modTh s _).trans (onlyTriad_modTr _ _), started_modTr _ h1, by simp [State.fpWrite], e3, ?_⟩
    rw [e3]
    show State.tr (State.modTr _ _) = _
    rw [State.tr_modTr _ _ h1, e2]
    cases s.cur.role <;> rfl

/-- A result that a scalar instruction writes before it merges its events, and SN (R50, R57, R115). -/
theorem fpResult_finish (s : State) (f : FmtA) (sr : Bool) (bits : Nat) (ev : Ev) (h : s.Started)
    (he : enabled s.tr.vstat &&& ev = 0) : FpResult s (s.fpDone f sr bits ev) f.xd bits ev sr := by
  obtain ⟨h1, h2, h3, h4, h5⟩ := fpWrite_facts s f.xd bits sr h
  have hm : ((s.fpWrite f.xd bits sr).merge (Evs.none.add ev 0)).Started := started_modTr _ h2
  have hev : (Evs.none.add ev 0).ev = ev := by
    unfold Evs.add; split <;> simp_all [Evs.none]
  have e1 : ((s.fpWrite f.xd bits sr).merge (Evs.none.add ev 0)).tr = (s.fpWrite f.xd bits sr).tr.merge (Evs.none.add ev 0) :=
    State.tr_modTr _ _ h2
  have e2 : ((s.fpWrite f.xd bits sr).merge (Evs.none.add ev 0)).th = (s.fpWrite f.xd bits sr).th :=
    State.th_modTr _ _ h2 (fun t r => Triad.role_merge _ _ _)
  have hen : enabled ((s.fpWrite f.xd bits sr).merge (Evs.none.add ev 0)).tr.vstat &&& (Evs.none.add ev 0).ev = 0 := by
    have hv : (s.fpWrite f.xd bits sr).tr.vstat = s.tr.vstat := by rw [h5]; cases s.cur.role <;> rfl
    rw [e1, hev]; simp only [Triad.merge, hev]; rw [enabled_merge, hv, he]
  have e : s.fpDone f sr bits ev = ((s.fpWrite f.xd bits sr).merge (Evs.none.add ev 0)).advance := by
    show State.finish (s.fpWrite f.xd bits sr) _ = _
    unfold State.finish; simp only [hen, ne_eq, not_true_eq_false, if_false]
  have e3 := State.advance_th _ hm
  rw [e2, h4] at e3
  have e4 := State.tr_modTh _ RoleState.advance hm
  rw [e]
  refine ⟨⟨((h1.trans (onlyTriad_modTr _ _)).trans (onlyTriad_modTh _ _)).device, ?_, ?_⟩, ⟨?_, ?_, ?_⟩, ?_, ?_, ?_⟩
  · exact ((h1.trans (onlyTriad_modTr _ _)).trans (onlyTriad_modTh _ _)).others
  · exact ((h1.trans (onlyTriad_modTr _ _)).trans (onlyTriad_modTh _ _)).bytes
  · rw [e3]; simp
  · intro n hn
    have hz : n.toNat ≠ f.xd.toNat := fun e => hn (by simp [BitVec.eq_of_toNat_eq e])
    simp [State.x, e3, hz]
  · rw [e3]
    by_cases hd : f.xd.toNat = 0 <;> simp [RoleState.advance, RoleState.settle, RoleState.setXr, hd]
  · by_cases hd : f.xd = 0#6
    · simp [hd]
    · have hz : f.xd.toNat ≠ 0 := fun e => hd (BitVec.eq_of_toNat_eq (by simpa using e))
      simp [State.x, e3, hd, hz]
  · have hc : ((s.fpWrite f.xd bits sr).merge (Evs.none.add ev 0)).cur = s.cur := by rw [State.merge, State.modTr_cur, h3]
    have e5 : ((s.fpWrite f.xd bits sr).merge (Evs.none.add ev 0)).advance.tr =
        ((s.fpWrite f.xd bits sr).tr.merge (Evs.none.add ev 0)).setRole s.cur.role
          (s.th.setXr f.xd.toNat (BitVec.ofNat 64 bits)).advance := by
      rw [← e3, ← e1, State.advance_th _ hm, ← hc]; exact e4
    rw [e5, e3, h5, h4]
    cases s.cur.role <;> simp [Triad.merge, Triad.setRole, hev]
  · intro c hc
    have e6 : ((s.fpWrite f.xd bits sr).merge (Evs.none.add ev 0)).advance.tr.eix =
        ((s.fpWrite f.xd bits sr).tr.merge (Evs.none.add ev 0)).eix := by
      show (State.tr (State.modTh _ _)).eix = _
      rw [e4, e1]
      generalize ((s.fpWrite f.xd bits sr).merge (Evs.none.add ev 0)).cur.role = r
      cases r <;> rfl
    have e7 : (s.fpWrite f.xd bits sr).tr.eix = s.tr.eix := by rw [h5]; cases s.cur.role <;> rfl
    have hix : (Evs.none.add ev 0).ix.getD c 0 = 0 := by
      unfold Evs.add; split
      · obtain rfl | rfl | rfl | rfl | rfl | rfl : c = 0 ∨ c = 1 ∨ c = 2 ∨ c = 3 ∨ c = 4 ∨ c = 5 := by omega
        all_goals rfl
      · obtain rfl | rfl | rfl | rfl | rfl | rfl : c = 0 ∨ c = 1 ∨ c = 2 ∨ c = 3 ∨ c = 4 ∨ c = 5 := by omega
        all_goals simp [nrange, Evs.none]
    rw [e6, ← e7]
    refine (eixMerge_get _ _ hc).trans ?_
    rw [hev, hix, eixMerge]
    generalize (s.fpWrite f.xd bits sr).tr.eix.getD c 0 = w
    by_cases a : ev.getLsbD c <;> by_cases b : w.getLsbD 63 <;> simp_all

end Sys2Proof.Machine
end

