-- ==== Sys2Proof/Laws/Phys.lean ====
section
/-! SUPPORT. Physical memory byte by byte: what it holds under a key, and a read after a store (R4, R261, R292). -/

namespace Sys2Proof.Machine

/-- The byte at an address as it reads under a key. -/
def plainByte (m : Mem) (key a : Nat) : Byte := (linePlain m (a / 64) key).getD (a % 64) 0

theorem memRead_eq (m : List Host.Cell) (a n : Nat) : memRead m a n = (nrange a n).map (memByte m) := by
  unfold memRead
  apply List.map_congr_left
  intro x hx
  rw [mem_nrange] at hx
  simp only [memByte, tget]
  rw [tfind_filter x (fun p => decide (a ≤ p) && decide (p < a + n)) m]
  simp [hx.1, hx.2]

theorem nrange_getElem? (a n i : Nat) : (nrange a n)[i]? = if i < n then some (a + i) else none := by
  simp only [nrange, List.getElem?_map]
  by_cases h : i < n <;> simp [h]

theorem memRead_getD (m : List Host.Cell) (a n i : Nat) (h : i < n) : (memRead m a n).getD i 0 = memByte m (a + i) := by
  rw [memRead_eq, List.getD_eq_getElem?_getD, List.getElem?_map, nrange_getElem?]; simp [h]

theorem length_linePlain (m : Mem) (l key : Nat) : (linePlain m l key).length = 64 := by
  unfold linePlain xtsLine; simp only []; split <;> [skip; split <;> [split; skip]] <;> simp [memRead_eq, length_natBytes]

/-- A byte of a line that stands under the key asked for is the stored byte. -/
theorem plainByte_keyed (m : Mem) (key a : Nat) (h : tget 0 (a / 64) m.keyed = key) : plainByte m key a = memByte m.cells a := by
  unfold plainByte linePlain
  simp only [h, if_true]
  rw [memRead_getD _ _ _ _ (Nat.mod_lt _ (by omega))]
  congr 1; omega

/-- A byte of a line depends on nothing but the line. -/
theorem plainByte_congr {m m' : Mem} {a : Nat} (hk : tget 0 (a / 64) m'.keyed = tget 0 (a / 64) m.keyed)
    (hb : ∀ x, x / 64 = a / 64 → memByte m'.cells x = memByte m.cells x) (key : Nat) : plainByte m' key a = plainByte m key a := by
  have e : memRead m'.cells (a / 64 * 64) 64 = memRead m.cells (a / 64 * 64) 64 := by
    rw [memRead_eq, memRead_eq]
    apply List.map_congr_left
    intro x hx
    rw [mem_nrange] at hx
    exact hb x (by omega)
  unfold plainByte linePlain
  simp only [hk, e]

theorem nrange_append (a n k : Nat) : nrange a (n + k) = nrange a n ++ nrange (a + n) k := by
  simp only [nrange, List.range_add, List.map_append, List.map_map, List.append_cancel_left_eq]
  apply List.map_congr_left; intros; simp [Nat.add_assoc]

theorem linePlain_eq (m : Mem) (l key : Nat) : linePlain m l key = (nrange (64 * l) 64).map (plainByte m key) := by
  apply List.ext_getElem? ; intro i
  rw [List.getElem?_map, nrange_getElem?]
  by_cases h : i < 64
  · have : (64 * l + i) / 64 = l := by omega
    have h2 : (64 * l + i) % 64 = i := by omega
    simp only [h, if_true, Option.map_some, plainByte, this, h2, List.getD_eq_getElem?_getD]
    rw [List.getElem?_eq_getElem (by rw [length_linePlain]; exact h)]; simp
  · have := length_linePlain m l key
    simp only [h, if_false, Option.map_none]
    exact List.getElem?_eq_none (by omega)

theorem flatten_lines (m : Mem) (key lo : Nat) : ∀ k, ((nrange lo k).map fun l => linePlain m l key).flatten =
    (nrange (64 * lo) (64 * k)).map (plainByte m key) := by
  intro k
  induction k with
  | zero => rfl
  | succ k ih =>
    rw [nrange_append lo k 1, List.map_append, List.flatten_append, ih, Nat.mul_succ, nrange_append (64 * lo) (64 * k) 64, List.map_append]
    congr 1
    simp only [nrange, List.range_one, List.map_cons, List.map_nil, List.flatten_cons, List.flatten_nil, List.append_nil, Nat.add_zero]
    rw [linePlain_eq]; simp [nrange, Nat.mul_add]

/-- What a read gives, byte by byte. -/
theorem physRead_eq (s : State) (pa n slot : Nat) :
    physRead s pa n slot = (nrange pa n).map (plainByte s.mem (if encrypted s pa then keyId s slot else 0)) := by
  unfold physRead
  generalize (if encrypted s pa = true then keyId s slot else 0) = key
  simp only []
  split
  · next h =>
    rw [memRead_eq]
    apply List.map_congr_left
    intro x hx
    rw [mem_nrange] at hx
    refine (plainByte_keyed _ _ _ ?_).symm
    have hl : x / 64 ∈ linesOf pa n := by
      unfold linesOf; rw [if_neg (by omega), mem_nrange]; omega
    simpa using List.all_eq_true.mp h _ hl
  · unfold linesOf
    by_cases hn : n = 0
    · subst hn; simp [nrange]
    · rw [if_neg hn, flatten_lines, ← List.map_drop, ← List.map_take]
      congr 1
      apply List.ext_getElem?; intro i
      rw [List.getElem?_take, List.getElem?_drop, nrange_getElem?, nrange_getElem?]
      by_cases h : i < n
      · have : pa % 64 + i < 64 * ((pa + n - 1) / 64 + 1 - pa / 64) := by omega
        simp only [h, this, if_true]
        congr 1; omega
      · simp [h]

@[simp] theorem length_physRead (s : State) (pa n slot : Nat) : (physRead s pa n slot).length = n := by
  rw [physRead_eq]; simp

/-- One byte under a key slot. -/
theorem physRead_one (s : State) (a slot : Nat) :
    physRead s a 1 slot = [plainByte s.mem (if encrypted s a then keyId s slot else 0) a] := by
  rw [physRead_eq]; rfl

/-! Stores. -/

theorem tget_keyed_rekey (m : Mem) (l k x : Nat) : tget 0 x (rekey m l k).keyed = if x = l then k else tget 0 x m.keyed := by
  unfold rekey
  by_cases h : tget 0 l m.keyed = k
  · rw [if_pos h]; by_cases e : x = l <;> simp [e, h]
  · rw [if_neg h]
    by_cases e : x = l
    · subst e; by_cases z : k = 0 <;> simp [z, tget]
    · by_cases z : k = 0 <;> simp [z, e, tget]

/-- Bringing a line under a key keeps what it reads under that key, and every other line. -/
theorem plainByte_rekey (m : Mem) (l k key a : Nat) (h : a / 64 ≠ l ∨ key = k) : plainByte (rekey m l k) key a = plainByte m key a := by
  by_cases e : a / 64 = l
  · have hk : key = k := by rcases h with h | h <;> [exact absurd e h; exact h]
    subst hk
    rw [plainByte_keyed _ _ _ (by rw [tget_keyed_rekey, if_pos e])]
    unfold rekey
    by_cases c : tget 0 l m.keyed = key
    · rw [if_pos c, plainByte_keyed _ _ _ (by rw [e]; exact c)]
    · rw [if_neg c]
      simp only []
      rw [memByte_memWrite, length_linePlain, if_pos (by omega)]
      have e2 : a - l * 64 = a % 64 := by omega
      rw [e2]; unfold plainByte; rw [e, List.getD_eq_getElem?_getD]
  · apply plainByte_congr
    · rw [tget_keyed_rekey, if_neg e]
    · intro x hx
      unfold rekey
      by_cases c : tget 0 l m.keyed = k
      · rw [if_pos c]
      · rw [if_neg c]; simp only []
        rw [memByte_memWrite, length_linePlain, if_neg (by omega)]

theorem foldl_rekey_keyed (ls : List Nat) (m : Mem) (k x : Nat) :
    tget 0 x (ls.foldl (fun m l => rekey m l k) m).keyed = if x ∈ ls then k else tget 0 x m.keyed := by
  induction ls generalizing m with
  | nil => simp
  | cons l t ih =>
    rw [List.foldl_cons, ih, tget_keyed_rekey]
    by_cases h : x ∈ t <;> by_cases e : x = l <;> simp [h, e]

theorem foldl_rekey_plain (ls : List Nat) (m : Mem) (k key a : Nat) (h : a / 64 ∉ ls ∨ key = k) :
    plainByte (ls.foldl (fun m l => rekey m l k) m) key a = plainByte m key a := by
  induction ls generalizing m with
  | nil => rfl
  | cons l t ih =>
    rw [List.foldl_cons, ih _ (h.imp (fun h => by simp at h; exact h.2) id), plainByte_rekey]
    exact h.imp (fun h => by simp at h; exact h.1) id

theorem mem_linesOf {a pa n : Nat} : a ∈ linesOf pa n ↔ 0 < n ∧ pa / 64 ≤ a ∧ a ≤ (pa + n - 1) / 64 := by
  unfold linesOf
  by_cases h : n = 0
  · simp [h]
  · rw [if_neg h, mem_nrange]; omega

/-- A byte after a store under a key. -/
theorem plainByte_store (m : Mem) (pa : Nat) (bs : List Byte) (k key a : Nat) (h : a / 64 ∉ linesOf pa bs.length ∨ key = k) :
    plainByte (m.store pa bs k) key a = if pa ≤ a ∧ a < pa + bs.length then bs.getD (a - pa) 0 else plainByte m key a := by
  have base := foldl_rekey_plain (linesOf pa bs.length) m k key a h
  have hkeyed := foldl_rekey_keyed (linesOf pa bs.length) m k (a / 64)
  unfold Mem.store
  simp only []
  generalize (linesOf pa bs.length).foldl (fun m l => rekey m l k) m = m' at *
  by_cases hin : a / 64 ∈ linesOf pa bs.length
  · have hk : key = k := by rcases h with h | h <;> [exact absurd hin h; exact h]
    rw [if_pos hin] at hkeyed
    subst hk
    rw [plainByte_keyed _ _ _ (by exact hkeyed), ← base, plainByte_keyed m' _ _ hkeyed]
    simp only []
    rw [memByte_memWrite]; simp
  · have hout : ¬ (pa ≤ a ∧ a < pa + bs.length) := fun hh => hin (mem_linesOf.mpr ⟨by omega, by omega, by omega⟩)
    rw [if_neg hout, ← base]
    refine plainByte_congr ?_ (fun x hx => ?_) key
    · rfl
    simp only []
    rw [memByte_memWrite, if_neg]
    intro hh
    exact hin (mem_linesOf.mpr ⟨by omega, by omega, by omega⟩)

theorem keyId_congr {s t : State} (h : t.keys = s.keys) (slot : Nat) : keyId t slot = keyId s slot := by unfold keyId; rw [h]

theorem encrypted_congr {s t : State} (h : t.io = s.io) (a : Nat) : encrypted t a = encrypted s a := by
  unfold encrypted inExpander; rw [h]

/-- The memory after a store that is not dropped. -/
theorem physWrite_mem (s : State) (pa : Nat) (bs : List Byte) (slot : Nat) (h : Reached s pa) (hb : bs ≠ []) :
    (physWrite s pa bs slot).mem = s.mem.store pa bs (if encrypted s pa then keyId s slot else 0) ∧
    (physWrite s pa bs slot).keys = s.keys ∧ (physWrite s pa bs slot).io = s.io := by
  have hi : isolated s pa = false := by
    unfold isolated
    unfold Reached at h
    cases hp : portOf pa with
    | none => rfl
    | some p => have := h p hp; cases h1 : (s.io.port p).expander <;> simp_all
  unfold physWrite
  simp [hi, hb]

/-- Bytes stored at a place whose lines are all encrypted, or all not: they read back, and nothing else changes. -/
theorem stores_physWrite (s : State) (pa : Nat) (bs : List Byte) (slot : Nat) (h : Reached s pa) (hb : bs ≠ [])
    (he : ∀ a, a / 64 ∈ linesOf pa bs.length → encrypted s a = encrypted s pa) :
    Stores s (physWrite s pa bs slot) pa bs slot := by
  obtain ⟨hm, hk, hi⟩ := physWrite_mem s pa bs slot h hb
  have hl : 0 < bs.length := List.length_pos_iff.mpr hb
  refine ⟨?_, fun a ha => ?_, fun a k ha => ?_⟩
  · rw [physRead_eq, hm, encrypted_congr hi, keyId_congr hk]
    apply List.ext_getElem?; intro i
    rw [List.getElem?_map, nrange_getElem?]
    by_cases hi : i < bs.length
    · simp only [hi, if_true, Option.map_some]
      rw [plainByte_store _ _ _ _ _ _ (.inr rfl), if_pos (by omega)]
      simp [hi]
    · simp only [hi, if_false, Option.map_none]
      exact (List.getElem?_eq_none (by omega)).symm
  · rw [physRead_one, physRead_one, hm, encrypted_congr hi, keyId_congr hk, plainByte_store _ _ _ _ _ _ ?_, if_neg (by omega)]
    by_cases hin : a / 64 ∈ linesOf pa bs.length
    · right; rw [he a hin]
    · exact .inl hin
  · rw [physRead_one, physRead_one, hm, encrypted_congr hi, keyId_congr hk, plainByte_store _ _ _ _ _ _ (.inl ha), if_neg]
    intro hh
    exact ha (mem_linesOf.mpr ⟨hl, by omega, by omega⟩)

end Sys2Proof.Machine
end

