-- ==== Sys2Proof/Laws/Scalar.lean ====
section
/-! SUPPORT. Scalar integers: a value of type T in a register (R109), as the low bits of the register and as an integer. -/

namespace Sys2Proof.Machine

theorem tWidth_bounds (t : BitVec 4) : 0 < tWidth t ∧ tWidth t ≤ 64 := by revert t; decide

theorem two_pow_tWidth (t : BitVec 4) : 2 ^ tWidth t = 2 * 2 ^ (tWidth t - 1) := by
  obtain ⟨k, hk⟩ : ∃ k, tWidth t = k + 1 := ⟨tWidth t - 1, by have := tWidth_bounds t; omega⟩
  simp [hk, Nat.pow_succ, Nat.mul_comm]

theorem sextNat_eq (w n : Nat) (h : 0 < w) : sextNat w n = (BitVec.ofNat w n).toInt := by
  have h2 : 2 ^ w = 2 * 2 ^ (w - 1) := by
    obtain ⟨k, rfl⟩ : ∃ k, w = k + 1 := ⟨w - 1, by omega⟩
    simp [Nat.pow_succ, Nat.mul_comm]
  unfold sextNat
  rw [BitVec.toInt_eq_toNat_cond]
  simp only [BitVec.toNat_ofNat]
  split <;> split <;> omega

/-- Extension by T is that of the value's low bits. -/
theorem extT_eq (t : BitVec 4) (n : Nat) : extT t n = widen t (BitVec.ofNat (tWidth t) n) := by
  unfold extT widen
  split
  · rw [sextNat_eq _ _ (tWidth_bounds t).1]; rfl
  · apply BitVec.eq_of_toNat_eq
    simp only [BitVec.toNat_ofNat, BitVec.toNat_setWidth]

theorem ofNat_wrapInt (w : Nat) (i : Int) : BitVec.ofNat w (wrapInt w i) = BitVec.ofInt w i := by
  apply BitVec.eq_of_toNat_eq
  have h : (0 : Int) < ((2 ^ w : Nat) : Int) := by exact_mod_cast Nat.two_pow_pos w
  have := Int.emod_lt_of_pos i h
  have := Int.emod_nonneg i (Int.ne_of_gt h)
  simp only [wrapInt, BitVec.toNat_ofInt, BitVec.toNat_ofNat]
  rw [Nat.mod_eq_of_lt]; omega

/-- An exact integer brought into a register by wrapping. -/
theorem wrapT_eq (t : BitVec 4) (i : Int) : wrapT t i = widen t (BitVec.ofInt (tWidth t) i) := by
  unfold wrapT; rw [extT_eq, ofNat_wrapInt]

theorem ofNat_low (t : BitVec 4) (v : Word) : BitVec.ofNat (tWidth t) v.toNat = lowOf t v := by
  apply BitVec.eq_of_toNat_eq; rw [lowOf, BitVec.toNat_setWidth]; rfl

/-- The integer of a register is that of its low bits. -/
theorem intOf_eq (t : BitVec 4) (v : Word) : intOf t v = if tSigned t then (lowOf t v).toInt else ((lowOf t v).toNat : Int) := by
  unfold intOf
  split
  · rw [sextNat_eq _ _ (tWidth_bounds t).1, ofNat_low]
  · rw [lowOf, BitVec.toNat_setWidth]

theorem ofInt_intOf (t : BitVec 4) (v : Word) : BitVec.ofInt (tWidth t) (intOf t v) = lowOf t v := by
  rw [intOf_eq]; split <;> simp

theorem lowOf_widen (t : BitVec 4) (v : BitVec (tWidth t)) : lowOf t (widen t v) = v := by
  have hw := tWidth_bounds t
  unfold lowOf widen
  generalize tWidth t = w at *
  split <;> apply BitVec.eq_of_getLsbD_eq <;> intro i hi
  · simp [BitVec.getLsbD_signExtend, hi]; omega
  · simp [hi]; omega

theorem lowOf_add (t : BitVec 4) (a b : Word) : lowOf t (a + b) = lowOf t a + lowOf t b :=
  BitVec.setWidth_add _ _ (tWidth_bounds t).2

theorem lowOf_mul (t : BitVec 4) (a b : Word) : lowOf t (a * b) = lowOf t a * lowOf t b :=
  BitVec.setWidth_mul _ _ (tWidth_bounds t).2

/-- An integer that T holds is what its register gives back. -/
theorem intOf_wrapT (t : BitVec 4) (i : Int) (h1 : loT t ≤ i) (h2 : i ≤ hiT t) : intOf t (wrapT t i) = i := by
  have h3 := two_pow_tWidth t
  rw [wrapT_eq, intOf_eq, lowOf_widen]
  unfold loT at h1; unfold hiT at h2
  split
  · next hs =>
    simp only [hs, if_true] at h1 h2
    rw [BitVec.toInt_ofInt, Int.bmod_eq_of_le] <;> omega
  · next hs =>
    simp only [hs] at h1 h2
    rw [BitVec.toNat_ofInt, Int.emod_eq_of_lt] <;> simp at * <;> omega

/-- The integer of a register lies in the range of T. -/
theorem intOf_bounds (t : BitVec 4) (v : Word) : loT t ≤ intOf t v ∧ intOf t v ≤ hiT t := by
  have h3 := two_pow_tWidth t
  rw [intOf_eq]; unfold loT hiT
  have a := (lowOf t v).isLt
  split
  · have := BitVec.toInt_lt (x := lowOf t v)
    have := BitVec.le_toInt (x := lowOf t v)
    push_cast at *; omega
  · omega

/-- The end of an integer instruction whose exact result T holds. -/
theorem writesInt_done (s : State) (h : s.Started) (t : BitVec 4) (d : BitVec 6) (i : Int) (h1 : loT t ≤ i) (h2 : i ≤ hiT t) :
    WritesInt s (s.done d (wrapT t i)) t d i :=
  ⟨_, writes_done s d _ h, by rw [wrapT_eq, lowOf_widen], intOf_wrapT t i h1 h2⟩

/-- The end of an integer instruction that wraps. -/
theorem writes_wrapT (s : State) (h : s.Started) (t : BitVec 4) (d : BitVec 6) (i : Int) (b : BitVec (tWidth t))
    (hb : BitVec.ofInt (tWidth t) i = b) : Writes s (s.done d (wrapT t i)) d (widen t b) := by
  rw [wrapT_eq, hb]; exact writes_done s d _ h

/-- The end of an instruction on bit patterns. -/
theorem writes_extT (s : State) (h : s.Started) (t : BitVec 4) (d : BitVec 6) (n : Nat) (b : BitVec (tWidth t))
    (hb : BitVec.ofNat (tWidth t) n = b) : Writes s (s.done d (extT t n)) d (widen t b) := by
  rw [extT_eq, hb]; exact writes_done s d _ h

end Sys2Proof.Machine
end

