-- ==== Sys2Proof/Laws/Vec.lean ====
section
/-! SUPPORT. Vector registers: elements after writes, the poison of EGs, rings, and what an elementwise instruction does to the
vector state (R90, R129, R134, R138). -/

namespace Sys2Proof.Machine

/-! Bits. -/

theorem testBit_bitsAt (b lo w i : Nat) : (bitsAt b lo w).testBit i = (decide (i < w) && b.testBit (lo + i)) := by
  unfold bitsAt; rw [Nat.testBit_mod_two_pow, Nat.testBit_shiftRight]

theorem setBitsAt_eq (b lo w v : Nat) : setBitsAt b lo w v = 2 ^ lo * (2 ^ w * (b >>> (lo + w)) + v % 2 ^ w) + b % 2 ^ lo := by
  unfold setBitsAt
  simp only [Nat.shiftLeft_eq, Nat.mul_add, Nat.pow_add]
  ring

theorem testBit_setBitsAt (b lo w v i : Nat) :
    (setBitsAt b lo w v).testBit i = if lo ≤ i ∧ i < lo + w then v.testBit (i - lo) else b.testBit i := by
  rw [setBitsAt_eq, Nat.testBit_two_pow_mul_add _ (Nat.mod_lt _ (Nat.two_pow_pos _))]
  by_cases h : i < lo
  · rw [if_pos h, if_neg (by omega), Nat.testBit_mod_two_pow]; simp [h]
  · rw [if_neg h, Nat.testBit_two_pow_mul_add _ (Nat.mod_lt _ (Nat.two_pow_pos _))]
    by_cases h2 : i - lo < w
    · rw [if_pos h2, if_pos (by omega), Nat.testBit_mod_two_pow]; simp [h2]
    · rw [if_neg h2, if_neg (by omega), Nat.testBit_shiftRight]; congr 1; omega

theorem testBit_elemAt (b w e i : Nat) : (elemAt b w e).testBit i = (decide (i < w) && b.testBit (e * w + i)) := testBit_bitsAt _ _ _ _

/-- An element after a write of one element. -/
theorem elemAt_setElem (b w i e v : Nat) : elemAt (setElem b w i v) w e = if e = i then v % 2 ^ w else elemAt b w e := by
  apply Nat.eq_of_testBit_eq; intro j
  rw [testBit_elemAt, setElem, testBit_setBitsAt]
  by_cases hj : j < w
  · simp only [hj, decide_true, Bool.true_and]
    by_cases h : e = i
    · subst h; simp [hj, Nat.testBit_mod_two_pow]
    · have : ¬ (i * w ≤ e * w + j ∧ e * w + j < i * w + w) := by
        rintro ⟨h1, h2⟩
        rcases Nat.lt_or_gt_of_ne h with h3 | h3
        · have := Nat.mul_le_mul_right w (show e + 1 ≤ i from h3); rw [Nat.succ_mul] at this; omega
        · have := Nat.mul_le_mul_right w (show i + 1 ≤ e from h3); rw [Nat.succ_mul] at this; omega
      rw [if_neg this, if_neg h, testBit_elemAt]; simp [hj]
  · simp only [hj, decide_false, Bool.false_and]
    split
    · rw [Nat.testBit_mod_two_pow]; simp [hj]
    · rw [testBit_elemAt]; simp [hj]

/-- Elements after results for elements that differ from one another. -/
theorem elemAt_putBits (b w : Nat) (rs : List Put) (hn : (rs.map (·.e)).Nodup) (e : Nat) :
    elemAt (putBits b w rs) w e = match rs.find? (·.e == e) with | some r => r.bits % 2 ^ w | none => elemAt b w e := by
  unfold putBits
  induction rs generalizing b with
  | nil => rfl
  | cons r t ih =>
    simp only [List.map_cons, List.nodup_cons] at hn
    rw [List.foldl_cons, ih _ hn.2]
    by_cases h : r.e = e
    · have : t.find? (·.e == e) = none := List.find?_eq_none.mpr fun x hx hh => hn.1 (by
        rw [h, ← (by simpa using hh : x.e = e)]; exact List.mem_map_of_mem hx)
      simp [h, this, elemAt_setElem]
    · simp only [List.find?_cons, show (r.e == e) = false by simpa using h]
      cases t.find? (·.e == e) with
      | some x => rfl
      | none => simp only []; rw [elemAt_setElem, if_neg (Ne.symm h)]

/-- Elements after results given by a function of distinct elements. -/
theorem elemAt_putBits_map (b w : Nat) (act : List Nat) (val : Nat → Nat) (pois : Nat → Bool) (hn : act.Nodup) (e : Nat) :
    elemAt (putBits b w (act.map fun e => ⟨e, val e, pois e⟩)) w e = if e ∈ act then val e % 2 ^ w else elemAt b w e := by
  rw [elemAt_putBits _ _ _ (by simpa [List.map_map, Function.comp_def] using hn)]
  by_cases h : e ∈ act
  · have : (act.map fun e => (⟨e, val e, pois e⟩ : Put)).find? (·.e == e) = some ⟨e, val e, pois e⟩ := by
      rw [List.find?_map]
      have : act.find? ((fun x : Put => x.e == e) ∘ fun e => ⟨e, val e, pois e⟩) = some e := by
        clear hn
        induction act with
        | nil => simp at h
        | cons a t ih =>
          by_cases ha : a = e
          · subst ha; simp
          · rw [List.find?_cons_of_neg (by simpa using ha)]; exact ih (by simpa [Ne.symm ha] using h)
      rw [this]; rfl
    rw [this, if_pos h]
  · have : (act.map fun e => (⟨e, val e, pois e⟩ : Put)).find? (·.e == e) = none := by
      rw [List.find?_eq_none]
      intro x hx
      obtain ⟨y, hy, rfl⟩ := List.mem_map.mp hx
      simp; rintro rfl; exact h hy
    rw [this, if_neg h]

/-! Poison. -/

theorem mem_ldedup_go {α : Type} [DecidableEq α] (l acc : List α) (a : α) :
    a ∈ l.foldl (fun (acc : List α) a => if acc.contains a then acc else a :: acc) acc ↔ a ∈ acc ∨ a ∈ l := by
  induction l generalizing acc with
  | nil => simp
  | cons b t ih =>
    rw [List.foldl_cons, ih]
    by_cases h : acc.contains b
    · rw [if_pos h]; simp only [List.contains_eq_mem, decide_eq_true_eq] at h
      constructor
      · rintro (h1 | h1) <;> simp [h1]
      · rintro (h1 | h1)
        · exact .inl h1
        · rcases List.mem_cons.mp h1 with rfl | h2
          · exact .inl h
          · exact .inr h2
    · rw [if_neg h]; simp only [List.mem_cons]; tauto

@[simp] theorem mem_ldedup {α : Type} [DecidableEq α] (l : List α) (a : α) : a ∈ ldedup l ↔ a ∈ l := by
  unfold ldedup; rw [List.mem_reverse, mem_ldedup_go]; simp

theorem nodup_ldedup_go {α : Type} [DecidableEq α] (l acc : List α) (h : acc.Nodup) :
    (l.foldl (fun (acc : List α) a => if acc.contains a then acc else a :: acc) acc).Nodup := by
  induction l generalizing acc with
  | nil => exact h
  | cons b t ih =>
    rw [List.foldl_cons]; apply ih
    by_cases c : acc.contains b
    · rw [if_pos c]; exact h
    · rw [if_neg c]; simp only [List.contains_eq_mem, decide_eq_true_eq] at c; exact List.nodup_cons.mpr ⟨c, h⟩

theorem nodup_ldedup {α : Type} [DecidableEq α] (l : List α) : (ldedup l).Nodup := by
  unfold ldedup; rw [List.nodup_reverse]; exact nodup_ldedup_go _ _ (by simp)

/-- The poison bit of one EG after results, where different EGs have different keys. -/
theorem smem_putPois (key : Nat → Nat) (p : NatSet) (w : Nat) (rs : List Put) (x : Nat) (hk : ∀ r ∈ rs, ∀ q ∈ rs,
    key (egOf w r.e) = key (egOf w q.e) → egOf w r.e = egOf w q.e) :
    smem x (putPois key p w rs) =
      (if ∃ r ∈ rs, key (egOf w r.e) = x then
        (if ∃ r ∈ rs, key (egOf w r.e) = x ∧ r.pois = true then true
         else if (rs.filter fun r => key (egOf w r.e) == x).length = 2048 / w then false else smem x p)
       else smem x p) := by
  unfold putPois
  have main : ∀ (gs : List Nat) (p : NatSet), gs.Nodup → (∀ g ∈ gs, ∃ r ∈ rs, egOf w r.e = g) →
      smem x (gs.foldl (fun p g =>
        let here := rs.filter fun r => egOf w r.e == g
        if here.any (·.pois) then sadd (key g) p else if here.length = 2048 / w then sdel (key g) p else p) p) =
      (if ∃ g ∈ gs, key g = x then
        (if ∃ r ∈ rs, key (egOf w r.e) = x ∧ r.pois = true then true
         else if (rs.filter fun r => key (egOf w r.e) == x).length = 2048 / w then false else smem x p)
       else smem x p) := by
    intro gs
    induction gs with
    | nil => intro p _ _; simp
    | cons g t ih =>
      intro p hn hg
      simp only [List.nodup_cons] at hn
      rw [List.foldl_cons, ih _ hn.2 (fun g hgt => hg g (List.mem_cons_of_mem _ hgt))]
      have hg0 := hg g (by simp)
      obtain ⟨r0, hr0, hr0g⟩ := hg0
      by_cases hx : key g = x
      · have hnt : ¬ ∃ g' ∈ t, key g' = x := by
          rintro ⟨g', hg', hkx⟩
          obtain ⟨r1, hr1, hr1g⟩ := hg g' (List.mem_cons_of_mem _ hg')
          have := hk r0 hr0 r1 hr1 (by rw [hr0g, hr1g, hx, hkx])
          rw [hr0g, hr1g] at this; subst this; exact hn.1 hg'
        rw [if_neg hnt, if_pos (show ∃ g' ∈ g :: t, key g' = x from ⟨g, List.mem_cons_self .., hx⟩)]
        have hsame : (rs.filter fun r => egOf w r.e == g) = rs.filter fun r => key (egOf w r.e) == x := by
          apply List.filter_congr; intro r hr
          rw [Bool.eq_iff_iff]; simp only [beq_iff_eq]
          exact ⟨fun h => by rw [h, hx], fun h => by rw [← hr0g]; exact hk r hr r0 hr0 (by rw [h, hr0g, hx])⟩
        simp only []
        rw [hsame]
        have hany : ((rs.filter fun r => key (egOf w r.e) == x).any (·.pois)) = true ↔ ∃ r ∈ rs, key (egOf w r.e) = x ∧ r.pois = true := by
          simp only [List.any_eq_true, List.mem_filter, beq_iff_eq, and_assoc]
        by_cases c : ∃ r ∈ rs, key (egOf w r.e) = x ∧ r.pois = true
        · rw [if_pos (hany.mpr c), if_pos c, hx]; simp [smem_sadd]
        · rw [if_neg (fun h => c (hany.mp h)), if_neg c]
          split
          · rw [hx]; simp [smem_sdel]
          · rfl
      · have hiff : (∃ g' ∈ g :: t, key g' = x) ↔ ∃ g' ∈ t, key g' = x := by simp [hx]
        have hkeep : smem x ((fun p g =>
            let here := rs.filter fun r => egOf w r.e == g
            if here.any (·.pois) then sadd (key g) p else if here.length = 2048 / w then sdel (key g) p else p) p g) = smem x p := by
          simp only []
          split
          · rw [smem_sadd]; simp [Ne.symm hx]
          · split
            · rw [smem_sdel]; simp [Ne.symm hx]
            · rfl
        simp only [hiff]
        simp only [] at hkeep
        rw [hkeep]
  rw [main _ _ (nodup_ldedup _) (fun g hg => by simpa using hg)]
  simp

/-! Registers of a vector state. -/

@[simp] theorem VecState.putReg_m (v : VecState) (k w : Nat) (rs : List Put) : (v.putReg k w rs).m = v.m := by
  unfold VecState.putReg; split <;> rfl
@[simp] theorem VecState.putReg_rings (v : VecState) (k w : Nat) (rs : List Put) : (v.putReg k w rs).rings = v.rings := by
  unfold VecState.putReg; split <;> rfl
@[simp] theorem VecState.putReg_cfg (v : VecState) (k w : Nat) (rs : List Put) : (v.putReg k w rs).cfg = v.cfg := by
  unfold VecState.putReg; split <;> rfl
@[simp] theorem VecState.putReg_vp (v : VecState) (k w : Nat) (rs : List Put) : (v.putReg k w rs).vp = v.vp := by
  unfold VecState.putReg; split <;> rfl

theorem VecState.reg_putReg (v : VecState) (k w n : Nat) (rs : List Put) :
    (v.putReg k w rs).reg n = if n = k then putBits (v.reg k) w rs else v.reg n := by
  unfold VecState.putReg
  by_cases h : rs.isEmpty
  · rw [if_pos h]
    have : rs = [] := List.isEmpty_iff.mp h
    subst this; split
    · next e => rw [e]; rfl
    · rfl
  · rw [if_neg h]; simp only [VecState.reg, tget_tset]

theorem VecState.pois_putReg (v : VecState) (k w : Nat) (rs : List Put) : (v.putReg k w rs).pois = putPois (egKey k) v.pois w rs := by
  unfold VecState.putReg
  by_cases h : rs.isEmpty
  · rw [if_pos h]
    have : rs = [] := List.isEmpty_iff.mp h
    subst this; rfl
  · rw [if_neg h]

theorem egKey_inj {k n g h : Nat} (hg : g < 64) (hh : h < 64) (e : egKey k g = egKey n h) : k = n ∧ g = h := by
  unfold egKey at e; omega

@[simp] theorem VecState.setRing_v (v : VecState) (q : Nat) (l : List RingEnt) : (v.setRing q l).v = v.v := rfl
@[simp] theorem VecState.setRing_pois (v : VecState) (q : Nat) (l : List RingEnt) : (v.setRing q l).pois = v.pois := rfl
@[simp] theorem VecState.setRing_m (v : VecState) (q : Nat) (l : List RingEnt) : (v.setRing q l).m = v.m := rfl
@[simp] theorem VecState.setRing_cfg (v : VecState) (q : Nat) (l : List RingEnt) : (v.setRing q l).cfg = v.cfg := rfl
@[simp] theorem VecState.setRing_vp (v : VecState) (q : Nat) (l : List RingEnt) : (v.setRing q l).vp = v.vp := rfl

theorem VecState.ring_setRing (v : VecState) (q p : Nat) (l : List RingEnt) : (v.setRing q l).ring p = if p = q then l else v.ring p := by
  unfold VecState.ring VecState.setRing
  by_cases h : l.isEmpty
  · have : l = [] := List.isEmpty_iff.mp h
    subst this
    by_cases e : p = q
    · subst e; simp [tget]
    · simp [e, tget]
  · simp only [h, Bool.false_eq_true, if_false]; rw [tget_tset]

theorem popRings_same (qs : List Nat) (v : VecState) : (v.popRings qs).v = v.v ∧ (v.popRings qs).pois = v.pois ∧ (v.popRings qs).m = v.m ∧
    (v.popRings qs).cfg = v.cfg ∧ (v.popRings qs).vp = v.vp := by
  unfold VecState.popRings
  generalize ldedup qs = l
  induction l generalizing v with
  | nil => exact ⟨rfl, rfl, rfl, rfl, rfl⟩
  | cons a t ih => rw [List.foldl_cons]; exact ih (v.setRing a (v.ring a).tail)

theorem ring_popRings (qs : List Nat) (v : VecState) (p : Nat) : (v.popRings qs).ring p = if p ∈ qs then (v.ring p).tail else v.ring p := by
  unfold VecState.popRings
  have main : ∀ (l : List Nat), l.Nodup → ∀ v : VecState,
      (l.foldl (fun v q => v.setRing q (v.ring q).tail) v).ring p = if p ∈ l then (v.ring p).tail else v.ring p := by
    intro l
    induction l with
    | nil => intro _ v; simp
    | cons a t ih =>
      intro hn v
      simp only [List.nodup_cons] at hn
      rw [List.foldl_cons, ih hn.2, VecState.ring_setRing]
      by_cases h : p = a
      · subst h; simp [hn.1]
      · simp [h]
  rw [main _ (nodup_ldedup _)]; simp

/-- The results of one register: elements and poison. -/
theorem egPoison_putPois (key : Nat → Nat) (p : NatSet) (w : Nat) (act : List Nat) (val : Nat → Nat) (pois : Nat → Bool) (hw : 0 < w)
    (hd : w ∣ 2048) (hn : act.Nodup) (eg : Nat)
    (hk : ∀ e ∈ act, key (egOf w e) = key eg ↔ egOf w e = eg)
    (hinj : ∀ e ∈ act, ∀ i ∈ act, key (egOf w e) = key (egOf w i) → egOf w e = egOf w i) :
    egPoison w act pois eg (smem (key eg) p) (smem (key eg) (putPois key p w (act.map fun e => ⟨e, val e, pois e⟩))) := by
  rw [smem_putPois]
  · have hlen : ((act.map fun e => (⟨e, val e, pois e⟩ : Put)).filter fun r => key (egOf w r.e) == key eg).length =
        (act.filter fun e => egOf w e == eg).length := by
      rw [List.filter_map, List.length_map]
      congr 1; apply List.filter_congr; intro e he
      rw [Bool.eq_iff_iff]; simpa using hk e he
    rw [hlen]
    obtain ⟨c, hc⟩ := hd
    have hcd : 2048 / w = c := by rw [hc]; exact Nat.mul_div_cancel_left _ hw
    have hmem : ∀ e, egOf w e = eg ↔ e ∈ nrange (eg * c) c := by
      intro e
      rw [mem_nrange]; unfold egOf
      rw [hc, Nat.mul_comm e w, Nat.mul_div_mul_left _ _ hw]
      have hc0 : 0 < c := by rcases Nat.eq_zero_or_pos c with h | h <;> [(subst h; simp at hc); exact h]
      rw [Nat.div_eq_iff hc0]
      have := Nat.succ_mul eg c
      constructor <;> intro h <;> [constructor; constructor] <;> omega
    have hsub : ∀ l : List Nat, l.Nodup → ((∀ e, egOf w e = eg → e ∈ l) ↔ (l.filter fun e => egOf w e == eg).length = c) := by
      intro l hl
      have hperm : (l.filter fun e => egOf w e == eg).Nodup := hl.filter _
      have hsubset : (l.filter fun e => egOf w e == eg) ⊆ nrange (eg * c) c := fun e he => by
        rw [List.mem_filter] at he; exact (hmem e).mp (by simpa using he.2)
      have hnr : (nrange (eg * c) c).Nodup := by
        unfold nrange; exact List.Nodup.map (fun a b h => by simpa using h) List.nodup_range
      constructor
      · intro h
        have h2 : nrange (eg * c) c ⊆ l.filter fun e => egOf w e == eg := fun e he => by
          rw [List.mem_filter]; exact ⟨h e ((hmem e).mpr he), by simpa using (hmem e).mpr he⟩
        have a := (List.subperm_of_subset hperm hsubset).length_le
        have b := (List.subperm_of_subset hnr h2).length_le
        simp at a b; omega
      · intro h e he
        have hp := List.subperm_of_subset hperm hsubset
        have := hp.perm_of_length_le (by simp [h])
        have h3 := this.symm.subset ((hmem e).mp he)
        exact (List.mem_filter.mp h3).1
    rw [hcd]
    have ex1 : (∃ r ∈ act.map fun e => (⟨e, val e, pois e⟩ : Put), key (egOf w r.e) = key eg) ↔ ∃ e ∈ act, egOf w e = eg := by
      simp only [List.mem_map, exists_exists_and_eq_and]
      exact ⟨fun ⟨e, h, k⟩ => ⟨e, h, (hk e h).mp k⟩, fun ⟨e, h, k⟩ => ⟨e, h, (hk e h).mpr k⟩⟩
    have ex2 : (∃ r ∈ act.map fun e => (⟨e, val e, pois e⟩ : Put), key (egOf w r.e) = key eg ∧ r.pois = true) ↔
        ∃ e ∈ act, egOf w e = eg ∧ pois e = true := by
      simp only [List.mem_map, exists_exists_and_eq_and]
      exact ⟨fun ⟨e, h, k, l⟩ => ⟨e, h, (hk e h).mp k, l⟩, fun ⟨e, h, k, l⟩ => ⟨e, h, (hk e h).mpr k, l⟩⟩
    have hful := hsub act hn
    refine ⟨fun ⟨e, he, h1, h2⟩ => ?_, fun h1 h2 => ?_, fun h1 h2 => ?_⟩
    · rw [if_pos (ex1.mpr ⟨e, he, h1⟩), if_pos (ex2.mpr ⟨e, he, h1, h2⟩)]
    · have hc0 : 0 < c := by rcases Nat.eq_zero_or_pos c with h | h <;> [(subst h; simp at hc); exact h]
      have : egOf w (eg * c) = eg := (hmem _).mpr (by rw [mem_nrange]; omega)
      rw [if_pos (ex1.mpr ⟨_, h2 _ this, this⟩), if_neg (fun h => by obtain ⟨e, he, a, b⟩ := ex2.mp h; simp [h1 e he a] at b), if_pos (hful.mp h2)]
    · split
      · rw [if_neg (fun h => by obtain ⟨e, he, a, b⟩ := ex2.mp h; simp [h1 e he a] at b), if_neg]
        intro h3; obtain ⟨e, a, b⟩ := h2; exact b (hful.mpr h3 e a)
      · rfl
  · intro r hr q hq
    obtain ⟨a, ha, rfl⟩ := List.mem_map.mp hr
    obtain ⟨b, hb, rfl⟩ := List.mem_map.mp hq
    exact hinj a ha b hb


/-! Events. -/

theorem Evs.add_ev (a : Evs) (e : Ev) (i c : Nat) : (a.add e i).ev.getLsbD c = (a.ev.getLsbD c || e.getLsbD c) := by
  unfold Evs.add; split
  · next h => simp [h]
  · simp

theorem getD_map_nrange {c : Nat} (hc : c < 6) (f : Nat → Nat) : ((nrange 0 6).map f).getD c 0 = f c := by
  rw [List.getD_eq_getElem?_getD, List.getElem?_map]
  have : (nrange 0 6)[c]? = some c := by
    obtain rfl | rfl | rfl | rfl | rfl | rfl : c = 0 ∨ c = 1 ∨ c = 2 ∨ c = 3 ∨ c = 4 ∨ c = 5 := by omega
    all_goals rfl
  rw [this]; rfl

theorem Evs.add_ix (a : Evs) (e : Ev) (i : Nat) {c : Nat} (hc : c < 6) : (a.add e i).ix.getD c 0 =
    if e.getLsbD c then (if a.ev.getLsbD c then min (a.ix.getD c 0) i else i) else a.ix.getD c 0 := by
  unfold Evs.add; split
  · next h => simp [h]
  · rw [getD_map_nrange hc]

/-- The events of a list of occurrences: a class is raised when one raises it, at the lowest index of those that do. -/
structure Collects (ev : Evs) (l : List (Nat × Ev)) (c : Nat) : Prop where
  raised : ev.ev.getLsbD c = true ↔ ∃ p ∈ l, p.2.getLsbD c = true
  hit : ev.ev.getLsbD c = true → ∃ p ∈ l, p.2.getLsbD c = true ∧ ev.ix.getD c 0 = p.1
  least : ∀ p ∈ l, p.2.getLsbD c = true → ev.ix.getD c 0 ≤ p.1

theorem collects_nil {c : Nat} : Collects Evs.none [] c :=
  ⟨by simp [Evs.none], by simp [Evs.none], by simp⟩

theorem Collects.add {ev : Evs} {l : List (Nat × Ev)} {c : Nat} (hc : c < 6) (h : Collects ev l c) (e : Ev) (i : Nat) :
    Collects (ev.add e i) (l ++ [(i, e)]) c := by
  refine ⟨?_, fun hr => ?_, fun p hp hpc => ?_⟩
  · rw [Evs.add_ev]; simp only [Bool.or_eq_true, h.raised, List.mem_append, List.mem_singleton]
    constructor
    · rintro (⟨p, hp, hpc⟩ | he)
      · exact ⟨p, .inl hp, hpc⟩
      · exact ⟨_, .inr rfl, he⟩
    · rintro ⟨p, hp | rfl, hpc⟩
      · exact .inl ⟨p, hp, hpc⟩
      · exact .inr hpc
  · rw [Evs.add_ix _ _ _ hc]
    rw [Evs.add_ev, Bool.or_eq_true] at hr
    by_cases he : e.getLsbD c
    · rw [if_pos he]
      by_cases ha : ev.ev.getLsbD c
      · rw [if_pos ha]
        obtain ⟨p, hp, hpc, hpi⟩ := h.hit ha
        rcases Nat.le_total (ev.ix.getD c 0) i with hle | hle
        · exact ⟨p, by simp [hp], hpc, by rw [Nat.min_eq_left hle, hpi]⟩
        · exact ⟨(i, e), by simp, he, by rw [Nat.min_eq_right hle]⟩
      · rw [if_neg ha]; exact ⟨(i, e), by simp, he, rfl⟩
    · rw [if_neg he]
      obtain ⟨p, hp, hpc, hpi⟩ := h.hit (hr.resolve_right he)
      exact ⟨p, by simp [hp], hpc, hpi⟩
  · rw [Evs.add_ix _ _ _ hc]
    rw [List.mem_append, List.mem_singleton] at hp
    by_cases he : e.getLsbD c
    · rw [if_pos he]
      rcases hp with hp | rfl
      · have hl := h.least p hp hpc
        have ha := h.raised.mpr ⟨p, hp, hpc⟩
        rw [if_pos ha]; exact Nat.le_trans (Nat.min_le_left _ _) hl
      · split
        · exact Nat.min_le_right _ _
        · exact Nat.le_refl _
    · rw [if_neg he]
      rcases hp with hp | rfl
      · exact h.least p hp hpc
      · exact absurd hpc he

theorem Collects.fold {c : Nat} (hc : c < 6) (m l : List (Nat × Ev)) (ev : Evs) (h : Collects ev l c) :
    Collects (m.foldl (fun a p => a.add p.2 p.1) ev) (l ++ m) c := by
  induction m generalizing ev l with
  | nil => simpa using h
  | cons p t ih => rw [List.foldl_cons]; simpa using ih _ _ (h.add hc p.2 p.1)

/-- A result of one element: bits, events, poison. -/
abbrev Result := Nat × Ev × Bool

/-- The results of one register as they are put. -/
def putsOf (act : List Nat) (res : Nat → Result) : List Put := act.map fun e => ⟨e, (res e).1, (res e).2.2⟩

/-- The events of elementwise results, each with its index. -/
def raisedOf (g : Nat) (act : List Nat) (res : Nat → Nat → Result) (index : Nat → Nat → Nat) : List (Nat × Ev) :=
  (nrange 0 g).flatMap fun j => act.map fun e => (index j e, if (res j e).2.2 then 0 else (res j e).2.1)

theorem nrange_zero_succ (n : Nat) : nrange 0 (n + 1) = nrange 0 n ++ [n] := by
  rw [nrange_append]; simp [nrange]

theorem elementwise_fold (put : VecState → Nat → List Put → VecState) (v : VecState) (act : List Nat) (res : Nat → Nat → Result)
    (index : Nat → Nat → Nat) (n : Nat) :
    ((nrange 0 n).foldl (fun (acc : VecState × Evs) j =>
      let rs := act.map fun e => (e, res j e)
      (put acc.1 j (rs.map fun r => ⟨r.1, r.2.1, r.2.2.2⟩),
       rs.foldl (fun a r => a.add (if r.2.2.2 then 0 else r.2.2.1) (index j r.1)) acc.2)) (v, Evs.none)) =
    ((nrange 0 n).foldl (fun v j => put v j (putsOf act (res j))) v,
     (raisedOf n act res index).foldl (fun a p => a.add p.2 p.1) Evs.none) := by
  induction n with
  | zero => rfl
  | succ n ih =>
    rw [nrange_zero_succ, List.foldl_append, ih]
    simp only [List.foldl_cons, List.foldl_nil, List.foldl_append, raisedOf, nrange_zero_succ, List.flatMap_append, List.flatMap_cons,
      List.flatMap_nil, List.append_nil, putsOf, List.map_map, List.foldl_map]
    rfl

/-- Registers and poison after results for g registers from k. -/
theorem putRegs (v : VecState) (k w : Nat) (act : List Nat) (res : Nat → Nat → Result) (hb : ∀ e ∈ act, egOf w e < 64) (n : Nat) :
    let v' := (nrange 0 n).foldl (fun v j => v.putReg (k + j) w (putsOf act (res j))) v
    (∀ r, v'.reg r = if k ≤ r ∧ r < k + n then putBits (v.reg r) w (putsOf act (res (r - k))) else v.reg r) ∧
    (∀ r eg, eg < 64 → smem (egKey r eg) v'.pois =
      if k ≤ r ∧ r < k + n then smem (egKey r eg) (putPois (egKey r) v.pois w (putsOf act (res (r - k)))) else smem (egKey r eg) v.pois) ∧
    v'.m = v.m ∧ v'.rings = v.rings ∧ v'.cfg = v.cfg ∧ v'.vp = v.vp := by
  have key (r j eg : Nat) (p : NatSet) (heg : eg < 64) : smem (egKey r eg) (putPois (egKey (k + j)) p w (putsOf act (res j))) =
      if r = k + j then (if ∃ q ∈ putsOf act (res j), egKey r (egOf w q.e) = egKey r eg then
        (if ∃ q ∈ putsOf act (res j), egKey r (egOf w q.e) = egKey r eg ∧ q.pois = true then true
         else if ((putsOf act (res j)).filter fun q => egKey r (egOf w q.e) == egKey r eg).length = 2048 / w then false
         else smem (egKey r eg) p) else smem (egKey r eg) p) else smem (egKey r eg) p := by
    rw [smem_putPois]
    · by_cases h : r = k + j
      · subst h; rw [if_pos rfl]
      · rw [if_neg h, if_neg]
        rintro ⟨q, hq, e⟩
        obtain ⟨i, hi, rfl⟩ := List.mem_map.mp hq
        exact h (egKey_inj (hb i hi) heg e).1.symm
    · intro a ha b hb' e
      obtain ⟨i, hi, rfl⟩ := List.mem_map.mp ha
      obtain ⟨i', hi', rfl⟩ := List.mem_map.mp hb'
      exact (egKey_inj (hb i hi) (hb i' hi') e).2
  induction n with
  | zero => refine ⟨fun r => ?_, fun r eg _ => ?_, rfl, rfl, rfl, rfl⟩ <;> rw [if_neg (by omega)] <;> rfl
  | succ n ih =>
    simp only [nrange_zero_succ, List.foldl_append, List.foldl_cons, List.foldl_nil]
    simp only [] at ih
    obtain ⟨h1, h2, h3, h4, h5, h6⟩ := ih
    generalize (nrange 0 n).foldl (fun v j => v.putReg (k + j) w (putsOf act (res j))) v = u at *
    refine ⟨fun r => ?_, fun r eg heg => ?_, by simp [h3], by simp [h4], by simp [h5], by simp [h6]⟩
    · rw [VecState.reg_putReg, h1, h1]
      by_cases h : r = k + n
      · rw [if_pos h, if_neg (by omega), if_pos (by omega), h]; congr 3; omega
      · rw [if_neg h]
        by_cases hh : k ≤ r ∧ r < k + n
        · rw [if_pos hh, if_pos (by omega)]
        · rw [if_neg hh, if_neg (by omega)]
    · rw [VecState.pois_putReg, key r n eg _ heg]
      by_cases h : r = k + n
      · subst h
        have e1 := h2 (k + n) eg heg
        rw [if_neg (by omega)] at e1
        have e2 := key (k + n) n eg v.pois heg
        rw [if_pos rfl] at e2 ⊢
        rw [e1, ← e2, if_pos (show k ≤ k + n ∧ k + n < k + (n + 1) by omega), show k + n - k = n by omega]
      · rw [if_neg h, h2 r eg heg]
        by_cases hh : k ≤ r ∧ r < k + n
        · rw [if_pos hh, if_pos (by omega)]
        · rw [if_neg hh, if_neg (by omega)]

theorem not_mem_ringsOf {os : List Opnd} {q : Nat} : q ∈ ringsOf os ↔ Opnd.ring q ∈ os := by
  unfold ringsOf
  rw [List.mem_filterMap]
  constructor
  · rintro ⟨o, ho, h⟩; cases o with
    | reg _ => simp at h
    | ring p => simp at h; subst h; exact ho
  · intro h; exact ⟨_, h, rfl⟩

/-- What an elementwise instruction does to the vector state, and the events it raises (R131, R134, R138). -/
theorem elementwise_spec (v : VecState) (slabs : Nat) (run : VRun) (lg : Lg) (g : Nat) (srcs : List Src) (dst : Opnd) (w : Nat) (fn : EltFn)
    (hw : 0 < w) (hd : w ∣ 2048) (hn : run.act.Nodup) (hb : ∀ e ∈ run.act, egOf w e < 64) (hr : ∀ q, dst = .ring q → g = 1) :
    let res := fun j e => fn j e (srcs.map fun s => readElt v slabs lg s j e)
    Elementwise v (elementwise v slabs run lg g srcs dst w fn).1 run.act (srcs.map (·.o)) dst g w (fun j e => (res j e).1)
      (fun j e => (res j e).2.2) ∧
    ∀ c, c < 6 → Collects (elementwise v slabs run lg g srcs dst w fn).2 (raisedOf g run.act res run.index) c := by
  intro res
  have hfold := elementwise_fold (fun u j rs => u.putOp dst j w rs) v run.act res run.index g
  have e : elementwise v slabs run lg g srcs dst w fn =
      (((nrange 0 g).foldl (fun u j => u.putOp dst j w (putsOf run.act (res j))) v).popRings (ringsOf (srcs.map (·.o))),
       (raisedOf g run.act res run.index).foldl (fun a p => a.add p.2 p.1) Evs.none) := by
    unfold elementwise; simp only []; rw [hfold]
  rw [e]
  refine ⟨?_, fun c hc => by simpa using Collects.fold hc _ [] _ collects_nil⟩
  simp only []
  generalize hreads : srcs.map (·.o) = reads
  cases dst with
  | reg k =>
    obtain ⟨h1, h2, h3, h4, h5, h6⟩ := putRegs v k w run.act res hb g
    simp only [VecState.putOp]
    generalize (nrange 0 g).foldl (fun v j => v.putReg (k + j) w (putsOf run.act (res j))) v = u at *
    obtain ⟨p1, p2, p3, p4, p5⟩ := popRings_same (ringsOf reads) u
    have hreg : ∀ n, (u.popRings (ringsOf reads)).reg n = u.reg n := fun n => by unfold VecState.reg; rw [p1]
    constructor
    · intro k' hk j hj el; cases hk
      rw [hreg, h1, if_pos (by omega), show k + j - k = j by omega, putsOf, elemAt_putBits_map _ _ _ _ _ hn]
    · intro k' hk j hj eg heg; cases hk
      rw [p2, h2 _ _ heg, if_pos (by omega), show k + j - k = j by omega]
      exact egPoison_putPois _ _ _ _ _ _ hw hd hn _ (fun e he => ⟨fun h => (egKey_inj (hb e he) heg h).2, fun h => by rw [h]⟩)
        (fun a ha b hb' h => (egKey_inj (hb a ha) (hb b hb') h).2)
    · intro q hq; cases hq
    · intro n hn'
      have := hn' k rfl
      refine ⟨by rw [hreg, h1, if_neg (by omega)], fun eg heg => by rw [p2, h2 _ _ heg, if_neg (by omega)]⟩
    · intro q _
      rw [ring_popRings]; simp only [not_mem_ringsOf]; unfold VecState.ring; rw [h4]
    · exact ⟨p3.trans h3, p4.trans h5, p5.trans h6⟩
  | ring q =>
    have hg := hr q rfl
    subst hg
    have e1 : (nrange 0 1).foldl (fun u j => u.putOp (.ring q) j w (putsOf run.act (res j))) v =
        v.setRing q (v.ring q ++ [ringEntry w (putsOf run.act (res 0))]) := rfl
    rw [e1]
    generalize hu : v.setRing q (v.ring q ++ [ringEntry w (putsOf run.act (res 0))]) = u
    obtain ⟨p1, p2, p3, p4, p5⟩ := popRings_same (ringsOf reads) u
    have hreg : ∀ n, (u.popRings (ringsOf reads)).reg n = v.reg n := fun n => by unfold VecState.reg; rw [p1, ← hu]; rfl
    have hpois : (u.popRings (ringsOf reads)).pois = v.pois := by rw [p2, ← hu]; rfl
    constructor
    · intro k' hk; cases hk
    · intro k' hk; cases hk
    · intro q' hq hq'; cases hq
      refine ⟨_, by rw [ring_popRings, if_neg (fun h => hq' (not_mem_ringsOf.mp h)), ← hu, VecState.ring_setRing, if_pos rfl], rfl, fun el => ?_,
        fun eg => ?_⟩
      · show elemAt (putBits 0 w _) w el = _
        rw [putsOf, elemAt_putBits_map _ _ _ _ _ hn]
        simp [elemAt, bitsAt]
      · show smem eg (putPois (fun g => g) [] w _) = true ↔ _
        rw [smem_putPois _ _ _ _ _ (fun _ _ _ _ h => h)]
        have hnil : smem eg ([] : NatSet) = false := rfl
        rw [hnil]
        constructor
        · intro h
          split at h
          · split at h
            · next h2 =>
              obtain ⟨p, hp, h3, h4⟩ := h2
              obtain ⟨i, hi, rfl⟩ := List.mem_map.mp hp
              exact ⟨i, hi, h3, h4⟩
            · split at h <;> cases h
          · cases h
        · rintro ⟨i, hi, h3, h4⟩
          rw [if_pos ⟨_, List.mem_map_of_mem hi, h3⟩, if_pos ⟨_, List.mem_map_of_mem hi, h3, h4⟩]
    · intro n _
      exact ⟨hreg n, fun eg _ => by rw [hpois]⟩
    · intro p hp
      have hne : p ≠ q := fun h => hp (by rw [h])
      rw [ring_popRings]; simp only [not_mem_ringsOf]; rw [← hu, VecState.ring_setRing, if_neg hne]
    · exact ⟨by rw [p3, ← hu]; rfl, by rw [p4, ← hu]; rfl, by rw [p5, ← hu]; rfl⟩

/-- The events of a run outside VP mode are those of `EventsOf`. -/
theorem eventsOf_collects {ev : Evs} {g vl : Nat} {act : List Nat} {res : Nat → Nat → Result}
    (h : ∀ c, c < 6 → Collects ev (raisedOf g act res fun j e => j * vl + e) c) :
    EventsOf ev g vl act (fun j e => if (res j e).2.2 then 0 else (res j e).2.1) := by
  intro c hc
  obtain ⟨h1, h2, h3⟩ := h c hc
  have hmem : ∀ p, p ∈ raisedOf g act res (fun j e => j * vl + e) ↔
      ∃ j, j < g ∧ ∃ e ∈ act, p = (j * vl + e, if (res j e).2.2 then 0 else (res j e).2.1) := by
    intro p; unfold raisedOf
    simp only [List.mem_flatMap, mem_nrange, List.mem_map]
    exact ⟨fun ⟨j, hj, e, he, x⟩ => ⟨j, by omega, e, he, x.symm⟩, fun ⟨j, hj, e, he, x⟩ => ⟨j, by omega, e, he, x.symm⟩⟩
  refine ⟨h1.trans ⟨?_, ?_⟩, fun hr => ⟨?_, ?_⟩⟩
  · rintro ⟨p, hp, hc⟩
    obtain ⟨j, hj, e, he, rfl⟩ := (hmem p).mp hp
    exact ⟨j, hj, e, he, hc⟩
  · rintro ⟨j, hj, e, he, hc⟩
    exact ⟨_, (hmem _).mpr ⟨j, hj, e, he, rfl⟩, hc⟩
  · obtain ⟨p, hp, hc, hi⟩ := h2 hr
    obtain ⟨j, hj, e, he, rfl⟩ := (hmem p).mp hp
    exact ⟨j, hj, e, he, hc, hi⟩
  · intro j hj e he hc
    exact h3 _ ((hmem _).mpr ⟨j, hj, e, he, rfl⟩) hc

/-! The end of a vector instruction. -/

theorem join_none (e : Evs) : (Evs.none.join e).ev = e.ev ∧ ∀ c, c < 6 → (Evs.none.join e).ix.getD c 0 = e.ix.getD c 0 := by
  refine ⟨by simp [Evs.join, Evs.none], fun c hc => ?_⟩
  unfold Evs.join
  rw [getD_map_nrange hc]
  simp [Evs.none]

theorem State.slot_modSlot (s : State) (k j : Nat) (f : Slot → Slot) : (s.modSlot k f).slot j = if j = k then f (s.slot k) else s.slot j := by
  unfold State.modSlot State.slot; rw [tget_tset]

theorem State.vec_modVec (s : State) (f : VecState → VecState) : (s.modVec f).vec = f s.vec := by
  have : (s.modVec f).tr = s.tr := rfl
  unfold State.vec; rw [this]; unfold State.modVec; rw [State.slot_modSlot, if_pos rfl]

/-- Results of a vector instruction in place: vector state `v` in the slot, registers `ds` written, nothing else changed. -/
structure Holds (s u : State) (v : VecState) (ds : List (BitVec 6)) : Prop where
  device : u = { s with triads := u.triads, slots := u.slots }
  others : ∀ c, c ≠ s.cur.ctxn → u.triad c = s.triad c
  slot : u.slot s.tr.slotKey = { s.slot s.tr.slotKey with vec := v }
  slots : ∀ k, k ≠ s.tr.slotKey → u.slot k = s.slot k
  started : u.Started
  triad : u.tr = s.tr.setRole s.cur.role u.th
  regs : ∀ n, n ∉ ds → u.x n = s.x n
  role : u.th = { s.th with x := u.th.x }

theorem holds_modVec (s : State) (v : VecState) (hs : s.Started) : Holds s (s.modVec fun _ => v) v [] where
  device := rfl
  others _ _ := rfl
  slot := by unfold State.modVec; rw [State.slot_modSlot, if_pos rfl]
  slots k hk := by unfold State.modVec; rw [State.slot_modSlot, if_neg hk]
  started := hs
  triad := by
    show s.tr = s.tr.setRole s.cur.role s.th
    unfold State.th State.thread State.tr
    cases s.cur.role <;> rfl
  regs _ _ := rfl
  role := rfl

/-- The end of a vector instruction that raises no enabled event (R57, R59). -/
theorem vectorDone_finish {s u : State} {v : VecState} {ds : List (BitVec 6)} (h : Holds s u v ds) (sr : Bool) (e : Evs)
    (hp : s.vpNow = none) (hq : s.quiet) (hv : v.vp = s.vec.vp) :
    VectorDone s (u.vFinish sr e) v e (if sr then 1 else 0) ds := by
  have hcur : u.cur = s.cur := by rw [h.device]
  have hth := h.role
  have htr := h.triad
  have hkey : u.tr.slotKey = s.tr.slotKey := by rw [htr]; cases s.cur.role <;> rfl
  have hvec : u.vec = v := by unfold State.vec; rw [hkey, h.slot]
  have hpn : u.vpNow = none := by
    unfold State.vpNow at *
    rw [hvec, hcur, hv]; exact hp
  have hh : u.heldEvs = Evs.none := by unfold State.heldEvs; rw [hth]; simp [hq.2]
  have e1 : u.vFinish sr e = (if sr then u.bumpSn 1 else u).finish (Evs.none.join e) := by
    unfold State.vFinish; rw [hpn, hh]
  rw [e1]
  obtain ⟨j1, j2⟩ := join_none e
  have hu1 := h.started
  have b : ∃ w : State, w = (if sr then u.bumpSn 1 else u) ∧ OnlyTriad u w ∧ w.Started ∧ w.cur = s.cur ∧ w.th = u.th ∧
      w.tr = { u.tr with sn := u.tr.sn + BitVec.ofNat 64 (if sr then 1 else 0) } := by
    refine ⟨_, rfl, ?_⟩
    cases sr with
    | true =>
      refine ⟨onlyTriad_modTr _ _, started_modTr _ hu1, ?_, ?_, ?_⟩
      · rw [← hcur]; exact State.modTr_cur _ _
      · show (u.modTr _).th = _
        rw [State.th_modTr _ _ hu1 (fun t r => by cases r <;> rfl)]
      · show (u.modTr _).tr = _
        rw [State.tr_modTr _ _ hu1]; rfl
    | false => exact ⟨OnlyTriad.refl u, hu1, hcur, rfl, by simp⟩
  obtain ⟨w, hw, k1, k2, k3, k4, k5⟩ := b
  rw [← hw]
  have hm : (w.merge (Evs.none.join e)).Started := started_modTr _ k2
  have m1 : (w.merge (Evs.none.join e)).tr = w.tr.merge (Evs.none.join e) := State.tr_modTr _ _ k2
  have m2 : (w.merge (Evs.none.join e)).th = w.th := State.th_modTr _ _ k2 (fun t r => Triad.role_merge _ _ _)
  have m3 : (w.merge (Evs.none.join e)).cur = s.cur := by rw [← k3]; exact State.modTr_cur _ _
  have hvs : u.tr.vstat = s.tr.vstat := by rw [htr]; cases s.cur.role <;> rfl
  have hen : enabled (w.merge (Evs.none.join e)).tr.vstat &&& (Evs.none.join e).ev = 0 := by
    rw [m1]; simp only [Triad.merge]; rw [enabled_merge, k5]; simp only []; rw [hvs, hq.1]; simp
  have e2 : w.finish (Evs.none.join e) = (w.merge (Evs.none.join e)).advance := by
    unfold State.finish; simp only [hen, ne_eq, not_true_eq_false, if_false]
  rw [e2]
  obtain ⟨a1, a2⟩ := advances _ hm
  have d1 : OnlyTriad u (w.merge (Evs.none.join e)).advance := (k1.trans (onlyTriad_modTr _ _)).trans a1.toOnlyTriad
  have a3 : (w.merge (Evs.none.join e)).advance.tr = (w.tr.merge (Evs.none.join e)).setRole s.cur.role (w.merge (Evs.none.join e)).advance.th := by
    rw [a1.triad, m1, m3]
  refine ⟨⟨?_, ?_, ?_⟩, ?_, ?_, ?_, ?_, ?_, ?_⟩
  · rw [a2.pc, m2, k4, hth]; rfl
  · intro n hn
    rw [a2.regs n (by simp), ← h.regs n hn]; unfold State.x; rw [m2, k4]
  · have := a2.role; rw [m2, k4, hth] at this; exact this
  · rw [d1.device, h.device]
  · intro c hc; rw [d1.others c (by rw [hcur]; exact hc), h.others c hc]
  · have : (w.merge (Evs.none.join e)).advance.slot s.tr.slotKey = u.slot s.tr.slotKey := by rw [d1.device]; rfl
    rw [this, h.slot]
  · intro k hk
    have : (w.merge (Evs.none.join e)).advance.slot k = u.slot k := by rw [d1.device]; rfl
    rw [this, h.slots k hk]
  · rw [a3, k5, htr]
    generalize (w.merge (Evs.none.join e)).advance.th = r
    simp only [Triad.merge, j1]
    cases s.cur.role <;> rfl
  · intro c hc
    have : (w.merge (Evs.none.join e)).advance.tr.eix = (w.tr.merge (Evs.none.join e)).eix := by
      rw [a3]; generalize (w.merge (Evs.none.join e)).advance.th = r; cases s.cur.role <;> rfl
    rw [this]
    simp only [Triad.merge]
    refine (eixMerge_get _ _ hc).trans ?_
    have he : w.tr.eix = s.tr.eix := by rw [k5, htr]; cases s.cur.role <;> rfl
    rw [j1, j2 c hc, eixMerge, he]
    generalize s.tr.eix.getD c 0 = x
    clear * -
    cases a : e.ev.getLsbD c <;> cases b : x.getLsbD 63 <;> simp

/-- An instruction whose checks pass goes on (R136, R91). -/
theorem vIssue_ready {s : State} {dec disp : Bool} {reads writes : List Opnd} (h : VectorReady s dec disp reads writes) (go : State → State) :
    s.vIssue dec disp reads writes go = go s := by
  unfold State.vIssue
  simp [h.plain, h.decode, h.owns, h.dispatch, h.rings]

/-- An elementwise instruction of a thread outside VP mode (R57, R131, R134, R138). -/
theorem runElems_done (s : State) (m : Nat) (lg : Lg) (g : Nat) (srcs : List Src) (dst : Opnd) (w : Nat) (fn : VRun → EltFn) (sr : Bool)
    (hs : s.Started) (hp : s.vpNow = none) (hq : s.quiet) (hw : 0 < w) (hd : w ∣ 2048)
    (hb : ∀ e, e < s.th.vl → egOf w e < 64) (hr : ∀ q, dst = .ring q → g = 1) :
    let run : VRun := ⟨s.vec.active m s.th.vl, fun j _ => j, fun j e => j * s.th.vl + e⟩
    let res := fun j e => fn run j e (srcs.map fun x => readElt s.vec (s.bound s.tr.core) lg x j e)
    ∃ v ev, VectorDone s (s.runElems m lg g srcs dst w fn sr) v ev (if sr then 1 else 0) [] ∧
      Elementwise s.vec v (s.vec.active m s.th.vl) (srcs.map (·.o)) dst g w (fun j e => (res j e).1) (fun j e => (res j e).2.2) ∧
      EventsOf ev g s.th.vl (s.vec.active m s.th.vl) (fun j e => if (res j e).2.2 then 0 else (res j e).2.1) := by
  intro run res
  have hrun : s.vRun m = run := by unfold State.vRun; rw [hp]
  have hact : ∀ e ∈ s.vec.active m s.th.vl, e < s.th.vl := fun e he => by
    unfold VecState.active at he; rw [List.mem_filter, mem_nrange] at he; omega
  have hn : (s.vec.active m s.th.vl).Nodup := by
    unfold VecState.active nrange
    exact (List.Nodup.map (fun a b h => by simpa using h) List.nodup_range).filter _
  obtain ⟨h1, h2⟩ := elementwise_spec s.vec (s.bound s.tr.core) run lg g srcs dst w (fn run) hw hd hn (fun e he => hb e (hact e he)) hr
  have e : s.runElems m lg g srcs dst w fn sr = (s.modVec fun _ => (elementwise s.vec (s.bound s.tr.core) run lg g srcs dst w (fn run)).1).vFinish sr
      (elementwise s.vec (s.bound s.tr.core) run lg g srcs dst w (fn run)).2 := by unfold State.runElems; rw [hrun]
  rw [e]
  exact ⟨_, _, vectorDone_finish (holds_modVec s _ hs) sr _ hp hq h1.rest.2.2, h1, eventsOf_collects h2⟩

end Sys2Proof.Machine
end

