-- ==== Sys2Proof/Machine/Meras.lean ====
section
/-! DEFINITION. What the source language of the assembler `meras` means, and its output: expressions (R79), written
operands and options (R78), relocations and the loader's part (R80), directives (R81, R343), errors (R82), the `.mob`
file (R83). Which operands each mnemonic takes in text is left out; an instruction comes here as its mnemonic and the names
of its options, the word of its plain fields, and the expression of its one immediate. -/

namespace Sys2Proof.Meras

open Sys2Proof.Machine

/-! ## Expressions (R79) -/

/-- The binary operators of R79. -/
inductive BinOp
  | mul | div | rem | add | sub | shl | shr | and | xor | or
  deriving DecidableEq, Repr

/-- How tightly an operator binds: 5 the tightest (R79). -/
def BinOp.level : BinOp → Nat
  | .mul | .div | .rem => 5
  | .add | .sub => 4
  | .shl | .shr => 3
  | .and => 2
  | .xor => 1
  | .or => 0

/-- An expression (R79). -/
inductive Expr
  | num (w : Word)
  | name (s : String)
  | here
  | neg (e : Expr)
  | not (e : Expr)
  | bin (op : BinOp) (a b : Expr)
  | lo32 (e : Expr)
  | hi32 (e : Expr)
  deriving DecidableEq, Repr

/-- A token of an expression. -/
inductive Tok
  | num (w : Word)
  | name (s : String)
  | here | lpar | rpar | tilde
  | op (o : BinOp)
  deriving DecidableEq, Repr

/-- The value of a digit: decimal digits and, as R4 writes them, upper-case hexadecimal ones. -/
def digitVal (c : Char) : Option Nat :=
  if '0' ≤ c ∧ c ≤ '9' then some (c.toNat - 48)
  else if 'A' ≤ c ∧ c ≤ 'F' then some (c.toNat - 55)
  else none

/-- The number that digits of a base write; `_` may stand between two digits (R4, R79). -/
def numVal (base : Nat) : List Char → Option Nat → Option Nat
  | [], acc => acc
  | '_' :: c :: cs, some a =>
    match digitVal c with
    | some d => if d < base then numVal base cs (some (a * base + d)) else none
    | none => none
  | c :: cs, acc =>
    match digitVal c with
    | some d => if d < base then numVal base cs (some (acc.getD 0 * base + d)) else none
    | none => none

/-- A constant as R4 writes it; it must fit in 64 bits. -/
def constVal (cs : List Char) : Option Word :=
  let v := match cs with
    | '0' :: 'x' :: r => numVal 16 r none
    | '0' :: 'b' :: r => numVal 2 r none
    | _ => numVal 10 cs none
  v.bind fun n => if n < 2 ^ 64 then some (BitVec.ofNat 64 n) else none

/-- The characters of identifiers and constants: letters, digits, `_` and `.`. -/
def wordChar (c : Char) : Bool := c.isAlphanum || c == '_' || c == '.'

/-- The tokens of an expression's text; the number bounds the tokens. -/
def lex : Nat → List Char → Option (List Tok)
  | _, [] => some []
  | 0, _ => none
  | n + 1, c :: cs =>
    let one (t : Tok) := (lex n cs).map (t :: ·)
    match c, cs with
    | ' ', _ => lex n cs
    | '\t', _ => lex n cs
    | '(', _ => one .lpar
    | ')', _ => one .rpar
    | '~', _ => one .tilde
    | '$', _ => one .here
    | '*', _ => one (.op .mul)
    | '/', _ => one (.op .div)
    | '%', _ => one (.op .rem)
    | '+', _ => one (.op .add)
    | '-', _ => one (.op .sub)
    | '&', _ => one (.op .and)
    | '^', _ => one (.op .xor)
    | '|', _ => one (.op .or)
    | '<', '<' :: r => (lex n r).map (.op .shl :: ·)
    | '>', '>' :: r => (lex n r).map (.op .shr :: ·)
    | _, _ =>
      let w := (c :: cs).takeWhile wordChar
      let r := (c :: cs).dropWhile wordChar
      if w = [] then none
      else if c.isDigit then (constVal w).bind fun v => (lex n r).map (.num v :: ·)
      else (lex n r).map (.name (String.ofList w) :: ·)

/-- Reads an expression whose operators bind at least as tightly as a level: with no operand yet, an operand of the
next level and then the operators of this one; with an operand, the operators that follow it. Level 6 is a unary
expression. The first number bounds the calls. -/
def parse : Nat → Nat → Option Expr → List Tok → Option (Expr × List Tok)
  | 0, _, _, _ => none
  | n + 1, lvl, some e, ts =>
    match ts with
    | .op o :: r =>
      if o.level = lvl then (parse n (lvl + 1) none r).bind fun (b, r) => parse n lvl (some (.bin o e b)) r
      else some (e, ts)
    | _ => some (e, ts)
  | n + 1, lvl, none, ts =>
    if lvl < 6 then (parse n (lvl + 1) none ts).bind fun (e, r) => parse n lvl (some e) r
    else
      let paren (r : List Tok) (k : Expr → Expr) :=
        (parse n 0 none r).bind fun (e, r) => match r with
          | .rpar :: r => some (k e, r)
          | _ => none
      match ts with
      | .op .sub :: r => (parse n 6 none r).map fun (e, r) => (.neg e, r)
      | .tilde :: r => (parse n 6 none r).map fun (e, r) => (.not e, r)
      | .lpar :: r => paren r id
      | .name s :: .lpar :: r => if s = "lo32" then paren r .lo32 else if s = "hi32" then paren r .hi32 else none
      | .name s :: r => some (.name s, r)
      | .num w :: r => some (.num w, r)
      | .here :: r => some (.here, r)
      | _ => none

/-- The expression that a text writes. -/
def exprOf (text : String) : Option Expr :=
  match lex (text.length + 1) text.toList with
  | some ts =>
    match parse (16 * (ts.length + 1)) 0 none ts with
    | some (e, []) => some e
    | _ => none
  | none => none

/-- What an address symbol of a value is: a name, or the current word or datum. -/
inductive Ref
  | name (s : String)
  | here
  deriving DecidableEq, Repr

/-- Which part of a 64-bit number a value takes: all of it, or a half as a natural value (R79). -/
inductive Part
  | whole | lo | hi
  deriving DecidableEq, Repr

/-- The value of an expression: absolute when it has no symbol, else symbol plus addend, or a half of that. The half
of an absolute value is taken already. -/
structure Value where
  ref : Option Ref
  addend : Word
  part : Part
  deriving DecidableEq, Repr

/-- A half of a number as a natural value (R79). -/
def Part.of (p : Part) (w : Word) : Word :=
  match p with
  | .whole => w
  | .lo => (w.extractLsb' 0 32).setWidth 64
  | .hi => (w.extractLsb' 32 32).setWidth 64

/-- A binary operator on 64-bit two's-complement numbers (R79). R79 gives no result for a division by zero nor for a
shift by a count outside 0 to 63. (DESIGN CHOICE, log entry 81.) -/
def BinOp.apply (op : BinOp) (a b : Word) : Word :=
  match op with
  | .mul => a * b
  | .div => if b = 0 then Config.merasOpen 0 a b else a.sdiv b
  | .rem => if b = 0 then Config.merasOpen 1 a b else a.srem b
  | .add => a + b
  | .sub => a - b
  | .shl => if b.toNat < 64 then a <<< b.toNat else Config.merasOpen 2 a b
  | .shr => if b.toNat < 64 then a.sshiftRight b.toNat else Config.merasOpen 3 a b
  | .and => a &&& b
  | .xor => a ^^^ b
  | .or => a ||| b

/-- An absolute value. -/
def Value.abs (w : Word) : Value := ⟨none, w, .whole⟩

/-- Half of a value (R79). -/
def Value.half (p : Part) (v : Value) : Option Value :=
  match v.ref, v.part with
  | none, _ => some ⟨none, p.of v.addend, p⟩
  | some r, .whole => some ⟨some r, v.addend, p⟩
  | some _, _ => none

/-- A binary operation on values: on absolute ones any, on a symbol only the sum with or difference to an absolute
one (R79). -/
def Value.bin (op : BinOp) (a b : Value) : Option Value :=
  match a.ref, b.ref with
  | none, none => some (.abs (op.apply a.addend b.addend))
  | some r, none =>
    if (op = .add ∨ op = .sub) ∧ a.part = .whole then some ⟨some r, op.apply a.addend b.addend, .whole⟩ else none
  | _, some _ => none

/-- An operation that takes absolute values only. -/
def Value.un (f : Word → Word) (v : Value) : Option Value :=
  match v.ref with
  | none => some (.abs (f v.addend))
  | some _ => none

/-- The value of an expression under the constants defined so far; every other name is an address symbol (R79). A constant
that a later line defines is not known yet, so its use ends in an error. (DEDUCED, log entry 81.) -/
def Expr.value (consts : List (String × Word)) : Expr → Option Value
  | .num w => some (.abs w)
  | .name s =>
    match consts.lookup s with
    | some w => some (.abs w)
    | none => some ⟨some (.name s), 0, .whole⟩
  | .here => some ⟨some .here, 0, .whole⟩
  | .neg e => (e.value consts).bind (Value.un (- ·))
  | .not e => (e.value consts).bind (Value.un (~~~ ·))
  | .bin op a b => (a.value consts).bind fun x => (b.value consts).bind fun y => Value.bin op x y
  | .lo32 e => (e.value consts).bind (Value.half .lo)
  | .hi32 e => (e.value consts).bind (Value.half .hi)

/-- The value of an expression that must be absolute. -/
def Expr.absolute (consts : List (String × Word)) (e : Expr) : Option Word :=
  (e.value consts).bind fun v => if v.ref = none then some v.addend else none

/-! ## Written operands and options (R78) -/

/-- A register as it is written: x5, v12, m3, a2, q4. -/
inductive Reg
  | x (n : BitVec 6) | v (n : BitVec 6) | m (n : BitVec 4) | a (n : BitVec 3) | q (n : BitVec 3)
  deriving DecidableEq, Repr

/-- The number that a register puts into its field (R68, R78). -/
def Reg.num : Reg → BitVec 6
  | .x n => n
  | .v n => n
  | .m n => n.setWidth 6
  | .a n => n.setWidth 6
  | .q n => n.setWidth 6

/-- The ring flag that a register puts beside its field (R66, R78). -/
def Reg.flag : Reg → Bool
  | .q _ => true
  | _ => false

/-- The code of a mask option, m0 when it is omitted. -/
def maskCode (m : Option (BitVec 4)) : BitVec 4 := m.getD 0

/-- The code of a legend register, x0 when it is omitted. -/
def legendCode (x : Option (BitVec 6)) : BitVec 6 := x.getD 0

/-- The code of a rounding option, 7 when it is omitted (R45, R67, R78). -/
def rmCode : Option String → Option (BitVec 3)
  | none => some 7
  | some "rne" => some 0
  | some "rtz" => some 1
  | some "rup" => some 2
  | some "rdn" => some 3
  | some "rna" => some 4
  | some "sr" => some 5
  | some _ => none

/-- The code of a group size (R67). -/
def grpCode : Nat → Option (BitVec 2)
  | 1 => some 0
  | 2 => some 1
  | 4 => some 2
  | 8 => some 3
  | _ => none

/-- The code of a number of repeats: n + 1 steps (R67). -/
def repCode (n : Nat) : Option (BitVec 4) := if 1 ≤ n ∧ n ≤ 16 then some (BitVec.ofNat 4 (n - 1)) else none

/-- The code of a condition keyword (R67). -/
def condCode : String → Option (BitVec 3)
  | "eq" => some 0
  | "ne" => some 1
  | "lt" => some 2
  | "ge" => some 3
  | "ltn" => some 4
  | "gen" => some 5
  | "al" => some 6
  | _ => none

/-- The code of a scope keyword (R67). -/
def scopeCode : String → Option (BitVec 3)
  | "triad" => some 0
  | "core" => some 1
  | "die" => some 2
  | "device" => some 3
  | "bank" => some 4
  | "system" => some 5
  | _ => none

/-- The code of a cache keyword (R67). -/
def cacheCode : String → Option (BitVec 2)
  | "normal" => some 0
  | "stream" => some 1
  | "keep" => some 2
  | _ => none

/-- The code of an element width in bytes (R67). -/
def widthCode (n : Nat) : Option (BitVec 2) := grpCode n

/-- The seg field of the options nf, wm, wr and ext=s (R67, R78). -/
def segCode (nf wm wr : Nat) (s : Bool) : Option (BitVec 8) :=
  match widthCode wm, widthCode wr with
  | some m, some r =>
    if 1 ≤ nf ∧ nf ≤ 8 then some (BitVec.ofNat 3 (nf - 1) ++ m ++ r ++ BitVec.ofBool s) else none
  | _, _ => none

/-- The code of a type suffix, 15 without one (R67). -/
def suffixCode : Option String → Option (BitVec 4)
  | none => some 15
  | some "i8" => some 0
  | some "i16" => some 1
  | some "i32" => some 2
  | some "i64" => some 3
  | some "n8" => some 4
  | some "n16" => some 5
  | some "n32" => some 6
  | some "n64" => some 7
  | some "d" => some 8
  | some "s" => some 9
  | some "h" => some 10
  | some "b" => some 11
  | some _ => none

/-- The number that a name of a class writes, as in x5: the class's letter and a decimal number below n. -/
def indexOf (c : Char) (n : Nat) : List Char → Option Nat
  | d :: cs =>
    if d = c ∧ cs ≠ [] ∧ cs.all Char.isDigit then (numVal 10 cs none).bind fun v => if v < n then some v else none else none
  | [] => none

/-- The register that a name writes (R78). -/
def regOf (s : String) : Option Reg :=
  match indexOf 'x' 64 s.toList, indexOf 'v' 64 s.toList, indexOf 'm' 16 s.toList, indexOf 'a' 8 s.toList,
      indexOf 'q' 8 s.toList with
  | some n, _, _, _, _ => some (.x (BitVec.ofNat 6 n))
  | _, some n, _, _, _ => some (.v (BitVec.ofNat 6 n))
  | _, _, some n, _, _ => some (.m (BitVec.ofNat 4 n))
  | _, _, _, some n, _ => some (.a (BitVec.ofNat 3 n))
  | _, _, _, _, some n => some (.q (BitVec.ofNat 3 n))
  | _, _, _, _, _ => none

/-- Whether a name is reserved: a register, ring, tile, window, channel or barrier (R78). -/
def reserved (s : String) : Bool :=
  (regOf s).isSome || (indexOf 'w' 8 s.toList).isSome || (indexOf 'c' 16 s.toList).isSome ||
    (indexOf 'b' 256 s.toList).isSome

/-- Whether a text is an identifier that a label or constant may bear. -/
def isIdent (s : String) : Bool :=
  match s.toList with
  | [] => false
  | c :: cs => !c.isDigit && (c :: cs).all wordChar && !reserved s

/-- A line without its comment, which begins with `;` or `//`. -/
def uncommented : List Char → List Char
  | [] => []
  | ';' :: _ => []
  | '/' :: '/' :: _ => []
  | c :: cs => c :: uncommented cs

/-- The label of a line, an identifier followed by a colon, and the rest of the line. -/
def labelOf (cs : List Char) : Option String × List Char :=
  let cs := cs.dropWhile Char.isWhitespace
  let name := String.ofList (cs.takeWhile wordChar)
  match cs.dropWhile wordChar with
  | ':' :: r => if isIdent name then (some name, r) else (none, cs)
  | _ => (none, cs)

/-- A mnemonic with its type suffix: what stands before and after the dot of the word (R78). -/
def mnemonicOf (w : String) : Option (String × BitVec 4) :=
  let name := String.ofList (w.toList.takeWhile (· != '.'))
  match w.toList.dropWhile (· != '.') with
  | [] => (suffixCode none).map fun c => (name, c)
  | _ :: s => (suffixCode (some (String.ofList s))).map fun c => (name, c)

/-! ## Relocations (R80) -/

/-- The relocations of R80. -/
inductive Rel
  | disp40 | imm32 | lo32 | hi32 | imm16 | word64
  deriving DecidableEq, Repr

/-- The number of a relocation in a `.mob` file (R83). -/
def Rel.num : Rel → Nat
  | .disp40 => 1
  | .imm32 => 2
  | .lo32 => 3
  | .hi32 => 4
  | .imm16 => 5
  | .word64 => 6

/-- The relocation of a number (R83). -/
def Rel.ofNum : Nat → Option Rel
  | 1 => some .disp40
  | 2 => some .imm32
  | 3 => some .lo32
  | 4 => some .hi32
  | 5 => some .imm16
  | 6 => some .word64
  | _ => none

/-- Whether a number fits in n bits as a signed value. -/
def fits (n : Nat) (w : Word) : Bool := -(2 ^ (n - 1) : Int) ≤ w.toInt ∧ w.toInt < 2 ^ (n - 1)

/-- A displacement in words that R80 accepts: a multiple of 16 that fits in 40 bits. -/
def dispOk (d : Word) : Bool := d.toNat % 16 == 0 && fits 40 d

/-- The value that a relocation gives its field, for the symbol's address, the addend and the place's address; none
where it does not meet its check (R80). -/
def Rel.value (k : Rel) (s a p : Word) : Option Word :=
  match k with
  | .disp40 =>
    let d := s + a - p
    if d.toNat % 8 = 0 ∧ dispOk (d.sshiftRight 3) then some (d.sshiftRight 3) else none
  | .imm32 => if fits 32 (s + a) then some (s + a) else none
  | .lo32 => some (Part.lo.of (s + a))
  | .hi32 => some (Part.hi.of (s + a))
  | .imm16 => if fits 16 (s + a) then some (s + a) else none
  | .word64 => some (s + a)

/-- The lowest bit and the width of the field that a relocation fills (R65, R80). -/
def Rel.field : Rel → Nat × Nat
  | .disp40 => (0, 40)
  | .imm32 => (11, 32)
  | .lo32 => (11, 32)
  | .hi32 => (11, 32)
  | .imm16 => (0, 16)
  | .word64 => (0, 64)

/-- A word with one field replaced by the low bits of a value. -/
def putField (w : Word) (lo n : Nat) (v : Word) : Word :=
  let mask := BitVec.ofNat 64 ((2 ^ n - 1) * 2 ^ lo)
  (w &&& ~~~ mask) ||| ((v <<< lo) &&& mask)

/-- A word with a relocation's value in its field. -/
def Rel.put (k : Rel) (w v : Word) : Word := putField w k.field.1 k.field.2 v

/-! ## Assembling -/

/-- The immediate of an instruction or datum that an expression gives; `natural` where the instruction's entry calls it
so (R67). -/
inductive Imm
  | disp40 | imm32 (natural : Bool) | imm16 (natural : Bool) | word64
  deriving DecidableEq, Repr

/-- The relocation that a relocatable value needs in a field; none where R80 has none. -/
def Imm.rel : Imm → Part → Option Rel
  | .disp40, .whole => some .disp40
  | .imm32 _, .whole => some .imm32
  | .imm32 _, .lo => some .lo32
  | .imm32 _, .hi => some .hi32
  | .imm16 _, .whole => some .imm16
  | .word64, .whole => some .word64
  | _, _ => none

/-- Whether an absolute value fits its field (R80, R82). An absolute displacement counts words. (DEDUCED, log
entry 81.) -/
def Imm.fitsAbs (f : Imm) (p : Part) (v : Word) : Bool :=
  match f with
  | .disp40 => dispOk v
  | .imm32 natural => p != .whole || (if natural then v.toNat < 2 ^ 32 else fits 32 v)
  | .imm16 natural => if natural then v.toNat < 2 ^ 16 else fits 16 v
  | .word64 => true

/-- The place of a field in its word. -/
def Imm.place : Imm → Nat × Nat
  | .disp40 => (0, 40)
  | .imm32 _ => (11, 32)
  | .imm16 _ => (0, 16)
  | .word64 => (0, 64)

/-- The keys of `.legend` (R81). -/
inductive LegendKey
  | fa | fb | fd | fc | scm | rnd | sat | daz | ftz | ssel | tsc | stw
  deriving DecidableEq, Repr

/-- The lowest bit and width of a legend field (R40). -/
def LegendKey.place : LegendKey → Nat × Nat
  | .fa => (0, 5)
  | .fb => (5, 5)
  | .fd => (10, 5)
  | .fc => (15, 5)
  | .scm => (20, 3)
  | .rnd => (23, 3)
  | .sat => (26, 1)
  | .daz => (27, 1)
  | .ftz => (28, 1)
  | .ssel => (29, 2)
  | .tsc => (32, 8)
  | .stw => (40, 16)

/-- Whether R40 and R41 allow a value of a legend field. -/
def LegendKey.ok (k : LegendKey) (v : Nat) : Bool :=
  v < 2 ^ k.place.2 &&
    match k with
    | .fa | .fb | .fd | .fc => (fmtOfCode v).isSome
    | .scm => v < 4
    | .rnd => v < 6
    | .ssel => v < 3
    | _ => true

/-- An instruction as it is written: its mnemonic with its suffix, and the keys of its options (R78). -/
structure Written where
  mnemonic : String
  options : List String
  deriving DecidableEq, Repr

/-- What stands on one source line (R81), names and numbers already split from the text. -/
inductive Line
  | label (name : String)
  | triad (name : String)
  | role (r : Role)
  | block
  | endblock
  | instr (text : Written) (w : Word) (imm : Option (Imm × Expr))
  | data
  | align (n : Expr)
  | word (es : List Expr)
  | equ (name : String) (e : Expr)
  | legend (name : String) (keys : List (LegendKey × Expr))
  | window (n : BitVec 3) (sym size : Expr)
  | launch (name triad : String) (gangs : Expr) (queue triads slabs : Option Expr)
  deriving DecidableEq, Repr

/-- Why `meras` writes no file (R82). -/
inductive Err
  /-- A mnemonic that R69 does not have, or not for this opcode. -/
  | unknownMnemonic (s : String)
  /-- A suffix that R67 does not have. -/
  | unknownSuffix (s : String)
  /-- An option that no entry has. -/
  | unknownOption (s : String)
  /-- A word whose role, groups or register sets break R72, R75 or R76. -/
  | operandRule
  /-- An instruction outside a block. -/
  | outsideBlock
  /-- A block of zero or more than 16 words. -/
  | blockSize
  /-- Nested blocks, or a directive in a block that must stand outside one. -/
  | nestedBlock
  /-- A field value out of range. -/
  | outOfRange
  /-- A word that breaks a decode rule. -/
  | decodeRule (r : Reject)
  /-- A triad with a role that has no blocks. -/
  | roleWithoutBlocks (triad : String)
  /-- `gangs=` above 65,535. -/
  | gangs
  /-- A value that is neither absolute nor of a relocatable form. -/
  | notRelocatable
  /-- A name that nothing defines, or that is defined twice. -/
  | name (s : String)
  /-- A directive of the data section outside it. -/
  | notInData
  deriving DecidableEq, Repr

/-- The kinds of section of R83, in the order in which they stand here. -/
inductive Sect
  | code | data | launch
  deriving DecidableEq, Repr

/-- The index of a section in the files that this model writes. -/
def Sect.index : Sect → Nat
  | .code => 0
  | .data => 1
  | .launch => 2

/-- The kinds of symbol (R83). -/
inductive SymKind
  | label | const | triad | entry | launch
  deriving DecidableEq, Repr

/-- The number of a symbol's kind (R83). -/
def SymKind.num : SymKind → Nat
  | .label => 0
  | .const => 1
  | .triad => 2
  | .entry => 3
  | .launch => 4

/-- A symbol: its name, section, kind and value, an offset in the section or a constant (R83). -/
structure Symbol where
  name : String
  sect : Nat
  kind : Nat
  value : Word
  deriving DecidableEq, Repr

/-- A relocation: section, type, symbol index, offset and addend (R83). -/
structure Reloc where
  sect : Nat
  type : Nat
  sym : Nat
  offset : Nat
  addend : Word
  deriving DecidableEq, Repr

/-- A section: kind, log2 of its alignment, contents (R83). -/
structure Section where
  kind : Nat
  align : Nat
  bytes : List Byte
  deriving DecidableEq, Repr

/-- What a `.mob` file holds (R83). -/
structure Mob where
  sections : List Section
  symbols : List Symbol
  relocs : List Reloc
  deriving DecidableEq, Repr

/-- A place that an expression left to the loader, its symbol not yet numbered. -/
structure Fixup where
  sect : Sect
  rel : Rel
  ref : String
  offset : Nat
  addend : Word
  deriving DecidableEq, Repr

/-- Where the assembler stands. -/
structure Asm where
  code : List Word := []
  data : List Word := []
  recs : List Word := []
  dataAlign : Nat := 3
  consts : List (String × Word) := []
  syms : List Symbol := []
  fixups : List Fixup := []
  triad : Option String := none
  role : Option Role := none
  entries : List (String × Role × Nat) := []
  inBlock : Option Nat := none
  inData : Bool := false
  wins : List (Nat × String × Word × Word) := []
  /-- the queue that each launch names to the runtime (R343) -/
  queues : List (String × Word) := []
  deriving DecidableEq, Repr

/-- The section and the offset of the next word, as they stand before the line acts: a label before `.block` is the place
before the padding. (DEDUCED, log entry 81.) -/
def Asm.place (a : Asm) : Sect × Nat :=
  if a.inBlock.isNone && a.inData then (.data, 8 * a.data.length) else (.code, 8 * a.code.length)

/-- Defines a symbol; a name has one definition. -/
def Asm.define (a : Asm) (s : Symbol) : Except Err Asm :=
  if a.syms.any (·.name == s.name) then .error (.name s.name) else .ok { a with syms := a.syms ++ [s] }

/-- The name under which the model keeps the symbol of `$` at a place. -/
def hereName (s : Sect) (o : Nat) : String := "$" ++ toString s.index ++ "." ++ toString o

/-- The symbol that a value's reference names; `$` becomes a label of its own at the current place. -/
def Asm.refName (a : Asm) (s : Sect) (o : Nat) : Ref → Asm × String
  | .name n => (a, n)
  | .here =>
    let n := hereName s o
    (if a.syms.any (·.name == n) then a else { a with syms := a.syms ++ [⟨n, s.index, 0, BitVec.ofNat 64 o⟩] }, n)

/-- A word at a place with its immediate put in, or left to the loader (R80). -/
def Asm.fill (a : Asm) (s : Sect) (o : Nat) (w : Word) (f : Imm) (e : Expr) : Except Err (Asm × Word) :=
  match e.value a.consts with
  | none => .error .notRelocatable
  | some v =>
    match v.ref with
    | none =>
      if f.fitsAbs v.part v.addend then .ok (a, putField w f.place.1 f.place.2 v.addend) else .error .outOfRange
    | some r =>
      match f.rel v.part with
      | none => .error .notRelocatable
      | some k =>
        let (a, n) := a.refName s o r
        .ok ({ a with fixups := a.fixups ++ [⟨s, k, n, o, v.addend⟩] }, w)

/-- The name of the entry symbol of a role. -/
def entryName (t : String) (r : Role) : String :=
  t ++ (match r with | .loader => ".loader" | .computer => ".computer" | .storer => ".storer")

/-- Zero words that bring n words to a multiple of k. -/
def padding (k n : Nat) : List Word := List.replicate ((k - n % k) % k) 0

/-- `.block`: aligns the code location to 128 bytes; the first block of a role is its entry (R81). -/
def Asm.openBlock (a : Asm) : Except Err Asm :=
  match a.inBlock with
  | some _ => .error .nestedBlock
  | none =>
    let code := a.code ++ padding 16 a.code.length
    let a := { a with code := code, inBlock := some code.length, inData := false }
    match a.triad, a.role with
    | some t, some r =>
      if a.entries.any (fun (x : String × Role × Nat) => x.1 == t && x.2.1 == r) then .ok a
      else { a with entries := a.entries ++ [(t, r, 8 * code.length)] }.define
        ⟨entryName t r, Sect.code.index, SymKind.entry.num, BitVec.ofNat 64 (8 * code.length)⟩
    | _, _ => .ok a

/-- `.endblock`: sets E on the block's last word (R60, R81); the words must keep the decode rules that they show
(R82). -/
def Asm.closeBlock (a : Asm) : Except Err Asm :=
  match a.inBlock with
  | none => .error .nestedBlock
  | some start =>
    let n := a.code.length - start
    if n = 0 ∨ 16 < n then .error .blockSize
    else .ok { a with code := a.code.dropLast ++ [a.code.getLastD 0 ||| (1 <<< 63)], inBlock := none }

/-- The legend word of `.legend` (R40, R41, R81). -/
def legendWord (consts : List (String × Word)) : List (LegendKey × Expr) → Word → Except Err Word
  | [], w => .ok w
  | (k, e) :: ks, w =>
    match e.absolute consts with
    | none => .error .notRelocatable
    | some v => if k.ok v.toNat then legendWord consts ks (putField w k.place.1 k.place.2 v) else .error .outOfRange

/-- Emits the data words of `.word` (R81). -/
def Asm.words (a : Asm) : List Expr → Except Err Asm
  | [] => .ok a
  | e :: es =>
    match a.fill .data (8 * a.data.length) 0 .word64 e with
    | .error x => .error x
    | .ok (a, w) => Asm.words { a with data := a.data ++ [w] } es

/-- The base of a recorded window: the symbol and addend, or a number with no symbol. -/
def Asm.window (a : Asm) (n : BitVec 3) (sym size : Expr) : Except Err Asm :=
  match sym.value a.consts, size.absolute a.consts with
  | some v, some z =>
    if v.part ≠ .whole then .error .notRelocatable
    else if z.toNat < 2 ^ 32 then
      let o := if a.inData then 8 * a.data.length else 8 * a.code.length
      let (a, s) := match v.ref with
        | none => (a, "")
        | some r => a.refName (if a.inData then .data else .code) o r
      .ok { a with wins := a.wins.filter (·.1 != n.toNat) ++ [(n.toNat, s, v.addend, z)] }
    else .error .outOfRange
  | _, _ => .error .notRelocatable

/-- The two words of window n of a launch record and its relocation (R325, R343). -/
def winWords (wins : List (Nat × String × Word × Word)) (o n : Nat) : List Word × List Fixup :=
  match wins.find? (·.1 == n) with
  | none => ([0, 0], [])
  | some (_, s, add, size) =>
    if s = "" then ([add, size], []) else ([0, size], [⟨.launch, .word64, s, o, add⟩])

/-- The code of slabs per core in SHAPE (R325). -/
def slabCode : Nat → Option Nat
  | 1 => some 0
  | 2 => some 1
  | 4 => some 2
  | _ => none

/-- An option of `.launch` that must be absolute, with its default (R81). -/
def optValue (consts : List (String × Word)) (dflt : Word) : Option Expr → Option Word
  | none => some dflt
  | some e => e.absolute consts

/-- `.launch`: a task record with every field, no descriptors, the triad's entries, the shape and the recorded windows
(R324, R325, R343); queue, triads and slabs default to 0, 1 and 1, and the queue stands beside the record (R81, R343). -/
def Asm.launch (a : Asm) (name t : String) (gangs : Expr) (queue triads slabs : Option Expr) : Except Err Asm :=
  match gangs.absolute a.consts, optValue a.consts 0 queue, optValue a.consts 1 triads, optValue a.consts 1 slabs with
  | some g, some q, some k, some s =>
    if 65535 < g.toNat then .error .gangs
    else if k.toNat < 1 ∨ 112 < k.toNat ∨ 127 < q.toNat then .error .outOfRange
    else match slabCode s.toNat with
      | none => .error .outOfRange
      | some sc =>
        let o := 8 * a.recs.length
        let prog := [Role.loader, .computer, .storer].zipIdx.map fun (r, i) =>
          (⟨.launch, .word64, entryName t r, o + 8 + 8 * i, 0⟩ : Fixup)
        let wins : List (List Word × List Fixup) := (List.range 8).map fun n => winWords a.wins (o + 88 + 16 * n) n
        let shape := BitVec.ofNat 64 (g.toNat + k.toNat * 2 ^ 17 + sc * 2 ^ 24)
        let rec_ : List Word := [0x1BFFFF, 0, 0, 0, shape, 0, 0, 0, 0, 0, 0] ++ wins.flatMap (·.1)
        let a : Asm := { a with
          recs := a.recs ++ rec_, wins := [], queues := a.queues ++ [(name, q)]
          fixups := a.fixups ++ prog ++ wins.flatMap (·.2) }
        a.define
          ⟨name, Sect.launch.index, SymKind.launch.num, BitVec.ofNat 64 o⟩
  | _, _, _, _ => .error .notRelocatable

/-! ## What the source alone shows (R82) -/

/-- The mnemonics by opcode, from 0x00 up; an empty name is an unassigned opcode (R69). -/
def opcodeMap : List String :=
  (["", "add", "sub", "mul", "mulh", "div", "rem", "and", "or", "xor", "shl", "shr", "sra", "rotl", "min", "max"] ++
   ["cmp", "sel", "clz", "ctz", "popc", "bext", "bins", "lea", "addi", "andi", "ori", "xori", "shli", "shri", "srai", "cmpi"] ++
   ["movhi", "movi", "fadd", "fsub", "fmul", "fdiv", "fsqrt", "ffma", "fmin", "fmax", "fcmp", "fcvt", "fclass", "fsgn", "", ""] ++
   ["ld", "st", "amo", "cas", "ldw", "mfsr", "mtsr", "brev", "", "", "", "", "", "", "", ""] ++
   ["bc", "bal", "jr", "jalr", "loop", "exit", "vfetch", "vpbr", "vjoin", "nop", "", "", "", "", "", ""]) ++
  (["setvl", "vcfg", "vadd", "vsub", "vmul", "vmulh", "vdiv", "vrem", "vmin", "vmax", "vabs", "vneg", "vfma", "vfms", "vfnma", "vfnms"] ++
   ["vsqrt", "vrsqrt", "vrcp", "vavg", "vclamp", "vscalb", "vlogb", "vclass", "vand", "vor", "vxor", "vnot", "vandn", "vshl", "vshr", "vsra"] ++
   ["vrotl", "vclz", "vpopc", "vbrev", "vcmp", "vsel", "vmerge", "vbcast", "vramp", "vmovx", "vinsx", "vmov", "", "", "", ""] ++
   ["vmand", "vmor", "vmxor", "vmnot", "vmandn", "vmpop", "vmfirst", "vmsetf", "vmmov", "vmtox", "vmfromx", "", "", "", "", ""] ++
   ["vcvt", "vpack", "vunpack", "vredsum", "vredmin", "vredmax", "vreddot", "vscan", "vwelf", "vwmerge", "vtopk", "vperm", "vshuf", "vslideup", "vslidedn", "vcompress"]) ++
  (["vexpand", "vlut", "vredlog", "vredarg", "", "", "", "", "vld", "vst", "vlds", "vsts", "vlseg", "vsseg", "vlblk", "vsblk"] ++
   ["vgathw", "vgath", "vscat", "vscadd", "vamo", "qld", "qlds", "qst", "qsts", "qgath", "vpref", "", "", "", "", ""] ++
   ["oxadd", "oxsub", "oxwgt", "mldff", "mtalloc", "mtfree", "mtld", "mtst", "mtzero", "mtmov", "mwfill", "mwinv", "mtrow", "", "", ""] ++
   ["cstream", "ctensor", "cremap", "cwait", "cstat", "chint", "pbinv", "", "bkop", "", "mbuild", "madapt", "mcolor", "mcut", "mmigrate", "mghost"] ++
   ["vnbr", "vface", "mfree", "mquery", "tsubmit", "tsignal", "tstat", "", "fence", "sbar", "bkfence", "vfbar", "bsync", "barrive", "binit", "ramo"] ++
   ["fstat", "freplay", "fdiscard", "swapid", "xprobe", "xinv", "xinvall", "", "trap", "tret", "vsave", "vrstor", "ssave", "srstor", "idle", ""])

/-- The keys of the options that the entries have (R78). -/
def optionKeys : List String :=
  ["m", "lg", "rm", "grp", "rep", "scope", "cache", "st", "o", "d", "nf", "wm", "wr", "ext", "ew", "sel", "face", "sub",
   "fmt", "win", "nc", "slots", "tier", "ncomp", "red", "queue", "word", "acc"]

/-- Whether the words of a line are known: the mnemonic as that of the word's opcode, its suffix, its options (R82). -/
def Written.check (t : Written) (w : Word) : Option Err :=
  match mnemonicOf t.mnemonic with
  | none => some (.unknownSuffix t.mnemonic)
  | some (name, _) =>
    if name = "" ∨ opcodeMap[(w >>> 55).toNat % 256]? ≠ some name then some (.unknownMnemonic name)
    else (t.options.find? fun o => !optionKeys.contains o).map .unknownOption

/-- Sets as the source shows them: aligned, below v64, rings only where one may stand, and no partial overlap (R75, R76).
Partitions and the directions of rings are VCFG's, so they are not looked at. -/
def setsShown (g : Nat) (dsts srcs : List VField) : Bool :=
  (dsts ++ srcs).all (fun v => if v.q then v.ringable && g == 1 else v.fld % v.align == 0 && decide (v.fld + v.size ≤ 64)) &&
    setsFine (regSets dsts) (regSets srcs)

/-- Whether the decode rules of an instruction's operands hold in some partition (R74 to R77, R82). -/
def setsOk (i : Instr) : Bool := (vOps i).all fun o => o.fine && setsShown o.g o.dsts o.srcs

/-- What one line does (R81, R82). The symbol of a constant has the code section's index. (DEDUCED, log entry 81.) -/
def Asm.line (a : Asm) : Line → Except Err Asm
  | .label n =>
    let (s, o) := a.place
    a.define ⟨n, s.index, SymKind.label.num, BitVec.ofNat 64 o⟩
  | .triad n =>
    if a.inBlock.isSome then .error .nestedBlock
    else { a with triad := some n, role := none, inData := false }.define
      ⟨n, Sect.code.index, SymKind.triad.num, BitVec.ofNat 64 (8 * a.code.length)⟩
  | .role r => if a.inBlock.isSome then .error .nestedBlock else .ok { a with role := some r, inData := false }
  | .block => a.openBlock
  | .endblock => a.closeBlock
  | .instr text w imm =>
    if a.inBlock.isNone then .error .outsideBlock
    else match text.check w with
    | some e => .error e
    | none =>
      let filled : Except Err (Asm × Word) := match imm with
        | none => .ok (a, w)
        | some (f, e) => a.fill .code (8 * a.code.length) w f e
      match filled with
      | .error x => .error x
      | .ok (a, w) =>
        match decode w with
        | .error r => .error (.decodeRule r)
        | .ok i =>
          if setsOk i && (a.role.all fun r => roleMay r i) then .ok { a with code := a.code ++ [w] } else .error .operandRule
  | .data => if a.inBlock.isSome then .error .nestedBlock else .ok { a with inData := true }
  | .align e =>
    if a.inBlock.isSome || !a.inData then .error .notInData
    else match e.absolute a.consts with
      | none => .error .notRelocatable
      | some n =>
        if (nrange 3 10).any (fun k => n.toNat == 2 ^ k) then
          .ok { a with data := a.data ++ padding (n.toNat / 8) a.data.length, dataAlign := Nat.max a.dataAlign n.toNat.log2 }
        else .error .outOfRange
  | .word es => if a.inBlock.isSome || !a.inData then .error .notInData else a.words es
  | .equ n e =>
    match e.absolute a.consts with
    | none => .error .notRelocatable
    | some v => { a with consts := a.consts ++ [(n, v)] }.define ⟨n, Sect.code.index, SymKind.const.num, v⟩
  | .legend n ks =>
    match legendWord a.consts ks 0 with
    | .error x => .error x
    | .ok v => { a with consts := a.consts ++ [(n, v)] }.define ⟨n, Sect.code.index, SymKind.const.num, v⟩
  | .window n sym size => a.window n sym size
  | .launch n t g q k s => a.launch n t g q k s

/-- All lines in their order. -/
def Asm.lines (a : Asm) : List Line → Except Err Asm
  | [] => .ok a
  | l :: ls =>
    match a.line l with
    | .error x => .error x
    | .ok a => Asm.lines a ls

/-- The index of the symbol that an address may rest on: any but a constant or a triad. -/
def symIndex (syms : List Symbol) (n : String) : Option Nat :=
  lidx (fun s => s.name == n && s.kind != SymKind.const.num && s.kind != SymKind.triad.num) syms

/-- Numbers the symbols of the fixups. -/
def linkAll (syms : List Symbol) : List Fixup → Except Err (List Reloc)
  | [] => .ok []
  | f :: fs =>
    match symIndex syms f.ref, linkAll syms fs with
    | none, _ => .error (.name f.ref)
    | some _, .error x => .error x
    | some i, .ok rs => .ok (⟨f.sect.index, f.rel.num, i, f.offset, f.addend⟩ :: rs)

/-- The bytes of words, little-endian (R4). -/
def wordsBytes (ws : List Word) : List Byte := ws.flatMap fun w => natBytes 8 w.toNat

/-- The triads that have a role without a block (R81, R82). -/
def Asm.missing (a : Asm) : Option String :=
  ((a.syms.filter (·.kind == SymKind.triad.num)).find? fun t =>
    [Role.loader, .computer, .storer].any fun r => !a.entries.any (fun (x : String × Role × Nat) => x.1 == t.name && x.2.1 == r)).map (·.name)

/-- What `meras` makes of a source (R81 to R83). The order of the sections and what the value of a triad's symbol is
are not stated. (DESIGN CHOICE, log entry 81.) -/
def assemble (src : List Line) : Except Err Mob :=
  match Asm.lines {} src with
  | .error x => .error x
  | .ok a =>
    if a.inBlock.isSome then .error .nestedBlock
    else match a.missing with
      | some t => .error (.roleWithoutBlocks t)
      | none =>
        match linkAll a.syms a.fixups with
        | .error x => .error x
        | .ok rs => .ok
          { sections := [⟨1, 7, wordsBytes a.code⟩, ⟨2, a.dataAlign, wordsBytes a.data⟩, ⟨3, 3, wordsBytes a.recs⟩],
            symbols := a.syms, relocs := rs }

/-! ## The `.mob` file (R83) -/

/-- The bytes of a name with its terminating zero. -/
def nameBytes (s : String) : List Byte := s.toList.map (fun c => BitVec.ofNat 8 c.toNat) ++ [0]

/-- The section entries, each with the offset of its contents. -/
def sectEntries : List Section → Nat → List Byte
  | [], _ => []
  | s :: ss, off =>
    natBytes 1 s.kind ++ natBytes 1 s.align ++ natBytes 6 0 ++ natBytes 8 s.bytes.length ++ natBytes 8 off ++
      sectEntries ss (off + s.bytes.length)

/-- The symbol entries, each with the offset of its name. -/
def symEntries : List Symbol → Nat → List Byte
  | [], _ => []
  | s :: ss, off =>
    natBytes 4 off ++ natBytes 2 s.sect ++ natBytes 2 s.kind ++ natBytes 8 s.value.toNat ++ natBytes 8 0 ++
      symEntries ss (off + (nameBytes s.name).length)

/-- A relocation entry. -/
def relocEntry (r : Reloc) : List Byte :=
  natBytes 2 r.sect ++ natBytes 2 r.type ++ natBytes 4 r.sym ++ natBytes 8 r.offset ++ natBytes 8 r.addend.toNat

/-- The offset of the string table. -/
def Mob.strings (m : Mob) : Nat := 32 + 24 * (m.sections.length + m.symbols.length + m.relocs.length)

/-- The bytes of a `.mob` file (R83). -/
def Mob.bytes (m : Mob) : List Byte :=
  let names := m.symbols.flatMap fun s => nameBytes s.name
  [0x2E, 0x4D, 0x4F, 0x42] ++ natBytes 2 1 ++ natBytes 2 m.sections.length ++ natBytes 4 m.symbols.length ++
    natBytes 4 m.relocs.length ++ natBytes 8 m.strings ++ natBytes 8 0 ++
    sectEntries m.sections (m.strings + names.length) ++ symEntries m.symbols 0 ++ m.relocs.flatMap relocEntry ++
    names ++ m.sections.flatMap (·.bytes)

/-- n bytes of a file from an offset as a number; none beyond the file's end. -/
def rd (bs : List Byte) (off n : Nat) : Option Nat :=
  let s := (bs.drop off).take n
  if s.length = n then some (bytesNat s) else none

/-- The section entry at an offset with its contents; reserved bytes must be zero (R83). -/
def rdSection (bs : List Byte) (o : Nat) : Option Section :=
  match rd bs o 1, rd bs (o + 1) 1, rd bs (o + 2) 6, rd bs (o + 8) 8, rd bs (o + 16) 8 with
  | some kind, some align, some 0, some size, some off =>
    if (kind = 1 ∨ kind = 2 ∨ kind = 3) ∧ off + size ≤ bs.length then some ⟨kind, align, (bs.drop off).take size⟩ else none
  | _, _, _, _, _ => none

/-- The name at an offset of the string table. -/
def rdName (bs : List Byte) (strings off : Nat) : String :=
  String.ofList (((bs.drop (strings + off)).takeWhile (· != 0)).map fun b => Char.ofNat b.toNat)

/-- The symbol entry at an offset (R83). -/
def rdSymbol (bs : List Byte) (strings o : Nat) : Option Symbol :=
  match rd bs o 4, rd bs (o + 4) 2, rd bs (o + 6) 2, rd bs (o + 8) 8, rd bs (o + 16) 8 with
  | some nm, some sect, some kind, some v, some 0 =>
    if kind < 5 then some ⟨rdName bs strings nm, sect, kind, BitVec.ofNat 64 v⟩ else none
  | _, _, _, _, _ => none

/-- The relocation entry at an offset (R83). -/
def rdReloc (bs : List Byte) (o : Nat) : Option Reloc :=
  match rd bs o 2, rd bs (o + 2) 2, rd bs (o + 4) 4, rd bs (o + 8) 8, rd bs (o + 16) 8 with
  | some sect, some type, some sym, some off, some add =>
    if (Rel.ofNum type).isSome then some ⟨sect, type, sym, off, BitVec.ofNat 64 add⟩ else none
  | _, _, _, _, _ => none

/-- All entries, or none. -/
def rdAll {α : Type} (f : Nat → Option α) (base n : Nat) : Option (List α) :=
  (List.range n).mapM fun i => f (base + 24 * i)

/-- What a `.mob` file says; none where it is not one (R83). -/
def Mob.ofBytes (bs : List Byte) : Option Mob :=
  match rd bs 0 4, rd bs 4 2, rd bs 6 2, rd bs 8 4, rd bs 12 4, rd bs 16 8, rd bs 24 8 with
  | some 0x424F4D2E, some 1, some ns, some ny, some nr, some str, some 0 =>
    match rdAll (rdSection bs) 32 ns, rdAll (rdSymbol bs str) (32 + 24 * ns) ny,
        rdAll (rdReloc bs) (32 + 24 * (ns + ny)) nr with
    | some ss, some ys, some rs => some ⟨ss, ys, rs⟩
    | _, _, _ => none
  | _, _, _, _, _, _, _ => none

/-! ## Loading (R80) -/

/-- The address of a symbol under the addresses that the loader gives the sections; a constant keeps its value. -/
def symAddr (bases : List Word) (s : Symbol) : Option Word :=
  if s.kind = SymKind.const.num then some s.value else (bases[s.sect]?).map (· + s.value)

/-- Resolves one relocation in the contents of its section; none is a load-time failure (R80). -/
def Mob.resolve (m : Mob) (bases : List Word) (r : Reloc) : Option Mob :=
  match Rel.ofNum r.type, m.sections[r.sect]?, bases[r.sect]?, (m.symbols[r.sym]?).bind (symAddr bases) with
  | some k, some s, some base, some sa =>
    match rd s.bytes r.offset 8, k.value sa r.addend (base + BitVec.ofNat 64 r.offset) with
    | some old, some v =>
      let w := k.put (BitVec.ofNat 64 old) v
      let bytes := s.bytes.take r.offset ++ natBytes 8 w.toNat ++ s.bytes.drop (r.offset + 8)
      some { m with sections := lset r.sect { s with bytes := bytes } m.sections }
    | _, _ => none
  | _, _, _, _ => none

/-- All relocations in their order. -/
def Mob.resolveAll (bases : List Word) : List Reloc → Mob → Option Mob
  | [], m => some m
  | r :: rs, m => (m.resolve bases r).bind (Mob.resolveAll bases rs)

/-- The sections' contents as the loader places them: the addresses keep the sections' alignments and every relocation
is resolved; none is a load-time failure (R80, R83). -/
def Mob.load (m : Mob) (bases : List Word) : Option (List (Word × List Byte)) :=
  if bases.length = m.sections.length ∧ (bases.zip m.sections).all (fun x => x.1.toNat % 2 ^ x.2.align == 0) then
    (Mob.resolveAll bases m.relocs m).map fun m => bases.zip (m.sections.map (·.bytes))
  else none

end Sys2Proof.Meras
end

