-- ==== Sys2Proof/Tests/Slice0.lean ====
section
/-! SUPPORT. Tests of this model: ill-formed terms, words of the spec, single steps whose results stand in the spec or follow from it by
hand, and for each statement states and operands that meet its hypotheses. -/

namespace Sys2Proof.Machine

open Sys2Proof

/- One theorem after another: side by side they would hold more memory than the check allows. -/
set_option Elab.async false

/-! Small states: the device in service with one triad in slot 0 of core 0, its computer at 0x1000, and what a test changes of it. -/

/-- The device in service, with triad 0 started and its vector state owned. -/
def demo : State := { State.reset.withFetchWord 64 0x49 with agenda := [], io := { State.reset.io with stage := 3 } }

/-- Scalar registers of the current thread, from x1 up. -/
def State.withX (s : State) (vs : List Nat) : State :=
  s.modTh fun r => { r with x := (vs.zipIdx 1).foldl (fun t p => tset p.2 (BitVec.ofNat 64 p.1) t) r.x }

/-- A page of core 0's translation cache: 64 KiB at `va` map to local memory at `pa`, by the leaf bits [15:0] `low` and the domain. -/
def State.withPage (s : State) (va pa low dom : Nat) : State :=
  s.modCore 0 fun k => { k with tlb := k.tlb ++ [⟨0, 1, va / 65536, BitVec.ofNat 64 (pa + low + dom * 2 ^ 52)⟩] }

/-- Page 0 mapped onto local memory at 0, readable, writable and executable. -/
def paged : State := demo.withPage 0 0 15 0

/-- Bytes of local memory. -/
def State.withMem (s : State) (a : Nat) (bs : List Byte) : State := { s with mem := { s.mem with cells := memWrite s.mem.cells a bs } }

/-- The same as the current thread of another role. -/
def State.asRole (s : State) (r : Role) : State := { s with cur := ⟨s.cur.ctxn, r⟩ }

def State.withPriv (s : State) : State := s.modTh fun r => { r with priv := true }

/-- VL and vector registers by number. -/
def State.withV (s : State) (vl : Nat) (vs : List (Nat × Nat)) : State :=
  (s.modTh fun r => { r with vl := vl }).modVec fun v => { v with v := vs.foldl (fun t p => tset p.1 p.2 t) v.v }

/-- What holds of the next state. -/
def answers (o : Host.Outcome State Fault Refusal) (p : State → Bool) : Bool :=
  match o with
  | .next t => p t
  | _ => false

/-! WellFormed refuses: one ill-formed term for each reason, beside a well-formed one. -/

theorem test_wf_accepts : wellFormed (.add ⟨1, 2, 3, 0, 0, 15, 0⟩) = true := by decide
theorem test_wf_reserved : illegal (.add ⟨1, 2, 3, 4, 0, 15, 0⟩) = some .reservedField := by decide
theorem test_wf_type : illegal (.add ⟨1, 2, 3, 0, 0, 9, 0⟩) = some .typeCode := by decide
theorem test_wf_opv : illegal (.add ⟨1, 2, 3, 0, 2, 15, 0⟩) = some .opvValue := by decide
theorem test_wf_rounding_code : illegal (.fadd ⟨1, 2, 3, 0, 6, 9, 0⟩) = some .codedField := by decide
theorem test_wf_scope_code : illegal (.ld ⟨1, 2, 0, 0, 0, 0, 6, 0, 0, 24, 0⟩) = some .codedField := by decide
theorem test_wf_shift_count : illegal (.shli ⟨1, 2, 32, 0, 6⟩) = some .operandRange := by decide
theorem test_wf_event_row : illegal .recordTake = some .notAWord := by decide
theorem test_wf_ring_field : illegal (.vadd ⟨8, 1, 2, 0, 0, 0, 7, 0, 0, 8, 10⟩) = some .reservedField := by decide

/-! Decoding: words written out from the spec's encodings (the opcodes of R69, the fields of R65), one or more of each family. -/

theorem test_decode_integer : decode 0x0C02080000002803#64 = .ok (.addi ⟨1, 1, 5, 0, 3⟩) := by rfl
theorem test_decode_fp : decode 0x110820A000790000#64 = .ok (.fadd ⟨4, 4, 5, 0, 7, 9, 0⟩) := by rfl
theorem test_decode_control : decode 0xA20200FFFFFFFFF0#64 = .ok (.loop ⟨1, 0, 0, 0xFFFFFFFFF0⟩) := by rfl
theorem test_decode_ldw : decode 0x1A04000000004007#64 = .ok (.ldw ⟨2, 0, 8, 0, 7⟩) := by rfl
theorem test_decode_state_register : decode 0x1B0028000000400F#64 = .ok (.mtsr ⟨0, 5, 8, 0, 15⟩) := by rfl
theorem test_decode_vcfg : decode 0x28861000000F0000#64 = .ok (.vcfg ⟨3, 2, 0, 0, 0, 15, 0⟩) := by rfl
theorem test_decode_vector : decode 0x2B144120101C0009#64 = .ok (.vdiv ⟨10, 8, 9, 0, 2, 0, 7, 0, 0, 0, 9⟩) := by rfl
theorem test_decode_transform : decode 0x4D204062001C0009#64 = .ok (.vtopk ⟨16, 8, 3, 4, 0, 0, 7, 0, 0, 0, 9⟩) := by rfl
theorem test_decode_vector_memory : decode 0x5410100600130000#64 = .ok (.vld ⟨8, 2, 0, 3, 0, 0, 0, 0, 0, 19, 0⟩) := by rfl
theorem test_decode_tiles : decode 0x6206000000000001#64 = .ok (.mtalloc ⟨3, 0, 0, 0, 0, 1⟩) := by rfl
theorem test_decode_outer_product : decode 0x60020C0008A00009#64 = .ok (.oxadd ⟨0, 8, 12, 0, 0, 2, 10, 0, 0, 0, 9⟩) := by rfl
theorem test_decode_copy : decode 0x680A10600100000A#64 = .ok (.cstream ⟨5, 2, 3, 0, 1, 10⟩) := by rfl
theorem test_decode_bank : decode 0x6C0A100184000045#64 = .ok (.bkopRowred ⟨5, 2, 0, 3, 4, 0x45⟩) := by rfl
theorem test_decode_ordering : decode 0xF40A000500000000#64 = .ok (.fence ⟨5, 0, 0, 5, 0⟩) := by rfl
theorem test_decode_barrier : decode 0x770A201800000000#64 = .ok (.binit ⟨5, 4, 3, 0, 0⟩) := by rfl
theorem test_decode_translation : decode 0x7A801880003F0000#64 = .ok (.xinv ⟨0, 3, 4, 0, 3, 15, 0⟩) := by rfl
theorem test_decode_mesh : decode 0x701818A000000001#64 = .ok (.vnbr ⟨12, 3, 5, 0, 0, 0, 0, 0, 0, 0, 1⟩) := by rfl
theorem test_decode_topology : decode 0x6D8A100000000000#64 = .ok (.madapt ⟨5, 2, 0, 0, 0, 0⟩) := by rfl
theorem test_decode_queue : decode 0x720A100009000000#64 = .ok (.tsubmit ⟨5, 2, 0, 0, 9, 0⟩) := by rfl
theorem test_decode_fabric : decode 0x798A100000000003#64 = .ok (.swapidAssume ⟨5, 2, 0, 0, 0, 3⟩) := by rfl
theorem test_decode_trap : decode 0xFC00003800000000#64 = .ok (.trap ⟨0, 0, 7, 0, 0⟩) := by rfl
/-- A reserved bit, here of NOP's fn, is refused (R13, R126). -/
theorem test_decode_reserved : decode 0x2480000000000001#64 = .error .reservedField := by rfl
/-- 0x4D is not assigned (R69). -/
theorem test_decode_unassigned : decode (BitVec.ofNat 64 (0x4D * 2 ^ 55)) = .ok (.unassignedOpcode 0x4D 0) := by rfl

/-! Single steps. Each expected value is worked out from the rule that the comment names. -/

/-- x1 and x2 hold `a` and `b`; register 3 after the instruction. -/
def gives (i : Instr) (a b r : Nat) : Bool := answers (exec i (demo.withX [a, b])) fun t => t.x 3#6 == BitVec.ofNat 64 r

/-- R109, R110: .i32 wraps and is sign-extended. -/
theorem test_add_wraps : gives (.add ⟨3, 1, 2, 0, 0, 2, 0⟩) 0x7FFFFFFF 1 0xFFFFFFFF80000000 = true := by decide +kernel
/-- R110: `sat` clamps to the type's range. -/
theorem test_add_saturates : gives (.add ⟨3, 1, 2, 0, 1, 0, 0⟩) 100 100 127 = true := by decide +kernel
theorem test_sub_borrows : gives (.sub ⟨3, 1, 2, 0, 0, 6, 0⟩) 0 1 0xFFFFFFFF = true := by decide +kernel
theorem test_mulh_signed : gives (.mulh ⟨3, 1, 2, 0, 0, 15, 0⟩) (2 ^ 64 - 1) 2 (2 ^ 64 - 1) = true := by decide +kernel
/-- R111: the divisor 0, and the lowest value by −1. -/
theorem test_div_by_zero : gives (.div ⟨3, 1, 2, 0, 0, 4, 0⟩) 5 0 255 = true := by decide +kernel
theorem test_div_lowest : gives (.div ⟨3, 1, 2, 0, 0, 0, 0⟩) 0x80 0xFF 0xFFFFFFFFFFFFFF80 = true := by decide +kernel
theorem test_rem_sign : gives (.rem ⟨3, 1, 2, 0, 0, 15, 0⟩) (2 ^ 64 - 7) 2 (2 ^ 64 - 1) = true := by decide +kernel
/-- R110: shift counts are taken modulo w. -/
theorem test_shl_modulo : gives (.shl ⟨3, 1, 2, 0, 0, 4, 0⟩) 0x81 9 2 = true := by decide +kernel
theorem test_sra_sign : gives (.sra ⟨3, 1, 2, 0, 0, 0, 0⟩) 0x80 3 0xFFFFFFFFFFFFFFF0 = true := by decide +kernel
theorem test_clz : gives (.clz ⟨3, 1, 0, 0, 0, 4, 0⟩) 1 0 7 = true := by decide +kernel
theorem test_ctz_zero : gives (.ctz ⟨3, 1, 0, 0, 0, 4, 0⟩) 0x100 0 8 = true := by decide +kernel
theorem test_brev : gives (.brev ⟨3, 1, 0, 0, 0, 4, 0⟩) 0x02 0 0x40 = true := by decide +kernel
/-- R113: a signed field of 4 bits from bit 4. -/
theorem test_bext_signed : gives (.bext ⟨3, 1, 0, 0, 1, 0, 3 * 64 + 4⟩) 0xA5 0 0xFFFFFFFFFFFFFFFA = true := by decide +kernel
theorem test_movhi : gives (.movhi ⟨3, 1, 0xDEADBEEF, 0, 0⟩) 0x1111111122222222 0 0xDEADBEEF22222222 = true := by decide +kernel
/-- R105: x0 discards what is written to it. -/
theorem test_x0_discards : answers (exec (.add ⟨0, 1, 2, 0, 0, 15, 0⟩) (demo.withX [1, 2])) (fun t => t.x 0#6 == 0 && t.th.pc == placeBase + 128) = true := by
  decide +kernel
/-- FP64: 1 + 2 = 3; FP32: 1/0 is +∞ and raises DZ (R54, R115). -/
theorem test_fadd : gives (.fadd ⟨3, 1, 2, 0, 0, 8, 0⟩) 0x3FF0000000000000 0x4000000000000000 0x4008000000000000 = true := by decide +kernel
theorem test_fdiv_by_zero : answers (exec (.fdiv ⟨3, 1, 2, 0, 0, 9, 0⟩) (demo.withX [0x3F800000, 0])) (fun t =>
    t.x 3#6 == 0x7F800000 && t.tr.vstat == 2) = true := by decide +kernel
/-- 1 + 2^-24 lies halfway between two FP32 numbers: RNE takes the even one, and NX is raised (R47). -/
theorem test_fadd_tie : answers (exec (.fadd ⟨3, 1, 2, 0, 0, 9, 0⟩) (demo.withX [0x3F800000, 0x33800000])) (fun t =>
    t.x 3#6 == 0x3F800000 && t.tr.vstat == 16) = true := by decide +kernel
/-- R117: −1.5 to .i32 under RTZ is −1. -/
theorem test_fcvt_truncates : gives (.fcvt ⟨3, 1, 0, 0, 1, 9, 2⟩) 0xBFC00000 0 0xFFFFFFFFFFFFFFFF = true := by decide +kernel
theorem test_fclass_nan : gives (.fclass ⟨3, 1, 0, 0, 0, 9, 0⟩) 0x7FC00000 0 512 = true := by decide +kernel
/-- R125: BC back by one block when x1 < x2; LOOP stops at 0. -/
theorem test_bc_taken : answers (exec (.bc ⟨1, 2, 2, 0xFFFFFFFFF0⟩) (demo.withX [1, 2])) (fun t => t.th.pc == placeBase - 128) = true := by
  decide +kernel
theorem test_loop_ends : answers (exec (.loop ⟨1, 0, 0, 0xFFFFFFFFF0⟩) (demo.withX [1])) (fun t => t.x 1#6 == 0 && t.th.pc == placeBase + 128) = true := by
  decide +kernel
/-- R4, R118: little-endian, sign-extended under S. -/
theorem test_ld_signed : answers (exec (.ld ⟨3, 1, 0, 0, 0, 0, 0, 0, 0, 9, 0⟩) ((paged.withMem 0x20 [0x34, 0x82]).withX [0x20])) (fun t =>
    t.x 3#6 == 0xFFFFFFFFFFFF8234) = true := by decide +kernel
theorem test_st_bytes : answers (exec (.st ⟨2, 1, 0, 0, 0, 0, 0, 0, 0, 16, 4⟩) (paged.withX [0x20, 0x1122334455667788])) (fun t =>
    memRead t.mem.cells 0x24 5 == [0x88, 0x77, 0x66, 0x55, 0]) = true := by decide +kernel
/-- R121: AMO add returns the old value. -/
theorem test_amo_add : answers (exec (.amo ⟨3, 1, 2, 0, 0, 6, 0⟩) ((paged.withMem 0x40 [0xFF, 0, 0, 0]).withX [0x40, 2])) (fun t =>
    t.x 3#6 == 0xFF && memRead t.mem.cells 0x40 4 == [1, 1, 0, 0]) = true := by decide +kernel
theorem test_cas_keeps : answers (exec (.cas ⟨3, 1, 2, 4, 0, 6, 0⟩) ((paged.withMem 0x40 [7, 0, 0, 0]).withX [0x40, 9, 0, 0])) (fun t =>
    t.x 3#6 == 7 && memRead t.mem.cells 0x40 4 == [7, 0, 0, 0]) = true := by decide +kernel
/-- R128: the grant is the smaller of the request and VLMAX. -/
theorem test_setvl : answers (exec (.setvl ⟨3, 0, 0, 0, 0, 9, 0xFFFF⟩) demo) (fun t => t.x 3#6 == 1024 && t.th.vl == 1024) = true := by
  decide +kernel
/-- R145: per-element wrap at the type's width, elements at or beyond VL untouched (R134). -/
theorem test_vxor_tail : answers (exec (.vxor ⟨22, 23, 24, 0, 0, 0, 7, 0, 0, 0, 4⟩) (demo.withV 2 [(22, 0x990000), (23, 0x010203), (24, 0x0300FF)])) (fun t =>
    t.vec.reg 22 == 0x9902FC) = true := by decide +kernel
/-- R107, R123: MFSR reads CORE; MTSR of a read-only register changes nothing. -/
theorem test_mfsr_gangs : gives (.mfsr ⟨3, 0, 0x00B, 0, 0⟩) 0 0 1 = true := by decide +kernel
theorem test_mtsr_read_only : answers (exec (.mtsr ⟨0, 1, 0x00F, 0, 0⟩) (demo.withX [5])) (fun t => t.time == 0) = true := by decide +kernel
/-- R257: BINIT binds a name with its count. -/
theorem test_binit : answers (exec (.binit ⟨3, 1, 5, 0, 0⟩) (demo.withX [2])) (fun t => t.x 3#6 == 0 && (t.cell 5).isSome) = true := by
  decide +kernel
/-- R71, R346, R348: without a handler a privileged instruction in user mode kills the gang. -/
theorem test_priv_kills : answers (exec (.tret ⟨0, 0, 0, 0, 0⟩) demo) (fun t => t.triads.isEmpty) = true := by decide +kernel
/-- R276, R279: XPROBE of a non-canonical address answers cause 5. -/
theorem test_xprobe : gives (.xprobe ⟨3, 1, 0, 0, 0, 15, 0⟩) (2 ^ 60) 0 (5 * 2 ^ 60) = true := by decide +kernel
/-- R196: MTALLOC of slots 0 and 1 answers DONE and the held slots. -/
theorem test_mtalloc : answers (exec (.mtalloc ⟨3, 0, 0, 0, 0, 3⟩) demo) (fun t => t.x 3#6 == 0x300) = true := by decide +kernel
/-- R248: FENCE with nothing unacknowledged answers DONE. -/
theorem test_fence : answers (exec (.fence ⟨3, 0, 0, 3, 0⟩) (demo.withX [0, 0, 7])) (fun t => t.x 3#6 == 0) = true := by decide +kernel
/-- R393: an acquire of the free semaphore by port 0. -/
theorem test_sem_acquire : answers (exec .semAcquire { demo with occ := { Occasion.none with who := 0 } }) (fun t =>
    t.io.sem.owner == 1 && t.io.sem.remNs == 100000000) = true := by decide +kernel
/-- R322, R323: a doorbell without ownership changes nothing. -/
theorem test_doorbell_unowned : answers (exec .queueDoorbell { demo with occ := { Occasion.none with value := 64 } }) (fun t =>
    (t.queue 0).tail == 0) = true := by decide +kernel
/-- A placed word runs: the step is that of its instruction (R60, R61). -/
theorem test_step_runs : answers (step (State.reset.withFetchWord 64 0x0C02080000002803)) (fun t => t.x 1#6 == 5) = true := by decide +kernel

/-! Witnesses. For each statement, states and operands that meet the hypotheses of each of its clauses. First, what makes the terms
of the statements easy to show of a given state. -/

theorem started_of {s : State} (h : (tfind s.cur.ctxn s.triads).isSome = true) : s.Started := h

theorem quiet_of {s : State} (h : (enabled s.tr.vstat == 0 && s.th.resume.isNone && s.slip.isNone) = true) : s.quiet := by
  simp only [Bool.and_eq_true, beq_iff_eq, Option.isNone_iff_eq_none] at h
  exact ⟨h.1.1, h.1.2, h.2⟩

theorem vectorReady_of {s : State} {dec disp : Bool} {reads writes : List Opnd}
    (h : ((tfind s.cur.ctxn s.triads).isSome && s.vpNow.isNone && dec && s.ownsVec && disp &&
      !s.ringBlock (ringsOf reads) (ringsOf writes).head?) = true) : VectorReady s dec disp reads writes := by
  simp only [Bool.and_eq_true, Option.isNone_iff_eq_none, Bool.not_eq_true'] at h
  obtain ⟨⟨⟨⟨⟨a, b⟩, c⟩, d⟩, e⟩, f⟩ := h
  exact ⟨a, b, c, d, e, f⟩

theorem finds_of {s u : State} {a : Word} {n : Nat} {acc : Acc} {pa key frame : Nat}
    (h : decide (a.toNat % n = 0 ∧ locate s s.tr.core s.cred a acc true = (.here pa key frame, u) ∧ markHolds u pa n = false) = true) :
    Finds s u a n acc pa key frame := by
  have ⟨x, y, z⟩ := of_decide_eq_true h
  exact ⟨x, y, z⟩

theorem reached_of {s : State} {pa : Nat} (h : portOf pa = none) : Reached s pa := fun p hp => by simp [h] at hp

theorem localPlaces_of {s : State} {acc : Acc} {act : List Nat} {nf n : Nat} {addr : Nat → Word} {pa : Nat → Nat → Nat} {key : Nat}
    (frame : Nat)
    (h : (act.all fun e => (List.range nf).all fun k => decide ((addr e + BitVec.ofNat 64 (k * n)).toNat % n = 0 ∧
      locate s s.tr.core s.cred (addr e + BitVec.ofNat 64 (k * n)) acc false = (.here (pa e k) key frame, s) ∧
      markHolds s (pa e k) n = false)) = true)
    (hs : ((s.core s.tr.core).tlb.all fun t => nbits t.ent.toNat 7 2 != 1) = true) : LocalPlaces s acc act nf n addr pa key := by
  simp only [List.all_eq_true, List.mem_range, decide_eq_true_eq] at h
  refine ⟨fun e he k hk => (h e he k hk).1, fun e he k hk => ⟨frame, (h e he k hk).2.1⟩, fun e he k hk => (h e he k hk).2.2, fun t ht => ?_⟩
  have := List.all_eq_true.1 hs t ht
  simpa using this

theorem storable_of {s : State} {act : List Nat} {nf n : Nat} {pa : Nat → Nat → Nat}
    (h : (act.all fun e => (List.range nf).all fun k => !inSealed s (pa e k) n && (portOf (pa e k)).isNone) = true)
    (hs : shadowPort s = none) : Storable s act nf n pa := by
  simp only [List.all_eq_true, List.mem_range, Bool.and_eq_true, Bool.not_eq_true', Option.isNone_iff_eq_none] at h
  exact ⟨fun e he k hk => (h e he k hk).1, fun e he k hk => reached_of (h e he k hk).2, hs⟩

theorem settled_of {s : State} {core : Nat}
    (h : (((s.core core).tlb.all fun t => nbits t.ent.toNat 7 2 != 1) && (shadowPort s).isNone) = true) : Settled s core := by
  simp only [Bool.and_eq_true, List.all_eq_true, bne_iff_ne, Option.isNone_iff_eq_none] at h
  exact h

theorem holdsAt_of {s : State} {core : Nat} {cred : Cred} {a : Word} {bs : List Byte} {apart : Nat → Prop} (pa : Nat → Nat)
    (key frame : Nat)
    (h : ((List.range bs.length).all fun o => decide (locate s core cred (a + BitVec.ofNat 64 o) .ld true = (.here (pa o) key frame, s) ∧
      isolated s (pa o) = false ∧ physQuality s (pa o) 1 = .clean ∧ physRead s (pa o) 1 key = [bs.getD o 0])) = true)
    (ha : ∀ o, o < bs.length → ¬ apart (pa o / 64)) : HoldsAt s core cred a bs apart := by
  simp only [List.all_eq_true, List.mem_range, decide_eq_true_eq] at h
  intro o ho
  exact ⟨pa o, key, frame, (h o ho).1, (h o ho).2.1, (h o ho).2.2.1, (h o ho).2.2.2, ha o ho⟩

theorem takesAt_of {s : State} {core : Nat} {cred : Cred} {a : Word} {n pa key : Nat} (frame : Nat)
    (h : (!inSealed s pa n && (List.range n).all fun o => decide (locate s core cred (a + BitVec.ofNat 64 o) .st true =
      (.here (pa + o) key frame, s) ∧ isolated s (pa + o) = false)) = true) : TakesAt s core cred a n pa key := by
  simp only [Bool.and_eq_true, Bool.not_eq_true', List.all_eq_true, List.mem_range, decide_eq_true_eq] at h
  exact ⟨h.1, fun o ho => ⟨frame, h.2 o ho⟩⟩

theorem stoppable_of {s : State} {c : Nat}
    (h : ((tfind c s.triads).isSome && decide (c < 4096) && (roles.all fun q => !inFlight ((s.triad c).role q)) &&
      (match (s.triad c).computer.stall with | some (.vfetch _) => false | _ => true) &&
      (s.core (s.triad c).core).trapvec.getLsbD 63 && (s.triad c).traprec.getLsbD 63 &&
      decide (areaOf (s.triad c).traprec < 2 ^ 39) && !inSealed s (areaOf (s.triad c).traprec) 4096 && (shadowPort s).isNone) = true) : Stoppable s c := by
  simp only [Bool.and_eq_true, decide_eq_true_eq, Option.isNone_iff_eq_none, List.all_eq_true, Bool.not_eq_true'] at h
  obtain ⟨⟨⟨⟨⟨⟨⟨⟨a, b⟩, d⟩, e⟩, f⟩, g⟩, i⟩, k⟩, j⟩ := h
  refine ⟨a, b, fun q => d q (by cases q <;> decide), fun w hw => ?_, f, g, i, k, j⟩
  rw [hw] at e
  simp at e

theorem trapFree_of {s : State} {c : Nat}
    (h : ((s.triad c).trapper.isNone && roles.all fun q => !((s.triad c).role q).inHandler && ((s.triad c).role q).trap.isNone) = true) :
    TrapFree s c := by
  simp only [Bool.and_eq_true, List.all_eq_true, Bool.not_eq_true', Option.isNone_iff_eq_none] at h
  exact ⟨h.1, fun q => (h.2 q (by cases q <;> decide)).1, fun q => (h.2 q (by cases q <;> decide)).2⟩

theorem some_with {α : Type} {o : Option α} {p : α → Bool} (h : o.any p = true) : ∃ l, o = some l ∧ p l = true := by
  cases o with
  | none => simp at h
  | some l => exact ⟨l, rfl, by simpa using h⟩

def okAnd {ε α : Type} (o : Except ε α) (p : α → Bool) : Bool :=
  match o with
  | .ok a => p a
  | .error _ => false

theorem ok_with {ε α : Type} {o : Except ε α} {p : α → Bool} (h : okAnd o p = true) : ∃ a, o = .ok a ∧ p a = true := by
  cases o with
  | error e => simp [okAnd] at h
  | ok a => exact ⟨a, rfl, h⟩

theorem whole_of {t : Tile} (h : t.rows = []) : t.whole := fun i => by simp [Tile.row, h, tget, tfind]


theorem witness_IntegerArithmetic : ∃ (f g : FmtA) (h k : FmtB) (s : State), s.Started ∧
    (isIntT f.t = true ∧ f.opv.getLsbD 0 = false) ∧ (isIntT g.t = true ∧ g.opv.getLsbD 0 = true) ∧
    (isIntT h.t = true ∧ h.opv.getLsbD 0 = false) ∧ isIntT k.t = true ∧ k.opv.getLsbD 0 = true :=
  ⟨⟨3, 1, 2, 0, 0, 15, 0⟩, ⟨3, 1, 2, 0, 1, 0, 0⟩, ⟨3, 1, 9, 0, 7⟩, ⟨3, 1, 9, 1, 7⟩, demo, by
    refine ⟨started_of ?_, ?_⟩ <;> decide +kernel⟩

/-- The immediate shifts at the highest count of their width, the bit field that ends at bit 63, and SEL's two choices. -/
theorem witness_IntegerBitsComparesAndMoves : ∃ (f : FmtA) (g : FmtB) (b : FmtA) (s : State), s.Started ∧ isIntT f.t = true ∧
    (isIntT g.t = true ∧ g.imm32.toNat < tWidth g.t) ∧ b.imm16.toNat % 64 + (b.imm16.toNat / 64 % 64 + 1) ≤ 64 ∧
    s.x f.xc ≠ 0 ∧ s.x b.xc = 0 :=
  ⟨⟨3, 1, 2, 1, 0, 15, 0⟩, ⟨3, 1, 31, 0, 2⟩, ⟨3, 1, 2, 0, 0, 0, 60 + 64 * 3⟩, demo.withX [5], by
    refine ⟨started_of ?_, ?_⟩ <;> decide +kernel⟩

theorem witness_ScalarFloatArithmetic : ∃ (f : FmtA) (s : State), s.Started ∧
    let r := roundTo (fpFmt f.t) (s.fpCtx f) (addV (fpMode f) (s.fpVal f f.xa) (s.fpVal f f.xb)).1
    s.fpRuns f ((addV (fpMode f) (s.fpVal f f.xa) (s.fpVal f f.xb)).2 ||| r.2) :=
  ⟨⟨3, 1, 2, 0, 0, 9, 0⟩, demo.withX [0x3F800000, 0x33800000], started_of (by decide +kernel),
    fun _ => (by decide +kernel : (demo.withX [0x3F800000, 0x33800000]).cur.role = .computer), by decide +kernel⟩

/-- Finite numbers, and a rounding that is not exact: 1/3 in FP32. -/
theorem witness_RoundingIsCorrect : (∃ (a b : Val) (x y : Rat), a.rat = some x ∧ b.rat = some y ∧ y ≠ 0) ∧
    ∃ (f : Fmt) (c : RCtx) (v : Val) (x : Rat), f.isF = true ∧ v.rat = some x ∧ c.ftz = false ∧ (roundTo f c v).2.getLsbD 2 = false := by
  have h : (∃ x, (decodeF .fp32 0x3F800000).rat = some x ∧ x ≠ 0) := by
    refine ⟨1, ?_, by norm_num⟩
    decide +kernel
  obtain ⟨x, hx, h0⟩ := h
  exact ⟨⟨_, _, x, x, hx, hx, h0⟩, .fp32, ⟨.rdn, false, false, 0⟩, _, x, rfl, hx, rfl, by decide +kernel⟩

/-- FMIN of two numbers, of a NaN and a number, of two NaNs, under both treatments of NaNs; and both kinds of FCVT. -/
theorem witness_ScalarFloatSelectionsAndConversions : ∃ (f g : FmtA) (s n m : State),
    (s.Started ∧ 8 ≤ f.t.toNat ∧ f.t.toNat ≤ 11 ∧ (s.fpVal f f.xa).isNan = false ∧ (s.fpVal f f.xb).isNan = false) ∧
    (n.Started ∧ (n.fpVal f f.xa).isNan = true ∧ (n.fpVal f f.xb).isNan = false ∧ fpSub f ≠ 1 ∧ fpSub g = 1 ∧
      (n.fpVal g g.xa).isNan = true) ∧
    (m.Started ∧ (m.fpVal f f.xa).isNan = true ∧ (m.fpVal f f.xb).isNan = true ∧ (m.fpVal g g.xa).isSig = false) ∧
    enabled s.tr.vstat = 0 ∧ s.cur.role = .computer ∧ (BitVec.ofNat 4 f.imm16.toNat).toNat ≤ 7 ∧
    8 ≤ (BitVec.ofNat 4 g.imm16.toNat).toNat :=
  ⟨⟨3, 1, 2, 0, 0, 9, 7⟩, ⟨3, 1, 2, 0, 256, 9, 8⟩, demo.withX [0x3F800000, 0x40000000], demo.withX [0x7FC00000, 0x40000000],
    demo.withX [0x7FC00000, 0x7FC00000], by
    refine ⟨⟨started_of ?_, ?_⟩, ⟨started_of ?_, ?_⟩, ⟨started_of ?_, ?_⟩, ?_⟩ <;> decide +kernel⟩

/-- An aligned target; a condition that holds and one that does not; LOOP at 1 and above it; and words inside and at the end of a
block of sixteen. -/
theorem witness_ControlTransfers : ∃ (f g : FmtJ) (s u : State) (r : RoleState), s.Started ∧ s.vpNow = none ∧
    (s.th.pc + f.disp40.signExtend 64 * 8#64).toNat % 128 = 0 ∧
    holdsAt 3#4 f.cond.toNat (lowOf 3#4 (s.x f.xa)) (lowOf 3#4 (s.x f.xb)) ∧
    ¬ holdsAt 3#4 g.cond.toNat (lowOf 3#4 (s.x g.xa)) (lowOf 3#4 (s.x g.xb)) ∧
    (f.xa ≠ 0#6 ∧ s.x f.xa = 1) ∧ (u.Started ∧ u.x f.xa ≠ 1) ∧ (u.x f.xa + f.disp40.signExtend 64 * 8#64).toNat % 128 = 0 ∧
    (r.blkBase.toNat % 128 = 0 ∧ r.blk.length ≤ 16 ∧ r.pc = r.blkBase + BitVec.ofNat 64 (8 * 15) ∧ 15 + 1 = r.blk.length) :=
  ⟨⟨1, 2, 2, 0xFFFFFFFFF0⟩, ⟨1, 2, 0, 0xFFFFFFFFF0⟩, demo.withX [1, 2], demo.withX [256, 2],
    { RoleState.start 0x1078 false with blkBase := 0x1000, blk := List.replicate 16 0 }, by
    refine ⟨started_of ?_, ?_, ?_, ?_, ?_, ?_, ⟨started_of ?_, ?_⟩, ?_⟩
    all_goals first | decide +kernel | (show (_ : BitVec _).toInt < _; decide +kernel) | (show ¬ (_ = _); decide +kernel)⟩

/-- The page of placeBase mapped, and the block there: EXIT, with E. -/
def blocked : State := (demo.withPage placeBase.toNat 0 15 0).withMem (placeBase.toNat % 65536) [0, 0, 0, 0, 0, 0, 0x80, 0xA2]

theorem witness_BlocksAreEnteredAndRolesEnd : ∃ s : State, s.Started ∧ s.tr.trapper = none ∧
    (∀ r, r ≠ s.cur.role → (s.tr.role r).ended = true ∨
      ((∀ w d, (s.tr.role r).stall ≠ some (.vcfg w d)) ∧ ∀ q wr, (s.tr.role r).stall ≠ some (.ring q wr))) ∧
    fetchBlock s (blockOf s.th.pc) = (.ok [0xA280000000000000#64], s) ∧ (s.th.pc - blockOf s.th.pc).toNat / 8 < 1 := by
  refine ⟨blocked, started_of ?_, ?_, fun r _ => ?_, ?_⟩
  · decide +kernel
  · decide +kernel
  · have n : (blocked.tr.role r).stall = none := by cases r <;> decide +kernel
    rw [n]
    exact .inr ⟨fun _ _ h => (nomatch h), fun _ _ h => (nomatch h)⟩
  · decide +kernel

/-- A privileged thread, the first and the last state registers, and a deny log with and without an entry. -/
theorem witness_StateRegistersRead : ∃ (f g : FmtB) (s u : State), s.Started ∧ s.th.priv = true ∧ stateRegNo f = 0x000 ∧
    stateRegNo g = 0x80A ∧ s.deny = [] ∧ (u.Started ∧ u.th.priv = true ∧ u.deny = 9 :: []) :=
  ⟨⟨3, 0, 0, 0, 0⟩, ⟨3, 0, 0x80A, 0, 0⟩, demo.withPriv, { demo.withPriv with deny := [9] }, by
    refine ⟨started_of ?_, ?_, ?_, ?_, ?_, started_of ?_, ?_⟩ <;> decide +kernel⟩

/-- SY_TRAPREC in HBM4E and outside it; SY_IDTAB with FEN rising and falling. -/
theorem witness_StateRegistersWrite : ∃ (f : FmtB) (g : FmtB) (s u v : State), s.Started ∧ s.th.priv = true ∧ stateRegNo f = 0x804 ∧
    areaOf (s.x f.xa) < 2 ^ 39 ∧ (u.Started ∧ u.th.priv = true ∧ 2 ^ 39 ≤ areaOf (u.x f.xa)) ∧ stateRegNo g = 0x807 ∧
    s.fab.idtab.fen = false ∧ (s.x g.xa).getLsbD 63 = true ∧ v.Started ∧ v.fab.idtab.fen = true ∧ (v.x g.xa).getLsbD 63 = false :=
  ⟨⟨0, 1, 0x804, 0, 0⟩, ⟨0, 1, 0x807, 0, 0⟩, (demo.withX [2 ^ 63 + 0x1000]).withPriv, (demo.withX [2 ^ 63 + 2 ^ 39]).withPriv,
    { demo.withPriv with fab := { Fabric.init with idtab := { Fabric.init.idtab with fen := true } } }, by
    refine ⟨started_of ?_, ?_, ?_, ?_, ⟨started_of ?_, ?_⟩, ?_, ?_, ?_, started_of ?_, ?_⟩ <;> decide +kernel⟩

/-- Local bytes for LD and ST, a window read that ends at the window's last byte, and one that does not fit. -/
theorem witness_ScalarLoadsStoresAndWindowReads :
    (∃ (f : FmtM) (s : State) (pa key frame : Nat), s.Started ∧ f.scope.toNat ≠ 4 ∧ Finds s s (s.eaM f) (2 ^ segWm f) .ld pa key frame ∧
      Finds s s (s.eaM f) (2 ^ segWm f) .st pa key frame ∧ physQuality s pa (2 ^ segWm f) = .clean ∧ inSealed s pa (2 ^ segWm f) = false ∧
      Reached s pa ∧ shadowPort s = none) ∧
    ∃ (f g : FmtB) (s : State) (pa key frame : Nat), s.Started ∧ f.t.toNat ≤ 7 ∧ s.tr.tag < 4096 ∧ s.tr.core < 128 ∧ s.tr.slot < 4 ∧
      (s.tr.win 0).size ≠ 0 ∧ f.opv.toNat % 8 = 0 ∧ (f.imm32.signExtend 64 : Word).toNat + 4 ≤ (s.tr.win 0).size ∧
      isVirt ((s.tr.win 0).base + f.imm32.signExtend 64) = true ∧
      Finds s s ((s.tr.win 0).base + f.imm32.signExtend 64) 4 .ld pa key frame ∧ physQuality s pa 4 = .clean ∧
      (s.tr.win 0).size < (g.imm32.signExtend 64 : Word).toNat + 4 ∧ s.denyLost = 0 ∧ s.deny.length < 4096 := by
  refine ⟨⟨⟨3, 1, 0, 0, 0, 0, 0, 0, 0, 24, 0⟩, paged.withX [0x20], 0x20, 0, 0, started_of ?_, ?_, finds_of ?_, finds_of ?_, ?_, ?_,
    reached_of ?_, ?_⟩, ⟨3, 0, 60, 0, 2⟩, ⟨3, 0, 64, 0, 2⟩, paged.modTr fun t => { t with wins := [(0, ⟨0x100, 64⟩)] }, 0x13C, 0, 0,
    started_of ?_, ?_, ?_, ?_, ?_, ?_, ?_, ?_, ?_, finds_of ?_, ?_⟩ <;> decide +kernel

theorem witness_ScalarAtomics : ∃ (f : FmtA) (s : State) (pa key frame : Nat), s.Started ∧ f.t.toNat ≤ 11 ∧
    Finds s s (s.x f.xa + f.imm16.signExtend 64) (tWidth f.t / 8) .rmw pa key frame ∧ physQuality s pa (tWidth f.t / 8) = .clean ∧
    inSealed s pa (tWidth f.t / 8) = false ∧ Reached s pa ∧ shadowPort s = none ∧ f.opv.toNat / 16 % 8 ≠ 4 ∧ f.opv.toNat % 16 = 0 := by
  refine ⟨⟨3, 1, 2, 0, 0, 6, 0⟩, paged.withX [0x40, 2], 0x40, 0, 0, started_of ?_, ?_, finds_of ?_, ?_, ?_, reached_of ?_, ?_⟩ <;>
    decide +kernel

/-- A page that fits, one of another domain, and one that nothing but privilege may reach. -/
theorem witness_AddressesAndTranslation : ∃ (s : State) (c : Cred), lookup s 0 c 0x20 = (.leaf 1 15, s) ∧ nbits 15 7 2 ≠ 1 ∧
    lookup s 0 c 0x10000 = (.leaf 1 (15 + 3 * 2 ^ 52), s) ∧ nbits (15 + 3 * 2 ^ 52) 52 12 ≠ c.tag ∧
    lookup s 0 c 0x20000 = (.leaf 1 31, s) ∧ c.priv = false ∧ classify (BitVec.ofNat 64 (2 ^ 57)) = .noncanon ∧
    classify (BitVec.ofNat 64 (2 ^ 57 - 1)) = .virt (2 ^ 57 - 1) ∧ classify 0xFE00000000000000#64 = .atlas 0 :=
  ⟨(paged.withPage 0x10000 0 15 3).withPage 0x20000 0 31 0, demo.cred, by decide +kernel⟩

theorem witness_DeniedAccessesReadZero : ∃ (f : FmtM) (g : FmtA) (s : State) (frame : Nat), s.Started ∧ frame < 2 ^ 36 ∧ s.tr.tag < 4096 ∧
    s.tr.core < 128 ∧ s.tr.slot < 4 ∧ s.denyLost = 0 ∧ s.deny.length < 4096 ∧ f.scope.toNat ≠ 4 ∧ (s.eaM f).toNat % 2 ^ segWm f = 0 ∧
    locate s s.tr.core s.cred (s.eaM f) .ld true = (.denied frame, s) ∧ locate s s.tr.core s.cred (s.eaM f) .st true = (.denied frame, s) ∧
    g.opv.toNat / 16 % 8 ≠ 4 ∧ (s.x g.xa + g.imm16.signExtend 64).toNat % (tWidth g.t / 8) = 0 ∧
    locate s s.tr.core s.cred (s.x g.xa + g.imm16.signExtend 64) .rmw true = (.denied frame, s) := by
  refine ⟨⟨3, 1, 0, 0, 0, 0, 0, 0, 0, 24, 0⟩, ⟨3, 1, 2, 0, 0, 6, 0⟩, (demo.withPage 0x10000 0x30000 15 3).withX [0x10020], 3, started_of ?_, ?_⟩ <;>
    decide +kernel

/-- VMOVX and VINSX at the last element below VL and at VL. -/
theorem witness_SetvlAndScalarElements : ∃ (f : FmtA) (g h : FmtV) (s : State), s.Started ∧ f.t.toNat ≤ 11 ∧ s.quiet ∧ g.t.toNat ≤ 11 ∧
    VectorReady s (g.grp == 0#2 && g.m == 0#4 && vDecode s.vec.cfg s.cur.role 1 [] [vField g.qa g.va 1]) (s.vlOk (tw g.t))
      [opnd g.qa g.va] [] ∧ ((s.x g.vb).toNat < s.th.vl ∧ s.vec.opPois (opnd g.qa g.va) 0 (egOf (tw g.t) (s.x g.vb).toNat) = false) ∧
    s.th.vl ≤ (s.x h.vb).toNat ∧
    VectorReady s (h.grp == 0#2 && h.m == 0#4 && !h.qd && vDecode s.vec.cfg s.cur.role 1 [vField false h.vd 1] []) (s.vlOk (tw h.t)) [] [] := by
  refine ⟨⟨3, 1, 0, 0, 0, 11, 0xFFFF⟩, ⟨3, 22, 1, 0, 0, 0, 7, 0, 0, 0, 7⟩, ⟨23, 1, 2, 0, 0, 0, 7, 0, 0, 0, 7⟩, (demo.withX [3, 4]).withV 4 [(22, 5)],
    started_of ?_, ?_, quiet_of ?_, ?_, vectorReady_of ?_, ?_, ?_, vectorReady_of ?_⟩ <;> decide +kernel

/-- FP32 operands in v22 to v25 of the computer's partition, VL 4, and a legend of x3. -/
def vectored : State := (demo.withX [3, 4, 0]).withV 4 [(22, 0x3F80000040000000), (23, 0x4000000000000000), (24, 0x40000000)]

/-- An FP32 word of three sources for every floating-point operation, and an .i32 word for the integer ones: VMULH, VREM and VDIV. -/
theorem witness_VectorArithmetic : ∃ (f g : FmtV) (s : State), s.quiet ∧ opnd f.qd f.vd = .reg f.vd.toNat ∧
    (∀ op ∈ [AOp.add, .min, .avg, .neg, .fma, .sqrt, .clamp, .logb], ∃ lg, s.arithLg op f = some lg ∧ lg.fd.isI = false ∧
      VectorReady s (elemDecode s.vec.cfg s.cur.role f 3) (s.vlOk (maxWidth (op.widths lg))) (vOpnds f 3) [opnd f.qd f.vd]) ∧
    (∀ op ∈ [AOp.scalb, .class], ∃ lg, s.arithLg op f = some lg ∧
      VectorReady s (elemDecode s.vec.cfg s.cur.role f 2) (s.vlOk (maxWidth (op.widths lg))) (vOpnds f 2) [opnd f.qd f.vd]) ∧
    ∀ op ∈ [AOp.mulh, .rem, .div], ∃ lg, s.arithLg op g = some lg ∧ lg.fd.isI = true ∧
      VectorReady s (elemDecode s.vec.cfg s.cur.role g 2) (s.vlOk (maxWidth (op.widths lg))) (vOpnds g 2) [opnd g.qd g.vd] := by
  refine ⟨⟨25, 22, 23, 24, 0, 0, 7, 0, 0, 0, 9⟩, ⟨25, 22, 23, 0, 0, 0, 7, 0, 0, 0, 2⟩, vectored, quiet_of (by decide +kernel), by decide +kernel,
    ?_, ?_, ?_⟩
  · have h : ∀ op ∈ [AOp.add, .min, .avg, .neg, .fma, .sqrt, .clamp, .logb],
        ((vectored.arithLg op ⟨25, 22, 23, 24, 0, 0, 7, 0, 0, 0, 9⟩).any fun l => !l.fd.isI && vectored.vlOk (maxWidth (op.widths l))) = true := by
      decide +kernel
    intro op ho
    obtain ⟨l, e, p⟩ := some_with (h op ho)
    simp only [Bool.and_eq_true, Bool.not_eq_true'] at p
    exact ⟨l, e, p.1, vectorReady_of (by rw [p.2]; decide +kernel)⟩
  · have h : ∀ op ∈ [AOp.scalb, .class],
        ((vectored.arithLg op ⟨25, 22, 23, 24, 0, 0, 7, 0, 0, 0, 9⟩).any fun l => vectored.vlOk (maxWidth (op.widths l))) = true := by
      decide +kernel
    intro op ho
    obtain ⟨l, e, p⟩ := some_with (h op ho)
    exact ⟨l, e, vectorReady_of (by rw [p]; decide +kernel)⟩
  · have h : ∀ op ∈ [AOp.mulh, .rem, .div],
        ((vectored.arithLg op ⟨25, 22, 23, 0, 0, 0, 7, 0, 0, 0, 2⟩).any fun l => l.fd.isI && vectored.vlOk (maxWidth (op.widths l))) = true := by
      decide +kernel
    intro op ho
    obtain ⟨l, e, p⟩ := some_with (h op ho)
    simp only [Bool.and_eq_true] at p
    exact ⟨l, e, p.1, vectorReady_of (by rw [p.2]; decide +kernel)⟩

/-- Words of one, two and three sources; VMERGE under m0; VRAMP by step and by rank. -/
theorem witness_VectorBitPatterns : ∃ (f g : FmtV) (s : State), s.quiet ∧ f.t.toNat ≤ 11 ∧ opnd f.qd f.vd = .reg f.vd.toNat ∧
    VectorReady s (true && vDecode s.vec.cfg s.cur.role f.g [vField f.qd f.vd f.g] (vFields f 3)) (s.vlOk (tw f.t)) (vOpnds f 3) [opnd f.qd f.vd] ∧
    VectorReady s (f.m == 0#4 && vDecode s.vec.cfg s.cur.role f.g [vField f.qd f.vd f.g] (vFields f 2)) (s.vlOk (tw f.t)) (vOpnds f 2)
      [opnd f.qd f.vd] ∧ f.opv.getLsbD 0 = false ∧ g.opv.getLsbD 0 = true ∧ g.t.toNat ≤ 11 ∧
    VectorReady s (true && vDecode s.vec.cfg s.cur.role g.g [vField g.qd g.vd g.g] (vFields g 0)) (s.vlOk (tw g.t)) (vOpnds g 0) [opnd g.qd g.vd] := by
  refine ⟨⟨25, 22, 23, 24, 0, 0, 7, 0, 0, 0, 4⟩, ⟨25, 1, 2, 0, 0, 0, 7, 0, 1, 0, 4⟩, vectored, quiet_of ?_, ?_, ?_, vectorReady_of ?_,
    vectorReady_of ?_, ?_, ?_, ?_, vectorReady_of ?_⟩ <;> decide +kernel

/-- A comparison on clean elements; masks that select nothing, and a lowest element; an index below 256. -/
theorem witness_VectorComparesAndMasks : ∃ (f g : FmtV) (s u : State), (s.quiet ∧ (∃ lg, s.cmpLg f = some lg ∧
      VectorReady s (cmpDecode s.vec.cfg s.cur.role f) (s.vlOk (maxWidth [lg.fa.width, lg.fb.width])) (vOpnds f 2) [] ∧
      ∀ e ∈ s.vec.active f.m.toNat s.th.vl,
        (readElt s.vec (s.bound s.tr.core) lg (lgSrc lg 1 f.qa f.va lg.fa) 0 e).pois = false ∧
        (readElt s.vec (s.bound s.tr.core) lg (lgSrc lg 1 f.qb f.vb lg.fb) 0 e).pois = false)) ∧
    VectorReady s (g.vd.toNat % 16 != 0) true [] [] ∧ VectorReady s (g.m == 0#4 && g.vd.toNat % 16 != 0) true [] [] ∧ s.th.vl ≤ 16384 ∧
    (∀ e, ¬ (s.vec.maskBit (g.va.toNat % 16) e = true ∧ (decide (e < s.th.vl) && s.vec.maskBit g.m.toNat e) = true)) ∧
    (u.quiet ∧ (fun e => u.vec.maskBit (g.va.toNat % 16) e && (decide (e < u.th.vl) && u.vec.maskBit g.m.toNat e)) 3 = true ∧
      ∀ k, k < 3 → (u.vec.maskBit (g.va.toNat % 16) k && (decide (k < u.th.vl) && u.vec.maskBit g.m.toNat k)) = false) := by
  have h : ((vectored.cmpLg ⟨1, 22, 23, 0, 0, 0, 7, 0, 2, 0, 9⟩).any fun l =>
      vectored.vlOk (maxWidth [l.fa.width, l.fb.width]) && (vectored.vec.active 0 vectored.th.vl).all fun e =>
        !(readElt vectored.vec (vectored.bound vectored.tr.core) l (lgSrc l 1 false 22 l.fa) 0 e).pois &&
        !(readElt vectored.vec (vectored.bound vectored.tr.core) l (lgSrc l 1 false 23 l.fb) 0 e).pois) = true := by decide +kernel
  obtain ⟨l, e, p⟩ := some_with h
  simp only [Bool.and_eq_true, List.all_eq_true, Bool.not_eq_true'] at p
  refine ⟨⟨1, 22, 23, 0, 0, 0, 7, 0, 2, 0, 9⟩, ⟨1, 2, 3, 0, 0, 0, 7, 0, 0, 0, 15⟩, vectored, vectored.modVec fun v => { v with m := [(2, 8)] },
    ⟨quiet_of (by decide +kernel), l, e, vectorReady_of (by rw [p.1]; decide +kernel), p.2⟩, vectorReady_of (by decide +kernel),
    vectorReady_of (by decide +kernel), by decide +kernel, fun e h => ?_, quiet_of (by decide +kernel), by decide +kernel, by decide +kernel⟩
  have z : vectored.vec.maskBit (2 % 16) e = (tget 0 2 vectored.vec.m).testBit e := by
    simp [VecState.maskBit]
  have : tget 0 2 vectored.vec.m = 0 := by decide +kernel
  rw [this] at z
  simp at z
  exact absurd h.1 (by simpa using z)

/-- The computer at a VADD of v23 and v24, having issued last of its triad. -/
def issuing : State := ({ State.reset.withFetchWord 64 2966951863206543369 with io := { State.reset.io with stage := 3 } }).modTriad 0 fun t =>
  { t with issued := [.computer] }

/-- A first VCFG; the three VCFGs that meet, with a word whose partitions fill all 64 registers; the ages of R92; a ring with room and
one with an entry; and a thread whose remote data is here. -/
theorem witness_ConfigurationAndArbitration :
    (∃ s : State, s.Started ∧ s.ownsVec = true ∧ s.tr.trapper = none ∧ (∀ r, (s.tr.role r).ended = false) ∧
      ∀ r q w, (s.tr.role r).stall ≠ some (.ring q w)) ∧
    (∃ (s : State) (w : Word) (a b c : Nat), s.Started ∧ s.tr.loader.stall = some (.vcfg w a) ∧ s.tr.computer.stall = some (.vcfg w b) ∧
      s.tr.storer.stall = some (.vcfg w c) ∧ w.toNat < 2 ^ 32 ∧ w.getLsbD 15 = false ∧ cfgNL w + cfgNC w + cfgNS w = 64) ∧
    (∃ (s : State) (d c : Nat) (r : Role), 1 ≤ d ∧ d ≤ 4 ∧ slotTriad s s.occ.n (((s.core s.occ.n).lastSlot + d) % 4) = some c ∧
      vectorReady s ⟨c, r⟩ = true ∧ r = .computer ∧
      (∀ b, 1 ≤ b → b < d → ∀ e q, slotTriad s s.occ.n (((s.core s.occ.n).lastSlot + b) % 4) = some e → vectorReady s ⟨e, q⟩ = false) ∧
      ∀ q, vectorReady s ⟨c, q⟩ = true → lastIssue (s.triad c).issued q < 7) ∧
    (∃ s u v : State, (s.Started ∧ s.th.stall = some (.ring [] (some 0)) ∧ (s.vec.ring 0).length < 4) ∧
      (u.Started ∧ u.th.stall = some (.ring [0] none) ∧ ∃ e l, u.vec.ring 0 = e :: l ∧ e.open_ = false) ∧
      v.Started ∧ v.th.stall = some .remote ∧ v.th.want = []) := by
  refine ⟨⟨demo, started_of ?_, ?_, ?_, fun r => ?_, fun r q w => ?_⟩,
    ⟨demo.modTr fun t => { t with loader := { t.loader with stall := some (.vcfg defaultCfg 1) }, computer := { t.computer with
      stall := some (.vcfg defaultCfg 2) }, storer := { t.storer with stall := some (.vcfg defaultCfg 3) } }, defaultCfg, 1, 2, 3,
      started_of ?_, ?_, ?_, ?_, ?_⟩, ⟨issuing, 1, 0, .computer, ?_, ?_, ?_, ?_, rfl, fun b h k => ?_, fun q => ?_⟩,
    ⟨demo.modTh fun r => { r with stall := some (.ring [] (some 0)) },
      (demo.modTh fun r => { r with stall := some (.ring [0] none) }).modVec fun v => { v with rings := [(0, [⟨5, [], false⟩])] },
      demo.modTh fun r => { r with stall := some .remote }, ⟨started_of ?_, ?_⟩, ⟨started_of ?_, ?_, ⟨5, [], false⟩, [], ?_⟩, started_of ?_, ?_⟩⟩
  case refine_4 => cases r <;> decide +kernel
  case refine_5 =>
    have : (demo.tr.role r).stall = none := by cases r <;> decide +kernel
    rw [this]
    exact fun h => nomatch h
  case refine_15 => omega
  case refine_16 => cases q <;> decide +kernel
  all_goals decide +kernel

/-- A VFETCH of the computer that may start: the block after its own holds a VJOIN, and two elements are active. -/
def fetching : State := ((demo.withPage placeBase.toNat 0 15 0).withMem (placeBase.toNat % 65536 + 128) [0, 0, 0, 0, 0, 0, 0, 0xA4]).withV 2
  [(22, 0x0000000300000001), (23, 0x0000000200000002)]

/-- The same with the VFETCH in progress: `vps` stand at their pcs, `cohort` issues next. -/
def running (vps : Tbl Vp) (cohort : Option Word) : State :=
  (fetching.modTh fun r => { r with stall := some (.vfetch ⟨0, 5, 2, 16⟩) }).modVec fun v =>
    { v with vp := some ⟨32, 2, vps, 0, Evs.none.ix, [((placeBase + 128).toNat, [0xA400000000000000#64])], cohort, 0, 0⟩ }

/-- `vectored` with a legend in x3: E4M3 as FA and FD. -/
def quanting : State := vectored.modTh fun r => { r with x := tset 3 0x1004#64 r.x }

/-- The state of `running`'s VFETCH. -/
def vpsAt (vps : Tbl Vp) (cohort : Option Word) : VpState :=
  ⟨32, 2, vps, 0, Evs.none.ix, [((placeBase + 128).toNat, [0xA400000000000000#64])], cohort, 0, 0⟩

/-- Two VPs in the block that was fetched. -/
def bothVps : Tbl Vp := [(0, ⟨placeBase + 128, true, 0⟩), (1, ⟨placeBase + 128, true, 0⟩)]

/-- VFETCH with active elements and, at VL 0, with none. -/
theorem witness_VfetchRunsItsVps_start : ∃ (f : FmtJ) (s u : State) (ws : List Word), s.Started ∧ s.cur.role = .computer ∧ s.vpNow = none ∧
    s.th.resume = none ∧ (s.target f).toNat % 128 = 0 ∧ fetchBlock s (s.target f) = (.ok ws, s) ∧ vpBlockDecode s (s.target f) ws = none ∧
    s.ownsVec = true ∧ s.vlOk (8 * 2 ^ f.cond.toNat) = true ∧ vpBlockDispatch s (8 * 2 ^ f.cond.toNat) (s.target f) ws = none ∧
    s.vec.active f.xa.toNat s.th.vl ≠ [] ∧ fetchBlock u (u.target f) = (.ok ws, u) ∧ u.vec.active f.xa.toNat u.th.vl = [] :=
  ⟨⟨0, 5, 2, 16⟩, fetching, fetching.withV 0 [], [0xA400000000000000#64], started_of (by decide +kernel), by decide +kernel⟩

/-- VPs whose block is there, none left, and one whose block is still to be fetched. -/
theorem witness_VfetchRunsItsVps_cohorts : ∃ (f : FmtJ) (s u w : State) (v v' v'' : VpState), s.Started ∧
    (s.th.stall = some (.vfetch f) ∧ s.vec.vp = some v ∧ v.cohort = none ∧ (v.vps.map (·.1)).Nodup ∧ v.liveVps ≠ [] ∧
      ∀ x ∈ v.vps, (tfind (blockOf x.2.pc).toNat v.blocks).isSome = true ∧ (x.2.pc - blockOf x.2.pc).toNat / 8 < 1) ∧
    (u.th.stall = some (.vfetch f) ∧ u.vec.vp = some v' ∧ v'.cohort = none ∧ v'.liveVps = []) ∧ u.quiet ∧
    (w.th.stall = some (.vfetch f) ∧ w.vec.vp = some v'' ∧ v''.cohort = none ∧ v''.liveVps ≠ [] ∧
      (∀ x ∈ v''.vps, x.2.live = true → x.2.pc = placeBase) ∧ tfind (blockOf placeBase).toNat v''.blocks = none ∧
      fetchBlock w (blockOf placeBase) = (.ok [0xA400000000000000#64], w) ∧
      vpBlockDecode w (blockOf placeBase) [0xA400000000000000#64] = none ∧
      vpBlockDispatch w v''.ew (blockOf placeBase) [0xA400000000000000#64] = none) := by
  refine ⟨⟨0, 5, 2, 16⟩, running bothVps none, running [] none,
    (running [(0, ⟨placeBase, true, 0⟩)] none).withMem (placeBase.toNat % 65536) [0, 0, 0, 0, 0, 0, 0, 0xA4],
    vpsAt bothVps none, vpsAt [] none, vpsAt [(0, ⟨placeBase, true, 0⟩)] none, started_of ?_, ?_, ?_, quiet_of ?_, ?_⟩ <;> decide +kernel

/-- A cohort at VPBR's pc whose first VP branches and whose second does not, and a VADD of FP32. -/
theorem witness_VfetchRunsItsVps_cohort : ∃ (f : FmtJ) (g : FmtV) (s : State) (v : VpState) (pc : Word), s.Started ∧
    (s.cur.role = .computer ∧ s.vpNow = some (v, pc) ∧ v.ew = 32 ∧
      f.cond = 4#3 ∧ (pc + f.disp40.signExtend 64 * 8#64).toNat % 128 = 0 ∧ v.at pc = [0, 1] ∧ (v.at pc).Nodup ∧
      (∀ e ∈ v.at pc, s.vec.opPois (.reg f.xa.toNat) 0 (egOf v.ew e) = false ∧ s.vec.opPois (.reg f.xb.toNat) 0 (egOf v.ew e) = false) ∧
      elemAt (s.vec.reg f.xa.toNat) v.ew 0 < elemAt (s.vec.reg f.xb.toNat) v.ew 0 ∧
      ¬ elemAt (s.vec.reg f.xa.toNat) v.ew 1 < elemAt (s.vec.reg f.xb.toNat) v.ew 1 ∧
      (∀ e ∈ v.at pc, egOf v.ew e < 64) ∧ g.q = 0#4 ∧ g.m = 0#4) ∧ ∃ lg, s.arithLg .add g = some lg ∧ lg.fd.width = v.ew := by
  refine ⟨⟨22, 23, 4, 16⟩, ⟨25, 22, 23, 0, 0, 0, 7, 0, 0, 0, 9⟩, running bothVps (some (placeBase + 128)),
    vpsAt bothVps (some (placeBase + 128)), placeBase + 128, started_of ?_, ?_, ?_⟩
  · decide +kernel
  · decide +kernel
  · have h : ((running bothVps (some (placeBase + 128))).arithLg .add ⟨25, 22, 23, 0, 0, 0, 7, 0, 0, 0, 9⟩).any (fun l => l.fd.width == 32) = true := by
      decide +kernel
    obtain ⟨l, e, p⟩ := some_with h
    exact ⟨l, e, by show l.fd.width = 32; simpa using p⟩

/-- VCMP, VCVT and VAND of FP32 elements in a cohort. -/
theorem witness_VfetchRunsItsVps_others : ∃ (g : FmtV) (s : State) (v : VpState) (pc : Word), s.Started ∧
    (s.cur.role = .computer ∧ s.vpNow = some (v, pc) ∧ g.q = 0#4 ∧ v.ew = 32 ∧ (v.at pc).Nodup ∧ (∀ e ∈ v.at pc, egOf v.ew e < 64) ∧
      g.t.toNat ≤ 11 ∧ tw g.t = v.ew) ∧ (∃ lg, s.cvtLg g = some lg ∧ lg.fd.width = v.ew) ∧
    ∃ lg, s.cmpLg g = some lg ∧ ∀ e ∈ v.at pc,
      (readElt s.vec (s.bound s.tr.core) lg (lgSrc lg 1 false g.va lg.fa) 0 e).pois = false ∧
      (readElt s.vec (s.bound s.tr.core) lg (lgSrc lg 1 false g.vb lg.fb) 0 e).pois = false := by
  refine ⟨⟨1, 22, 23, 0, 0, 0, 7, 0, 0, 0, 9⟩, running bothVps (some (placeBase + 128)),
    vpsAt bothVps (some (placeBase + 128)), placeBase + 128, started_of ?_, ?_, ?_, ?_⟩
  · decide +kernel
  · decide +kernel
  · have h : ((running bothVps (some (placeBase + 128))).cvtLg ⟨1, 22, 23, 0, 0, 0, 7, 0, 0, 0, 9⟩).any (fun l => l.fd.width == 32) = true := by
      decide +kernel
    obtain ⟨l, e, p⟩ := some_with h
    exact ⟨l, e, by show l.fd.width = 32; simpa using p⟩
  · have h : ((running bothVps (some (placeBase + 128))).cmpLg ⟨1, 22, 23, 0, 0, 0, 7, 0, 0, 0, 9⟩).any (fun lg => [0, 1].all fun e =>
        let s := running bothVps (some (placeBase + 128))
        !(readElt s.vec (s.bound s.tr.core) lg (lgSrc lg 1 false 22 lg.fa) 0 e).pois &&
        !(readElt s.vec (s.bound s.tr.core) lg (lgSrc lg 1 false 23 lg.fb) 0 e).pois) = true := by
      decide +kernel
    obtain ⟨l, e, p⟩ := some_with h
    refine ⟨l, e, fun k hk => ?_⟩
    have m : k = 0 ∨ k = 1 := by
      have : ∀ j ∈ (vpsAt bothVps (some (placeBase + 128))).at (placeBase + 128), j = 0 ∨ j = 1 := by decide +kernel
      exact this k hk
    simp only [List.all_cons, List.all_nil, Bool.and_eq_true, Bool.not_eq_true', Bool.and_true] at p
    rcases m with rfl | rfl
    exacts [p.1, p.2]

/-- VCVT of FP32; VUNPACK and VPACK dense of E4M3, which x3 names as FA and FD. -/
theorem witness_VectorConversions : ∃ (f g h : FmtV) (s : State), s.quiet ∧ opnd f.qd f.vd = .reg f.vd.toNat ∧
    (∃ l, s.cvtLg f = some l ∧ VectorReady s (elemDecode s.vec.cfg s.cur.role f 1) (s.vlOk (maxWidth [l.fa.width, l.fd.width]))
      [opnd f.qa f.va] [opnd f.qd f.vd]) ∧
    (∃ l, s.denseLg g false = some l ∧ VectorReady s (vDecode s.vec.cfg s.cur.role g.g [vField g.qd g.vd g.g] (vFields g 1)) (s.vlOk 8)
      [opnd g.qa g.va] [opnd g.qd g.vd]) ∧
    ∃ l, s.denseLg h true = some l ∧ VectorReady s (s.dec1 h [vField h.qd h.vd 1] (vFields h 1)) (s.vlOk 8) [opnd h.qa h.va]
      [opnd h.qd h.vd] := by
  have a : (quanting.cvtLg ⟨25, 22, 0, 0, 0, 0, 7, 0, 0, 0, 9⟩).any (fun l => quanting.vlOk (maxWidth [l.fa.width, l.fd.width])) = true := by
    decide +kernel
  obtain ⟨l, e, p⟩ := some_with a
  refine ⟨⟨25, 22, 0, 0, 0, 0, 7, 0, 0, 0, 9⟩, ⟨25, 22, 0, 0, 0, 3, 7, 0, 0, 0, 15⟩, ⟨25, 22, 0, 0, 0, 3, 7, 0, 0, 0, 15⟩, quanting,
    quiet_of (by decide +kernel), by decide +kernel, ⟨l, e, vectorReady_of (by rw [p]; decide +kernel)⟩,
    ⟨_, (Option.some_get (x := quanting.denseLg ⟨25, 22, 0, 0, 0, 3, 7, 0, 0, 0, 15⟩ false) (by decide +kernel)).symm,
      vectorReady_of (by decide +kernel)⟩,
    ⟨_, (Option.some_get (x := quanting.denseLg ⟨25, 22, 0, 0, 0, 3, 7, 0, 0, 0, 15⟩ true) (by decide +kernel)).symm,
      vectorReady_of (by decide +kernel)⟩⟩

/-- VPACK quant of FP32 into E4M3; a block with a NaN, one of zeros, and one whose greatest magnitude is 2. -/
theorem witness_BlockQuantisation : (∃ (f : FmtV) (s : State), s.quiet ∧ f.qd = false ∧
      ∃ l, keepIf (s.legendNoScm f ⟨true, false, false, true, true⟩) (fun l => l.fa.wide && l.fd.narrow) = some l ∧
        VectorReady s (s.dec1 f [vMulti f.qd f.vd 2 1] (vFields f 1)) (s.vlOk (maxWidth [l.fa.width])) [opnd f.qa f.va] []) ∧
    (Val.nan false).isNan = true ∧ (decodeF .fp32 0).isZero = true ∧
    ((decodeF .fp32 0x40000000).isZero = false ∧ (decodeF .fp32 0x40000000).isNan = false ∧ (decodeF .fp32 0x40000000).isInf = false) ∧
    ∃ l : Lg, l.fd.narrow = true := by
  have a : (keepIf (quanting.legendNoScm ⟨24, 22, 0, 0, 0, 3, 7, 0, 0, 0, 9⟩ ⟨true, false, false, true, true⟩) fun l =>
      l.fa.wide && l.fd.narrow).any (fun l => quanting.vlOk (maxWidth [l.fa.width]) && l.fd.narrow) = true := by decide +kernel
  obtain ⟨l, e, p⟩ := some_with a
  simp only [Bool.and_eq_true] at p
  exact ⟨⟨⟨24, 22, 0, 0, 0, 3, 7, 0, 0, 0, 9⟩, quanting, quiet_of (by decide +kernel), by decide +kernel, l, e,
    vectorReady_of (by rw [p.1]; decide +kernel)⟩, by decide +kernel, by decide +kernel, by decide +kernel, l, p.2⟩

/-- The reductions of FP32 with active elements and with none; VREDLOG of .n8. -/
theorem witness_ReductionsAndScans_reduce : ∃ (f g : FmtV) (s u : State), s.quiet ∧ s.vec.active f.m.toNat s.th.vl ≠ [] ∧
    u.vec.active f.m.toNat u.th.vl = [] ∧
    (∃ l, keepIf (s.legend f ⟨true, false, true, true, false⟩) (fun l => allFI [l.fa, l.fc, l.fd] && l.fc.sumOk && l.fd.sumOk &&
        s.scaledOk f l [vField f.qd f.vd 1] ((vFields f 1).zip [l.fa])) = some l ∧
      VectorReady s (s.dec1 f [vField f.qd f.vd 1] (vFields f 1)) (s.vlOk (maxWidth [l.fa.width, l.fd.width])) (vOpnds f 1) [opnd f.qd f.vd]) ∧
    (∃ l, keepIf (s.legend f ⟨true, true, true, true, false⟩) (fun l => allFI [l.fa, l.fb, l.fc, l.fd] && l.fc.sumOk && l.fd.sumOk &&
        s.scaledOk f l [vField f.qd f.vd 1] ((vFields f 2).zip [l.fa, l.fb])) = some l ∧
      VectorReady s (s.dec1 f [vField f.qd f.vd 1] (vFields f 2)) (s.vlOk (maxWidth [l.fa.width, l.fb.width, l.fd.width])) (vOpnds f 2)
        [opnd f.qd f.vd]) ∧
    (∃ l, keepIf (s.legend f ⟨true, false, false, true, false⟩) (fun l => l.fa == l.fd && allFI [l.fa] && !(f.opv.getLsbD 0 && l.fa.isI) &&
        s.scaledOk f l [vField f.qd f.vd 1] ((vFields f 1).zip [l.fa])) = some l ∧
      VectorReady s (s.dec1 f [vField f.qd f.vd 1] (vFields f 1)) (s.vlOk l.fa.width) (vOpnds f 1) [opnd f.qd f.vd] ∧
      ∀ e ∈ s.vec.active f.m.toNat s.th.vl, (readElt s.vec (s.bound s.tr.core) l (lgSrc l 1 f.qa f.va l.fa) 0 e).val.isNan = false) ∧
    g.t.toNat ≤ 11 ∧ VectorReady s (s.dec1 g [vField g.qd g.vd 1] (vFields g 1)) (s.vlOk (tw g.t)) (vOpnds g 1) [opnd g.qd g.vd] := by
  have a : (keepIf (vectored.legend ⟨25, 22, 23, 0, 0, 0, 7, 0, 0, 0, 9⟩ ⟨true, false, true, true, false⟩) (fun l => allFI [l.fa, l.fc, l.fd] &&
      l.fc.sumOk && l.fd.sumOk && vectored.scaledOk ⟨25, 22, 23, 0, 0, 0, 7, 0, 0, 0, 9⟩ l [vField false 25 1]
        ((vFields ⟨25, 22, 23, 0, 0, 0, 7, 0, 0, 0, 9⟩ 1).zip [l.fa]))).any
      (fun l => vectored.vlOk (maxWidth [l.fa.width, l.fd.width])) = true := by decide +kernel
  have b : (keepIf (vectored.legend ⟨25, 22, 23, 0, 0, 0, 7, 0, 0, 0, 9⟩ ⟨true, true, true, true, false⟩) (fun l => allFI [l.fa, l.fb, l.fc, l.fd] &&
      l.fc.sumOk && l.fd.sumOk && vectored.scaledOk ⟨25, 22, 23, 0, 0, 0, 7, 0, 0, 0, 9⟩ l [vField false 25 1]
        ((vFields ⟨25, 22, 23, 0, 0, 0, 7, 0, 0, 0, 9⟩ 2).zip [l.fa, l.fb]))).any
      (fun l => vectored.vlOk (maxWidth [l.fa.width, l.fb.width, l.fd.width])) = true := by decide +kernel
  have c : (keepIf (vectored.legend ⟨25, 22, 23, 0, 0, 0, 7, 0, 0, 0, 9⟩ ⟨true, false, false, true, false⟩) (fun l => l.fa == l.fd && allFI [l.fa] &&
      !((0 : BitVec 8).getLsbD 0 && l.fa.isI) && vectored.scaledOk ⟨25, 22, 23, 0, 0, 0, 7, 0, 0, 0, 9⟩ l [vField false 25 1]
        ((vFields ⟨25, 22, 23, 0, 0, 0, 7, 0, 0, 0, 9⟩ 1).zip [l.fa]))).any
      (fun l => vectored.vlOk l.fa.width && (vectored.vec.active 0 4).all fun e =>
        !(readElt vectored.vec (vectored.bound vectored.tr.core) l (lgSrc l 1 false 22 l.fa) 0 e).val.isNan) = true := by decide +kernel
  obtain ⟨l, el, pl⟩ := some_with a
  obtain ⟨m, em, pm⟩ := some_with b
  obtain ⟨n, en, pn⟩ := some_with c
  simp only [Bool.and_eq_true, List.all_eq_true, Bool.not_eq_true'] at pn
  exact ⟨⟨25, 22, 23, 0, 0, 0, 7, 0, 0, 0, 9⟩, ⟨25, 22, 0, 0, 0, 0, 7, 0, 0, 0, 4⟩, vectored, vectored.withV 0 [], quiet_of (by decide +kernel),
    by decide +kernel, by decide +kernel, ⟨l, el, vectorReady_of (by rw [pl]; decide +kernel)⟩,
    ⟨m, em, vectorReady_of (by rw [pm]; decide +kernel)⟩, ⟨n, en, vectorReady_of (by rw [pn.1]; decide +kernel), pn.2⟩, by decide +kernel,
    vectorReady_of (by decide +kernel)⟩

/-- VREDMIN of FP32: four NaNs, and one element alone. -/
theorem witness_ReductionsAndScans_nans : ∃ (f : FmtV) (s u : State), ∀ r ∈ [s, u], r.quiet ∧
    ∃ l, keepIf (r.legend f ⟨true, false, false, true, false⟩) (fun l => l.fa == l.fd && allFI [l.fa] && !(f.opv.getLsbD 0 && l.fa.isI) &&
        r.scaledOk f l [vField f.qd f.vd 1] ((vFields f 1).zip [l.fa])) = some l ∧
      VectorReady r (r.dec1 f [vField f.qd f.vd 1] (vFields f 1)) (r.vlOk l.fa.width) (vOpnds f 1) [opnd f.qd f.vd] ∧
      let act := r.vec.active f.m.toNat r.th.vl
      let num := act.filter fun e => !(readElt r.vec (r.bound r.tr.core) l (lgSrc l 1 f.qa f.va l.fa) 0 e).val.isNan
      (num = [] ∧ 2 ≤ act.length) ∨ ∃ e, act = [e] := by
  refine ⟨⟨25, 22, 23, 0, 0, 0, 7, 0, 0, 0, 9⟩, vectored.withV 2 [(22, 0x7FC000007FC00000)], vectored.withV 1 [], fun r hr => ?_⟩
  have q : r.quiet := by
    simp only [List.mem_cons, List.not_mem_nil, or_false] at hr
    rcases hr with rfl | rfl <;> exact quiet_of (by decide +kernel)
  have a : (keepIf (r.legend ⟨25, 22, 23, 0, 0, 0, 7, 0, 0, 0, 9⟩ ⟨true, false, false, true, false⟩) (fun l => l.fa == l.fd && allFI [l.fa] &&
      !((0 : BitVec 8).getLsbD 0 && l.fa.isI) && r.scaledOk ⟨25, 22, 23, 0, 0, 0, 7, 0, 0, 0, 9⟩ l [vField false 25 1]
        ((vFields ⟨25, 22, 23, 0, 0, 0, 7, 0, 0, 0, 9⟩ 1).zip [l.fa]))).any (fun l => r.vlOk l.fa.width && r.dec1 ⟨25, 22, 23, 0, 0, 0, 7, 0, 0, 0, 9⟩
      [vField false 25 1] (vFields ⟨25, 22, 23, 0, 0, 0, 7, 0, 0, 0, 9⟩ 1) && !r.ringBlock (ringsOf (vOpnds ⟨25, 22, 23, 0, 0, 0, 7, 0, 0, 0, 9⟩ 1)) none &&
      (tfind r.cur.ctxn r.triads).isSome && r.vpNow.isNone && r.ownsVec &&
      (let act := r.vec.active 0 r.th.vl
       decide (((act.filter fun e => !(readElt r.vec (r.bound r.tr.core) l (lgSrc l 1 false 22 l.fa) 0 e).val.isNan) = [] ∧ 2 ≤ act.length) ∨
         act = [0]))) = true := by
    simp only [List.mem_cons, List.not_mem_nil, or_false] at hr
    rcases hr with rfl | rfl <;> decide +kernel
  obtain ⟨l, el, pl⟩ := some_with a
  simp only [Bool.and_eq_true, decide_eq_true_eq] at pl
  obtain ⟨⟨⟨⟨⟨⟨v, d⟩, g⟩, t⟩, n⟩, o⟩, e⟩ := pl
  exact ⟨q, l, el, vectorReady_of (by rw [v]; simp only [Bool.and_eq_true]; exact ⟨⟨⟨⟨⟨t, n⟩, d⟩, o⟩, trivial⟩, g⟩),
    e.imp id fun h => ⟨0, h⟩⟩

/-- VREDARG on clean elements, VSCAN by sum and by maximum. -/
theorem witness_ReductionsAndScans_scan : ∃ (f g h : FmtV) (s : State), s.quiet ∧
    (∃ l, keepIf (s.legend f ⟨true, false, false, false, false⟩) (fun l => allFI [l.fa] && s.scaledOk f l [] ((vFields f 1).zip [l.fa])) = some l ∧
      VectorReady s (s.dec1 f [] (vFields f 1)) (s.vlOk l.fa.width) (vOpnds f 1) [] ∧
      ∀ e ∈ s.vec.active f.m.toNat s.th.vl, (readElt s.vec (s.bound s.tr.core) l (lgSrc l 1 f.qa f.va l.fa) 0 e).pois = false) ∧
    ∀ k ∈ [g, h], ∃ l, keepIf (s.legend k ⟨true, false, k.opv.toNat / 2 % 4 == 0, true, false⟩) (fun l =>
        (if k.opv.toNat / 2 % 4 = 0 then allFI [l.fa, l.fc, l.fd] && l.fc.sumOk && l.fd.sumOk else l.fd == l.fa && allFI [l.fa]) &&
        s.scaledOk k l [vField k.qd k.vd 1] ((vFields k 1).zip [l.fa])) = some l ∧
      VectorReady s (s.dec1 k [vField k.qd k.vd 1] (vFields k 1)) (s.vlOk (maxWidth [l.fa.width, l.fd.width])) (vOpnds k 1)
        [opnd k.qd k.vd] := by
  have a : (keepIf (vectored.legend ⟨5, 22, 0, 0, 0, 0, 7, 0, 0, 0, 9⟩ ⟨true, false, false, false, false⟩) (fun l => allFI [l.fa] &&
      vectored.scaledOk ⟨5, 22, 0, 0, 0, 0, 7, 0, 0, 0, 9⟩ l [] ((vFields ⟨5, 22, 0, 0, 0, 0, 7, 0, 0, 0, 9⟩ 1).zip [l.fa]))).any
      (fun l => vectored.vlOk l.fa.width && (vectored.vec.active 0 4).all fun e =>
        !(readElt vectored.vec (vectored.bound vectored.tr.core) l (lgSrc l 1 false 22 l.fa) 0 e).pois) = true := by decide +kernel
  obtain ⟨l, el, pl⟩ := some_with a
  simp only [Bool.and_eq_true, List.all_eq_true, Bool.not_eq_true'] at pl
  refine ⟨⟨5, 22, 0, 0, 0, 0, 7, 0, 0, 0, 9⟩, ⟨25, 22, 0, 0, 0, 0, 7, 0, 0, 0, 9⟩, ⟨25, 22, 0, 0, 0, 0, 7, 0, 4, 0, 9⟩, vectored,
    quiet_of (by decide +kernel), ⟨l, el, vectorReady_of (by rw [pl.1]; decide +kernel), pl.2⟩, fun k hk => ?_⟩
  have b : ∀ k ∈ [(⟨25, 22, 0, 0, 0, 0, 7, 0, 0, 0, 9⟩ : FmtV), ⟨25, 22, 0, 0, 0, 0, 7, 0, 4, 0, 9⟩],
      ((keepIf (vectored.legend k ⟨true, false, k.opv.toNat / 2 % 4 == 0, true, false⟩) (fun l =>
        (if k.opv.toNat / 2 % 4 = 0 then allFI [l.fa, l.fc, l.fd] && l.fc.sumOk && l.fd.sumOk else l.fd == l.fa && allFI [l.fa]) &&
        vectored.scaledOk k l [vField k.qd k.vd 1] ((vFields k 1).zip [l.fa]))).any fun l => vectored.vlOk (maxWidth [l.fa.width, l.fd.width])) = true ∧
      (vectored.dec1 k [vField k.qd k.vd 1] (vFields k 1) &&
        !vectored.ringBlock (ringsOf (vOpnds k 1)) (ringsOf [opnd k.qd k.vd]).head?) = true := by decide +kernel
  obtain ⟨b1, b2⟩ := b k hk
  obtain ⟨m, em, pm⟩ := some_with b1
  simp only [Bool.and_eq_true] at b2
  exact ⟨m, em, vectorReady_of (by rw [pm, b2.1, b2.2]; decide +kernel)⟩

/-- VWELF and VWMERGE of FP32 groups; VTOPK. -/
theorem witness_WelfordStatisticsAndTopElements : ∃ (f g h : FmtV) (s : State), s.quiet ∧
    (∃ l, keepIf (s.legend f ⟨true, false, true, false, false⟩) (fun l => (l.fc == .fp32 || l.fc == .fp64) && l.fa.isF &&
        s.scaledOk f l [vMulti f.qd f.vd 4 4] ((vFields f 1).zip [l.fa])) = some l ∧
      VectorReady s (s.dec1 f [vMulti f.qd f.vd 4 4] (vFields f 1)) (s.vlOk (maxWidth [l.fa.width, l.fc.width])) (vOpnds f 1) []) ∧
    (∃ l, keepIf (s.legend g ⟨false, false, true, false, false⟩) (fun l => l.fc == .fp32 || l.fc == .fp64) = some l ∧
      VectorReady s (s.dec1 g [vMulti g.qd g.vd 4 4] [vMulti g.qa g.va 4 4, vMulti g.qb g.vb 4 4]) (s.vlOk l.fc.width) [] []) ∧
    ∃ l, keepIf (s.legend h ⟨true, false, false, false, false⟩) (fun l => allFI [l.fa] &&
        s.scaledOk h l [vMulti h.qd h.vd 2 2] ((vFields h 1).zip [l.fa])) = some l ∧
      VectorReady s (s.dec1 h [vMulti h.qd h.vd 2 2] (vFields h 1)) (s.vlOk (max 32 l.fa.width)) (vOpnds h 1) [] := by
  have a : (keepIf (vectored.legend ⟨28, 22, 0, 0, 0, 0, 7, 0, 0, 0, 9⟩ ⟨true, false, true, false, false⟩) (fun l => (l.fc == .fp32 || l.fc == .fp64) &&
      l.fa.isF && vectored.scaledOk ⟨28, 22, 0, 0, 0, 0, 7, 0, 0, 0, 9⟩ l [vMulti false 28 4 4]
        ((vFields ⟨28, 22, 0, 0, 0, 0, 7, 0, 0, 0, 9⟩ 1).zip [l.fa]))).any
      (fun l => vectored.vlOk (maxWidth [l.fa.width, l.fc.width])) = true := by decide +kernel
  have b : (keepIf (vectored.legend ⟨28, 32, 36, 0, 0, 0, 7, 0, 0, 0, 9⟩ ⟨false, false, true, false, false⟩) (fun l =>
      l.fc == .fp32 || l.fc == .fp64)).any (fun l => vectored.vlOk l.fc.width) = true := by decide +kernel
  have c : (keepIf (vectored.legend ⟨24, 22, 1, 2, 0, 0, 7, 0, 0, 0, 9⟩ ⟨true, false, false, false, false⟩) (fun l => allFI [l.fa] &&
      vectored.scaledOk ⟨24, 22, 1, 2, 0, 0, 7, 0, 0, 0, 9⟩ l [vMulti false 24 2 2]
        ((vFields ⟨24, 22, 1, 2, 0, 0, 7, 0, 0, 0, 9⟩ 1).zip [l.fa]))).any (fun l => vectored.vlOk (max 32 l.fa.width)) = true := by decide +kernel
  obtain ⟨l, el, pl⟩ := some_with a
  obtain ⟨m, em, pm⟩ := some_with b
  obtain ⟨n, en, pn⟩ := some_with c
  exact ⟨⟨28, 22, 0, 0, 0, 0, 7, 0, 0, 0, 9⟩, ⟨28, 32, 36, 0, 0, 0, 7, 0, 0, 0, 9⟩, ⟨24, 22, 1, 2, 0, 0, 7, 0, 0, 0, 9⟩, vectored,
    quiet_of (by decide +kernel), ⟨l, el, vectorReady_of (by rw [pl]; decide +kernel)⟩, ⟨m, em, vectorReady_of (by rw [pm]; decide +kernel)⟩,
    ⟨n, en, vectorReady_of (by rw [pn]; decide +kernel)⟩⟩

/-- Words of one and two sources; the three kinds of VSHUF; VCOMPRESS under m0. -/
theorem witness_VectorPermutations : ∃ (f g h : FmtV) (s : State), s.quiet ∧ f.t.toNat ≤ 11 ∧ opnd f.qd f.vd = .reg f.vd.toNat ∧
    VectorReady s (vDecode s.vec.cfg s.cur.role f.g [vField f.qd f.vd f.g] (vFields f 2)) (s.vlOk (tw f.t)) (vOpnds f 2) [opnd f.qd f.vd] ∧
    VectorReady s (vDecode s.vec.cfg s.cur.role f.g [vField f.qd f.vd f.g] (vFields f 1)) (s.vlOk (tw f.t)) (vOpnds f 1) [opnd f.qd f.vd] ∧
    VectorReady s (f.m == 0#4 && s.dec1 f [vField f.qd f.vd 1] (vFields f 1)) (s.vlOk (tw f.t)) [opnd f.qa f.va] [opnd f.qd f.vd] ∧
    f.opv.toNat % 4 = 0 ∧ g.opv.toNat % 4 = 1 ∧ h.opv.toNat % 4 = 2 := by
  refine ⟨⟨25, 22, 23, 0, 0, 0, 7, 0, 0, 0, 9⟩, ⟨25, 22, 1, 0, 0, 0, 7, 0, 1, 0, 9⟩, ⟨25, 22, 1, 0, 0, 0, 7, 0, 2, 0, 9⟩, vectored, quiet_of ?_, ?_, ?_,
    vectorReady_of ?_, vectorReady_of ?_, vectorReady_of ?_, ?_⟩ <;> decide +kernel

/-- VL 2 over page 0: addresses from 0x40 in x1, x2 0, values in v22, offsets 0 and 1 in v23 and zeros in v24. -/
def memVec : State := ((paged.withX [0x40]).withMem 0x40 [1, 2, 3, 4, 5, 6, 7, 8]).withV 2 [(22, 0x0000000700000005), (23, 0x0000000100000000)]

/-- Unit-stride and gathered loads of two elements, of one field and of two. -/
theorem witness_VectorLoadsAndGathers_loads : ∃ (f g : FmtM) (s : State), s.quiet ∧
    (LocalPlaces s .ld (s.vec.active f.m.toNat s.th.vl) 1 (2 ^ segWm f)
        (fun e => s.x f.xbase + f.imm16.signExtend 64 + s.x f.xs + BitVec.ofNat 64 e * BitVec.ofNat 64 (2 ^ segWm f)) (fun e _ => 0x40 + 4 * e) 0 ∧
      VectorReady s (f.scope.toNat != 4 && vDecode s.vec.cfg s.cur.role 1 [vField false f.v 1] []) (s.vlOk (wrBits f)) [] []) ∧
    (LocalPlaces s .ld (s.vec.active f.m.toNat s.th.vl) (nfOf f) (2 ^ segWm f)
        (fun e => s.x f.xbase + f.imm16.signExtend 64 + BitVec.ofNat 64 e * (if f.xs = 0#6 then BitVec.ofNat 64 (nfOf f * 2 ^ segWm f) else s.x f.xs))
        (fun e k => 0x40 + 8 * e + 4 * k) 0 ∧ nfOf f = 2 ∧
      VectorReady s (f.scope.toNat != 4 && vDecode s.vec.cfg s.cur.role 1 [vMulti false f.v (nfOf f) 1] []) (s.vlOk (wrBits f)) [] []) ∧
    LocalPlaces s .ld (s.vec.active g.m.toNat s.th.vl) 1 (2 ^ segWm g)
        (fun e => s.x g.xbase + g.imm16.signExtend 64 + BitVec.ofNat 64 (elemAt (s.vec.reg g.xs.toNat) (idxBits g) e * 2 ^ segWm g)) (fun e _ => 0x40 + 4 * e) 0 ∧
      (∀ e ∈ s.vec.active g.m.toNat s.th.vl, s.vec.opPois (.reg g.xs.toNat) 0 (egOf (idxBits g) e) = false) ∧
      VectorReady s (g.scope.toNat != 4 && vDecode s.vec.cfg s.cur.role 1 [vField false g.v 1] [vField false g.xs 1]) (s.vlOk (gathBits g)) [] [] := by
  refine ⟨⟨24, 1, 0, 0, 0, 0, 0, 0, 0, 52, 0⟩, ⟨24, 1, 23, 0, 0, 0, 0, 0, 0, 20, 0⟩, memVec, quiet_of ?_, ⟨localPlaces_of 0 ?_ ?_, vectorReady_of ?_⟩,
    ⟨localPlaces_of 0 ?_ ?_, ?_, vectorReady_of ?_⟩, localPlaces_of 0 ?_ ?_, ?_, vectorReady_of ?_⟩ <;> decide +kernel

/-- VGATHW into a window of one register, whose 512 elements lie in page 0, and with `reuse`; an index inside the window and one at its end. -/
theorem witness_VectorLoadsAndGathers_window : ∃ (f g : FmtM) (s : State), s.quiet ∧
    (∀ k ∈ [f, g], VectorReady s (k.scope.toNat != 4 && gwDecode s.vec.cfg s.cur.role k && vDecode s.vec.cfg s.cur.role 1 [vField false k.v 1]
      [vField false k.xs 1]) (s.vlOk (gathBits k)) [] []) ∧
    ((∀ e ∈ s.vec.active f.m.toNat s.th.vl, s.vec.opPois (.reg f.xs.toNat) 0 (egOf (idxBits f) e) = false) ∧
      (s.x f.xbase).toNat % 2 ^ segWm f = 0 ∧ f.imm16.toNat / 128 % 2 = 0 ∧ g.imm16.toNat / 128 % 2 = 1 ∧
      elemAt (s.vec.reg f.xs.toNat) (idxBits f) 0 = 511 ∧ elemAt (s.vec.reg f.xs.toNat) (idxBits f) 1 = 512) ∧
    LocalPlaces s .ld (nrange 0 (2 ^ (f.imm16.toNat / 256 % 4) * (32768 * s.bound s.tr.core / wrBits f))) 1 (2 ^ segWm f)
      (fun k => s.x f.xbase + BitVec.ofNat 64 (k * 2 ^ segWm f)) (fun k _ => 0x40 + 8 * k) 0 := by
  refine ⟨⟨24, 1, 23, 0, 0, 0, 0, 0, 0, 30, 25 * 1024 + 1⟩, ⟨24, 1, 23, 0, 0, 0, 0, 0, 0, 30, 25 * 1024 + 128 + 1⟩, memVec.withV 2 [(23, 512 * 2 ^ 64 + 511)],
    quiet_of ?_, fun k hk => vectorReady_of ?_, ?_, localPlaces_of 0 ?_ ?_⟩
  case refine_2 => revert k hk; decide +kernel
  all_goals decide +kernel

/-- VPREF of two elements of page 0, and VGATHW with no active element. -/
theorem witness_VectorLoadsAndGathers_others : ∃ (f : FmtM) (s u : State), s.quiet ∧ VectorReady s true true [] [] ∧
    ((∀ x ∈ (s.core s.tr.core).tlb, nbits x.ent.toNat 7 2 ≠ 1) ∧ s.vec.active f.m.toNat s.th.vl ≠ [] ∧
      ∀ e ∈ s.vec.active f.m.toNat s.th.vl, (locate s s.tr.core s.cred (s.x f.xbase + BitVec.ofNat 64 e *
        (if f.xs = 0#6 then BitVec.ofNat 64 (2 ^ segWm f) else s.x f.xs)) .ld false).2 = s) ∧
    u.vec.active f.m.toNat u.th.vl = [] ∧ VectorReady u (f.scope.toNat != 4 && gwDecode u.vec.cfg u.cur.role f &&
      vDecode u.vec.cfg u.cur.role 1 [vField false f.v 1] [vField false f.xs 1]) (u.vlOk (gathBits f)) [] [] := by
  refine ⟨⟨24, 1, 23, 0, 0, 0, 0, 0, 0, 30, 25 * 1024 + 1⟩, memVec, memVec.withV 0 [], quiet_of ?_, vectorReady_of ?_, ?_, ?_, vectorReady_of ?_⟩ <;>
    decide +kernel

/-- Stores of two elements to places apart. -/
theorem witness_VectorStores : ∃ (f : FmtM) (s : State), s.quiet ∧
    LocalPlaces s .st (s.vec.active f.m.toNat s.th.vl) 1 (2 ^ segWm f)
      (fun e => s.x f.xbase + f.imm16.signExtend 64 + s.x f.xs + BitVec.ofNat 64 e * BitVec.ofNat 64 (2 ^ segWm f)) (fun e _ => 0x40 + 4 * e) 0 ∧
    Storable s (s.vec.active f.m.toNat s.th.vl) 1 (2 ^ segWm f) (fun e _ => 0x40 + 4 * e) ∧
    (∀ e ∈ s.vec.active f.m.toNat s.th.vl, ∀ k, k < 1 → s.vec.opPois (.reg f.v.toNat) k (egOf (wrBits f) e) = false) ∧
    VectorReady s (f.scope.toNat != 4 && vDecode s.vec.cfg s.cur.role 1 [] [vField false f.v 1]) (s.vlOk (wrBits f)) [] [] := by
  refine ⟨⟨22, 1, 0, 0, 0, 0, 0, 0, 0, 20, 0⟩, memVec, quiet_of ?_, localPlaces_of 0 ?_ ?_, storable_of ?_ ?_, ?_, vectorReady_of ?_⟩ <;> decide +kernel

/-- One block of E4M3: 32 bytes from 0x40, its scale at 0x200. -/
theorem witness_BlockLoadsAndStores : ∃ (f : FmtM) (s : State) (fm : Fmt), s.quiet ∧ blkFmt f = some fm ∧ s.th.vl % 32 = 0 ∧
    (s.x f.xbase + f.imm16.signExtend 64).toNat % 4 = 0 ∧ ldedup ((s.vec.active f.m.toNat s.th.vl).map (· / 32)) = [0] ∧
    4 * fm.codeWidth + (if fm.isPx then 4 else 0) = 32 ∧ 0x40 + 32 ≤ 0x200 ∧
    (∀ acc ∈ [Acc.ld, .st], LocalPlaces s acc [0] 8 4 (fun b => s.x f.xbase + f.imm16.signExtend 64 + BitVec.ofNat 64 (b * 32))
      (fun b k => 0x40 + 32 * b + 4 * k) 0 ∧ LocalPlaces s acc [0] 1 1 (fun b => s.x f.xs + BitVec.ofNat 64 b) (fun b _ => 0x200 + b) 0) ∧
    Storable s [0] 8 4 (fun b k => 0x40 + 32 * b + 4 * k) ∧ Storable s [0] 1 1 (fun b _ => 0x200 + b) ∧
    (∀ e ∈ s.vec.active f.m.toNat s.th.vl, s.vec.opPois (.reg f.v.toNat) 0 (egOf 8 e) = false ∧
      s.vec.opPois (.reg (f.v.toNat + 1)) 0 (egOf 64 (e / 32)) = false) ∧
    ∀ load : Bool, VectorReady s (f.scope.toNat != 4 && vDecode s.vec.cfg s.cur.role 1 (if load then [vMulti false f.v 2 1] else [])
      (if load then [] else [vMulti false f.v 2 1])) (s.vlOk 8) [] [] := by
  refine ⟨⟨24, 1, 2, 0, 0, 0, 0, 0, 0, 4, 0⟩, (memVec.withX [0x40, 0x200]).withV 32 [], .e4m3, quiet_of ?_, ?_, ?_, ?_, ?_, ?_, ?_, fun acc ha => ?_,
    storable_of ?_ ?_, storable_of ?_ ?_, ?_, fun load => ?_⟩
  case refine_8 =>
    fin_cases ha <;> exact ⟨localPlaces_of 0 (by decide +kernel) (by decide +kernel), localPlaces_of 0 (by decide +kernel) (by decide +kernel)⟩
  case refine_14 => cases load <;> exact vectorReady_of (by decide +kernel)
  all_goals decide +kernel

/-- VSCADD and VAMO with RET of two .i32 elements at places apart. -/
theorem witness_VectorAtomics : ∃ (f g : FmtM) (s : State), s.quiet ∧
    (∀ k ∈ [f, g], LocalPlaces s .rmw (s.vec.active k.m.toNat s.th.vl) 1 4
        (fun e => s.x k.xbase + BitVec.ofNat 64 (elemAt (s.vec.reg k.xs.toNat) (idxBits k) e * 2 ^ segWm k)) (fun e _ => 0x40 + 4 * e) 0 ∧
      2 ^ segWm k = 4 ∧ (∀ e ∈ s.vec.active k.m.toNat s.th.vl, s.vec.opPois (.reg k.xs.toNat) 0 (egOf (idxBits k) e) = false ∧
        physQuality s (0x40 + 4 * e) 4 = .clean ∧ s.vec.opPois (.reg 24) 0 (egOf 16 e) = false ∧
        s.vec.opPois (.reg k.v.toNat) 0 (egOf (wrBits k) e) = false)) ∧
    Storable s (s.vec.active f.m.toNat s.th.vl) 1 4 (fun e _ => 0x40 + 4 * e) ∧ f.imm16.toNat / 1024 = 24 ∧
    (∀ e ∈ s.vec.active f.m.toNat s.th.vl, ∀ i ∈ s.vec.active f.m.toNat s.th.vl, 0x40 + 4 * e = 0x40 + 4 * i ∨ 0x40 + 4 * e + 4 ≤ 0x40 + 4 * i ∨
      0x40 + 4 * i + 4 ≤ 0x40 + 4 * e) ∧
    VectorReady s (f.scope.toNat != 4 && vDecode s.vec.cfg s.cur.role 1 []
       [vField false f.v 1, vField false f.xs 1, vField false 24#6 1]) (scaddOk f && s.vlOk (max (gathBits f) 16)) [] [] ∧
    g.imm16.toNat % 2 = 1 ∧ tWidth (BitVec.ofNat 4 (g.imm16.toNat / 4096)) / 8 = 4 ∧
    VectorReady s (g.scope.toNat != 4 && vDecode s.vec.cfg s.cur.role 1 [vField false g.v 1] [vField false g.v 1, vField false g.xs 1])
      (s.vlOk (max (gathBits g) 32)) [] [] := by
  refine ⟨⟨22, 1, 23, 0, 0, 0, 0, 0, 0, 20, 24 * 1024 + 2⟩, ⟨22, 1, 23, 0, 0, 0, 0, 0, 0, 20, 0x2001⟩, memVec, quiet_of ?_, fun k hk => ?_,
    storable_of ?_ ?_, ?_, ?_, vectorReady_of ?_, ?_, ?_, vectorReady_of ?_⟩
  case refine_2 => fin_cases hk <;> exact ⟨localPlaces_of 0 (by decide +kernel) (by decide +kernel), by decide +kernel⟩
  all_goals decide +kernel

/-- Tile slots 0 and 1 held by the triad, with a value in row 0 of slot 1, and slot 2 by another. -/
def tiled : State := { vectored with tiles := [(0, ⟨false, some 0, none, [], []⟩), (1, ⟨false, some 0, none, [(0, 7 :: List.replicate 255 0)], []⟩),
  (2, ⟨false, some 9, none, [], []⟩)] }

theorem noTiles_of {s : State} (h : (roles.all fun q => (s.tr.role q).tile.isNone) = true) : s.noTiles := by
  simp only [List.all_eq_true, Option.isNone_iff_eq_none] at h
  exact fun q => h q (by cases q <;> decide)

/-- With a tile instruction of another role under way, issued first, on slot 0 and its weight region. -/
def tiledBusy : State :=
  { ((tiled.asRole .loader).modTh fun r => { r with tile := some ⟨0, [0], [(0, 0x20000)]⟩ }).asRole .computer with serial := 1 }

theorem behind_of {s : State} {ks : List Nat} {bs : List (Nat × Nat)} (q : Role) (v : TileUse)
    (h : (s.th.tile.isNone && decide (q ≠ s.cur.role) && decide ((s.tr.role q).tile = some v) && decide (v.order < s.serial) &&
      (ks.any v.slots.contains || bs.any fun b => v.bytes.any fun c => decide (b.1 < c.1 + c.2) && decide (c.1 < b.1 + b.2))) = true) :
    s.Behind ks bs := by
  simp only [Bool.and_eq_true, Option.isNone_iff_eq_none, decide_eq_true_eq, Bool.or_eq_true, List.any_eq_true, List.contains_iff_mem] at h
  exact ⟨h.1.1.1.1, q, v, h.1.1.1.2, h.1.1.2, h.1.2, h.2⟩

/-- MTFREE and MTZERO behind an earlier tile instruction of another role, and with none under way. -/
theorem witness_TilesAndWeightBuffers_order : ∃ (f g : FmtE) (s u : State), s.quiet ∧ s.Started ∧ s.cur.role = .computer ∧
    s.Behind (slotsOf f) ((slotsOf f).map fun k => (k * 0x20000, 0x20000)) ∧ s.holds (unitSlot g) = true ∧ s.Behind [unitSlot g] [] ∧
    u.Started ∧ u.cur.role = .computer ∧ u.noTiles ∧ u.holds (unitSlot g) = true :=
  ⟨⟨3, 0, 0, 0, 0, 1⟩, ⟨0, 0, 0, 0, 0, 1⟩, tiledBusy, tiled, quiet_of (by decide +kernel), started_of (by decide +kernel), by decide +kernel,
    behind_of .loader ⟨0, [0], [(0, 0x20000)]⟩ (by decide +kernel), by decide +kernel,
    behind_of .loader ⟨0, [0], [(0, 0x20000)]⟩ (by decide +kernel), started_of (by decide +kernel), by decide +kernel,
    noTiles_of (by decide +kernel), by decide +kernel⟩

/-- Slots that are free, one that another triad holds, with and without WAIT, one that is held in the other shape, and slots to free. -/
theorem witness_TilesAndWeightBuffers_slots : ∃ (f g w h : FmtE) (s : State), s.Started ∧ s.cur.role = .computer ∧
    (¬ (∃ k ∈ slotsOf f, ∃ b ∈ s.mySlabs, ∃ c, c ≠ s.cur.ctxn ∧ (s.tileAt b k).holder = some c) ∧
      ¬ ∃ k ∈ slotsOf f, s.holds k = true ∧ s.slotShape k ≠ (fnBits f 8 1 == 1)) ∧
    ((∃ k ∈ slotsOf g, ∃ b ∈ s.mySlabs, ∃ c, c ≠ s.cur.ctxn ∧ (s.tileAt b k).holder = some c) ∧ fnBits g 9 1 = 0) ∧
    ((∃ k ∈ slotsOf w, ∃ b ∈ s.mySlabs, ∃ c, c ≠ s.cur.ctxn ∧ (s.tileAt b k).holder = some c) ∧ fnBits w 9 1 = 1) ∧
    (∃ k ∈ slotsOf h, s.holds k = true ∧ s.slotShape k ≠ (fnBits h 8 1 == 1)) ∧
    (s.modTh fun r => { r with stall := some (.mtalloc w) }).th.stall = some (.mtalloc w) := by
  refine ⟨⟨3, 0, 0, 0, 0, 0x83⟩, ⟨3, 0, 0, 0, 0, 4⟩, ⟨3, 0, 0, 0, 0, 0x204⟩, ⟨3, 0, 0, 0, 0, 0x101⟩, tiled, started_of ?_, ?_, ⟨?_, ?_⟩,
    ⟨⟨2, ?_, 0, ?_, 9, ?_⟩, ?_⟩, ⟨⟨2, ?_, 0, ?_, 9, ?_⟩, ?_⟩, ?_, ?_⟩
  case refine_3 =>
    have h : ∀ k ∈ slotsOf ⟨3, 0, 0, 0, 0, 0x83⟩, ∀ b ∈ tiled.mySlabs,
        (tiled.tileAt b k).holder = none ∨ (tiled.tileAt b k).holder = some tiled.cur.ctxn := by decide +kernel
    rintro ⟨k, hk, b, hb, c, hc, e⟩
    rcases h k hk b hb with h | h <;> rw [h] at e
    · cases e
    · exact hc (Option.some.inj e).symm
  all_goals decide +kernel

/-- Held slots of whole rows; MTROW inside the rows and at their end, by a row number in x2. -/
theorem witness_TilesAndWeightBuffers_tiles : ∃ (f g h : FmtE) (s : State), s.quiet ∧ s.noTiles ∧ s.Started ∧ s.holds (unitSlot f) = true ∧
    s.holds (fnBits f 0 3) = true ∧ s.slotShape (unitSlot f) = s.slotShape (fnBits f 0 3) ∧ s.wholeSlot (unitSlot f) ∧ s.wholeSlot (fnBits f 0 3) ∧
    (∀ k ∈ [g, h], s.wholeSlot (unitSlot k) ∧
      VectorReady s (vDecode s.vec.cfg s.cur.role 1 (if (fnBits k 0 1 == 1) then [] else [vField false k.xd 1])
        (if (fnBits k 0 1 == 1) then [vField false k.xd 1] else [])) (s.holds (unitSlot k) && s.vlOk (if s.slotShape (unitSlot k) then 64 else 32)) [] []) ∧
    (fnBits g 0 1 = 1 ∧ (s.x g.xb).toNat < s.nslabs * tileDim (s.slotShape (unitSlot g))) ∧
    fnBits h 0 1 = 0 ∧ s.nslabs * tileDim (s.slotShape (unitSlot h)) = (s.x h.xb).toNat := by
  have w0 : (tiled.withX [3, 256, 255]).wholeSlot 0 := by
    intro b hb
    have : b = 0 := by revert b hb; decide +kernel
    subst this
    exact ⟨by decide +kernel, whole_of (by decide +kernel)⟩
  have w1 : (tiled.withX [3, 256, 255]).wholeSlot 1 := by
    intro b hb
    have : b = 0 := by revert b hb; decide +kernel
    subst this
    refine ⟨by decide +kernel, fun i => ?_⟩
    have r : ((tiled.withX [3, 256, 255]).tileAt 0 1) = ⟨false, some 0, none, [(0, 7 :: List.replicate 255 0)], []⟩ := by decide +kernel
    rw [r]
    by_cases h : i = 0
    · subst h; decide +kernel
    · have n : tget (List.replicate (tileDim false) 0) i [(0, 7 :: List.replicate 255 0)] = List.replicate (tileDim false) 0 := by
        have : ¬ (0 = i) := fun e => h e.symm
        simp [tget, tfind, this]
      show (tget (List.replicate (tileDim false) 0) i [(0, 7 :: List.replicate 255 0)]).length = _
      rw [n, List.length_replicate]
  refine ⟨⟨0, 0, 0, 0, 0, 1⟩, ⟨22, 0, 3, 0, 0, 1⟩, ⟨22, 0, 2, 0, 1, 0⟩, tiled.withX [3, 256, 255], quiet_of ?_, noTiles_of ?_, started_of ?_, ?_, ?_, ?_, w0, w1, fun k hk => ?_, ?_⟩
  case refine_7 =>
    have h : ∀ k ∈ [(⟨22, 0, 3, 0, 0, 1⟩ : FmtE), ⟨22, 0, 2, 0, 1, 0⟩], ((unitSlot k = 0 ∨ unitSlot k = 1) ∧
        (vDecode (tiled.withX [3, 256, 255]).vec.cfg (tiled.withX [3, 256, 255]).cur.role 1 (if (fnBits k 0 1 == 1) then [] else [vField false k.xd 1])
        (if (fnBits k 0 1 == 1) then [vField false k.xd 1] else []) && ((tiled.withX [3, 256, 255]).holds (unitSlot k) &&
          (tiled.withX [3, 256, 255]).vlOk (if (tiled.withX [3, 256, 255]).slotShape (unitSlot k) then 64 else 32))) = true) := by decide +kernel
    obtain ⟨a, b⟩ := h k hk
    rw [Bool.and_eq_true] at b
    refine ⟨by rcases a with a | a <;> rw [a] <;> assumption, vectorReady_of ?_⟩
    rw [b.1, b.2]
    decide +kernel
  all_goals decide +kernel

/-- `tiled` over page 0, with 0x100 in x1, 0 in x2 and x4, and the bytes of one granule in x3. -/
def filling : State := (tiled.withPage 0 0 15 0).withX [0x100, 0, 256, 0]

/-- A fill of one granule of a held region from clean local memory, the same while it waits, and an invalidation. -/
theorem witness_TilesAndWeightBuffers_buffers : ∃ (f : FmtE) (s u : State), s.Started ∧
    (s.th.tile = none ∧ s.fillTarget (s.x f.xb).toNat (s.x f.xc).toNat = true ∧ (s.x f.xa).toNat % 16 = 0) ∧ s.noTiles ∧
    (∃ r, fillPieces s (s.x f.xa) (s.x f.xc).toNat (nrange 0 s.nslabs) = .ok r ∧ farOf r.1.flatten = []) ∧
    (u.Started ∧ u.tileBehind = false ∧ u.th.stall = some (.mwfill f)) ∧
    (∃ r, fillPieces u (u.x f.xa) (u.x f.xc).toNat (nrange 0 u.nslabs) = .ok r ∧ farOf r.1.flatten = [] ∧ deniedFrames r.1.flatten = [] ∧
      (∀ p ∈ r.1.flatten, pieceQuality r.2 r.2.cur p = .clean) ∧
      ∀ pa key m fr, Piece.here pa key m fr ∈ r.1.flatten → markHolds r.2 pa m = false) ∧
    s.fillTarget (s.x f.xd).toNat (s.x f.xc).toNat = true ∧ ∀ b ∈ s.mySlabs, ∀ g ∈ granulesOf 0 256, smem g (s.wbuf b).pend = false := by
  have h : ∀ s ∈ [filling, filling.modTh fun r => { r with stall := some (.mwfill ⟨4, 1, 2, 3, 0, 0⟩) }],
      okAnd (fillPieces s (s.x 1#6) (s.x 3#6).toNat (nrange 0 s.nslabs)) (fun r => (farOf r.1.flatten).isEmpty &&
        (deniedFrames r.1.flatten).isEmpty && (r.1.flatten.all fun p => pieceQuality r.2 r.2.cur p == .clean) &&
        r.1.flatten.all fun p => match p with | .here pa _ m _ => !markHolds r.2 pa m | _ => true) = true := by decide +kernel
  have a := h _ (List.mem_cons_self ..)
  have b := h _ (List.mem_cons_of_mem _ (List.mem_cons_self ..))
  obtain ⟨x, ex, px⟩ := ok_with a
  obtain ⟨y, ey, py⟩ := ok_with b
  simp only [Bool.and_eq_true, List.isEmpty_iff, List.all_eq_true, beq_iff_eq] at px py
  exact ⟨⟨4, 1, 2, 3, 0, 0⟩, filling, filling.modTh fun r => { r with stall := some (.mwfill ⟨4, 1, 2, 3, 0, 0⟩) }, started_of (by decide +kernel),
    by decide +kernel, noTiles_of (by decide +kernel), ⟨x, ex, px.1.1.1⟩, ⟨started_of (by decide +kernel), by decide +kernel⟩,
    ⟨y, ey, py.1.1.1, py.1.1.2, py.1.2, fun pa key m fr hm => by simpa using py.2 _ hm⟩, by decide +kernel⟩

/-- Two steps of FP32 with a latched column operand, and a weight stream at offset 0 of a held region. -/
theorem witness_OuterProducts : ∃ (f g : FmtX) (s : State), s.quiet ∧ s.noTiles ∧ s.cur.role = .computer ∧ s.holds f.ad.toNat = true ∧ s.wholeSlot f.ad.toNat ∧
    (∃ l, s.oxLg f = some l ∧
      let oa : OxOpnd := ⟨oxQa f, f.va.toNat, !oxLatb f⟩
      let ob : OxOpnd := ⟨oxQb f, f.vb.toNat, oxLatb f⟩
      VectorReady s (oa.decode s.vec.cfg (oxSteps f) && ob.decode s.vec.cfg (oxSteps f))
        (oa.dispatch s.vec.cfg l l.fa 256 (oxSteps f) && ob.dispatch s.vec.cfg l l.fb 256 (oxSteps f) && s.vlOk (maxWidth [l.fa.width, l.fb.width]))
        [oa.opnd, ob.opnd] []) ∧
    tileDim (s.slotShape f.ad.toNat) = 256 ∧ g.ad = f.ad ∧
    ∃ l, s.oxLg g = some l ∧
      let oa : OxOpnd := ⟨oxQa g, g.va.toNat, true⟩
      VectorReady s (oa.decode s.vec.cfg (oxSteps g)) (oa.dispatch s.vec.cfg l l.fa 256 (oxSteps g) && (s.x g.vb).toNat % 16 == 0 &&
        s.inRegions (s.x g.vb).toNat (wStream l 256 (oxSteps g)).total && s.vlOk (maxWidth [l.fa.width, l.fb.width])) [oa.opnd] [] ∧
      ∀ b ∈ s.mySlabs, ∀ k ∈ granulesOf (s.x g.vb).toNat (wStream l 256 (oxSteps g)).total, smem k (s.wbuf b).pend = false := by
  have w0 : filling.wholeSlot 0 := by
    intro b hb
    have : b = 0 := by revert b hb; decide +kernel
    subst this
    exact ⟨by decide +kernel, whole_of (by decide +kernel)⟩
  have a : (filling.oxLg ⟨0, 22, 23, 0, 0, 1, 0, 1, 0, 0, 9⟩).any (fun l =>
      (⟨false, 22, false⟩ : OxOpnd).dispatch filling.vec.cfg l l.fa 256 2 && (⟨false, 23, true⟩ : OxOpnd).dispatch filling.vec.cfg l l.fb 256 2 &&
      filling.vlOk (maxWidth [l.fa.width, l.fb.width])) = true := by decide +kernel
  have b : (filling.oxLg ⟨0, 22, 0, 0, 0, 1, 0, 0, 0, 0, 9⟩).any (fun l => ((⟨false, 22, true⟩ : OxOpnd).dispatch filling.vec.cfg l l.fa 256 2 &&
      (filling.x 0#6).toNat % 16 == 0 && filling.inRegions (filling.x 0#6).toNat (wStream l 256 2).total &&
      filling.vlOk (maxWidth [l.fa.width, l.fb.width])) && filling.mySlabs.all fun b => (granulesOf (filling.x 0#6).toNat (wStream l 256 2).total).all fun k =>
        !smem k (filling.wbuf b).pend) = true := by decide +kernel
  obtain ⟨l, el, pl⟩ := some_with a
  obtain ⟨m, em, pm⟩ := some_with b
  rw [Bool.and_eq_true] at pm
  obtain ⟨pm, pg⟩ := pm
  simp only [List.all_eq_true, Bool.not_eq_true'] at pg
  refine ⟨⟨0, 22, 23, 0, 0, 1, 0, 1, 0, 0, 9⟩, ⟨0, 22, 0, 0, 0, 1, 0, 0, 0, 0, 9⟩, filling, quiet_of (by decide +kernel), noTiles_of (by decide +kernel), by decide +kernel,
    by decide +kernel, w0, ⟨l, el, vectorReady_of ?_⟩, by decide +kernel, rfl, m, em, vectorReady_of ?_, pg⟩
  · simp only [Bool.and_eq_true] at *
    refine ⟨⟨by decide +kernel, pl⟩, by decide +kernel⟩
  · simp only [Bool.and_eq_true] at *
    refine ⟨⟨by decide +kernel, pm⟩, by decide +kernel⟩

/-- An FP64 slot held over page 0. -/
def tiled64 : State := { paged with tiles := [(0, ⟨true, some 0, none, [], []⟩)] }

/-- One row of a held FP64 slot over local memory; and MLDFF of one row whose next one faults. -/
theorem witness_TileLoadsAndStores_rows : ∃ (f : FmtM) (s : State), s.quiet ∧ s.noTiles ∧ f.scope.toNat ≠ 4 ∧ s.wholeSlot f.v.toNat ∧
    VectorReady s true (s.tileOk f f.v.toNat && s.vlOk (if s.slotShape f.v.toNat then 64 else 32)) [] [] ∧ tileDim (s.slotShape f.v.toNat) = 128 ∧
    s.tileRows f f.v.toNat = [0] ∧
    (∀ acc ∈ [Acc.ld, .st], LocalPlaces s acc [0] 128 8 (fun ρ => s.memBase f + BitVec.ofNat 64 ρ * s.x f.xs) (fun ρ j => 0x100 + 1024 * ρ + 8 * j) 0) ∧
    (∀ j, j < 128 → physQuality s (0x100 + 8 * j) 8 ≠ .uncorrectable) ∧
    Storable s [0] 128 8 (fun ρ j => 0x100 + 1024 * ρ + 8 * j) ∧ (s.tileAt (s.rowHome f.v.toNat 0).1 f.v.toNat).flag (0 % 128) = false := by
  have w0 : ((tiled64.withX [0x100, 1024]).withV 1 []).wholeSlot 0 := by
    intro b hb
    have : b = 0 := by revert b hb; decide +kernel
    subst this
    exact ⟨by decide +kernel, whole_of (by decide +kernel)⟩
  refine ⟨⟨0, 1, 2, 0, 0, 0, 0, 0, 0, 30, 0⟩, (tiled64.withX [0x100, 1024]).withV 1 [], quiet_of ?_, noTiles_of ?_, ?_, w0, vectorReady_of ?_, ?_, ?_, fun acc ha => ?_, ?_,
    storable_of ?_ ?_, ?_⟩
  case refine_7 => fin_cases ha <;> exact localPlaces_of 0 (by decide +kernel) (by decide +kernel)
  all_goals decide +kernel

theorem witness_TileLoadsAndStores_firstFaulting : ∃ (f : FmtM) (s : State), s.quiet ∧ s.noTiles ∧ f.scope.toNat ≠ 4 ∧ ffRow f = 128 ∧ wmBytes f = 8 ∧
    (s.x (BitVec.ofNat 6 f.imm16.toNat)).toNat = 2 ∧
    LocalPlaces s .ld (List.range 1) 128 8 (fun ρ => s.x f.xbase + BitVec.ofNat 64 ρ * s.x f.xs) (fun _ i => 0x100 + 8 * i) 0 ∧
    (∀ i, i < 128 → locate s s.tr.core s.cred (s.x f.xbase + BitVec.ofNat 64 1 * s.x f.xs + BitVec.ofNat 64 (i * 8)) .ld false = (.fault 1, s)) ∧
    (∀ ρ, ρ < 1 → ∀ i, i < 128 → physQuality s (0x100 + 8 * i) 8 = .clean) ∧
    VectorReady s (f.m == 0#4 && vDecode s.vec.cfg s.cur.role 1 [vField false f.v 1] [])
      (decide (2 ≤ s.nslabs * (32768 / (wrBits f * 128))) && s.vlOk (wrBits f)) [] [] := by
  refine ⟨⟨24, 1, 2, 0, 0, 0, 0, 0, 0, 30, 3⟩, paged.withX [0x100, 0x200000, 2], quiet_of ?_, noTiles_of ?_, ?_, ?_, ?_, ?_, localPlaces_of 0 ?_ ?_, ?_, ?_,
    vectorReady_of ?_⟩ <;> decide +kernel

/-- The loader over page 0 with an idle channel: copies of two elements, and of none. -/
def streamFrom (s : State) (f : FmtE) : List Word := (List.range s.th.vl).map fun e => s.x f.xa + BitVec.ofInt 64 ((4 : Int) * (e : Int))

def streamTo (s : State) (f : FmtE) : List Word := (List.range s.th.vl).map fun e => s.x f.xb + BitVec.ofNat 64 (e * 4)

theorem witness_CopyCommandsStartAndPause_stream : ∃ (f : FmtE) (s u : State), (s.Started ∧ u.Started) ∧ s.cur.role = .loader ∧
    (s.tr.chan (chanOf f)).cmd = none ∧ f.xc = 0#6 ∧ (s.x f.xa).toNat % 2 ^ fnBits f 0 2 = 0 ∧ (s.x f.xb).toNat % 2 ^ fnBits f 2 2 = 0 ∧
    s.th.vl ≠ 0 ∧ u.th.vl = 0 ∧ (streamFrom s f ++ streamTo s f).all (fun a => classify a != .noncanon) = true ∧
    twoSheets (elemAtlas 4 (streamTo s f)) = false ∧
    faultyUnits s s.tr.tag (elemAtlas 4 (streamFrom s f) ++ elemAtlas 4 (streamTo s f)) = [] := by
  refine ⟨⟨5, 1, 2, 0, 1, 10⟩, (((paged.asRole .loader).withX [0x100, 0x200]).withV 2 []), (paged.asRole .loader).withX [0x100, 0x200],
    ⟨started_of ?_, started_of ?_⟩, ?_⟩ <;> decide +kernel

/-- What CREMAP sees of its list at its issue. -/
def remapSeen (s : State) (f : FmtE) : Option (List Byte) :=
  if sheetBusy s (sheetsFrom (s.x f.xa) false) then none else peek s s.tr.core s.cred (s.x f.xa) 16

/-- A list of one record of one old and one new cell that is seen, and one that is not. -/
theorem witness_CopyCommandsStartAndPause_remap : ∃ (f : FmtE) (s u : State) (b : List Byte), s.Started ∧ u.Started ∧ s.cur.role = .loader ∧
    u.cur.role = .loader ∧ (s.tr.chan (chanOf f)).cmd = none ∧ (u.tr.chan (chanOf f)).cmd = none ∧
    fnBits f 0 1 = 0 ∧ fnBits f 1 6 = 0 ∧ (∀ t ∈ [s, u], (t.x f.xa).toNat % 4 = 0 ∧ (t.x f.xb).toNat % 4 = 0 ∧ (t.x f.xc).toNat % 4 = 0) ∧
    remapSeen s f = some b ∧ (numIn b 0 4, numIn b 4 4, numIn b 8 4) = (1, 1, 1) ∧
    remapRefused (remapRanges (s.x f.xa) (s.x f.xb) (s.x f.xc) 4 (1, 1, 1)) = false ∧
    faultyUnits s s.tr.tag (s.remapTouch (s.x f.xa) (s.x f.xb) (s.x f.xc) 4 (1, 1, 1)) = [] ∧
    remapSeen u f = none ∧ ([u.x f.xa, u.x f.xb, u.x f.xc].all fun a => classify a != .noncanon) = true ∧
    faultyUnits u u.tr.tag (elemAtlas 4 [u.x f.xa] ++ elemAtlas 4 [u.x f.xb, u.x f.xc]) = [] :=
  ⟨⟨5, 1, 2, 3, 1, 0⟩, ((paged.asRole .loader).withX [0x100, 0x200, 0x300]).withMem 0x100 [1, 0, 0, 0, 1, 0, 0, 0, 1],
    (paged.asRole .loader).withX [0x200000, 0x200, 0x300], natBytes 16 (1 + 2 ^ 32 + 2 ^ 64), started_of (by decide +kernel),
    started_of (by decide +kernel), by decide +kernel⟩

/-- The parameter block of a copy of two elements of 4 bytes along one dimension (R223). -/
def tensorBlock : List Byte :=
  natBytes 8 230 ++ natBytes 8 0x100 ++ natBytes 8 0x200 ++ natBytes 8 0 ++ natBytes 20 (2 + 2 ^ 32 + 2 ^ 64 + 2 ^ 96 + 2 ^ 128) ++
  natBytes 20 0 ++ natBytes 20 2 ++ natBytes 20 1 ++ natBytes 20 1 ++ List.replicate 60 0

/-- The loader with a window of that block in its core's cache. -/
def tensored : State :=
  let s := (((paged.asRole .loader).withX [0]).modTr fun t => { t with wins := [(0, ⟨0x1000, 192⟩)] })
  s.modCore 0 fun k => { k with pblk := [⟨entryOf s s.cur, 0, 0, tensorBlock⟩] }

theorem witness_CopyCommandsStartAndPause_tensor : ∃ (f : FmtE) (s : State) (blk : List Byte) (p : Tensor), p = readTensor blk ∧ s.Started ∧
    s.cur.role = .loader ∧ (s.tr.chan (chanOf f)).cmd = none ∧ (s.x f.xa).toNat % 64 = 0 ∧ (s.tr.win (fnBits f 0 3)).size ≠ 0 ∧
    s.paramBlock (fnBits f 0 3) (s.tr.win (fnBits f 0 3)) (s.x f.xa).toNat = .ok (blk, false) s ∧ p.bad blk = false ∧ p.xd = 7 ∧
    (BitVec.ofNat 64 p.sbase + s.x f.xb).toNat % p.ew = 0 ∧ (BitVec.ofNat 64 p.dbase + s.x f.xc).toNat % p.ew = 0 ∧ p.count = 2 ∧
    spanOk (BitVec.ofNat 64 p.sbase + s.x f.xb) p.srcSpan.1 p.srcSpan.2 = true ∧
    spanOk (BitVec.ofNat 64 p.dbase + s.x f.xc) p.dstSpan.1 p.dstSpan.2 = true ∧
    twoSheets (spanAtlas (BitVec.ofNat 64 p.dbase + s.x f.xc) p.dstSpan.1 p.dstSpan.2) = false ∧
    faultyUnits s s.tr.tag (s.tensorTouch p (BitVec.ofNat 64 p.sbase + s.x f.xb) (BitVec.ofNat 64 p.dbase + s.x f.xc)) = [] := by
  refine ⟨⟨5, 1, 0, 0, 1, 0⟩, tensored, tensorBlock, readTensor tensorBlock, rfl, started_of ?_, ?_, ?_, ?_, ?_, ?_, ?_, ?_, ?_, ?_, ?_, ?_, ?_, ?_, ?_⟩ <;>
    decide +kernel

/-- The same block with the one dimension taken from a list of words at 0x400. -/
def indexedBlock : List Byte := natBytes 8 6 ++ natBytes 8 0x100 ++ natBytes 8 0x200 ++ natBytes 8 0x400 ++ tensorBlock.drop 32

theorem witness_CopyCommandsStartAndPause_indexed : ∃ (s : State) (p : Tensor), p = readTensor indexedBlock ∧ s.Started ∧ p.bad indexedBlock = false ∧
    p.xd = 0 ∧ p.xbase % p.xw = 0 ∧ p.count = 2 ∧
    spanOk (BitVec.ofNat 64 p.sbase) p.srcSpan.1 p.srcSpan.2 = true ∧ spanOk (BitVec.ofNat 64 p.dbase) p.dstSpan.1 p.dstSpan.2 = true ∧
    spanOk (BitVec.ofNat 64 p.xbase) 0 ((p.xw * p.ext.getD p.xd 1 : Nat) - 1 : Int) = true ∧
    s.paramBlock 0 (s.tr.win 0) 0 = .ok (indexedBlock, false) s ∧
    faultyUnits s s.tr.tag (s.tensorTouch p (BitVec.ofNat 64 p.sbase) (BitVec.ofNat 64 p.dbase)) = [] := by
  refine ⟨tensored.modCore 0 fun k => { k with pblk := [⟨entryOf tensored tensored.cur, 0, 0, indexedBlock⟩] }, readTensor indexedBlock, rfl,
    started_of ?_, ?_⟩ <;> decide +kernel

/-- A stream of core 0's triad whose first source page is not mapped. -/
def streaming (src dst : Word) (n : Nat) : CopyCmd :=
  { op := .stream src dst 4 n 4 4 false, role := .loader, cred := demo.cred, order := 0, prog := 0, missed := [], ended := false,
    faulted := false, met := [], logged := [], reads := [], writes := [], after := [], hdr := none }

/-- Channel 1 of triad 0 with a command, and an event about it. -/
def State.withCopy (s : State) (c : CopyCmd) : State :=
  { s.modChan 0 1 fun h => { h with cmd := some c } with occ := { Occasion.none with k := 1 } }

theorem witness_CopyCommandsStartAndPause_fault : ∃ (s : State) (tr : Triad) (c : CopyCmd) (src dst : Word), s.occ.flag = false ∧
    (tfind s.occ.n s.triads = some tr ∧ (tr.chan s.occ.k).cmd = some c) ∧ c.op = .stream src dst 4 2 4 4 false ∧
    (c.ended = false ∧ c.met = [] ∧ c.prog < 2 ∧ c.log = []) ∧ copyHeld s tr.core c = false ∧
    locate s tr.core c.cred (src + BitVec.ofInt 64 (4 * (c.prog : Int))) .ld true = (.fault 1, s) := by
  refine ⟨paged.withCopy (streaming 0x200000 0x200 2), (paged.withCopy (streaming 0x200000 0x200 2)).triad 0, streaming 0x200000 0x200 2, 0x200000,
    0x200, ?_⟩
  decide +kernel

/-- The same with an atlas destination that is still watermarked. -/
theorem witness_CopyCommandsStartAndPause_watermark : ∃ (s : State) (tr : Triad) (c : CopyCmd) (src dst : Word) (lo : Nat), s.occ.flag = false ∧
    (tfind s.occ.n s.triads = some tr ∧ (tr.chan s.occ.k).cmd = some c) ∧ c.op = .stream src dst 4 2 4 4 false ∧
    (c.ended = false ∧ c.met = [] ∧ c.prog < 2 ∧ c.log = [] ∧ c.missed = []) ∧ copyHeld s tr.core c = false ∧
    locate s tr.core c.cred (src + BitVec.ofInt 64 (4 * (c.prog : Int))) .ld true = (.fault 1, s) ∧
    (tr.chan s.occ.k).wmA = true ∧ atlasOf dst = some lo ∧ lo + 2 * 4 ≤ 2 ^ 29 := by
  let c := streaming 0x200000 (0xFE00000000000200) 2
  let s := (paged.withCopy c).modChan 0 1 fun h => { h with wmA := true }
  refine ⟨s, s.triad 0, c, 0x200000, 0xFE00000000000200, 0x200, ?_⟩
  decide +kernel

/-- A box with an empty dimension. -/
def emptyBlock : List Byte := tensorBlock.take 32 ++ natBytes 4 0 ++ tensorBlock.drop 36

theorem witness_CopyCommandsStartAndPause_empty : ∃ (s : State) (p : Tensor), p = readTensor emptyBlock ∧ s.Started ∧ p.bad emptyBlock = false ∧
    p.xd = 7 ∧ p.count = 0 ∧ p.sbase % p.ew = 0 ∧ p.dbase % p.ew = 0 ∧ s.paramBlock 0 (s.tr.win 0) 0 = .ok (emptyBlock, false) s := by
  refine ⟨tensored.modCore 0 fun k => { k with pblk := [⟨entryOf tensored tensored.cur, 0, 0, emptyBlock⟩] }, readTensor emptyBlock, rfl,
    started_of ?_, ?_⟩ <;> decide +kernel

theorem witness_CopyCommandsStartAndPause_hint : ∃ (f : FmtE) (s : State) (pa key frame p : Nat), s.Started ∧ (s.x f.xb).toNat ≠ 0 ∧
    (s.x f.xa).toNat % 65536 + (s.x f.xb).toNat ≤ 65536 ∧
    locate s s.tr.core s.cred (s.x f.xa) .ld false = (.here pa key frame, s) ∧ portOf pa = some p ∧
    (s.io.port p).expander = true ∧ (s.io.port p).iso = false := by
  refine ⟨⟨3, 1, 2, 0, 0, 0⟩,
    { (demo.withPage 0x10000 (2 ^ 42) 15 0).withX [0x10000, 64] with io := { demo.io with port0 := ⟨true, true, false⟩ } },
    2 ^ 42, 0, 2 ^ 26, 0, started_of ?_, ?_⟩ <;> decide +kernel


/-- The event's command, at its first element, and free to run. -/
def Copied (s : State) (tr : Triad) (c : CopyCmd) : Prop :=
  tfind s.occ.n s.triads = some tr ∧ (tr.chan s.occ.k).cmd = some c ∧ c.faulted = false ∧ c.ended = false ∧ c.met = [] ∧ c.prog = 0 ∧
    c.missed = [] ∧ c.news = [] ∧ c.log = [] ∧ c.sheet = [] ∧ copyHeld s tr.core c = false ∧ engineUnacked s c.order = false

theorem copied_of {s : State} {tr : Triad} {c : CopyCmd}
    (h : (tfind s.occ.n s.triads == some tr && decide ((tr.chan s.occ.k).cmd = some c) && !c.faulted && !c.ended && c.met.isEmpty && c.prog == 0 &&
      c.missed.isEmpty && c.news.isEmpty && c.log.isEmpty && c.sheet.isEmpty && !copyHeld s tr.core c && !engineUnacked s c.order) = true) :
    Copied s tr c := by
  simpa [Copied, and_assoc] using h

/-- No line of the elements is the line of a source. -/
theorem apart_of {count fields size : Nat} {pa : Nat → Nat → Nat} {line : Nat}
    (h : ((List.range count).all fun e => (List.range fields).all fun j => !(linesOf (pa e j) size).contains line) = true) :
    ¬ ∃ e, e < count ∧ ∃ j, j < fields ∧ line ∈ linesOf (pa e j) size := by
  rintro ⟨e, he, j, hj, hm⟩
  simp only [List.all_eq_true, List.mem_range, Bool.not_eq_true', List.contains_eq_mem, decide_eq_false_iff_not] at h
  exact h e he j hj hm

/-- A stream of two words from 0x100 to 0x200. -/
def streamed : State := paged.withCopy (streaming 0x100 0x200 2)

theorem witness_CopiesMoveTheirElements_stream : ∃ (s : State) (tr : Triad) (c : CopyCmd) (src dst : Word) (pa : Nat → Nat → Nat)
    (from_ : Nat → List Byte), Copied s tr c ∧ Settled s tr.core ∧
    c.op = .stream src dst 4 2 4 4 false ∧
    (∀ e, e < 2 → (from_ e).length = 4 ∧ HoldsAt s tr.core c.cred (src + BitVec.ofInt 64 (4 * (e : Int))) (from_ e)
      (fun line => ∃ e, e < 2 ∧ ∃ j, j < 1 ∧ line ∈ linesOf (pa e j) 4)) ∧
    ∀ e, e < 2 → ∀ j, j < 1 → TakesAt s tr.core c.cred (dst + BitVec.ofNat 64 (e * 4)) 4 (pa e j) 0 ∧ pa e j % 64 + 4 ≤ 64 := by
  refine ⟨streamed, streamed.triad 0, streaming 0x100 0x200 2, 0x100, 0x200, fun e _ => 0x200 + 4 * e, fun _ => [0, 0, 0, 0],
    copied_of (by decide +kernel), settled_of (by decide +kernel), rfl, fun e he => ⟨rfl, ?_⟩, fun e he j hj => ?_⟩
  · refine holdsAt_of (fun o => 0x100 + 4 * e + o) 0 0 ?_ fun o ho => apart_of ?_
    · interval_cases e <;> decide +kernel
    · have ho : o < 4 := ho
      interval_cases e <;> interval_cases o <;> decide +kernel
  · refine ⟨takesAt_of 0 ?_, by show (0x200 + 4 * e) % 64 + 4 ≤ 64; omega⟩
    interval_cases j
    interval_cases e <;> decide +kernel

/-- The tensor copy of `tensorBlock`. -/
def tensorCmd : CopyCmd := { streaming 0 0 0 with op := .tensor tensorBlock 0 0 }

def tensorRun : State := paged.withCopy tensorCmd

theorem witness_CopiesMoveTheirElements_tensor : ∃ (s : State) (tr : Triad) (c : CopyCmd) (p : Tensor) (pa : Nat → Nat → Nat)
    (from_ : Nat → List Byte), Copied s tr c ∧ Settled s tr.core ∧
    c.op = .tensor tensorBlock 0 0 ∧ p = readTensor tensorBlock ∧ (p.xd = 7 ∧ p.count = 2 ∧ p.ew = 4) ∧
    (∀ e, e < 2 → (from_ e).length = 4 ∧ HoldsAt s tr.core c.cred (BitVec.ofNat 64 p.sbase + 0 + BitVec.ofInt 64 (p.src e none)) (from_ e)
      (fun line => ∃ e, e < 2 ∧ ∃ j, j < 1 ∧ line ∈ linesOf (pa e j) 4)) ∧
    ∀ e, e < 2 → ∀ j, j < 1 → TakesAt s tr.core c.cred (BitVec.ofNat 64 p.dbase + 0 + BitVec.ofInt 64 (p.dst e)) 4 (pa e j) 0 ∧ pa e j % 64 + 4 ≤ 64 := by
  refine ⟨tensorRun, tensorRun.triad 0, tensorCmd, readTensor tensorBlock, fun e _ => 0x200 + 4 * e, fun _ => [0, 0, 0, 0],
    copied_of (by decide +kernel), settled_of (by decide +kernel), rfl, rfl, by decide +kernel, fun e he => ⟨rfl, ?_⟩, fun e he j hj => ?_⟩
  · refine holdsAt_of (fun o => 0x100 + 4 * e + o) 0 0 ?_ fun o ho => apart_of ?_
    · interval_cases e <;> decide +kernel
    · have ho : o < 4 := ho
      interval_cases e <;> interval_cases o <;> decide +kernel
  · refine ⟨takesAt_of 0 ?_, by show (0x200 + 4 * e) % 64 + 4 ≤ 64; omega⟩
    interval_cases j
    interval_cases e <;> decide +kernel

/-- The indexed copy of `indexedBlock`, whose two index words are 0. -/
theorem witness_CopiesMoveTheirElements_indexed : ∃ (s : State) (tr : Triad) (c : CopyCmd) (p : Tensor), Copied s tr c ∧ Settled s tr.core ∧
    c.op = .tensor indexedBlock 0 0 ∧ p = readTensor indexedBlock ∧ (p.xd = 0 ∧ p.count = 2 ∧ p.ew = 4 ∧ p.xw = 4) ∧
    ∀ e, e < 2 → HoldsAt s tr.core c.cred (BitVec.ofNat 64 (p.xbase + p.xw * (p.point e).getD p.xd 0)) (natBytes p.xw 0)
        (fun line => ∃ e, e < 2 ∧ ∃ j, j < 1 ∧ line ∈ linesOf (0x200 + 4 * e) 4) ∧
      HoldsAt s tr.core c.cred (BitVec.ofNat 64 p.sbase + 0 + BitVec.ofInt 64 (p.src e (some 0))) [0, 0, 0, 0]
        (fun line => ∃ e, e < 2 ∧ ∃ j, j < 1 ∧ line ∈ linesOf (0x200 + 4 * e) 4) := by
  have away : ∀ p, (decide (p / 64 ∉ linesOf 0x200 8)) = true → ¬ ∃ e, e < 2 ∧ ∃ j, j < 1 ∧ p / 64 ∈ linesOf (0x200 + 4 * e) 4 := by
    rintro p h ⟨e, he, j, hj, x⟩
    refine of_decide_eq_true h ?_
    interval_cases e <;> exact x
  refine ⟨paged.withCopy { streaming 0 0 0 with op := .tensor indexedBlock 0 0 }, (paged.withCopy { streaming 0 0 0 with op := .tensor indexedBlock 0 0 }).triad 0,
    { streaming 0 0 0 with op := .tensor indexedBlock 0 0 }, readTensor indexedBlock, copied_of (by decide +kernel), settled_of (by decide +kernel),
    rfl, rfl, by decide +kernel, fun e he => ⟨holdsAt_of (fun o => 0x400 + 4 * e + o) 0 0 ?_ fun o ho => away _ ?_,
      holdsAt_of (fun o => 0x100 + o) 0 0 ?_ fun o ho => away _ ?_⟩⟩
  · interval_cases e <;> decide +kernel
  · have ho : o < 4 := ho
    interval_cases e <;> interval_cases o <;> decide +kernel
  · interval_cases e <;> decide +kernel
  · have ho : o < 4 := ho
    interval_cases o <;> decide +kernel

/-- A list of one remap record: new cell 0 takes old cell 0 (R238, R315). -/
def listHead : List Byte := natBytes 16 (1 + 2 ^ 32 + 2 ^ 64)

def listRec : List Byte := natBytes 96 (2 ^ 40)

def remapCmd : CopyCmd := { streaming 0 0 0 with op := .remap 0x1000 0x2000 0x3000 false 1 }

def remapRun : State := (paged.withMem 0x1000 (listHead ++ listRec)).withCopy remapCmd

theorem witness_CopiesMoveTheirElements_remap : ∃ (s : State) (tr : Triad) (c : CopyCmd) (recs old new_ : Word) (head rec_ : List Byte)
    (apart : Nat → Prop), Copied s tr c ∧ Settled s tr.core ∧
    c.op = .remap recs old new_ false 1 ∧ apart = (fun line => ∃ e, e < 1 ∧ ∃ j, j < 1 ∧ line ∈ linesOf 0x3000 4) ∧
    (c.hdr = none ∧ head.length = 16 ∧ HoldsAt s tr.core c.cred recs head apart ∧
      remapRefused (remapRanges recs old new_ 4 (1, 1, 1)) = false) ∧
    (bytesNat (head.take 4) = 1 ∧ bytesNat ((head.drop 4).take 4) = 1 ∧ bytesNat ((head.drop 8).take 4) = 1) ∧
    (rec_.length = 96 ∧ HoldsAt s tr.core c.cred (recs + BitVec.ofNat 64 16) rec_ apart) ∧
    (bytesNat (rec_.take 4) = 0 ∧ bytesNat ((rec_.drop 4).take 1) = 0 ∧ bytesNat ((rec_.drop 5).take 1) = 1 ∧
      bytesNat ((rec_.drop 8).take 4) = 0) ∧ HoldsAt s tr.core c.cred old (natBytes 4 0) apart ∧ TakesAt s tr.core c.cred new_ 4 0x3000 0 ∧
    0x3000 % 64 + 4 ≤ 64 := by
  have away : ∀ p, (decide (p / 64 ∉ linesOf 0x3000 4)) = true → ¬ ∃ e, e < 1 ∧ ∃ j, j < 1 ∧ p / 64 ∈ linesOf 0x3000 4 :=
    fun p h ⟨_, _, _, _, x⟩ => of_decide_eq_true h x
  refine ⟨remapRun, remapRun.triad 0, remapCmd, 0x1000, 0x2000, 0x3000, listHead, listRec, _, copied_of (by decide +kernel),
    settled_of (by decide +kernel), rfl, rfl,
    ⟨rfl, rfl, holdsAt_of (fun o => 0x1000 + o) 0 0 (by decide +kernel) fun o ho => away _ ?_, by decide +kernel⟩,
    by decide +kernel, ⟨rfl, holdsAt_of (fun o => 0x1010 + o) 0 0 (by decide +kernel) fun o ho => away _ ?_⟩, by decide +kernel,
    holdsAt_of (fun o => 0x2000 + o) 0 0 (by decide +kernel) fun o ho => away _ ?_, takesAt_of 0 (by decide +kernel), by decide⟩
  · have ho : o < 16 := ho
    have : (0x1000 + o) / 64 = 64 := by omega
    rw [this]; decide +kernel
  · have ho : o < 96 := ho
    have : (0x1010 + o) / 64 = 64 ∨ (0x1010 + o) / 64 = 65 := by omega
    rcases this with h | h <;> rw [h] <;> decide +kernel
  · have ho : o < 4 := ho
    have : (0x2000 + o) / 64 = 128 := by omega
    rw [this]; decide +kernel

/-- Waits for channel 1: at a command and at CWAIT, with it busy and idle; and at a watermark. -/
def waitsFor (w : Stall) (busy : Bool) : State :=
  let s := if busy then streamed else { paged with occ := { Occasion.none with k := 1 } }
  s.modTh fun r => { r with stall := some w }

theorem witness_ChannelsAreWaitedForAndRead : ∃ (f : FmtE) (s u v w x : State), (s.Started ∧ u.Started ∧ v.Started ∧ w.Started ∧ x.Started) ∧
    (s.th.stall = some (.channel 1) ∧ (s.tr.chan 1).cmd ≠ none) ∧ (u.th.stall = some (.channel 1) ∧ (u.tr.chan 1).cmd = none) ∧
    v.th.stall = some .watermark ∧ (f.fn.toNat.testBit 1 = true ∧ w.th.stall = some (.cwait f) ∧ (w.tr.chan 1).cmd ≠ none) ∧
    x.th.stall = some (.cwait f) ∧ (x.tr.chan 1).cmd = none ∧ (List.range 16).all (fun k => ((x.tr.chan k).cmd).isNone) = true := by
  refine ⟨⟨5, 0, 0, 0, 0, 2⟩, waitsFor (.channel 1) true, waitsFor (.channel 1) false, waitsFor .watermark false, waitsFor (.cwait ⟨5, 0, 0, 0, 0, 2⟩) true,
    waitsFor (.cwait ⟨5, 0, 0, 0, 0, 2⟩) false, ⟨started_of ?_, started_of ?_, started_of ?_, started_of ?_, started_of ?_⟩, ?_⟩ <;> decide +kernel

/-- The command that a BKOP of the statement makes. -/
def bkopCmd (s : State) (f : FmtE) (op : Nat) : BankCmd := {
  tid := some s.cur, entry := (entryOf s s.cur).getD 0, core := s.tr.core, asid := asidOf s.tr.ptbase, order := s.serial, op := op,
  fmt := fnBits f 4 2, red := fnBits f 6 2, d := (s.x f.xa).toNat, s := (s.x f.xb).toNat, n := (s.x f.xc).toNat,
  u := (s.x (f.unit.setWidth 6)).toNat, alpha := s.x (f.unit.setWidth 6), idx := [], vals := [], pages := [], left := [],
  sums := [], met := [] }

/-- Two elements at 0x100, 0x800 and a word range at 0x1000. -/
def banked : State := paged.withX [0x100, 0x800, 2, 0x1000]

def bkopField : FmtE := ⟨5, 1, 2, 3, 4, 0⟩

def readsCmd (op : Nat) : BankCmd × List Nat :=
  match bankRead { banked with serial := banked.serial + 1 } (bkopCmd banked bkopField op) with
  | .ok a _ => a
  | .stop _ => (bkopCmd banked bkopField op, [])

def rangePages (op : Nat) : List BPage :=
  match bankRanges 0 demo.cred (readsCmd op).1.ranges { banked with serial := banked.serial + 1 } [] with
  | .ok (ps, _) => ps
  | .error _ => []

def allPages (op : Nat) : List BPage :=
  match bankPages 0 demo.cred .rmw (readsCmd op).1.scatGranules { banked with serial := banked.serial + 1 } (rangePages op) with
  | .ok (ps, _) => ps
  | .error _ => []

def queuedCmd (op : Nat) : BankCmd :=
  let c : BankCmd := { (readsCmd op).1 with pages := (allPages op).foldl (fun t p => tset p.gran (p.frame, p.key) t) [] }
  { c with left := c.needs }

theorem room_of {u : State} {c : BankCmd}
    (h : (bankRoom u c.left && u.triads.all fun p => roles.all fun r => (p.2.role r).stall.isNone) = true) :
    (∀ b ∈ c.left, (u.bank.filter fun d => smem b d.left).length < 32) ∧
      ∀ p ∈ u.triads, ∀ r d xd, (p.2.role r).stall = some (.bkop d xd) → d.order < c.order → ∀ b ∈ d.left, b ∉ c.left := by
  simp only [Bool.and_eq_true, List.all_eq_true, bankRoom, decide_eq_true_eq, Option.isNone_iff_eq_none] at h
  exact ⟨h.1, fun p hp r d xd hr => by rw [h.2 p hp r (by cases r <;> decide)] at hr; cases hr⟩

theorem still_of {u : State} {core : Nat} {cr : Cred} {gs : List Nat}
    (h : (gs.all fun g => match (translate u core cr (g * 65536) .ld false).1 with
      | .ok _ _ _ _ _ e => nbits e 7 2 != 1
      | .fault _ => true) = true) :
    ∀ va, va / 65536 ∈ gs → ∀ pa key dom den lvl e, (translate u core cr (va / 65536 * 65536) .ld false).1 = .ok pa key dom den lvl e →
      nbits e 7 2 ≠ 1 := by
  intro va hv pa key dom den lvl e he
  have := List.all_eq_true.1 h _ hv
  rw [he] at this
  simpa using this

theorem witness_BankCommandsAreQueuedAndJoined_queue : ∀ op ∈ [0, 3, 5, 6], ∃ (f : FmtE) (s : State) (c : BankCmd) (frames : List Nat)
    (ps0 ps : List BPage) (u : State) (c2 : BankCmd), s.Started ∧ (bkopCmd s f op).badRange = false ∧ (bkopCmd s f op).n ≠ 0 ∧
    (bkopCmd s f op).misaligned = none ∧ bankRead { s with serial := s.serial + 1 } (bkopCmd s f op) = .ok (c, frames) u ∧
    bankRanges u.tr.core u.cred c.ranges u [] = .ok (ps0, u) ∧ bankPages u.tr.core u.cred .rmw c.scatGranules u ps0 = .ok (ps, u) ∧
    (c2 = (let c1 : BankCmd := { c with pages := ps.foldl (fun t p => tset p.gran (p.frame, p.key) t) [] }
           { c1 with left := c1.needs })) ∧
    c2.scatOut = false ∧ (∀ p ∈ ps, p.frame < 2 ^ 39 ∧ p.denied = false) ∧ (∀ a ∈ frames, a < 2 ^ 39) ∧ c2.sealedFrames u ps = [] ∧
    (∀ va, va / 65536 ∈ c2.pages.map (·.1) → ∀ pa key dom den lvl e,
      (translate u c2.core u.cred (va / 65536 * 65536) .ld false).1 = .ok pa key dom den lvl e → nbits e 7 2 ≠ 1) ∧
    (∀ b ∈ c2.left, (u.bank.filter fun d => smem b d.left).length < 32) ∧
      ∀ p ∈ u.triads, ∀ r d xd, (p.2.role r).stall = some (.bkop d xd) → d.order < c2.order → ∀ b ∈ d.left, b ∉ c2.left := by
  intro op ho
  refine ⟨bkopField, banked, (readsCmd op).1, (readsCmd op).2, rangePages op, allPages op, { banked with serial := banked.serial + 1 },
    queuedCmd op, started_of ?_, ?_, ?_, ?_, ?_, ?_, ?_, rfl, ?_, ?_, ?_, ?_, still_of ?_, room_of ?_⟩ <;> fin_cases ho <;> decide +kernel

theorem witness_BankCommandsAreQueuedAndJoined_waits : ∃ (f : FmtE) (g : FmtY) (s u : State) (c : BankCmd), (s.Started ∧ u.Started) ∧
    s.th.stall = some (.bkop c f.xd.toNat) ∧ (∀ va, va / 65536 ∈ c.pages.map (·.1) → ∀ pa key dom den lvl e,
      (translate s c.core s.cred (va / 65536 * 65536) .ld false).1 = .ok pa key dom den lvl e → nbits e 7 2 ≠ 1) ∧
    (¬ ∃ c ∈ u.bank, c.tid = some u.cur) ∧ u.th.stall = some (.bkfence g) := by
  refine ⟨bkopField, ⟨5, 0, 0, 0, 0⟩, banked.modTh fun r => { r with stall := some (.bkop (queuedCmd 0) 5) }, demo.modTh fun r => { r with stall := some (.bkfence ⟨5, 0, 0, 0, 0⟩) }, queuedCmd 0, ⟨started_of ?_, started_of ?_⟩, ?_, still_of ?_, ?_, ?_⟩ <;>
    decide +kernel

/-- The command of two additions, queued, with its unit about to apply it. -/
def applying (op : Nat) : State := { banked with bank := [queuedCmd op], occ := { Occasion.none with n := (queuedCmd op).left.headD 0 } }

theorem witness_BankUnitsApplyCommands_elements : ∀ op ∈ [0, 6], ∃ (s : State) (c : BankCmd) (t0 : Tid), c.op = op ∧
    (s.bank.find? fun d => smem s.occ.n d.left) = some c ∧ c.tid = some t0 ∧ c.met = [] ∧ shadowPort s = none ∧
    (∀ i ∈ (List.range c.n).filter fun i => bauOf (c.place (c.dest i)).1 == s.occ.n, (c.place (c.dest i)).2 = 0 ∧
      physQuality s (c.place (c.dest i)).1 4 = .clean ∧ Reached s (c.place (c.dest i)).1 ∧ (c.place (c.dest i)).1 % 4 = 0 ∧
      (c.vals.getD i (0, false)).2 = false ∧ (c.op = 0 → (c.place (c.s + i * 4)).2 = 0 ∧ physQuality s (c.place (c.s + i * 4)).1 4 = .clean)) := by
  intro op ho
  refine ⟨applying op, queuedCmd op, demo.cur, ?_, ?_, ?_, ?_, ?_, ?_⟩
  case refine_6 =>
    intro i hi
    have hn : (queuedCmd op).n = 2 := by fin_cases ho <;> decide +kernel
    have hi : i < 2 := hn ▸ List.mem_range.1 (List.mem_filter.1 hi).1
    refine ⟨?_, ?_, reached_of ?_, ?_, ?_, ?_⟩ <;> fin_cases ho <;> interval_cases i <;> decide +kernel
  all_goals fin_cases ho <;> decide +kernel

/-- ROWRED of one row, with its word in the row's own unit. -/
def rowCmd : BankCmd := { queuedCmd 5 with u := 0x40100, pages := [(0, (0, 0)), (4, (0x40000, 0))], left := [bauOf 0x100] }

theorem witness_BankUnitsApplyCommands_rows : ∃ (s : State) (c : BankCmd) (t0 : Tid), (s.bank.find? fun d => smem s.occ.n d.left) = some c ∧
    c.tid = some t0 ∧ c.met = [] ∧ shadowPort s = none ∧ c.op = 5 ∧ c.sums = [] ∧ c.rows.length = 1 ∧
    (bauOf (c.place c.u).1 = s.occ.n ∧ (c.place c.u).2 = 0 ∧ Reached s (c.place c.u).1 ∧ (c.place c.u).1 % 4 = 0) ∧
    bauOf (c.place (c.rows.getD 0 0)).1 = s.occ.n ∧ (rowSum s c (c.rows.getD 0 0)).2 = false := by
  refine ⟨{ applying 5 with bank := [rowCmd], occ := { Occasion.none with n := bauOf 0x100 } }, rowCmd, demo.cur, ?_, ?_, ?_, ?_, ?_, ?_, ?_,
    ⟨?_, ?_, reached_of ?_, ?_⟩, ?_⟩ <;> decide +kernel

/-- Threads at FENCE: with nothing sent, with a write sent and not acknowledged, and with one abandoned. -/
def sentWrite (gone : Bool) : Replay :=
  { Replay.of 3 Txn.none with owner := some demo.cur, abandoned := gone, stream := 1 }

/-- A write that another thread sent through core 0's translations of ASID 2. -/
def viaWrite : Replay := { sentWrite false with owner := some ⟨9, .loader⟩, via := some (0, 2), num := 7 }

theorem witness_FencesAndBarriers_fence : ∃ (f : FmtY) (s u v w : State), f.scope.toNat ≠ 4 ∧ (s.Started ∧ u.Started ∧ v.Started ∧ w.Started) ∧
    s.fab.replay = [] ∧ (u.fab.replay = [sentWrite false] ∧ (sentWrite false).owner = some u.cur) ∧
    (v.fab.replay = [sentWrite true] ∧ (sentWrite true).owner = some v.cur) ∧ w.th.stall = some (.fence f) := by
  refine ⟨⟨5, 0, 2, 0, 0⟩, demo, { demo with fab := { demo.fab with replay := [sentWrite false] } },
    { demo with fab := { demo.fab with replay := [sentWrite true] } }, demo.modTh fun r => { r with stall := some (.fence ⟨5, 0, 2, 0, 0⟩) }, ?_,
    ⟨started_of ?_, started_of ?_, started_of ?_, started_of ?_⟩, ?_⟩ <;> decide +kernel

/-- Threads at BINIT of an unbound name and of a bound one, at BARRIVE and in a barrier's wait. -/
def celled (arrived : Nat) : State := (demo.withX [2]).modCore 0 fun k => { k with cells := [(0, ⟨(demo.triad 0).gang, 7, 2, arrived, 5⟩)] }

theorem witness_FencesAndBarriers_barriers : ∃ (f : FmtY) (s u v w : State) (c d e : Cell), (s.Started ∧ u.Started ∧ v.Started ∧ w.Started) ∧
    (s.th.resume = none ∧ u.th.resume = none ∧ v.th.resume = none ∧ w.th.resume = none) ∧ (s.x f.xa).toNat = 2 ∧
    s.cell f.imm8.toNat = none ∧ tfind 0 (s.core s.tr.core).cells = none ∧ (u.cell f.imm8.toNat = some (0, c) ∧ c.arrived = 0 ∧ c.expect = 2) ∧
    (v.cell f.imm8.toNat = some (0, d) ∧ d.arrived = 1 ∧ d.phase < 65536 ∧ tfind 0 (v.core v.tr.core).cells = some d) ∧
    (w.cell f.imm8.toNat = some (0, e) ∧ w.th.stall = some (.barrier 0 5 f.xd.toNat false)) ∧ f.fn = 0#32 ∧ f.scope.toNat ≠ 4 ∧
    v.fab.replay = [] := by
  refine ⟨⟨5, 1, 7, 2, 0⟩, demo.withX [2], celled 0, celled 1, (celled 0).modTh fun r => { r with stall := some (.barrier 0 5 5 false) },
    ⟨0, 7, 2, 0, 5⟩, ⟨0, 7, 2, 1, 5⟩, ⟨0, 7, 2, 0, 5⟩, ⟨started_of ?_, started_of ?_, started_of ?_, started_of ?_⟩, ?_⟩ <;> decide +kernel

/-- XPROBE of no address, of an atlas one, of one that is not mapped and of one that is. -/
theorem witness_ProbesAndInvalidations_probe : ∃ (f : FmtA) (s u v w : State), (s.Started ∧ u.Started ∧ v.Started ∧ w.Started) ∧
    classify (s.x f.xa + f.imm16.signExtend 64) = .noncanon ∧ classify (u.x f.xa + f.imm16.signExtend 64) = .atlas 0 ∧
    (classify (v.x f.xa + f.imm16.signExtend 64) = .virt 0x200000 ∧ lookup v v.tr.core v.cred 0x200000 = (.fault 1, v)) ∧
    classify (w.x f.xa + f.imm16.signExtend 64) = .virt 0x40 ∧ lookup w w.tr.core w.cred 0x40 = (.leaf 1 15, w) ∧ nbits 15 7 2 ≠ 1 := by
  refine ⟨⟨5, 1, 0, 0, 0, 0, 0⟩, paged.withX [2 ^ 60], paged.withX [0xFE00000000000000], paged.withX [0x200000], paged.withX [0x40],
    ⟨started_of ?_, started_of ?_, started_of ?_, started_of ?_⟩, ?_⟩ <;> decide +kernel

theorem witness_ProbesAndInvalidations_drop : ∃ (f : FmtA) (g : FmtY) (s u : State), (s.Started ∧ u.Started) ∧ (s.th.priv = true ∧ u.th.priv = true) ∧
    (s.th.stall = none ∧ u.th.stall = none) ∧ (1 ≤ f.opv.toNat % 8 ∧ f.opv.toNat % 8 ≤ 3) ∧ (1 ≤ g.scope.toNat ∧ g.scope.toNat ≤ 3) ∧
    (s.fab.replay = [] ∧ s.bank = [] ∧ s.fab.reads = [] ∧ (s.core 0).tlb ≠ []) ∧ (u.fab.replay = [sentWrite false] ∧
    (sentWrite false).owner = some u.cur ∧ (sentWrite false).abandoned = false) ∧
    ∃ v : State, v.Started ∧ v.th.priv = true ∧ v.th.stall = none ∧ v.fab.replay = [viaWrite] ∧ viaWrite.owner ≠ some v.cur ∧
      viaWrite.abandoned = false ∧ viaWrite.via = some (v.tr.core, (v.x f.xb).toNat % 4096) ∧ (v.x f.xb).toNat = (v.x g.xa).toNat := by
  refine ⟨⟨0, 1, 2, 0, 3, 0, 0⟩, ⟨0, 1, 0, 3, 0⟩, paged.withPriv, { paged.withPriv with fab := { demo.fab with replay := [sentWrite false] } },
    ⟨started_of ?_, started_of ?_⟩, ?_, ?_, ?_, ?_, ?_, ?_, { paged.withPriv.withX [2, 2] with fab := { demo.fab with replay := [viaWrite] } }, started_of ?_, ?_⟩ <;>
    decide +kernel

/-! A small mesh object of two cells and one face at 0x10000, sealed as entry 0. -/

def meshHead : List Byte :=
  natBytes 4 0 ++ natBytes 4 2 ++ natBytes 4 1 ++ natBytes 4 1 ++ List.replicate 24 0 ++ natBytes 8 0x180 ++ natBytes 8 0x200 ++ natBytes 8 0x240 ++
    natBytes 8 0x300 ++ List.replicate 184 0

def meshFaceRec : List Byte := natBytes 16 (2 ^ 32)

/-- The mesh object, with a 64-byte block of a topology command at 0x40. -/
def meshed (blk : List Byte) : State :=
  let s := ((paged.withPage 0x10000 0x10000 15 0).withX [0x40, 0x10000]).withMem 0x10000 meshHead
  { (s.withMem 0x10200 meshFaceRec).withMem 0x40 blk with meshes := [(0, ⟨true, 0x10000, [(0x10000, 0x400)], 0⟩)] }

/-- A block of MCUT into one part (R309). -/
def cutBlock : List Byte := natBytes 8 0x1000 ++ natBytes 8 0x10000 ++ List.replicate 24 0 ++ natBytes 8 1 ++ natBytes 8 0x2000 ++ natBytes 8 0

def cutField : FmtE := ⟨5, 1, 0, 0, 0, 0⟩

theorem witness_TopologyCommands_accept : ∃ (f : FmtE) (s u : State) (b : List Byte) (e : Nat), s.Started ∧ (s.x f.xa).toNat % 64 = 0 ∧
    u.fab.replay = [] ∧ readRange s (s.x f.xa) 64 true = .ok (b, []) u ∧ (∀ k ∈ blkZeros 3, blkNat b k = 0) ∧ blkNat b 0 % 8 = 0 ∧ blkArrays 3 b = true ∧
    meshNamed u u.tr.core u.cred (blkWord b 1) (some u.tr.tag) = (some e, u) ∧ (u.topo (dieOf s.tr.core)).queue.length < 16 ∧
    Settled u u.tr.core ∧ (blkWord b 0).toNat % 8 = 0 ∧ TakesAt u u.tr.core u.cred (blkWord b 0) 8 0x1000 0 := by
  refine ⟨cutField, meshed cutBlock, meshed cutBlock, cutBlock, 0, started_of ?_, ?_, ?_, ?_, ?_, ?_, ?_, ?_, ?_, settled_of ?_, ?_, takesAt_of 0 ?_⟩ <;>
    decide +kernel

/-- MCUT as it runs. -/
def cutCmd : TopoCmd := {
  tid := demo.cur, core := 0, op := 3, blk := cutBlock, cred := demo.cred, order := 0, build := [], mesh := some 0, faulted := false, ended := false,
  busy := true, aborted := false, result := none, met := [], logged := [], log := [], sheet := [] }

/-- A block of MBUILD of one root (R309). -/
def buildBlock : List Byte := natBytes 8 0x1000 ++ natBytes 8 0 ++ natBytes 8 0x10000 ++ natBytes 8 4096 ++ natBytes 8 0x2000 ++ natBytes 8 1 ++
  List.replicate 16 0

/-- The same with a destination that is not aligned. -/
def skewBlock : List Byte := natBytes 8 0x1000 ++ natBytes 8 0 ++ natBytes 8 0x10001 ++ natBytes 8 4096 ++ natBytes 8 0x2000 ++ natBytes 8 1 ++
  List.replicate 16 0

theorem witness_TopologyCommands_builds : ∃ (f : FmtE) (s : State) (b : List Byte), s.Started ∧ (s.x f.xa).toNat % 64 = 0 ∧
    readRange s (s.x f.xa) 64 true = .ok (b, []) s ∧ (∀ k ∈ blkZeros 0, blkNat b k = 0) ∧ blkNat b 0 % 8 = 0 ∧ blkArrays 0 b = true ∧
    (freeMesh s).isSome = true ∧ handleAt s s.tr.core s.cred (blkWord b 2) = (.frame 0x10000, s) := by
  refine ⟨cutField, meshed buildBlock, buildBlock, started_of ?_, ?_⟩ <;> decide +kernel

/-- The mesh table full, and a destination that is not aligned: answered RANGE; and a queue of sixteen, which is waited for. -/
theorem witness_TopologyCommands_refused : ∃ (f : FmtE) (s u v w : State) (b c : List Byte), (s.Started ∧ u.Started ∧ v.Started ∧ w.Started) ∧
    readRange s (s.x f.xa) 64 true = .ok (b, []) s ∧ builds 0 = true ∧ freeMesh s = none ∧ handleAt s s.tr.core s.cred (blkWord b 2) = (.frame 0x10000, s) ∧
    readRange u (u.x f.xa) 64 true = .ok (c, []) u ∧ (∀ k ∈ blkZeros 0, blkNat c k = 0) ∧ blkNat c 0 % 8 = 0 ∧ blkArrays 0 c = true ∧
    handleAt u u.tr.core u.cred (blkWord c 2) = (.bad, u) ∧ 16 ≤ (v.topo (dieOf v.tr.core)).queue.length ∧
    w.th.stall = some (.topo f 3 cutBlock (some 0) []) := by
  refine ⟨cutField, { meshed buildBlock with meshes := (List.range 256).map fun n => (n, ⟨true, 0x10000, [], 0⟩) }, meshed skewBlock,
    { meshed cutBlock with topos := [(0, ⟨List.replicate 16 cutCmd, []⟩)] }, (meshed cutBlock).modTh fun r => { r with stall := some (.topo cutField 3 cutBlock (some 0) []) },
    buildBlock, skewBlock, ⟨started_of ?_, started_of ?_, started_of ?_, started_of ?_⟩, ?_⟩ <;> decide +kernel

def cutting : State := { meshed cutBlock with topos := [(0, ⟨[], [cutCmd]⟩)] }

theorem witness_TopologyCommands_complete : ∃ (s : State) (c : TopoCmd), (s.topo s.occ.n).running = [c] ∧ s.occ.k = 0 ∧ s.occ.flag = false ∧
    (c.faulted = false ∧ c.ended = false ∧ c.aborted = false ∧ c.result = none) ∧ ((topoRun s c s.occ.env).e.fault.isNone = true ∧
      (topoRun s c s.occ.env).e.short = false ∧ (topoRun s c s.occ.env).e.full = false ∧ (topoRun s c s.occ.env).build = []) ∧
    (topoRun s c s.occ.env).e.cred = c.cred ∧
    (topoRun s c s.occ.env).e.core = c.core ∧ (topoRun s c s.occ.env).e.s.topos = s.topos ∧
    engineUnacked (topoRun s c s.occ.env).e.s c.order = false ∧ Settled (topoRun s c s.occ.env).e.s c.core ∧ (blkWord c.blk 0).toNat % 8 = 0 ∧
    TakesAt (topoRun s c s.occ.env).e.s c.core c.cred (blkWord c.blk 0) 8 0x1000 0 := by
  refine ⟨cutting, cutCmd, ?_, ?_, ?_, ?_, ?_, ?_, ?_, ?_, ?_, settled_of ?_, ?_, takesAt_of 0 ?_⟩ <;> decide +kernel

/-- MCOLOR of the same object, and MCUT, on local memory. -/
def colourCmd : TopoCmd := { cutCmd with
  op := 2, blk := natBytes 8 0x1000 ++ natBytes 8 0x10000 ++ List.replicate 16 0 ++ natBytes 8 0x2000 ++ List.replicate 24 0 }

theorem line_ne {a l n : Nat} (hn : n ≤ 64) (hl : l * 64 ≤ a ∧ a + n ≤ l * 64 + 64) (h : (decide (l ∉ linesOf 0x2000 n)) = true) {o : Nat} (ho : o < n) :
    (a + o) / 64 ∉ linesOf 0x2000 n := by
  have : (a + o) / 64 = l := by omega
  rw [this]; exact of_decide_eq_true h

theorem witness_ColoursAndCutsAreThoseOfTheRules : ∃ (s : State) (hb fb : List Byte) (mesh : Word),
    Settled s 0 ∧ (hb.length = 256 ∧ objNface hb = 1 ∧ objNcell hb = 2) ∧
    (∀ c ∈ [cutCmd, colourCmd], c.busy = true ∧ c.met = [] ∧ c.log = [] ∧ c.sheet = [] ∧ blkWord c.blk 1 = mesh ∧ TakesAt s 0 c.cred (blkWord c.blk 0) 8 0x1000 0) ∧
    HoldsAt s 0 demo.cred mesh hb (fun line => line ∈ linesOf 0x2000 8) ∧
    (TakesAt s 0 demo.cred (blkWord colourCmd.blk 4) 2 0x2000 0 ∧ fb.length = 16 ∧
      HoldsAt s 0 demo.cred (mesh + BitVec.ofNat 64 (objOff hb 2)) fb (fun line => line ∈ linesOf 0x2000 8)) ∧
    blkNat cutCmd.blk 5 = 1 ∧ blkNat cutCmd.blk 4 = 0 ∧ TakesAt s 0 demo.cred (blkWord cutCmd.blk 6) 8 0x2000 0 := by
  have away : ∀ p, 0x10000 ≤ p → p / 64 ∉ linesOf 0x2000 8 := fun p hp hm => by
    have : linesOf 0x2000 8 = [128] := by decide +kernel
    rw [this, List.mem_singleton] at hm
    omega
  refine ⟨meshed cutBlock, meshHead, meshFaceRec, 0x10000, settled_of ?_, ?_, fun c hc => ?_,
    holdsAt_of (fun o => 0x10000 + o) 0 1 ?_ fun o _ => away _ (by omega),
    ⟨takesAt_of 0 ?_, ?_, holdsAt_of (fun o => 0x10200 + o) 0 1 ?_ fun o _ => away _ (by omega)⟩, ?_, ?_, takesAt_of 0 ?_⟩
  case refine_3 => fin_cases hc <;> exact ⟨by decide +kernel, by decide +kernel, by decide +kernel, by decide +kernel, by decide +kernel, takesAt_of 0 (by decide +kernel)⟩
  all_goals decide +kernel

theorem witness_MeshesAreFreedAndQueried : ∃ (f g : FmtE) (s u v : State) (pa key frame : Nat) (hb : List Byte),
    (s.Started ∧ u.Started ∧ v.Started) ∧ meshNamed s s.tr.core s.cred (s.x f.xa) none = (none, s) ∧
    (meshNamed s s.tr.core s.cred (s.x g.xa) (some s.tr.tag) = (some 0, s) ∧ meshRead s 0 = false ∧ meshRead u 0 = true) ∧
    s.th.priv = false ∧ s.cur = u.cur ∧ v.th.stall = some (.mfree g (some 0)) ∧
    (v.modTh fun r => { r with stall := some (.mfree g none) }).th.stall = some (.mfree g none) ∧ (s.x f.xa).toNat % 8 = 0 ∧
    numberAt s pa 8 key < 2 ^ 63 ∧ (Finds s s (s.x f.xa) 8 .ld pa key frame ∧ physQuality s pa 8 = .clean) ∧ hb.length = 256 ∧
    HoldsAt s s.tr.core s.cred (s.x g.xa) hb (fun _ => False) := by
  refine ⟨cutField, ⟨5, 2, 0, 0, 0, 1⟩, meshed cutBlock, cutting, (meshed cutBlock).modTh fun r => { r with stall := some (.mfree ⟨5, 2, 0, 0, 0, 1⟩ (some 0)) },
    0x40, 0, 0, meshHead, ⟨started_of ?_, started_of ?_, started_of ?_⟩, ?_, ?_, ?_, ?_, ?_, ?_, ?_, ?_, ⟨finds_of ?_, ?_⟩, ?_,
    holdsAt_of (fun o => 0x10000 + o) 0 1 ?_ fun _ _ h => h⟩ <;> decide +kernel

/-- A completion word that reads BUSY, at MQUERY and TSTAT, at first and in their waits. -/
theorem witness_MeshesAreFreedAndQueried_busy : ∃ (f : FmtE) (s u v : State) (pa key frame : Nat), (∀ t ∈ [s, u, v], t.Started ∧ (t.x f.xa).toNat % 8 = 0 ∧
    Finds t t (t.x f.xa) 8 .ld pa key frame ∧ physQuality t pa 8 = .clean ∧ 2 ^ 63 ≤ numberAt t pa 8 key) ∧
    u.th.stall = some (.mquery f) ∧ v.th.stall = some (.tstat f) := by
  let s := (meshed cutBlock).withMem 0x40 [0, 0, 0, 0, 0, 0, 0, 0x80]
  refine ⟨cutField, s, s.modTh fun r => { r with stall := some (.mquery cutField) }, s.modTh fun r => { r with stall := some (.tstat cutField) },
    0x40, 0, 0, fun t ht => ?_, by decide +kernel⟩
  fin_cases ht <;> exact ⟨started_of (by decide +kernel), by decide +kernel, finds_of (by decide +kernel), by decide +kernel, by decide +kernel⟩

theorem witness_MeshElementsAreLoaded : ∃ (f : FmtM) (s s1 : State) (head dir fb : List Byte), s1 = s.modTh (fun r => { r with mesh := some 0 }) ∧ s.quiet ∧ f.scope.toNat ≠ 4 ∧
    s.vec.active f.m.toNat s.th.vl = [0] ∧ Settled s s.tr.core ∧ s.tr.chans = [] ∧ meshIdx f = false ∧
    meshNamed s s.tr.core s.cred (s.x f.xbase) (some s.tr.tag) = (some 0, s) ∧ head.length = 256 ∧
    HoldsAt s1 s.tr.core s.cred (s.x f.xbase + BitVec.ofNat 64 0) head (fun _ => False) ∧ dir.length = 4 * objNfolio head ∧
    HoldsAt s1 s.tr.core s.cred (s.x f.xbase + BitVec.ofNat 64 (objOff head 3)) dir (fun _ => False) ∧
    VectorReady s (vDecode s.vec.cfg s.cur.role 1 [vField (meshRing f) f.v 1] (if meshIdx f then [vField false f.xs 1] else []))
      (s.vlOk 32) [] (if meshRing f then [opnd (meshRing f) f.v] else []) ∧
    objOff head 2 % 16 = 0 ∧ ((s.x f.xs).toNat + 0 < objNface head ∧ fb.length = 16 ∧
      HoldsAt s1 s.tr.core s.cred (s.x f.xbase + BitVec.ofNat 64 (objOff head 2 + 16 * 0)) fb (fun _ => False)) ∧
    ((MeshView.mk (s.x f.xbase) 0 head dir).nbr s1 f 0 = (⟨[(0x10180, 16)], 128⟩, s1) ∧
      HoldsAt s1 s.tr.core s.cred 0x10180 (natBytes 16 0) (fun _ => False)) := by
  refine ⟨⟨24, 2, 0, 0, 0, 0, 0, 0, 0, 48, 0⟩, (meshed cutBlock).withV 1 [], ((meshed cutBlock).withV 1 []).modTh (fun r => { r with mesh := some 0 }), meshHead, natBytes 4 0, meshFaceRec, rfl, quiet_of ?_, ?_, ?_, settled_of ?_, ?_, ?_, ?_, ?_,
    holdsAt_of (fun o => 0x10000 + o) 0 1 ?_ fun _ _ h => h, ?_, holdsAt_of (fun o => 0x10240 + o) 0 1 ?_ fun _ _ h => h, vectorReady_of ?_, ?_,
    ⟨?_, ?_, holdsAt_of (fun o => 0x10200 + o) 0 1 ?_ fun _ _ h => h⟩, ?_,
    holdsAt_of (fun o => 0x10180 + o) 0 1 ?_ fun _ _ h => h⟩ <;> decide +kernel

/-- Queue 3 with a ring at 0x4000, at work for domain 0. -/
def ring : Queue := { Queue.init with base := 0x4000, en := true, state := 1, devsub := true, taken := true }

/-- A record of one word, its SHAPE (R324). -/
def shapeRec (n : Nat) : List Byte := natBytes 8 (2 + 2 * 2 ^ 16) ++ natBytes 8 n

def submitting (k : Queue) : State := { (paged.withX [0x40, 5]).withMem 0x40 (shapeRec 1) with queues := [(3, k)] }

def submitField : FmtE := ⟨5, 1, 2, 0, 3, 1⟩

theorem low_reached {s : State} {a : Nat} (h : a < 2 ^ 42) : Reached s a :=
  reached_of (by rw [portOf, Nat.div_eq_of_lt h]; rfl)

theorem witness_RecordsAreSubmittedAndSignalled_submit : ∃ (f : FmtE) (s u v : State) (hb bs : List Byte), (s.Started ∧ u.Started ∧ v.Started) ∧
    (s.x f.xa).toNat % 8 = 0 ∧ s.fab.replay = [] ∧ readRange s (s.x f.xa) 8 true = .ok (hb, []) s ∧ nbits (bytesNat hb) 16 8 = 2 ∧
    readRange s (s.x f.xa) 16 true = .ok (bs, []) s ∧ ((s.queue 3).devsub = true ∧ (s.queue 3).state = 1 ∧ s.tr.tag = (s.queue 3).dom) ∧
    (bytesNat (bs.take 8)).testBit 4 = false ∧ (bytesNat (bs.take 8)).testBit 5 = false ∧ nbits (bytesNat (bs.take 8)) 24 40 = 0 ∧
    (splitRec (fmaskBits (bytesNat (bs.take 8))) ((recWords bs).drop 1)).2 + 1 = 2 ∧ (s.queue 3).taken = true ∧
    ((s.queue 3).avail + bs.length < (s.queue 3).size ∧ bs.length < (s.queue 3).size ∧ bs ≠ [] ∧ shadowPort s = none) ∧
    (∀ o, o < (s.queue 3).size → Reached s ((s.queue 3).base.toNat + o) ∧ inSealed s ((s.queue 3).base.toNat + o) 1 = false) ∧ (u.queue 3).size ≤ (u.queue 3).avail + bs.length ∧
    v.th.stall = some (.tsubmit f bs) := by
  refine ⟨submitField, submitting ring, submitting { ring with head := 16, tail := 8 },
    (submitting ring).modTh fun r => { r with stall := some (.tsubmit submitField (shapeRec 1)) }, natBytes 8 (2 + 2 * 2 ^ 16), shapeRec 1,
    ⟨started_of ?_, started_of ?_, started_of ?_⟩, ?_, ?_, ?_, ?_, ?_, ?_, ?_, ?_, ?_, ?_, ?_, ?_, fun o ho => ⟨low_reached ?_, rfl⟩, ?_, ?_⟩
  all_goals first
    | decide +kernel
    | (have h : ((submitting ring).queue 3).size = 4096 ∧ ((submitting ring).queue 3).base.toNat = 0x4000 := by decide +kernel
       omega)

theorem witness_RecordsAreSubmittedAndSignalled_signal : ∃ (f : FmtE) (s : State) (pa key frame : Nat), s.Started ∧ s.fab.replay = [] ∧
    inSealed s pa 8 = false ∧ Reached s pa ∧ shadowPort s = none ∧ Finds s s (s.x f.xa) 8 .st pa key frame ∧
    Finds s s (s.x f.xa) 8 .rmw pa key frame ∧ physQuality s pa 8 = .clean ∧ s.th.priv = false ∧ s.tr.tag = (s.queue 3).dom ∧
    s.tr.tag ≠ (s.queue 4).dom := by
  refine ⟨submitField, { submitting ring with queues := [(3, ring), (4, { ring with dom := 9 })] }, 0x40, 0, 0, started_of ?_, ?_, ?_, reached_of ?_, ?_,
    finds_of ?_, finds_of ?_, ?_⟩ <;> decide +kernel

/-- Queue 0 with bytes in its ring. -/
def taking (k : Queue) (bs : List Byte) : State := { (paged.withMem 0x4000 bs) with queues := [(0, k)] }

theorem witness_RecordsAreTaken : ∃ s u v w : State,
    (∀ x ∈ [s, u, v, w], (x.queue x.occ.n).en = true ∧ (x.queue x.occ.n).state = 1 ∧ (x.queue x.occ.n).ready = none) ∧
    (u.queue u.occ.n).tail % 8 ≠ 0 ∧ ((v.queue v.occ.n).tail % 8 = 0 ∧ (v.queue v.occ.n).avail < 8) ∧
    (ringClean w (w.queue w.occ.n) (w.queue w.occ.n).head 8 = false ∧ 8 ≤ (w.queue w.occ.n).avail) ∧
    (let k := s.queue s.occ.n
     let h := bytesNat (ringBytes s k k.head 8)
     k.tail % 8 = 0 ∧ 8 ≤ k.avail ∧ ringClean s k k.head 8 = true ∧ nbits h 24 40 = 0 ∧ nbits h 16 8 = 2 ∧ 16 ≤ k.avail ∧
     ringClean s k k.head 16 = true ∧ (splitRec (fmaskBits h) ((recWords (ringBytes s k k.head 16)).drop 1)).2 + 1 = 2 ∧ k.taken = true ∧
     badRec k.privok (splitRec (fmaskBits h) ((recWords (ringBytes s k k.head 16)).drop 1)).1
       (effRec k.inh (splitRec (fmaskBits h) ((recWords (ringBytes s k k.head 16)).drop 1)).1) = false ∧
     (effRec k.inh (splitRec (fmaskBits h) ((recWords (ringBytes s k k.head 16)).drop 1)).1).gangs = 1 ∧
     (effRec k.inh (splitRec (fmaskBits h) ((recWords (ringBytes s k k.head 16)).drop 1)).1).ncores *
       (effRec k.inh (splitRec (fmaskBits h) ((recWords (ringBytes s k k.head 16)).drop 1)).1).slabs ≤ slabPool s) := by
  refine ⟨taking { ring with tail := 16 } (shapeRec (1 + 2 ^ 17)), taking { ring with tail := 12 } [], taking ring [],
    { taking { ring with tail := 16 } [] with mem := { Mem.none with pois := [0x4000 / 64] } }, ?_⟩
  decide +kernel

/-- A record of its SHAPE and a completion word. -/
def wordRec (n : Nat) : List Byte := natBytes 8 (66 + 3 * 2 ^ 16) ++ natBytes 8 n ++ natBytes 8 0x100

/-- Records that break a limit, of no triads, and of more slabs than there are, each with a completion word. -/
theorem witness_RecordsAreTaken_rejected : ∀ n ∈ [1, 1 + 2 ^ 17 * 112 + 2 ^ 24 * 2], ∃ (s : State) (h : Nat) (fs : Tbl (List Word)) (r : Rec),
    let k := s.queue s.occ.n
    k.en = true ∧ k.state = 1 ∧ k.ready = none ∧ k.tail % 8 = 0 ∧ 24 ≤ k.avail ∧ ringClean s k k.head 24 = true ∧
    h = bytesNat (ringBytes s k k.head 8) ∧ nbits h 24 40 = 0 ∧ nbits h 16 8 = 3 ∧
    (fs, 2) = splitRec (fmaskBits h) ((recWords (ringBytes s k k.head 24)).drop 1) ∧ k.taken = true ∧ r = effRec k.inh fs ∧
    (badRec k.privok fs r = true ∨ (r.gangs ≠ 0 ∧ slabPool s < r.ncores * r.slabs)) ∧ r.cw = 0x100 ∧ s.TakesWord r ∧ Settled s 0 := by
  intro n hn
  refine ⟨{ taking { ring with tail := 24 } (wordRec n) with io := { demo.io with stage := 2 } }, bytesNat ((wordRec n).take 8),
    (splitRec [1, 6] ((recWords (wordRec n)).drop 1)).1, effRec ring.inh (splitRec [1, 6] ((recWords (wordRec n)).drop 1)).1,
    ?_, ?_, ?_, ?_, ?_, ?_, ?_, ?_, ?_, ?_, ?_, ?_, ?_, ?_, .inr ⟨?_, ?_, 0x100, 0, takesAt_of 0 ?_⟩, settled_of ?_⟩
  all_goals fin_cases hn <;> decide +kernel

/-- Queue 0 with a checked record of some gangs. -/
def admitting (n : Nat) (k : Queue) : State :=
  { paged with queues := [(0, { k with ready := some ({ Rec.init with shape := BitVec.ofNat 64 (n + 2 ^ 17), cw := 0x100 }, 16), tail := 16 })] }

theorem witness_RecordsCompleteOrAreAdmitted : ∃ (s u : State) (q : Nat) (r p : Rec) (len : Nat), q < 128 ∧
    ((s.queue q).ready = some (r, len) ∧ (s.queue q).en = true ∧ (s.queue q).state = 1 ∧ (s.queue q).serial = true ∧
      (s.queue q).last = some 5 ∧ tfind 5 s.entries = none) ∧ Settled s 0 ∧ (r.cw ≠ 0 ∧ s.TakesWord r) ∧ q = s.occ.n ∧ r.gangs = 0 ∧
    ((u.queue q).ready = some (p, len) ∧ (u.queue q).en = true ∧ (u.queue q).state = 1 ∧ (u.queue q).serial = true ∧
      (u.queue q).last = some 5 ∧ tfind 5 u.entries = none) ∧ Settled u 0 ∧ (p.cw ≠ 0 ∧ u.TakesWord p) ∧ p.gangs ≠ 0 ∧ u.entries = [] ∧
    ((List.range 128).all fun j => j == q || (readyCost u j).isNone) = true ∧ u.io.admitPaused = false ∧ serving u = true ∧
    tfind u.serial u.entries = none ∧ ((u.queue q).tail + (u.queue q).size - ((u.queue q).head + len) % (u.queue q).size) % (u.queue q).size < 8 ∧
    (u.queue q).tail % 8 = 0 ∧ p.gangs * p.k ≤ min ((u.queue q).deficit + max 1 (u.queue q).quant) (2 ^ 32 - 1) := by
  refine ⟨admitting 0 { ring with serial := true, last := some 5 }, admitting 1 { ring with serial := true, last := some 5 }, 0, { Rec.init with shape := BitVec.ofNat 64 (0 + 2 ^ 17), cw := 0x100 },
    { Rec.init with shape := BitVec.ofNat 64 (1 + 2 ^ 17), cw := 0x100 }, 16, ?_, ?_, settled_of ?_,
    ⟨?_, .inr ⟨?_, ?_, 0x100, 0, takesAt_of 0 ?_⟩⟩, ?_, ?_, ?_, settled_of ?_, ⟨?_, .inr ⟨?_, ?_, 0x100, 0, takesAt_of 0 ?_⟩⟩, ?_⟩ <;> decide +kernel

/-- An entry of one gang of one triad on four slabs, on a device where only quad 0 of die 0 has its first units free. -/
def wideEntry : Entry :=
  { rcd := { Rec.init with shape := BitVec.ofNat 64 (1 + 2 ^ 17 + 2 * 2 ^ 24), sheet := 64 }, queue := 0, cls := 0, order := 0, placed := 0,
    retired := 0, killedGangs := 0, dropped := false, fills := [] }

def placing : State :=
  { demo with
    io := { demo.io with stage := 2 }, modes := [(0, 4)], gangs := [], serial := 9, entries := [(2, wideEntry)],
    units := (List.range 24).map fun j => (64 * (j + 4), ⟨some 1, 0⟩) }

theorem witness_GangsArePlacedAndTriadsStart_place : ∃ (s : State) (key : Nat) (e : Entry) (cs : List Cand), senior s = some (key, e) ∧
    resumable s = false ∧ ctxnsTaken s + e.rcd.k ≤ 4096 ∧ serving s = true ∧ findPlace s e.rcd = some cs ∧ e.rcd.streams = [] := by
  refine ⟨placing, 2, wideEntry, [⟨0, [0, 1, 2, 3], none⟩], ?_⟩
  decide +kernel

theorem witness_GangsArePlacedAndTriadsStart_rebind : ∃ (s : State) (key : Nat) (e : Entry), senior s = some (key, e) ∧
    (s.occ.n < 4 ∧ s.occ.k < 7 ∧ s.occ.j ≤ 4) ∧ quadIdle s s.occ.n s.occ.k = true ∧
    (slabPlaces s.occ.j 0).length = e.rcd.slabs := by
  refine ⟨{ placing with occ := { Occasion.none with n := 1, k := 6, j := 4 } }, 2, wideEntry, ?_⟩
  decide +kernel

/-- A gang of one triad that is placed and not started. -/
def placedGang : Gang :=
  { entry := 2, gangId := 0, tag := 0, cores := [1], slots := [(1, 0)], soff := 0, slen := 1, k := 1, ctxns := [], retired := 0, started := false,
    preempted := false }

theorem witness_GangsArePlacedAndTriadsStart_start : ∃ (s : State) (v : Gang) (e : Entry), tfind s.occ.n s.gangs = some v ∧
    tfind v.entry s.entries = some e ∧ v.started = false ∧ s.triads.length + v.k ≤ 4096 := by
  refine ⟨{ placing with gangs := [(5, placedGang)], occ := { Occasion.none with n := 5 } }, placedGang, wideEntry, ?_⟩
  decide +kernel

/-- Triad 0 in gang 0 of queue 0, of `k` triads. -/
def oneGang (k : Nat) : State := { demo with
  gangs := [(0, { placedGang with slots := [(0, 0)], cores := [0], ctxns := [0], started := true, k := k })], entries := [(2, wideEntry)], occ := Occasion.none }

def endedRole (r : RoleState) : RoleState := { r with ended := true }

def retiring (k : Nat) : State := (oneGang k).modTr fun t =>
  { t with loader := endedRole t.loader, computer := endedRole t.computer, storer := endedRole t.storer }

theorem witness_TriadsRetireAndTheWatchdogKills_retire : ∃ (s u : State) (tr : Triad) (v w : Gang), (tfind s.occ.n s.triads = some tr ∧
    tfind u.occ.n u.triads = some tr) ∧ (mayRetire s s.occ.n = true ∧ mayRetire u u.occ.n = true) ∧
    (tfind tr.gang s.gangs = some v ∧ v.retired + 1 = v.k) ∧ tfind tr.gang u.gangs = some w ∧ w.retired + 1 ≠ w.k ∧
    (∀ x ∈ v.slots, x ≠ (tr.core, tr.slot) → x.1 ≠ tr.core) ∧
    (∃ e, tfind v.entry s.entries = some e ∧ e.retired + 1 + e.killedGangs = e.rcd.gangs ∧ s.Unwritten v.entry ∧ s.TakesWord e.rcd) ∧
    Settled s 0 := by
  refine ⟨retiring 1, retiring 2, (retiring 1).triad 0, _, _, ⟨?_, ?_⟩, ⟨?_, ?_⟩, ⟨rfl, ?_⟩, rfl, ?_, ?_, ⟨wideEntry, rfl, ?_, ⟨?_, ?_⟩, .inl rfl⟩,
    settled_of ?_⟩ <;> decide +kernel

theorem witness_TriadsRetireAndTheWatchdogKills_watchdog : ∃ s u v : State,
    (∀ x ∈ [s, u, v], (x.queue x.occ.n).wdEn = true ∧ queueResident x x.occ.n = true) ∧
    (1000 * (s.queue s.occ.n).wdLimit ≤ (s.queue s.occ.n).wdNs ∧ (s.queue s.occ.n).wdForced = none ∧ (s.queue s.occ.n).wdStage = 1) ∧
    (1000 * (u.queue u.occ.n).wdLimit ≤ (u.queue u.occ.n).wdNs ∧ (u.queue u.occ.n).wdForced = none ∧ (u.queue u.occ.n).wdStage = 0 ∧
      ∃ p ∈ u.triads, p.2.queue = u.occ.n ∧ p.2.parked = false) ∧
    (v.queue v.occ.n).wdForced = some 1000000 ∧ 1000 * (v.queue v.occ.n).wdGrace ≤ 1000000 ∧ ∃ p ∈ v.triads, p.2.queue = v.occ.n ∧ p.2.wdog = true := by
  refine ⟨{ oneGang 1 with queues := [(0, { ring with wdNs := 10 ^ 8, wdStage := 1 })] }, { oneGang 1 with queues := [(0, { ring with wdNs := 10 ^ 8 })] },
    { ((oneGang 1).modTr fun t => { t with wdog := true }) with queues := [(0, { ring with wdForced := some 1000000 })] }, ?_⟩
  decide +kernel

/-- The invocation that it kills: its only gang is placed, and its word is 0. -/
theorem witness_TriadsRetireAndTheWatchdogKills_kills : ∃ (s u : State) (e : Entry), e.queue = s.occ.n ∧ tfind 2 s.entries = some e ∧ s.entries = [(2, e)] ∧
    (s.gangs.map (·.1)).Nodup ∧ e.placed = e.retired + e.killedGangs + s.gangs.countP (fun g => g.2.entry == 2) ∧ s.Unwritten 2 ∧
    s.topos = [] ∧ s.TakesWord e.rcd ∧ Settled s 0 ∧ ((s.queue s.occ.n).wdStage = 1 ∧ 1000 * (s.queue s.occ.n).wdLimit ≤ (s.queue s.occ.n).wdNs ∧
      (s.queue s.occ.n).wdEn = true ∧ queueResident s s.occ.n = true) ∧
    (u.queue u.occ.n).wdStage = 0 ∧ (u.queue u.occ.n).wdEn = true ∧ queueResident u u.occ.n = true ∧
    ∀ p ∈ u.triads, p.2.queue = u.occ.n → p.2.parked = true ∧ p.2.wdog = false := by
  refine ⟨{ oneGang 1 with queues := [(0, { ring with wdNs := 10 ^ 8, wdStage := 1 })], entries := [(2, { wideEntry with placed := 1 })] },
    { (oneGang 1).modTr (fun t => { t with parked := true }) with queues := [(0, { ring with wdNs := 10 ^ 8 })] },
    { wideEntry with placed := 1 }, ?_, ?_, ?_, ?_, ?_, ⟨?_, ?_⟩, ?_, .inl ?_, settled_of ?_, ?_⟩ <;> decide +kernel

/-- Triad 0 with a handler and a context area at 0x20000. -/
def trappable : State :=
  (paged.modCore 0 fun k => { k with trapvec := 0x8000000000000000 }).modTr fun t => { t with traprec := 0x8000000000020000 }

/-- Its computer in the handler. -/
def handling : State := (trappable.withPriv.modTh fun r => { r with inHandler := true }).modTr fun t => { t with handling := some .computer }

/-- The handler's role keeps the engine command whose fault its record reports (R284, R348). -/
theorem test_engine_fault_reported :
    (trappable.raise ⟨cPGFAULT, 0, 0, 0, true, 0, 0, [], 0, false, false, [], 0, [], some 3⟩).tr.computer.reported = some 3 := by
  decide +kernel

theorem witness_TrapsEnterTheHandler : ∃ s u v w : State, (s.Started ∧ u.Started ∧ v.Started ∧ w.Started) ∧ Stoppable s s.cur.ctxn ∧ TrapFree s s.cur.ctxn ∧
    Stoppable s.advance s.advance.cur.ctxn ∧ TrapFree s.advance s.advance.cur.ctxn ∧
    (s.th.priv = false ∧ s.th.inHandler = false) ∧ (TrapFree u u.cur.ctxn ∧ (u.core u.tr.core).trapvec.getLsbD 63 = false) ∧
    (v.th.inHandler = true ∧ v.tr.trapper = none) ∧ (w.th.priv = true ∧ w.th.inHandler = false) ∧
    ∃ (f : FmtJ) (g h : FmtM), (s.th.pc + f.disp40.signExtend 64 * 8#64).toNat % 128 ≠ 0 ∧ (s.x f.xa + f.disp40.signExtend 64 * 8#64).toNat % 128 ≠ 0 ∧
      g.scope.toNat ≠ 4 ∧ (s.eaM g).toNat % 2 ^ segWm g ≠ 0 ∧ (s.eaM h).toNat % 2 ^ segWm h = 0 ∧
      locate s s.tr.core s.cred (s.eaM h) .ld true = (.fault 1, s) := by
  refine ⟨trappable.withX [0x200000], demo, handling, trappable.withPriv, ⟨started_of ?_, started_of ?_, started_of ?_, started_of ?_⟩, stoppable_of ?_,
    trapFree_of ?_, stoppable_of ?_, trapFree_of ?_, ?_, ⟨trapFree_of ?_, ?_⟩, ?_, ?_, ⟨2, 0, 0, 1⟩, ⟨3, 1, 0, 0, 0, 0, 0, 0, 0, 24, 1⟩,
    ⟨3, 1, 0, 0, 0, 0, 0, 0, 0, 24, 0⟩, ?_⟩ <;> decide +kernel

theorem witness_PendingTrapsReturnsAndParking_entry : ∃ (s u v : State) (h : Role) (p q : TrapPost),
    (Stoppable s s.cur.ctxn ∧ s.tr.trapper = some h ∧ (s.tr.role h).trap = some p) ∧
    (Stoppable u u.cur.ctxn ∧ TrapFree u u.cur.ctxn ∧ u.tr.handling = none ∧ u.tr.parked = false ∧ u.tr.wdog = true) ∧
    Stoppable v v.cur.ctxn ∧ TrapFree v v.cur.ctxn ∧ v.tr.handling = none ∧ v.tr.parked = false ∧ v.tr.wdog = false ∧
    v.th.async = [] ++ q :: [] := by
  refine ⟨(trappable.modTh fun r => { r with trap := some { cls := 3 } }).modTr fun t => { t with trapper := some .computer },
    trappable.modTr fun t => { t with wdog := true }, trappable.modTh fun r => { r with async := [{ cls := 12 }] }, .computer, { cls := 3 }, { cls := 12 },
    ⟨stoppable_of ?_, ?_⟩, ⟨stoppable_of ?_, trapFree_of ?_, ?_⟩, stoppable_of ?_, trapFree_of ?_, ?_⟩ <;> decide +kernel

/-- A gang whose computer waits for a phase that nobody can end. -/
def lockedTriad : State :=
  (trappable.modCore 0 fun k => { k with cells := [(0, ⟨0, 7, 2, 1, 5⟩)] }).modTr fun t =>
    { t with
      loader := endedRole t.loader, storer := endedRole t.storer, computer := { t.computer with stall := some (.barrier 0 5 5 false) } }

theorem witness_PendingTrapsReturnsAndParking_deadlock : ∃ (s : State) (k : Nat) (n : Triad) (cell : Cell), Stoppable s k ∧ TrapFree s k ∧
    tfind k s.triads = some n ∧ n.core = s.occ.n ∧ n.parked = false ∧ s.triads = [(k, n)] ∧ n.chans = [] ∧
    (n.loader.ended = true ∧ n.loader.stall = none) ∧ (n.storer.ended = true ∧ n.storer.stall = none) ∧
    n.computer.stall = some (.barrier 0 5 5 false) ∧ tfind 0 (s.core n.core).cells = some cell ∧ cell.passed 5 = false ∧ n.computer.ended = false := by
  refine ⟨lockedTriad, 0, lockedTriad.triad 0, ⟨0, 7, 2, 1, 5⟩, stoppable_of ?_, trapFree_of ?_, ?_⟩ <;> decide +kernel

/-- The context area of triad c. -/
def ctxArea (s : State) (c : Nat) : List Byte := physRead s (areaOf (s.triad c).traprec) 4096 0

/-- Two returns: from an area of zeros and from one with a reserved bit set; a return that reports channel 1's fault. -/
def returning (at_ : Nat) (b : Byte) : State := handling.withMem (0x20000 + at_) [b]

theorem witness_PendingTrapsReturnsAndParking_return : ∃ s u v : State, (s.Started ∧ u.Started ∧ v.Started) ∧
    (∀ x ∈ [s, u, v], x.th.priv = true ∧ x.th.inHandler = true ∧ (x.queue x.tr.queue).wdForced = none) ∧ badHeader (ctxArea u u.cur.ctxn) = true ∧
    (∀ x ∈ [s, v], badHeader (ctxArea x x.cur.ctxn) = false ∧ ((ctxArea x x.cur.ctxn).drop 0xD00).all (· == 0) = true ∧
      (roles.all fun q => !badRoleBlock (8 * x.bound (x.triad x.cur.ctxn).core) (((ctxArea x x.cur.ctxn).drop (0x100 + 0x400 * q.num)).take 1024)) = true) ∧
    (roles.all fun q => nbits (wordIn (ctxArea s s.cur.ctxn) (0x318 + 0x400 * q.num)).toNat 62 2 != 3) = true ∧
    nbits (wordIn (ctxArea v v.cur.ctxn) 0x318).toNat 62 2 = 3 ∧ nbits (wordIn (ctxArea v v.cur.ctxn) 0x318).toNat 44 8 = 1 ∧
    (∃ ch cmd, tfind 1 v.tr.chans = some ch ∧ ch.cmd = some cmd ∧ cmd.faulted = true ∧ v.tr.computer.reported = some cmd.order) ∧
    (∀ q, (s.tr.role q).reported = none) ∧ ∀ p, p ≠ .computer → (v.tr.role p).reported = none := by
  refine ⟨returning 0 0, returning 7 0xFF, (((returning 0x31D 0x10).withMem 0x2031F [0xC0]).withCopy { streaming 0x200000 0x200 2 with faulted := true }).modTh fun r => { r with reported := some 0 },
    ⟨started_of ?_, started_of ?_, started_of ?_⟩, ?_, ?_, ?_, ?_, ?_, ?_, ⟨⟨0, 0, false, 0, 0, some { streaming 0x200000 0x200 2 with faulted := true }⟩, { streaming 0x200000 0x200 2 with faulted := true }, ?_, rfl, rfl, rfl⟩,
    fun q => ?_, fun p hp => ?_⟩
  case refine_11 => cases q <;> rfl
  case refine_12 => cases p <;> first | rfl | exact absurd rfl hp
  all_goals decide +kernel

theorem witness_PendingTrapsReturnsAndParking_resume : ∃ (s : State) (v : Gang), tfind s.occ.n s.gangs = some v ∧ v.preempted = true ∧
    s.gangs = [(s.occ.n, v)] ∧ v.ctxns = [0] ∧ ((s.triad 0).gang = s.occ.n ∧ (s.triad 0).parked = true) ∧
    badHeader (ctxArea s 0) = false ∧ ((ctxArea s 0).drop 0xD00).all (· == 0) = true ∧
    (roles.all fun q => !badRoleBlock (8 * s.bound (s.triad 0).core) (((ctxArea s 0).drop (0x100 + 0x400 * q.num)).take 1024)) = true ∧
    (roles.all fun q => ((s.triad 0).role q).reported.isNone) = true := by
  refine ⟨{ (trappable.modTr fun t => { t with parked := true }) with
    gangs := [(0, { placedGang with ctxns := [0], slots := [(0, 0)], started := true, preempted := true })] }, _, rfl, ?_⟩
  decide +kernel

/-! Places of 4096 bytes and more. -/

/-- Core 0 has one page, of 2 MiB at 0, and memory is clean and plain. -/
structure Wide (s : State) : Prop where
  tlb : (s.core 0).tlb = [⟨0, 2, 0, 15⟩]
  keyed : s.mem.keyed = []
  pois : s.mem.pois = []
  ue : s.mem.ue = []

theorem wide_at {s : State} (w : Wide s) {cr : Cred} (hcr : cr.ptbase = 0 ∧ cr.tag = 0) {a : Word} (ha : a.toNat < 2 ^ 21) (acc : Acc)
    (hacc : acc ≠ .fetch) : locate s 0 cr a acc true = (.here a.toNat 0 0, s) := by
  have hc : classify a = .virt a.toNat := by rw [classify, if_pos (by omega)]
  have hp : pageShift 2 = 21 := by decide
  have hl : lookup s 0 cr a.toNat = (.leaf 2 15, s) := by
    have hk : asidOf cr.ptbase = 0 := by rw [hcr.1]; decide
    have hz : a.toNat / 2 ^ 21 = 0 := by omega
    have he : entL (15#64).toNat = true := by decide
    rw [lookup, cachedLeaf, w.tlb, hk, List.find?_cons_of_pos]
    · rfl
    · simp only [hp, hz]; decide
  have hf : entDom 15 = cr.tag ∧ entMig 15 = 0 := ⟨by rw [hcr.2]; rfl, rfl⟩
  have hw : entP 15 = false ∧ entW 15 = true := by decide
  have hk : entKey 15 = 0 ∧ nbits 15 16 36 = 0 := by decide
  rw [locate, hc]
  simp only [translate, hl, hf.2, hf.1, hw.1, hw.2, hp, hk.1, hk.2]
  have hs : slotEmpty s 0 = false := rfl
  have hm : a.toNat % 2097152 = a.toNat := Nat.mod_eq_of_lt (by omega)
  have hd : ¬ a.toNat / 2251799813685248 = 1 := by omega
  cases acc <;> simp at hacc <;> simp [hs, hm, hp, hd]

theorem wide_port {a : Nat} (ha : a < 2 ^ 21) : portOf a = none := by
  rw [portOf, Nat.div_eq_of_lt (by omega)]; rfl

theorem toNat_offset {a : Word} {o n : Nat} (ho : o < n) (ha : a.toNat + n ≤ 2 ^ 21) : (a + BitVec.ofNat 64 o).toNat = a.toNat + o := by
  rw [BitVec.toNat_add, BitVec.toNat_ofNat]; omega

theorem wide_virt {a : Word} {n : Nat} (ha : a.toNat + n ≤ 2 ^ 21) : ∀ o, o < n → isVirt (a + BitVec.ofNat 64 o) = true := by
  intro o ho
  rw [isVirt, classify, toNat_offset ho ha, if_pos (by omega)]

theorem wide_holds {s : State} (w : Wide s) {cr : Cred} (hcr : cr.ptbase = 0 ∧ cr.tag = 0) {a : Word} {bs : List Byte} {apart : Nat → Prop}
    (ha : a.toNat + bs.length ≤ 2 ^ 21) (hb : ∀ o, o < bs.length → memByte s.mem.cells (a.toNat + o) = bs.getD o 0)
    (hn : ∀ o, o < bs.length → ¬ apart ((a.toNat + o) / 64)) : HoldsAt s 0 cr a bs apart := by
  intro o ho
  have h := toNat_offset ho ha
  have hi : isolated s (a.toNat + o) = false := by rw [isolated, wide_port (by omega)]
  refine ⟨a.toNat + o, 0, 0, h ▸ wide_at w hcr (by omega) .ld (by decide), hi, by simp [physQuality, w.pois, w.ue, smem, hi], ?_, hn o ho⟩
  rw [physRead_one, keyId, if_pos rfl, ite_self, plainByte_keyed _ _ _ (by simp [w.keyed, tget, tfind]), hb o ho]

theorem wide_takes {s : State} (w : Wide s) {cr : Cred} (hcr : cr.ptbase = 0 ∧ cr.tag = 0) {a : Word} {n pa : Nat} (hp : pa = a.toNat)
    (ha : a.toNat + n ≤ 2 ^ 21) (hs : inSealed s pa n = false) : TakesAt s 0 cr a n pa 0 := by
  subst hp
  refine ⟨hs, fun o ho => ?_⟩
  have h := toNat_offset ho ha
  exact ⟨0, h ▸ wide_at w hcr (by omega) .st (by decide), by rw [isolated, wide_port (by omega)]⟩

/-- One page of 2 MiB at 0, what x1 names, 0x100000, and one byte there. -/
def wide (b : Byte) : State := { ((demo.withPriv.withX [0x100000]).modCore 0 fun k => { k with tlb := [⟨0, 2, 0, 15⟩] }) with mem := { Mem.none with cells := [(0x100000, b)] } }

theorem wide_wide {b : Byte} : Wide (wide b) := ⟨rfl, rfl, rfl, rfl⟩

theorem wide_byte {b : Byte} {o : Nat} : memByte (wide b).mem.cells (0x100000 + o) = if o = 0 then b else 0 := by
  have hc : (wide b).mem.cells = [(0x100000, b)] := rfl
  by_cases h : o = 0
  · subst h; simp [hc, memByte, tget, tfind]
  · simp [hc, memByte, tget, tfind, h]

theorem start_fits : VecState.start.fits 1 where
  slabs := .inl rfl
  regs := fun k _ => by
    have : VecState.start.reg k = 0 := by simp [VecState.start, VecState.reg, tget, tfind]
    rw [this]; exact Nat.two_pow_pos _
  masks := fun k h _ => by
    have : VecState.start.mask k = 0 := by simp [VecState.start, VecState.mask, tget, tfind]; omega
    rw [this]; exact Nat.two_pow_pos _
  rings := fun q _ => by simp [VecState.start, VecState.ring, tget, tfind]
  pois := by simp [VecState.start]
  vps := fun p h => by simp [VecState.start] at h

/-- Bytes of a save area: the first and zeros. -/
def saved (n : Nat) (b : Byte) : List Byte := b :: List.replicate (n - 1) 0

theorem saved_getD {n : Nat} {b : Byte} {o : Nat} : (saved n b).getD o 0 = if o = 0 then b else 0 := by
  cases o <;> simp [saved, List.getElem?_replicate]
  split <;> rfl

theorem saved_length {n : Nat} {b : Byte} (hn : 0 < n) : (saved n b).length = n := by
  rw [saved, List.length_cons, List.length_replicate]; omega

theorem witness_ContextsAndVectorStateAreSavedAndRestored : ∃ (f g : FmtE) (s u v : State) (bs cs ds : List Byte),
    (∀ x ∈ [s, u], x.Started ∧ x.th.priv = true ∧ x.tr.chans = [] ∧ (x.x f.xa).toNat % 4096 = 0 ∧ Settled x x.tr.core ∧ replayUsed x ≤ 262144) ∧
    (TakesAt s s.tr.core s.cred (s.x f.xa) 4096 0x100000 0 ∧ physQuality s (areaOf s.tr.traprec) 4096 = .clean ∧ areaOf s.tr.traprec < 2 ^ 39 ∧
      inSealed s (areaOf s.tr.traprec) 4096 = false) ∧ (∀ x ∈ [s, u], ∀ o, o < 0x78000 → isVirt (x.x f.xa + BitVec.ofNat 64 o) = true) ∧
    (vecUnderWay s 0 = false ∧ ∃ y : State, y = s.modTh (fun r => { r with stall := some (.vfetch ⟨0, 0, 0, 0⟩) }) ∧ vecUnderWay y 0 = true) ∧
    (bs.length = 4096 ∧ HoldsAt s s.tr.core s.cred (s.x f.xa) bs (fun _ => False)) ∧
    ((s.slot s.tr.slotKey).owner = some 0 ∧ s.vec.fits (s.bound s.tr.core) ∧
      TakesAt s s.tr.core s.cred (s.x f.xa) (0x8000 + 0x70000 * s.bound s.tr.core) 0x100000 0) ∧
    (v.Started ∧ (v.slot v.tr.slotKey).owner = none) ∧ (f.fn = 1#24 ∧ g.fn ≠ 1#24 ∧ g.xa = f.xa) ∧
    (cs.length = 0x8000 + 0x70000 * s.bound s.tr.core ∧ HoldsAt s s.tr.core s.cred (s.x f.xa) cs (fun _ => False) ∧ badSave 1 cs = false) ∧
    (ds.length = 0x8000 + 0x70000 * u.bound u.tr.core ∧ HoldsAt u u.tr.core u.cred (u.x f.xa) ds (fun _ => False) ∧ badSave 1 ds = true) ∧
    s.bound s.tr.core = 1 ∧ u.bound u.tr.core = 1 := by
  have hb : (wide 1).bound (wide 1).tr.core = 1 ∧ (wide 2).bound (wide 2).tr.core = 1 ∧ (wide 1).vec = VecState.start := by decide +kernel
  have l1 : (saved 4096 1).length = 4096 := saved_length (by omega)
  have l2 : ∀ b, (saved 0x78000 b).length = 0x78000 := fun b => saved_length (by omega)
  refine ⟨⟨5, 1, 0, 0, 0, 1⟩, ⟨5, 1, 0, 0, 0, 0⟩, wide 1, wide 2, (wide 1).modSlot 0 fun k => { k with owner := none }, saved 4096 1, saved 0x78000 1,
    saved 0x78000 2, fun x hx => ?_, ⟨wide_takes wide_wide ⟨rfl, rfl⟩ rfl (by decide) rfl, by decide +kernel, by decide +kernel, by decide +kernel⟩, fun x hx => ?_,
    ⟨by decide +kernel, _, rfl, by decide +kernel⟩, ⟨l1, wide_holds wide_wide ⟨rfl, rfl⟩ (by rw [l1]; decide) (fun _ _ => wide_byte.trans saved_getD.symm) fun _ _ h => h⟩,
    ⟨by decide +kernel, by rw [hb.1, hb.2.2]; exact start_fits, wide_takes wide_wide ⟨rfl, rfl⟩ rfl (by rw [hb.1]; decide) rfl⟩,
    ⟨started_of (by decide +kernel), by decide +kernel⟩, by decide +kernel,
    ⟨by rw [l2, hb.1], wide_holds wide_wide ⟨rfl, rfl⟩ (by rw [l2]; decide) (fun _ _ => wide_byte.trans saved_getD.symm) fun _ _ h => h, by decide +kernel⟩,
    ⟨by rw [l2, hb.2.1], wide_holds wide_wide ⟨rfl, rfl⟩ (by rw [l2]; decide) (fun _ _ => wide_byte.trans saved_getD.symm) fun _ _ h => h, by decide +kernel⟩, by decide +kernel, by decide +kernel⟩
  · fin_cases hx <;>
      exact ⟨started_of (by decide +kernel), by decide +kernel, by decide +kernel, by decide +kernel, settled_of (by decide +kernel), by decide +kernel⟩
  · fin_cases hx <;> exact wide_virt (by decide)

/-- A triad with a handler that does not own its slot; and a role of it that goes on inside a wait. -/
def unowned : State := trappable.modSlot 0 fun k => { k with owner := none }

def unownedWait : State := unowned.modTh fun r => { r with resume := some ⟨true, false, [], 0, [], 0, false⟩ }

theorem witness_ConditionsTrap_vswitch : ∃ (f g : FmtM) (s u : State) (m : Resume), (∀ x ∈ [s, u], x.Started ∧ Stoppable x x.cur.ctxn ∧
      TrapFree x x.cur.ctxn ∧ x.vpNow = none ∧ x.ownsVec = false) ∧ f.scope.toNat ≠ 4 ∧ vDecode s.vec.cfg s.cur.role 1 [vField false f.v 1] [] = true ∧
    vDecode s.vec.cfg s.cur.role 1 [] [vField false g.v 1] = true ∧ u.th.resume = some m ∧ m.cont = true ∧ u.cur.role = .computer := by
  refine ⟨⟨8, 0, 0, 0, 0, 0, 0, 0, 0, 24, 0⟩, ⟨8, 0, 0, 0, 0, 0, 0, 0, 0, 24, 0⟩, unowned, unownedWait, ⟨true, false, [], 0, [], 0, false⟩, fun x hx => ?_, ?_⟩
  · fin_cases hx <;> exact ⟨started_of (by decide +kernel), stoppable_of (by decide +kernel), trapFree_of (by decide +kernel), by decide +kernel,
      by decide +kernel⟩
  · decide +kernel

/-- A line of local memory that is poisoned, and one that is not correctable. -/
def markedLines : State := { (trappable.withX [0x40, 0x80]) with mem := { trappable.mem with pois := [1], ue := [2] } }

theorem witness_ConditionsTrap_lines : ∃ (f g : FmtM) (h i : FmtA) (j k : FmtB) (s : State), s.Started ∧ Stoppable s s.cur.ctxn ∧ TrapFree s s.cur.ctxn ∧
    (f.scope.toNat ≠ 4 ∧ g.scope.toNat ≠ 4 ∧ amoScope h ≠ 4 ∧ amoScope i ≠ 4) ∧
    (Finds s s (s.eaM f) (2 ^ segWm f) .ld 0x40 0 0 ∧ physQuality s 0x40 (2 ^ segWm f) = .poisoned) ∧
    (Finds s s (s.eaM g) (2 ^ segWm g) .ld 0x80 0 0 ∧ physQuality s 0x80 (2 ^ segWm g) = .uncorrectable) ∧
    (Finds s s (s.x h.xa + h.imm16.signExtend 64) (tWidth h.t / 8) .rmw 0x40 0 0 ∧ inSealed s 0x40 (tWidth h.t / 8) = false ∧
      physQuality s 0x40 (tWidth h.t / 8) = .poisoned) ∧
    (Finds s s (s.x i.xa + i.imm16.signExtend 64) (tWidth i.t / 8) .rmw 0x80 0 0 ∧ inSealed s 0x80 (tWidth i.t / 8) = false ∧
      physQuality s 0x80 (tWidth i.t / 8) = .uncorrectable) ∧
    ((s.x j.xa + j.imm32.signExtend 64).toNat % 8 = 0 ∧ (s.tr.win (j.opv.toNat % 8)).size = 0 ∧ j.t = 7#4) ∧
    (s.x k.xa + k.imm32.signExtend 64).toNat % 8 ≠ 0 ∧ k.t = 7#4 := by
  refine ⟨⟨3, 1, 0, 0, 0, 0, 0, 0, 0, 24, 0⟩, ⟨3, 2, 0, 0, 0, 0, 0, 0, 0, 24, 0⟩, ⟨3, 1, 2, 0, 0, 7, 0⟩, ⟨3, 2, 2, 0, 0, 7, 0⟩,
    ⟨3, 0, 0, 0, 7⟩, ⟨3, 0, 1, 0, 7⟩, markedLines, started_of ?_, stoppable_of ?_, trapFree_of ?_, ?_, ⟨finds_of ?_, ?_⟩, ⟨finds_of ?_, ?_⟩, ⟨finds_of ?_, ?_⟩,
    ⟨finds_of ?_, ?_⟩, ?_⟩ <;> decide +kernel

/-- A handle that names no mesh object. -/
theorem witness_ConditionsTrap_handle : ∃ (f : FmtM) (s : State) (at_ : Loc), s.Started ∧ Stoppable s s.cur.ctxn ∧ TrapFree s s.cur.ctxn ∧ s.quiet ∧
    f.scope.toNat ≠ 4 ∧ s.vec.active f.m.toNat s.th.vl = [0] ∧ (s.x f.xbase).toNat % 4 = 0 ∧
    locate s s.tr.core s.cred (s.x f.xbase) .ld false = (at_, s) ∧ at_.isFault = false ∧
    meshNamed s s.tr.core s.cred (s.x f.xbase) (some s.tr.tag) = (none, s) ∧ meshIdx f = false ∧
    VectorReady s (vDecode s.vec.cfg s.cur.role 1 [vField (meshRing f) f.v 1] []) (s.vlOk 32) [] (if meshRing f then [opnd (meshRing f) f.v] else []) := by
  refine ⟨⟨24, 2, 0, 0, 0, 0, 0, 0, 0, 48, 0⟩, (trappable.withX [0, 0x40]).withV 1 [], .here 0x40 0 0, started_of ?_, stoppable_of ?_, trapFree_of ?_, quiet_of ?_,
    ?_, ?_, ?_, ?_, ?_, ?_, ?_, vectorReady_of ?_⟩ <;> decide +kernel

/-- Operands whose results are inexact, with every event enabled. -/
theorem witness_ConditionsTrap_fpx : ∃ (f : FmtA) (s : State), s.Started ∧ fpRm f ≠ 5 ∧ Stoppable s s.cur.ctxn ∧ TrapFree s s.cur.ctxn ∧
    let m := fpMode f
    let a := s.fpVal f f.xa
    let b := s.fpVal f f.xb
    ∀ x ∈ [addV m a b, addV m a b.negate, mulV a b, divV a b, sqrtV a, fmaV m a b (s.fpVal f f.xc)],
      enabled s.tr.vstat &&& (x.2 ||| (roundTo (fpFmt f.t) (s.fpCtx f) x.1).2) ≠ 0 := by
  refine ⟨⟨4, 1, 2, 3, 0, 9, 0⟩, (trappable.withX [0x3F800001, 0x3EAAAAAB, 0x3F800000]).modTr fun t => { t with vstat := 0x3F00 }, started_of ?_, ?_,
    stoppable_of ?_, trapFree_of ?_, ?_⟩ <;> decide +kernel

/-- A load whose first element stands on a page that is mapped and whose second does not. -/
theorem witness_FaultedElementsGoToTheMask : ∃ (f g : FmtM) (s : State) (cause : Nat → Option Nat), s.quiet ∧ (f.o = 0#1 ∧ g.o = 0#1) ∧
    s.vec.active f.m.toNat s.th.vl = [0, 1] ∧ s.vec.active g.m.toNat s.th.vl = [0, 1] ∧ (2 ^ segWm f = 4 ∧ 2 ^ segWm g = 4) ∧
    (∀ addr ∈ [fun e => s.x f.xbase + f.imm16.signExtend 64 + s.x f.xs + BitVec.ofNat 64 e * BitVec.ofNat 64 4,
        fun e => s.x g.xbase + g.imm16.signExtend 64 + BitVec.ofNat 64 e * s.x g.xs], ∀ e ∈ [0, 1],
      (addr e).toNat % 4 = 0 ∧ isVirt (addr e) = true ∧ match cause e with
        | some k => locate s s.tr.core s.cred (addr e) .ld false = (.fault k, s)
        | none => markHolds s 0xFFFC 4 = false ∧ ∃ frame, locate s s.tr.core s.cred (addr e) .ld false = (.here 0xFFFC 0 frame, s)) ∧
    [0, 1].filter (fun e => (cause e).isSome) = [1] ∧ Settled s s.tr.core ∧
    (∀ k ∈ [f, g], VectorReady s (k.scope.toNat != 4 && vDecode s.vec.cfg s.cur.role 1 [vField false k.v 1] []) (s.vlOk (wrBits k)) [] []) ∧
    Stoppable s s.cur.ctxn ∧ TrapFree s s.cur.ctxn := by
  refine ⟨⟨8, 1, 0, 0, 0, 0, 0, 0, 0, 18, 0⟩, ⟨8, 1, 2, 0, 0, 0, 0, 0, 0, 18, 0⟩, (trappable.withX [0xFFFC, 4]).withV 2 [], fun e => if e = 0 then none else some 1,
    quiet_of ?_, ?_, ?_, ?_, ?_, fun addr ha e he => ?_, rfl, settled_of ?_, fun k hk => vectorReady_of ?_, stoppable_of ?_, trapFree_of ?_⟩
  case refine_6 =>
    fin_cases ha <;> fin_cases he
    · exact ⟨by decide +kernel, by decide +kernel, by decide +kernel, 0, by decide +kernel⟩
    · exact ⟨by decide +kernel, by decide +kernel, show locate _ _ _ _ _ _ = (.fault 1, _) by decide +kernel⟩
    · exact ⟨by decide +kernel, by decide +kernel, by decide +kernel, 0, by decide +kernel⟩
    · exact ⟨by decide +kernel, by decide +kernel, show locate _ _ _ _ _ _ = (.fault 1, _) by decide +kernel⟩
  case refine_8 => fin_cases hk <;> decide +kernel
  all_goals decide +kernel

/-! Fabric: this device is LCN 0 at port 5, up; LCN 3 is live at port 7 and LCN 4 lost. -/

def linked : State :=
  let s := (paged.withPage 0x10000 (2 ^ 51 + 3 * 2 ^ 44) 15 0).withPage 0x20000 (2 ^ 51 + 4 * 2 ^ 44) 15 0
  { s with
    time := 20000000
    fab := { s.fab with idtab := ⟨true, false, false, false, 2, 0, 5, 0⟩, idents := [(0, ⟨1, false, false, 0, 5⟩), (3, ⟨1, false, false, 0, 7⟩), (4, ⟨2, true, false, 9, 8⟩)] } }

def State.withFab (s : State) (g : Fabric → Fabric) : State := { s with fab := g s.fab }

def ramoField : FmtA := ⟨5, 1, 2, 0, 0, 7, 0⟩

/-- A write to LCN 3, its own or abandoned. -/
def sentTo3 (gone : Bool) : Replay := { sentWrite gone with txn := { Txn.none with kind := 2, wseq := 4, dport := 7, data := [1] } }

theorem witness_RemoteAtomicsReplayAndIdentityChanges_ramo : ∃ (f : FmtA) (s u v : State) (pa pb key : Nat), (s.Started ∧ u.Started ∧ v.Started) ∧
    (∀ x ∈ [s, u, v], (x.x f.xa + f.imm16.signExtend 64).toNat % (tWidth f.t / 8) = 0) ∧
    (locate s s.tr.core s.cred (s.x f.xa + f.imm16.signExtend 64) .rmw true = (.far pa key, s) ∧ cutOff s s.cur (pa / 2 ^ 44 % 128) = false ∧
      replayUsed s + 2 ≤ 262144 ∧ smem (pa / 2 ^ 44 % 128) s.fab.awaited = false) ∧
    (locate u u.tr.core u.cred (u.x f.xa + f.imm16.signExtend 64) .rmw true = (.far pb key, u) ∧ cutOff u u.cur (pb / 2 ^ 44 % 128) = true) ∧
    locate v v.tr.core v.cred (v.x f.xa + f.imm16.signExtend 64) .rmw true = (.far pa key, v) ∧ cutOff v v.cur (pa / 2 ^ 44 % 128) = false ∧
      smem (pa / 2 ^ 44 % 128) v.fab.awaited = true := by
  refine ⟨ramoField, linked.withX [0x10040, 2], linked.withX [0x20040, 2], (linked.withX [0x10040, 2]).withFab fun f => { f with awaited := [3] },
    2 ^ 51 + 3 * 2 ^ 44 + 0x40, 2 ^ 51 + 4 * 2 ^ 44 + 0x40, 0, ⟨started_of ?_, started_of ?_, started_of ?_⟩, ?_⟩ <;> decide +kernel

/-- FSTAT of another LCN, of this device's own and of none, and FREPLAY with an abandoned write, with none, and before the mark. -/
theorem witness_RemoteAtomicsReplayAndIdentityChanges_status : ∃ (f g h : FmtE) (s u v w : State), (s.Started ∧ u.Started ∧ v.Started ∧ w.Started) ∧
    ((s.x f.xa).toNat = 3 ∧ (s.ident 3).state = 1 ∧ 3 ≠ s.fab.idtab.lcn ∧ f.fn.toNat % 16 = 0 ∧ g.fn.toNat % 16 = 2 ∧ g.xa = f.xa ∧
      (s.ident (s.x 0#6).toNat).state = 1 ∧ (s.x 0#6).toNat = s.fab.idtab.lcn ∧ s.fab.idtab.rep = false) ∧
    (s.fab.replay = [] ∧ smem 3 s.fab.awaited = false ∧ v.fab.awaited = [3]) ∧
    ((s.x h.xa).toNat = 200 ∧ (u.x f.xa).toNat = 3 ∧ (u.ident 3).state = 1 ∧ smem 3 u.fab.awaited = false ∧ u.fab.replay = [sentTo3 true] ∧ (sentTo3 true).lcn = 3 ∧
      (sentTo3 true).owner = some u.cur ∧ nextWseq u 3 < 2 ^ 32) ∧
    (v.th.stall = some (.freplay f 9) ∧ v.tr.trapper = none ∧ v.fab.replay = [] ∧ (v.ident (v.x f.xa).toNat).state = 1) ∧
    w.th.stall = some (.replay 4) ∧ replayUsed w + 4 ≤ 262144 := by
  refine ⟨⟨5, 1, 0, 0, 0, 0⟩, ⟨5, 1, 0, 0, 0, 2⟩, ⟨5, 2, 0, 0, 0, 0⟩, linked.withX [3, 200],
    (linked.withX [3]).withFab fun f => { f with replay := [sentTo3 true] },
    ((linked.withX [3]).withFab fun f => { f with awaited := [3] }).modTh fun r => { r with stall := some (.freplay ⟨5, 1, 0, 0, 0, 0⟩ 9) },
    linked.modTh fun r => { r with stall := some (.replay 4) }, ⟨started_of ?_, started_of ?_, started_of ?_, started_of ?_⟩, ?_⟩ <;> decide +kernel

/-- FREPLAY's wait with one of its writes not yet acknowledged, and with one abandoned. -/
theorem witness_RemoteAtomicsReplayAndIdentityChanges_replays : ∃ (f : FmtE) (s u : State), (s.Started ∧ u.Started) ∧
    (∀ x ∈ [s, u], x.th.stall = some (.freplay f 9) ∧ x.tr.trapper = none ∧ (x.x f.xa).toNat = 3 ∧ (x.ident 3).state = 1) ∧
    s.fab.replay = [sentTo3 false] ∧ (sentTo3 false).abandoned = false ∧ (sentTo3 false).owner = some s.cur ∧
    NotAfter (sentTo3 false).txn.wseq 9 ∧ u.fab.replay = [sentTo3 true] := by
  refine ⟨⟨5, 1, 0, 0, 0, 0⟩, ((linked.withX [3]).withFab fun f => { f with replay := [sentTo3 false] }).modTh fun r => { r with stall := some (.freplay ⟨5, 1, 0, 0, 0, 0⟩ 9) },
    ((linked.withX [3]).withFab fun f => { f with replay := [sentTo3 true] }).modTh fun r => { r with stall := some (.freplay ⟨5, 1, 0, 0, 0, 0⟩ 9) },
    ⟨started_of ?_, started_of ?_⟩, ?_, rfl, rfl, rfl, ?_, rfl⟩
  case refine_4 => unfold NotAfter; decide +kernel
  all_goals decide +kernel

/-- A change at the head of the management ring, asked for by a host, with what the ring tells. -/
def changing (op : Nat) (lcn : Nat) (r : RingIn) : State :=
  { (linked.withFab fun f => { f with ring := [⟨op, true, lcn, 9, none⟩] }) with occ := { Occasion.none with ring := r } }

theorem witness_RemoteAtomicsReplayAndIdentityChanges_change : ∃ (f : FmtE) (s : State), (s.Started ∧ s.th.priv = true ∧ (s.x f.xa).toNat ≤ 127) ∧
    (∀ u ∈ [changing 0 6 ⟨true, true, false, false⟩, changing 1 3 ⟨true, true, false, false⟩, changing 2 4 ⟨false, false, false, false⟩,
        changing 3 4 ⟨false, false, false, false⟩, changing 4 4 ⟨false, false, false, false⟩, changing 1 3 ⟨true, true, false, true⟩,
        changing 0 3 ⟨true, true, false, false⟩],
      u.occ.flag = false ∧ u.fab.idtab.shd = false ∧ shadowPort u = none ∧ u.fab.ring.all (fun c => decide (c.op ≤ 4) && c.port != u.fab.idtab.port &&
        c.lcn != u.fab.idtab.lcn && c.asker.isNone) = true ∧ u.fab.ring.length = 1) ∧
    ((linked.ident 6).state = 0 ∧ (linked.ident 3).shv = false ∧ (linked.ident 4).shv = true ∧ (linked.ident 4).state = 2) ∧
    ∃ v : State, v.occ.k < 2 ^ 32 ∧ v.noneEnding ∧ v.occ.n < 128 ∧ v.fab.replay ≠ [] := by
  refine ⟨⟨5, 1, 2, 0, 0, 0⟩, linked.withPriv.withX [3, 9], ⟨started_of ?_, ?_⟩, ?_, ?_,
    { (linked.withFab fun f => { f with replay := [sentTo3 true, sentTo3 false] }) with occ := { Occasion.none with n := 3, k := 4 } }, ?_, ?_, ?_, ?_⟩
  case refine_6 => intro p hp; have h : ∀ p ∈ linked.entries, False := by decide +kernel
                   exact (h p hp).elim
  all_goals decide +kernel

theorem has_of {s : State} {c : Nat} (h : (tfind c s.triads).isSome = true) : s.Has c := h

/-- A change that a thread asked for, and a replica at port 5 that takes LCN 4 over. -/
theorem witness_RemoteAtomicsReplayAndIdentityChanges_assume : ∃ (s u : State) (c d : Change), s.occ.flag = false ∧ s.fab.ring = [c] ∧ c.op = 3 ∧
    c.port ≠ s.fab.idtab.port ∧ s.fab.idtab.shd = false ∧ shadowPort s = none ∧ c.lcn ≠ s.fab.idtab.lcn ∧
    (c.asker = some s.cur ∧ s.Has s.cur.ctxn ∧ (s.triad s.cur.ctxn).trapper = none ∧ (s.thread s.cur).stall = some (.swapid 5)) ∧
    u.occ.flag = false ∧ u.fab.ring = [d] ∧ d.op = 3 ∧ d.asker = none ∧ u.fab.idtab.shd = true ∧ (u.ident d.lcn).shport = u.fab.idtab.port ∧
    (u.ident d.lcn).state = 2 ∧ (u.ident d.lcn).shv = true ∧ d.force = true ∧ tfind 7 u.fab.lseq = some 3 := by
  refine ⟨(linked.withFab fun f => { f with ring := [⟨3, true, 4, 9, some demo.cur⟩] }).modTh fun r => { r with stall := some (.swapid 5) },
    linked.withFab fun f => { f with ring := [⟨3, true, 4, 0, none⟩], idtab := ⟨true, true, true, false, 2, 4, 9, 0⟩, lseq := [(7, 3)] },
    ⟨3, true, 4, 9, some demo.cur⟩, ⟨3, true, 4, 0, none⟩, ?_, ?_, ?_, ?_, ?_, ?_, ?_, ⟨?_, has_of ?_, ?_, ?_⟩, ?_⟩ <;> decide +kernel

/-- A transaction that arrives from port 7, with its tag. -/
def arrives (t : Txn) : State :=
  let q := { t with sport := 7, nbyte := if t.data = [] then t.nbyte else t.data.length }
  { linked with occ := { Occasion.none with wire := q.sealed.wire, flag := t.more } }

/-- The same with a tag that fails. -/
def arrivesBad (t : Txn) : State := { linked with occ := { Occasion.none with wire := { t with sport := 7 }.wire } }

def readOf3 : OutRead := ⟨3, { Txn.none with addr := 0x40, nbyte := 64 }, ⟨0, .loader⟩, 0, 0, none⟩

theorem linked_noneEnding {s : State} (h : s.entries = []) : s.noneEnding := fun p hp => by rw [h] at hp; cases hp

theorem tfind_mem {α : Type} {k : Nat} {v : α} : ∀ {t : Tbl α}, tfind k t = some v → (k, v) ∈ t
  | [], h => by cases h
  | (j, w) :: t, h => by
    rw [tfind] at h
    split at h
    next e => subst e; cases h; exact List.mem_cons_self ..
    next => exact List.mem_cons_of_mem _ (tfind_mem h)

/-- No thread but `o` waits. -/
theorem others_of {s : State} {o : Tid}
    (h : (s.triads.all fun p => roles.all fun q => decide (Tid.mk p.1 q = o) || (p.2.role q).stall.isNone) = true) :
    ∀ v, v ≠ o → (s.thread v).stall = none := by
  intro v hv
  simp only [List.all_eq_true, Bool.or_eq_true, decide_eq_true_eq, Option.isNone_iff_eq_none] at h
  rw [State.thread, State.triad, tget]
  cases e : tfind v.ctxn s.triads with
  | none => cases v.role <;> rfl
  | some t => exact (h _ (tfind_mem e) v.role (by cases v.role <;> decide)).resolve_left hv

theorem noneWaits_of {s : State} {l : Nat} (h : (s.triads.all fun p => roles.all fun q => (p.2.role q).stall.isNone) = true) : s.noneWaits l := by
  intro u
  have e : (s.thread u).stall = none := by
    refine others_of (o := ⟨u.ctxn + 1, u.role⟩) ?_ u fun e => by simpa using congrArg Tid.ctxn e
    simp only [List.all_eq_true, Bool.or_eq_true] at h ⊢
    exact fun p hp q hq => .inr (h p hp q hq)
  refine ⟨?_, ?_, ?_⟩ <;> · intros; simp_all

theorem witness_FabricAnswersAndThePort_answers : ∃ (s s' u : State) (r : OutRead), (s.port ∧ s'.port ∧ u.port) ∧
    (s.fab.reads = [r] ∧ s.arrival.tagOk = true ∧ s.arrival.kind = 1 ∧ r.txn.addr = s.arrival.addr ∧ r.txn.kind = 0 ∧
      homePort s r.lcn = s.arrival.sport ∧ s.Has r.tid.ctxn) ∧
    (s'.fab.reads = [r] ∧ s'.arrival.tagOk = false ∧ homePort s' r.lcn = s'.arrival.sport) ∧
    (u.arrival.tagOk = true ∧ u.arrival.kind = 4 ∧ u.arrival.data.length = 8 ∧ u.noneEnding ∧ lcnAt u u.arrival.sport = some 3 ∧ u.fab.reads = [] ∧ u.Has u.cur.ctxn ∧
      (u.triad u.cur.ctxn).trapper = none ∧ (u.thread u.cur).stall = some (.atomic 3 u.arrival.wseq 5 7 0 none) ∧
      ∀ v, v ≠ u.cur → (u.thread v).stall = none) := by
  refine ⟨(arrives { Txn.none with kind := 1, addr := 0x40, data := List.replicate 64 3 }).withFab fun f => { f with reads := [readOf3] },
    (arrivesBad { Txn.none with kind := 1, addr := 0x40 }).withFab fun f => { f with reads := [readOf3] },
    (arrives { Txn.none with kind := 4, wseq := 4, data := List.replicate 8 3 }).modTh fun r => { r with stall := some (.atomic 3 4 5 7 0 none) },
    readOf3, ⟨⟨rfl, rfl⟩, ⟨rfl, rfl⟩, rfl, rfl⟩, ⟨?_, ?_, ?_, ?_, ?_, ?_, has_of ?_⟩, ?_, ?_, ?_, ?_, linked_noneEnding ?_, ?_, ?_, has_of ?_, ?_, ?_, others_of ?_⟩
  all_goals decide +kernel

theorem witness_FabricAnswersAndThePort_acks : ∃ v w x y : State, (v.port ∧ w.port ∧ x.port) ∧
    (v.arrival.tagOk = true ∧ v.arrival.kind = 5 ∧ v.fab.shadowWait = [] ∧ v.noneEnding ∧ v.fab.replay = [sentTo3 false] ∧
      homePort v (sentTo3 false).lcn = v.arrival.sport ∧ NotAfter (sentTo3 false).txn.wseq v.arrival.wseq) ∧
    (w.arrival.tagOk = true ∧ w.arrival.kind = 6 ∧ w.fab.shadowWait = [] ∧ w.noneEnding) ∧ (x.arrival.tagOk = false ∧ x.fab.reads = []) ∧
    v.fab.hbLast + 1000 ≤ v.time ∧ y.time < y.fab.hbLast + 1000 := by
  refine ⟨(arrives { Txn.none with kind := 5, wseq := 4 }).withFab fun f => { f with replay := [sentTo3 false] }, arrives { Txn.none with kind := 6, wseq := 4 },
    arrivesBad { Txn.none with kind := 5 }, linked.withFab fun f => { f with hbLast := 20000000 }, ⟨⟨rfl, rfl⟩, ⟨rfl, rfl⟩, rfl, rfl⟩,
    ⟨?_, ?_, ?_, linked_noneEnding ?_, ?_, ?_, ?_⟩, ⟨?_, ?_, ?_, linked_noneEnding ?_⟩, ?_⟩
  case refine_7 => unfold NotAfter; decide +kernel
  all_goals decide +kernel

theorem witness_FabricAnswersAndThePort_port : ∃ (s u v w x : State) (l : Nat),
    (s.fab.idtab.fen = true ∧ s.fab.idtab.fst = 1) ∧ (s.fab.resets.filter fun r => decide (s.time < r.1 + 10000000)).length < 2 ∧
    (u.fab.idtab.fst = 3 ∧ u.fab.stopped = false ∧ ∀ o, (u.thread o).stall = none) ∧
    (v.port ∧ v.occ.flag = false ∧ v.fab.idtab.port < 144 ∧ v.occ.n = l ∧ (v.ident l).state = 1 ∧ v.noneEnding ∧ v.noneWaits l ∧
      (v.ident l).port ≠ v.fab.idtab.port ∧ tget 0 (v.ident l).port v.fab.heard + 8000 ≤ v.time ∧
      ∃ p ∈ v.fab.heard, p.1 ≠ (v.ident l).port ∧ p.1 ≠ v.fab.idtab.port ∧ v.time < p.2 + 8000) ∧
    (x.port ∧ x.occ.flag = false ∧ x.occ.n = l ∧ (x.ident l).state = 1 ∧ x.noneEnding ∧ (∀ k, x.noneWaits k) ∧ (x.ident l).port ≠ x.fab.idtab.port ∧
      tget 0 (x.ident l).port x.fab.heard + 8000 ≤ x.time ∧ x.fab.heard = []) ∧
    w.occ.flag = true ∧ shadowPort w ≠ some w.occ.n ∧ portHead v ≠ none := by
  refine ⟨linked.withFab fun f => { f with idtab := ⟨true, false, false, false, 1, 0, 5, 0⟩ },
    linked.withFab fun f => { f with idtab := ⟨true, false, false, false, 3, 0, 5, 0⟩ },
    { (linked.withFab fun f => { f with heard := [(9, 20000000)], out := [{ Txn.none with dport := 7 }] }) with occ := { Occasion.none with n := 3 } },
    { linked with occ := { Occasion.none with n := 9, flag := true } }, { linked with occ := { Occasion.none with n := 3 } }, 3, ?_, ?_,
    ⟨?_, ?_, fun o => others_of (o := ⟨o.ctxn + 1, o.role⟩) ?_ o fun e => by simpa using congrArg Tid.ctxn e⟩,
    ⟨⟨rfl, rfl⟩, ?_, ?_, ?_, ?_, linked_noneEnding ?_, noneWaits_of ?_, ?_⟩,
    ⟨⟨rfl, rfl⟩, ?_, ?_, ?_, linked_noneEnding ?_, fun k => noneWaits_of ?_, ?_⟩, ?_⟩
  case refine_5 =>
    have h : (linked.triads.all fun p => roles.all fun q => (p.2.role q).stall.isNone) = true := by decide +kernel
    simp only [List.all_eq_true, Bool.or_eq_true] at h ⊢
    exact fun p hp q hq => .inr (h p hp q hq)
  all_goals decide +kernel

/-- A third reset within 10 ms, of one slice and of the domain; and a thread that awaits an answer whose atomic is gone. -/
theorem witness_FabricAnswersAndThePort_resets : ∃ s u v : State, (∀ x ∈ [s, u], x.fab.fenced = [] ∧
      (x.fab.resets.filter fun r => decide (x.time < r.1 + 10000000)).length = 2) ∧
    (s.occ.flag = true ∧ ∀ r ∈ s.fab.resets, r.2 = some s.occ.k) ∧ u.occ.flag = false ∧
    v.fab.idtab.fst = 3 ∧ v.fab.stopped = false ∧ v.cur ∈ allThreads v ∧ (v.thread v.cur).stall = some (.atomic 3 4 5 7 0 none) ∧ v.fab.replay = [] ∧
    v.fab.reads = [] := by
  refine ⟨{ (linked.withFab fun f => { f with resets := [(19000000, some 2), (19500000, some 2)] }) with occ := { Occasion.none with flag := true, k := 2 } },
    linked.withFab fun f => { f with resets := [(19000000, none), (19500000, none)] },
    (linked.withFab fun f => { f with idtab := ⟨true, false, false, false, 3, 0, 5, 0⟩ }).modTh fun r => { r with stall := some (.atomic 3 4 5 7 0 none) }, ?_⟩
  decide +kernel

/-- A transaction from port 7 to this device's memory at 0x40, with the number that it awaits or another. -/
def asked (k : Nat) (t : Txn) : State := arrives { t with addr := 0x40, wseq := k, ty := 7 }

/-- A write in order, a part of a unit, one with a bad tag, and reads. -/
theorem witness_HomesServeTheFabric_memory : ∃ s u v w x : State, (∀ y ∈ [s, u, v, w, x], y.port) ∧
    (∀ y ∈ [s, u, w, x], y.arrival.tagOk = true ∧ y.fab.heldUnits = []) ∧
    (s.arrival.kind = 2 ∧ s.arrival.wseq = expected s s.arrival.sport ∧ s.arrival.data.length = 8 ∧ s.arrival.addr + 8 ≤ 2 ^ 39 ∧
      shadowPort s = none ∧ slotEmpty s s.arrival.key = false ∧ inSealed s s.arrival.addr 8 = false ∧ s.arrival.more = false ∧
      s.arrival.ben = List.replicate 8 true ∧ s.arrival.pmask = []) ∧
    (u.arrival.kind = 2 ∧ u.arrival.wseq = expected u u.arrival.sport ∧ u.arrival.more = true) ∧ v.arrival.tagOk = false ∧
    (w.arrival.kind = 0 ∧ w.arrival.nbyte = 64 ∧ w.arrival.addr + 64 ≤ 2 ^ 39 ∧ w.arrival.more = false) ∧
    x.arrival.kind = 0 ∧ x.arrival.nbyte = 64 ∧ x.arrival.more = true := by
  refine ⟨asked 0 { Txn.none with kind := 2, data := List.replicate 8 3, ben := List.replicate 8 true },
    asked 0 { Txn.none with kind := 2, data := List.replicate 8 3, ben := List.replicate 8 true, more := true }, arrivesBad Txn.none,
    asked 0 { Txn.none with nbyte := 64 }, asked 0 { Txn.none with nbyte := 64, more := true }, fun y hy => ?_, ?_⟩
  case refine_1 => fin_cases hy <;> exact ⟨rfl, rfl⟩
  all_goals decide +kernel

/-- Atomics: in order, at poison, repeated with and without an entry of the log, ahead of their turn, and one that waits for the log. -/
theorem witness_HomesServeTheFabric_atomics : ∃ s u v w x y : State, (∀ z ∈ [s, u, v, w, x, y], z.port ∧ z.arrival.tagOk = true ∧ z.arrival.kind = 3 ∧
      shadowPort z = none ∧ z.arrival.addr + 8 ≤ 2 ^ 39 ∧ tWidth (BitVec.ofNat 4 z.arrival.ty) = 64 ∧ slotEmpty z z.arrival.key = false ∧
      inSealed z z.arrival.addr 8 = false ∧ z.fab.rlog.length < 16384) ∧
    (∀ z ∈ [s, u, y], z.arrival.wseq = expected z z.arrival.sport) ∧
    (physQuality s s.arrival.addr 8 = .clean ∧ physQuality u u.arrival.addr 8 ≠ .clean ∧ y.fab.heldAtomics = [y.arrival]) ∧
    (∀ z ∈ [v, w], z.arrival.wseq ≠ expected z z.arrival.sport ∧ NotAfter z.arrival.wseq (expected z z.arrival.sport)) ∧
    (v.fab.rlog = [⟨v.arrival.sport, v.arrival.wseq, 6, 0⟩] ∧ w.fab.rlog = []) ∧
    x.arrival.wseq ≠ expected x x.arrival.sport ∧ ¬ NotAfter x.arrival.wseq (expected x x.arrival.sport) := by
  refine ⟨asked 0 { Txn.none with kind := 3 }, { asked 0 { Txn.none with kind := 3 } with mem := { Mem.none with pois := [1] } },
    (asked 3 { Txn.none with kind := 3 }).withFab fun f => { f with expect := [(7, 5)], rlog := [⟨7, 3, 6, 0⟩] },
    (asked 3 { Txn.none with kind := 3 }).withFab fun f => { f with expect := [(7, 5)] }, asked 3 { Txn.none with kind := 3 },
    (asked 0 { Txn.none with kind := 3 }).withFab fun f => { f with heldAtomics := [(asked 0 { Txn.none with kind := 3 }).arrival] }, fun z hz => ?_, ?_, ?_,
    ?_, ?_, ?_, ?_⟩
  case refine_1 => fin_cases hz <;> exact ⟨⟨rfl, rfl⟩, by decide +kernel⟩
  case refine_4 =>
    unfold NotAfter
    decide +kernel
  case refine_7 =>
    unfold NotAfter
    decide +kernel
  all_goals decide +kernel

/-- The log read, with an entry and without; forwards to a replica, in order and not; a forward to a device that is none; the sweep. -/
theorem witness_HomesServeTheFabric_replica : ∃ s u v w x y z : State, (∀ t ∈ [s, u, v, w, x, y], t.port) ∧
    (s.arrival.tagOk = true ∧ s.arrival.kind = 9 ∧ s.fab.rlog = [⟨s.arrival.sport, s.arrival.wseq, 6, 0⟩]) ∧
    (u.arrival.tagOk = true ∧ u.arrival.kind = 9 ∧ u.fab.rlog = []) ∧
    (∀ t ∈ [v, w, x], t.fab.idtab.rep = true ∧ t.fab.idtab.shd = true ∧ t.arrival.tagOk = true ∧ t.arrival.kind = 8 ∧ t.arrival.pmask = [] ∧
      t.arrival.addr + 8 ≤ 2 ^ 39 ∧ t.arrival.origPort ≠ 255 ∧ tfind t.arrival.origPort t.fab.lseq = none) ∧
    (v.arrival.wseq = expected v v.arrival.sport ∧ v.arrival.data.length = 8 ∧ slotEmpty v v.arrival.key = false ∧
      inSealed v v.arrival.addr 8 = false ∧ v.arrival.ben = List.replicate 8 true) ∧
    (w.arrival.wseq = expected w w.arrival.sport ∧ w.arrival.data = []) ∧ x.arrival.wseq ≠ expected x x.arrival.sport ∧
    (y.fab.idtab.rep = false ∧ y.arrival.kind = 8) ∧
    ((z.ident z.occ.n).shv = true ∧ (z.ident z.occ.n).cur = false ∧ z.occ.n ≠ z.fab.idtab.lcn) := by
  refine ⟨(asked 3 { Txn.none with kind := 9 }).withFab fun f => { f with rlog := [⟨7, 3, 6, 0⟩] }, asked 3 { Txn.none with kind := 9 },
    (asked 0 { Txn.none with kind := 8, data := List.replicate 8 3, ben := List.replicate 8 true, origPort := 2 }).withFab
      fun f => { f with idtab := ⟨true, true, true, false, 2, 0, 5, 0⟩ },
    (asked 0 { Txn.none with kind := 8, origPort := 2 }).withFab fun f => { f with idtab := ⟨true, true, true, false, 2, 0, 5, 0⟩ },
    (asked 3 { Txn.none with kind := 8, origPort := 2 }).withFab fun f => { f with idtab := ⟨true, true, true, false, 2, 0, 5, 0⟩ },
    asked 0 { Txn.none with kind := 8 }, { linked with occ := { Occasion.none with n := 4 } }, fun y hy => ?_, ?_⟩
  case refine_1 => fin_cases hy <;> exact ⟨rfl, rfl⟩
  all_goals decide +kernel

/-! The assembler: the example of the chapter on instruction words (R78 to R83, R343), its words and its record. -/

/-- The source of the example. -/
def addFive : List Meras.Line :=
  [.data, .align (.num 8), .label "result", .word [.num 0], .label "params", .word [.num 37, .name "result"],
   .triad "add5", .role .loader, .block, .instr ⟨"exit", []⟩ 0x2280000000000000 none, .endblock,
   .role .storer, .block, .instr ⟨"exit", []⟩ 0x2280000000000000 none, .endblock,
   .role .computer, .block, .instr ⟨"ldw.n64", []⟩ 0x1A02000000000007 (some (.imm32 true, .num 0)),
   .instr ⟨"ldw.n64", []⟩ 0x1A04000000000007 (some (.imm32 true, .num 8)), .instr ⟨"addi.i64", []⟩ 0x0C02080000000003 (some (.imm32 false, .num 5)),
   .instr ⟨"st.n64", []⟩ 0x1882100000180000 (some (.imm16 false, .num 0)), .instr ⟨"exit", []⟩ 0x2280000000000000 none, .endblock,
   .window 0 (.name "params") (.num 16), .launch "job" "add5" (.num 1) none none none]

/-- A word of a section of a source that was assembled, written to a file, read back and loaded. -/
def loadedWord (src : List Meras.Line) (bases : List Word) (sect off : Nat) : Option Nat :=
  match Meras.assemble src with
  | .ok m => (Meras.Mob.ofBytes m.bytes).bind fun m => (m.load bases).bind fun l => l[sect]?.bind fun x => Meras.rd x.2 off 8
  | .error _ => none

theorem test_meras_code : [0, 0x80, 0x100, 0x108, 0x110, 0x118, 0x120].map (loadedWord addFive [0x10000, 0x20000, 0x30000] 0) =
    [0xA280000000000000, 0xA280000000000000, 0x1A02000000000007, 0x1A04000000004007, 0x0C02080000002803, 0x1882100000180000,
      0xA280000000000000].map some := by decide +kernel

theorem test_meras_record : [0, 8, 16, 24, 32, 88, 96].map (loadedWord addFive [0x10000, 0x20000, 0x30000] 2) =
    [0x1BFFFF, 0x10000, 0x10100, 0x10080, 0x20001, 0x20008, 16].map some := by decide +kernel

theorem test_meras_expression :
    (Meras.exprOf "(1_000 - 3 * -2) % 7 ^ 0b11").bind (Meras.Expr.value []) = some (.abs 6) := by decide +kernel

theorem test_meras_outside_block : (match Meras.assemble [.instr ⟨"exit", []⟩ 0x2280000000000000 none] with
    | .error e => some e
    | .ok _ => none) = some .outsideBlock := by decide +kernel

/-- R75, R82: a group of two that starts at an odd register. -/
theorem test_meras_group : (match Meras.assemble [.triad "t", .role .computer, .block,
      .instr ⟨"vadd.s", ["grp"]⟩ 0x29124140001d0009 none] with
    | .error e => some e
    | .ok _ => none) = some .operandRule := by decide +kernel

theorem test_meras_underscore : Meras.constVal "0x_1F".toList = none ∧ Meras.constVal "1_000".toList = some 1000 := by
  decide +kernel

/-! The host's side. -/

/-- SY_SEM as it stands, with a write of the management master. -/
def writing (m : Sem) (v : Word) : State := { demo with io := { demo.io with sem := m }, occ := { Occasion.none with who := 2, value := v } }

theorem witness_TheOwnerWritesTheControlWindow : ∃ s u v w : State, (∀ x ∈ [s, u, v, w], x.io.power ≠ 2 ∧ x.occ.who = 2) ∧
    s.io.sem.owner = 0 ∧ (u.io.sem.owner ≠ 0 ∧ u.io.sem.owner ≠ 3 ∧ u.io.sem.remNs = 0) ∧ (v.io.sem.owner = 3 ∧ v.io.sem.remNs ≠ 0) ∧
    (w.io.sem.owner ≠ 0 ∧ w.io.sem.owner ≠ 3 ∧ w.io.sem.remNs = 1) ∧
    (∃ x : State, x.triads = [] ∧ x.occ.value.toNat % 2 ^ 24 = 0 ∧ x.occ.value.toNat + 2 ^ 24 ≤ 2 ^ 39) ∧
    (∃ x : State, (x.queue (x.occ.n % 128)).base.toNat % 4096 = 0 ∧ 12 ≤ x.occ.value.toNat % 32 ∧ x.occ.value.toNat % 32 ≤ 24 ∧
      ringPlaced x (x.queue (x.occ.n % 128)).base.toNat (2 ^ (x.occ.value.toNat % 32)) = true ∧ x.occ.value.getLsbD 63 = true ∧
      x.occ.value.getLsbD 60 = false ∧ (x.queue (x.occ.n % 128)).state ≠ 2 ∧ (x.queue (x.occ.n % 128)).devsub = false) ∧
    (∃ x : State, (x.io.port (x.occ.n % 2)).iso = true) ∧ ∃ x : State, x.occ.n % 128 ≠ 0 := by
  refine ⟨writing ⟨0, 0, 100, 0⟩ 0, writing ⟨1, 0, 100, 0⟩ 0, writing ⟨3, 0, 100, 5⟩ 0, writing ⟨1, 0, 100, 1⟩ 0, ?_, ?_, ?_, ?_, ?_,
    ⟨{ State.reset with occ := { Occasion.none with value := 0x1000000 } }, ?_⟩, ⟨writing ⟨3, 0, 100, 5⟩ 0x800000000000000C, ?_⟩,
    ⟨{ demo with io := { demo.io with port0 := ⟨true, true, true⟩ } }, ?_⟩, { demo with occ := { Occasion.none with n := 5 } }, ?_⟩ <;> decide +kernel

/-- Host traffic at an address. -/
def hosting (a : Nat) (bs : Option (List Byte)) : State := { demo with occ := { Occasion.none with n := a, data := bs } }

/-- The owner, the management master, at offsets of the control window. -/
def owning (n : Nat) (v : Word) : State := { writing ⟨3, 0, 100, 5⟩ v with occ := { Occasion.none with who := 2, n := n, value := v } }

theorem witness_TheOwnerWritesTheControlWindow_offsets :
    (∀ n ∈ [0, 8, 0x10, 0x18, 0x20, 0x28, 0x40, 0x80, 0x400, 0x1000, 0x1010, 0x1018, 0x1020, 0x1028, 0x8000], (owning n 5).io.power ≠ 2 ∧
      (owning n 5).io.sem.owner = (owning n 5).occ.who % 3 + 1 ∧ (owning n 5).io.sem.remNs ≠ 0 ∧ (owning n 5).occ.n = n) ∧
    ((owning 0x40 5).io.keydata.length = 64 ∧ (owning 0x20 5).occ.value.toNat % 8 = 5 ∧ (owning 0x20 4).occ.value.toNat % 8 = 4) ∧
    ∃ s : State, s.occ.who = 2 ∧ s.io.power ≠ 2 ∧ s.io.sem.owner = 0 ∧ s.occ.n = 0x28 := by
  refine ⟨?_, ?_, { demo with occ := { Occasion.none with who := 2, n := 0x28 } }, ?_⟩ <;> decide +kernel

theorem witness_HostPortsBringUpAndPower_traffic : ∃ s u v w x : State, (∀ y ∈ [s, u, v, w], y.io.power ≠ 2 ∧ y.occ.who < 2 ∧
      (y.io.port y.occ.who).expander = false) ∧
    (s.occ.data = some [1, 2] ∧ s.occ.n + 2 ≤ 2 ^ 39 ∧ inSealed s s.occ.n 2 = false ∧ shadowPort s = none) ∧
    (u.occ.data = some [1, 2] ∧ u.occ.n + 2 ≤ 2 ^ 39 ∧ inSealed u u.occ.n 2 = true ∧ u.denyLost = 0 ∧ u.deny.length < 4096) ∧
    (v.occ.data = some [1, 2] ∧ 2 ^ 39 < v.occ.n + 2) ∧ (w.occ.data = none ∧ w.occ.k = 64 ∧ w.occ.n + 64 ≤ 2 ^ 39) ∧
    (∃ y : State, y.io.power ≠ 2 ∧ y.occ.who < 2 ∧ (y.io.port y.occ.who).expander = false ∧ y.occ.data = none ∧ y.occ.k = 64 ∧ y.occ.flag = true ∧
      y.occ.n + 64 ≤ 2 ^ 39) ∧ (∃ y : State, y.occ.data = none ∧ y.occ.k ≠ 0 ∧ 2 ^ 39 < y.occ.n + y.occ.k) ∧ (∃ y : State, y.occ.who = 2) ∧
    (x.io.port (x.occ.n % 2)).expander = true ∧ (x.io.port (x.occ.n % 2)).iso = false ∧ x.occ.flag = false := by
  refine ⟨hosting 0x40 (some [1, 2]), { meshed cutBlock with occ := { Occasion.none with n := 0x10000, data := some [1, 2] } },
    hosting (2 ^ 39) (some [1, 2]), { hosting 0x40 none with occ := { Occasion.none with n := 0x40, k := 64 } }, { demo with io := { demo.io with port0 := ⟨true, true, false⟩ } },
    ?_, ?_, ?_, ?_, ?_, ⟨{ demo with occ := { Occasion.none with n := 0x40, k := 64, flag := true } }, ?_⟩,
    ⟨{ demo with occ := { Occasion.none with n := 2 ^ 39, k := 64 } }, ?_⟩, ⟨{ demo with occ := { Occasion.none with who := 2 } }, ?_⟩, ?_⟩ <;>
    decide +kernel

/-- A device with no gang at a stage of bring-up. -/
def stage (n code trained power : Nat) : State := { State.reset with io := { State.reset.io with stage := n, code := code, trained := trained, power := power } }

theorem witness_HostPortsBringUpAndPower_bringUp : (∀ s ∈ [stage 0 0 0 0], s.io.stage = 0 ∧ s.io.code = 0 ∧ s.io.power = 0) ∧
    (stage 1 0 0 0).io.stage = 1 ∧ ((stage 2 0 255 0).io.stage = 2 ∧ (stage 2 0 255 0).io.code = 0 ∧ (stage 2 0 255 0).io.trained = 255 ∧
      (stage 2 0 255 0).gangs = []) ∧ demo.gangs ≠ [] ∧ (stage 3 0 255 1).io.power = 1 ∧
    (stage 3 0 255 0).io.stage ≠ 4 ∧ { Occasion.none with flag := true, flag2 := true }.flag = true := by
  decide +kernel

/-- Reduced service whose training is complete, with no gang; and a trip with one invocation, whose only gang is placed. -/
theorem witness_HostPortsBringUpAndPower_service : ∃ (s u : State) (e : Entry), (s.io.stage = 2 ∧ s.io.code = 0 ∧ s.io.trained = 255 ∧
      s.io.admitPaused = true ∧ s.gangs = []) ∧ u.io.power ≠ 2 ∧ u.io.stage ≠ 4 ∧ u.entries = [(2, e)] ∧ (u.gangs.map (·.1)).Nodup ∧
    e.placed = e.retired + e.killedGangs + u.gangs.countP (fun g => g.2.entry == 2) ∧ u.Unwritten 2 ∧ u.topos = [] ∧ u.TakesWord e.rcd ∧ Settled u 0 := by
  refine ⟨{ State.reset with io := { State.reset.io with stage := 2, trained := 255, admitPaused := true } },
    { oneGang 1 with entries := [(2, { wideEntry with placed := 1 })] }, { wideEntry with placed := 1 }, ?_, ?_, ?_, ?_, ?_, ?_, ⟨?_, ?_⟩, ?_, .inl ?_,
    settled_of ?_⟩ <;> decide +kernel

/-! The device as a whole. -/

theorem witness_DecodingInvertsEncoding : (wellFormed (.ld ⟨3, 1, 0, 0, 0, 0, 0, 0, 0, 24, 0⟩) = true) ∧
    decode 0x0C02080000002803#64 = .ok (.addi ⟨1, 1, 5, 0, 3⟩) := ⟨by decide, by rfl⟩

/-- Threads that stand at a word that decodes, at one that does not, and outside any block; and a device not in service. -/
def standing (w : Word) : State := State.reset.withFetchWord 64 w.toNat

theorem witness_StepRunsTheDecodedInstruction : ∃ s u v w : State,
    (∀ x ∈ [s, u, v], ∃ t : Tid, x.agenda = [.run t] ∧ t = x.cur ∧ (tfind t.ctxn x.triads).isSome = true ∧ trapDue x = false ∧ x.tr.live x.cur.role = true ∧
      x.th.stall = none) ∧
    (s.th.word = some 0x0C02080000002803#64 ∧ decode 0x0C02080000002803#64 = .ok (.addi ⟨1, 1, 5, 0, 3⟩)) ∧
    (u.th.word = some 0x2480000000000001#64 ∧ decode 0x2480000000000001#64 = .error .reservedField) ∧ v.th.word = none ∧
    (w.agenda = [] ∧ serving w = false) := by
  refine ⟨standing 0x0C02080000002803, standing 0x2480000000000001, (standing 0).modTh fun r => { r with blk := [] }, State.reset, fun x hx => ?_, ?_⟩
  · fin_cases hx <;> exact ⟨_, rfl, by decide +kernel⟩
  · decide +kernel

/-- A thread in its turn of the round. -/
theorem witness_StepRunsTheDecodedInstruction_round : ∃ s : State, s.agenda = [] ∧ serving s = true ∧ s.turn = 0 ∧
    (∃ (k : Nat) (t : Tid), (round s)[k]? = some (.run t) ∧ (∀ j, j < k → ((round s)[j]?).any (ready s) = false) ∧ ready s (.run t) = true ∧
      vectorReady ({ s with cur := t } : State) t = false) := by
  refine ⟨(demo.modTr fun t => { t with
    loader := { t.computer with blk := [0x0C02080000002803] } }), ?_, ?_, ?_, 0, ⟨0, .loader⟩, ?_, ?_, ?_, ?_⟩
  case refine_5 => intro j hj; omega
  all_goals decide +kernel

/-- An event, a tick and a line of the sweep on the agenda, and a device in D3cold. -/
theorem witness_TheAgendaComesFirst : ∃ s u v w : State, s.agenda = [.event .semAcquire Occasion.none] ∧ u.agenda = [.tick 5] ∧
    (v.agenda = [.sweep] ∧ v.fab.sweep = some 1 ∧ shadowPort v = some 9) ∧ w.agenda = [] ∧ w.io.power = 2 := by
  refine ⟨{ demo with agenda := [.event .semAcquire Occasion.none] }, { demo with agenda := [.tick 5] },
    { (linked.withFab fun f => { f with sweep := some 1, idents := [(0, ⟨1, true, false, 9, 5⟩)] }) with agenda := [.sweep] },
    { demo with io := { demo.io with power := 2 } }, ?_⟩
  decide +kernel

theorem witness_EveryStepKeepsMemoryCanonical : (standing 0x0C02080000002803).mem.wf = true ∧
    answers (step (standing 0x0C02080000002803)) (fun t => t.mem.wf) = true := by decide +kernel

/-! Small mesh objects: one root hexahedron. -/

def hexRoot : List Byte := natBytes 4 1 ++ (nrange 1 8).flatMap (natBytes 4) ++ List.replicate 12 0

def hexCell : MCell := rootCell hexRoot 0

def hexObj : MObj := wholeObj [hexRoot] [hexCell]

theorem witness_ObjectsHaveTheLayout : ∃ (o : MObj) (ns : List Nbr), (∀ r ∈ o.roots, r.length = 48) ∧ (∀ c ∈ o.cells, c.2.1 < 4 ∧ c.2.2.1 < 16) ∧
    (∀ e ∈ o.nbrs.zipIdx.map fun p => folioEntry p.2 p.1, e.length ≤ 248) ∧ (objBytes o).length < 2 ^ 64 ∧ o.roots.length < 2 ^ 32 ∧
    o.cells.length < 2 ^ 32 ∧ (objFaces o).length < 2 ^ 32 ∧ (o.nbrs.zipIdx.map fun p => folioEntry p.2 p.1).length < 2 ^ 32 ∧ o.ghosts.length < 2 ^ 32 ∧
    o.cells ≠ [] ∧ ns.length ≤ 8 ∧ ns ≠ [] := by
  refine ⟨hexObj, [.edge 300], ?_⟩
  decide +kernel

/-- One hexahedron that is to be refined. -/
theorem witness_AdaptedMeshesFollowTheRules : ∃ (cells : List MCell) (nbrs : List (List Nbr)) (flags : List Nat), nbrs = meshNbrs cells ∧
    nbrs.length = cells.length ∧ (∀ c d, c < cells.length → d < cells.length → d ∈ (nbrs.getD c []).flatMap Nbr.cells →
      ((cells[d]?).map MCell.level).getD 0 ≤ ((cells[c]?).map MCell.level).getD 0 + 1) ∧ flags.getD 0 0 = 1 ∧ cells.length = 1 := by
  refine ⟨[hexCell], _, [1], rfl, by decide +kernel, fun c d hc hd _ => ?_, rfl, rfl⟩
  have hc : c < 1 := hc
  have hd : d < 1 := hd
  interval_cases c
  interval_cases d
  omega

theorem withMem_byte (s : State) (a : Nat) (bs : List Byte) (x : Nat) :
    memByte (s.withMem a bs).mem.cells x = if a ≤ x ∧ x < a + bs.length then bs.getD (x - a) 0 else memByte s.mem.cells x := by
  rw [State.withMem, memByte_memWrite, List.getD_eq_getElem?_getD]

/-- Bytes that `withMem` put somewhere stand there. -/
theorem wide_put {s : State} (w : Wide s) {cr : Cred} (hcr : cr.ptbase = 0 ∧ cr.tag = 0) {a : Word} {bs big : List Byte} {apart : Nat → Prop}
    {n : Nat} (hn : n = a.toNat) (hp : bs <+: big) (hk : a.toNat + bs.length ≤ 2 ^ 21) (ha : ∀ o, o < bs.length → ¬ apart ((a.toNat + o) / 64)) :
    HoldsAt (s.withMem n big) 0 cr a bs apart := by
  subst hn
  obtain ⟨t, rfl⟩ := hp
  have w : Wide (s.withMem a.toNat (bs ++ t)) := ⟨w.tlb, w.keyed, w.pois, w.ue⟩
  refine wide_holds w hcr hk (fun o ho => ?_) ha
  rw [withMem_byte, if_pos (by rw [List.length_append]; omega), Nat.add_sub_cancel_left, List.getD_append _ _ _ _ ho]

/-- One page of 2 MiB at 0. -/
def roomy : State := demo.modCore 0 fun k => { k with tlb := [⟨0, 2, 0, 15⟩] }

theorem wide_roomy : Wide roomy := ⟨rfl, rfl, rfl, rfl⟩

/-- MBUILD of the root at 0x200 into 0x1000. -/
def buildRootBlock (len : Nat) : List Byte :=
  natBytes 8 0x800 ++ natBytes 8 0 ++ natBytes 8 0x1000 ++ natBytes 8 len ++ natBytes 8 0x200 ++ natBytes 8 1 ++ List.replicate 16 0

def buildRoot (len : Nat) : TopoCmd := { cutCmd with op := 0, blk := buildRootBlock len, build := [0], mesh := none }

def hexed : State := ({ roomy with meshes := [(0, ⟨false, 0x1000, [], 0⟩)] } : State).withMem 0x200 hexRoot

theorem length_hexObj : (objBytes hexObj).length = 1536 := by decide +kernel

theorem witness_BuildsWriteTheirObjects_build : ∃ (s u : State) (c d : TopoCmd), Settled s 0 ∧ Settled u 0 ∧
    (∀ x ∈ [c, d], x.busy = true ∧ x.met = [] ∧ x.log = [] ∧ x.sheet = [] ∧ x.op = 0 ∧ x.core = 0 ∧ blkNat x.blk 5 = 1 ∧ blkWord x.blk 4 = 0x200#64) ∧
    (HoldsAt s 0 c.cred 0x200#64 [hexRoot].flatten (fun _ => False) ∧ goodRoot hexRoot = true ∧ crowdedFace [hexCell] = false ∧
      (objBytes hexObj).length ≤ blkNat c.blk 3 ∧ blkWord c.blk 2 = 0x1000#64 ∧ TakesAt s 0 c.cred 0x1000#64 (objBytes hexObj).length 0x1000 0) ∧
    blkNat d.blk 3 < (objBytes hexObj).length ∧
    (HoldsAt u 0 c.cred 0x200#64 (List.replicate 48 0) (fun _ => False) ∧ goodRoot (List.replicate 48 0) = false) := by
  refine ⟨hexed, roomy, buildRoot 4096, buildRoot 256, settled_of (by decide +kernel), settled_of (by decide +kernel), by decide +kernel,
    ⟨wide_put ⟨rfl, rfl, rfl, rfl⟩ ⟨rfl, rfl⟩ rfl (by simp) (by decide +kernel) fun _ _ h => h, by decide +kernel, by decide +kernel,
      by rw [length_hexObj]; decide +kernel, by decide +kernel, wide_takes ⟨rfl, rfl, rfl, rfl⟩ ⟨rfl, rfl⟩ rfl (by rw [length_hexObj]; decide) ?_⟩,
    by rw [length_hexObj]; decide +kernel, wide_holds wide_roomy ⟨rfl, rfl⟩ (by decide) (fun o ho => ?_) fun _ _ h => h, by decide +kernel⟩
  · simp [inSealed, hexed, State.withMem]
  · rw [show memByte roomy.mem.cells _ = 0 from rfl, List.getD_eq_getElem?_getD, List.getElem?_replicate, if_pos (by rwa [List.length_replicate] at ho)]
    rfl

/-- That object at 0x2000, with a flag for its cell at 0x2800, and the object that refining it gives. -/
def hexMesh : State := (roomy.withMem 0x2800 [1]).withMem 0x2000 (objBytes hexObj)

def adaptBlock : List Byte :=
  natBytes 8 0x800 ++ natBytes 8 0x2000 ++ natBytes 8 0x3000 ++ natBytes 8 4096 ++ natBytes 8 0x2800 ++ natBytes 8 0x8000 ++ natBytes 8 8 ++ natBytes 8 0

def adaptRoot : TopoCmd := { cutCmd with op := 1, blk := adaptBlock, build := [0] }

def refined : List (MCell × Remap) :=
  let roots := objRoots (objBytes hexObj)
  let cells := objCells (objBytes hexObj)
  let nbrs := meshNbrs cells
  adaptCells cells nbrs (adaptLevels roots cells nbrs [1]) false roots

def refinedBytes : List Byte := objBytes (wholeObj (objRoots (objBytes hexObj)) (refined.map (·.1)))

theorem length_refined : refined.length = 8 ∧ refinedBytes.length = 2048 := by decide +kernel

theorem hexMesh_flag : HoldsAt hexMesh 0 demo.cred 0x2800#64 [1] (fun _ => False) := by
  refine wide_holds ⟨rfl, rfl, rfl, rfl⟩ ⟨rfl, rfl⟩ (by decide) (fun o ho => ?_) fun _ _ h => h
  have ho : o < 1 := ho
  have : o = 0 := by omega
  subst this
  rw [hexMesh, withMem_byte, length_hexObj, if_neg (by decide), withMem_byte]
  decide +kernel

theorem witness_BuildsWriteTheirObjects_adapt : ∃ (s : State) (c : TopoCmd) (hb : List Byte), Settled s 0 ∧
    (c.busy = true ∧ c.met = [] ∧ c.log = [] ∧ c.sheet = [] ∧ c.op = 1 ∧ c.core = 0 ∧ (blkNat c.blk 7 == 1) = false ∧ blkWord c.blk 1 = 0x2000#64 ∧
      blkWord c.blk 4 = 0x2800#64 ∧ blkWord c.blk 2 = 0x3000#64 ∧ blkWord c.blk 5 = 0x8000#64) ∧ hb.length = 256 ∧
    HoldsAt s 0 c.cred 0x2000#64 hb (fun _ => False) ∧ (objBytes hexObj).length = objOff hb 6 ∧
    HoldsAt s 0 c.cred 0x2000#64 (objBytes hexObj) (fun _ => False) ∧ objNcell (objBytes hexObj) = 1 ∧
    HoldsAt s 0 c.cred 0x2800#64 [1] (fun _ => False) ∧
    (refined.length = 8 ∧ refined.length ≤ blkNat c.blk 6 ∧ refinedBytes.length ≤ blkNat c.blk 3 ∧
      TakesAt s 0 c.cred 0x3000#64 refinedBytes.length 0x3000 0 ∧ TakesAt s 0 c.cred 0x8000#64 (16 + 96 * refined.length) 0x8000 0 ∧
      ∀ l ∈ linesOf 0x3000 refinedBytes.length, l ∉ linesOf 0x8000 (16 + 96 * refined.length)) := by
  have w : Wide hexMesh := ⟨rfl, rfl, rfl, rfl⟩
  refine ⟨hexMesh, adaptRoot, (objBytes hexObj).take 256, settled_of (by decide +kernel), by decide +kernel,
    by rw [List.length_take, length_hexObj]; rfl, wide_put ⟨rfl, rfl, rfl, rfl⟩ ⟨rfl, rfl⟩ rfl (List.take_prefix ..) (by rw [List.length_take, length_hexObj]; decide)
      fun _ _ h => h, by rw [length_hexObj]; decide +kernel, wide_put ⟨rfl, rfl, rfl, rfl⟩ ⟨rfl, rfl⟩ rfl (List.prefix_refl _) (by rw [length_hexObj]; decide)
      fun _ _ h => h, by decide +kernel, hexMesh_flag, length_refined.1, by rw [length_refined.1]; decide +kernel, by rw [length_refined.2]; decide +kernel,
    wide_takes w ⟨rfl, rfl⟩ rfl (by rw [length_refined.2]; decide) rfl, wide_takes w ⟨rfl, rfl⟩ rfl (by rw [length_refined.1]; decide) rfl, ?_⟩
  rw [length_refined.1, length_refined.2]
  decide +kernel

/-! The objects of parts, and ghosts. -/

/-- MMIGRATE of `hexMesh`'s object as one part: the part table at 0x2900, the starts at 0x2A00, the source field at 0x2B00. -/
def partTable (p : Nat) : List Byte := natBytes 8 (0x10000 * (p + 1)) ++ natBytes 8 4096 ++ natBytes 8 (0x40000 * (p + 1)) ++ natBytes 8 0

def migBlock (np src : Nat) : List Byte :=
  natBytes 8 0x800 ++ natBytes 8 0x2000 ++ List.replicate 16 0 ++ natBytes 8 0x2A00 ++ natBytes 8 0x2900 ++ natBytes 8 src ++ natBytes 8 (np + 2 ^ 24)

def migrateRoot : TopoCmd := { cutCmd with op := 4, blk := migBlock 1 0x2B00 }

def partHex : MObj × List Nat :=
  partObj (objRoots (objBytes hexObj)) (objCells (objBytes hexObj)) (meshNbrs (objCells (objBytes hexObj))) [0, 1] 0 1

theorem partHex_lengths : (objBytes partHex.1).length = 1536 ∧ partHex.2.length = 1 := by decide +kernel

def migrating : State := ((roomy.withMem 0x2900 (partTable 0)).withMem 0x2A00 (natBytes 4 0 ++ natBytes 4 1)).withMem 0x2000 (objBytes hexObj)

theorem wide_migrating : Wide migrating := ⟨rfl, rfl, rfl, rfl⟩

/-- Bytes below 0x3000 lie on no line that the command writes. -/
theorem migrating_apart {l : Nat} (h : l < 192) : ¬ ∃ k, k < 1 ∧ (l ∈ linesOf 0x10000 1536 ∨ l ∈ linesOf 0x40000 4) := by
  rintro ⟨k, -, x | x⟩ <;> rw [mem_linesOf] at x <;> omega

theorem migrating_byte {x : Nat} (h : 0x2600 ≤ x) : memByte migrating.mem.cells x =
    memByte ((roomy.withMem 0x2900 (partTable 0)).withMem 0x2A00 (natBytes 4 0 ++ natBytes 4 1)).mem.cells x := by
  rw [migrating, withMem_byte, length_hexObj, if_neg (by omega)]

theorem witness_PartsAndGhostsAreCopied_migrate : ∃ (s : State) (c : TopoCmd) (hb tbl : List Byte) (starts : Nat → Nat)
    (apart : Nat → Prop), apart = (fun l => ∃ k, k < 1 ∧ (l ∈ linesOf 0x10000 1536 ∨ l ∈ linesOf 0x40000 4)) ∧ Settled s 0 ∧ hb.length = 256 ∧
    (c.busy = true ∧ c.met = [] ∧ c.log = [] ∧ c.sheet = [] ∧ c.op = 4 ∧ c.core = 0 ∧ blkWord c.blk 1 = 0x2000#64 ∧ blkWord c.blk 4 = 0x2A00#64 ∧
      blkWord c.blk 5 = 0x2900#64 ∧ blkNat c.blk 6 = 0x2B00 ∧ migP (blkNat c.blk 7) = 1 ∧ migNcomp (blkNat c.blk 7) = 1 ∧ migEsz (blkNat c.blk 7) = 4 ∧
      migDepth (blkNat c.blk 7) = 1) ∧ tbl.length = 32 ∧ tbl = partTable 0 ∧ HoldsAt s 0 c.cred 0x2900#64 tbl apart ∧
    HoldsAt s 0 c.cred 0x2000#64 hb apart ∧ (objBytes hexObj).length = objOff hb 6 ∧ HoldsAt s 0 c.cred 0x2000#64 (objBytes hexObj) apart ∧
    (objNcell (objBytes hexObj) = 1 ∧ starts 0 = 0 ∧ starts 1 = 1) ∧
    (∀ k, k ≤ 1 → HoldsAt s 0 c.cred (0x2A00#64 + BitVec.ofNat 64 (4 * k)) (natBytes 4 (starts k)) apart) ∧
    HoldsAt s 0 c.cred 0x2B00#64 [0, 0, 0, 0] apart ∧
    (TakesAt s 0 c.cred 0x10000#64 (objBytes partHex.1).length 0x10000 0 ∧ TakesAt s 0 c.cred 0x40000#64 (partHex.2.length * 1 * 4) 0x40000 0) ∧
    s.meshes = [] := by
  refine ⟨migrating, migrateRoot, (objBytes hexObj).take 256, partTable 0, id, _, rfl, settled_of (by decide +kernel),
    by rw [List.length_take, length_hexObj]; rfl, by decide +kernel, by decide +kernel, rfl,
    wide_holds wide_migrating ⟨rfl, rfl⟩ (by decide +kernel) (fun o ho => ?_) fun o ho => migrating_apart ?_,
    wide_put ⟨rfl, rfl, rfl, rfl⟩ ⟨rfl, rfl⟩ rfl (List.take_prefix ..) (by rw [List.length_take, length_hexObj]; decide) fun o ho => migrating_apart ?_,
    by rw [length_hexObj]; decide +kernel,
    wide_put ⟨rfl, rfl, rfl, rfl⟩ ⟨rfl, rfl⟩ rfl (List.prefix_refl _) (by rw [length_hexObj]; decide) fun o ho => migrating_apart ?_,
    ⟨by decide +kernel, rfl, rfl⟩,
    fun k hk => wide_holds wide_migrating ⟨rfl, rfl⟩ ?_ (fun o ho => ?_) fun o ho => migrating_apart ?_,
    wide_holds wide_migrating ⟨rfl, rfl⟩ (by decide) (fun o ho => ?_) fun o ho => migrating_apart ?_,
    ⟨wide_takes wide_migrating ⟨rfl, rfl⟩ rfl (by rw [partHex_lengths.1]; decide) rfl,
      wide_takes wide_migrating ⟨rfl, rfl⟩ rfl (by rw [partHex_lengths.2]; decide) rfl⟩, rfl⟩
  · have ho : o < 32 := ho
    rw [migrating_byte (Nat.le_add_right_of_le (by decide))]
    interval_cases o <;> decide +kernel
  · have ho : o < 32 := ho
    show (0x2900 + o) / 64 < 192; omega
  · rw [List.length_take, length_hexObj] at ho
    show (0x2000 + o) / 64 < 192; omega
  · rw [length_hexObj] at ho
    show (0x2000 + o) / 64 < 192; omega
  · interval_cases k <;> decide +kernel
  · have ho : o < 4 := by simpa [length_natBytes] using ho
    rw [migrating_byte (by interval_cases k <;> exact Nat.le_add_right_of_le (by decide))]
    interval_cases k <;> interval_cases o <;> decide +kernel
  · have ho : o < 4 := by simpa [length_natBytes] using ho
    interval_cases k <;> interval_cases o <;> decide
  · have ho : o < 4 := ho
    rw [migrating_byte (Nat.le_add_right_of_le (by decide))]
    interval_cases o <;> decide +kernel
  · have ho : o < 4 := ho
    show (0x2B00 + o) / 64 < 192; omega

/-- A second hexahedron on the first one's face +x, and the object of part 0 of the two, which has the second as its ghost. -/
def hexRoot2 : List Byte := natBytes 4 1 ++ [2, 9, 4, 10, 6, 11, 8, 12].flatMap (natBytes 4) ++ List.replicate 12 0

def ghostObj : List Byte :=
  let cells := [hexCell, rootCell hexRoot2 1]
  objBytes (partObj [hexRoot, hexRoot2] cells (meshNbrs cells) [0, 1, 2] 0 1).1

/-- Its header and its one ghost record, at 0x2700 in what follows. -/
def ghostHead : List Byte := ghostObj.take 256

theorem ghostHead_facts : ghostHead.length = 256 ∧ objNghost ghostHead = 1 ∧ objNpart ghostHead = 2 ∧ objPart ghostHead = 0 ∧ objNown ghostHead = 1 ∧
    (ghostObj.drop (objOff ghostHead 5)).take 8 = natBytes 4 0 ++ natBytes 4 1 ∧ objOff ghostHead 5 < 0x800 := by decide +kernel

/-- MGHOST: the table of field places at 0x2A00. -/
def ghostTable : List Byte := partTable 0 ++ partTable 1

def ghostCmd (np : Nat) : TopoCmd := { cutCmd with op := 5, blk := migBlock np 0 }

def ghosting : State :=
  ((roomy.withMem 0x2A00 ghostTable).withMem (0x2000 + objOff ghostHead 5) (natBytes 4 0 ++ natBytes 4 1)).withMem 0x2000 ghostHead

theorem ghost_apart {l : Nat} (h : l < 4096 ∨ 6000 < l) : ¬ l ∈ linesOf 0x40004 4 := by
  rw [mem_linesOf]; omega

theorem witness_PartsAndGhostsAreCopied_ghosts : ∃ (s : State) (c d : TopoCmd) (hb tbl : List Byte) (apart : Nat → Prop),
    apart = (fun l => l ∈ linesOf 0x40004 4) ∧ Settled s 0 ∧ hb.length = 256 ∧
    (∀ x ∈ [c, d], x.busy = true ∧ x.met = [] ∧ x.log = [] ∧ x.sheet = [] ∧ x.op = 5 ∧ x.core = 0 ∧ blkWord x.blk 1 = 0x2000#64 ∧
      blkWord x.blk 4 = 0x2A00#64) ∧ tbl.length = 64 ∧ HoldsAt s 0 c.cred 0x2000#64 hb apart ∧ HoldsAt s 0 c.cred 0x2A00#64 tbl apart ∧
    (migP (blkNat c.blk 7) = 2 ∧ objNpart hb = 2 ∧ objPart hb = 0 ∧ objNghost hb = 1 ∧ objNown hb = 1) ∧
    HoldsAt s 0 c.cred (0x2000#64 + BitVec.ofNat 64 (objOff hb 5) + BitVec.ofNat 64 (8 * 0)) (natBytes 4 0 ++ natBytes 4 1) apart ∧
    (numIn tbl (32 * 1 + 16) 8 = 0x80000 ∧ numIn tbl (32 * 0 + 16) 8 = 0x40000) ∧ HoldsAt s 0 c.cred 0x80000#64 [0, 0, 0, 0] apart ∧
    TakesAt s 0 c.cred 0x40004#64 4 0x40004 0 ∧ migP (blkNat d.blk 7) = 1 := by
  have w : Wide ghosting := ⟨rfl, rfl, rfl, rfl⟩
  have f := ghostHead_facts
  have hoff : 256 ≤ objOff ghostHead 5 := by decide +kernel
  have past : ∀ x, 0x2A00 ≤ x → memByte ghosting.mem.cells x = memByte (roomy.withMem 0x2A00 ghostTable).mem.cells x := fun x hx => by
    rw [ghosting, withMem_byte, f.1, if_neg (by omega), withMem_byte, if_neg]
    simp only [List.length_append, length_natBytes]; omega
  have ha : ∀ o, o < 8 → (0x2000#64 + BitVec.ofNat 64 (objOff ghostHead 5) + BitVec.ofNat 64 (8 * 0)).toNat = 0x2000 + objOff ghostHead 5 := fun o _ => by
    rw [BitVec.toNat_add, BitVec.toNat_add, BitVec.toNat_ofNat, BitVec.toNat_ofNat, BitVec.toNat_ofNat]; omega
  refine ⟨ghosting, ghostCmd 2, ghostCmd 1, ghostHead, ghostTable, _, rfl, settled_of (by decide +kernel), f.1, by decide +kernel, by decide +kernel,
    wide_put ⟨rfl, rfl, rfl, rfl⟩ ⟨rfl, rfl⟩ rfl (List.prefix_refl _) (by rw [f.1]; decide) fun o ho => ghost_apart ?_,
    wide_holds w ⟨rfl, rfl⟩ (by decide +kernel) (fun o ho => ?_) fun o ho => ghost_apart ?_, ⟨by decide +kernel, f.2.2.1, f.2.2.2.1, f.2.1, f.2.2.2.2.1⟩,
    wide_holds w ⟨rfl, rfl⟩ ?_ (fun o ho => ?_) fun o ho => ghost_apart ?_, by decide +kernel,
    wide_holds w ⟨rfl, rfl⟩ (by decide) (fun o ho => ?_) fun o ho => ghost_apart ?_, wide_takes w ⟨rfl, rfl⟩ rfl (by decide) rfl, by decide +kernel⟩
  · rw [f.1] at ho
    show (0x2000 + o) / 64 < 4096 ∨ _; omega
  · have ho : o < 64 := ho
    show memByte _ (0x2A00 + o) = _
    rw [past _ (by omega), withMem_byte, if_pos (by rw [show ghostTable.length = 64 by decide +kernel]; omega), Nat.add_sub_cancel_left]
  · have ho : o < 64 := ho
    show (0x2A00 + o) / 64 < 4096 ∨ _; omega
  · rw [ha 0 (by omega)]; simp only [List.length_append, length_natBytes]; omega
  · have ho : o < 8 := by simpa [length_natBytes] using ho
    rw [ha o ho, ghosting, withMem_byte, f.1, if_neg (by omega), withMem_byte, if_pos (by simp only [List.length_append, length_natBytes]; omega),
      Nat.add_sub_cancel_left]
  · have ho : o < 8 := by simpa [length_natBytes] using ho
    rw [ha o ho]; left; omega
  · have ho : o < 4 := ho
    show memByte _ (0x80000 + o) = _
    rw [past _ (by omega)]
    interval_cases o <;> decide +kernel
  · have ho : o < 4 := ho
    show _ ∨ 6000 < (0x80000 + o) / 64; omega

end Sys2Proof.Machine
end

section
namespace Sys2Proof.Machine

/-! Reads of memory: what they depend on. -/

/-- A host or the device reads the same from two states with the same bytes, keys and ports. -/
theorem physRead_congr {s t : State} (hc : t.mem.cells = s.mem.cells) (hk : t.mem.keyed = s.mem.keyed) (hs : t.keys = s.keys)
    (hp : ∀ p, t.io.port p = s.io.port p) (a n k : Nat) : physRead t a n k = physRead s a n k := by
  have he : encrypted t a = encrypted s a := by simp only [encrypted, inExpander, hp]
  have hb : plainByte t.mem = plainByte s.mem := by
    funext key x; exact plainByte_congr (by rw [hk]) (fun y _ => by rw [hc]) key
  rw [physRead_eq, physRead_eq, he, keyId_congr hs, hb]

/-- What a store did is told by what is read before it and after it. -/
theorem Stores.congr {s t s' t' : State} {pa : Nat} {bs : List Byte} {key : Nat} (h : Stores s t pa bs key)
    (hs : ∀ a n k, physRead s' a n k = physRead s a n k) (ht : ∀ a n k, physRead t' a n k = physRead t a n k) : Stores s' t' pa bs key where
  holds := by rw [ht]; exact h.holds
  beside := fun a ha => by rw [ht, hs]; exact h.beside a ha
  away := fun a k ha => by rw [ht, hs]; exact h.away a k ha

/-! Host memory traffic (R296, R386, R388). -/

theorem portOf_hbm {a : Nat} (h : a < 2 ^ 39) : portOf a = none := by
  rw [portOf, if_neg (by omega), if_neg (by omega)]

theorem homeHas_eq {a n : Nat} (h : 0 < n) : homeHas a n = decide (a + n ≤ 2 ^ 39) := by
  simp only [homeHas, inHbm, ← Bool.decide_and]
  exact decide_eq_decide.mpr (by omega)

/-- The lines of bytes in HBM4E lie in HBM4E. -/
theorem encrypted_linesOf_hbm (s : State) {a n x : Nat} (h : a + n ≤ 2 ^ 39) (hx : x / 64 ∈ linesOf a n) : encrypted s x = encrypted s a := by
  obtain ⟨_, _, _⟩ := mem_linesOf.mp hx
  have hxs : inHbm x = true := by simp only [inHbm, decide_eq_true_eq]; omega
  have has : inHbm a = true := by simp only [inHbm, decide_eq_true_eq]; omega
  simp [encrypted, hxs, has]

/-- A port that holds lines from now on holds each of them. -/
theorem tfind_hold {m : Mem} {port l : Nat} {lines : List Nat} (hl : l ∈ lines) : tfind l (m.hold port lines true).held = some port := by
  have gen : ∀ (ls : List Nat) (h : Tbl Nat), l ∈ ls ∨ tfind l h = some port →
      tfind l (ls.foldl (fun h l => tset l port h) h) = some port := by
    intro ls
    induction ls with
    | nil => simp
    | cons k ks ih =>
      intro h hk
      refine ih _ ?_
      by_cases e : l = k
      · right; rw [e, tfind_tset_same]
      · rw [tfind_tset_ne e]; simpa [e] using hk
  exact gen lines m.held (.inl hl)

/-- The state after a host has said whether it keeps lines. -/
def State.hold (s : State) (port : Nat) (lines : List Nat) (keeps : Bool) : State := { s with mem := s.mem.hold port lines keeps }

@[simp] theorem physRead_hold (s : State) (port : Nat) (lines : List Nat) (keeps : Bool) (a n k : Nat) :
    physRead (s.hold port lines keeps) a n k = physRead s a n k := physRead_congr rfl rfl rfl (fun _ => rfl) a n k

/-- A store that no replica follows changes memory alone. -/
theorem physWrite_alone {s : State} (h : shadowPort s = none) (pa : Nat) (bs : List Byte) (key : Nat) :
    physWrite s pa bs key = { s with mem := (physWrite s pa bs key).mem } := by
  unfold physWrite
  split
  · rfl
  · have h' : ∀ m, shadowPort { s with mem := m } = none := fun _ => h
    simp only [shadowWrite, h']

/-- The occasion is traffic of a port in host mode of a device that has power (R386, R397). -/
def HostReaches (s : State) : Prop := s.io.power ≠ 2 ∧ s.occ.who < 2 ∧ (s.io.port s.occ.who).expander = false

theorem hostReaches_iff (s : State) : HostReaches s ↔ (!reaches s s.occ.who || s.occ.who == 2) = false := by
  by_cases hw : s.occ.who = 2
  · simp [HostReaches, hw]
  · simp [HostReaches, reaches, hw]

/-- Requests that no port in host mode of a device with power brings are as if they had not been made. -/
theorem execHost_unreached {s : State} (h : ¬ HostReaches s) : exec .hostCxlMemRequest s = .next s := by
  have guard := Bool.of_not_eq_false (mt (hostReaches_iff s).mpr h)
  show execHostCxlMemRequest s = _
  simp [execHostCxlMemRequest, guard]

theorem execHost_write {s : State} {bs : List Byte} (h : HostReaches s) (hd : s.occ.data = some bs) (hb : bs ≠ []) :
    exec .hostCxlMemRequest s =
      if s.occ.n + bs.length ≤ 2 ^ 39 then
        if inSealed s s.occ.n bs.length then .next (denyPush s (denyEntry kStore 0 0 0 0 (s.occ.n / 65536)))
        else
          let t := physWrite (s.hold s.occ.who (linesOf s.occ.n bs.length) false) s.occ.n bs 0
          .next (if t.occ.flag then t.hold s.occ.who (linesOf s.occ.n bs.length) true else t)
      else .fault .noMemory := by
  have hl : 0 < bs.length := List.length_pos_iff.mpr hb
  have hn : (bs.length == 0) = false := by simp [hb]
  show execHostCxlMemRequest s = _
  simp only [execHostCxlMemRequest, hd, (hostReaches_iff s).mp h, hn, homeHas_eq hl, Bool.not_eq_true', decide_eq_false_iff_not, ite_not]
  rfl

theorem execHost_read {s : State} (h : HostReaches s) (hd : s.occ.data = none) (hk : s.occ.k ≠ 0) :
    exec .hostCxlMemRequest s =
      if s.occ.n + s.occ.k ≤ 2 ^ 39 then
        let ls := linesOf s.occ.n s.occ.k
        let t := if s.occ.flag then s.hold s.occ.who ls true else s
        .next (t.modIo fun d => { d with
          answers := d.answers ++ [⟨s.occ.who, physRead s s.occ.n s.occ.k 0, ls.filter fun l => physQuality s (64 * l) 64 != .clean⟩] })
      else .fault .noMemory := by
  have hn : (s.occ.k == 0) = false := by simp [hk]
  show execHostCxlMemRequest s = _
  simp only [execHostCxlMemRequest, hd, (hostReaches_iff s).mp h, hn, homeHas_eq (Nat.pos_of_ne_zero hk), Bool.not_eq_true',
    decide_eq_false_iff_not, ite_not]
  rfl

/-- A write of a host to free memory stores its bytes under key slot 0; the host holds the lines from then on where it says so. -/
theorem hostWrite_stores {s : State} {bs : List Byte} (h : HostReaches s) (hd : s.occ.data = some bs) (hb : bs ≠ [])
    (ha : s.occ.n + bs.length ≤ 2 ^ 39) (hs : inSealed s s.occ.n bs.length = false) (hp : shadowPort s = none) :
    Completes .hostCxlMemRequest s (fun t => t = { s with mem := t.mem } ∧ Stores s t s.occ.n bs 0 ∧
      (s.occ.flag = true → ∀ l ∈ linesOf s.occ.n bs.length, tfind l t.mem.held = some s.occ.who)) := by
  have hl : 0 < bs.length := List.length_pos_iff.mpr hb
  let u := s.hold s.occ.who (linesOf s.occ.n bs.length) false
  have hr : Reached u s.occ.n := fun p hp => by rw [portOf_hbm (by omega)] at hp; cases hp
  have st : Stores s (physWrite u s.occ.n bs 0) s.occ.n bs 0 :=
    (stores_physWrite u _ _ 0 hr hb fun x hx => encrypted_linesOf_hbm u ha hx).congr
      (fun a n k => (physRead_hold s _ _ _ a n k).symm) (fun _ _ _ => rfl)
  have al : physWrite u s.occ.n bs 0 = { s with mem := (physWrite u s.occ.n bs 0).mem } := physWrite_alone (s := u) hp _ _ _
  have fl : (physWrite u s.occ.n bs 0).occ.flag = s.occ.flag := by rw [al]
  refine ⟨_, by rw [execHost_write h hd hb, if_pos ha, hs]; rfl, ?_⟩
  change ((if (physWrite u _ bs 0).occ.flag then _ else _) = _) ∧ _
  cases hf : s.occ.flag with
  | true =>
    rw [fl, hf, if_pos rfl]
    refine ⟨?_, st.congr (fun _ _ _ => rfl) fun a n k => physRead_hold _ _ _ _ a n k, fun _ l hl => tfind_hold hl⟩
    rw [State.hold, al]
  | false =>
    rw [fl, hf, if_neg (by simp)]
    exact ⟨al, st, fun h => by cases h⟩

theorem denyEntry_store {frame : Nat} (h : frame < 2 ^ 36) :
    (denyEntry kStore 0 0 0 0 frame).toNat / 2 ^ 61 = 2 ∧ (denyEntry kStore 0 0 0 0 frame).toNat % 2 ^ 36 = frame := by
  simp only [denyEntry, kStore, BitVec.toNat_ofNat]
  omega

/-- A write of a host to a sealed extent is discarded and logged. -/
theorem hostWrite_sealed {s : State} {bs : List Byte} (h : HostReaches s) (hd : s.occ.data = some bs) (hb : bs ≠ [])
    (ha : s.occ.n + bs.length ≤ 2 ^ 39) (hs : inSealed s s.occ.n bs.length = true) (hl : s.denyLost = 0) (hn : s.deny.length < 4096) :
    Completes .hostCxlMemRequest s (fun t => ∃ e, t = { s with deny := s.deny ++ [e] } ∧ e.toNat / 2 ^ 61 = 2 ∧
      e.toNat % 2 ^ 36 = s.occ.n / 65536) := by
  refine ⟨_, by rw [execHost_write h hd hb, if_pos ha, if_pos hs], _, ?_, denyEntry_store (by omega)⟩
  simp [denyPush, hl, hn]

/-- A read of a host is answered with its bytes and its poisoned lines. -/
theorem hostRead_answers {s : State} (h : HostReaches s) (hd : s.occ.data = none) (hk : s.occ.k ≠ 0) (ha : s.occ.n + s.occ.k ≤ 2 ^ 39) :
    Completes .hostCxlMemRequest s (fun t => ∃ x : HostAnswer,
      t = { s with mem := t.mem, io := { s.io with answers := s.io.answers ++ [x] } } ∧ x.port = s.occ.who ∧
      x.data = physRead s s.occ.n s.occ.k 0 ∧
      (∀ l, l ∈ x.poisoned ↔ l ∈ linesOf s.occ.n s.occ.k ∧ physQuality s (64 * l) 64 ≠ .clean) ∧ (s.occ.flag = false → t.mem = s.mem) ∧
      (s.occ.flag = true → t.mem = { s.mem with held := t.mem.held } ∧
        ∀ l ∈ linesOf s.occ.n s.occ.k, tfind l t.mem.held = some s.occ.who)) := by
  refine ⟨_, by rw [execHost_read h hd hk, if_pos ha],
    ⟨s.occ.who, physRead s s.occ.n s.occ.k 0, (linesOf s.occ.n s.occ.k).filter fun l => physQuality s (64 * l) 64 != .clean⟩,
    ?_, rfl, rfl, fun l => by simp, ?_⟩
  · cases s.occ.flag <;> rfl
  · cases s.occ.flag with
    | true => exact ⟨fun h => (by cases h), fun _ => ⟨rfl, fun l hl => tfind_hold hl⟩⟩
    | false => exact ⟨fun _ => rfl, fun h => (by cases h)⟩

end Sys2Proof.Machine
end

section
namespace Sys2Proof.Machine

/-! Ports, bring-up, power and attestation (R387, R388, R395 to R397). -/

/-- The event gives the I/O die the value x, and changes nothing else. -/
def SetsIo (i : Instr) (s : State) (x : IoDie) : Prop := Completes i s (fun t => t = { s with io := x })

/-- An event that answers a state which differs in the I/O die alone. -/
theorem setsIo_of {i : Instr} {s : State} {x : IoDie} (h : exec i s = .next { s with io := x }) : SetsIo i s x := ⟨_, h, rfl⟩

theorem noneResident_iff (s : State) : noneResident s = true ↔ s.gangs = [] := List.isEmpty_iff

theorem readTimeout_isolates {s : State} (he : (s.io.port (s.occ.n % 2)).expander = true) (hi : (s.io.port (s.occ.n % 2)).iso = false)
    (hf : s.occ.flag = false) :
    SetsIo .expanderReadTimeout s (s.io.setPort (s.occ.n % 2) { s.io.port (s.occ.n % 2) with iso := true }) := by
  refine setsIo_of ?_
  show execExpanderReadTimeout s = _
  simp [execExpanderReadTimeout, he, hi, hf, State.modIo]

theorem linkUp_sets {s : State} (h : s.io.power ≠ 2) :
    SetsIo .cxlLinkUp s (s.io.setPort (s.occ.n % 2) { s.io.port (s.occ.n % 2) with link := true }) := by
  refine setsIo_of ?_
  show execCxlLinkUp s = _
  simp [execCxlLinkUp, h, State.modIo]

theorem deviceReset_resets (s : State) : Completes .deviceReset s (fun t =>
    t = { State.reset with mem := { s.mem with held := [], recalls := [] }, io := t.io, agenda := s.agenda, fresh := s.fresh, serial := s.serial } ∧
    t.io = { State.reset.io with port0 := ⟨s.occ.flag, false, false⟩, port1 := ⟨s.occ.flag2, false, false⟩, code := t.io.code } ∧
    (t.io.code = 3 ↔ s.occ.flag = true ∧ s.occ.flag2 = true) ∧ (t.io.code = 3 ∨ t.io.code = 0)) := by
  refine ⟨resetDevice s s.occ.flag s.occ.flag2, rfl, rfl, rfl, ?_⟩
  show ((if (s.occ.flag && s.occ.flag2) = true then 3 else 0) = 3 ↔ _) ∧ ((if _ then 3 else 0) = 3 ∨ (if _ then 3 else 0) = 0)
  cases s.occ.flag <;> cases s.occ.flag2 <;> decide

/-- The boot ROM's checks of a package: it holds a whole key and a whole signature, the key is the one of the fuses, and the signature
over the image holds. -/
theorem imageHolds_package (p : List Byte) :
    imageHolds (p.take 64) ((p.drop 64).take 29792) (p.drop 29856) = true ↔
      29856 ≤ p.length ∧ bytesNat (shake256 32 (p.take 64)) = Config.keyDigest ∧
        Config.slhVerify (p.take 64) ((p.drop 64).take 29792) (p.drop 29856) = true := by
  have hl : (p.take 64).length = 64 ∧ ((p.drop 64).take 29792).length = 29792 ↔ 29856 ≤ p.length := by
    rw [List.length_take, List.length_take, List.length_drop]; omega
  rw [imageHolds, Bool.and_eq_true, Bool.and_eq_true, Bool.and_eq_true, beq_iff_eq, beq_iff_eq, beq_iff_eq, and_assoc, and_assoc,
    ← and_assoc, hl]

theorem measure_one (p : Nat) (bs : List Byte) (mrs : List (List Byte)) :
    measure [p] bs mrs = lset (p % 8) (extendMr (mrs.getD (p % 8) []) (bs.take (p / 8))) mrs := rfl

/-- Stage 1, with the attestation key of this boot and what the firmware has measured (R396). -/
def State.verified (s : State) (mrs : List (List Byte)) : State :=
  { s with io := { s.io with stage := 1, attest := (Config.freeValue s.fresh).toNat, mrs := mrs }, fresh := s.fresh + 1 }

theorem exec_firmwareVerify {s : State} (h0 : s.io.stage = 0) (hc : s.io.code = 0) (hp : s.io.power = 0) :
    let package := s.occ.data.getD []
    exec .firmwareVerify s = .next (
      if imageHolds (package.take 64) ((package.drop 64).take 29792) (package.drop 29856) then
        s.verified (measure s.occ.env.parts s.occ.env.data s.io.mrs)
      else s.modIo fun d => { d with code := 1 }) := by
  intro package
  show execFirmwareVerify s = _
  simp only [execFirmwareVerify, h0, hc, hp]
  generalize imageHolds _ _ _ = b
  cases b <;> rfl

/-- An image whose key and signature hold is measured; another leaves stage 0 with CODE 1. -/
theorem firmwareVerify_measures {s : State} (h0 : s.io.stage = 0) (hc : s.io.code = 0) (hp : s.io.power = 0) :
    let package := s.occ.data.getD []
    let holds := 29856 ≤ package.length ∧ bytesNat (shake256 32 (package.take 64)) = Config.keyDigest ∧
      Config.slhVerify (package.take 64) ((package.drop 64).take 29792) (package.drop 29856) = true
    let verified (t : State) (mrs : List (List Byte)) : Prop :=
      t = { s with io := { s.io with stage := 1, attest := t.io.attest, mrs := mrs }, fresh := s.fresh + 1 }
    Completes .firmwareVerify s (fun t => (¬ holds → t = { s with io := { s.io with code := 1 } }) ∧
      (holds → s.occ.env.parts = [] → verified t s.io.mrs) ∧ (∀ p, holds → s.occ.env.parts = [p] → verified t (lset (p % 8)
        (shake256 64 (s.io.mrs.getD (p % 8) [] ++ shake256 64 (s.occ.env.data.take (p / 8)))) s.io.mrs))) := by
  intro package holds verified
  have hh := imageHolds_package package
  refine ⟨_, exec_firmwareVerify h0 hc hp, fun hn => ?_, fun hy he => ?_, fun p hy he => ?_⟩
  · rw [if_neg (fun e => hn (hh.mp e))]; rfl
  · rw [if_pos (hh.mpr hy), he]; rfl
  · rw [if_pos (hh.mpr hy), he, measure_one]; rfl

theorem fullRateTraining_sets {s : State} (h2 : s.io.stage = 2) (hc : s.io.code = 0) :
    (s.occ.flag = true → SetsIo .fullRateTrainingComplete s { s.io with trained := s.io.trained ||| (s.occ.n % 256) }) ∧
    (s.occ.flag = false → SetsIo .fullRateTrainingComplete s { s.io with trained := 255, admitPaused := true }) := by
  refine ⟨fun hf => setsIo_of ?_, fun hf => setsIo_of ?_⟩
  all_goals
    show execFullRateTrainingComplete s = _
    simp [execFullRateTrainingComplete, h2, hc, hf, State.modIo]

theorem reducedServiceStart_sets {s : State} (h1 : s.io.stage = 1) (hc : s.io.code = 0) :
    SetsIo .reducedServiceStart s { s.io with stage := 2, clock := 8, hbmFull := false } := by
  refine setsIo_of ?_
  show execReducedServiceStart s = _
  rw [execReducedServiceStart, if_pos ⟨h1, hc⟩]
  rfl

theorem hbmTrainingFailed_sets {s : State} (h : s.io.stage = 1 ∨ s.io.stage = 2) :
    SetsIo .hbmTrainingFailed s { s.io with code := 2 } := by
  refine setsIo_of ?_
  show execHbmTrainingFailed s = _
  rw [execHbmTrainingFailed, if_pos h]
  rfl

theorem fullServiceStart_sets {s : State} (h2 : s.io.stage = 2) (hc : s.io.code = 0) (ht : s.io.trained = 255)
    (hp : s.io.admitPaused = true) (hg : ¬ s.gangs ≠ []) :
    SetsIo .fullServiceStart s { s.io with stage := 3, clock := 16, hbmFull := true, admitPaused := false } := by
  refine setsIo_of ?_
  show execFullServiceStart s = _
  rw [execFullServiceStart, if_pos ⟨h2, ht, hp, hc, (noneResident_iff s).mpr (not_not.mp hg)⟩]
  rfl

theorem fullServiceStart_waits {s : State} (hg : s.gangs ≠ []) : SetsIo .fullServiceStart s s.io := by
  refine setsIo_of ?_
  show execFullServiceStart s = _
  rw [execFullServiceStart, if_neg fun h => hg ((noneResident_iff s).mp h.2.2.2.2)]

theorem throttle_slows (s : State) :
    SetsIo .powerLimitThrottle s { s.io with clock := max 8 (s.io.clock - 1) } ∧
    SetsIo .thermalThrottle s { s.io with clock := max 8 (s.io.clock - 1) } := ⟨setsIo_of rfl, setsIo_of rfl⟩

theorem d3hotEntry_sets {s : State} (h : s.io.power = 0) (hg : ¬ s.gangs ≠ []) : SetsIo .d3hotEntry s { s.io with power := 1 } := by
  refine setsIo_of ?_
  show execD3hotEntry s = _
  rw [execD3hotEntry, if_pos ⟨h, (noneResident_iff s).mpr (not_not.mp hg)⟩]
  rfl

theorem d3hotEntry_waits {s : State} (hg : s.gangs ≠ []) : SetsIo .d3hotEntry s s.io := by
  refine setsIo_of ?_
  show execD3hotEntry s = _
  rw [execD3hotEntry, if_neg fun h => hg ((noneResident_iff s).mp h.2)]

theorem d3hotExit_sets {s : State} (h : s.io.power = 1) : SetsIo .d3hotExit s { s.io with power := 0 } := by
  refine setsIo_of ?_
  show execD3hotExit s = _
  rw [execD3hotExit, if_pos h]
  rfl

theorem powerRemoval_loses (s : State) : Completes .powerRemoval s (fun t =>
    t = { State.reset with mem := t.mem, io := { State.reset.io with power := 2 }, agenda := s.agenda, fresh := s.fresh, serial := s.serial } ∧
    ∀ a, memByte t.mem.cells a = if 2 ^ 42 ≤ a ∧ a < 3 * 2 ^ 42 then memByte s.mem.cells a else 0) := by
  refine ⟨_, rfl, rfl, fun a => ?_⟩
  have hp : (portOf a).isSome = true ↔ 2 ^ 42 ≤ a ∧ a < 3 * 2 ^ 42 := by
    unfold portOf
    split <;> [skip; split] <;> simp <;> omega
  show memByte (s.mem.cells.filter fun c => (portOf c.1).isSome) a = _
  rw [memByte, tget, tfind_filter a (fun x => (portOf x).isSome), ite_cond_congr (propext hp), memByte, tget]
  split <;> rfl

theorem natBytes_mod (n v : Nat) : natBytes n (v % 256 ^ n) = natBytes n v := by
  induction n generalizing v with
  | zero => rfl
  | succ n ih =>
    have h1 : BitVec.ofNat 8 (v % 256 ^ (n + 1)) = BitVec.ofNat 8 v := by
      apply BitVec.eq_of_toNat_eq
      rw [BitVec.toNat_ofNat, BitVec.toNat_ofNat]
      exact Nat.mod_mod_of_dvd v ⟨256 ^ n, by rw [Nat.pow_succ']⟩
    rw [natBytes, natBytes, h1, Nat.pow_succ', Nat.mod_mul_right_div_self, ih]

theorem wordBytes_ofNat (v : Nat) : wordBytes (BitVec.ofNat 64 v) = natBytes 8 v := by
  rw [wordBytes, BitVec.toNat_ofNat]; exact natBytes_mod 8 v

theorem quoted_eq (d : IoDie) (nonce : BitVec 256) (port : Nat) :
    quoted d nonce port =
      natBytes 32 nonce.toNat ++ d.mrs.flatten ++ natBytes 8 (d.trained * 2 ^ 16 + d.code * 2 ^ 8 + d.stage) ++ natBytes 1 port := by
  rw [quoted, IoDie.serviceLevel, wordBytes_ofNat]; rfl

theorem attestationQuote_sets {s : State} (h0 : s.io.stage ≠ 0) (hp : s.io.power ≠ 2)
    (hw : s.occ.who = 2 ∨ (s.occ.who < 2 ∧ (s.io.port s.occ.who).expander = false)) (signed : List Byte)
    (hs : signed = quoted s.io s.occ.nonce s.fab.idtab.port) :
    SetsIo .attestationQuote s { s.io with
      mbox := natBytes 32 s.occ.nonce.toNat ++ natBytes 49856 (Config.sign s.io.attest signed) ++
        Config.attestCert s.io.attest ++ Config.identityCert } := by
  have hr : reaches s s.occ.who = true := by simpa [reaches, hp] using hw
  subst hs
  refine setsIo_of ?_
  show execAttestationQuote s = _
  rw [execAttestationQuote, if_neg (by simp [h0, hr])]
  rfl

end Sys2Proof.Machine
end

section
namespace Sys2Proof.Machine

/-! What the device's own stores change (R335). -/

/-- Two states that differ in memory and in the fabric alone. -/
def OnlyStores (s t : State) : Prop := t = { s with mem := t.mem, fab := t.fab }

theorem OnlyStores.refl (s : State) : OnlyStores s s := rfl

theorem OnlyStores.cores {s t : State} (h : OnlyStores s t) : t.cores = s.cores := by
  unfold OnlyStores at h
  rw [h]

theorem OnlyStores.trans {s t u : State} (h : OnlyStores s t) (k : OnlyStores t u) : OnlyStores s u := by
  unfold OnlyStores at *
  rw [h] at k
  exact k

theorem OnlyStores.foldl {α : Type} {f : State → α → State} (h : ∀ s x, OnlyStores s (f s x)) (l : List α) (s : State) :
    OnlyStores s (l.foldl f s) :=
  List.foldlRecOn l f (.refl s) fun t k x _ => k.trans (h t x)

theorem onlyStores_mem (s : State) (m : Mem) : OnlyStores s { s with mem := m } := rfl

theorem onlyStores_shadowWrite (s : State) (pa slot : Nat) (bs : List Byte) (p : Bool) : OnlyStores s (shadowWrite s pa slot bs p) := by
  unfold OnlyStores
  rw [shadowWrite_device]

theorem onlyStores_physWrite (s : State) (pa : Nat) (bs : List Byte) (slot : Nat) : OnlyStores s (physWrite s pa bs slot) := by
  unfold physWrite
  split
  · exact .refl s
  · exact (onlyStores_mem s _).trans (onlyStores_shadowWrite _ _ _ _ _)

theorem onlyStores_physPoison (s : State) (pa n slot : Nat) : OnlyStores s (physPoison s pa n slot) := by
  unfold physPoison
  split
  · exact .refl s
  · simp only []
    split
    · exact onlyStores_mem s _
    · exact (onlyStores_mem s _).trans (.foldl (fun _ _ => onlyStores_shadowWrite _ _ _ _ _) _ _)

theorem onlyStores_storeOwn (s : State) (pa : Nat) (bs : List Byte) (slot : Nat) : OnlyStores s (storeOwn s pa bs slot) := by
  unfold storeOwn
  split
  · exact onlyStores_physWrite _ _ _ _
  · exact .foldl (fun _ _ => onlyStores_physWrite _ _ _ _) _ _

theorem onlyStores_pullLine (s : State) (ptkey key recAt newf oldf va : Nat) : OnlyStores s (pullLine s ptkey key recAt newf oldf va) := by
  unfold pullLine
  simp only []
  split
  · exact .refl s
  · refine .trans ?_ (onlyStores_storeOwn _ _ _ _)
    split
    · exact onlyStores_storeOwn s _ _ _
    · exact (onlyStores_storeOwn s _ _ _).trans (onlyStores_physPoison _ _ _ _)

/-- A look at the page tables changes the core's cached leaves alone. -/
theorem lookup_cores (s : State) (core : Nat) (c : Cred) (va : Nat) : { (lookup s core c va).2 with cores := s.cores } = s := by
  unfold lookup
  split
  · rfl
  · split <;> rfl

/-- After its look at the page tables a translation stores what its pull of a line stores, and nothing else. -/
theorem onlyStores_translate (s : State) (core : Nat) (c : Cred) (va : Nat) (acc : Acc) (pull : Bool) :
    OnlyStores (lookup s core c va).2 (translate s core c va acc pull).2 := by
  unfold translate
  obtain ⟨_ | _, u⟩ := lookup s core c va
  · exact .refl u
  · simp only []
    repeat' split
    any_goals exact .refl u
    all_goals exact onlyStores_pullLine u _ _ _ _ _ _

theorem OnlyStores.setCores {s t : State} (h : OnlyStores s t) (k : Tbl Core) : OnlyStores { s with cores := k } { t with cores := k } := by
  unfold OnlyStores at *
  rw [h]

theorem onlyStores_locate (s : State) (core : Nat) (c : Cred) (a : Word) (acc : Acc) (pull : Bool) :
    OnlyStores s { (locate s core c a acc pull).2 with cores := s.cores } := by
  unfold locate
  split
  · exact .refl s
  · exact .refl s
  · next va _ =>
    have h := (onlyStores_translate s core c va acc pull).setCores s.cores
    rw [lookup_cores] at h
    generalize translate s core c va acc pull = r at *
    obtain ⟨_ | _, u⟩ := r <;> exact h

theorem onlyStores_sendHeld (s : State) (r : Replay) : OnlyStores s (sendHeld s r) := by
  unfold OnlyStores
  rw [sendHeld_device]

theorem onlyStores_sendWrite (s : State) (owner : Option Tid) (stream tag pa key : Nat) (bs : List Byte) (poisoned more : Bool) :
    OnlyStores s (sendWrite s owner stream tag pa key bs poisoned more) := by
  have h : ∀ (cut : Bool) (r q : Replay) (c : Prop) [Decidable c], OnlyStores s
      (if !cut then sendHeld s r else if c then { s with fab := { s.fab with replay := s.fab.replay ++ [q] } } else s) := by
    intro cut r q c _
    split <;> [skip; split]
    · exact onlyStores_sendHeld _ _
    · exact .refl _
    · exact .refl _
  exact h _ _ _ _

theorem onlyStores_deviceStore (s : State) (core : Nat) (c : Cred) (va w : Word) (virt : Bool) :
    OnlyStores s (deviceStore s core c va w virt).2 := by
  have h : OnlyStores s { (if isVirt va || !virt then locate s core c va .st true else (.fault 5, s) : Loc × State).2 with cores := s.cores } := by
    split
    · exact onlyStores_locate _ _ _ _ _ _
    · exact .refl s
  unfold deviceStore
  generalize (if isVirt va || !virt then locate s core c va .st true else (.fault 5, s) : Loc × State) = r at *
  obtain ⟨_ | _ | _ | _, u⟩ := r
  case here =>
    refine h.trans ?_
    simp only []
    split
    · exact .refl _
    · split
      · split
        · exact .refl _
        · exact onlyStores_physWrite _ _ _ _
      · exact onlyStores_physWrite _ _ _ _
  case far =>
    refine h.trans ?_
    simp only []
    split <;> dsimp only
    · exact .refl _
    · exact onlyStores_sendWrite _ _ _ _ _ _ _ _ _
  case denied => exact h
  case fault => exact h

/-- A completion word changes memory, the fabric, a queue's lost word and the deny log. -/
theorem writeCw_device (s : State) (q : Nat) (r : Rec) (w : Word) :
    writeCw s q r w = { s with
      mem := (writeCw s q r w).mem, fab := (writeCw s q r w).fab, queues := (writeCw s q r w).queues
      deny := (writeCw s q r w).deny, denyLost := (writeCw s q r w).denyLost } := by
  have h := onlyStores_deviceStore s 0 r.cred r.cw w true
  unfold writeCw
  generalize deviceStore s 0 r.cred r.cw w true = d at *
  obtain ⟨x, t⟩ := d
  change t = _ at h
  split
  · rfl
  · cases x
    case ok => simp only []; rw [h]
    case denied f =>
      simp only []
      rw [h]
      unfold denyPush
      simp only []
      repeat' split
      all_goals rfl
    case faulted => simp only []; rw [h]; rfl
    case lost => simp only []; rw [h]; rfl

end Sys2Proof.Machine
end

section
namespace Sys2Proof.Machine

/-! Tables under an update of their values. -/

theorem tfind_map_values {α : Type} {f : Nat × α → Nat × α} (hf : ∀ p, (f p).1 = p.1) (k : Nat) (t : Tbl α) :
    tfind k (t.map f) = (tfind k t).map fun v => (f (k, v)).2 := by
  induction t with
  | nil => rfl
  | cons p t ih =>
    obtain ⟨j, v⟩ := p
    have h1 : f (j, v) = (j, (f (j, v)).2) := Prod.ext (hf _) rfl
    rw [List.map_cons, h1, tfind, tfind, ih]
    split
    · next e => subst e; rfl
    · rfl

theorem tfind_tdel {α : Type} (j k : Nat) (t : Tbl α) : tfind j (tdel k t) = if j = k then none else tfind j t := by
  split
  · next e => rw [e, tfind_tdel_same]
  · next e => exact tfind_tdel_ne e t

theorem mem_of_mem_tdel {α : Type} {k : Nat} {t : Tbl α} {p : Nat × α} (h : p ∈ tdel k t) : p ∈ t := by
  induction t with
  | nil => exact h
  | cons q t ih =>
    obtain ⟨j, v⟩ := q
    rw [tdel] at h
    split at h
    · exact List.mem_cons_of_mem _ (ih h)
    · rcases List.mem_cons.mp h with e | h
      · exact e ▸ List.mem_cons_self
      · exact List.mem_cons_of_mem _ (ih h)

theorem tdel_of_absent {α : Type} {k : Nat} {t : Tbl α} (h : k ∉ t.map (·.1)) : tdel k t = t := by
  induction t with
  | nil => rfl
  | cons q t ih =>
    obtain ⟨j, v⟩ := q
    simp only [List.map_cons, List.mem_cons, not_or] at h
    rw [tdel, if_neg (Ne.symm h.1), ih h.2]

/-! What the killing of a gang changes of the gangs, the invocations and the I/O die (R334, R338, R398). -/

/-- Two states with the same gangs, invocations and I/O die. -/
structure SameBooks (s t : State) : Prop where
  gangs : t.gangs = s.gangs
  entries : t.entries = s.entries
  io : t.io = s.io

theorem SameBooks.refl (s : State) : SameBooks s s := ⟨rfl, rfl, rfl⟩

theorem SameBooks.trans {s t u : State} (h : SameBooks s t) (k : SameBooks t u) : SameBooks s u :=
  ⟨k.gangs.trans h.gangs, k.entries.trans h.entries, k.io.trans h.io⟩

theorem SameBooks.foldl {α : Type} {f : State → α → State} (h : ∀ s x, SameBooks s (f s x)) (l : List α) (s : State) :
    SameBooks s (l.foldl f s) :=
  List.foldlRecOn l f (.refl s) fun t k x _ => k.trans (h t x)

theorem OnlyStores.books {s t : State} (h : OnlyStores s t) : SameBooks s t := by
  unfold OnlyStores at h
  rw [h]
  exact ⟨rfl, rfl, rfl⟩

theorem sameBooks_abortHead (s : State) (c : TopoCmd) : SameBooks s (abortHead s c) := by
  unfold abortHead
  split
  · exact (onlyStores_deviceStore _ _ _ _ _ _).books.trans (onlyStores_deviceStore _ _ _ _ _ _).books
  · exact .refl s

theorem sameBooks_abortWord (s : State) (c : TopoCmd) : SameBooks s (abortWord s c) :=
  have h := (onlyStores_deviceStore s c.core c.cred (blkWord c.blk 0) (statusWord false 0 stAborted) false).books
  ⟨h.gangs, h.entries, h.io⟩

theorem sameBooks_abortTopo (s : State) (ctxn : Nat) : SameBooks s (abortTopo s ctxn) := by
  unfold abortTopo
  simp only []
  refine .trans ?_ (.foldl sameBooks_abortWord _ _)
  have h := SameBooks.foldl sameBooks_abortHead
    (s.topos.flatMap fun p => (p.2.queue ++ p.2.running).filter fun c => c.tid.ctxn == ctxn) s
  exact ⟨h.gangs, h.entries, h.io⟩

theorem freeStalled_device (s : State) (ctxn : Nat) : freeStalled s ctxn = { s with meshes := (freeStalled s ctxn).meshes } := by
  unfold freeStalled
  simp only []
  split <;> rfl

/-- What a triad gives back. -/
theorem dropTriad_device (s : State) (ctxn : Nat) : dropTriad s ctxn = { s with
    tiles := (dropTriad s ctxn).tiles, meshes := (dropTriad s ctxn).meshes, cores := (dropTriad s ctxn).cores
    triads := (dropTriad s ctxn).triads, slots := (dropTriad s ctxn).slots, fab := (dropTriad s ctxn).fab } := by
  have hd := freeStalled_device (releaseTiles s ctxn) ctxn
  unfold dropTriad
  generalize freeStalled (releaseTiles s ctxn) ctxn = u at *
  rw [hd]
  rfl

theorem sameBooks_dropTriad (s : State) (ctxn : Nat) : SameBooks s (dropTriad s ctxn) := by
  rw [dropTriad_device]
  exact ⟨rfl, rfl, rfl⟩

theorem sameBooks_writeCw (s : State) (q : Nat) (r : Rec) (w : Word) : SameBooks s (writeCw s q r w) := by
  rw [writeCw_device]
  exact ⟨rfl, rfl, rfl⟩

theorem sameBooks_wdogSettle (s : State) (q : Nat) : SameBooks s (wdogSettle s q) := by
  unfold wdogSettle
  split <;> exact ⟨rfl, rfl, rfl⟩

theorem sameBooks_releaseCells (s : State) (core gang : Nat) : SameBooks s (releaseCells s core gang) := ⟨rfl, rfl, rfl⟩

/-- The end of an invocation takes its entry away, where it comes about, and leaves every gang. -/
theorem finishInvocation_books (s : State) (e : Nat) : (finishInvocation s e).gangs = s.gangs ∧ (finishInvocation s e).io = s.io ∧
    ((finishInvocation s e).entries = s.entries ∨ (finishInvocation s e).entries = tdel e s.entries) := by
  unfold finishInvocation
  split
  · exact ⟨rfl, rfl, .inl rfl⟩
  · next v _ =>
    simp only []
    split
    · have h := sameBooks_writeCw s v.queue v.rcd
        (statusWord false v.retired (if v.killedGangs ≠ 0 ∨ v.dropped then stKilled else topStatus v.fills))
      split <;> exact ⟨h.gangs, h.io, .inr (congrArg (tdel e) h.entries)⟩
    · exact ⟨rfl, rfl, .inl rfl⟩

/-- An entry that is free stays free when an invocation ends. -/
theorem finishInvocation_absent {s : State} {k : Nat} (h : tfind k s.entries = none) (e : Nat) :
    tfind k (finishInvocation s e).entries = none := by
  obtain ⟨-, -, he | he⟩ := finishInvocation_books s e
  · rwa [he]
  · rw [he, tfind_tdel, h, ite_self]

end Sys2Proof.Machine
end

section
namespace Sys2Proof.Machine

/-! What the killing of a gang leaves alone, where no topology command is in flight (R308, R334). -/

/-- No topology engine has a command. -/
def State.Idle (s : State) : Prop := ∀ p ∈ s.topos, p.2.queue = [] ∧ p.2.running = []

/-- From s to t nothing changed on which it rests whether the device can write a completion word, and what memory reads: memory, keys,
ports and the cached leaves of core 0 are as they were, no mesh entry is new, no engine has a new command, and no invocation has a new
write to wait for. -/
structure Quiet (s t : State) : Prop where
  mem : t.mem = s.mem
  keys : t.keys = s.keys
  io : t.io = s.io
  tlb : (t.core 0).tlb = (s.core 0).tlb
  meshes : ∀ p ∈ t.meshes, p ∈ s.meshes
  idle : s.Idle → t.Idle
  unwritten : ∀ e, s.Unwritten e → t.Unwritten e

theorem Quiet.refl (s : State) : Quiet s s := ⟨rfl, rfl, rfl, rfl, fun _ h => h, id, fun _ => id⟩

theorem Quiet.trans {s t u : State} (h : Quiet s t) (k : Quiet t u) : Quiet s u where
  mem := k.mem.trans h.mem
  keys := k.keys.trans h.keys
  io := k.io.trans h.io
  tlb := k.tlb.trans h.tlb
  meshes := fun p hp => h.meshes p (k.meshes p hp)
  idle := fun i => k.idle (h.idle i)
  unwritten := fun e i => k.unwritten e (h.unwritten e i)

theorem Quiet.foldl {α : Type} {f : State → α → State} (h : ∀ s x, s.Idle → Quiet s (f s x)) (l : List α) {s : State} (hs : s.Idle) :
    Quiet s (l.foldl f s) :=
  List.foldlRecOn l f (.refl s) fun t k x _ => k.trans (h t x (k.idle hs))

theorem Quiet.physRead {s t : State} (h : Quiet s t) (a n k : Nat) : physRead t a n k = physRead s a n k :=
  physRead_congr (by rw [h.mem]) (by rw [h.mem]) h.keys (fun _ => by rw [h.io]) a n k

theorem Quiet.unsealed {s t : State} (h : Quiet s t) {pa n : Nat} (hs : inSealed s pa n = false) : inSealed t pa n = false := by
  simp only [inSealed, List.any_eq_false] at *
  exact fun p hp => hs p (h.meshes p hp)

/-- A change of a core that keeps its cached leaves. -/
theorem tlb_of_tset {s t : State} {c : Nat} {k : Core} (ht : t.cores = tset c k s.cores) (hk : k.tlb = (s.core c).tlb) (x : Nat) :
    (t.core x).tlb = (s.core x).tlb := by
  rw [State.core, ht, tget_tset]
  split
  · next e => rw [hk, e]
  · rfl

theorem quiet_releaseCells (s : State) (core gang : Nat) : Quiet s (releaseCells s core gang) where
  mem := rfl
  keys := rfl
  io := rfl
  tlb := by
    refine tlb_of_tset (s := s) (ht := rfl) ?_ 0
    rfl
  meshes := fun _ h => h
  idle := id
  unwritten := fun _ => id

theorem quiet_wdogSettle (s : State) (q : Nat) : Quiet s (wdogSettle s q) := by
  unfold wdogSettle
  split
  · exact ⟨rfl, rfl, rfl, rfl, fun _ h => h, id, fun _ => id⟩
  · exact .refl s

/-- Without a command there is none to abort. -/
theorem quiet_abortTopo {s : State} (hs : s.Idle) (ctxn : Nat) : Quiet s (abortTopo s ctxn) := by
  have none : (s.topos.flatMap fun p => (p.2.queue ++ p.2.running).filter fun c => c.tid.ctxn == ctxn) = [] :=
    List.flatMap_eq_nil_iff.mpr fun p hp => by rw [(hs p hp).1, (hs p hp).2]; rfl
  unfold abortTopo
  simp only [none, List.foldl_nil, List.filter_nil]
  refine ⟨rfl, rfl, rfl, rfl, fun _ h => h, fun _ p hp => ?_, fun _ => id⟩
  obtain ⟨q, hq, rfl⟩ := List.mem_map.mp hp
  simp [hs q hq]

theorem mem_foldl_tdel {α : Type} (es : List Nat) {m : Tbl α} {p : Nat × α} (h : p ∈ es.foldl (fun m e => tdel e m) m) : p ∈ m := by
  induction es generalizing m with
  | nil => exact h
  | cons e es ih => exact mem_of_mem_tdel (ih h)

theorem mem_meshes_freeStalled {s : State} {ctxn : Nat} {p : Nat × MeshEnt} (h : p ∈ (freeStalled s ctxn).meshes) : p ∈ s.meshes := by
  unfold freeStalled at h
  simp only [] at h
  split at h
  · exact h
  · exact mem_foldl_tdel _ h

theorem quiet_dropTriad (s : State) (ctxn : Nat) : Quiet s (dropTriad s ctxn) := by
  have hm : ∀ p ∈ (freeStalled (releaseTiles s ctxn) ctxn).meshes, p ∈ s.meshes := fun p hp =>
    mem_meshes_freeStalled (s := releaseTiles s ctxn) hp
  have hd := freeStalled_device (releaseTiles s ctxn) ctxn
  unfold dropTriad
  generalize freeStalled (releaseTiles s ctxn) ctxn = u at *
  rw [hd]
  refine ⟨rfl, rfl, rfl, ?_, hm, id, fun e he => ⟨he.1, fun r hr hre => ?_⟩⟩
  · refine tlb_of_tset (s := s) (ht := rfl) ?_ 0
    rfl
  · obtain ⟨q, hq, rfl⟩ := List.mem_map.mp hr
    have h := he.2 q (List.mem_filter.mp hq).1
    revert hre
    split <;> exact h

/-- A killed gang of an entry. -/
def oneKilled (e : Nat) (p : Nat × Entry) : Nat × Entry :=
  if p.1 = e then (p.1, { p.2 with killedGangs := p.2.killedGangs + 1 }) else p

theorem oneKilled_key (e : Nat) (p : Nat × Entry) : (oneKilled e p).1 = p.1 := by
  unfold oneKilled
  split <;> rfl

/-- The state u is s once the gang g, which was v, holds nothing any more: it is counted as killed. -/
structure Cleared (s u : State) (g : Nat) (v : Gang) : Prop where
  io : u.io = s.io
  gangs : u.gangs = tdel g s.gangs
  entries : u.entries = s.entries.map (oneKilled v.entry)
  quiet : s.Idle → Quiet s u

theorem sameBooks_bank (s : State) (f : BankCmd → BankCmd) : SameBooks s { s with bank := s.bank.map f } := ⟨rfl, rfl, rfl⟩

/-- Bank commands lose their thread, not their invocation. -/
theorem quiet_bank (s : State) {f : BankCmd → BankCmd} (hf : ∀ b, (f b).entry = b.entry) : Quiet s { s with bank := s.bank.map f } := by
  refine ⟨rfl, rfl, rfl, rfl, fun _ h => h, id, fun e he => ⟨fun b hb => ?_, he.2⟩⟩
  obtain ⟨c, hc, rfl⟩ := List.mem_map.mp hb
  rw [hf]
  exact he.1 c hc

theorem cleared_releaseUnits {s u : State} {g : Nat} {v : Gang} (hb : SameBooks s u) (hq : s.Idle → Quiet s u) :
    Cleared s (releaseUnits { u with gangs := tdel g u.gangs, entries := u.entries.map (oneKilled v.entry) }) g v where
  io := hb.io
  gangs := congrArg (tdel g) hb.gangs
  entries := congrArg (List.map (oneKilled v.entry)) hb.entries
  quiet := fun hs =>
    have q := hq hs
    ⟨q.mem, q.keys, q.io, q.tlb, q.meshes, q.idle, q.unwritten⟩

/-- The killing of a gang: it gives back what it holds, its invocation ends where nothing is left of it, and the watchdog settles. -/
theorem killGang_clears {s : State} {g : Nat} {v : Gang} (hv : tfind g s.gangs = some v) :
    ∃ u, Cleared s u g v ∧ SameBooks (finishInvocation u v.entry) (killGang s g) ∧ Quiet (finishInvocation u v.entry) (killGang s g) := by
  unfold killGang
  simp only [hv]
  generalize v.ctxns.filter (fun c => (tfind c s.triads).any fun t => t.gang == g) = live
  have hb : SameBooks s (live.foldl (fun s c => dropTriad (abortTopo s c) c) s) :=
    .foldl (fun s c => (sameBooks_abortTopo s c).trans (sameBooks_dropTriad _ c)) _ _
  have hq : s.Idle → Quiet s (live.foldl (fun s c => dropTriad (abortTopo s c) c) s) := fun hs =>
    .foldl (fun s c h => (quiet_abortTopo h c).trans (quiet_dropTriad _ c)) _ hs
  generalize live.foldl (fun s c => dropTriad (abortTopo s c) c) s = a at *
  generalize hu : releaseUnits _ = u
  refine ⟨u, ?_, ?_, ?_⟩
  · subst hu
    refine cleared_releaseUnits
      (hb.trans ((sameBooks_bank a _).trans (.foldl (fun s c => sameBooks_releaseCells s c g) _ _)))
      fun hs => (hq hs).trans ((quiet_bank a fun b => ?_).trans (.foldl (fun s c _ => quiet_releaseCells s c g) _ ((hq hs).idle hs)))
    split <;> rfl
  · split
    · exact sameBooks_wdogSettle _ _
    · exact .refl _
  · split
    · exact quiet_wdogSettle _ _
    · exact .refl _

theorem killGang_absent {s : State} {g : Nat} (hv : tfind g s.gangs = none) : killGang s g = s := by
  unfold killGang
  rw [hv]

/-- The killing of a gang takes it and leaves the other gangs and the I/O die. -/
theorem killGang_books (s : State) (g : Nat) :
    (killGang s g).gangs = (if (tfind g s.gangs).isSome then tdel g s.gangs else s.gangs) ∧ (killGang s g).io = s.io := by
  cases hv : tfind g s.gangs with
  | none => rw [killGang_absent hv]; exact ⟨rfl, rfl⟩
  | some v =>
    obtain ⟨u, hu, hk, -⟩ := killGang_clears hv
    obtain ⟨hg, hi, -⟩ := finishInvocation_books u v.entry
    exact ⟨hk.gangs.trans (hg.trans hu.gangs), hk.io.trans (hi.trans hu.io)⟩

/-- An entry that is free stays free when a gang is killed. -/
theorem killGang_keeps_absent {s : State} {k : Nat} (h : tfind k s.entries = none) (g : Nat) : tfind k (killGang s g).entries = none := by
  cases hv : tfind g s.gangs with
  | none => rwa [killGang_absent hv]
  | some v =>
    obtain ⟨u, hu, hk, -⟩ := killGang_clears hv
    rw [hk.entries]
    refine finishInvocation_absent ?_ _
    rw [hu.entries, tfind_map_values (oneKilled_key _), h]
    rfl

end Sys2Proof.Machine
end

section
namespace Sys2Proof.Machine

/-! The completion word of an invocation, after quiet changes (R275, R334, R335). -/

/-- A translation that leaves the device as it was found its leaf cached, and gives what stands in it: a walk would have cached one more. -/
theorem cachedLeaf_of_translate {s : State} {core va : Nat} {c : Cred} {acc : Acc} {pull : Bool} {pa key dom lvl ent : Nat} {d : Bool}
    (h : translate s core c va acc pull = (.ok pa key dom d lvl ent, s)) : ∃ x, cachedLeaf s core (asidOf c.ptbase) va = some x := by
  have hs : OnlyStores (lookup s core c va).2 s := by simpa [h] using onlyStores_translate s core c va acc pull
  have hf : ∀ k u, lookup s core c va ≠ (.fault k, u) := fun k u e => by simp [translate, e] at h
  cases hx : cachedLeaf s core (asidOf c.ptbase) va with
  | some x => exact ⟨x, rfl⟩
  | none =>
    cases hw : walkFrom s c.ptkey va 5 5 (rootOf c.ptbase) with
    | fault k => exact absurd (by simp [lookup, hx, hw]) (hf k s)
    | leaf lvl e =>
      have hc : ((lookup s core c va).2.core core).tlb = (s.core core).tlb := by rw [State.core, State.core, hs.cores]
      simp [lookup, hx, hw, State.core, State.modCore] at hc

theorem lookup_cached {s : State} {core va : Nat} {c : Cred} {x : Nat × Nat} (h : cachedLeaf s core (asidOf c.ptbase) va = some x) :
    lookup s core c va = (.leaf x.1 x.2, s) := by
  unfold lookup
  rw [h]

/-- A cached leaf of a core whose pages are settled does not migrate. -/
theorem Settled.leaf {s : State} {core asid va : Nat} {x : Nat × Nat} (hs : Settled s core) (h : cachedLeaf s core asid va = some x) :
    entMig x.2 ≠ 1 := by
  unfold cachedLeaf at h
  obtain ⟨t, ht, rfl⟩ := Option.map_eq_some_iff.mp h
  exact hs.1 t (List.mem_of_find?_eq_some ht)

theorem Quiet.cachedLeaf {s t : State} (h : Quiet s t) (asid va : Nat) : cachedLeaf t 0 asid va = cachedLeaf s 0 asid va := by
  unfold Machine.cachedLeaf
  rw [h.tlb]

/-- Where a cached leaf leads depends on it, the keys and the ports alone. -/
theorem translate_cached {s t : State} {core va : Nat} {c : Cred} {x : Nat × Nat} (hs : cachedLeaf s core (asidOf c.ptbase) va = some x)
    (ht : cachedLeaf t core (asidOf c.ptbase) va = some x) (hm : entMig x.2 ≠ 1) (hk : t.keys = s.keys) (hi : t.io = s.io) (acc : Acc)
    (pull pull' : Bool) :
    (translate t core c va acc pull) = ((translate s core c va acc pull').1, t) := by
  have he : ∀ a, encrypted t a = encrypted s a := encrypted_congr hi
  have hz : ∀ k, slotEmpty t k = slotEmpty s k := fun k => by rw [slotEmpty, slotEmpty, hk]
  unfold translate
  rw [lookup_cached hs, lookup_cached ht]
  simp only [hm, if_false, he, hz]
  split_ifs <;> rfl

/-- The place that a cached leaf gives an address. -/
theorem place_of_translate {s u : State} {core va : Nat} {c : Cred} {x : Nat × Nat} (hs : cachedLeaf s core (asidOf c.ptbase) va = some x)
    (hm : entMig x.2 ≠ 1) {acc : Acc} {pull : Bool} {pa key dom lvl ent : Nat} {d : Bool}
    (h : translate s core c va acc pull = (.ok pa key dom d lvl ent, u)) : pa = nbits x.2 16 36 * 65536 + va % 2 ^ pageShift x.1 := by
  unfold translate at h
  rw [lookup_cached hs] at h
  simp only [hm, if_false, false_and] at h
  split_ifs at h
  all_goals simp only [Prod.mk.injEq, TRes.ok.injEq, reduceCtorEq, false_and] at h
  exact h.1.1.symm

theorem mod_eight_of_place (f va lvl : Nat) : (f * 65536 + va % 2 ^ pageShift lvl) % 8 = va % 8 := by
  have h8 : 8 ∣ 2 ^ pageShift lvl := pow_dvd_pow 2 (m := 3) (by unfold pageShift; split <;> omega)
  have := Nat.mod_mod_of_dvd va h8
  omega

theorem toNat_of_classify {a : Word} {va : Nat} (h : classify a = .virt va) : a.toNat = va := by
  unfold classify at h
  simp only [] at h
  split_ifs at h
  injection h

/-- A store of the device finds its place again after quiet changes, and a place that is aligned where the address is. -/
theorem Quiet.locate {s t : State} (h : Quiet s t) (hs : Settled s 0) {c : Cred} {a : Word} (hv : isVirt a = true) {pa key frame : Nat}
    (hl : locate s 0 c a .st true = (.here pa key frame, s)) (pull : Bool) :
    locate t 0 c a .st pull = (.here pa key frame, t) ∧ (a.toNat % 8 = 0 → pa % 8 = 0) := by
  cases hc : classify a with
  | noncanon => simp [isVirt, hc] at hv
  | atlas x => simp [isVirt, hc] at hv
  | virt va =>
    simp only [Machine.locate, hc] at hl ⊢
    cases ht : translate s 0 c va .st true with
    | mk r u =>
      rw [ht] at hl
      cases r with
      | fault k => simp at hl
      | ok pa' key' dom d lvl ent =>
        obtain ⟨hd, rfl⟩ := Prod.mk.inj hl
        obtain ⟨x, hx⟩ := cachedLeaf_of_translate ht
        have hm := hs.leaf hx
        have hp := place_of_translate hx hm ht
        rw [translate_cached hx ((h.cachedLeaf _ _).trans hx) hm h.keys h.io .st pull true, ht]
        refine ⟨congrArg (·, t) hd, fun ha => ?_⟩
        have : pa = pa' := by
          split_ifs at hd
          injection hd with e
          exact e.symm
        rw [this, hp, mod_eight_of_place, ← toNat_of_classify hc, ha]

/-- A completion word finds room after quiet changes, as it goes to no other chip. -/
theorem Quiet.cwRoom {s t : State} (h : Quiet s t) (hs : Settled s 0) {r : Rec} (hr : s.TakesWord r) : cwRoom t r = true := by
  obtain h0 | ⟨hv, -, pa, key, -, ha⟩ := hr
  · simp [Machine.cwRoom, h0]
  · obtain ⟨frame, hl, -⟩ := ha 0 (by omega)
    rw [BitVec.add_zero] at hl
    simp [Machine.cwRoom, (h.locate hs hv hl false).1]

/-- Eight aligned bytes lie in one line, so they are encrypted alike. -/
theorem encrypted_word (s : State) {pa x : Nat} (h8 : pa % 8 = 0) (hx : x / 64 ∈ linesOf pa 8) : encrypted s x = encrypted s pa := by
  obtain ⟨-, _, _⟩ := mem_linesOf.mp hx
  have hh : inHbm x = inHbm pa := by simp only [inHbm, decide_eq_decide]; omega
  have hp : portOf x = portOf pa := by
    have : x / 2 ^ 42 = pa / 2 ^ 42 := by omega
    rw [portOf, portOf, this]
  rw [encrypted, encrypted, inExpander, inExpander, hh, hp]

/-- The device's store of a word that finds its place and may be made there. -/
theorem deviceStore_here {s : State} {core : Nat} {c : Cred} {va w : Word} {pa key frame : Nat} (hv : isVirt va = true)
    (hl : locate s core c va .st true = (.here pa key frame, s)) (hs : inSealed s pa 8 = false) (hi : isolated s pa = false) :
    deviceStore s core c va w true = (.ok, physWrite s pa (natBytes 8 w.toNat) key) := by
  unfold isolated at hi
  simp only [deviceStore, hv, Bool.true_or, if_true, hl, hs]
  cases hp : portOf pa with
  | none => simp
  | some p => simp only [hp] at hi; simp [hi]

theorem writeCw_ok {s t : State} {q : Nat} {r : Rec} {w : Word} (hr : r.cw ≠ 0) (hd : deviceStore s 0 r.cred r.cw w true = (.ok, t)) :
    (writeCw s q r w).mem = t.mem ∧ (writeCw s q r w).keys = t.keys ∧ (writeCw s q r w).io = t.io := by
  unfold writeCw
  rw [if_neg hr, hd]
  exact ⟨rfl, rfl, rfl⟩

/-- The completion word of an invocation, written after quiet changes, reads what was written. -/
theorem Quiet.wordReads {s t : State} (h : Quiet s t) (hs : Settled s 0) {r : Rec} (hr : s.TakesWord r) (q : Nat) (w : Word) {v : Nat}
    (hw : natBytes 8 w.toNat = natBytes 8 v) : WordReads s (writeCw t q r w) r v := by
  refine ⟨fun h0 => ?_, fun h0 pa key ha => ?_⟩
  · rw [writeCw, if_pos h0, h.mem]
  · obtain hr | ⟨hv, h8, -⟩ := hr
    · exact absurd hr h0
    obtain ⟨hseal, hat⟩ := ha
    obtain ⟨frame, hl, hi⟩ := hat 0 (by omega)
    rw [BitVec.add_zero] at hl
    obtain ⟨hl, hpa⟩ := h.locate hs hv hl true
    have hi : isolated t pa = false := by rw [isolated, h.io]; exact hi
    have hd := deviceStore_here (w := w) hv hl (h.unsealed hseal) hi
    obtain ⟨hm, hk, hio⟩ := writeCw_ok (q := q) h0 hd
    have hr : Reached t pa := fun p hp he => by simpa [isolated, hp, he] using hi
    have st := stores_physWrite t pa (natBytes 8 w.toNat) key hr (by simp [natBytes]) fun x hx => encrypted_word t (hpa h8) (by simpa using hx)
    rw [hw] at st hm hk hio
    exact st.congr (fun a n k => (h.physRead a n k).symm)
      (fun a n k => physRead_congr (by rw [hm]) (by rw [hm]) hk (fun p => by rw [hio]) a n k)

end Sys2Proof.Machine
end

section
namespace Sys2Proof.Machine

/-! How an invocation ends when its gangs are killed (R334, R398). -/

theorem WordReads.congr {s t t' : State} {r : Rec} {v : Nat} (h : WordReads s t r v) (hm : t'.mem = t.mem) (hk : t'.keys = t.keys)
    (hp : ∀ p, t'.io.port p = t.io.port p) : WordReads s t' r v :=
  ⟨fun h0 => hm.trans (h.1 h0), fun h0 pa key ha =>
    (h.2 h0 pa key ha).congr (fun _ _ _ => rfl) (physRead_congr (by rw [hm]) (by rw [hm]) hk hp)⟩

theorem mem_of_tfind {α : Type} {k : Nat} {v : α} {t : Tbl α} (h : tfind k t = some v) : (k, v) ∈ t := by
  induction t with
  | nil => cases h
  | cons p t ih =>
    obtain ⟨j, w⟩ := p
    rw [tfind] at h
    split at h
    · next e => rw [← Option.some.inj h, e]; exact List.mem_cons_self
    · exact List.mem_cons_of_mem _ (ih h)

/-- What the end of an invocation whose gangs are killed does. -/
theorem finishInvocation_dropped {s : State} {k : Nat} {v : Entry} (hv : tfind k s.entries = some v) (hd : v.dropped = true) :
    finishInvocation s k =
      if (v.retired + v.killedGangs = v.rcd.gangs ∨ v.retired + v.killedGangs = v.placed) ∧ entryBusy s k = false ∧ cwRoom s v.rcd = true then
        { writeCw s v.queue v.rcd (statusWord false v.retired stKilled) with entries := tdel k s.entries }
      else s := by
  simp only [finishInvocation, hv, hd, or_true, if_true, true_and, Bool.not_eq_true', (sameBooks_writeCw _ _ _ _).entries]

theorem finishInvocation_free {s : State} {k : Nat} (h : tfind k s.entries = none) : finishInvocation s k = s := by
  unfold finishInvocation
  rw [h]

/-- The end of an invocation without a completion word is quiet. -/
theorem quiet_finishInvocation {s : State} {k : Nat} (h : ∀ v, tfind k s.entries = some v → v.rcd.cw = 0) : Quiet s (finishInvocation s k) := by
  unfold finishInvocation
  split
  · exact .refl s
  · next v hv =>
    simp only [writeCw, h v hv, if_true]
    split
    · split <;> exact ⟨rfl, rfl, rfl, rfl, fun _ h => h, id, fun _ => id⟩
    · exact .refl s

/-- No invocation but the one at a key has a completion word. -/
def State.Silent (s : State) (key : Nat) : Prop := ∀ p ∈ s.entries, p.1 ≠ key → p.2.rcd.cw = 0

/-- In u the invocation e of s is still to end: nothing but quiet changes have happened since s, its gangs are dropped, and n of those
placed are left. -/
structure Pending (s u : State) (key : Nat) (e : Entry) (n : Nat) : Prop where
  quiet : Quiet s u
  entry : ∃ v, tfind key u.entries = some v ∧ v.rcd = e.rcd ∧ v.retired = e.retired ∧ v.dropped = true ∧
    v.placed = v.retired + v.killedGangs + n

/-- In u the invocation e of s has ended KILLED: its entry is free, and its completion word says so. -/
structure Ended (s u : State) (key : Nat) (e : Entry) : Prop where
  free : tfind key u.entries = none
  word : WordReads s u e.rcd (e.retired % 2 ^ 32 * 2 ^ 8 + 8)

/-- The invariant of the killing: the invocation e of s has ended, or n of its gangs are left. -/
structure Ending (s u : State) (key : Nat) (e : Entry) (n : Nat) : Prop where
  idle : u.Idle
  silent : u.Silent key
  phase : Pending s u key e n ∨ Ended s u key e

variable {s u w : State} {key g n : Nat} {e : Entry}

theorem Ending.of_quiet (h : Ending s u key e n) (q : Quiet u w) (sub : ∀ p ∈ w.entries, p ∈ u.entries)
    (same : tfind key w.entries = tfind key u.entries) : Ending s w key e n where
  idle := q.idle h.idle
  silent := fun p hp => h.silent p (sub p hp)
  phase := h.phase.imp (fun o => ⟨o.quiet.trans q, by rw [same]; exact o.entry⟩)
    fun d => ⟨same.trans d.free, d.word.congr q.mem q.keys fun _ => by rw [q.io]⟩

theorem oneKilled_rcd (k : Nat) (p : Nat × Entry) : (oneKilled k p).2.rcd = p.2.rcd := by
  unfold oneKilled
  split <;> rfl

/-- A cleared gang leaves one gang less of its invocation. -/
theorem Ending.cleared {v : Gang} (h : Ending s u key e (n + if v.entry = key then 1 else 0)) (c : Cleared u w g v) : Ending s w key e n := by
  have q := c.quiet h.idle
  have hf : tfind key w.entries = (tfind key u.entries).map fun x => (oneKilled v.entry (key, x)).2 := by
    rw [c.entries, tfind_map_values (oneKilled_key _)]
  refine ⟨q.idle h.idle, fun p hp hk => ?_, h.phase.imp (fun o => ⟨o.quiet.trans q, ?_⟩) fun d => ⟨by rw [hf, d.free]; rfl, ?_⟩⟩
  · rw [c.entries] at hp
    obtain ⟨x, hx, rfl⟩ := List.mem_map.mp hp
    rw [oneKilled_key] at hk
    rw [oneKilled_rcd]
    exact h.silent x hx hk
  · obtain ⟨x, hx, hr, ht, hd, hn⟩ := o.entry
    refine ⟨_, by rw [hf, hx]; rfl, ?_⟩
    unfold oneKilled
    by_cases hk : v.entry = key
    · simp only [hk, if_true] at hn ⊢
      exact ⟨hr, ht, hd, by omega⟩
    · simp only [hk, Ne.symm hk, if_false] at hn ⊢
      exact ⟨hr, ht, hd, hn⟩
  · exact d.word.congr q.mem q.keys fun _ => by rw [q.io]

theorem natBytes_killed (k : Nat) : natBytes 8 (statusWord false k stKilled).toNat = natBytes 8 (k % 2 ^ 32 * 2 ^ 8 + 8) := by
  congr 1
  simp only [statusWord, stKilled, BitVec.toNat_ofNat, Bool.false_eq_true, if_false]
  omega

section
variable (hs : Settled s 0) (hw : s.TakesWord e.rcd)
include hs hw

/-- The check whether the invocation itself has ended keeps the invariant. -/
theorem Ending.finish_self (h : Ending s u key e n) : Ending s (finishInvocation u key) key e n := by
  obtain o | d := h.phase
  · obtain ⟨v, hv, hr, ht, hd, -⟩ := o.entry
    rw [finishInvocation_dropped hv hd]
    split
    · have dev := writeCw_device u v.queue v.rcd (statusWord false v.retired stKilled)
      refine ⟨?_, fun p hp => h.silent p (mem_of_mem_tdel hp), .inr ⟨tfind_tdel_same _ _, ?_⟩⟩
      · show ∀ p ∈ (writeCw u _ _ _).topos, _
        rw [dev]
        exact h.idle
      · have word := o.quiet.wordReads hs hw v.queue (statusWord false v.retired stKilled) (natBytes_killed _)
        rw [ht, ← hr] at *
        exact word.congr rfl rfl fun _ => rfl
    · exact h
  · rw [finishInvocation_free d.free]
    exact h

/-- The check for the end of any invocation keeps the invariant. -/
theorem Ending.finish (h : Ending s u key e n) (k : Nat) : Ending s (finishInvocation u k) key e n := by
  by_cases hk : k = key
  · subst hk
    exact h.finish_self hs hw
  · have q := quiet_finishInvocation fun v hv => h.silent _ (mem_of_tfind hv) hk
    obtain ⟨-, -, he | he⟩ := finishInvocation_books u k
    · exact h.of_quiet q (fun p hp => by rwa [he] at hp) (by rw [he])
    · exact h.of_quiet q (fun p hp => mem_of_mem_tdel (by rwa [he] at hp)) (by rw [he, tfind_tdel_ne (Ne.symm hk)])

/-- Once none of its gangs is left the invocation ends. -/
theorem Ending.finish_last (hu : s.Unwritten key) (h : Ending s u key e 0) : tfind key (finishInvocation u key).entries = none := by
  obtain o | d := h.phase
  · obtain ⟨v, hv, hr, ht, hd, hn⟩ := o.entry
    obtain ⟨hb, hp⟩ := o.quiet.unwritten key hu
    have busy : entryBusy u key = false := by
      simp only [entryBusy, Bool.or_eq_false_iff, List.any_eq_false, beq_iff_eq, Bool.and_eq_true, Bool.not_eq_true', not_and]
      exact ⟨hb, fun r hr hx he => by simp [hp r hr he] at hx⟩
    rw [finishInvocation_dropped hv hd, if_pos ⟨.inr hn.symm, busy, by rw [hr]; exact o.quiet.cwRoom hs hw⟩]
    exact tfind_tdel_same _ _
  · exact finishInvocation_absent d.free key

/-- The killing of a gang leaves one gang less of its invocation. -/
theorem Ending.kill {v : Gang} (hv : tfind g u.gangs = some v) (h : Ending s u key e (n + if v.entry = key then 1 else 0)) :
    Ending s (killGang u g) key e n := by
  obtain ⟨a, ha, hb, hq⟩ := killGang_clears hv
  exact ((h.cleared ha).finish hs hw _).of_quiet hq (fun p hp => by rwa [hb.entries] at hp) (by rw [hb.entries])

/-- When every gang has been killed, none is left. -/
theorem Ending.killAll {l : Tbl Gang} (hl : u.gangs = l) (hd : (l.map (·.1)).Nodup)
    (h : Ending s u key e (l.countP fun g => g.2.entry == key)) : Ending s ((l.map (·.1)).foldl killGang u) key e 0 := by
  induction l generalizing u with
  | nil => exact h
  | cons p l ih =>
    obtain ⟨g, v⟩ := p
    rw [List.map_cons, List.nodup_cons] at hd
    rw [List.countP_cons] at h
    have hv : tfind g u.gangs = some v := by rw [hl, tfind, if_pos rfl]
    refine ih ?_ hd.2 (Ending.kill hs hw hv (by simpa using h))
    rw [(killGang_books u g).1, hv, hl]
    exact (if_pos rfl).trans (by rw [tdel, if_pos rfl, tdel_of_absent hd.1])

theorem Ending.finishAll (h : Ending s u key e n) (es : List Nat) : Ending s (es.foldl finishInvocation u) key e n :=
  List.foldlRecOn (motive := fun u => Ending s u key e n) es finishInvocation h fun _ h k _ => h.finish hs hw k

end

theorem finishAll_absent {k : Nat} (h : tfind k u.entries = none) (es : List Nat) :
    tfind k (es.foldl finishInvocation u).entries = none :=
  List.foldlRecOn (motive := fun u => tfind k u.entries = none) es finishInvocation h fun _ h x _ => finishInvocation_absent h x

/-- When every invocation has been looked at, one without gangs has ended. -/
theorem Ending.ended (hs : Settled s 0) (hw : s.TakesWord e.rcd) (hu : s.Unwritten key) (h : Ending s u key e 0) {es : List Nat}
    (hk : key ∈ es) : Ended s (es.foldl finishInvocation u) key e := by
  have free : tfind key (es.foldl finishInvocation u).entries = none := by
    obtain ⟨l, r, rfl⟩ := List.append_of_mem hk
    rw [List.foldl_append, List.foldl_cons]
    exact finishAll_absent ((h.finishAll hs hw l).finish_last hs hw hu) r
  obtain o | d := (h.finishAll hs hw es).phase
  · obtain ⟨v, hv, -⟩ := o.entry
    rw [free] at hv
    cases hv
  · exact d

/-! The thermal trip (R398). -/

/-- The device with every invocation dropped. -/
def State.allDropped (s : State) : State :=
  { s with entries := s.entries.map fun (e : Nat × Entry) => (e.1, { e.2 with dropped := true }) }

theorem tfind_allDropped (s : State) (k : Nat) :
    tfind k s.allDropped.entries = (tfind k s.entries).map fun v => { v with dropped := true } :=
  tfind_map_values (f := fun e : Nat × Entry => (e.1, { e.2 with dropped := true })) (fun _ => rfl) k s.entries

/-- The device with every invocation dropped, every gang killed and every invocation that can end ended. -/
def State.tripped (s : State) : State :=
  (s.entries.map (·.1)).foldl finishInvocation ((s.gangs.map (·.1)).foldl killGang s.allDropped)

theorem exec_thermalTrip {s : State} (hp : s.io.power ≠ 2) (h4 : s.io.stage ≠ 4) :
    exec .thermalTrip s = .next (s.tripped.modIo fun d => { d with stage := 4, code := 4, fatal := true }) := by
  show execThermalTrip s = _
  rw [execThermalTrip, if_neg (by simp [hp, h4])]
  rfl

theorem tripped_io (s : State) : s.tripped.io = s.io :=
  List.foldlRecOn (motive := fun u : State => u.io = s.io) _ _
    (List.foldlRecOn (motive := fun u : State => u.io = s.io) _ _ rfl fun _ h g _ => (killGang_books _ g).2.trans h)
    fun _ h k _ => (finishInvocation_books _ k).2.1.trans h

theorem killAll_gangs (u : State) (gs : List Nat) (j : Nat) (h : j ∈ gs ∨ tfind j u.gangs = none) :
    tfind j (gs.foldl killGang u).gangs = none := by
  induction gs generalizing u with
  | nil => simpa using h
  | cons g gs ih =>
    refine ih _ ?_
    rw [(killGang_books u g).1]
    by_cases hj : j = g
    · subst hj
      right
      split
      · exact tfind_tdel_same _ _
      · next hn => simpa using hn
    · refine h.imp (fun h => by simpa [hj] using h) fun h => ?_
      split
      · rw [tfind_tdel_ne hj, h]
      · exact h

theorem tripped_gangs (s : State) (g : Nat) : tfind g s.tripped.gangs = none := by
  refine List.foldlRecOn (motive := fun u : State => tfind g u.gangs = none) _ _ (killAll_gangs _ _ _ ?_)
    fun _ h k _ => by rwa [(finishInvocation_books _ k).1]
  show g ∈ s.gangs.map (·.1) ∨ tfind g s.gangs = none
  cases h : tfind g s.gangs with
  | none => exact .inr rfl
  | some v => exact .inl (List.mem_map_of_mem (f := (·.1)) (mem_of_tfind h))

theorem tripped_absent {s : State} {k : Nat} (h : tfind k s.entries = none) : tfind k s.tripped.entries = none := by
  refine finishAll_absent (List.foldlRecOn (motive := fun u : State => tfind k u.entries = none) _ _ ?_
    fun _ h g _ => killGang_keeps_absent h g) _
  rw [tfind_allDropped, h]
  rfl

/-- An invocation all of whose gangs are there ends KILLED. -/
theorem tripped_ended {s : State} {key : Nat} {e : Entry} (he : tfind key s.entries = some e) (silent : s.Silent key)
    (hd : (s.gangs.map (·.1)).Nodup) (hn : e.placed = e.retired + e.killedGangs + s.gangs.countP fun g => g.2.entry == key)
    (hu : s.Unwritten key) (idle : s.Idle) (hw : s.TakesWord e.rcd) (hs : Settled s 0) : Ended s s.tripped key e := by
  have start : Ending s s.allDropped key e (s.gangs.countP fun g => g.2.entry == key) := by
    refine ⟨idle, fun p hp hk => ?_,
      .inl ⟨⟨rfl, rfl, rfl, rfl, fun _ h => h, id, fun _ => id⟩, { e with dropped := true }, ?_, rfl, rfl, rfl, hn⟩⟩
    · obtain ⟨x, hx, rfl⟩ := List.mem_map.mp hp
      exact silent x hx hk
    · rw [tfind_allDropped, he]
      rfl
  exact (Ending.killAll (u := s.allDropped) hs hw rfl hd start).ended hs hw hu (List.mem_map_of_mem (f := (·.1)) (mem_of_tfind he))

/-- A thermal trip kills every gang, ends every invocation KILLED and halts the device. -/
theorem thermalTrip_halts {s : State} (hp : s.io.power ≠ 2) (h4 : s.io.stage ≠ 4) : Completes .thermalTrip s (fun t =>
    t.io = { s.io with stage := 4, code := 4, fatal := true } ∧ (∀ g, tfind g t.gangs = none) ∧
    (∀ e, tfind e s.entries = none → tfind e t.entries = none) ∧
    ∀ key e, tfind key s.entries = some e → (∀ p ∈ s.entries, p.1 ≠ key → p.2.rcd.cw = 0) → (s.gangs.map (·.1)).Nodup →
      e.placed = e.retired + e.killedGangs + s.gangs.countP (fun g => g.2.entry == key) → s.Unwritten key →
      (∀ p ∈ s.topos, p.2.queue = [] ∧ p.2.running = []) → s.TakesWord e.rcd → Settled s 0 →
      tfind key t.entries = none ∧ WordReads s t e.rcd (e.retired % 2 ^ 32 * 2 ^ 8 + 8)) := by
  refine ⟨_, exec_thermalTrip hp h4, ?_, tripped_gangs s, fun e he => tripped_absent he, ?_⟩
  · show { s.tripped.io with stage := 4, code := 4, fatal := true } = _
    rw [tripped_io]
  · intro key e he silent hd hn hu idle hw hs
    have d := tripped_ended he silent hd hn hu idle hw hs
    exact ⟨d.free, d.word.congr rfl rfl fun _ => rfl⟩

end Sys2Proof.Machine
end

section
namespace Sys2Proof.Machine

/-! Host ports, bring-up, power and temperature, put together. -/

/-- Settles O55: one lemma for each kind of traffic and each event; the thermal trip by the invariant that the invocation has ended or as
many of its gangs are left as are not killed yet. -/
theorem hostPortsBringUpAndPower : Obligations.HostPortsBringUpAndPower := by
  unfold Obligations.HostPortsBringUpAndPower
  refine ⟨fun s => ⟨fun reach bs hd hb => ?writes, fun reach hd hk => ?reads, fun apart => ⟨s, execHost_unreached apart, rfl⟩,
    readTimeout_isolates, linkUp_sets⟩, fun s => ?events⟩
  case writes =>
    exact ⟨hostWrite_stores reach hd hb, hostWrite_sealed reach hd hb, fun ha => by rw [execHost_write reach hd hb, if_neg (by omega)]⟩
  case reads =>
    exact ⟨hostRead_answers reach hd hk, fun ha => by rw [execHost_read reach hd hk, if_neg (by omega)]⟩
  case events =>
    exact ⟨deviceReset_resets s, firmwareVerify_measures, reducedServiceStart_sets, hbmTrainingFailed_sets, fullRateTraining_sets,
      fullServiceStart_sets, fullServiceStart_waits, throttle_slows s, thermalTrip_halts, d3hotEntry_sets, d3hotEntry_waits,
      d3hotExit_sets, powerRemoval_loses s, fun h0 hp hw => attestationQuote_sets h0 hp hw _ (quoted_eq _ _ _).symm⟩

end Sys2Proof.Machine
end

section
namespace Sys2Proof.Machine

/-! Scalar floating-point arithmetic (R115). -/

/-- A rounded scalar result that raises no enabled event ends in place, with its events merged (R57, R115). -/
theorem fpResult_fpRound {f : FmtA} {s : State} (hs : s.Started) (x : Val × Ev)
    (runs : s.fpRuns f (x.2 ||| (roundTo (fpFmt f.t) (s.fpCtx f) x.1).2)) :
    FpResult s (s.fpRound f x) f.xd (roundTo (fpFmt f.t) (s.fpCtx f) x.1).1 (x.2 ||| (roundTo (fpFmt f.t) (s.fpCtx f) x.1).2)
      (fpRm f == 5) := by
  obtain ⟨role, quiet⟩ := runs
  have issue (k : State) : s.fpIssue f k = k := if_neg fun ⟨h5, hr⟩ => hr (role h5)
  unfold State.fpRound
  rw [issue]
  exact fpResult_finish s f _ _ _ hs quiet

/-- Settles O3: each of the instructions is `fpRound` of its exact result. -/
theorem scalarFloatArithmetic : Obligations.ScalarFloatArithmetic := by
  unfold Obligations.ScalarFloatArithmetic
  intro f s hs
  exact ⟨fun h => ⟨_, rfl, fpResult_fpRound hs _ h⟩, fun h => ⟨_, rfl, fpResult_fpRound hs _ h⟩,
    fun h => ⟨_, rfl, fpResult_fpRound hs _ h⟩, fun h => ⟨_, rfl, fpResult_fpRound hs _ h⟩,
    fun h => ⟨_, rfl, fpResult_fpRound hs _ h⟩, fun h => ⟨_, rfl, fpResult_fpRound hs _ h⟩⟩

end Sys2Proof.Machine
end

section
namespace Sys2Proof.Machine

/-! Vector arithmetic (R140 to R144). -/

theorem bound_le (s : State) (c : Nat) : s.bound c ≤ 4 := by
  have places (m p : Nat) : (slabPlaces m p).length ≤ 4 := by
    unfold slabPlaces
    split <;> simp
  rw [State.bound, State.slabs, List.length_map]
  exact places _ _

theorem Fmt.width_cases (f : Fmt) : f.width = 8 ∨ f.width = 16 ∨ f.width = 32 ∨ f.width = 64 := by cases f <;> decide

theorem Fmt.width_pos (f : Fmt) : 0 < f.width := by rcases f.width_cases with h | h | h | h <;> omega

theorem Fmt.width_dvd (f : Fmt) : f.width ∣ 2048 := by rcases f.width_cases with h | h | h | h <;> rw [h] <;> decide

theorem le_maxWidth {l : List Nat} {w : Nat} (h : w ∈ l) : w ≤ maxWidth l := by
  have gen (l : List Nat) (a : Nat) : a ≤ l.foldl max a ∧ ∀ w ∈ l, w ≤ l.foldl max a := by
    induction l generalizing a with
    | nil => exact ⟨Nat.le_refl a, by simp⟩
    | cons b t ih =>
      obtain ⟨h1, h2⟩ := ih (max a b)
      refine ⟨Nat.le_trans (Nat.le_max_left a b) h1, fun w hw => ?_⟩
      rcases List.mem_cons.mp hw with rfl | hw
      · exact Nat.le_trans (Nat.le_max_right a w) h1
      · exact h2 w hw
  exact (gen l 8).2 w h

theorem State.vlOk_mono {s : State} {w w' : Nat} (h : s.vlOk w = true) (hw : 0 < w') (hle : w' ≤ w) : s.vlOk w' = true := by
  unfold State.vlOk vlmax at *
  simp only [decide_eq_true_eq] at *
  exact Nat.le_trans h (Nat.div_le_div_left hle hw)

/-- An element below VL lies in one of the 64 EGs of a register (R103, R129). -/
theorem egOf_lt {s : State} {w : Nat} (h : s.vlOk w = true) (e : Nat) (he : e < s.th.vl) : egOf w e < 64 := by
  have hb := bound_le s s.tr.core
  unfold State.vlOk vlmax at h
  rw [decide_eq_true_eq] at h
  have h1 : e * w < 32768 * 4 := by
    have h2 : s.th.vl * w ≤ 32768 * s.bound s.tr.core :=
      Nat.le_trans (Nat.mul_le_mul_right w h) (Nat.div_mul_le_self _ _)
    rcases Nat.eq_zero_or_pos w with rfl | hw
    · simp
    · have h3 := Nat.mul_lt_mul_of_pos_right he hw
      omega
  unfold egOf
  omega

/-- The number of sources of an arithmetic instruction. -/
theorem AOp.nsrc_cases (op : AOp) : op.nsrc = 1 ∨ op.nsrc = 2 ∨ op.nsrc = 3 := by cases op <;> decide

/-- The operands of the sources of an arithmetic word. -/
theorem lgSrcs_opnds (lg : Lg) (f : FmtV) (op : AOp) : (lgSrcs lg f (op.srcFmts lg)).map (·.o) = vOpnds f op.nsrc := by
  unfold AOp.srcFmts vOpnds
  rcases op.nsrc_cases with h | h | h <;> rw [h] <;> rfl

/-- What the sources of an arithmetic word give for one element: a place that is no source gives no element, and poison comes from the
sources alone. -/
theorem lgSrcs_elts (lg : Lg) (f : FmtV) (op : AOp) (read : Src → Elt) :
    let xs := (lgSrcs lg f (op.srcFmts lg)).map read
    let a := read (lgSrc lg f.g f.qa f.va lg.fa)
    let b := read (lgSrc lg f.g f.qb f.vb lg.fb)
    let c := read (lgSrc lg f.g f.qc f.vc lg.fc)
    xs.getD 0 Elt.zero = a ∧ xs.getD 1 Elt.zero = (if 2 ≤ op.nsrc then b else Elt.zero) ∧
      xs.getD 2 Elt.zero = (if 3 ≤ op.nsrc then c else Elt.zero) ∧
      anyPois xs = (a.pois || (decide (2 ≤ op.nsrc) && b.pois) || (decide (3 ≤ op.nsrc) && c.pois)) := by
  unfold AOp.srcFmts
  rcases op.nsrc_cases with h | h | h <;> rw [h] <;> simp [lgSrcs, anyPois, Bool.or_assoc]

/-- One element of an arithmetic instruction from the elements of its sources, as `State.arith` computes it. -/
def AOp.fn (op : AOp) (lg : Lg) (prop : Bool) (run : VRun) : EltFn := fun j e xs =>
  let r := op.elt lg prop (lg.at (run.lane j e) e) (xs.getD 0 Elt.zero) (xs.getD 1 Elt.zero) (xs.getD 2 Elt.zero)
  (r.1, r.2, anyPois xs)

theorem arith_eq {f : FmtV} {s : State} {lg : Lg} {op : AOp} (legend : s.arithLg op f = some lg)
    (ready : VectorReady s (elemDecode s.vec.cfg s.cur.role f op.nsrc) (s.vlOk (maxWidth (op.widths lg))) (vOpnds f op.nsrc)
      [opnd f.qd f.vd]) :
    s.arith op f = s.runElems f.m.toNat lg f.g (lgSrcs lg f (op.srcFmts lg)) (opnd f.qd f.vd) lg.fd.width
      (op.fn lg (f.opv.getLsbD 0)) lg.sr := by
  unfold State.arith
  simp only [legend]
  exact vIssue_ready ready _

/-- An arithmetic instruction whose checks pass gives each active element the result of its kind (R136, R140). -/
theorem arith_gives {f : FmtV} {s : State} {lg : Lg} (quiet : s.quiet) (op : AOp) (res : RCtx → Elt → Elt → Elt → Nat × Ev)
    (hres : ∀ r a b c, op.elt lg (f.opv.getLsbD 0) r a (if 2 ≤ op.nsrc then b else Elt.zero) (if 3 ≤ op.nsrc then c else Elt.zero) =
      res r a b c)
    (legend : s.arithLg op f = some lg) (single : opnd f.qd f.vd = .reg f.vd.toNat ∨ f.g = 1)
    (ready : VectorReady s (elemDecode s.vec.cfg s.cur.role f op.nsrc) (s.vlOk (maxWidth (op.widths lg))) (vOpnds f op.nsrc)
      [opnd f.qd f.vd]) :
    let elt (q : Bool) (v : BitVec 6) (fm : Fmt) (j e : Nat) : Elt := readElt s.vec (s.bound s.tr.core) lg (lgSrc lg f.g q v fm) j e
    let a := elt f.qa f.va lg.fa
    let b := elt f.qb f.vb lg.fb
    let c := elt f.qc f.vc lg.fc
    let pois := fun j e => (a j e).pois || (decide (2 ≤ op.nsrc) && (b j e).pois) || (decide (3 ≤ op.nsrc) && (c j e).pois)
    let out := fun j e => res (lg.at j e) (a j e) (b j e) (c j e)
    ∃ v ev, VectorDone s (s.arith op f) v ev lg.sr.toNat [] ∧
      Elementwise s.vec v (s.vec.active f.m.toNat s.th.vl) (vOpnds f op.nsrc) (opnd f.qd f.vd) f.g lg.fd.width (fun j e => (out j e).1)
        pois ∧
      EventsOf ev f.g s.th.vl (s.vec.active f.m.toNat s.th.vl) (fun j e => if pois j e then 0 else (out j e).2) := by
  intro elt a b c pois out
  have width : ∀ e, e < s.th.vl → egOf lg.fd.width e < 64 :=
    egOf_lt (State.vlOk_mono ready.dispatch lg.fd.width_pos (le_maxWidth (by simp [AOp.widths])))
  have ring : ∀ q, opnd f.qd f.vd = .ring q → f.g = 1 := fun q hq => single.resolve_left fun h => by rw [h] at hq; cases hq
  have value (act : List Nat) (index : Nat → Nat → Nat) (j e : Nat) : op.fn lg (f.opv.getLsbD 0) ⟨act, fun j _ => j, index⟩ j e
      ((lgSrcs lg f (op.srcFmts lg)).map fun x => readElt s.vec (s.bound s.tr.core) lg x j e) =
        ((out j e).1, (out j e).2, pois j e) := by
    obtain ⟨h0, h1, h2, h3⟩ := lgSrcs_elts lg f op fun x => readElt s.vec (s.bound s.tr.core) lg x j e
    simp only [AOp.fn, h0, h1, h2, h3, hres]
    rfl
  obtain ⟨v, ev, done, elements, events⟩ := runElems_done s f.m.toNat lg f.g (lgSrcs lg f (op.srcFmts lg)) (opnd f.qd f.vd) lg.fd.width
    (op.fn lg (f.opv.getLsbD 0)) lg.sr ready.started ready.plain quiet lg.fd.width_pos lg.fd.width_dvd width ring
  simp only [value, lgSrcs_opnds] at elements events
  refine ⟨v, ev, ?_, elements, events⟩
  rw [arith_eq legend ready, Bool.toNat, Bool.cond_eq_ite]
  exact done

/-- Settles O15: every instruction is `State.arith` of its kind, and its kind's result is the one that R140 to R144 give. -/
theorem vectorArithmetic : Obligations.VectorArithmetic := by
  unfold Obligations.VectorArithmetic ArithResults
  intro f s lg quiet act dst Gives rnd m prop
  have gives {i : Instr} (op : AOp) (hi : exec i s = .next (s.arith op f)) (res : RCtx → Elt → Elt → Elt → Nat × Ev)
      (hres : ∀ r a b c, op.elt lg prop r a (if 2 ≤ op.nsrc then b else Elt.zero) (if 3 ≤ op.nsrc then c else Elt.zero) = res r a b c) :
      Gives i op op.nsrc res := fun legend single ready => ⟨_, hi, arith_gives quiet op res hres legend single ready⟩
  have same {i : Instr} (op : AOp) (hi : exec i s = .next (s.arith op f)) := gives op hi _ fun _ _ _ _ => rfl
  exact ⟨same .add rfl, same .sub rfl, same .mul rfl, same .mulh rfl,
    fun float => gives .div rfl _ fun _ _ _ _ => if_neg (by simp [float]), fun int => gives .div rfl _ fun _ _ _ _ => if_pos int,
    same .rem rfl, same .min rfl, same .max rfl, same .abs rfl, same .neg rfl, same .fma rfl, same .fms rfl, same .fnma rfl,
    same .fnms rfl, same .sqrt rfl, same .rsqrt rfl, same .rcp rfl, same .avg rfl, same .clamp rfl, same .scalb rfl, same .logb rfl,
    same .class rfl⟩

end Sys2Proof.Machine
end

section
namespace Sys2Proof.Machine

/-! The scales, pair shifts and codes of a quantised block (R158). -/

theorem Val.isZero_finite {v : Val} (h : v.isZero = true) : (v.isNan || v.isInf) = false := by
  cases v with
  | fin _ _ => rfl
  | nan _ => cases h
  | inf _ => cases h

/-- The greatest exponent among values that are not zero. -/
theorem topLog2_spec (vs : List Val) :
    (topLog2 vs = none ↔ ∀ v ∈ vs, v.isZero = true) ∧
    ∀ k, topLog2 vs = some k → (∃ v ∈ vs, v.isZero = false ∧ v.mag.log2 = k) ∧ ∀ v ∈ vs, v.isZero = false → v.mag.log2 ≤ k := by
  induction vs using List.reverseRecOn with
  | nil => simp [topLog2]
  | append_singleton vs v ih =>
    obtain ⟨none_iff, top⟩ := ih
    have step : topLog2 (vs ++ [v]) = if v.isZero then topLog2 vs else match topLog2 vs with
        | some k => some (max k v.mag.log2)
        | none => some v.mag.log2 := by
      unfold topLog2
      rw [List.foldl_append]
      rfl
    rw [step]
    cases hz : v.isZero with
    | true =>
      refine ⟨by simpa [or_imp, forall_and, hz] using none_iff, fun k hk => ?_⟩
      obtain ⟨⟨u, hu, huz, huk⟩, below⟩ := top k hk
      refine ⟨⟨u, by simp [hu], huz, huk⟩, fun w hw hwz => ?_⟩
      rcases List.mem_append.mp hw with hw | hw
      · exact below w hw hwz
      · rw [List.mem_singleton.mp hw, hz] at hwz; cases hwz
    | false =>
      cases ht : topLog2 vs with
      | none =>
        have zeros := none_iff.mp ht
        refine ⟨by simp [hz], fun k hk => ?_⟩
        obtain rfl : v.mag.log2 = k := by simpa using hk
        refine ⟨⟨v, by simp, hz, rfl⟩, fun w hw hwz => ?_⟩
        rcases List.mem_append.mp hw with hw | hw
        · rw [zeros w hw] at hwz; cases hwz
        · rw [List.mem_singleton.mp hw]
      | some m =>
        obtain ⟨⟨u, hu, huz, hum⟩, below⟩ := top m ht
        refine ⟨by simp [hz], fun k hk => ?_⟩
        obtain rfl : max m v.mag.log2 = k := by simpa using hk
        refine ⟨?_, fun w hw hwz => ?_⟩
        · rcases le_total m v.mag.log2 with h | h
          · exact ⟨v, by simp, hz, (max_eq_right h).symm⟩
          · exact ⟨u, by simp [hu], huz, by rw [max_eq_left h, hum]⟩
        · rcases List.mem_append.mp hw with hw | hw
          · exact le_trans (below w hw hwz) (le_max_left _ _)
          · rw [List.mem_singleton.mp hw]; exact le_max_right _ _

theorem quantBlock_special {l : Lg} {vals : List (Nat × Val)} (h : ∃ p ∈ vals, p.2.isNan = true ∨ p.2.isInf = true) :
    (quantBlock l vals).scale = 255 := by
  unfold quantBlock
  split
  · rfl
  · next none =>
    obtain ⟨p, hp, hs⟩ := h
    exact absurd (Bool.or_eq_true_iff.mpr hs) (List.find?_eq_none.mp none p hp)

theorem quantBlock_zeros {l : Lg} {vals : List (Nat × Val)} (h : ∀ p ∈ vals, p.2.isZero = true) : (quantBlock l vals).scale = 127 := by
  have finite : (vals.find? fun p => p.2.isNan || p.2.isInf) = none :=
    List.find?_eq_none.mpr fun p hp => by simp [Val.isZero_finite (h p hp)]
  have zeros : topLog2 (vals.map (·.2)) = none := (topLog2_spec _).1.mpr (by simpa using fun v e hv => h (e, v) hv)
  unfold quantBlock
  simp only [finite, zeros]

theorem clampNat_scale (x : Int) : (clampNat 0 254 x : Int) = max 0 (min 254 x) := by
  unfold clampNat
  omega

theorem quantBlock_finite {l : Lg} {vals : List (Nat × Val)} (finite : ∀ p ∈ vals, p.2.isNan = false ∧ p.2.isInf = false)
    {p : Nat × Val} (hp : p ∈ vals) (hz : p.2.isZero = false) (top : ∀ r ∈ vals, r.2.isZero = false → r.2.mag.log2 ≤ p.2.mag.log2) :
    ((quantBlock l vals).scale : Int) = max 0 (min 254 (p.2.mag.log2 - (if l.fd.isPx then 0 else emaxOf l.fd) + 127)) := by
  have none : (vals.find? fun p => p.2.isNan || p.2.isInf) = none := List.find?_eq_none.mpr fun q hq => by simp [finite q hq]
  have some : topLog2 (vals.map (·.2)) = some p.2.mag.log2 := by
    cases ht : topLog2 (vals.map (·.2)) with
    | none =>
      have := (topLog2_spec _).1.mp ht p.2 (List.mem_map_of_mem hp)
      rw [hz] at this; cases this
    | some k =>
      obtain ⟨⟨v, hv, hvz, hvk⟩, below⟩ := (topLog2_spec _).2 k ht
      obtain ⟨q, hq, rfl⟩ := List.mem_map.mp hv
      have h1 := below p.2 (List.mem_map_of_mem hp) hz
      have h2 := top q hq hvz
      congr 1; omega
  unfold quantBlock
  simp only [none, some]
  split <;> simp [*, clampNat_scale]

/-- A sum of base-4 digits. -/
theorem sum_digits_lt (digit : Nat → Nat) (h : ∀ j, digit j ≤ 3) (n : Nat) : ((nrange 0 n).map fun j => digit j * 4 ^ j).sum < 4 ^ n := by
  induction n with
  | zero => simp [nrange]
  | succ n ih =>
    rw [nrange_zero_succ, List.map_append, List.sum_append, Nat.pow_succ]
    have := Nat.mul_le_mul_right (4 ^ n) (h n)
    simp
    omega

/-- A block's scale is a byte, its pair shifts fit 32 bits, and its codes are those of its own elements. -/
theorem quantBlock_bounds (l : Lg) (vals : List (Nat × Val)) :
    (quantBlock l vals).scale < 256 ∧ (∀ w, (quantBlock l vals).shifts = some w → w < 2 ^ 32) ∧
      (quantBlock l vals).codes.map (·.1) = vals.map (·.1) := by
  have scale (x : Int) : clampNat 0 254 x < 256 := by unfold clampNat; omega
  have shift (x : Int) : clampNat 0 3 x ≤ 3 := by unfold clampNat; omega
  have keys (g : Nat × Val → Nat × Ev) : (vals.map fun p => (p.1, g p)).map (·.1) = vals.map (·.1) := by
    rw [List.map_map]; rfl
  unfold quantBlock
  split
  · refine ⟨by simp, fun w hw => ?_, keys _⟩
    simp only [Option.ite_none_left_eq_some, Option.some.injEq] at hw
    omega
  · split
    · refine ⟨by simp, fun w hw => ?_, keys _⟩
      simp only [Option.ite_none_left_eq_some, Option.some.injEq] at hw
      omega
    · simp only []
      split
      · refine ⟨scale _, fun w hw => ?_, keys _⟩
        rw [← Option.some.inj hw]
        refine sum_digits_lt _ (fun j => ?_) 16
        split
        · exact Nat.le_refl 3
        · exact shift _
      · exact ⟨scale _, fun w hw => by rw [← Option.some.inj hw]; decide, keys _⟩

/-! VPACK quant (R155, R158). -/

/-- What the elements of a block quantise to. -/
def quantOf (l : Lg) (elts : List (Nat × Elt)) (b : Nat) : Quant :=
  quantBlock l ((elts.filter fun p => p.1 / 32 == b).map fun p => (p.1, p.2.val))

/-- A block with a poisoned element. -/
def badBlock (elts : List (Nat × Elt)) (b : Nat) : Bool := (elts.filter fun p => p.1 / 32 == b).any fun p => p.2.pois

/-- The pair shifts of a quantised block: a free value where the spec gives none. -/
def shiftsOf (q : Quant) (s : State) : Nat × State :=
  match q.shifts with
  | some w => (w, s)
  | none => (s.free.1.toNat % 2 ^ 32, s.free.2)

/-- How VPACK quant packs one block. -/
def packBlock (l : Lg) (vd : Nat) (elts : List (Nat × Elt)) (acc : VecState × Evs × State) (b : Nat) : VecState × Evs × State :=
  let q := quantOf l elts b
  ({ acc.1 with
      v := tset vd (putBits (acc.1.reg vd) 8 (q.codes.map fun c => ⟨c.1, c.2.1, badBlock elts b⟩))
        (tset (vd + 1) (putComp (acc.1.reg (vd + 1)) b q.scale (shiftsOf q acc.2.2).1) acc.1.v) },
    if badBlock elts b then acc.2.1 else q.codes.foldl (fun a c => a.add c.2.2 c.1) acc.2.1,
    (shiftsOf q acc.2.2).2)

/-- The state after some blocks `bs` are packed: their codes, their companion bytes and their events are in place, and nothing else has
changed but the free values used. -/
structure Packed (l : Lg) (vd : Nat) (elts : List (Nat × Elt)) (v : VecState) (s : State) (bs : List Nat) (r : VecState × Evs × State) :
    Prop where
  vec : r.1.pois = v.pois ∧ r.1.m = v.m ∧ r.1.rings = v.rings ∧ r.1.vp = v.vp
  state : ∃ n, r.2.2 = { s with fresh := n }
  others : ∀ k, k ≠ vd → k ≠ vd + 1 → r.1.reg k = v.reg k
  codes : ∀ e, elemAt (r.1.reg vd) 8 e = match (if e / 32 ∈ bs then tfind e (quantOf l elts (e / 32)).codes else none) with
    | some c => c.1 % 256
    | none => elemAt (v.reg vd) 8 e
  scales : ∀ b ∈ bs, ∃ w, w < 2 ^ 32 ∧ (∀ u, (quantOf l elts b).shifts = some u → w = u) ∧
    elemAt (r.1.reg (vd + 1)) 64 b = (quantOf l elts b).scale + w * 2 ^ 32
  kept : ∀ b, b ∉ bs → elemAt (r.1.reg (vd + 1)) 64 b = elemAt (v.reg (vd + 1)) 64 b
  events : ∀ c, c < 6 → Collects r.2.1
    (bs.flatMap fun b => if badBlock elts b then [] else (quantOf l elts b).codes.map fun c => (c.1, c.2.2)) c

theorem shiftsOf_spec (q : Quant) (s : State) (h : ∀ w, q.shifts = some w → w < 2 ^ 32) :
    (shiftsOf q s).1 < 2 ^ 32 ∧ (∀ u, q.shifts = some u → (shiftsOf q s).1 = u) ∧ ∃ n, (shiftsOf q s).2 = { s with fresh := n } := by
  unfold shiftsOf
  cases hq : q.shifts with
  | some w => exact ⟨h w hq, fun u hu => Option.some.inj hu, s.fresh, rfl⟩
  | none => exact ⟨Nat.mod_lt _ (by decide), fun u hu => (by cases hu), _, rfl⟩

/-- A list of different keys, searched as a table. -/
theorem find?_key {α : Type} (t : Tbl α) (e : Nat) : t.find? (fun c => c.1 == e) = (tfind e t).map fun x => (e, x) := by
  induction t with
  | nil => rfl
  | cons c t ih =>
    obtain ⟨j, x⟩ := c
    by_cases h : j = e
    · subst h; simp [tfind]
    · simp [tfind, h, ih]

theorem tfind_isSome {α : Type} (t : Tbl α) (e : Nat) : (tfind e t).isSome = true ↔ e ∈ t.map (·.1) := by
  induction t with
  | nil => simp [tfind]
  | cons c t ih =>
    obtain ⟨j, x⟩ := c
    by_cases h : j = e
    · subst h; simp [tfind]
    · simp only [tfind, if_neg h, ih, List.map_cons, List.mem_cons]
      exact ⟨.inr, fun hh => hh.resolve_left (Ne.symm h)⟩

theorem tfind_of_mem {α : Type} {t : Tbl α} (hn : (t.map (·.1)).Nodup) {k : Nat} {x : α} (h : (k, x) ∈ t) : tfind k t = some x := by
  induction t with
  | nil => cases h
  | cons c t ih =>
    obtain ⟨j, y⟩ := c
    rw [List.map_cons, List.nodup_cons] at hn
    rcases List.mem_cons.mp h with e | h
    · cases e
      simp [tfind]
    · have : j ≠ k := fun e => hn.1 (List.mem_map.mpr ⟨_, h, e.symm⟩)
      rw [tfind, if_neg this, ih hn.2 h]

/-- The codes of a block as they are put. -/
theorem elemAt_putCodes (b : Bits) (codes : Tbl (Nat × Ev)) (p : Bool) (hn : (codes.map (·.1)).Nodup) (e : Nat) :
    elemAt (putBits b 8 (codes.map fun c => ⟨c.1, c.2.1, p⟩)) 8 e = match tfind e codes with
      | some c => c.1 % 256
      | none => elemAt b 8 e := by
  rw [elemAt_putBits _ _ _ (by simpa [List.map_map, Function.comp_def] using hn), List.find?_map]
  have key : codes.find? ((fun r : Put => r.e == e) ∘ fun c => ⟨c.1, c.2.1, p⟩) = codes.find? fun c => c.1 == e := rfl
  rw [key, find?_key]
  cases tfind e codes <;> rfl

theorem elemAt_putComp (b : Bits) (blk scale shifts i : Nat) (h1 : scale < 256) (h2 : shifts < 2 ^ 32) :
    elemAt (putComp b blk scale shifts) 64 i = if i = blk then scale + shifts * 2 ^ 32 else elemAt b 64 i := by
  have : putComp b blk scale shifts = setElem b 64 blk (scale + shifts * 2 ^ 32) := by
    unfold putComp setElem
    rw [Nat.mul_comm]
  rw [this, elemAt_setElem, Nat.mod_eq_of_lt (by omega)]

section
variable {l : Lg} {vd : Nat} {elts : List (Nat × Elt)} {v : VecState} {s : State}

theorem quantOf_bounds (l : Lg) (elts : List (Nat × Elt)) (b : Nat) :
    (quantOf l elts b).scale < 256 ∧ ∀ w, (quantOf l elts b).shifts = some w → w < 2 ^ 32 := by
  obtain ⟨scale, fits, -⟩ := quantBlock_bounds l ((elts.filter fun p => p.1 / 32 == b).map fun p => (p.1, p.2.val))
  exact ⟨scale, fits⟩

/-- The elements of a block and their codes have the same keys. -/
theorem quantOf_keys (l : Lg) (elts : List (Nat × Elt)) (b : Nat) :
    (quantOf l elts b).codes.map (·.1) = (elts.filter fun p => p.1 / 32 == b).map (·.1) := by
  rw [quantOf, (quantBlock_bounds _ _).2.2, List.map_map]
  rfl

theorem quantOf_block {b e : Nat} (h : (tfind e (quantOf l elts b).codes).isSome = true) : e / 32 = b := by
  rw [tfind_isSome, quantOf_keys] at h
  obtain ⟨p, hp, rfl⟩ := List.mem_map.mp h
  simpa using (List.mem_filter.mp hp).2

theorem quantOf_nodup (distinct : (elts.map (·.1)).Nodup) (b : Nat) : ((quantOf l elts b).codes.map (·.1)).Nodup := by
  rw [quantOf_keys]
  exact distinct.sublist (List.filter_sublist.map _)

theorem Packed.block (distinct : (elts.map (·.1)).Nodup) {bs : List Nat} {r : VecState × Evs × State} (h : Packed l vd elts v s bs r)
    {b : Nat} (hb : b ∉ bs) : Packed l vd elts v s (bs ++ [b]) (packBlock l vd elts r b) := by
  obtain ⟨scale, fits⟩ := quantOf_bounds l elts b
  obtain ⟨hw, given, n, hn⟩ := shiftsOf_spec (quantOf l elts b) r.2.2 fits
  obtain ⟨m, hm⟩ := h.state
  have code : (packBlock l vd elts r b).1.reg vd =
      putBits (r.1.reg vd) 8 ((quantOf l elts b).codes.map fun c => ⟨c.1, c.2.1, badBlock elts b⟩) := by
    simp [packBlock, VecState.reg]
  have comp : (packBlock l vd elts r b).1.reg (vd + 1) =
      putComp (r.1.reg (vd + 1)) b (quantOf l elts b).scale (shiftsOf (quantOf l elts b) r.2.2).1 := by
    simp [packBlock, VecState.reg]
  constructor
  case vec => exact h.vec
  case state => exact ⟨n, by rw [packBlock, hn, hm]⟩
  case others =>
    intro k h1 h2
    rw [← h.others k h1 h2]
    simp [packBlock, VecState.reg, h1, h2]
  case codes =>
    intro e
    rw [code, elemAt_putCodes _ _ _ (quantOf_nodup distinct b), h.codes e]
    by_cases he : e / 32 = b
    · subst he
      simp [hb]
    · have : tfind e (quantOf l elts b).codes = none :=
        Option.not_isSome_iff_eq_none.mp fun hh => he (quantOf_block hh)
      simp [this, he]
  case scales =>
    intro i hi
    rw [comp, elemAt_putComp _ _ _ _ _ scale hw]
    rcases List.mem_append.mp hi with hi | hi
    · rw [if_neg fun e : i = b => hb (e ▸ hi)]
      exact h.scales i hi
    · obtain rfl := List.mem_singleton.mp hi
      exact ⟨_, hw, given, if_pos rfl⟩
  case kept =>
    intro i hi
    simp only [List.mem_append, List.mem_singleton, not_or] at hi
    rw [comp, elemAt_putComp _ _ _ _ _ scale hw, if_neg hi.2]
    exact h.kept i hi.1
  case events =>
    intro c hc
    rw [List.flatMap_append]
    simp only [packBlock, List.flatMap_cons, List.flatMap_nil, List.append_nil]
    split
    · simpa using h.events c hc
    · have := Collects.fold hc ((quantOf l elts b).codes.map fun c => (c.1, c.2.2)) _ _ (h.events c hc)
      rwa [List.foldl_map] at this

theorem packed_foldl (distinct : (elts.map (·.1)).Nodup) (bs : List Nat) (hn : bs.Nodup) :
    Packed l vd elts v s bs (bs.foldl (packBlock l vd elts) (v, Evs.none, s)) := by
  induction bs using List.reverseRecOn with
  | nil => exact ⟨⟨rfl, rfl, rfl, rfl⟩, ⟨s.fresh, rfl⟩, fun _ _ _ => rfl, fun _ => rfl, by simp, fun _ _ => rfl, fun _ _ => collects_nil⟩
  | append_singleton bs b ih =>
    rw [List.nodup_append] at hn
    rw [List.foldl_append]
    exact (ih hn.1).block distinct fun hb => hn.2.2 b hb b (by simp) rfl

end

/-- A word of chapter 07 that wrote `v` (R155). -/
theorem vectorDone_vDone {s : State} {v : VecState} (hs : s.Started) (hp : s.vpNow = none) (hq : s.quiet) (hv : v.vp = s.vec.vp)
    (reads : List Opnd) (sr : Bool) (e : Evs) : VectorDone s (s.vDone v reads sr e) (v.popRings (ringsOf reads)) e sr.toNat [] := by
  have vp : (v.popRings (ringsOf reads)).vp = s.vec.vp := (popRings_same _ _).2.2.2.2.trans hv
  rw [Bool.toNat, Bool.cond_eq_ite]
  exact vectorDone_finish (holds_modVec s _ hs) sr e hp hq vp

/-- A word of chapter 07 whose checks pass goes on (R151). -/
theorem transform_ready {s : State} {dec : Bool} {lg : Option Lg} {l : Lg} (legend : lg = some l) {width : Lg → Nat}
    {reads writes : List Opnd} (ready : VectorReady s dec (s.vlOk (width l)) reads writes) (go : Lg → State → State) :
    s.transform dec lg width reads writes go = go l s := by
  subst legend
  exact vIssue_ready ready _

/-- Outside VP mode the active elements run (R131, R133). -/
theorem vRun_active {s : State} (h : s.vpNow = none) (m : Nat) : (s.vRun m).act = s.vec.active m s.th.vl := by
  unfold State.vRun
  rw [h]

/-- The active elements with their values. -/
def activeElts (f : FmtV) (s : State) (l : Lg) : List (Nat × Elt) :=
  (s.vec.active f.m.toNat s.th.vl).map fun e => (e, readElt s.vec s.nslabs l ⟨opnd f.qa f.va, l.fa, none⟩ 0 e)

/-- The blocks with an active element. -/
def activeBlocks (f : FmtV) (s : State) : List Nat := ldedup ((s.vec.active f.m.toNat s.th.vl).map (· / 32))

/-- The poison after the codes and the companion bytes of VPACK quant. -/
def packPois (vd : Nat) (elts : List (Nat × Elt)) (blocks : List Nat) (p : NatSet) : NatSet :=
  let bad (b : Nat) : Bool := elts.any fun x => x.1 / 32 == b && x.2.pois
  putPois (egKey (vd + 1)) (putPois (egKey vd) p 8 (elts.map fun p => ⟨p.1, 0, bad (p.1 / 32)⟩)) 64 (blocks.map fun b => ⟨b, 0, bad b⟩)

theorem exec_vpackQuant {f : FmtV} {s : State} {l : Lg}
    (legend : keepIf (s.legendNoScm f ⟨true, false, false, true, true⟩) (fun l => l.fa.wide && l.fd.narrow) = some l)
    (ready : VectorReady s (s.dec1 f [vMulti f.qd f.vd 2 1] (vFields f 1)) (s.vlOk (maxWidth [l.fa.width])) [opnd f.qa f.va] []) :
    exec (.vpackQuant f) s =
      let elts := activeElts f s l
      let r := (activeBlocks f s).foldl (packBlock l f.vd.toNat elts) (s.vec, Evs.none, s)
      .next (r.2.2.vDone { r.1 with pois := packPois f.vd.toNat elts (activeBlocks f s) r.1.pois } [opnd f.qa f.va] l.sr r.2.1) := by
  show execVpackQuant f s = _
  unfold execVpackQuant
  simp only []
  rw [transform_ready legend ready, vRun_active ready.plain]
  rfl

theorem bitsAt_low (b lo : Nat) : bitsAt b lo 8 = bitsAt b lo 64 % 2 ^ 8 := by
  unfold bitsAt
  rw [Nat.mod_mod_of_dvd _ (by decide)]

theorem bitsAt_high (b lo : Nat) : bitsAt b (lo + 32) 32 = bitsAt b lo 64 / 2 ^ 32 := by
  unfold bitsAt
  rw [Nat.shiftRight_add, Nat.shiftRight_eq_div_pow _ 32, ← Nat.mod_mul_right_div_self]
  norm_num

/-- Poison of the codes and the companion bytes of a poisoned block (R138). -/
theorem smem_packPois {vd : Nat} {elts : List (Nat × Elt)} {blocks : List Nat} (small : ∀ p ∈ elts, p.1 < 8192)
    (blocked : ∀ b, b ∈ blocks ↔ ∃ p ∈ elts, p.1 / 32 = b) (p : NatSet) {e : Nat} {x : Elt} (he : (e, x) ∈ elts)
    (bad : ∃ y ∈ elts, y.1 / 32 = e / 32 ∧ y.2.pois = true) :
    smem (egKey vd (egOf 8 e)) (packPois vd elts blocks p) = true ∧
      smem (egKey (vd + 1) (egOf 64 (e / 32))) (packPois vd elts blocks p) = true := by
  have eg8 {e : Nat} (h : e < 8192) : egOf 8 e < 64 := by unfold egOf; omega
  have eg64 {e : Nat} (h : e < 8192) : egOf 64 (e / 32) < 64 := by unfold egOf; omega
  have sick : (elts.any fun y => y.1 / 32 == e / 32 && y.2.pois) = true := by
    obtain ⟨y, hy, h1, h2⟩ := bad
    exact List.any_eq_true.mpr ⟨y, hy, by simp [h1, h2]⟩
  have inner : smem (egKey vd (egOf 8 e)) (putPois (egKey vd) p 8 (elts.map fun p =>
      (⟨p.1, 0, elts.any fun x => x.1 / 32 == p.1 / 32 && x.2.pois⟩ : Put))) = true := by
    rw [smem_putPois _ _ _ _ _ fun r hr q hq h => ?_, if_pos ⟨_, List.mem_map_of_mem he, rfl⟩,
      if_pos ⟨_, List.mem_map_of_mem he, rfl, sick⟩]
    obtain ⟨a, ha, rfl⟩ := List.mem_map.mp hr
    obtain ⟨b, hb, rfl⟩ := List.mem_map.mp hq
    exact (egKey_inj (eg8 (small a ha)) (eg8 (small b hb)) h).2
  have outer (x : Nat) := smem_putPois (egKey (vd + 1)) (putPois (egKey vd) p 8 (elts.map fun p =>
      (⟨p.1, 0, elts.any fun x => x.1 / 32 == p.1 / 32 && x.2.pois⟩ : Put))) 64
    (blocks.map fun b => ⟨b, 0, elts.any fun x => x.1 / 32 == b && x.2.pois⟩) x fun r hr q hq h => by
      obtain ⟨a, ha, rfl⟩ := List.mem_map.mp hr
      obtain ⟨b, hb, rfl⟩ := List.mem_map.mp hq
      obtain ⟨y, hy, rfl⟩ := (blocked a).mp ha
      obtain ⟨z, hz, rfl⟩ := (blocked b).mp hb
      exact (egKey_inj (eg64 (small y hy)) (eg64 (small z hz)) h).2
  have here : e / 32 ∈ blocks := (blocked _).mpr ⟨_, he, rfl⟩
  unfold packPois
  constructor
  · rw [outer, if_neg, inner]
    rintro ⟨r, hr, h⟩
    obtain ⟨b, hb, rfl⟩ := List.mem_map.mp hr
    obtain ⟨y, hy, rfl⟩ := (blocked b).mp hb
    have := (egKey_inj (eg64 (small y hy)) (eg8 (small _ he)) h).1
    omega
  · rw [outer, if_pos ⟨_, List.mem_map_of_mem here, rfl⟩, if_pos ⟨_, List.mem_map_of_mem here, rfl, sick⟩]

theorem active_nodup (v : VecState) (m vl : Nat) : (v.active m vl).Nodup := by
  unfold VecState.active nrange
  exact (List.Nodup.map (fun a b h => by simpa using h) List.nodup_range).filter _

theorem active_lt {v : VecState} {m vl e : Nat} (h : e ∈ v.active m vl) : e < vl := by
  unfold VecState.active at h
  rw [List.mem_filter, mem_nrange] at h
  omega

section
variable {f : FmtV} {s : State} {l : Lg}

theorem mem_activeElts {e : Nat} {x : Elt} : (e, x) ∈ activeElts f s l ↔
    e ∈ s.vec.active f.m.toNat s.th.vl ∧ readElt s.vec s.nslabs l ⟨opnd f.qa f.va, l.fa, none⟩ 0 e = x := by
  simp [activeElts]

theorem activeElts_keys : (activeElts f s l).map (·.1) = s.vec.active f.m.toNat s.th.vl := by
  simp [activeElts, Function.comp_def]

theorem activeElts_nodup : ((activeElts f s l).map (·.1)).Nodup := by
  rw [activeElts_keys]
  exact active_nodup _ _ _

theorem mem_activeBlocks {b : Nat} : b ∈ activeBlocks f s ↔ ∃ p ∈ activeElts f s l, p.1 / 32 = b := by
  simp [activeBlocks, activeElts]

/-- A code stands for each active element and for no other. -/
theorem code_isSome {e : Nat} :
    (tfind e (quantOf l (activeElts f s l) (e / 32)).codes).isSome = true ↔ e ∈ s.vec.active f.m.toNat s.th.vl := by
  rw [tfind_isSome, quantOf_keys]
  simp [activeElts]

end

theorem keepIf_some {lg : Option Lg} {p : Lg → Bool} {l : Lg} (h : keepIf lg p = some l) : lg = some l ∧ p l = true := by
  unfold keepIf at h
  obtain ⟨k, hk, h⟩ := Option.bind_eq_some_iff.mp h
  split at h
  · obtain rfl := Option.some.inj h
    exact ⟨hk, by assumption⟩
  · cases h

theorem Fmt.wide_width {f : Fmt} (h : f.wide = true) : 16 ≤ f.width := by revert h; cases f <;> decide

/-- The events of an instruction on one register: those that a list of occurrences raises, each at the element's own index. -/
theorem eventsOf_one {ev : Evs} {vl : Nat} {act : List Nat} {raised : Nat → Ev} {l : List (Nat × Ev)}
    (collects : ∀ c, c < 6 → Collects ev l c)
    (sound : ∀ p ∈ l, ∀ c, p.2.getLsbD c = true → p.1 ∈ act ∧ (raised p.1).getLsbD c = true)
    (complete : ∀ e ∈ act, ∀ c, (raised e).getLsbD c = true → (e, raised e) ∈ l) : EventsOf ev 1 vl act (fun _ e => raised e) := by
  intro c hc
  obtain ⟨raises, hit, least⟩ := collects c hc
  refine ⟨raises.trans ⟨fun ⟨p, hp, h⟩ => ?_, fun ⟨_, _, e, he, h⟩ => ⟨_, complete e he c h, h⟩⟩, fun h => ⟨?_, fun j hj e he h => ?_⟩⟩
  · obtain ⟨h1, h2⟩ := sound p hp c h
    exact ⟨0, Nat.one_pos, p.1, h1, h2⟩
  · obtain ⟨p, hp, h, hi⟩ := hit h
    obtain ⟨h1, h2⟩ := sound p hp c h
    exact ⟨0, Nat.one_pos, p.1, h1, h2, by rw [hi, Nat.zero_mul, Nat.zero_add]⟩
  · obtain rfl : j = 0 := by omega
    rw [Nat.zero_mul, Nat.zero_add]
    exact least _ (complete e he c h) h

/-- VPACK quant packs each block with an active element (R158). -/
theorem vpackQuant_packs {f : FmtV} {s : State} {l : Lg} (quiet : s.quiet)
    (legend : keepIf (s.legendNoScm f ⟨true, false, false, true, true⟩) (fun l => l.fa.wide && l.fd.narrow) = some l)
    (ready : VectorReady s (s.dec1 f [vMulti f.qd f.vd 2 1] (vFields f 1)) (s.vlOk (maxWidth [l.fa.width])) [opnd f.qa f.va] []) :
    let elts := activeElts f s l
    let bs := activeBlocks f s
    let vd := f.vd.toNat
    Completes (.vpackQuant f) s fun t => ∃ v ev n, VectorDone { s with fresh := n } t v ev l.sr.toNat [] ∧
      RingsTaken s.vec v [opnd f.qa f.va] (.reg vd) ∧ v.m = s.vec.m ∧ v.pois = packPois vd elts bs s.vec.pois ∧
      ∃ r : VecState × Evs × State, Packed l vd elts s.vec s bs r ∧ (∀ k, v.reg k = r.1.reg k) ∧ ev = r.2.1 := by
  intro elts bs vd
  have packed := packed_foldl (l := l) (vd := vd) (elts := elts) (v := s.vec) (s := s)
    activeElts_nodup bs (nodup_ldedup _)
  have run := exec_vpackQuant legend ready
  generalize hr : bs.foldl (packBlock l vd elts) (s.vec, Evs.none, s) = r at packed
  simp only [show (activeBlocks f s).foldl (packBlock l f.vd.toNat (activeElts f s l)) (s.vec, Evs.none, s) = r from hr] at run
  obtain ⟨n, hn⟩ := packed.state
  obtain ⟨pois, masks, rings, vp⟩ := packed.vec
  obtain ⟨hv, hpois, hm, -⟩ := popRings_same (ringsOf [opnd f.qa f.va]) { r.1 with pois := packPois vd elts bs r.1.pois }
  have done := vectorDone_vDone (s := { s with fresh := n }) (v := { r.1 with pois := packPois vd elts bs r.1.pois }) ready.started
    ready.plain quiet vp [opnd f.qa f.va] l.sr r.2.1
  refine ⟨_, run, _, r.2.1, n, hn ▸ done, fun q _ => ?_, hm.trans masks, hpois.trans (by rw [pois]), r, packed,
    fun k => congrArg (tget 0 k) hv, rfl⟩
  rw [ring_popRings]
  simp only [not_mem_ringsOf, VecState.ring, rings]

/-- Settles O21: VPACK quant by the invariant `Packed` over its blocks; the scales by the greatest exponent of a block. -/
theorem blockQuantisation : Obligations.BlockQuantisation := by
  unfold Obligations.BlockQuantisation
  refine ⟨fun f s l quiet legend ready _ => ?packs, fun l vals _ => ⟨quantBlock_special, quantBlock_zeros, fun finite p hp => quantBlock_finite finite hp⟩⟩
  intro act x here q code bad vd
  have hq (b : Nat) : quantOf l (activeElts f s l) b = q b := by
    unfold quantOf activeElts
    rw [List.filter_map, List.map_map]
    rfl
  have hbad (b : Nat) : badBlock (activeElts f s l) b = bad b := by
    unfold badBlock activeElts
    rw [List.filter_map, List.any_map]
    rfl
  have block (b : Nat) : b ∈ activeBlocks f s ↔ here b ≠ [] := by
    rw [mem_activeBlocks (l := l), ne_eq, List.filter_eq_nil_iff]
    simp [activeElts, act]
  have hcode (e : Nat) (he : e ∈ act) : tfind e (q (e / 32)).codes = some (code e) := by
    obtain ⟨c, hc⟩ := Option.isSome_iff_exists.mp ((code_isSome (l := l)).mpr he)
    rw [hq] at hc
    simp [code, tget, hc]
  have nocode (e : Nat) (he : e ∉ act) : tfind e (q (e / 32)).codes = none := by
    rw [← hq, ← Option.not_isSome_iff_eq_none, code_isSome]
    exact he
  have small : ∀ p ∈ activeElts f s l, p.1 < 8192 := fun p hp => by
    have wide : l.fa.wide = true := (Bool.and_eq_true_iff.mp (keepIf_some legend).2).1
    have width : 16 ≤ maxWidth [l.fa.width] := Nat.le_trans (Fmt.wide_width wide) (le_maxWidth (by simp))
    have := egOf_lt (State.vlOk_mono ready.dispatch (by decide) width) p.1 (active_lt (mem_activeElts.mp hp).1)
    unfold egOf at this
    omega
  obtain ⟨t, run, v, ev, n, done, rings, masks, pois, r, packed, regs, rfl⟩ := vpackQuant_packs quiet legend ready
  refine ⟨t, run, v, _, n, done, fun k h1 h2 => ?_, masks, rings, fun e => ?_, fun b hb => ?_, fun b hb => ?_, fun e he hb => ?_, ?_⟩
  · rw [regs, packed.others k h1 h2]
  · rw [regs, packed.codes e, hq]
    by_cases he : e ∈ act
    · have : e / 32 ∈ activeBlocks f s := (block _).mpr (List.ne_nil_of_mem (List.mem_filter.mpr ⟨he, by simp⟩))
      simp [he, this, hcode e he]
    · simp [he, nocode e he, vd]
  · obtain ⟨w, hw, given, h⟩ := packed.scales b ((block b).mpr hb)
    have scale := (quantOf_bounds l (activeElts f s l) b).1
    rw [elemAt, Nat.mul_comm, ← regs] at h
    rw [hq] at given scale h
    refine ⟨?_, fun u hu => ?_⟩
    · rw [bitsAt_low, h]; omega
    · rw [bitsAt_high, h, ← given u hu]; omega
  · have := packed.kept b fun h => (block b).mp h hb
    rwa [elemAt, elemAt, Nat.mul_comm, ← regs] at this
  · rw [pois]
    obtain ⟨y, hy, hyp⟩ := List.any_eq_true.mp hb
    obtain ⟨hya, hyb⟩ := List.mem_filter.mp hy
    exact smem_packPois small (fun b => mem_activeBlocks) _ (mem_activeElts.mpr ⟨he, rfl⟩)
      ⟨(y, x y), mem_activeElts.mpr ⟨hya, rfl⟩, by simpa using hyb, hyp⟩
  · refine eventsOf_one packed.events (fun p hp c hc => ?_) fun e he c hc => ?_
    · obtain ⟨b, hb, hp⟩ := List.mem_flatMap.mp hp
      rw [hbad, hq] at hp
      split at hp
      · cases hp
      · next good =>
        obtain ⟨⟨e, d⟩, hd, rfl⟩ := List.mem_map.mp hp
        have found : tfind e (q b).codes = some d := tfind_of_mem (by rw [← hq]; exact quantOf_nodup activeElts_nodup b) hd
        obtain rfl : e / 32 = b := quantOf_block (by rw [hq, found]; rfl)
        have he : e ∈ act := by
          by_contra he
          rw [nocode e he] at found
          cases found
        have hcd : code e = d := Option.some.inj ((hcode e he).symm.trans found)
        exact ⟨he, by simpa [good, hcd] using hc⟩
    · have good : bad (e / 32) = false := by
        cases h : bad (e / 32) with
        | false => rfl
        | true => rw [h, if_pos rfl] at hc; simp at hc
      refine List.mem_flatMap.mpr ⟨e / 32, (block _).mpr (List.ne_nil_of_mem (List.mem_filter.mpr ⟨he, by simp⟩)), ?_⟩
      rw [hbad, hq, good, if_neg (by simp), if_neg (by simp)]
      exact List.mem_map.mpr ⟨(e, code e), mem_of_tfind (hcode e he), rfl⟩

end Sys2Proof.Machine
end

section
namespace Sys2Proof.Machine

/-! The tree of a reduction (R53). -/

section
variable {α β : Type} {f : Nat → TNode α → TNode α → TNode α × β} {R : List (TNode α) → TNode α → Prop}

/-- A level of the tree over some leaves: each node stands for leaves that follow one another, as `R` says, and an absent node for none. -/
inductive Covers (R : List (TNode α) → TNode α → Prop) : List (Option (TNode α)) → List (TNode α) → Prop
  | nil : Covers R [] []
  | absent {ns xs} : Covers R ns xs → Covers R (none :: ns) xs
  | node {x g ns xs} : g ≠ [] → R g x → Covers R ns xs → Covers R (some x :: ns) (g ++ xs)

theorem covers_leaves (single : ∀ a, R [a] a) (leaves : List (Option (TNode α))) : Covers R leaves (leaves.filterMap id) := by
  induction leaves with
  | nil => exact .nil
  | cons x t ih =>
    cases x with
    | none => exact .absent ih
    | some a => exact .node (g := [a]) (by simp) (single a) ih

theorem Covers.absents {ns : List (Option (TNode α))} {xs : List (TNode α)} (h : Covers R ns xs) (n : Nat) :
    Covers R (ns ++ List.replicate n none) xs := by
  induction h with
  | nil =>
    induction n with
    | zero => exact .nil
    | succ n ih => exact .absent ih
  | absent _ ih => exact .absent ih
  | node h1 h2 _ ih => exact .node h1 h2 ih

/-- One level up: the nodes stand for the same leaves. -/
theorem Covers.pairs (join : ∀ lvl xs ys x y, xs ≠ [] → ys ≠ [] → R xs x → R ys y → R (xs ++ ys) (f lvl x y).1) (lvl : Nat) :
    ∀ {ns : List (Option (TNode α))} {xs : List (TNode α)}, Covers R ns xs → Covers R (treePairs f lvl ns).1 xs
  | [], _, h => h
  | [_], _, h => h
  | none :: _ :: _, _, .absent (.absent h) => .absent (h.pairs join lvl)
  | none :: _ :: _, _, .absent (.node h1 h2 h) => .node h1 h2 (h.pairs join lvl)
  | some _ :: none :: _, _, .node h1 h2 (.absent h) => .node h1 h2 (h.pairs join lvl)
  | some _ :: some _ :: _, _, .node (g := g) (xs := _) h1 h2 (.node (g := k) (xs := xs) h3 h4 h) => by
    rw [← List.append_assoc]
    exact .node (by simp [h1]) (join lvl _ _ _ _ h1 h3 h2 h4) (h.pairs join lvl)

theorem length_treePairs (lvl : Nat) : ∀ ns : List (Option (TNode α)), (treePairs f lvl ns).1.length = (ns.length + 1) / 2
  | [] => by simp [treePairs]
  | [_] => by simp [treePairs]
  | none :: _ :: t => by
    have := length_treePairs lvl t
    simp only [treePairs, List.length_cons] at *
    omega
  | some _ :: none :: t => by
    have := length_treePairs lvl t
    simp only [treePairs, List.length_cons] at *
    omega
  | some _ :: some _ :: t => by
    have := length_treePairs lvl t
    simp only [treePairs, List.length_cons] at *
    omega

/-- The root: absent over no leaves, else as `R` says. -/
def RootOf (R : List (TNode α) → TNode α → Prop) (xs : List (TNode α)) : Option (TNode α) → Prop
  | none => xs = []
  | some r => xs ≠ [] ∧ R xs r

theorem Covers.root (join : ∀ lvl xs ys x y, xs ≠ [] → ys ≠ [] → R xs x → R ys y → R (xs ++ ys) (f lvl x y).1) (fuel : Nat) :
    ∀ (lvl : Nat) {ns : List (Option (TNode α))} {xs : List (TNode α)} (es : List β), Covers R ns xs → ns.length = 2 ^ fuel →
      RootOf R xs (treeUp f fuel lvl ns es).1 := by
  induction fuel with
  | zero =>
    intro lvl ns xs es h hl
    cases h with
    | nil => simp at hl
    | absent h =>
      cases h with
      | nil => rfl
      | absent h => simp at hl
      | node => simp at hl
    | node h1 h2 h =>
      cases h with
      | nil => exact ⟨by simpa using h1, by simpa using h2⟩
      | absent h => simp at hl
      | node => simp at hl
  | succ fuel ih =>
    intro lvl ns xs es h hl
    exact ih (lvl + 1) _ (h.pairs join lvl) (by rw [length_treePairs, hl, Nat.pow_succ]; omega)

theorem le_treeLevels (n : Nat) : n ≤ 2 ^ treeLevels n := by
  unfold treeLevels
  split
  · simpa using ‹n ≤ 1›
  · have := Nat.lt_log2_self (n := n - 1)
    omega

/-- The root of the tree over some leaves: `R` holds of a leaf alone, and each node joins what it stands for. -/
theorem treeOf_root (single : ∀ a, R [a] a) (join : ∀ lvl xs ys x y, xs ≠ [] → ys ≠ [] → R xs x → R ys y → R (xs ++ ys) (f lvl x y).1)
    (leaves : List (Option (TNode α))) : RootOf R (leaves.filterMap id) (treeOf f leaves).1 := by
  refine ((covers_leaves single leaves).absents _).root join _ _ _ ?_
  have := le_treeLevels leaves.length
  simp
  omega

end

/-- Leaves at the places of the active elements. -/
theorem leavesOf_active {α : Type} (v : VecState) (m vl : Nat) (g : Nat → α) :
    leavesOf vl ((v.active m vl).map fun e => (e, g e)) = (nrange 0 vl).map fun e => if e ∈ v.active m vl then some (g e) else none := by
  have find (act : List Nat) (e : Nat) : tfind e (act.map fun e => (e, g e)) = if e ∈ act then some (g e) else none := by
    induction act with
    | nil => rfl
    | cons a t ih =>
      by_cases h : a = e
      · subst h; simp [tfind]
      · simp [tfind, h, ih, Ne.symm h]
  unfold leavesOf
  exact List.map_congr_left fun e _ => find _ e

theorem filterMap_leaves {α : Type} (v : VecState) (m vl : Nat) (g : Nat → α) :
    ((nrange 0 vl).map fun e => if e ∈ v.active m vl then some (g e) else none).filterMap id = (v.active m vl).map g := by
  have keep (l : List Nat) (p : Nat → Bool) :
      (l.map fun e => if p e = true then some (g e) else none).filterMap id = (l.filter p).map g := by
    induction l with
    | nil => rfl
    | cons a t ih => cases h : p a <;> simpa [h] using ih
  rw [VecState.active, ← keep]
  congr 1
  refine List.map_congr_left fun e he => ?_
  simp [List.mem_filter, he]

/-- The root of the summation tree is poisoned where a leaf is, and absent where there is no leaf. -/
theorem sumTree_root (l : Lg) (leaves : List (Option (TNode Val))) :
    RootOf (fun xs r => r.pois = xs.any (·.pois)) (leaves.filterMap id) (sumTree l leaves).1 := by
  have h := treeOf_root (R := fun xs r => r.pois = xs.any (·.pois)) (f := fun lvl a b =>
    let r := roundVal l.fc (l.at lvl a.low) (addV l.ctx.mode a.val b.val)
    (⟨r.1, a.low, a.pois || b.pois⟩, (r.2, a.low, a.pois || b.pois))) (by simp) (fun lvl xs ys x y _ _ hx hy => by simp [hx, hy]) leaves
  unfold sumTree
  simp only []
  revert h
  cases (treeOf _ leaves).1 with
  | none => exact id
  | some r => exact id

end Sys2Proof.Machine
end

section
namespace Sys2Proof.Machine

/-! The order of values that are not NaN (R32). -/

/-- A value whose magnitude has a denominator. -/
def Val.Proper : Val → Prop
  | .fin _ m => m.den ≠ 0
  | _ => True

/-- The place of a value that is not NaN on the extended line, by its signed fraction. -/
def Val.place : Val → WithBot (WithTop ℚ)
  | .inf neg => if neg then ⊥ else ((⊤ : WithTop ℚ) : WithBot (WithTop ℚ))
  | .fin neg m => (((signedNum neg m.num : ℚ) / m.den : ℚ) : WithTop ℚ)
  | .nan _ => ⊥

theorem signedNum_mul (neg : Bool) (a b : Nat) : signedNum neg (a * b) = signedNum neg a * b := by
  cases neg <;> simp [signedNum]

/-- The comparison of two finite values is that of their fractions. -/
theorem compare_signedNum (na nb : Bool) {a b : Mag} (ha : a.den ≠ 0) (hb : b.den ≠ 0) :
    compare (signedNum na (a.num * b.den)) (signedNum nb (b.num * a.den)) =
      compare ((signedNum na a.num : ℚ) / a.den) ((signedNum nb b.num : ℚ) / b.den) := by
  have pa : (0 : ℚ) < a.den := by exact_mod_cast Nat.pos_of_ne_zero ha
  have pb : (0 : ℚ) < b.den := by exact_mod_cast Nat.pos_of_ne_zero hb
  rw [signedNum_mul, signedNum_mul]
  rcases lt_trichotomy (signedNum na a.num * b.den : ℤ) (signedNum nb b.num * a.den) with h | h | h
  · have h' : (signedNum na a.num : ℚ) / a.den < signedNum nb b.num / b.den := by rw [div_lt_div_iff₀ pa pb]; exact_mod_cast h
    rw [compare_lt_iff_lt.mpr h, compare_lt_iff_lt.mpr h']
  · have h' : (signedNum na a.num : ℚ) / a.den = signedNum nb b.num / b.den := by rw [div_eq_div_iff pa.ne' pb.ne']; exact_mod_cast h
    rw [compare_eq_iff_eq.mpr h, compare_eq_iff_eq.mpr h']
  · have h' : (signedNum nb b.num : ℚ) / b.den < signedNum na a.num / a.den := by rw [div_lt_div_iff₀ pb pa]; exact_mod_cast h
    rw [compare_gt_iff_gt.mpr h, compare_gt_iff_gt.mpr h']

/-- `cmpV` compares places. -/
theorem cmpV_place {a b : Val} (ha : a.Proper) (hb : b.Proper) (na : a.isNan = false) (nb : b.isNan = false) :
    cmpV a b = compare a.place b.place := by
  have mono : StrictMono fun q : ℚ => ((q : WithTop ℚ) : WithBot (WithTop ℚ)) :=
    fun _ _ h => WithBot.coe_lt_coe.mpr (WithTop.coe_lt_coe.mpr h)
  cases a with
  | nan _ => cases na
  | inf x =>
    cases b with
    | nan _ => cases nb
    | inf y => cases x <;> cases y <;> rfl
    | fin y m =>
      cases x with
      | false => exact (compare_gt_iff_gt.mpr (WithBot.coe_lt_coe.mpr (WithTop.coe_lt_top _))).symm
      | true => exact (compare_lt_iff_lt.mpr (WithBot.bot_lt_coe _)).symm
  | fin x m =>
    cases b with
    | nan _ => cases nb
    | inf y =>
      cases y with
      | false => exact (compare_lt_iff_lt.mpr (WithBot.coe_lt_coe.mpr (WithTop.coe_lt_top _))).symm
      | true => exact (compare_gt_iff_gt.mpr (WithBot.bot_lt_coe _)).symm
    | fin y k => exact (compare_signedNum x y ha hb).trans (by rw [← cmp_eq_compare, ← cmp_eq_compare]; exact (mono.cmp_map_eq _ _).symm)

theorem Mag.scale_den {m : Mag} (h : m.den ≠ 0) (k : Int) : (m.scale k).den ≠ 0 := by
  unfold Mag.scale
  simp only []
  generalize (if m.root = true then 2 * k else k) = n
  split <;> simp [h]

theorem decodeF_proper (f : Fmt) (code : Nat) : (decodeF f code).Proper := by
  unfold decodeF
  simp only []
  split
  · exact Mag.scale_den (by simp) _
  · split
    · split <;> trivial
    · split
      · trivial
      · split <;> exact Mag.scale_den (by simp) _

/-- Every element has a proper value. -/
theorem valueOf_proper (f : Fmt) (daz mx : Bool) (sc : EScale) (code : Nat) : (valueOf f daz mx sc code).Proper := by
  unfold valueOf
  split
  · split <;> simp [Val.Proper]
  · split
    · split
      · trivial
      · exact Mag.scale_den (by simp) _
    · cases sc with
      | nan => trivial
      | pow k =>
        simp only []
        split
        · simp [zeroV, Val.Proper]
        · have := decodeF_proper f code
          revert this
          cases decodeF f code with
          | fin _ m => exact fun h => Mag.scale_den h k
          | nan _ => exact id
          | inf _ => exact id

theorem readElt_proper (v : VecState) (slabs : Nat) (lg : Lg) (s : Src) (j e : Nat) : (readElt v slabs lg s j e).val.Proper :=
  valueOf_proper _ _ _ _ _

/-! Selections (R115, R144, R161). -/

/-- Of two values that are not NaN, the first is no less extreme: not above the second for a minimum, not below it for a maximum. -/
def NoWorse (isMax : Bool) (a b : Val) : Prop := if isMax then b.place ≤ a.place else a.place ≤ b.place

theorem NoWorse.refl (isMax : Bool) (a : Val) : NoWorse isMax a a := by
  unfold NoWorse
  split <;> exact le_refl _

theorem NoWorse.trans {isMax : Bool} {a b c : Val} (h : NoWorse isMax a b) (k : NoWorse isMax b c) : NoWorse isMax a c := by
  cases isMax with
  | false => exact le_trans (show a.place ≤ b.place from h) k
  | true => exact le_trans (show c.place ≤ b.place from k) h

/-- The canonical NaN, or +0 where the format has none (R144). -/
def nanCode (f : Fmt) : Nat := if f.hasNan then f.qnan else 0

/-- The selection of two numbers takes one of them, with its own bits, that is no worse than both. -/
theorem select_numbers (f : Fmt) (isMax prop : Bool) {a b : Val × Nat} (pa : a.1.Proper) (pb : b.1.Proper) (na : a.1.isNan = false)
    (nb : b.1.isNan = false) :
    let r := (selVal isMax a.1 b.1, (selMinMax f isMax prop a.1 b.1 a.2 b.2).1)
    (r = a ∨ r = b) ∧ NoWorse isMax r.1 a.1 ∧ NoWorse isMax r.1 b.1 := by
  have order := cmpV_place pa pb na nb
  unfold selVal selMinMax NoWorse
  simp only [na, nb, Bool.false_eq_true, if_false, Bool.and_self]
  cases h : cmpV a.1 b.1 with
  | eq =>
    have := compare_eq_iff_eq.mp (order.symm.trans h)
    cases isMax <;> simp [this]
  | lt =>
    have := le_of_lt (compare_lt_iff_lt.mp (order.symm.trans h))
    cases isMax <;> simp [this]
  | gt =>
    have := le_of_lt (compare_gt_iff_gt.mp (order.symm.trans h))
    cases isMax <;> simp [this]

/-- A NaN that does not propagate leaves the number. -/
theorem select_one (f : Fmt) (isMax : Bool) {a b : Val × Nat} (h : a.1.isNan ≠ b.1.isNan) :
    (selVal isMax a.1 b.1, (selMinMax f isMax false a.1 b.1 a.2 b.2).1) = if a.1.isNan then b else a := by
  unfold selVal selMinMax
  cases ha : a.1.isNan <;> cases hb : b.1.isNan <;> simp_all

/-- Two NaNs, or one that propagates, give the canonical NaN. -/
theorem select_nan (f : Fmt) (isMax prop : Bool) {a b : Val × Nat}
    (h : (a.1.isNan && b.1.isNan || prop && (a.1.isNan || b.1.isNan)) = true) :
    (selMinMax f isMax prop a.1 b.1 a.2 b.2).1 = nanCode f := by
  unfold selMinMax nanCode
  cases ha : a.1.isNan <;> cases hb : b.1.isNan <;> cases f.hasNan <;> simp_all

end Sys2Proof.Machine
end

section
namespace Sys2Proof.Machine

/-! The end of a word of chapter 07 that writes one register or ring (R138, R155). -/

/-- Results put into one destination, with the rings that were read popped, are those of an elementwise instruction. -/
theorem elementwise_putOp (v : VecState) (act : List Nat) (reads : List Opnd) (dst : Opnd) {w : Nat} (bits : Nat → Nat) (pois : Nat → Bool)
    (hw : 0 < w) (hd : w ∣ 2048) (hn : act.Nodup) (hb : ∀ e ∈ act, egOf w e < 64) :
    Elementwise v ((v.putOp dst 0 w (act.map fun e => ⟨e, bits e, pois e⟩)).popRings (ringsOf reads)) act reads dst 1 w
      (fun _ e => bits e) (fun _ e => pois e) := by
  have h := (elementwise_spec v 0 ⟨act, fun _ _ => 0, fun _ _ => 0⟩ Lg.plain 1 (reads.map fun o => ⟨o, .n8, none⟩) dst w
    (fun _ e _ => (bits e, 0, pois e)) hw hd hn hb fun _ _ => rfl).1
  have src : (reads.map fun o => (⟨o, .n8, none⟩ : Src)).map (·.o) = reads := by simp [Function.comp_def]
  simp only [elementwise, src] at h
  simpa [nrange, List.map_map, Function.comp_def] using h

/-- Such a word completes. -/
theorem vDone_putOp {s : State} (hs : s.Started) (hp : s.vpNow = none) (hq : s.quiet) {act : List Nat} (reads : List Opnd) (dst : Opnd)
    {w : Nat} (bits : Nat → Nat) (pois : Nat → Bool) (sr : Bool) (e : Evs) (hw : 0 < w) (hd : w ∣ 2048) (hn : act.Nodup)
    (hb : ∀ e ∈ act, egOf w e < 64) :
    ∃ v, VectorDone s (s.vDone (s.vec.putOp dst 0 w (act.map fun e => ⟨e, bits e, pois e⟩)) reads sr e) v e sr.toNat [] ∧
      Elementwise s.vec v act reads dst 1 w (fun _ e => bits e) (fun _ e => pois e) := by
  have h := elementwise_putOp s.vec act reads dst bits pois hw hd hn hb
  exact ⟨_, vectorDone_vDone hs hp hq ((popRings_same _ _).2.2.2.2.symm.trans h.rest.2.2) reads sr e, h⟩

/-- A reduction completes: element 0 of its destination takes the bits and the poison (R155, R160). -/
theorem reduceDone_reduces {s : State} {f : FmtV} (hs : s.Started) (hp : s.vpNow = none) (hq : s.quiet) {w : Nat} (hw : 0 < w)
    (hd : w ∣ 2048) (bits : Nat) (pois sr : Bool) (reads : List Opnd) (e : Evs) :
    ∃ v ev, VectorDone s (s.reduceDone f w bits pois sr reads e) v ev sr.toNat [] ∧
      Elementwise s.vec v [0] reads (opnd f.qd f.vd) 1 w (fun _ _ => bits) (fun _ _ => pois) := by
  obtain ⟨v, done, elements⟩ := vDone_putOp hs hp hq (act := [0]) reads (opnd f.qd f.vd) (fun _ => bits) (fun _ => pois) sr e hw hd
    (by simp) (by simp [egOf])
  exact ⟨v, e, done, elements⟩

/-! Sums (R53, R160). -/

/-- The sources of a sum with their values and poison. -/
def sumLeaves (s : State) (f : FmtV) (vl : Nat) (v : Nat → Val) (p : Nat → Bool) : List (Option (TNode Val)) :=
  (nrange 0 vl).map fun e => if e ∈ s.vec.active f.m.toNat vl then some ⟨v e, e, p e⟩ else none

theorem sumRoot_active (s : State) (f : FmtV) (l : Lg) (vl : Nat) (v : Nat → Val) (p : Nat → Bool) :
    match (sumTree l (sumLeaves s f vl v p)).1 with
    | none => s.vec.active f.m.toNat vl = []
    | some r => s.vec.active f.m.toNat vl ≠ [] ∧ r.pois = (s.vec.active f.m.toNat vl).any p := by
  have h := sumTree_root l (sumLeaves s f vl v p)
  rw [sumLeaves, filterMap_leaves] at h
  revert h
  rw [← sumLeaves]
  cases (sumTree l (sumLeaves s f vl v p)).1 with
  | none => exact List.map_eq_nil_iff.mp
  | some r => exact fun ⟨h1, h2⟩ => ⟨fun h => h1 (by rw [h]; rfl), h2.trans (by rw [List.any_map]; rfl)⟩

/-- A term of VREDSUM or VREDDOT: its value, its events and its poison. -/
def sumTerm (dot : Bool) (a b : Elt) : Val × Ev × Bool :=
  if dot then ((mulV a.val b.val).1, (mulV a.val b.val).2, a.pois || b.pois) else (a.val, 0, a.pois)

/-- VREDSUM and VREDDOT complete with +0 where no element is active, and else with the rounded root of their tree (R160). -/
theorem sumReduce_ends {f : FmtV} {s : State} {l : Lg} (dot : Bool) (quiet : s.quiet)
    (legend : keepIf (s.legend f ⟨true, dot, true, true, false⟩) (fun l =>
      allFI ((if dot then [l.fa, l.fb] else [l.fa]) ++ [l.fc, l.fd]) && l.fc.sumOk && l.fd.sumOk &&
        s.scaledOk f l [vField f.qd f.vd 1] ((vFields f (if dot then 2 else 1)).zip (if dot then [l.fa, l.fb] else [l.fa]))) = some l)
    (ready : VectorReady s (s.dec1 f [vField f.qd f.vd 1] (vFields f (if dot then 2 else 1)))
      (s.vlOk (maxWidth (if dot then [l.fa.width, l.fb.width, l.fd.width] else [l.fa.width, l.fd.width])))
      (vOpnds f (if dot then 2 else 1)) [opnd f.qd f.vd]) :
    let act := s.vec.active f.m.toNat s.th.vl
    let term := fun e => sumTerm dot (readElt s.vec (s.bound s.tr.core) l (lgSrc l 1 f.qa f.va l.fa) 0 e)
      (readElt s.vec (s.bound s.tr.core) l (lgSrc l 1 f.qb f.vb l.fb) 0 e)
    let Ends (bits : Nat) (pois : Bool) : Prop := ∃ v ev, VectorDone s (s.sumReduce f dot) v ev l.sr.toNat [] ∧
      Elementwise s.vec v [0] (vOpnds f (if dot then 2 else 1)) (opnd f.qd f.vd) 1 l.fd.width (fun _ _ => bits) (fun _ _ => pois)
    let leaves := sumLeaves s f s.th.vl (fun e => (term e).1) (fun e => (term e).2.2)
    (act = [] → Ends 0 false) ∧
      ∀ r, (sumTree l leaves).1 = some r → Ends (roundTo l.fd (l.at 63 r.low) r.val).1 (act.any fun e => (term e).2.2) := by
  intro act term Ends leaves
  have tree : leavesOf s.th.vl ((act.map fun e => (e, term e)).map fun x => (x.1, (⟨x.2.1, x.1, x.2.2.2⟩ : TNode Val))) = leaves := by
    rw [List.map_map]
    exact leavesOf_active s.vec f.m.toNat s.th.vl fun e => (⟨(term e).1, e, (term e).2.2⟩ : TNode Val)
  have run : ∃ evs : TNode Val → Evs, s.sumReduce f dot = match (sumTree l leaves).1 with
      | none => s.reduceDone f l.fd.width 0 false l.sr (vOpnds f (if dot then 2 else 1)) Evs.none
      | some r => s.reduceDone f l.fd.width (roundTo l.fd (l.at 63 r.low) r.val).1 r.pois l.sr (vOpnds f (if dot then 2 else 1)) (evs r) := by
    let first := (act.map fun e => (e, term e)).foldl (fun acc x => acc.addUnless x.2.2.2 x.2.2.1 x.1) Evs.none
    refine ⟨fun r => (first.join (sumTree l leaves).2).addUnless r.pois (roundTo l.fd (l.at 63 r.low) r.val).2 r.low, ?_⟩
    unfold State.sumReduce
    simp only []
    rw [transform_ready legend ready, vRun_active ready.plain, ← tree]
    cases dot <;> rfl
  have root := sumRoot_active s f l s.th.vl (fun e => (term e).1) (fun e => (term e).2.2)
  have ends (bits : Nat) (pois : Bool) (e : Evs) := reduceDone_reduces (f := f) ready.started ready.plain quiet l.fd.width_pos l.fd.width_dvd
    bits pois l.sr (vOpnds f (if dot then 2 else 1)) e
  obtain ⟨evs, run⟩ := run
  cases h : (sumTree l leaves).1 with
  | none =>
    rw [h] at run
    exact ⟨fun _ => by simpa only [Ends, run] using ends 0 false Evs.none, fun r hr => by cases hr⟩
  | some r =>
    rw [h] at run
    rw [show sumLeaves s f s.th.vl (fun e => (term e).1) (fun e => (term e).2.2) = leaves from rfl, h] at root
    refine ⟨fun none => absurd none root.1, fun q hq => ?_⟩
    obtain rfl := Option.some.inj hq
    have e := ends (roundTo l.fd (l.at 63 r.low) r.val).1 r.pois (evs r)
    rw [root.2] at e
    simpa only [Ends, run, root.2] using e

end Sys2Proof.Machine
end

section
namespace Sys2Proof.Machine

/-! Reductions by selection (R144, R161). -/

/-- A node of VREDMIN or VREDMAX. -/
def selNode (f : Fmt) (isMax prop : Bool) (_ : Nat) (a b : TNode (Val × Nat)) : TNode (Val × Nat) × (Ev × Nat × Bool) :=
  let nan := (a.val.1.isNan && b.val.1.isNan) || (prop && (a.val.1.isNan || b.val.1.isNan))
  (⟨(if nan then .nan false else selVal isMax a.val.1 b.val.1, (selMinMax f isMax prop a.val.1 b.val.1 a.val.2 b.val.2).1), a.low,
    a.pois || b.pois⟩, (sigEv [a.val.1, b.val.1], a.low, a.pois || b.pois))

/-- A selection over these leaves gives a NaN: all of them are NaNs, or NaNs propagate and one of them is. -/
def Sick (prop : Bool) (xs : List (TNode (Val × Nat))) : Prop :=
  (∀ x ∈ xs, x.val.1.isNan = true) ∨ (prop = true ∧ ∃ x ∈ xs, x.val.1.isNan = true)

/-- What a node of the tree of a selection says of the leaves under it. -/
structure Selected (f : Fmt) (isMax prop : Bool) (xs : List (TNode (Val × Nat))) (r : TNode (Val × Nat)) : Prop where
  pois : r.pois = xs.any (·.pois)
  one : ∀ a, xs = [a] → r.val = a.val
  sick : r.val.1.isNan = true ↔ Sick prop xs
  nan : Sick prop xs → 2 ≤ xs.length → r.val.2 = nanCode f
  best : ¬ Sick prop xs → ∃ x ∈ xs, x.val.1.isNan = false ∧ r.val = x.val ∧
    ∀ y ∈ xs, y.val.1.isNan = false → NoWorse isMax x.val.1 y.val.1

theorem selected_single (f : Fmt) (isMax prop : Bool) (a : TNode (Val × Nat)) : Selected f isMax prop [a] a where
  pois := by simp
  one := fun b h => by rw [List.singleton_inj.mp h]
  sick := by simp [Sick]
  nan := fun _ h => by simp at h
  best := fun h => ⟨a, by simp, Bool.eq_false_iff.mpr fun hn => h (.inl (by simpa using hn)), rfl, fun y hy _ => by rw [List.mem_singleton.mp hy]; exact .refl _ _⟩

theorem sick_append {prop : Bool} {xs ys : List (TNode (Val × Nat))} (hx : xs ≠ []) (hy : ys ≠ []) :
    Sick prop (xs ++ ys) ↔ (Sick prop xs ∧ Sick prop ys) ∨ (prop = true ∧ (Sick prop xs ∨ Sick prop ys)) := by
  obtain ⟨x, hx⟩ := List.exists_mem_of_ne_nil xs hx
  obtain ⟨y, hy⟩ := List.exists_mem_of_ne_nil ys hy
  have all (l : List (TNode (Val × Nat))) {z : TNode (Val × Nat)} (hz : z ∈ l) :
      Sick true l ↔ ∃ x ∈ l, x.val.1.isNan = true :=
    ⟨fun h => h.elim (fun h => ⟨z, hz, h z hz⟩) And.right, fun h => .inr ⟨rfl, h⟩⟩
  cases prop with
  | false => simp [Sick, or_imp, forall_and]
  | true =>
    rw [all _ (List.mem_append_left ys hx), all _ hx, all _ hy]
    simp only [List.mem_append, or_and_right, exists_or, true_and]
    exact ⟨.inr, fun h => h.elim (fun h => .inl h.1) id⟩

theorem selNode_nan {f : Fmt} {isMax prop : Bool} {x y : TNode (Val × Nat)} (lvl : Nat)
    (h : (x.val.1.isNan && y.val.1.isNan || prop && (x.val.1.isNan || y.val.1.isNan)) = true) :
    (selNode f isMax prop lvl x y).1.val = (.nan false, nanCode f) := by
  simp only [selNode, h, if_true, select_nan f isMax prop h]

theorem selNode_well {f : Fmt} {isMax prop : Bool} {x y : TNode (Val × Nat)} (lvl : Nat)
    (h : (x.val.1.isNan && y.val.1.isNan || prop && (x.val.1.isNan || y.val.1.isNan)) = false) :
    (selNode f isMax prop lvl x y).1.val = (selVal isMax x.val.1 y.val.1, (selMinMax f isMax prop x.val.1 y.val.1 x.val.2 y.val.2).1) := by
  simp only [selNode, h, Bool.false_eq_true, if_false]

/-- The best of some leaves where they are joined with leaves that give a NaN which does not propagate. -/
theorem best_of_one {isMax : Bool} {xs ys zs : List (TNode (Val × Nat))} {v : Val × Nat} (sub : ∀ z, z ∈ zs ↔ z ∈ xs ∨ z ∈ ys)
    (nans : Sick false ys) (best : ∃ x ∈ xs, x.val.1.isNan = false ∧ v = x.val ∧
      ∀ y ∈ xs, y.val.1.isNan = false → NoWorse isMax x.val.1 y.val.1) :
    ∃ x ∈ zs, x.val.1.isNan = false ∧ v = x.val ∧ ∀ y ∈ zs, y.val.1.isNan = false → NoWorse isMax x.val.1 y.val.1 := by
  obtain ⟨x, hx, hn, hv, least⟩ := best
  refine ⟨x, (sub x).mpr (.inl hx), hn, hv, fun y hy hyn => ((sub y).mp hy).elim (fun h => least y h hyn) fun h => ?_⟩
  have := nans.resolve_right (by simp) y h
  rw [hyn] at this
  cases this

theorem Selected.join {f : Fmt} {isMax prop : Bool} {xs ys : List (TNode (Val × Nat))} {x y : TNode (Val × Nat)} (lvl : Nat)
    (hx : xs ≠ []) (hy : ys ≠ []) (px : ∀ z ∈ xs, z.val.1.Proper) (py : ∀ z ∈ ys, z.val.1.Proper) (sx : Selected f isMax prop xs x)
    (sy : Selected f isMax prop ys y) : Selected f isMax prop (xs ++ ys) (selNode f isMax prop lvl x y).1 := by
  have nan : (x.val.1.isNan && y.val.1.isNan || prop && (x.val.1.isNan || y.val.1.isNan)) = true ↔ Sick prop (xs ++ ys) := by
    rw [sick_append hx hy, ← sx.sick, ← sy.sick]
    simp
  have two : 2 ≤ (xs ++ ys).length := by
    have := List.length_pos_iff.mpr hx
    have := List.length_pos_iff.mpr hy
    rw [List.length_append]
    omega
  have one (a : TNode (Val × Nat)) (h : xs ++ ys = [a]) : False := by rw [h] at two; simp at two
  have pois : (selNode f isMax prop lvl x y).1.pois = (xs ++ ys).any (·.pois) := by simp [selNode, sx.pois, sy.pois]
  by_cases ill : Sick prop (xs ++ ys)
  · have val := selNode_nan (f := f) (isMax := isMax) lvl (nan.mpr ill)
    exact ⟨pois, fun a h => (one a h).elim, by simp [val, ill, Val.isNan], fun _ _ => by rw [val], fun h => absurd ill h⟩
  · have hn := Bool.eq_false_iff.mpr fun h => ill (nan.mp h)
    have best : ∃ z ∈ xs ++ ys, z.val.1.isNan = false ∧ (selNode f isMax prop lvl x y).1.val = z.val ∧
        ∀ w ∈ xs ++ ys, w.val.1.isNan = false → NoWorse isMax z.val.1 w.val.1 := by
      rw [selNode_well lvl hn]
      cases hxn : x.val.1.isNan <;> cases hyn : y.val.1.isNan
      · obtain ⟨z, hz, zn, zv, zl⟩ := sx.best fun h => by rw [sx.sick.mpr h] at hxn; cases hxn
        obtain ⟨w, hw, wn, wv, wl⟩ := sy.best fun h => by rw [sy.sick.mpr h] at hyn; cases hyn
        rw [zv, wv] at *
        obtain ⟨which, lz, lw⟩ := select_numbers f isMax prop (px z hz) (py w hw) zn wn
        have least (v : TNode (Val × Nat)) (hv : v ∈ xs ++ ys) (vn : v.val.1.isNan = false) :
            NoWorse isMax (selVal isMax z.val.1 w.val.1) v.val.1 :=
          (List.mem_append.mp hv).elim (fun h => lz.trans (zl v h vn)) fun h => lw.trans (wl v h vn)
        rcases which with e | e
        · exact ⟨z, by simp [hz], zn, e, fun v hv vn => congrArg Prod.fst e ▸ least v hv vn⟩
        · exact ⟨w, by simp [hw], wn, e, fun v hv vn => congrArg Prod.fst e ▸ least v hv vn⟩
      · obtain rfl : prop = false := by simpa [hxn, hyn] using hn
        rw [select_one f isMax (by rw [hxn, hyn]; simp), hxn, if_neg (by simp)]
        exact best_of_one (fun z => List.mem_append) (sy.sick.mp hyn) (sx.best fun h => by rw [sx.sick.mpr h] at hxn; cases hxn)
      · obtain rfl : prop = false := by simpa [hxn, hyn] using hn
        rw [select_one f isMax (by rw [hxn, hyn]; simp), hxn, if_pos rfl]
        exact best_of_one (fun z => List.mem_append.trans or_comm) (sx.sick.mp hxn)
          (sy.best fun h => by rw [sy.sick.mpr h] at hyn; cases hyn)
      · simp [hxn, hyn] at hn
    obtain ⟨z, hz, zn, zv, least⟩ := best
    exact ⟨pois, fun a h => (one a h).elim, by simp [zv, zn, ill], fun h => absurd h ill, fun _ => ⟨z, hz, zn, zv, least⟩⟩

/-- The root of the tree of a selection. -/
theorem selection_root (f : Fmt) (isMax prop : Bool) (leaves : List (Option (TNode (Val × Nat))))
    (proper : ∀ x ∈ leaves.filterMap id, x.val.1.Proper) :
    RootOf (Selected f isMax prop) (leaves.filterMap id) (treeOf (selNode f isMax prop) leaves).1 := by
  have h := treeOf_root (f := selNode f isMax prop) (R := fun xs r => (∀ x ∈ xs, x.val.1.Proper) → Selected f isMax prop xs r)
    (fun a _ => selected_single f isMax prop a)
    (fun lvl xs ys x y hx hy sx sy p =>
      have px := fun z hz => p z (List.mem_append_left ys hz)
      have py := fun z hz => p z (List.mem_append_right xs hz)
      Selected.join lvl hx hy px py (sx px) (sy py)) leaves
  revert h
  cases (treeOf (selNode f isMax prop) leaves).1 with
  | none => exact id
  | some r => exact fun h => ⟨h.1, h.2 proper⟩

end Sys2Proof.Machine
end

section
namespace Sys2Proof.Machine

/-! VREDMIN, VREDMAX and VREDLOG (R161). -/

section
variable {f : FmtV} {s : State} {l : Lg}

/-- The active elements as leaves of a selection. -/
def selLeaf (s : State) (l : Lg) (f : FmtV) (e : Nat) : TNode (Val × Nat) :=
  let x := readElt s.vec (s.bound s.tr.core) l (lgSrc l 1 f.qa f.va l.fa) 0 e
  ⟨(x.val, x.raw), e, x.pois⟩

theorem selReduce_run (isMax : Bool)
    (legend : keepIf (s.legend f ⟨true, false, false, true, false⟩) (fun l => l.fa == l.fd && allFI [l.fa] &&
      !(f.opv.getLsbD 0 && l.fa.isI) && s.scaledOk f l [vField f.qd f.vd 1] ((vFields f 1).zip [l.fa])) = some l)
    (ready : VectorReady s (s.dec1 f [vField f.qd f.vd 1] (vFields f 1)) (s.vlOk l.fa.width) (vOpnds f 1) [opnd f.qd f.vd]) :
    ∃ evs : TNode (Val × Nat) → Evs, s.selReduce f isMax =
      match (treeOf (selNode l.fd isMax (f.opv.getLsbD 0)) ((nrange 0 s.th.vl).map fun e =>
        if e ∈ s.vec.active f.m.toNat s.th.vl then some (selLeaf s l f e) else none)).1 with
      | none => s.reduceDone f l.fd.width (identCode l.fd isMax) false l.sr (vOpnds f 1) Evs.none
      | some r => s.reduceDone f l.fd.width r.val.2 r.pois l.sr (vOpnds f 1) (evs r) := by
  let t := treeOf (selNode l.fd isMax (f.opv.getLsbD 0)) ((nrange 0 s.th.vl).map fun e =>
    if e ∈ s.vec.active f.m.toNat s.th.vl then some (selLeaf s l f e) else none)
  refine ⟨fun r => (t.2.foldl (fun a e => a.addUnless e.2.2 e.1 e.2.1) Evs.none).addUnless r.pois
    (if r.val.1.isNan && !l.fd.hasNan && !t.2.isEmpty then evIV else 0) r.low, ?_⟩
  have tree : leavesOf s.th.vl (((s.vec.active f.m.toNat s.th.vl).map fun e =>
      (e, readElt s.vec s.nslabs l (lgSrc l 1 f.qa f.va l.fa) 0 e)).map fun x => (x.1, (⟨(x.2.val, x.2.raw), x.1, x.2.pois⟩ : TNode (Val × Nat)))) =
      (nrange 0 s.th.vl).map fun e => if e ∈ s.vec.active f.m.toNat s.th.vl then some (selLeaf s l f e) else none := by
    rw [List.map_map]
    exact leavesOf_active s.vec f.m.toNat s.th.vl (selLeaf s l f)
  unfold State.selReduce
  simp only []
  rw [transform_ready legend ready, vRun_active ready.plain]
  simp only [t, ← tree]
  rfl

/-- VREDMIN and VREDMAX complete with the identity where no element is active, and else with the root of their tree. -/
theorem selReduce_ends (isMax : Bool) (quiet : s.quiet)
    (legend : keepIf (s.legend f ⟨true, false, false, true, false⟩) (fun l => l.fa == l.fd && allFI [l.fa] &&
      !(f.opv.getLsbD 0 && l.fa.isI) && s.scaledOk f l [vField f.qd f.vd 1] ((vFields f 1).zip [l.fa])) = some l)
    (ready : VectorReady s (s.dec1 f [vField f.qd f.vd 1] (vFields f 1)) (s.vlOk l.fa.width) (vOpnds f 1) [opnd f.qd f.vd]) :
    let act := s.vec.active f.m.toNat s.th.vl
    let Ends (bits : Nat) (pois : Bool) : Prop := ∃ v ev, VectorDone s (s.selReduce f isMax) v ev l.sr.toNat [] ∧
      Elementwise s.vec v [0] (vOpnds f 1) (opnd f.qd f.vd) 1 l.fd.width (fun _ _ => bits) (fun _ _ => pois)
    (act = [] → Ends (identCode l.fd isMax) false) ∧
      (act ≠ [] → ∃ r, Selected l.fd isMax (f.opv.getLsbD 0) (act.map (selLeaf s l f)) r ∧
        Ends r.val.2 (act.any fun e => (selLeaf s l f e).pois)) := by
  intro act Ends
  have root := selection_root l.fd isMax (f.opv.getLsbD 0) ((nrange 0 s.th.vl).map fun e =>
    if e ∈ s.vec.active f.m.toNat s.th.vl then some (selLeaf s l f e) else none) fun x hx => by
      rw [filterMap_leaves] at hx
      obtain ⟨e, -, rfl⟩ := List.mem_map.mp hx
      exact readElt_proper _ _ _ _ _ _
  rw [filterMap_leaves] at root
  have ends (bits : Nat) (pois : Bool) (e : Evs) := reduceDone_reduces (f := f) ready.started ready.plain quiet l.fd.width_pos l.fd.width_dvd
    bits pois l.sr (vOpnds f 1) e
  obtain ⟨evs, run⟩ := selReduce_run isMax legend ready
  revert root run
  cases (treeOf (selNode l.fd isMax (f.opv.getLsbD 0)) _).1 with
  | none =>
    intro root run
    refine ⟨fun _ => by simpa only [Ends, run] using ends (identCode l.fd isMax) false Evs.none, fun h => absurd ?_ h⟩
    exact List.map_eq_nil_iff.mp root
  | some r =>
    intro ⟨ne, sel⟩ run
    refine ⟨fun h => absurd (by rw [show s.vec.active f.m.toNat s.th.vl = [] from h]; rfl) ne, fun _ => ⟨r, sel, ?_⟩⟩
    have pois : (act.any fun e => (selLeaf s l f e).pois) = r.pois := by
      rw [sel.pois, List.any_map]
      rfl
    rw [pois]
    simpa only [Ends, run] using ends r.val.2 r.pois (evs r)

/-- What VREDMIN and VREDMAX give: the identity, the best number, the canonical NaN, or the one active element (R144, R161). -/
theorem selReduce_gives (isMax : Bool) (quiet : s.quiet)
    (legend : keepIf (s.legend f ⟨true, false, false, true, false⟩) (fun l => l.fa == l.fd && allFI [l.fa] &&
      !(f.opv.getLsbD 0 && l.fa.isI) && s.scaledOk f l [vField f.qd f.vd 1] ((vFields f 1).zip [l.fa])) = some l)
    (ready : VectorReady s (s.dec1 f [vField f.qd f.vd 1] (vFields f 1)) (s.vlOk l.fa.width) (vOpnds f 1) [opnd f.qd f.vd]) :
    let act := s.vec.active f.m.toNat s.th.vl
    let x := fun e => readElt s.vec (s.bound s.tr.core) l (lgSrc l 1 f.qa f.va l.fa) 0 e
    let prop := f.opv.getLsbD 0
    let num := act.filter fun e => !(x e).val.isNan
    let bad := act.any fun e => (x e).pois
    let Ends (bits : Nat) (pois : Bool) : Prop := ∃ v ev, VectorDone s (s.selReduce f isMax) v ev l.sr.toNat [] ∧
      Elementwise s.vec v [0] (vOpnds f 1) (opnd f.qd f.vd) 1 l.fd.width (fun _ _ => bits) (fun _ _ => pois)
    (act = [] → Ends (identCode l.fd isMax) false) ∧
    ((prop = false ∨ num = act) → num ≠ [] → ∃ e ∈ num, Ends (x e).raw bad ∧ ∀ k ∈ num, NoWorse isMax (x e).val (x k).val) ∧
    ((num = [] ∨ (prop = true ∧ num ≠ act)) → 2 ≤ act.length → Ends (nanCode l.fd) bad) ∧
    (∀ e, act = [e] → Ends (x e).raw bad) := by
  intro act x prop num bad Ends
  obtain ⟨none, some⟩ := selReduce_ends isMax quiet legend ready
  have sick : Sick prop (act.map (selLeaf s l f)) ↔ num = [] ∨ (prop = true ∧ num ≠ act) := by
    have all : num = [] ↔ ∀ e ∈ act, (x e).val.isNan = true := by simp [num, List.filter_eq_nil_iff]
    have any : num ≠ act ↔ ∃ e ∈ act, (x e).val.isNan = true := by simp [num, List.filter_eq_self]
    rw [all, any]
    simp [Sick, selLeaf, x]
  refine ⟨none, fun well ne => ?_, fun ill two => ?_, fun e one => ?_⟩
  · have healthy : ¬ Sick prop (act.map (selLeaf s l f)) := by
      rw [sick]
      rintro (h | ⟨h1, h2⟩)
      · exact ne h
      · exact well.elim (fun h => by rw [h] at h1; cases h1) h2
    obtain ⟨r, sel, ends⟩ := some fun h => ne (by simp [num, show act = [] from h])
    obtain ⟨y, hy, yn, yv, least⟩ := sel.best healthy
    obtain ⟨e, he, rfl⟩ := List.mem_map.mp hy
    rw [yv] at ends
    refine ⟨e, List.mem_filter.mpr ⟨he, by rw [show (x e).val.isNan = false from yn]; rfl⟩, ends, fun k hk => ?_⟩
    obtain ⟨hk, kn⟩ := List.mem_filter.mp hk
    exact least _ (List.mem_map_of_mem hk) (by rw [Bool.not_eq_true'] at kn; exact kn)
  · obtain ⟨r, sel, ends⟩ := some fun h => by rw [show act = [] from h] at two; simp at two
    rwa [sel.nan (sick.mpr ill) (by simpa using two)] at ends
  · obtain ⟨r, sel, ends⟩ := some fun h => by rw [show act = [] from h] at one; cases one
    rwa [sel.one (selLeaf s l f e) (by rw [show s.vec.active f.m.toNat s.th.vl = [e] from one]; rfl)] at ends

end

theorem NoWorse.not_lt {a b : Val} (h : NoWorse false a b) (pa : a.Proper) (pb : b.Proper) (na : a.isNan = false) (nb : b.isNan = false) :
    cmpV b a ≠ .lt := by
  rw [cmpV_place pb pa nb na, ne_eq, compare_lt_iff_lt]
  exact LE.le.not_gt h

theorem NoWorse.not_gt {a b : Val} (h : NoWorse true a b) (pa : a.Proper) (pb : b.Proper) (na : a.isNan = false) (nb : b.isNan = false) :
    cmpV b a ≠ .gt := by
  rw [cmpV_place pb pa nb na, ne_eq, compare_gt_iff_gt]
  exact LE.le.not_gt h

theorem tw_cases (t : BitVec 4) : tw t = 8 ∨ tw t = 16 ∨ tw t = 32 ∨ tw t = 64 := ((fmtOfT t.toNat).getD .fp32).width_cases

/-- A bit pattern read whole. -/
theorem readElt_rawSrc {v : VecState} {slabs : Nat} (q : Bool) (r : BitVec 6) {w : Nat} (hw : w = 8 ∨ w = 16 ∨ w = 32 ∨ w = 64) (e : Nat) :
    (readElt v slabs Lg.plain (rawSrc q r w) 0 e).raw = elemAt (v.opBits (opnd q r) 0) w e ∧
      (readElt v slabs Lg.plain (rawSrc q r w) 0 e).pois = v.opPois (opnd q r) 0 (egOf w e) := by
  have width : (natFmt w).width = w ∧ (natFmt w).codeWidth = w := by rcases hw with rfl | rfl | rfl | rfl <;> decide
  unfold readElt rawSrc
  simp only [width, Bool.or_false, and_true]
  exact Nat.mod_eq_of_lt (Nat.mod_lt _ (Nat.two_pow_pos _))

/-- The bits of a fold by a bitwise operation. -/
theorem testBit_foldl_logic (g : Nat → Nat) (act : List Nat) (a i : Nat) :
    (act.foldl (fun a e => a &&& g e) a).testBit i = (a.testBit i && act.all fun e => (g e).testBit i) ∧
    (act.foldl (fun a e => a ||| g e) a).testBit i = (a.testBit i || act.any fun e => (g e).testBit i) ∧
    (act.foldl (fun a e => a ^^^ g e) a).testBit i = (a.testBit i ^^ (act.countP fun e => (g e).testBit i) % 2 == 1) := by
  induction act generalizing a with
  | nil => simp
  | cons b t ih =>
    refine ⟨?_, ?_, ?_⟩
    · rw [List.foldl_cons, (ih _).1, Nat.testBit_and, List.all_cons, Bool.and_assoc]
    · rw [List.foldl_cons, (ih _).2.1, Nat.testBit_or, List.any_cons, Bool.or_assoc]
    · rw [List.foldl_cons, (ih _).2.2, Nat.testBit_xor, List.countP_cons, Bool.xor_assoc]
      congr 1
      rcases Nat.mod_two_eq_zero_or_one (t.countP fun e => (g e).testBit i) with h | h <;> cases (g b).testBit i <;>
        simp [h, Nat.add_mod]

end Sys2Proof.Machine
end

section
namespace Sys2Proof.Machine

/-! VREDLOG, VREDARG and VSCAN (R161 to R163). -/

/-- The bits that VREDLOG gives. -/
def logBits (op w : Nat) (g : Nat → Nat) (act : List Nat) : Nat :=
  act.foldl (fun a e => if op = 0 then a &&& g e else if op = 1 then a ||| g e else a ^^^ g e) (if op = 0 then 2 ^ w - 1 else 0)

theorem logBits_lt {w : Nat} (op : Nat) {g : Nat → Nat} (hg : ∀ e, g e < 2 ^ w) (act : List Nat) : logBits op w g act < 2 ^ w := by
  have pos := Nat.two_pow_pos w
  refine List.foldlRecOn (motive := (· < 2 ^ w)) act _ ?_ fun a ha e _ => ?_
  · split <;> omega
  · split
    · exact Nat.and_lt_two_pow _ (hg e)
    · split
      · exact Nat.or_lt_two_pow ha (hg e)
      · exact Nat.xor_lt_two_pow ha (hg e)

theorem testBit_logBits {w i : Nat} (hi : i < w) (op : Nat) (g : Nat → Nat) (act : List Nat) :
    (op = 0 → ((logBits op w g act).testBit i = true ↔ ∀ e ∈ act, (g e).testBit i = true)) ∧
    (op = 1 → ((logBits op w g act).testBit i = true ↔ ∃ e ∈ act, (g e).testBit i = true)) ∧
    (op = 2 → ((logBits op w g act).testBit i = true ↔ (act.countP fun e => (g e).testBit i) % 2 = 1)) := by
  refine ⟨fun h => ?_, fun h => ?_, fun h => ?_⟩
  · simp [h, logBits, (testBit_foldl_logic g act _ i).1, hi]
  · simp [h, logBits, (testBit_foldl_logic g act _ i).2.1]
  · simp [h, logBits, (testBit_foldl_logic g act _ i).2.2]

/-- VREDLOG completes with the combination of the active elements' bits (R161). -/
theorem vredlog_gives {f : FmtV} {s : State} (quiet : s.quiet)
    (ready : VectorReady s (s.dec1 f [vField f.qd f.vd 1] (vFields f 1)) (s.vlOk (tw f.t)) (vOpnds f 1) [opnd f.qd f.vd]) :
    let act := s.vec.active f.m.toNat s.th.vl
    let elt := fun e => elemAt (s.vec.opBits (opnd f.qa f.va) 0) (tw f.t) e
    Completes (.vredlog f) s fun t => ∃ v ev, VectorDone s t v ev 0 [] ∧
      Elementwise s.vec v [0] (vOpnds f 1) (opnd f.qd f.vd) 1 (tw f.t) (fun _ _ => logBits (f.opv.toNat % 4) (tw f.t) elt act)
        (fun _ _ => act.any fun e => s.vec.opPois (opnd f.qa f.va) 0 (egOf (tw f.t) e)) := by
  intro act elt
  have hw := tw_cases f.t
  have read (e : Nat) := readElt_rawSrc (v := s.vec) (slabs := s.nslabs) f.qa f.va hw e
  have run : exec (.vredlog f) s = .next (s.reduceDone f (tw f.t) (logBits (f.opv.toNat % 4) (tw f.t) elt act)
      (act.any fun e => s.vec.opPois (opnd f.qa f.va) 0 (egOf (tw f.t) e)) false (vOpnds f 1) Evs.none) := by
    show execVredlog f s = _
    unfold execVredlog
    simp only []
    rw [transform_ready rfl ready, vRun_active ready.plain]
    simp only [anyPois, List.foldl_map, List.any_map, Function.comp_def, read]
    rfl
  refine ⟨_, run, reduceDone_reduces ready.started ready.plain quiet ?_ ?_ _ _ false _ _⟩
  · rcases hw with h | h | h | h <;> omega
  · rcases hw with h | h | h | h <;> rw [h] <;> decide

/-! The lowest index of the best element (R162). -/

theorem active_sorted (v : VecState) (m vl : Nat) : (v.active m vl).Pairwise (· < ·) := by
  unfold VecState.active nrange
  exact (List.pairwise_map.mpr (List.pairwise_lt_range.imp fun h => by simpa using h)).filter _

/-- The index n is the answer of VREDARG over the indices `seen`. -/
structure Best (val : Nat → Val) (isMax prop : Bool) (seen : List Nat) (n : Nat) : Prop where
  mem : n ∈ seen
  nan : (val n).isNan = true ↔ if prop then ∃ e ∈ seen, (val e).isNan = true else ∀ e ∈ seen, (val e).isNan = true
  first : ∀ e ∈ seen, (val e).isNan = (val n).isNan → e < n → (val n).isNan = false ∧ ¬ NoWorse isMax (val e) (val n)
  best : (val n).isNan = false → ∀ e ∈ seen, (val e).isNan = false → NoWorse isMax (val n) (val e)

section
variable {val : Nat → Val} {isMax prop : Bool} {seen : List Nat} {n x : Nat}

theorem best_single (val : Nat → Val) (isMax prop : Bool) (x : Nat) : Best val isMax prop [x] x where
  mem := by simp
  nan := by cases prop <;> simp
  first := fun e he _ h => by rw [List.mem_singleton.mp he] at h; omega
  best := fun _ e he _ => by rw [List.mem_singleton.mp he]; exact .refl _ _

/-- The answer stays where the next element is no better. -/
theorem Best.keep (h : Best val isMax prop seen n) (later : ∀ e ∈ seen, e < x)
    (class_ : (val n).isNan = if prop then (val n).isNan || (val x).isNan else (val n).isNan && (val x).isNan)
    (worse : (val n).isNan = false → (val x).isNan = false → NoWorse isMax (val n) (val x)) : Best val isMax prop (seen ++ [x]) n where
  mem := by simp [h.mem]
  nan := by
    rw [class_]
    cases prop
    · simpa [or_imp, forall_and] using fun _ => h.nan
    · simpa [or_and_right, exists_or] using or_congr_left h.nan
  first := fun e he hc hlt => (List.mem_append.mp he).elim (fun he => h.first e he hc hlt) fun he => by
    have := later n h.mem
    rw [List.mem_singleton.mp he] at hlt
    omega
  best := fun hn e he hen => (List.mem_append.mp he).elim (fun he => h.best hn e he hen) fun he => by
    rw [List.mem_singleton.mp he] at hen ⊢
    exact worse hn hen

/-- The next element is the answer where it is better than every element of its class. -/
theorem best_next (class_ : (val x).isNan = true ↔
      if prop then ∃ e ∈ seen ++ [x], (val e).isNan = true else ∀ e ∈ seen ++ [x], (val e).isNan = true)
    (better : ∀ e ∈ seen, (val e).isNan = (val x).isNan → (val x).isNan = false ∧ ¬ NoWorse isMax (val e) (val x) ∧ NoWorse isMax (val x) (val e)) :
    Best val isMax prop (seen ++ [x]) x where
  mem := by simp
  nan := class_
  first := fun e he hc hlt => (List.mem_append.mp he).elim (fun he => ⟨(better e he hc).1, (better e he hc).2.1⟩) fun he => by
    rw [List.mem_singleton.mp he] at hlt
    omega
  best := fun hx e he hen => (List.mem_append.mp he).elim (fun he => (better e he (hen.trans hx.symm)).2.2) fun he => by
    rw [List.mem_singleton.mp he]
    exact .refl _ _

theorem NoWorse.total (isMax : Bool) (a b : Val) : NoWorse isMax a b ∨ NoWorse isMax b a := by
  cases isMax
  · exact le_total a.place b.place
  · exact le_total b.place a.place

/-- One number is better than another where the other is worse. -/
theorem wins_iff (isMax : Bool) {a b : Val} (pa : a.Proper) (pb : b.Proper) (na : a.isNan = false) (nb : b.isNan = false) :
    (if isMax then cmpV b a = .lt else cmpV a b = .lt) ↔ ¬ NoWorse isMax b a := by
  cases isMax
  · rw [if_neg (by simp), cmpV_place pa pb na nb, compare_lt_iff_lt]
    exact lt_iff_not_ge
  · rw [if_pos rfl, cmpV_place pb pa nb na, compare_lt_iff_lt]
    exact lt_iff_not_ge

/-- The next element is taken where it is better (R162). -/
theorem Best.step (proper : ∀ e, (val e).Proper) (h : Best val isMax prop seen n) (later : ∀ e ∈ seen, e < x) :
    Best val isMax prop (seen ++ [x]) (if argBetter isMax prop (val n) (val x) then x else n) := by
  have wins (hn : (val n).isNan = false) (hx : (val x).isNan = false) :
      (if isMax then cmpV (val n) (val x) == .lt else cmpV (val x) (val n) == .lt) = true ↔ ¬ NoWorse isMax (val n) (val x) := by
    rw [← wins_iff isMax (proper x) (proper n) hx hn]
    cases isMax <;> simp
  have numbers (hn : (val n).isNan = false) (hx : (val x).isNan = false) :
      Best val isMax prop (seen ++ [x]) (if argBetter isMax prop (val n) (val x) then x else n) := by
    have taken : argBetter isMax prop (val n) (val x) = true ↔ ¬ NoWorse isMax (val n) (val x) := by
      rw [← wins hn hx]
      cases prop <;> simp [argBetter, hn, hx]
    split
    · next t =>
      have worse := taken.mp t
      refine best_next ?_ fun e he hc => ⟨hx, fun hw => worse ((h.best hn e he (hc.trans hx)).trans hw),
        ((NoWorse.total isMax _ _).resolve_right worse).trans (h.best hn e he (hc.trans hx))⟩
      have := h.nan
      rw [hn] at this
      cases prop
      · simp [hx]
      · simpa [hx, or_and_right, exists_or] using this
    · next t => exact h.keep later (by cases prop <;> simp [hn, hx]) fun _ _ => not_not.mp fun hw => t (taken.mpr hw)
  have nan := h.nan
  cases hn : (val n).isNan with
  | false =>
    cases hx : (val x).isNan with
    | false => exact numbers hn hx
    | true =>
      rw [hn] at nan
      cases prop with
      | false =>
        rw [show argBetter isMax false (val n) (val x) = false by simp [argBetter, hx], if_neg (by simp)]
        exact h.keep later (by simp [hn]) fun _ h => by rw [hx] at h; cases h
      | true =>
        rw [show argBetter isMax true (val n) (val x) = true by simp [argBetter, hn, hx], if_pos rfl]
        exact best_next (by simp [hx]) fun e he hc => by
          have := (by simpa using nan : ∀ e ∈ seen, (val e).isNan = false) e he
          rw [hc, hx] at this
          cases this
  | true =>
    rw [hn] at nan
    cases prop with
    | true =>
      rw [show argBetter isMax true (val n) (val x) = false by simp [argBetter, hn], if_neg (by simp)]
      exact h.keep later (by simp [hn]) fun h => by rw [hn] at h; cases h
    | false =>
      cases hx : (val x).isNan with
      | true =>
        rw [show argBetter isMax false (val n) (val x) = false by simp [argBetter, hx], if_neg (by simp)]
        exact h.keep later (by simp [hn, hx]) fun h => by rw [hn] at h; cases h
      | false =>
        rw [show argBetter isMax false (val n) (val x) = true by simp [argBetter, hn, hx], if_pos rfl]
        exact best_next (by simp [hx]) fun e he hc => by
          have := (by simpa using nan : ∀ e ∈ seen, (val e).isNan = true) e he
          rw [hc, hx] at this
          cases this

/-- One element of the search of VREDARG. -/
def argStep (isMax prop : Bool) (acc : Option (Val × Nat)) (x : Nat × Val) : Option (Val × Nat) :=
  match acc with
  | none => some (x.2, x.1)
  | some b => if argBetter isMax prop b.1 x.2 then some (x.2, x.1) else acc

/-- The search finds the answer. -/
theorem argStep_best (proper : ∀ e, (val e).Proper) {act : List Nat} (sorted : act.Pairwise (· < ·)) :
    match act.foldl (fun acc e => argStep isMax prop acc (e, val e)) none with
    | none => act = []
    | some b => b.1 = val b.2 ∧ Best val isMax prop act b.2 := by
  induction act using List.reverseRecOn with
  | nil => rfl
  | append_singleton seen x ih =>
    obtain ⟨before, -, later⟩ := List.pairwise_append.mp sorted
    have ih := ih before
    rw [List.foldl_append, List.foldl_cons, List.foldl_nil]
    revert ih
    cases seen.foldl (fun acc e => argStep isMax prop acc (e, val e)) none with
    | none =>
      intro ih
      subst ih
      exact ⟨rfl, best_single val isMax prop x⟩
    | some b =>
      intro ⟨hb, best⟩
      have step := best.step proper fun e he => later e he x (by simp)
      rw [← hb] at step
      cases t : argBetter isMax prop b.1 (val x) with
      | true =>
        rw [t, if_pos rfl] at step
        simpa [argStep, t] using step
      | false =>
        rw [t, if_neg (by simp)] at step
        simpa [argStep, t] using ⟨hb, step⟩

end

/-- A scalar register written changes neither the vector state nor what a vector instruction looks at. -/
theorem setX_vector {s : State} (hs : s.Started) (d : BitVec 6) (w : Word) :
    (s.setX d w).vec = s.vec ∧ (s.setX d w).tr.slotKey = s.tr.slotKey ∧ (s.setX d w).slots = s.slots ∧
      ((s.setX d w).vpNow = s.vpNow) ∧ (s.quiet → (s.setX d w).quiet) := by
  have htr : (s.setX d w).tr = _ := s.tr_modTh (fun r => r.setXr d.toNat w) hs
  have hth : (s.setX d w).th = _ := s.th_modTh (fun r => r.setXr d.toNat w) hs
  have device : s.setX d w = _ := (onlyTriad_modTh s fun r => r.setXr d.toNat w).device
  have key : (s.setX d w).tr.slotKey = s.tr.slotKey := by
    rw [htr]
    cases s.cur.role <;> rfl
  have slots : (s.setX d w).slots = s.slots := by rw [device]
  have vec : (s.setX d w).vec = s.vec := by
    unfold State.vec State.slot
    rw [key, slots]
  refine ⟨vec, key, slots, ?_, fun ⟨hv, hr, hl⟩ => ⟨?_, ?_, ?_⟩⟩
  · unfold State.vpNow
    rw [vec, State.setX_cur]
  · rw [htr, ← hv]
    cases s.cur.role <;> rfl
  · rw [hth, RoleState.setXr_resume, hr]
  · rw [device]
    exact hl

/-- A scalar register written besides the vector state. -/
theorem holds_setX {s : State} (hs : s.Started) (d : BitVec 6) (w : Word) (v : VecState) :
    Holds s ((s.setX d w).modVec fun _ => v) v [d] := by
  obtain ⟨-, key, slots, -, -⟩ := setX_vector hs d w
  have hth : (s.setX d w).th = _ := s.th_modTh (fun r => r.setXr d.toNat w) hs
  have only : OnlyTriad s (s.setX d w) := onlyTriad_modTh s fun r => r.setXr d.toNat w
  have slot (k : Nat) : (s.setX d w).slot k = s.slot k := by
    unfold State.slot
    rw [slots]
  refine ⟨?_, only.others, ?_, fun k hk => ?_, started_modTh _ hs, ?_, fun n hn => ?_, ?_⟩
  · show State.modSlot (s.setX d w) _ _ = _
    unfold State.modSlot
    rw [only.device]
    rfl
  · show State.slot (State.modSlot (s.setX d w) _ _) _ = _
    rw [State.slot_modSlot, key, if_pos rfl, slot]
  · show State.slot (State.modSlot (s.setX d w) _ _) _ = _
    rw [State.slot_modSlot, key, if_neg hk, slot]
  · show (s.setX d w).tr = s.tr.setRole s.cur.role (s.setX d w).th
    rw [hth]
    exact s.tr_modTh (fun r => r.setXr d.toNat w) hs
  · exact s.x_setX_ne w hs (by simpa using hn)
  · show (s.setX d w).th = { s.th with x := (s.setX d w).th.x }
    rw [hth]
    by_cases hd : d.toNat = 0 <;> simp [RoleState.setXr, hd]

/-- A word of chapter 07 that writes a scalar register and leaves the vector registers as they were. -/
theorem vectorDone_setX {s : State} (hs : s.Started) (hp : s.vpNow = none) (hq : s.quiet) (d : BitVec 6) (w : Word) (reads : List Opnd)
    (sr : Bool) (e : Evs) :
    let t := (s.setX d w).vDone s.vec reads sr e
    VectorDone s t (s.vec.popRings (ringsOf reads)) e sr.toNat [d] ∧ (d ≠ 0#6 → t.x d = w) := by
  obtain ⟨vec, -, -, vp, quiet⟩ := setX_vector hs d w
  have pop : (s.vec.popRings (ringsOf reads)).vp = s.vec.vp := (popRings_same _ _).2.2.2.2
  have hs' : (s.setX d w).Started := started_modTh _ hs
  have regs := (vectorDone_finish (holds_modVec (s.setX d w) _ hs') sr e (vp.trans hp) (quiet hq) (pop.trans (by rw [vec]))).regs
  refine ⟨?_, fun hd => (regs d (by simp)).trans (s.x_setX_same d w hs hd)⟩
  rw [Bool.toNat, Bool.cond_eq_ite]
  exact vectorDone_finish (holds_setX hs d w _) sr e hp hq pop

end Sys2Proof.Machine
end

section
namespace Sys2Proof.Machine

/-! VREDARG and VSCAN as instructions (R162, R163). -/

theorem popRings_eq (v : VecState) (qs : List Nat) : v.popRings qs = { v with rings := (v.popRings qs).rings } := by
  obtain ⟨h1, h2, h3, h4, h5⟩ := popRings_same qs v
  generalize v.popRings qs = u at *
  cases u
  cases v
  simp_all

/-- The answer of VREDARG from its search. -/
def argAnswer (best : Option (Val × Nat)) : Word :=
  match best with
  | some b => BitVec.ofNat 64 b.2
  | none => BitVec.allOnes 64

theorem exec_vredarg {f : FmtV} {s : State} {l : Lg}
    (legend : keepIf (s.legend f ⟨true, false, false, false, false⟩) (fun l => allFI [l.fa] &&
       s.scaledOk f l [] ((vFields f 1).zip [l.fa])) = some l)
    (ready : VectorReady s (s.dec1 f [] (vFields f 1)) (s.vlOk l.fa.width) (vOpnds f 1) [])
    (clean : ∀ e ∈ s.vec.active f.m.toNat s.th.vl, (readElt s.vec (s.bound s.tr.core) l (lgSrc l 1 f.qa f.va l.fa) 0 e).pois = false) :
    let act := s.vec.active f.m.toNat s.th.vl
    let x := fun e => (readElt s.vec (s.bound s.tr.core) l (lgSrc l 1 f.qa f.va l.fa) 0 e).val
    exec (.vredarg f) s = .next ((s.setX f.vd (argAnswer (act.foldl
      (fun acc e => argStep (f.opv.getLsbD 0) (f.opv.getLsbD 1) acc (e, x e)) none))).vDone s.vec (vOpnds f 1) l.sr
      ((act.map fun e => (e, sigEv [x e])).foldl (fun a p => a.add p.2 p.1) Evs.none)) := by
  intro act x
  have none : (act.map fun e => (e, readElt s.vec s.nslabs l (lgSrc l 1 f.qa f.va l.fa) 0 e)).find? (fun x => x.2.pois) = none := by
    rw [List.find?_eq_none]
    intro p hp
    obtain ⟨e, he, rfl⟩ := List.mem_map.mp hp
    exact Bool.eq_false_iff.mp (clean e he)
  show execVredarg f s = _
  unfold execVredarg
  simp only []
  rw [transform_ready legend ready, vRun_active ready.plain]
  split
  · next h => rw [none] at h; cases h
  · rw [List.foldl_map, List.foldl_map, List.foldl_map]
    rfl

/-- VREDARG completes with all ones where no element is active, and else with the lowest index of the best element. -/
theorem vredarg_answers {f : FmtV} {s : State} {l : Lg} (quiet : s.quiet)
    (legend : keepIf (s.legend f ⟨true, false, false, false, false⟩) (fun l => allFI [l.fa] &&
       s.scaledOk f l [] ((vFields f 1).zip [l.fa])) = some l)
    (ready : VectorReady s (s.dec1 f [] (vFields f 1)) (s.vlOk l.fa.width) (vOpnds f 1) [])
    (clean : ∀ e ∈ s.vec.active f.m.toNat s.th.vl, (readElt s.vec (s.bound s.tr.core) l (lgSrc l 1 f.qa f.va l.fa) 0 e).pois = false) :
    let act := s.vec.active f.m.toNat s.th.vl
    let x := fun e => (readElt s.vec (s.bound s.tr.core) l (lgSrc l 1 f.qa f.va l.fa) 0 e).val
    let Answers (w : Word) : Prop := Completes (.vredarg f) s (fun t => ∃ v ev, VectorDone s t v ev l.sr.toNat [f.vd] ∧
       (f.vd ≠ 0#6 → t.x f.vd = w) ∧ v = { s.vec with rings := v.rings } ∧ RingsTaken s.vec v (vOpnds f 1) (.reg 0) ∧
       EventsOf ev 1 s.th.vl act (fun _ e => if (x e).isSig then evIV else 0))
    (act = [] → Answers (BitVec.allOnes 64)) ∧
      (act ≠ [] → ∃ n, Answers (BitVec.ofNat 64 n) ∧ Best x (f.opv.getLsbD 0) (f.opv.getLsbD 1) act n) := by
  intro act x Answers
  have answers (w : Word) (hw : argAnswer (act.foldl (fun acc e => argStep (f.opv.getLsbD 0) (f.opv.getLsbD 1) acc (e, x e)) none) = w) :
      Answers w := by
    subst hw
    obtain ⟨done, value⟩ := vectorDone_setX ready.started ready.plain quiet f.vd (argAnswer (act.foldl
      (fun acc e => argStep (f.opv.getLsbD 0) (f.opv.getLsbD 1) acc (e, x e)) none)) (vOpnds f 1) l.sr
      ((act.map fun e => (e, sigEv [x e])).foldl (fun a p => a.add p.2 p.1) Evs.none)
    refine ⟨_, exec_vredarg legend ready clean, _, _, done, value, popRings_eq _ _, fun q _ => ?_, ?_⟩
    · rw [ring_popRings]
      simp only [not_mem_ringsOf]
    · have raised (e : Nat) : (if (x e).isSig = true then evIV else 0) = sigEv [x e] := by simp [sigEv]
      simp only [raised]
      refine eventsOf_one (fun c hc => by simpa using Collects.fold hc _ [] _ collects_nil) (fun p hp c hc => ?_) fun e he c hc =>
        List.mem_map_of_mem he
      obtain ⟨e, he, rfl⟩ := List.mem_map.mp hp
      exact ⟨he, hc⟩
  have best := argStep_best (val := x) (isMax := f.opv.getLsbD 0) (prop := f.opv.getLsbD 1) (fun e => readElt_proper _ _ _ _ _ _)
    (active_sorted s.vec f.m.toNat s.th.vl)
  revert answers best
  generalize act.foldl (fun acc e => argStep (f.opv.getLsbD 0) (f.opv.getLsbD 1) acc (e, x e)) none = found
  intro answers best
  cases found with
  | none => exact ⟨fun _ => answers _ rfl, fun ne => absurd best ne⟩
  | some b => exact ⟨fun none => by simpa [show s.vec.active f.m.toNat s.th.vl = [] from none] using best.2.mem, fun _ => ⟨b.2, answers _ rfl, best.2⟩⟩

/-! VSCAN. -/

/-- One element of a scan. -/
def scanStep (l : Lg) (f : FmtV) (elt : Nat → Elt) (st : Scan) (e : Nat) : Scan :=
  if f.opv.toNat / 2 % 4 = 0 then
    ⟨(roundVal l.fc (l.at 0 e) (addV l.ctx.mode st.val (elt e).val)).1, 0, st.pois || (elt e).pois⟩
  else
    ⟨selVal (f.opv.toNat / 2 % 4 == 2) st.val (elt e).val,
      (selMinMax l.fd (f.opv.toNat / 2 % 4 == 2) false st.val (elt e).val st.raw (elt e).raw).1, st.pois || (elt e).pois⟩

/-- What a scan writes. -/
def scanOut (l : Lg) (f : FmtV) (st : Scan) (e : Nat) : Nat :=
  if f.opv.toNat / 2 % 4 = 0 then (roundTo l.fd (l.at 1 e) st.val).1 else st.raw

/-- The start of a scan. -/
def scanInit (l : Lg) (f : FmtV) : Scan :=
  let ident := if f.opv.toNat / 2 % 4 = 0 then 0 else identCode l.fa (f.opv.toNat / 2 % 4 == 2)
  ⟨codeVal l.fa ident, ident, false⟩

/-- The state of a scan after some elements. -/
def scanAfter (l : Lg) (f : FmtV) (elt : Nat → Elt) (seen : List Nat) : Scan := seen.foldl (scanStep l f elt) (scanInit l f)

/-- A scan with its results and its events, one element further. -/
def scanRun (l : Lg) (f : FmtV) (elt : Nat → Elt) (raises : Scan → Nat → Ev) (acc : Scan × List Put × Evs) (e : Nat) :
    Scan × List Put × Evs :=
  let next := scanStep l f elt acc.1 e
  (next, ⟨e, scanOut l f (if f.opv.getLsbD 0 then acc.1 else next) e, next.pois⟩ :: acc.2.1, acc.2.2.addUnless next.pois (raises acc.1 e) e)

/-- The elements up to e of a rising list, without e itself under `excl`. -/
def upTo (excl : Bool) (act : List Nat) (e : Nat) : List Nat := act.filter fun k => if excl then decide (k < e) else decide (k ≤ e)

theorem upTo_prefix {act seen rest : List Nat} {e : Nat} (sorted : act.Pairwise (· < ·)) (h : act = seen ++ e :: rest) :
    upTo true act e = seen ∧ upTo false act e = seen ++ [e] := by
  subst h
  obtain ⟨-, after, before⟩ := List.pairwise_append.mp sorted
  have after := (List.pairwise_cons.mp after).1
  have seen_lt (k : Nat) (hk : k ∈ seen) : k < e := before k hk e (by simp)
  have rest_gt (k : Nat) (hk : k ∈ rest) : ¬ k ≤ e := by
    have := after k hk
    omega
  constructor
  · unfold upTo
    rw [List.filter_append, List.filter_cons_of_neg (by simp), List.filter_eq_self.mpr (by simpa using seen_lt),
      List.filter_eq_nil_iff.mpr, List.append_nil]
    intro k hk
    have := after k hk
    simp
    omega
  · unfold upTo
    rw [List.filter_append, List.filter_cons_of_pos (by simp), List.filter_eq_self.mpr, List.filter_eq_nil_iff.mpr]
    · simpa using rest_gt
    · intro k hk
      have := seen_lt k hk
      simp
      omega

/-- The results of a scan. -/
theorem scanRun_results {l : Lg} {f : FmtV} {elt : Nat → Elt} {raises : Scan → Nat → Ev} {act : List Nat} (sorted : act.Pairwise (· < ·)) :
    (act.foldl (scanRun l f elt raises) (scanInit l f, [], Evs.none)).2.1.reverse = act.map fun e =>
      ⟨e, scanOut l f (scanAfter l f elt (upTo (f.opv.getLsbD 0) act e)) e, (scanAfter l f elt (upTo false act e)).pois⟩ := by
  have main (seen rest : List Nat) (h : act = seen ++ rest) :
      (seen.foldl (scanRun l f elt raises) (scanInit l f, [], Evs.none)).1 = scanAfter l f elt seen ∧
      (seen.foldl (scanRun l f elt raises) (scanInit l f, [], Evs.none)).2.1.reverse = seen.map fun e =>
        ⟨e, scanOut l f (scanAfter l f elt (upTo (f.opv.getLsbD 0) act e)) e, (scanAfter l f elt (upTo false act e)).pois⟩ := by
    induction seen using List.reverseRecOn generalizing rest with
    | nil => exact ⟨rfl, rfl⟩
    | append_singleton seen e ih =>
      have h' : act = seen ++ e :: rest := by simpa using h
      obtain ⟨state, puts⟩ := ih _ h'
      obtain ⟨before, with_⟩ := upTo_prefix sorted h'
      have next : scanStep l f elt (scanAfter l f elt seen) e = scanAfter l f elt (seen ++ [e]) := by
        unfold scanAfter
        rw [List.foldl_append]
        rfl
      rw [List.foldl_append, List.map_append, ← puts]
      simp only [List.foldl_cons, List.foldl_nil, scanRun, state, next, List.reverse_cons, List.map_cons, List.map_nil, with_, true_and]
      cases f.opv.getLsbD 0
      · rw [with_]
        rfl
      · rw [before]
        rfl
  exact (main act [] (by simp)).2

/-- What one element of a scan raises. -/
def scanRaises (l : Lg) (f : FmtV) (elt : Nat → Elt) (st : Scan) (e : Nat) : Ev :=
  if f.opv.toNat / 2 % 4 = 0 then
    (roundVal l.fc (l.at 0 e) (addV l.ctx.mode st.val (elt e).val)).2 |||
      (roundTo l.fd (l.at 1 e) (if f.opv.getLsbD 0 then st else scanStep l f elt st e).val).2
  else (selMinMax l.fd (f.opv.toNat / 2 % 4 == 2) false st.val (elt e).val st.raw (elt e).raw).2 ||| 0

theorem exec_vscan {f : FmtV} {s : State} {l : Lg}
    (legend : keepIf (s.legend f ⟨true, false, f.opv.toNat / 2 % 4 == 0, true, false⟩) (fun l =>
      (if f.opv.toNat / 2 % 4 = 0 then allFI [l.fa, l.fc, l.fd] && l.fc.sumOk && l.fd.sumOk else l.fd == l.fa && allFI [l.fa]) &&
      s.scaledOk f l [vField f.qd f.vd 1] ((vFields f 1).zip [l.fa])) = some l)
    (ready : VectorReady s (s.dec1 f [vField f.qd f.vd 1] (vFields f 1)) (s.vlOk (maxWidth [l.fa.width, l.fd.width])) (vOpnds f 1)
      [opnd f.qd f.vd]) :
    let elt := fun e => readElt s.vec (s.bound s.tr.core) l (lgSrc l 1 f.qa f.va l.fa) 0 e
    let r := (s.vec.active f.m.toNat s.th.vl).foldl (scanRun l f elt (scanRaises l f elt)) (scanInit l f, [], Evs.none)
    exec (.vscan f) s = .next (s.vDone (s.vec.putOp (opnd f.qd f.vd) 0 l.fd.width r.2.1.reverse) (vOpnds f 1) l.sr r.2.2) := by
  intro elt r
  show execVscan f s = _
  unfold execVscan
  simp only []
  rw [transform_ready legend ready, vRun_active ready.plain]
  by_cases sum : f.opv.toNat / 2 % 4 = 0
  · have step : scanRun l f elt (scanRaises l f elt) = fun acc e =>
        let next := roundVal l.fc (l.at 0 e) (addV l.ctx.mode acc.1.val (elt e).val)
        let st : Scan := ⟨next.1, 0, acc.1.pois || (elt e).pois⟩
        let out := roundTo l.fd (l.at 1 e) (if f.opv.getLsbD 0 then acc.1 else st).val
        (st, ⟨e, out.1, st.pois⟩ :: acc.2.1, acc.2.2.addUnless st.pois (next.2 ||| out.2) e) := by
      funext acc e
      simp only [scanRun, scanRaises, scanStep, scanOut, if_pos sum]
    simp only [r, step, scanInit, if_pos sum]
    rfl
  · have step : scanRun l f elt (scanRaises l f elt) = fun acc e =>
        let next := selMinMax l.fd (f.opv.toNat / 2 % 4 == 2) false acc.1.val (elt e).val acc.1.raw (elt e).raw
        let st : Scan := ⟨selVal (f.opv.toNat / 2 % 4 == 2) acc.1.val (elt e).val, next.1, acc.1.pois || (elt e).pois⟩
        (st, ⟨e, (if f.opv.getLsbD 0 then acc.1 else st).raw, st.pois⟩ :: acc.2.1, acc.2.2.addUnless st.pois (next.2 ||| 0) e) := by
      funext acc e
      simp only [scanRun, scanRaises, scanStep, scanOut, if_neg sum]
    simp only [r, step, scanInit, if_neg sum]
    rfl

/-- The state of a scan in the terms of R163: the running sum, or the running selection with its bits. -/
theorem scanAfter_eq (l : Lg) (f : FmtV) (elt : Nat → Elt) (seen : List Nat) :
    (scanAfter l f elt seen).pois = seen.any (fun k => (elt k).pois) ∧
    (f.opv.toNat / 2 % 4 = 0 → (scanAfter l f elt seen).val =
      seen.foldl (fun a k => (roundVal l.fc (l.at 0 k) (addV l.ctx.mode a (elt k).val)).1) (codeVal l.fa 0)) ∧
    (f.opv.toNat / 2 % 4 ≠ 0 → ((scanAfter l f elt seen).val, (scanAfter l f elt seen).raw) =
      seen.foldl (fun (a : Val × Nat) k => (selVal (f.opv.toNat / 2 % 4 == 2) a.1 (elt k).val,
        (selMinMax l.fd (f.opv.toNat / 2 % 4 == 2) false a.1 (elt k).val a.2 (elt k).raw).1))
        (codeVal l.fa (identCode l.fa (f.opv.toNat / 2 % 4 == 2)), identCode l.fa (f.opv.toNat / 2 % 4 == 2))) := by
  induction seen using List.reverseRecOn with
  | nil => exact ⟨rfl, fun h => by simp [scanAfter, scanInit, h], fun h => by simp [scanAfter, scanInit, h]⟩
  | append_singleton seen e ih =>
    obtain ⟨pois, sum, pick⟩ := ih
    have next : scanAfter l f elt (seen ++ [e]) = scanStep l f elt (scanAfter l f elt seen) e := by
      unfold scanAfter
      rw [List.foldl_append]
      rfl
    rw [next]
    refine ⟨?_, fun h => ?_, fun h => ?_⟩
    · rw [List.any_append, ← pois]
      unfold scanStep
      split <;> simp
    · rw [List.foldl_append, ← sum h]
      simp only [scanStep, if_pos h, List.foldl_cons, List.foldl_nil]
    · rw [List.foldl_append, ← pick h]
      simp only [scanStep, if_neg h, List.foldl_cons, List.foldl_nil]

/-- VSCAN completes with the state of the scan at each active element. -/
theorem vscan_gives {f : FmtV} {s : State} {l : Lg} (quiet : s.quiet)
    (legend : keepIf (s.legend f ⟨true, false, f.opv.toNat / 2 % 4 == 0, true, false⟩) (fun l =>
      (if f.opv.toNat / 2 % 4 = 0 then allFI [l.fa, l.fc, l.fd] && l.fc.sumOk && l.fd.sumOk else l.fd == l.fa && allFI [l.fa]) &&
      s.scaledOk f l [vField f.qd f.vd 1] ((vFields f 1).zip [l.fa])) = some l)
    (ready : VectorReady s (s.dec1 f [vField f.qd f.vd 1] (vFields f 1)) (s.vlOk (maxWidth [l.fa.width, l.fd.width])) (vOpnds f 1)
      [opnd f.qd f.vd]) :
    let act := s.vec.active f.m.toNat s.th.vl
    let elt := fun e => readElt s.vec (s.bound s.tr.core) l (lgSrc l 1 f.qa f.va l.fa) 0 e
    Completes (.vscan f) s (fun t => ∃ v ev, VectorDone s t v ev l.sr.toNat [] ∧
      Elementwise s.vec v act (vOpnds f 1) (opnd f.qd f.vd) 1 l.fd.width
        (fun _ e => scanOut l f (scanAfter l f elt (upTo (f.opv.getLsbD 0) act e)) e)
        (fun _ e => (scanAfter l f elt (upTo false act e)).pois)) := by
  intro act elt
  have width : ∀ e ∈ act, egOf l.fd.width e < 64 := fun e he =>
    egOf_lt (State.vlOk_mono ready.dispatch l.fd.width_pos (le_maxWidth (by simp))) e (active_lt he)
  refine ⟨_, exec_vscan legend ready, ?_⟩
  rw [scanRun_results (active_sorted _ _ _)]
  obtain ⟨v, done, elements⟩ := vDone_putOp ready.started ready.plain quiet (vOpnds f 1) (opnd f.qd f.vd)
    (fun e => scanOut l f (scanAfter l f elt (upTo (f.opv.getLsbD 0) act e)) e)
    (fun e => (scanAfter l f elt (upTo false act e)).pois) l.sr _ l.fd.width_pos l.fd.width_dvd (active_nodup _ _ _) width
  exact ⟨v, _, done, elements⟩

end Sys2Proof.Machine
end

section
namespace Sys2Proof.Machine

/-! The reductions and VSCAN, put together. -/

/-- VREDMIN and VREDMAX in the terms of R161. -/
theorem selections_give {f : FmtV} {s : State} {l : Lg} (quiet : s.quiet)
    (legend : keepIf (s.legend f ⟨true, false, false, true, false⟩) (fun l => l.fa == l.fd && allFI [l.fa] &&
      !(f.opv.getLsbD 0 && l.fa.isI) && s.scaledOk f l [vField f.qd f.vd 1] ((vFields f 1).zip [l.fa])) = some l)
    (ready : VectorReady s (s.dec1 f [vField f.qd f.vd 1] (vFields f 1)) (s.vlOk l.fa.width) (vOpnds f 1) [opnd f.qd f.vd]) :
    let act := s.vec.active f.m.toNat s.th.vl
    let x := fun e => readElt s.vec (s.bound s.tr.core) l (lgSrc l 1 f.qa f.va l.fa) 0 e
    let prop := f.opv.getLsbD 0
    let num := act.filter fun e => !(x e).val.isNan
    let bad := act.any fun e => (x e).pois
    let Reduces (i : Instr) (bits : Nat) (pois : Bool) : Prop :=
       Completes i s (fun t => ∃ v ev, VectorDone s t v ev l.sr.toNat [] ∧
         Elementwise s.vec v [0] (vOpnds f 1) (opnd f.qd f.vd) 1 l.fd.width (fun _ _ => bits) (fun _ _ => pois))
    let Both (bits : Nat) : Prop := Reduces (.vredmin f) bits bad ∧ Reduces (.vredmax f) bits bad
    (act = [] → Reduces (.vredmin f) (identCode l.fd false) false ∧ Reduces (.vredmax f) (identCode l.fd true) false) ∧
    ((prop = false ∨ num = act) → num ≠ [] →
      (∃ e ∈ num, Reduces (.vredmin f) (x e).raw bad ∧ ∀ k ∈ num, cmpV (x k).val (x e).val ≠ .lt) ∧
      (∃ e ∈ num, Reduces (.vredmax f) (x e).raw bad ∧ ∀ k ∈ num, cmpV (x k).val (x e).val ≠ .gt)) ∧
    ((num = [] ∨ (prop = true ∧ num ≠ act)) → 2 ≤ act.length → Both (nanCode l.fd)) ∧
    (∀ e, act = [e] → Both (x e).raw) := by
  intro act x prop num bad Reduces Both
  obtain ⟨none1, best1, nan1, one1⟩ := selReduce_gives false quiet legend ready
  obtain ⟨none2, best2, nan2, one2⟩ := selReduce_gives true quiet legend ready
  have number (e : Nat) (he : e ∈ num) : (x e).val.isNan = false := by simpa using (List.mem_filter.mp he).2
  have proper (e : Nat) : (x e).val.Proper := readElt_proper _ _ _ _ _ _
  refine ⟨fun h => ⟨⟨_, rfl, none1 h⟩, ⟨_, rfl, none2 h⟩⟩, fun well ne => ⟨?_, ?_⟩,
    fun ill two => ⟨⟨_, rfl, nan1 ill two⟩, ⟨_, rfl, nan2 ill two⟩⟩, fun e h => ⟨⟨_, rfl, one1 e h⟩, ⟨_, rfl, one2 e h⟩⟩⟩
  · obtain ⟨e, he, ends, least⟩ := best1 well ne
    exact ⟨e, he, ⟨_, rfl, ends⟩, fun k hk => (least k hk).not_lt (proper e) (proper k) (number e he) (number k hk)⟩
  · obtain ⟨e, he, ends, most⟩ := best2 well ne
    exact ⟨e, he, ⟨_, rfl, ends⟩, fun k hk => (most k hk).not_gt (proper e) (proper k) (number e he) (number k hk)⟩

/-- What VSCAN writes, in the terms of R163. -/
theorem scanOut_eq (l : Lg) (f : FmtV) (elt : Nat → Elt) (seen : List Nat) (e : Nat) :
    scanOut l f (scanAfter l f elt seen) e =
      if f.opv.toNat / 2 % 4 = 0 then (roundTo l.fd (l.at 1 e)
        (seen.foldl (fun a k => (roundVal l.fc (l.at 0 k) (addV l.ctx.mode a (elt k).val)).1) (codeVal l.fa 0))).1
      else (seen.foldl (fun (a : Val × Nat) k => (selVal (f.opv.toNat / 2 % 4 == 2) a.1 (elt k).val,
        (selMinMax l.fd (f.opv.toNat / 2 % 4 == 2) false a.1 (elt k).val a.2 (elt k).raw).1))
        (codeVal l.fa (identCode l.fa (f.opv.toNat / 2 % 4 == 2)), identCode l.fa (f.opv.toNat / 2 % 4 == 2))).2 := by
  obtain ⟨-, sum, pick⟩ := scanAfter_eq l f elt seen
  unfold scanOut
  split
  · next h => rw [sum h]
  · next h => rw [← pick h]

/-- Settles O22: sums and selections by what a node of their tree says of the leaves under it, VREDLOG by the bits of its fold, VREDARG
and VSCAN by the invariant of their passes over the active elements. -/
theorem reductionsAndScans : Obligations.ReductionsAndScans := by
  unfold Obligations.ReductionsAndScans
  refine ⟨fun f s l quiet => ⟨fun legend ready => ?sum, fun legend ready => ?dot, fun legend ready => ?select, fun _ ready => ?log⟩,
    ?arg, ?scan⟩
  case sum =>
    obtain ⟨none, root⟩ := sumReduce_ends false quiet legend ready
    exact ⟨fun h => ⟨_, rfl, none h⟩, fun r hr => ⟨_, rfl, root r hr⟩⟩
  case dot =>
    obtain ⟨none, root⟩ := sumReduce_ends true quiet legend ready
    exact ⟨fun h => ⟨_, rfl, none h⟩, fun r hr => ⟨_, rfl, root r hr⟩⟩
  case select =>
    obtain ⟨none, number, nan, one⟩ := selections_give quiet legend ready
    exact ⟨none, number, nan, one⟩
  case log =>
    have width (e : Nat) : elemAt (s.vec.opBits (opnd f.qa f.va) 0) (tw f.t) e < 2 ^ tw f.t := Nat.mod_lt _ (Nat.two_pow_pos _)
    exact ⟨_, logBits_lt _ width _, vredlog_gives quiet ready, fun i hi => testBit_logBits hi _ _ _⟩
  case arg =>
    intro f s l quiet legend ready act x clean Answers nanFirst better
    obtain ⟨none, some⟩ := vredarg_answers quiet legend ready clean
    refine ⟨none, fun ne => ?_⟩
    obtain ⟨n, answers, best⟩ := some ne
    have proper (e : Nat) : (x e).Proper := readElt_proper _ _ _ _ _ _
    refine ⟨n, best.mem, answers, best.nan, fun e he hc hlt => ?_, fun hn e he hen => ?_⟩
    · obtain ⟨hn, worse⟩ := best.first e he hc hlt
      exact ⟨hn, (wins_iff (f.opv.getLsbD 0) (proper n) (proper e) hn (hc.trans hn)).mpr worse⟩
    · exact fun better => (wins_iff (f.opv.getLsbD 0) (proper e) (proper n) hen hn).mp better (best.best hn e he hen)
  case scan =>
    intro f s l quiet op excl legend ready act x upTo sum ident pick
    have gives := vscan_gives quiet legend ready
    have value (e : Nat) := scanOut_eq l f x (upTo e) e
    have poison (e : Nat) := (scanAfter_eq l f x (act.filter fun k => decide (k ≤ e))).1
    simp only [List.any_filter] at poison
    obtain ⟨t, run, v, ev, done, elements⟩ := gives
    refine ⟨t, run, v, ev, done, ?_⟩
    rw [show (fun (_ : Nat) e => if op = 0 then (roundTo l.fd (l.at 1 e) (sum e)).1 else (pick e).2) = _ from
      funext fun _ => funext fun e => (value e).symm, show (fun (_ : Nat) e => act.any fun k => decide (k ≤ e) && (x k).pois) = _ from
      funext fun _ => funext fun e => (poison e).symm]
    exact elements

end Sys2Proof.Machine
end

section
namespace Sys2Proof.Machine

/-! Numbers as fractions (R9). -/

/-- The fraction that a magnitude without a root is. -/
def Mag.q (m : Mag) : ℚ := m.num / m.den

/-- The sign of a value. -/
def sgn (neg : Bool) : ℚ := if neg then -1 else 1

/-- A magnitude that is a fraction. -/
structure Mag.Plain (m : Mag) : Prop where
  root : m.root = false
  den : m.den ≠ 0

theorem Mag.Plain.pos {m : Mag} (h : m.Plain) : (0 : ℚ) < m.den := by exact_mod_cast Nat.pos_of_ne_zero h.den

theorem rat_fin (neg : Bool) {m : Mag} (h : m.Plain) : (Val.fin neg m).rat = some (sgn neg * m.q) := by
  simp [Val.rat, h.root, h.den, sgn, Mag.q]

theorem rat_eq_some {v : Val} {x : ℚ} (h : v.rat = some x) : ∃ neg m, v = .fin neg m ∧ m.Plain ∧ x = sgn neg * m.q := by
  cases v with
  | nan _ => cases h
  | inf _ => cases h
  | fin neg m =>
    have plain : m.Plain := by
      constructor <;> by_contra hh <;> simp [Val.rat, hh] at h
    rw [rat_fin neg plain] at h
    exact ⟨neg, m, rfl, plain, (Option.some.inj h).symm⟩

theorem Mag.q_nonneg (m : Mag) : 0 ≤ m.q := div_nonneg (Nat.cast_nonneg _) (Nat.cast_nonneg _)

theorem Mag.q_zero {m : Mag} (h : m.num = 0) : m.q = 0 := by simp [Mag.q, h]

theorem sgn_mul_sgn (a b : Bool) : sgn (a != b) = sgn a * sgn b := by cases a <;> cases b <;> simp [sgn]

theorem signedNum_cast (neg : Bool) (n : Nat) : (signedNum neg n : ℚ) = sgn neg * n := by cases neg <;> simp [signedNum, sgn]

/-- A signed integer over a denominator. -/
theorem sgn_natAbs (n : Int) (d : Nat) : sgn (decide (n < 0)) * (Mag.mk n.natAbs d false).q = n / d := by
  have h : sgn (decide (n < 0)) * (n.natAbs : ℚ) = n := by
    have abs : (n.natAbs : ℚ) = |(n : ℚ)| := by rw [Nat.cast_natAbs, Int.cast_abs]
    rcases lt_or_ge n 0 with hn | hn
    · have : (n : ℚ) < 0 := by exact_mod_cast hn
      simp [sgn, hn, abs, abs_of_neg this]
    · have : (0 : ℚ) ≤ n := by exact_mod_cast hn
      simp [sgn, not_lt.mpr hn, abs, abs_of_nonneg this]
  rw [Mag.q, ← mul_div_assoc, h]

/-! Exact arithmetic. -/

theorem rat_zeroV (neg : Bool) : (zeroV neg).rat = some 0 := by simp [Val.rat, zeroV]

theorem rat_addFin (mode : RMode) (na nb : Bool) {a b : Mag} (ha : a.Plain) (hb : b.Plain) :
    (addFin mode na a nb b).rat = some (sgn na * a.q + sgn nb * b.q) := by
  unfold addFin
  split
  · next h => rw [rat_zeroV, Mag.q_zero h.1, Mag.q_zero h.2]; simp
  · split
    · next h => rw [rat_fin nb hb, Mag.q_zero h]; simp
    · split
      · next h => rw [rat_fin na ha, Mag.q_zero h]; simp
      · have sum : ((signedNum na (a.num * b.den) + signedNum nb (b.num * a.den) : ℤ) : ℚ) / (a.den * b.den : ℕ) =
            sgn na * a.q + sgn nb * b.q := by
          have := ha.pos
          have := hb.pos
          push_cast
          rw [signedNum_cast, signedNum_cast, Mag.q, Mag.q]
          push_cast
          field_simp
        simp only []
        split
        · next h => rw [rat_zeroV, ← sum, h]; simp
        · rw [rat_fin _ ⟨rfl, Nat.mul_ne_zero ha.den hb.den⟩, sgn_natAbs, sum]

theorem rat_mulFin (na nb : Bool) {a b : Mag} (ha : a.Plain) (hb : b.Plain) :
    (mulFin na a nb b).rat = some (sgn na * a.q * (sgn nb * b.q)) := by
  have := ha.pos
  have := hb.pos
  rw [mulFin, rat_fin _ ⟨rfl, Nat.mul_ne_zero ha.den hb.den⟩, sgn_mul_sgn, Mag.q, Mag.q, Mag.q]
  push_cast
  congr 1
  field_simp

/-- The exact sum, product and quotient of numbers, the product plus the addend, the opposite and the order (R45). -/
theorem exact_numbers (mode : RMode) {a b c : Val} {x y z : ℚ} (ha : a.rat = some x) (hb : b.rat = some y) (hc : c.rat = some z) :
    (addV mode a b).1.rat = some (x + y) ∧ (addV mode a b).2 = 0 ∧ (mulV a b).1.rat = some (x * y) ∧ (mulV a b).2 = 0 ∧
    (y ≠ 0 → (divV a b).1.rat = some (x / y) ∧ (divV a b).2 = 0) ∧
    (fmaV mode a b c).1.rat = some (x * y + z) ∧ (fmaV mode a b c).2 = 0 ∧
    a.negate.rat = some (-x) ∧ (cmpV a b = .lt ↔ x < y) ∧ (cmpV a b = .eq ↔ x = y) := by
  obtain ⟨na, ma, rfl, pa, rfl⟩ := rat_eq_some ha
  obtain ⟨nb, mb, rfl, pb, rfl⟩ := rat_eq_some hb
  obtain ⟨nc, mc, rfl, pc, rfl⟩ := rat_eq_some hc
  have place (n : Bool) (m : Mag) : (signedNum n m.num : ℚ) / m.den = sgn n * m.q := by rw [signedNum_cast, Mag.q, mul_div_assoc]
  have order := compare_signedNum na nb pa.den pb.den
  rw [place, place] at order
  have product : (mulFin na ma nb mb).rat = some (sgn na * ma.q * (sgn nb * mb.q)) := rat_mulFin na nb pa pb
  have plain : (Mag.mk (ma.num * mb.num) (ma.den * mb.den) false).Plain := ⟨rfl, Nat.mul_ne_zero pa.den pb.den⟩
  refine ⟨rat_addFin mode na nb pa pb, rfl, product, rfl, fun hy => ?_, ?_, ?_, ?_, ?_, ?_⟩
  · have hn : mb.num ≠ 0 := fun h => hy (by rw [Mag.q_zero h, mul_zero])
    have := pa.pos
    have := pb.pos
    have : (0 : ℚ) < mb.num := by exact_mod_cast Nat.pos_of_ne_zero hn
    have value : divV (.fin na ma) (.fin nb mb) = (.fin (na != nb) ⟨ma.num * mb.den, ma.den * mb.num, false⟩, 0) := if_neg hn
    rw [value]
    refine ⟨?_, rfl⟩
    rw [rat_fin _ ⟨rfl, Nat.mul_ne_zero pa.den hn⟩, sgn_mul_sgn, Mag.q, Mag.q, Mag.q]
    push_cast
    congr 1
    cases na <;> cases nb <;> simp [sgn] <;> field_simp
  · have value : (fmaV mode (.fin na ma) (.fin nb mb) (.fin nc mc)).1 = addFin mode (na != nb) ⟨ma.num * mb.num, ma.den * mb.den, false⟩ nc mc := by
      simp [fmaV, Val.isInf, Val.isNan, mulV, mulFin, addV]
    rw [mulFin, rat_fin _ plain] at product
    rw [value, rat_addFin mode _ nc plain pc, Option.some.inj product]
  · simp [fmaV, Val.isInf, Val.isNan, mulV, mulFin, addV, sigEv, Val.isSig]
  · rw [Val.negate, rat_fin _ pa]
    cases na <;> simp [sgn]
  · exact (by rw [cmpV, order, compare_lt_iff_lt])
  · exact (by rw [cmpV, order, compare_eq_iff_eq])

end Sys2Proof.Machine
end

section
namespace Sys2Proof.Machine

/-! Floors, exponents and the rounding on a grid (R47, R48). -/

theorem Mag.Plain.scale {m : Mag} (h : m.Plain) (k : Int) : (m.scale k).Plain where
  root := by
    unfold Mag.scale
    simp only []
    generalize (if m.root = true then 2 * k else k) = n
    split <;> exact h.root
  den := Mag.scale_den h.den k

theorem Mag.q_scale {m : Mag} (h : m.Plain) (k : Int) : (m.scale k).q = m.q * 2 ^ k := by
  unfold Mag.scale
  simp only [h.root, Bool.false_eq_true, if_false]
  split
  · next hk =>
    obtain ⟨n, rfl⟩ := Int.eq_ofNat_of_zero_le hk
    simp [Mag.q, mul_div_right_comm]
  · next hk =>
    obtain ⟨n, hn⟩ := Int.eq_ofNat_of_zero_le (show 0 ≤ -k by omega)
    obtain rfl : k = -(n : ℤ) := by omega
    simp only [Mag.q, neg_neg, Int.toNat_natCast, Nat.cast_mul, Nat.cast_pow, Nat.cast_ofNat, zpow_neg, zpow_natCast]
    rw [div_mul_eq_div_div, div_eq_mul_inv _ ((2 : ℚ) ^ n)]

/-- Division of naturals as the floor of a fraction. -/
theorem div_floor (a : Nat) {b : Nat} (hb : b ≠ 0) :
    ((a / b : ℕ) : ℚ) ≤ a / b ∧ (a : ℚ) / b < (a / b : ℕ) + 1 ∧ (a % b = 0 ↔ (a : ℚ) / b = (a / b : ℕ)) := by
  have pos : (0 : ℚ) < b := by exact_mod_cast Nat.pos_of_ne_zero hb
  have split : (a : ℚ) = b * (a / b : ℕ) + (a % b : ℕ) := by exact_mod_cast (Nat.div_add_mod a b).symm
  have small : ((a % b : ℕ) : ℚ) < b := by exact_mod_cast Nat.mod_lt a (Nat.pos_of_ne_zero hb)
  have low : (0 : ℚ) ≤ (a % b : ℕ) := Nat.cast_nonneg _
  refine ⟨?_, ?_, ?_⟩
  · rw [le_div_iff₀ pos]
    linarith
  · rw [div_lt_iff₀ pos]
    linarith
  · rw [div_eq_iff pos.ne', split, ← Nat.cast_eq_zero (R := ℚ)]
    constructor <;> intro h <;> linarith

/-- The floor of a magnitude on a grid, and whether it is exact. -/
theorem floorAt_spec {m : Mag} (h : m.Plain) (k : Int) :
    ((m.floorAt k).1 : ℚ) ≤ m.q * 2 ^ k ∧ m.q * 2 ^ k < (m.floorAt k).1 + 1 ∧
      ((m.floorAt k).2 = true ↔ m.q * 2 ^ k = (m.floorAt k).1) := by
  have hs := h.scale k
  have floor : m.floorAt k = ((m.scale k).num / (m.scale k).den, (m.scale k).num % (m.scale k).den == 0) := by
    unfold Mag.floorAt
    simp [h.root]
  obtain ⟨low, high, exact_⟩ := div_floor (m.scale k).num hs.den
  rw [← Mag.q_scale h k, floor, Mag.q]
  exact ⟨low, high, by rw [beq_iff_eq]; exact exact_⟩

/-- The binade of a number: the greatest power of two that is not above it. -/
theorem ratLog2_spec {n d : Nat} (hn : n ≠ 0) (hd : d ≠ 0) :
    (2 : ℚ) ^ ratLog2 n d ≤ n / d ∧ (n : ℚ) / d < 2 ^ (ratLog2 n d + 1) := by
  have pn : (0 : ℚ) < n := by exact_mod_cast Nat.pos_of_ne_zero hn
  have pd : (0 : ℚ) < d := by exact_mod_cast Nat.pos_of_ne_zero hd
  have n1 : (2 : ℚ) ^ (Nat.log2 n : ℤ) ≤ n := by rw [zpow_natCast]; exact_mod_cast Nat.log2_self_le hn
  have n2 : (n : ℚ) < 2 ^ ((Nat.log2 n : ℤ) + 1) := by
    rw [← Nat.cast_succ, zpow_natCast]; exact_mod_cast Nat.lt_log2_self
  have d1 : (2 : ℚ) ^ (Nat.log2 d : ℤ) ≤ d := by rw [zpow_natCast]; exact_mod_cast Nat.log2_self_le hd
  have d2 : (d : ℚ) < 2 ^ ((Nat.log2 d : ℤ) + 1) := by
    rw [← Nat.cast_succ, zpow_natCast]; exact_mod_cast Nat.lt_log2_self
  have two : (2 : ℚ) ≠ 0 := by norm_num
  let k : ℤ := (Nat.log2 n : ℤ) - Nat.log2 d
  have low : (2 : ℚ) ^ (k - 1) ≤ n / d := by
    rw [le_div_iff₀ pd]
    calc (2 : ℚ) ^ (k - 1) * d ≤ 2 ^ (k - 1) * 2 ^ ((Nat.log2 d : ℤ) + 1) := by gcongr
      _ = 2 ^ (Nat.log2 n : ℤ) := by rw [← zpow_add₀ two]; congr 1; simp only [k]; ring
      _ ≤ n := n1
  have high : (n : ℚ) / d < 2 ^ (k + 1) := by
    rw [div_lt_iff₀ pd]
    calc (n : ℚ) < 2 ^ ((Nat.log2 n : ℤ) + 1) := n2
      _ = 2 ^ (k + 1) * 2 ^ (Nat.log2 d : ℤ) := by rw [← zpow_add₀ two]; congr 1; simp only [k]; ring
      _ ≤ 2 ^ (k + 1) * d := by gcongr
  have ge : (if 0 ≤ k then decide (d * 2 ^ k.toNat ≤ n) else decide (d ≤ n * 2 ^ (-k).toNat)) = true ↔ (2 : ℚ) ^ k ≤ n / d := by
    rw [le_div_iff₀ pd]
    split
    · next hk =>
      obtain ⟨j, hj⟩ := Int.eq_ofNat_of_zero_le hk
      rw [hj, decide_eq_true_iff, zpow_natCast, mul_comm]
      exact_mod_cast Iff.rfl
    · next hk =>
      obtain ⟨j, hj⟩ := Int.eq_ofNat_of_zero_le (show 0 ≤ -k by omega)
      rw [show k = -(j : ℤ) by omega, neg_neg, decide_eq_true_iff, zpow_neg, zpow_natCast, inv_mul_le_iff₀ (by positivity), mul_comm]
      exact_mod_cast Iff.rfl
  have value : ratLog2 n d = if (2 : ℚ) ^ k ≤ n / d then k else k - 1 := by
    unfold ratLog2
    simp only []
    exact ite_congr (propext ge) (fun _ => rfl) fun _ => rfl
  rw [value]
  split
  · next h => exact ⟨h, high⟩
  · next h => exact ⟨low, by rw [sub_add_cancel]; exact not_le.mp h⟩

theorem log2_spec {m : Mag} (h : m.Plain) (hn : m.num ≠ 0) : (2 : ℚ) ^ m.log2 ≤ m.q ∧ m.q < 2 ^ (m.log2 + 1) := by
  have : m.log2 = ratLog2 m.num m.den := by simp [Mag.log2, h.root]
  rw [this]
  exact ratLog2_spec hn h.den

/-- The step of a grid that a mode takes for y of a sign, whose floor is `lo`: y itself where it is a step, else one of the two beside it. -/
structure Rounds (mode : RMode) (neg : Bool) (y : ℚ) (lo r : Nat) : Prop where
  low : (lo : ℚ) ≤ y
  high : y < lo + 1
  same : y = lo → r = lo
  beside : r = lo ∨ r = lo + 1
  rtz : mode = .rtz → r = lo
  rup : y ≠ lo → mode = .rup → r = if neg then lo else lo + 1
  rdn : y ≠ lo → mode = .rdn → r = if neg then lo + 1 else lo
  near : mode = .rne ∨ mode = .rna → |y - r| ≤ 1 / 2

/-- Whether a mode goes up from a floor to the next step of the grid, for y between the two. -/
structure GoesUp (mode : RMode) (neg : Bool) (y : ℚ) (lo : Nat) (up : Bool) : Prop where
  rtz : mode = .rtz → up = false
  rup : mode = .rup → up = !neg
  rdn : mode = .rdn → up = neg
  above : mode = .rne ∨ mode = .rna → up = true → lo + 1 / 2 ≤ y
  below : mode = .rne ∨ mode = .rna → up = false → y ≤ lo + 1 / 2

theorem GoesUp.rounds {mode : RMode} {neg : Bool} {y : ℚ} {lo : Nat} {up : Bool} (h : GoesUp mode neg y lo up)
    (low : (lo : ℚ) ≤ y) (high : y < lo + 1) (hne : y ≠ lo) : Rounds mode neg y lo (if up then lo + 1 else lo) where
  low := low
  high := high
  same he := absurd he hne
  beside := by cases up <;> simp
  rtz hm := by rw [h.rtz hm]; rfl
  rup _ hm := by rw [h.rup hm]; cases neg <;> rfl
  rdn _ hm := by rw [h.rdn hm]
  near hm := by
    rw [abs_le]
    cases up with
    | false =>
      have := h.below hm rfl
      simp only [Bool.false_eq_true, if_false]
      constructor <;> linarith
    | true =>
      have := h.above hm rfl
      simp only [if_true, Nat.cast_add, Nat.cast_one]
      constructor <;> linarith

/-- `rnd_grid` rounds the magnitude on the grid (R47, R48): the 32 bits below a step, and whether something is left below them, say where y lies. -/
theorem rndGrid_rounds (c : RCtx) (neg : Bool) {m : Mag} (h : m.Plain) (e : Int) :
    Rounds c.mode neg (m.q * 2 ^ (-e)) ((m.floorAt (32 - e)).1 / 2 ^ 32) (rndGrid c neg m e).1 := by
  obtain ⟨low, high, exact_⟩ := floorAt_spec h (32 - e)
  unfold rndGrid
  generalize m.floorAt (32 - e) = floor at low high exact_ ⊢
  obtain ⟨t, ex⟩ := floor
  have scaled : m.q * 2 ^ (32 - e) = m.q * 2 ^ (-e) * 2 ^ 32 := by
    rw [sub_eq_add_neg, add_comm, zpow_add₀ two_ne_zero, mul_assoc]
    rfl
  simp only [scaled] at low high exact_ ⊢
  generalize m.q * 2 ^ (-e) = y at low high exact_ ⊢
  have parts := Nat.div_add_mod t (2 ^ 32)
  have small := Nat.mod_lt t (show 2 ^ 32 > 0 by norm_num)
  generalize t / 2 ^ 32 = lo at parts ⊢
  generalize t % 2 ^ 32 = f at parts small ⊢
  have parts' : (t : ℚ) = 2 ^ 32 * lo + f := by exact_mod_cast parts.symm
  have small' : (f : ℚ) + 1 ≤ 2 ^ 32 := by exact_mod_cast small
  have f0 : (0 : ℚ) ≤ f := Nat.cast_nonneg f
  have low' : (lo : ℚ) ≤ y := by linarith
  have high' : y < lo + 1 := by linarith
  split
  · next hz =>
    have here : y = lo := by
      have := exact_.mp hz.2
      rw [parts', hz.1] at this
      push_cast at this
      linarith
    exact ⟨low', high', fun _ => rfl, .inl rfl, fun _ => rfl, fun hne => absurd here hne, fun hne => absurd here hne, fun _ => by rw [here]; norm_num⟩
  · next hz =>
    have hne : y ≠ lo := by
      intro he
      rw [he] at low high exact_
      have zero : f = 0 := by
        have : (f : ℚ) ≤ 0 := by linarith
        exact_mod_cast le_antisymm this f0
      exact hz ⟨zero, exact_.mpr (by rw [parts', zero]; push_cast; ring)⟩
    have half (hf : 2 ^ 31 ≤ f) : (lo : ℚ) + 1 / 2 ≤ y := by
      have : (2 ^ 31 : ℚ) ≤ f := by exact_mod_cast hf
      linarith
    have below (hf : f < 2 ^ 31) : y ≤ (lo : ℚ) + 1 / 2 := by
      have : (f : ℚ) + 1 ≤ 2 ^ 31 := by exact_mod_cast hf
      linarith
    have tie (hf : f = 2 ^ 31) (he : ex = true) : y ≤ (lo : ℚ) + 1 / 2 := by
      have := exact_.mp he
      rw [parts', hf] at this
      push_cast at this
      linarith
    refine GoesUp.rounds ⟨?_, ?_, ?_, ?_, ?_⟩ low' high' hne
    · intro hm
      rw [hm]
    · intro hm
      rw [hm]
    · intro hm
      rw [hm]
    · rintro (hm | hm) hu
      · rw [hm] at hu
        simp only [Bool.or_eq_true, decide_eq_true_iff, Bool.and_eq_true, beq_iff_eq] at hu
        exact half (by omega)
      · rw [hm] at hu
        exact half (of_decide_eq_true hu)
    · rintro (hm | hm) hu
      · rw [hm] at hu
        simp only [Bool.or_eq_false_iff, decide_eq_false_iff_not, Bool.and_eq_false_iff, beq_eq_false_iff_ne, Bool.not_eq_false'] at hu
        rcases lt_trichotomy f (2 ^ 31) with hf | hf | hf
        · exact below hf
        · exact tie hf (hu.2.resolve_left (not_not_intro hf)).1
        · exact absurd hf hu.1
      · rw [hm] at hu
        exact below (not_le.mp (of_decide_eq_false hu))

end Sys2Proof.Machine
end

section
namespace Sys2Proof.Machine

/-! The numbers of a floating-point format (R30, R35). -/

/-- The greatest exponent field of a number. -/
def Fmt.topField (f : Fmt) : Nat := 2 ^ f.ebits - (if f.ieee then 2 else 1)

/-- log2 of the finest spacing of a format. -/
def Fmt.finest (f : Fmt) : Int := if f.isPx then -(f.fbits : Int) else f.minExp - f.fbits

theorem sgn_abs (neg : Bool) {x : ℚ} (h : 0 ≤ x) : |sgn neg * x| = x := by
  cases neg <;> simp [sgn, abs_of_nonneg h]

/-- A count of steps of a power of two. -/
theorem rat_steps (neg : Bool) (n : Nat) (k : Int) : (Val.fin neg ((Mag.mk n 1 false).scale k)).rat = some (sgn neg * (n * 2 ^ k)) := by
  have plain : (Mag.mk n 1 false).Plain := ⟨rfl, one_ne_zero⟩
  rw [rat_fin neg (plain.scale k), Mag.q_scale plain, Mag.q, Nat.cast_one, div_one]

theorem Fmt.signBit_eq {f : Fmt} (hf : f.isF = true) : f.signBit = if f.isPx then f.fbits + 1 else f.ebits + f.fbits := by
  revert hf
  cases f <;> decide

/-- A number of a format is less than 2^(fbits + 1) steps of a power of two that is not finer than its finest spacing. -/
theorem number_form {f : Fmt} (hf : f.isF = true) {code : Nat} {z : ℚ} (h : f.number code = some z) :
    ∃ (n : Nat) (k : Int), |z| = n * 2 ^ k ∧ n < 2 ^ (f.fbits + 1) ∧ f.finest ≤ k := by
  have form (neg : Bool) (n : Nat) (k : Int) (hv : (Val.fin neg ((Mag.mk n 1 false).scale k)).rat = some z) (hn : n < 2 ^ (f.fbits + 1))
      (hk : f.finest ≤ k) : ∃ (n : Nat) (k : Int), |z| = n * 2 ^ k ∧ n < 2 ^ (f.fbits + 1) ∧ f.finest ≤ k := by
    rw [rat_steps] at hv
    exact ⟨n, k, by rw [← Option.some.inj hv, sgn_abs _ (by positivity)], hn, hk⟩
  have small := Nat.mod_lt code (show 2 ^ f.fbits > 0 by positivity)
  have double : 2 ^ (f.fbits + 1) = 2 ^ f.fbits + 2 ^ f.fbits := by rw [pow_succ, mul_two]
  have sign := Fmt.signBit_eq hf
  unfold Fmt.number decodeF at h
  simp only [] at h
  unfold Fmt.finest at form ⊢
  by_cases px : f.isPx = true
  · rw [if_pos px] at h sign form ⊢
    exact form _ _ _ h (by rw [sign]; exact Nat.mod_lt _ (by positivity)) le_rfl
  · rw [if_neg px] at h form ⊢
    split at h
    · split at h <;> cases h
    · split at h
      · cases h
      · split at h
        · exact form _ _ _ h (by omega) le_rfl
        · next hE =>
          refine form _ _ _ h (by omega) ?_
          rw [beq_iff_eq] at hE
          unfold Fmt.minExp
          omega

/-- The fields of a code of a sign. -/
theorem signed_fields {f : Fmt} (neg : Bool) {k : Nat} (hk : k < 2 ^ f.signBit) :
    (f.signed neg k / 2 ^ f.signBit % 2 == 1) = neg ∧ f.signed neg k % 2 ^ f.signBit = k := by
  cases neg with
  | false => exact ⟨by simp [Fmt.signed, Nat.div_eq_of_lt hk], Nat.mod_eq_of_lt hk⟩
  | true =>
    refine ⟨?_, ?_⟩
    · simp [Fmt.signed, Nat.add_div_right _ (Nat.two_pow_pos _), Nat.div_eq_of_lt hk]
    · simp [Fmt.signed, Nat.mod_eq_of_lt hk]

theorem signed_exponent {f : Fmt} (sign : f.signBit = f.ebits + f.fbits) (neg : Bool) {E F : Nat} (hE : E < 2 ^ f.ebits) (hF : F < 2 ^ f.fbits) :
    f.signed neg (E * 2 ^ f.fbits + F) / 2 ^ f.fbits % 2 ^ f.ebits = E ∧ f.signed neg (E * 2 ^ f.fbits + F) % 2 ^ f.fbits = F ∧
      E * 2 ^ f.fbits + F < 2 ^ f.signBit := by
  have pos := Nat.two_pow_pos f.fbits
  have split : f.signed neg (E * 2 ^ f.fbits + F) = F + 2 ^ f.fbits * (E + if neg then 2 ^ f.ebits else 0) := by
    cases neg
    · simp only [Fmt.signed, Bool.false_eq_true, if_false]; ring
    · simp only [Fmt.signed, if_true, sign, pow_add]; ring
  refine ⟨?_, ?_, ?_⟩
  · rw [split, Nat.add_mul_div_left _ _ pos, Nat.div_eq_of_lt hF, zero_add]
    cases neg <;> simp [Nat.mod_eq_of_lt hE]
  · rw [split, Nat.add_mul_mod_self_left, Nat.mod_eq_of_lt hF]
  · rw [sign, pow_add]
    nlinarith [Nat.mul_le_mul_right (2 ^ f.fbits) hE]

theorem number_px {f : Fmt} (px : f.isPx = true) (sign : f.signBit = f.fbits + 1) (neg : Bool) {q : Nat} (hq : q < 2 ^ (f.fbits + 1)) :
    f.number (f.signed neg q) = some (sgn neg * (q * 2 ^ (-(f.fbits : Int)))) := by
  obtain ⟨hs, hm⟩ := signed_fields neg (sign ▸ hq)
  unfold Fmt.number decodeF
  simp only []
  rw [if_pos px, hs, hm, rat_steps]

theorem number_subnormal {f : Fmt} (px : f.isPx = false) (sign : f.signBit = f.ebits + f.fbits) (top : 1 ≤ f.topField) (neg : Bool) {q : Nat}
    (hq : q < 2 ^ f.fbits) : f.number (f.signed neg q) = some (sgn neg * (q * 2 ^ (f.minExp - f.fbits))) := by
  obtain ⟨hE, hF, hk⟩ := signed_exponent sign neg (Nat.two_pow_pos f.ebits) hq
  rw [zero_mul, zero_add] at hE hF hk
  obtain ⟨hs, -⟩ := signed_fields neg hk
  have ieee : (f.ieee && (0 == 2 ^ f.ebits - 1)) = false := by
    rw [Bool.and_eq_false_imp]
    intro h
    unfold Fmt.topField at top
    rw [if_pos h] at top
    rw [beq_eq_false_iff_ne]
    omega
  unfold Fmt.number decodeF
  simp only [px, hs, hE, hF, ieee]
  simp [rat_steps]

theorem number_normal {f : Fmt} (px : f.isPx = false) (sign : f.signBit = f.ebits + f.fbits) (neg : Bool) {E F : Nat} (h1 : 1 ≤ E)
    (h2 : E ≤ f.topField) (hF : F < 2 ^ f.fbits) (hnan : f = .e4m3 → E = 15 → F ≠ 7) :
    f.number (f.signed neg (E * 2 ^ f.fbits + F)) = some (sgn neg * ((F + 2 ^ f.fbits : ℕ) * 2 ^ ((E : Int) - f.bias - f.fbits))) := by
  unfold Fmt.topField at h2
  obtain ⟨hE, hF', hk⟩ := signed_exponent sign neg (show E < 2 ^ f.ebits by have := Nat.two_pow_pos f.ebits; split at h2 <;> omega) hF
  obtain ⟨hs, -⟩ := signed_fields neg hk
  have ieee : (f.ieee && (E == 2 ^ f.ebits - 1)) = false := by
    rw [Bool.and_eq_false_imp]
    intro h
    rw [if_pos h] at h2
    rw [beq_eq_false_iff_ne]
    omega
  have nan : (f == .e4m3 && E == 15 && F == 7) = false := by
    by_contra hh
    simp only [Bool.not_eq_false, Bool.and_eq_true, beq_iff_eq] at hh
    exact hnan hh.1.1 hh.1.2 hh.2
  have zero : (E == 0) = false := beq_eq_false_iff_ne.mpr (by omega)
  unfold Fmt.number decodeF
  simp only [px, hs, hE, hF', ieee, nan, zero, Bool.false_eq_true, if_false]
  exact rat_steps _ _ _

/-- The sizes of the formats of R30. -/
theorem Fmt.sizes {f : Fmt} (hf : f.isF = true) (px : f.isPx = false) : f.emax = f.topField - f.bias ∧ 1 ≤ f.topField ∧
    f.signBit = f.ebits + f.fbits ∧ f.qmax < 2 ^ (f.fbits + 1) ∧ (f = .e4m3 → f.topField = 15 ∧ f.qmax = 14 ∧ f.fbits = 3) := by
  revert hf px
  cases f <;> decide

/-- The code of q steps of a grid stands for them. -/
theorem number_codeOf {f : Fmt} (hf : f.isF = true) (px : f.isPx = false) (neg : Bool) {q d : Nat} (hd : d + 1 ≤ f.topField)
    (fine : d = 0 ∨ 2 ^ f.fbits ≤ q) (hq : q ≤ 2 ^ (f.fbits + 1)) (top : d + 1 = f.topField → q ≤ f.qmax) :
    f.number (f.signed neg (d * 2 ^ f.fbits + q)) = some (sgn neg * (q * 2 ^ (f.minExp - f.fbits + d))) := by
  obtain ⟨-, top1, sign, qmax, e4m3⟩ := Fmt.sizes hf px
  have double : 2 ^ (f.fbits + 1) = 2 ^ f.fbits + 2 ^ f.fbits := by rw [pow_succ, mul_two]
  rcases lt_or_ge q (2 ^ f.fbits) with low | low
  · obtain rfl : d = 0 := by omega
    rw [zero_mul, zero_add, number_subnormal px sign top1 neg low, Nat.cast_zero, add_zero]
  · rcases lt_or_eq_of_le hq with high | rfl
    · obtain ⟨F, rfl⟩ := Nat.exists_eq_add_of_le low
      rw [show d * 2 ^ f.fbits + (2 ^ f.fbits + F) = (d + 1) * 2 ^ f.fbits + F by ring,
        number_normal px sign neg (by omega) hd (by omega) ?_, add_comm F]
      · congr 5
        unfold Fmt.minExp
        push_cast
        ring
      · intro he hE hF
        obtain ⟨t, m, b⟩ := e4m3 he
        have := top (by omega)
        rw [m, b, hF] at this
        omega
    · rw [show d * 2 ^ f.fbits + 2 ^ (f.fbits + 1) = (d + 2) * 2 ^ f.fbits + 0 by ring,
        number_normal px sign neg (by omega) (by by_contra hh; exact absurd (top (by omega)) (by omega)) (by positivity) (fun _ _ => by decide)]
      congr 2
      unfold Fmt.minExp
      rw [zero_add, pow_succ, Nat.cast_mul, mul_assoc, Nat.cast_ofNat, ← zpow_one_add₀ two_ne_zero]
      congr 2
      push_cast
      ring

end Sys2Proof.Machine
end

section
namespace Sys2Proof.Machine

/-! Rounding on the number line (R45): X lies between the grid points A and B, and R is the one taken. -/

structure Brackets (mode : RMode) (neg : Bool) (X A B R : ℚ) : Prop where
  nonneg : 0 ≤ A
  low : A ≤ X
  high : X < B
  ends : R = A ∨ R = B
  same : X = A → R = A
  rtz : mode = .rtz → R = A
  rup : X ≠ A → mode = .rup → R = if neg then A else B
  rdn : X ≠ A → mode = .rdn → R = if neg then B else A
  near : mode = .rne ∨ mode = .rna → |X - R| ≤ X - A ∧ |X - R| ≤ B - X

theorem Rounds.brackets {mode : RMode} {neg : Bool} {y u : ℚ} {lo r : Nat} (h : Rounds mode neg y lo r) (hu : 0 < u) :
    Brackets mode neg (y * u) (lo * u) ((lo + 1 : ℕ) * u) (r * u) where
  nonneg := by positivity
  low := by gcongr; exact h.low
  high := by gcongr; exact_mod_cast h.high
  ends := h.beside.imp (fun e => by rw [e]) fun e => by rw [e]
  same e := by rw [h.same (mul_right_cancel₀ hu.ne' e)]
  rtz hm := by rw [h.rtz hm]
  rup hne hm := by rw [h.rup (fun e => hne (by rw [e])) hm]; split <;> rfl
  rdn hne hm := by rw [h.rdn (fun e => hne (by rw [e])) hm]; split <;> rfl
  near hm := by
    have closest : |y - r| ≤ y - lo ∧ |y - r| ≤ (lo + 1 : ℕ) - y := by
      have near := h.near hm
      have low := h.low
      have high := h.high
      push_cast
      rcases h.beside with e | e <;> rw [e] at near ⊢
      · rw [abs_of_nonneg (by linarith)] at near ⊢
        constructor <;> linarith
      · push_cast at near ⊢
        rw [abs_of_neg (by linarith)] at near ⊢
        constructor <;> linarith
    rw [← sub_mul, ← sub_mul, ← sub_mul, abs_mul, abs_of_pos hu]
    exact ⟨by gcongr; exact closest.1, by gcongr; exact closest.2⟩

section
variable {mode : RMode} {neg : Bool} {X A B R z : ℚ} (h : Brackets mode neg X A B R) (gap : |z| ≤ A ∨ B ≤ |z|)
include h gap

/-- RDN takes the greatest number that is not above x. -/
theorem Brackets.down (hm : mode = .rdn) : sgn neg * R ≤ sgn neg * X ∧ (z ≤ sgn neg * X → z ≤ sgn neg * R) := by
  obtain ⟨nonneg, low, high, -, same, -, -, rdn, -⟩ := h
  by_cases e : X = A
  · rw [same e, e]
    exact ⟨le_rfl, id⟩
  · rw [rdn e hm]
    have lt := lt_of_le_of_ne low (Ne.symm e)
    cases neg with
    | false =>
      simp only [sgn, Bool.false_eq_true, if_false, one_mul]
      refine ⟨low, fun hz => ?_⟩
      rcases abs_cases z with ⟨a, _⟩ | ⟨a, _⟩ <;> rcases gap with g | g <;> linarith
    | true =>
      simp only [sgn, if_true, neg_one_mul]
      refine ⟨by linarith, fun hz => ?_⟩
      rw [abs_of_nonpos (by linarith)] at gap
      rcases gap with g | g <;> linarith

/-- RUP takes the least number that is not below x. -/
theorem Brackets.up (hm : mode = .rup) : sgn neg * X ≤ sgn neg * R ∧ (sgn neg * X ≤ z → sgn neg * R ≤ z) := by
  obtain ⟨nonneg, low, high, -, same, -, rup, -, -⟩ := h
  by_cases e : X = A
  · rw [same e, e]
    exact ⟨le_rfl, id⟩
  · rw [rup e hm]
    have lt := lt_of_le_of_ne low (Ne.symm e)
    cases neg with
    | false =>
      simp only [sgn, Bool.false_eq_true, if_false, one_mul]
      refine ⟨by linarith, fun hz => ?_⟩
      rw [abs_of_nonneg (by linarith)] at gap
      rcases gap with g | g <;> linarith
    | true =>
      simp only [sgn, if_true, neg_one_mul]
      refine ⟨by linarith, fun hz => ?_⟩
      rcases abs_cases z with ⟨a, _⟩ | ⟨a, _⟩ <;> rcases gap with g | g <;> linarith

/-- RTZ takes the greatest magnitude that is not above x's. -/
theorem Brackets.toZero (hm : mode = .rtz) : |sgn neg * R| ≤ |sgn neg * X| ∧ (|z| ≤ |sgn neg * X| → |z| ≤ |sgn neg * R|) := by
  obtain ⟨nonneg, low, high, -, -, rtz, -, -, -⟩ := h
  rw [rtz hm, sgn_abs neg nonneg, sgn_abs neg (nonneg.trans low)]
  exact ⟨low, fun hz => gap.elim id fun g => absurd (g.trans hz) (not_le.mpr high)⟩

/-- RNE and RNA take one that no number is nearer to. -/
theorem Brackets.nearest (hm : mode = .rne ∨ mode = .rna) : |sgn neg * X - sgn neg * R| ≤ |sgn neg * X - z| := by
  obtain ⟨nonneg, low, high, -, -, -, -, -, near⟩ := h
  obtain ⟨below, above⟩ := near hm
  have far : abs (X - |z|) ≤ |sgn neg * X - z| := by
    have := abs_abs_sub_abs_le_abs_sub (sgn neg * X) z
    rwa [sgn_abs neg (nonneg.trans low)] at this
  have here : |sgn neg * X - sgn neg * R| = |X - R| := by
    rw [← mul_sub, abs_mul]
    cases neg <;> simp [sgn]
  rw [here]
  rcases gap with g | g
  · linarith [le_abs_self (X - |z|)]
  · linarith [neg_le_abs (X - |z|)]

end

/-! The grid of a format at a magnitude (R47). -/

/-- The spacing e of a format at X = y 2^e: where it is not the finest, y has all the digits; where it is not the coarsest, y has no more. -/
structure GridAt (f : Fmt) (e : Int) (y : ℚ) : Prop where
  finest : f.finest ≤ e
  top : e ≤ f.topStep
  full : f.finest < e → 2 ^ f.fbits ≤ y
  fits : e < f.topStep → y < 2 ^ (f.fbits + 1)

theorem gridAt_step (f : Fmt) (hf : f.isF = true) {m : Mag} (h : m.Plain) (hn : m.num ≠ 0) : GridAt f (f.step m) (m.q * 2 ^ (-f.step m)) := by
  obtain ⟨low, high⟩ := log2_spec h hn
  have full (e : Int) (he : e + f.fbits ≤ m.log2) : (2 : ℚ) ^ f.fbits ≤ m.q * 2 ^ (-e) := by
    calc (2 : ℚ) ^ f.fbits = 2 ^ (e + f.fbits) * 2 ^ (-e) := by
          rw [← zpow_add₀ two_ne_zero, ← zpow_natCast]; congr 1; ring
      _ ≤ 2 ^ m.log2 * 2 ^ (-e) := by gcongr; norm_num
      _ ≤ m.q * 2 ^ (-e) := by gcongr
  have fits (e : Int) (he : m.log2 ≤ e + f.fbits) : m.q * 2 ^ (-e) < (2 : ℚ) ^ (f.fbits + 1) := by
    calc m.q * 2 ^ (-e) < 2 ^ (m.log2 + 1) * 2 ^ (-e) := by gcongr
      _ ≤ 2 ^ (e + f.fbits + 1) * 2 ^ (-e) := by gcongr; norm_num
      _ = (2 : ℚ) ^ (f.fbits + 1) := by rw [← zpow_add₀ two_ne_zero, ← zpow_natCast]; congr 1; push_cast; ring
  by_cases px : f.isPx = true
  · have step : f.step m = -(f.fbits : Int) := if_pos px
    have finest : f.finest = -(f.fbits : Int) := if_pos px
    have top : f.topStep = -(f.fbits : Int) := if_pos px
    rw [step]
    exact ⟨finest.le, top.ge, fun hh => absurd hh (by omega), fun hh => absurd hh (by omega)⟩
  · have step : f.step m = max (min m.log2 f.emax - (f.fbits : Int)) (f.minExp - f.fbits) := if_neg px
    have finest : f.finest = f.minExp - f.fbits := if_neg px
    have top : f.topStep = f.emax - f.fbits := if_neg px
    obtain ⟨emax, top1, -⟩ := Fmt.sizes hf (by simpa using px)
    have range : f.minExp ≤ f.emax := by unfold Fmt.minExp; omega
    exact ⟨by omega, by omega, fun hh => full _ (by omega), fun hh => fits _ (by omega)⟩

theorem number_gap {f : Fmt} (hf : f.isF = true) {e : Int} {y : ℚ} (g : GridAt f e y) {lo : Nat} (hy : y < lo + 1) {code : Nat} {z : ℚ}
    (hz : f.number code = some z) : |z| ≤ lo * 2 ^ e ∨ ((lo + 1 : ℕ) : ℚ) * 2 ^ e ≤ |z| := by
  obtain ⟨n, k, habs, hn, hk⟩ := number_form hf hz
  have hn' : (n : ℚ) ≤ 2 ^ (f.fbits + 1) := by exact_mod_cast hn.le
  rw [habs]
  rcases lt_or_ge k e with h | h
  · left
    have full : 2 ^ f.fbits ≤ lo := by
      have : ((2 ^ f.fbits : ℕ) : ℚ) < (lo + 1 : ℕ) := by push_cast; exact (g.full (hk.trans_lt h)).trans_lt hy
      exact Nat.lt_succ_iff.mp (by exact_mod_cast this)
    have coarser : k ≤ e - 1 := by omega
    calc (n : ℚ) * 2 ^ k ≤ 2 ^ (f.fbits + 1) * 2 ^ (e - 1) := by gcongr; norm_num
      _ = 2 ^ f.fbits * 2 ^ e := by rw [pow_succ, mul_assoc, ← zpow_one_add₀ two_ne_zero]; congr 2; ring
      _ ≤ lo * 2 ^ e := by gcongr; exact_mod_cast full
  · obtain ⟨d, rfl⟩ := Int.le.dest h
    have steps : (n : ℚ) * 2 ^ (e + d) = (n * 2 ^ d : ℕ) * 2 ^ e := by
      rw [zpow_add₀ two_ne_zero, zpow_natCast]
      push_cast
      ring
    rw [steps]
    rcases Nat.lt_or_ge lo (n * 2 ^ d) with hl | hl
    · exact .inr (by gcongr; exact hl)
    · exact .inl (by gcongr)

/-- The code of a magnitude that was rounded on the grid and does not overflow. -/
theorem number_rounded {f : Fmt} (hf : f.isF = true) {mode : RMode} {neg : Bool} {e : Int} {y : ℚ} {lo r : Nat} (g : GridAt f e y)
    (h : Rounds mode neg y lo r) (hover : e = f.topStep → r ≤ f.qmax) : f.number (f.signed neg (f.codeOf r e)) = some (sgn neg * (r * 2 ^ e)) := by
  obtain ⟨finest, top, full, fits⟩ := g
  have r1 : lo ≤ r ∧ r ≤ lo + 1 := by rcases h.beside with e | e <;> omega
  unfold Fmt.finest at finest full
  unfold Fmt.topStep at top fits hover
  unfold Fmt.codeOf
  by_cases px : f.isPx = true
  · rw [if_pos px] at finest top hover ⊢
    obtain rfl : e = -(f.fbits : Int) := le_antisymm top finest
    have sign := Fmt.signBit_eq hf
    rw [if_pos px] at sign
    refine number_px px sign neg ((hover rfl).trans_lt ?_)
    have : f.qmax = 2 ^ (f.fbits + 1) - 1 := by
      revert px
      cases f <;> decide
    have := Nat.two_pow_pos (f.fbits + 1)
    omega
  · rw [if_neg px] at finest full top fits hover ⊢
    have notPx : f.isPx = false := by simpa using px
    obtain ⟨emax, top1, sign, qmax, -⟩ := Fmt.sizes hf notPx
    obtain ⟨d, rfl⟩ := Int.le.dest finest
    have minExp : f.minExp = 1 - f.bias := rfl
    have steps : (f.minExp - (f.fbits : Int) + d - (f.minExp - f.fbits)).toNat = d := by omega
    rw [steps]
    refine number_codeOf hf notPx neg (by omega) ?_ ?_ fun ht => hover (by omega)
    · rcases Nat.eq_zero_or_pos d with hd | hd
      · exact .inl hd
      · right
        have : ((2 ^ f.fbits : ℕ) : ℚ) < (lo + 1 : ℕ) := by push_cast; exact (full (by omega)).trans_lt h.high
        have : 2 ^ f.fbits < lo + 1 := by exact_mod_cast this
        omega
    · rcases lt_or_eq_of_le top with ht | ht
      · have : (lo : ℚ) < (2 ^ (f.fbits + 1) : ℕ) := by push_cast; exact h.low.trans_lt (fits ht)
        have : lo < 2 ^ (f.fbits + 1) := by exact_mod_cast this
        omega
      · exact (hover ht).trans qmax.le

/-! `round` of R47. -/

/-- `overflow` raises OF. -/
theorem overflowF_of (f : Fmt) (c : RCtx) (neg : Bool) : (overflowF f c neg).2.getLsbD 2 = true := by
  unfold overflowF
  repeat' split
  all_goals simp [evOF, evNX, evSAT]

/-- A rounding without overflow and flush is the grid's. -/
theorem roundF_grid {f : Fmt} {c : RCtx} {neg : Bool} {m : Mag} (hn : m.num ≠ 0) (ftz : c.ftz = false)
    (ev : (roundF f c (.fin neg m)).2.getLsbD 2 = false) :
    (roundF f c (.fin neg m)).1 = f.signed neg (f.codeOf (rndGrid c neg m (f.step m)).1 (f.step m)) ∧
      (f.step m = f.topStep → (rndGrid c neg m (f.step m)).1 ≤ f.qmax) := by
  unfold roundF at ev ⊢
  simp only [hn, ftz, if_false, Bool.false_and, Bool.false_eq_true] at ev ⊢
  split at ev
  · rw [overflowF_of] at ev
    cases ev
  · next hsr =>
    rw [if_neg hsr]
    split at ev
    · simp only [BitVec.getLsbD_or, overflowF_of, Bool.or_true, reduceCtorEq] at ev
    · next hover =>
      rw [if_neg hover]
      exact ⟨rfl, fun he => not_lt.mp fun hq => hover ⟨he, hq⟩⟩

theorem number_zero {f : Fmt} (hf : f.isF = true) (neg : Bool) : f.number (f.signed neg 0) = some 0 := by
  have sign := Fmt.signBit_eq hf
  by_cases px : f.isPx = true
  · rw [if_pos px] at sign
    rw [number_px px sign neg (Nat.two_pow_pos _)]
    simp
  · rw [if_neg px] at sign
    have notPx : f.isPx = false := by simpa using px
    rw [number_subnormal notPx sign (Fmt.sizes hf notPx).2.1 neg (Nat.two_pow_pos _)]
    simp

/-- Settles O4: the fraction behind each exact result, and the place of a magnitude on its format's grid, on which the numbers of the
format near it lie. -/
theorem roundingIsCorrect : Obligations.RoundingIsCorrect := by
  unfold Obligations.RoundingIsCorrect
  refine ⟨fun mode a b c x y z ha hb hc => exact_numbers mode ha hb hc, ?_⟩
  intro f c v x hf hx ftz ev
  obtain ⟨neg, m, rfl, plain, rfl⟩ := rat_eq_some hx
  have float : roundTo f c (.fin neg m) = roundF f c (.fin neg m) := by
    have notInt : f.isI = false ∧ (f == .e8m0) = false := by
      revert hf
      cases f <;> decide
    rw [roundTo, notInt.1, notInt.2]
    rfl
  rw [float] at ev ⊢
  by_cases hn : m.num = 0
  · have value : roundF f c (.fin neg m) = (f.signed neg 0, 0) := if_pos hn
    rw [value, Mag.q_zero hn, mul_zero]
    exact ⟨0, number_zero hf neg, fun n z _ => ⟨fun _ => ⟨le_rfl, id⟩, fun _ => ⟨le_rfl, id⟩, fun _ => ⟨le_rfl, fun _ => id⟩, fun _ => by simp⟩⟩
  · obtain ⟨code, hover⟩ := roundF_grid hn ftz ev
    have grid := gridAt_step f hf plain hn
    have rounds := rndGrid_rounds c neg plain (f.step m)
    have brackets := rounds.brackets (zpow_pos (two_pos (α := ℚ)) (f.step m))
    rw [mul_assoc, ← zpow_add₀ two_ne_zero, neg_add_cancel, zpow_zero, mul_one] at brackets
    refine ⟨_, by rw [code]; exact number_rounded hf grid rounds hover, fun n z hz => ?_⟩
    have gap := number_gap hf grid rounds.high hz
    exact ⟨brackets.down gap, brackets.up gap, fun hm => (brackets.toZero gap hm).imp_right fun k _ => k, brackets.nearest gap⟩

end Sys2Proof.Machine
end

section
namespace Sys2Proof.Machine

/-! Words of bytes that stand one after another. -/

theorem wordIn_append_left {a : List Byte} (b : List Byte) {o : Nat} (h : o + 8 ≤ a.length) : wordIn (a ++ b) o = wordIn a o := by
  rw [wordIn, wordIn, List.drop_append_of_le_length (by omega), List.take_append_of_le_length (by rw [List.length_drop]; omega)]

theorem wordIn_append_right {a : List Byte} (b : List Byte) {o : Nat} (h : a.length ≤ o) : wordIn (a ++ b) o = wordIn b (o - a.length) := by
  rw [wordIn, wordIn, List.drop_append, List.drop_eq_nil_of_le h, List.nil_append]

/-- A word within one of several strings of one length. -/
theorem wordIn_flatten {k : Nat} {l : List (List Byte)} (hl : ∀ b ∈ l, b.length = k) {i o : Nat} {b : List Byte} (hi : l[i]? = some b)
    (ho : o + 8 ≤ k) : wordIn l.flatten (k * i + o) = wordIn b o := by
  induction l generalizing i with
  | nil => cases hi
  | cons a l ih =>
    have ha := hl a List.mem_cons_self
    cases i with
    | zero =>
      obtain rfl : a = b := by simpa using hi
      rw [List.flatten_cons, Nat.mul_zero, Nat.zero_add, wordIn_append_left _ (by omega)]
    | succ i =>
      rw [List.flatten_cons, wordIn_append_right _ (by rw [ha, Nat.mul_succ]; omega), ha,
        show k * (i + 1) + o - k = k * i + o by rw [Nat.mul_succ]; omega]
      exact ih (fun b hb => hl b (List.mem_cons_of_mem _ hb)) (by simpa using hi)

theorem wordIn_map {k n : Nat} {f : Nat → List Byte} (hf : ∀ i, (f i).length = k) {i o : Nat} (hi : i < n) (ho : o + 8 ≤ k) :
    wordIn ((nrange 0 n).map f).flatten (k * i + o) = wordIn (f i) o := by
  refine wordIn_flatten ?_ ?_ ho
  · intro b hb
    obtain ⟨j, -, rfl⟩ := List.mem_map.mp hb
    exact hf j
  · rw [List.getElem?_map, nrange_getElem?, if_pos hi, Nat.zero_add]
    rfl

theorem length_flatten_map {k : Nat} {f : Nat → List Byte} (hf : ∀ i, (f i).length = k) (n : Nat) :
    ((nrange 0 n).map f).flatten.length = n * k := by
  simp [List.length_flatten, Function.comp_def, hf]

theorem wordIn_natBytes (n : Nat) : wordIn (natBytes 8 n) 0 = BitVec.ofNat 64 n := by
  rw [wordIn, List.drop_zero, List.take_of_length_le (length_natBytes 8 n).le, bytesNat_natBytes]
  exact BitVec.eq_of_toNat_eq (by simp)

theorem wordIn_wordBytes (w : Word) : wordIn (wordBytes w) 0 = w := by
  rw [wordBytes, wordIn_natBytes, BitVec.ofNat_toNat, BitVec.setWidth_eq]

@[simp] theorem length_wordBytes (w : Word) : (wordBytes w).length = 8 := length_natBytes 8 _

/-! The role block (R352). -/

/-- TRAPW of a role block: that of its trap with the element that the role keeps, or the phase of its wait. -/
def blockTrapw (r : RoleState) (p : Option TrapPost) : Word :=
  match p with
  | some q => trapWord { q with elem := (keptOf r p).elem }
  | none => BitVec.ofNat 64 ((keptOf r p).elem % 2 ^ 32 * 2 ^ 8)

/-- What stands in a role block after the counters. -/
def roleRest (r : RoleState) (p : Option TrapPost) : List Byte :=
  let k := keptOf r p
  let q : TrapPost := p.getD { cls := 0 }
  natBytes 8 k.held.toNat ++ (((nrange 0 6).map fun c => wordBytes (hixWord k.held k.hix c)).flatten ++
    (List.replicate 24 0 ++
    ((nrange 0 16).map fun i => natBytes 8 (q.pages.getD i (0, 0)).1 ++ natBytes 8 (q.pages.getD i (0, 0)).2).flatten))

/-- What stands in a role block after the registers. -/
def roleTail (r : RoleState) (p : Option TrapPost) : List Byte :=
  let k := keptOf r p
  let q : TrapPost := p.getD { cls := 0 }
  wordBytes k.resume ++ (natBytes 8 r.vl ++ (wordBytes (rstateWord r k) ++
    (wordBytes (blockTrapw r p) ++ (wordBytes q.faddr ++ (natBytes 8 q.npage ++
    (((nrange 0 32).map fun i => natBytes 4 (k.cnt.getD i 0)).flatten ++
    roleRest r p))))))

theorem roleBlock_eq (r : RoleState) (p : Option TrapPost) :
    roleBlock r p = ((nrange 0 64).map fun i => wordBytes (r.xr i)).flatten ++ roleTail r p := by
  unfold roleBlock roleTail roleRest
  simp only [List.append_assoc]
  rfl

theorem length_registers (r : RoleState) : ((nrange 0 64).map fun i => wordBytes (r.xr i)).flatten.length = 512 :=
  length_flatten_map (fun _ => length_wordBytes _) 64

theorem length_roleTail (r : RoleState) (p : Option TrapPost) : (roleTail r p).length = 512 := by
  have counters (f : Nat → Nat) : ((nrange 0 32).map fun i => natBytes 4 (f i)).flatten.length = 128 :=
    length_flatten_map (fun _ => length_natBytes _ _) 32
  have indices (f : Nat → Word) : ((nrange 0 6).map fun i => wordBytes (f i)).flatten.length = 48 :=
    length_flatten_map (fun _ => length_wordBytes _) 6
  have pages (f g : Nat → Nat) : ((nrange 0 16).map fun i => natBytes 8 (f i) ++ natBytes 8 (g i)).flatten.length = 256 :=
    length_flatten_map (f := fun i => natBytes 8 (f i) ++ natBytes 8 (g i)) (fun _ => by rw [List.length_append, length_natBytes, length_natBytes]) 16
  unfold roleTail roleRest
  simp only [List.length_append, length_wordBytes, length_natBytes, counters, indices, pages, List.length_replicate]

theorem length_roleBlock (r : RoleState) (p : Option TrapPost) : (roleBlock r p).length = 1024 := by
  rw [roleBlock_eq, List.length_append, length_registers, length_roleTail]

/-- The words of a role block. -/
structure BlockOf (r : RoleState) (p : Option TrapPost) (w : Nat → Word) : Prop where
  regs : ∀ i, i < 64 → w (8 * i) = r.xr i
  resume : w 0x200 = (keptOf r p).resume
  vl : w 0x208 = BitVec.ofNat 64 r.vl
  rstate : w 0x210 = rstateWord r (keptOf r p)
  trapw : w 0x218 = blockTrapw r p
  faddr : ∀ q, p = some q → w 0x220 = q.faddr
  npage : ∀ q, p = some q → w 0x228 = BitVec.ofNat 64 q.npage
  held : w 0x2B0 = BitVec.ofNat 64 (keptOf r p).held.toNat
  pages : ∀ q, p = some q → ∀ i, i < 16 →
    w (0x300 + 16 * i) = BitVec.ofNat 64 (q.pages.getD i (0, 0)).1 ∧ w (0x308 + 16 * i) = BitVec.ofNat 64 (q.pages.getD i (0, 0)).2

theorem blockOf_roleBlock (r : RoleState) (p : Option TrapPost) : BlockOf r p (wordIn (roleBlock r p)) := by
  have counters (f : Nat → Nat) : ((nrange 0 32).map fun i => natBytes 4 (f i)).flatten.length = 128 :=
    length_flatten_map (fun _ => length_natBytes _ _) 32
  have indices (f : Nat → Word) : ((nrange 0 6).map fun i => wordBytes (f i)).flatten.length = 48 :=
    length_flatten_map (fun _ => length_wordBytes _) 6
  have tail (o : Nat) : wordIn (roleBlock r p) (512 + o) = wordIn (roleTail r p) o := by
    rw [roleBlock_eq, wordIn_append_right _ (by rw [length_registers]; omega), length_registers, Nat.add_sub_cancel_left]
  have here (w : Word) (l : List Byte) : wordIn (wordBytes w ++ l) 0 = w := by
    rw [wordIn_append_left _ (by simp), wordIn_wordBytes]
  have here' (n : Nat) (l : List Byte) : wordIn (natBytes 8 n ++ l) 0 = BitVec.ofNat 64 n := by
    rw [wordIn_append_left _ (by simp), wordIn_natBytes]
  have next (w : Word) (l : List Byte) (o : Nat) : wordIn (wordBytes w ++ l) (8 + o) = wordIn l o := by
    rw [wordIn_append_right _ (by simp), length_wordBytes, Nat.add_sub_cancel_left]
  have next' (n : Nat) (l : List Byte) (o : Nat) : wordIn (natBytes 8 n ++ l) (8 + o) = wordIn l o := by
    rw [wordIn_append_right _ (by simp), length_natBytes, Nat.add_sub_cancel_left]
  have skip {n : Nat} {a : List Byte} (ha : a.length = n) (l : List Byte) (o : Nat) : wordIn (a ++ l) (n + o) = wordIn l o := by
    rw [wordIn_append_right _ (by omega), ha, Nat.add_sub_cancel_left]
  have counted (o : Nat) : wordIn (roleTail r p) (48 + (128 + o)) = wordIn (roleRest r p) o := by
    rw [show 48 + (128 + o) = 8 + (8 + (8 + (8 + (8 + (8 + (128 + o)))))) by omega]
    unfold roleTail
    simp only [next, next']
    exact skip (counters _) _ o
  refine ⟨fun i hi => ?_, ?_, ?_, ?_, ?_, ?_, ?_, ?_, ?_⟩
  · rw [roleBlock_eq, wordIn_append_left _ (by rw [length_registers]; omega)]
    exact (wordIn_map (fun _ => length_wordBytes _) hi le_rfl).trans (wordIn_wordBytes _)
  · exact (tail 0).trans (here _ _)
  · exact (tail (8 + 0)).trans ((next _ _ 0).trans (here' _ _))
  · exact (tail (8 + (8 + 0))).trans ((next _ _ _).trans ((next' _ _ _).trans (here _ _)))
  · exact (tail (8 + (8 + (8 + 0)))).trans ((next _ _ _).trans ((next' _ _ _).trans ((next _ _ _).trans (here _ _))))
  · rintro q rfl
    exact (tail (8 + (8 + (8 + (8 + 0))))).trans ((next _ _ _).trans ((next' _ _ _).trans ((next _ _ _).trans ((next _ _ _).trans (here _ _)))))
  · rintro q rfl
    exact (tail (8 + (8 + (8 + (8 + (8 + 0)))))).trans ((next _ _ _).trans ((next' _ _ _).trans ((next _ _ _).trans ((next _ _ _).trans
      ((next _ _ _).trans (here' _ _))))))
  · exact (tail (48 + (128 + 0))).trans ((counted 0).trans (here' _ _))
  · rintro q rfl i hi
    have page (o : Nat) (ho : o + 8 ≤ 16) : wordIn (roleBlock r (some q)) (512 + (48 + (128 + (8 + (48 + (24 + (16 * i + o))))))) =
        wordIn (natBytes 8 (q.pages.getD i (0, 0)).1 ++ natBytes 8 (q.pages.getD i (0, 0)).2) o := by
      rw [tail, counted, roleRest, next', skip (indices _), skip List.length_replicate]
      exact wordIn_map (fun _ => by simp) hi ho
    refine ⟨?_, ?_⟩
    · rw [show 0x300 + 16 * i = 512 + (48 + (128 + (8 + (48 + (24 + (16 * i + 0)))))) by omega, page 0 (by omega)]
      exact here' _ _
    · rw [show 0x308 + 16 * i = 512 + (48 + (128 + (8 + (48 + (24 + (16 * i + 8)))))) by omega, page 8 (by omega)]
      exact (next' _ _ 0).trans (wordIn_natBytes _)

end Sys2Proof.Machine
end

section
namespace Sys2Proof.Machine

/-! What the record of a role says (R352 to R354). -/

/-- The record of a role, from a place of the context area on: its registers and state, and its trap or its wait. -/
def RoleRecord (r : RoleState) (post : Option TrapPost) (w : Nat → Word) (at_ : Nat) : Prop :=
  (∀ i, i < 64 → w (at_ + 8 * i) = r.xr i) ∧ w (at_ + 0x208) = BitVec.ofNat 64 r.vl ∧
  (w (at_ + 0x210)).getLsbD 0 = r.ended ∧ (w (at_ + 0x210)).getLsbD 1 = r.priv ∧
  (post = none → w (at_ + 0x200) = r.pc ∧ (w (at_ + 0x218)).getLsbD 63 = false ∧
    (r.resume = none → (∀ i ph d fp, r.stall = some (.barrier i ph d fp) → (w (at_ + 0x210)).getLsbD 2 = true ∧
        (w (at_ + 0x210)).getLsbD 5 = fp ∧ w (at_ + 0x218) = BitVec.ofNat 64 (ph % 2 ^ 32 * 2 ^ 8)) ∧
      (r.waitPhase = none → (∀ f, r.stall ≠ some (.vfetch f)) →
        (w (at_ + 0x210)).getLsbD 2 = false ∧ w (at_ + 0x218) = 0))) ∧
  ∀ p, post = some p → w (at_ + 0x200) = p.resume ∧ w (at_ + 0x220) = p.faddr ∧ w (at_ + 0x228) = BitVec.ofNat 64 p.npage ∧
    (∀ i, i < 16 → w (at_ + 0x300 + 16 * i) = BitVec.ofNat 64 (p.pages.getD i (0, 0)).1 ∧
      w (at_ + 0x308 + 16 * i) = BitVec.ofNat 64 (p.pages.getD i (0, 0)).2) ∧
    (p.reissue = true → (w (at_ + 0x210)).getLsbD 2 = p.cont ∧ (w (at_ + 0x210)).getLsbD 3 = true ∧
      w (at_ + 0x2B0) = p.held.setWidth 64) ∧
    w (at_ + 0x218) = BitVec.ofNat 64 (2 ^ 63 + (if p.eng then 2 ^ 62 else 0) + p.unit % 256 * 2 ^ 44 + p.sub % 16 * 2 ^ 40 +
      (if p.cont = false ∧ p.reissue = false ∧ p.resume = r.pc then r.waitPhase.getD p.elem else p.elem) % 2 ^ 32 * 2 ^ 8 + p.cls % 16)

/-- The bits of RSTATE. -/
theorem rstateWord_bits (r : RoleState) (k : Kept) : (rstateWord r k).getLsbD 0 = r.ended ∧ (rstateWord r k).getLsbD 1 = r.priv ∧
    (rstateWord r k).getLsbD 2 = k.cont ∧ (rstateWord r k).getLsbD 3 = k.reissue ∧ (rstateWord r k).getLsbD 5 = k.fpeer := by
  unfold rstateWord
  cases r.ended <;> cases r.priv <;> cases k.cont <;> cases k.reissue <;> cases k.fpeer <;> decide

theorem getD_ite (b : Bool) (x e : Nat) : (if b then x else e) = (if b then some x else none).getD e := by cases b <;> rfl

/-- What a role keeps that has trapped goes on where its trap says, and names the element of the trap or the phase of the wait. -/
theorem keptOf_some (r : RoleState) (p : TrapPost) : (keptOf r (some p)).resume = p.resume ∧ (keptOf r (some p)).elem =
    if p.cont = false ∧ p.reissue = false ∧ p.resume = r.pc then r.waitPhase.getD p.elem else p.elem := by
  unfold keptOf
  by_cases hc : (p.cont || p.reissue) = true
  · have again : ¬ (p.cont = false ∧ p.reissue = false ∧ p.resume = r.pc) := fun h => by simp [h.1, h.2.1] at hc
    simp only [hc, if_true, if_neg again]
    exact ⟨trivial, trivial⟩
  · have fresh : p.cont = false ∧ p.reissue = false := by simpa using hc
    by_cases hr : p.resume = r.pc
    · simp only [hr, fresh, and_self, if_true]
      unfold RoleState.waitPhase
      cases r.resume with
      | none =>
        cases r.stall with
        | none => exact ⟨rfl, rfl⟩
        | some w => cases w <;> exact ⟨rfl, rfl⟩
      | some m =>
        cases r.stall with
        | none => exact ⟨rfl, getD_ite _ _ _⟩
        | some w =>
          cases w with
          | vfetch _ => exact ⟨rfl, rfl⟩
          | barrier _ _ _ _ => exact ⟨rfl, rfl⟩
          | _ => exact ⟨rfl, getD_ite _ _ _⟩
    · simp only [hc, hr, and_false, if_false, Bool.false_eq_true]
      exact ⟨trivial, trivial⟩

theorem keptOf_reissue (r : RoleState) {p : TrapPost} (h : p.reissue = true) :
    (keptOf r (some p)).cont = p.cont ∧ (keptOf r (some p)).reissue = true ∧ (keptOf r (some p)).held = p.held := by
  unfold keptOf
  simp [h]

theorem keptOf_none (r : RoleState) : (keptOf r none).resume = r.pc ∧
    (r.resume = none → (∀ i ph d fp, r.stall = some (.barrier i ph d fp) →
        (keptOf r none).cont = true ∧ (keptOf r none).fpeer = fp ∧ (keptOf r none).elem = ph) ∧
      (r.waitPhase = none → (∀ f, r.stall ≠ some (.vfetch f)) → (keptOf r none).cont = false ∧ (keptOf r none).elem = 0)) := by
  unfold keptOf
  simp only []
  refine ⟨?_, fun hr => ⟨fun i ph d fp hs => ?_, fun hw hv => ?_⟩⟩
  · split
    · rfl
    · split <;> rfl
  · simp [hr, hs]
  · unfold RoleState.waitPhase at hw
    simp only [hr] at hw ⊢
    split
    · next f hs => exact absurd hs (hv f)
    · next hs => simp [hs] at hw
    · exact ⟨rfl, rfl⟩

theorem small_bit (e : Nat) : (BitVec.ofNat 64 (e % 2 ^ 32 * 2 ^ 8)).getLsbD 63 = false := by
  rw [BitVec.getLsbD_ofNat, Nat.testBit_lt_two_pow (by omega), Bool.and_false]

theorem roleRecord_of_block {r : RoleState} {p : Option TrapPost} {w v : Nat → Word} {at_ : Nat} (h : BlockOf r p v)
    (hw : ∀ o, o + 8 ≤ 1024 → w (at_ + o) = v o) : RoleRecord r p w at_ := by
  obtain ⟨regs, resume, vl, rstate, trapw, faddr, npage, held, pages⟩ := h
  obtain ⟨b0, b1, b2, b3, b5⟩ := rstateWord_bits r (keptOf r p)
  have e200 : w (at_ + 0x200) = (keptOf r p).resume := (hw _ (by omega)).trans resume
  have e210 : w (at_ + 0x210) = rstateWord r (keptOf r p) := (hw _ (by omega)).trans rstate
  have e218 : w (at_ + 0x218) = blockTrapw r p := (hw _ (by omega)).trans trapw
  refine ⟨fun i hi => (hw _ (by omega)).trans (regs i hi), (hw _ (by omega)).trans vl, by rw [e210, b0], by rw [e210, b1], ?_, ?_⟩
  · rintro rfl
    obtain ⟨pc, wait⟩ := keptOf_none r
    refine ⟨e200.trans pc, by rw [e218]; exact small_bit _, fun hr => ?_⟩
    obtain ⟨barrier, free⟩ := wait hr
    refine ⟨fun i ph d fp hs => ?_, fun hp hf => ?_⟩
    · obtain ⟨cont, peer, elem⟩ := barrier i ph d fp hs
      rw [e210, e218, b2, b5, blockTrapw, elem]
      exact ⟨cont, peer, rfl⟩
    · obtain ⟨cont, elem⟩ := free hp hf
      rw [e210, e218, b2, blockTrapw, elem]
      exact ⟨cont, rfl⟩
  · rintro p rfl
    obtain ⟨pc, elem⟩ := keptOf_some r p
    refine ⟨e200.trans pc, (hw _ (by omega)).trans (faddr p rfl), (hw _ (by omega)).trans (npage p rfl), fun i hi => ?_, fun hr => ?_, ?_⟩
    · obtain ⟨page, cause⟩ := pages p rfl i hi
      rw [Nat.add_assoc, Nat.add_assoc]
      exact ⟨(hw _ (by omega)).trans page, (hw _ (by omega)).trans cause⟩
    · obtain ⟨cont, reissue, events⟩ := keptOf_reissue r hr
      rw [e210, b2, b3, (hw 0x2B0 (by omega)).trans held, events]
      exact ⟨cont, reissue, BitVec.ofNat_toNat 64 p.held⟩
    · rw [e218, blockTrapw, elem]
      rfl

/-! The context area (R351). -/

/-- What stands in the header after VSTAT. -/
def headerTail (t : Triad) : List Byte :=
  ((nrange 0 6).map fun c => wordBytes (t.eix.getD c 0)).flatten ++ (wordBytes t.seed ++ (wordBytes t.sn ++ (wordBytes t.ptbase ++
    (natBytes 8 t.tag ++ (natBytes 8 t.ptkey ++ List.replicate 152 0)))))

theorem areaHeader_eq (t : Triad) (c : Nat) (h : Role) (wd : Bool) :
    areaHeader t c h wd = natBytes 8 (c % 4096 + h.num * 2 ^ 12 + if wd then 2 ^ 14 else 0) ++ (wordBytes t.vstat ++ headerTail t) := by
  unfold areaHeader headerTail
  simp only [List.append_assoc]

theorem length_captures (t : Triad) : ((nrange 0 6).map fun c => wordBytes (t.eix.getD c 0)).flatten.length = 48 :=
  length_flatten_map (fun _ => length_wordBytes _) 6

theorem length_areaHeader (t : Triad) (c : Nat) (h : Role) (wd : Bool) : (areaHeader t c h wd).length = 256 := by
  rw [areaHeader_eq]
  unfold headerTail
  simp only [List.length_append, length_wordBytes, length_natBytes, length_captures, List.length_replicate]

/-- The words of the context area of a triad. -/
structure AreaOf (t : Triad) (c : Nat) (h : Role) (wd : Bool) (w : Nat → Word) : Prop where
  header : w 0 = BitVec.ofNat 64 (c % 4096 + h.num * 2 ^ 12 + if wd then 2 ^ 14 else 0)
  vstat : w 0x8 = t.vstat
  eix : ∀ i, i < 6 → w (0x10 + 8 * i) = t.eix.getD i 0
  seed : w 0x40 = t.seed
  sn : w 0x48 = t.sn
  ptbase : w 0x50 = t.ptbase
  tag : w 0x58 = BitVec.ofNat 64 t.tag
  ptkey : w 0x60 = BitVec.ofNat 64 t.ptkey
  roles : ∀ q, RoleRecord (t.role q) (t.role q).trap w (0x100 + 0x400 * q.num)

theorem areaOf_areaBytes (t : Triad) (c : Nat) (h : Role) (wd : Bool) :
    AreaOf t c h wd (wordIn (areaBytes t c h wd)) ∧ (areaBytes t c h wd).length = 4096 := by
  have blocks : ∀ b ∈ roles.map fun r => roleBlock (t.role r) (t.role r).trap, b.length = 1024 := by
    intro b hb
    obtain ⟨r, -, rfl⟩ := List.mem_map.mp hb
    exact length_roleBlock _ _
  have all : (roles.map fun r => roleBlock (t.role r) (t.role r).trap).flatten.length = 3072 := by
    simp only [roles, List.map_cons, List.map_nil, List.flatten_cons, List.flatten_nil, List.length_append, List.length_nil,
      length_roleBlock]
  have front {o : Nat} (ho : o + 8 ≤ 256) : wordIn (areaBytes t c h wd) o = wordIn (areaHeader t c h wd) o := by
    unfold areaBytes
    rw [List.append_assoc, wordIn_append_left _ (by rw [length_areaHeader]; exact ho)]
  have tail (o : Nat) (ho : o + 8 ≤ 240) : wordIn (areaBytes t c h wd) (8 + (8 + o)) = wordIn (headerTail t) o := by
    rw [front (by omega), areaHeader_eq, wordIn_append_right _ (by simp), length_natBytes, Nat.add_sub_cancel_left,
      wordIn_append_right _ (by simp), length_wordBytes, Nat.add_sub_cancel_left]
  have past {a : List Byte} {n : Nat} (ha : a.length = n) (l : List Byte) (o : Nat) : wordIn (a ++ l) (n + o) = wordIn l o := by
    rw [wordIn_append_right _ (by omega), ha, Nat.add_sub_cancel_left]
  have here (w : Word) (l : List Byte) : wordIn (wordBytes w ++ l) 0 = w := by
    rw [wordIn_append_left _ (by simp), wordIn_wordBytes]
  have here' (n : Nat) (l : List Byte) : wordIn (natBytes 8 n ++ l) 0 = BitVec.ofNat 64 n := by
    rw [wordIn_append_left _ (by simp), wordIn_natBytes]
  have late (o : Nat) (ho : o + 8 ≤ 192) := (tail (48 + o) (by omega)).trans (past (length_captures t) _ o)
  have p1 := length_wordBytes
  have p2 := length_natBytes 8
  refine ⟨⟨?_, ?_, ?_, ?_, ?_, ?_, ?_, ?_, ?_⟩, ?_⟩
  · rw [front (by omega), areaHeader_eq]
    exact here' _ _
  · rw [front (by omega), areaHeader_eq]
    exact (past (p2 _) _ 0).trans (here _ _)
  · intro i hi
    rw [show 0x10 + 8 * i = 8 + (8 + (8 * i + 0)) by omega, tail _ (by omega)]
    unfold headerTail
    rw [wordIn_append_left _ (by rw [length_captures]; omega), wordIn_map (fun _ => length_wordBytes _) hi le_rfl, wordIn_wordBytes]
  · exact (late 0 (by omega)).trans (here _ _)
  · exact (late (8 + 0) (by omega)).trans ((past (p1 _) _ 0).trans (here _ _))
  · exact (late (8 + (8 + 0)) (by omega)).trans ((past (p1 _) _ _).trans ((past (p1 _) _ 0).trans (here _ _)))
  · exact (late (8 + (8 + (8 + 0))) (by omega)).trans ((past (p1 _) _ _).trans ((past (p1 _) _ _).trans ((past (p1 _) _ 0).trans (here' _ _))))
  · exact (late (8 + (8 + (8 + (8 + 0)))) (by omega)).trans ((past (p1 _) _ _).trans ((past (p1 _) _ _).trans ((past (p1 _) _ _).trans
      ((past (p2 _) _ 0).trans (here' _ _)))))
  · intro q
    refine roleRecord_of_block (blockOf_roleBlock _ _) fun o ho => ?_
    have index : q.num < 3 ∧ (roles.map fun r => roleBlock (t.role r) (t.role r).trap)[q.num]? =
        some (roleBlock (t.role q) (t.role q).trap) := by
      cases q <;> exact ⟨by decide, rfl⟩
    unfold areaBytes
    rw [wordIn_append_left _ (by rw [List.length_append, length_areaHeader, all]; omega), Nat.add_assoc, past (length_areaHeader ..)]
    exact wordIn_flatten blocks index.2 ho
  · unfold areaBytes
    rw [List.length_append, List.length_append, length_areaHeader, all, List.length_replicate]

end Sys2Proof.Machine
end

section
namespace Sys2Proof.Machine

/-! A triad enters its handler (R348, R351). -/

/-- A triad whose first trap the role h handles, and that nothing keeps from its handler. -/
structure Trapped (s : State) (c : Nat) (h : Role) : Prop where
  started : s.Has c
  number : c < 4096
  first : (s.triad c).trapper = some h
  bounded : ∀ q, inFlight ((s.triad c).role q) = false
  plain : ∀ f, (s.triad c).computer.stall ≠ some (.vfetch f)
  handler : (s.core (s.triad c).core).trapvec.getLsbD 63 = true
  area : (s.triad c).traprec.getLsbD 63 = true
  near : areaOf (s.triad c).traprec < 2 ^ 39
  unsealed : inSealed s (areaOf (s.triad c).traprec) 4096 = false
  alone : shadowPort s = none

theorem tfind_of_has {s : State} {c : Nat} (h : s.Has c) : tfind c s.triads = some (s.triad c) := by
  obtain ⟨t, ht⟩ := Option.isSome_iff_exists.mp h
  rw [ht, State.triad, tget, ht]
  rfl

theorem holdVpEvents_plain {s : State} {c : Nat} (h : ∀ f, (s.triad c).computer.stall ≠ some (.vfetch f)) : holdVpEvents s c = s := by
  unfold holdVpEvents
  simp only []
  split
  · next f _ hs _ => exact absurd hs (h f)
  · rfl

/-- The mesh entries that a triad's stalled commands took become free (R295, R348). -/
theorem tfind_freeStalled (s : State) (c e : Nat) : ((s.triad c).tookMesh e → tfind e (freeStalled s c).meshes = none) ∧
    (¬ (s.triad c).tookMesh e → tfind e (freeStalled s c).meshes = tfind e s.meshes) := by
  have after (es : List Nat) (m : Tbl MeshEnt) : tfind e (es.foldl (fun m e => tdel e m) m) = if e ∈ es then none else tfind e m := by
    induction es generalizing m with
    | nil => rfl
    | cons k es ih => rw [List.foldl_cons, ih, tfind_tdel]; by_cases h1 : e ∈ es <;> by_cases h2 : e = k <;> simp [h1, h2]
  let took (r : Role) : List Nat := match ((s.triad c).role r).stall with
    | some (.topo _ _ _ _ build) => build
    | _ => []
  have meshes : (freeStalled s c).meshes = (roles.flatMap took).foldl (fun m e => tdel e m) s.meshes := by
    unfold freeStalled
    simp only []
    split
    · next h => rw [show roles.flatMap took = [] from List.isEmpty_iff.mp h]; rfl
    · rfl
  have mem : e ∈ roles.flatMap took ↔ (s.triad c).tookMesh e := by
    rw [List.mem_flatMap]
    constructor
    · rintro ⟨r, -, hr⟩
      simp only [took] at hr
      split at hr
      · next f op blk m b hs => exact ⟨r, f, op, blk, m, b, hs, hr⟩
      · cases hr
    · rintro ⟨r, f, op, blk, m, b, hs, hb⟩
      refine ⟨r, by cases r <;> decide, ?_⟩
      simp only [took, hs]
      exact hb
  rw [meshes, after]
  exact ⟨fun h => if_pos (mem.mpr h), fun h => if_neg (mt mem.mp h)⟩

theorem quiet_freeStalled (s : State) (c : Nat) : Quiet s (freeStalled s c) := by
  have meshes : ∀ p ∈ (freeStalled s c).meshes, p ∈ s.meshes := fun p => mem_meshes_freeStalled
  rw [freeStalled_device] at meshes ⊢
  exact ⟨rfl, rfl, rfl, rfl, meshes, id, fun _ => id⟩

/-- The pages that an area lies in are HBM4E's. -/
theorem areaOf_near {r : Word} (h : areaOf r < 2 ^ 39) : areaOf r + 4096 ≤ 2 ^ 39 := by
  unfold areaOf at *
  omega

/-- The device's store of bytes to HBM4E that no mesh object and no replica holds. -/
theorem storeOwn_stores {s : State} {pa : Nat} {bs : List Byte} (hn : bs ≠ []) (hb : pa + bs.length ≤ 2 ^ 39)
    (hs : inSealed s pa bs.length = false) (alone : shadowPort s = none) :
    storeOwn s pa bs 0 = { s with mem := (storeOwn s pa bs 0).mem } ∧ Stores s (storeOwn s pa bs 0) pa bs 0 := by
  have hl : 0 < bs.length := List.length_pos_iff.mpr hn
  have plain : storeOwn s pa bs 0 = physWrite s pa bs 0 := by
    unfold storeOwn
    rw [hs]
    rfl
  rw [plain]
  exact ⟨physWrite_alone alone _ _ _, stores_physWrite s pa bs 0 (fun p hp => by rw [portOf_hbm (by omega)] at hp; cases hp) hn
    fun x hx => encrypted_linesOf_hbm s hb hx⟩

/-- The triad in its handler. -/
def Triad.entered (t : Triad) (h : Role) (pc : Word) : Triad :=
  let t := { t with loader := t.loader.stopped, computer := t.computer.stopped, storer := t.storer.stopped }
  { t.setRole h ((t.role h).handle pc) with trapper := .none, handling := some h, wdog := false }

theorem entered_handler (t : Triad) (h : Role) (pc : Word) : (t.entered h pc).role h =
    { (t.role h).halted (t.role h).trap with pc := pc, priv := true, inHandler := true, ended := false } := by
  cases h <;> rfl

theorem entered_stopped (t : Triad) {h q : Role} (hq : q ≠ h) (pc : Word) : (t.entered h pc).role q = (t.role q).halted (t.role q).trap := by
  have apart (u : Triad) (v : RoleState) : ({ u.setRole h v with trapper := .none, handling := some h, wdog := false }).role q = u.role q := by
    rw [← Triad.role_setRole_ne u hq v]
    cases q <;> rfl
  refine (apart _ _).trans ?_
  cases q <;> rfl

theorem entered_rest (t : Triad) (h : Role) (pc : Word) : t.entered h pc = { t with
    loader := (t.entered h pc).loader, computer := (t.entered h pc).computer, storer := (t.entered h pc).storer, trapper := .none,
    handling := some h, wdog := false } := by
  cases h <;> rfl

/-- A triad's reads of other chips are dropped. -/
theorem dropReads_roles (s : State) (c : Nat) : roles.foldl (fun s r => dropReads s ⟨c, r⟩) s =
    { s with fab := { s.fab with reads := (roles.foldl (fun s r => dropReads s ⟨c, r⟩) s).fab.reads } } ∧
    ∀ q, q ∈ (roles.foldl (fun s r => dropReads s ⟨c, r⟩) s).fab.reads ↔ q ∈ s.fab.reads ∧ q.tid.ctxn ≠ c := by
  refine ⟨rfl, fun q => ?_⟩
  simp only [roles, List.foldl_cons, List.foldl_nil, dropReads, List.mem_filter, bne_iff_ne, ne_eq, and_assoc]
  refine and_congr_right fun _ => ?_
  generalize q.tid = t
  obtain ⟨k, r⟩ := t
  simp only [Tid.mk.injEq]
  cases r <;> simp

theorem wdogSettle_queues (s : State) (q : Nat) : wdogSettle s q = { s with queues := (wdogSettle s q).queues } ∧
    ((s.queue q).wdForced = none → (wdogSettle s q).queues = s.queues) ∧ ∀ k, k ≠ q → (wdogSettle s q).queue k = s.queue k := by
  unfold wdogSettle
  split
  · next h =>
    refine ⟨rfl, fun hf => ?_, fun k hk => ?_⟩
    · simp [hf] at h
    · simp [State.modQueue, State.queue, hk]
  · exact ⟨rfl, fun _ => rfl, fun _ _ => rfl⟩

/-- The record of the traps of a triad, and the address of the handler. -/
def trapArea (s : State) (c : Nat) (h : Role) : List Byte :=
  areaBytes (s.triad c) c h ((s.triad c).wdog && (((s.triad c).role h).trap.map (·.cls)).getD 0 != 10)
def trapPc (s : State) (c : Nat) (h : Role) : Word :=
  handlerPc (s.core (s.triad c).core).trapvec ((((s.triad c).role h).trap.map (·.cls)).getD 0)

theorem takeTrap_eq {s : State} {c : Nat} {h : Role} (ok : Trapped s c h) :
    takeTrap s c = wdogSettle (roles.foldl (fun s r => dropReads s ⟨c, r⟩)
      ((storeOwn (freeStalled s c) (areaOf (s.triad c).traprec) (trapArea s c h) 0).modTriad c fun t => t.entered h (trapPc s c h)))
      (s.triad c).queue := by
  have none_ : roles.any (fun r => inFlight ((s.triad c).role r)) = false := by
    simp [roles, ok.bounded]
  have same : (freeStalled s c).triad c = s.triad c := by rw [freeStalled_device]; rfl
  unfold takeTrap
  simp only [tfind_of_has ok.started, ok.first, none_, ok.handler, ok.area, holdVpEvents_plain ok.plain, same, Bool.and_self, if_true,
    if_false, Bool.false_eq_true]
  rfl

/-- The traps that a triad's roles have posted: it enters the handler of the first. -/
theorem entersHandler_takeTrap {s : State} {c : Nat} {h : Role} (ok : Trapped s c h) :
    EntersHandler s (takeTrap s c) c h fun q => ((s.triad c).role q).trap := by
  obtain ⟨area, length⟩ := areaOf_areaBytes (s.triad c) c h ((s.triad c).wdog && (((s.triad c).role h).trap.map (·.cls)).getD 0 != 10)
  change (trapArea s c h).length = 4096 at length
  change AreaOf _ _ _ _ (wordIn (trapArea s c h)) at area
  have freed := freeStalled_device s c
  have quiet := quiet_freeStalled s c
  have stores := storeOwn_stores (s := freeStalled s c) (bs := trapArea s c h) (fun e => by rw [e] at length; cases length)
    (by rw [length]; exact areaOf_near ok.near) (by rw [length]; exact quiet.unsealed ok.unsealed) (by rw [freed]; exact ok.alone)
  have taken := takeTrap_eq ok
  generalize hv : (storeOwn (freeStalled s c) (areaOf (s.triad c).traprec) (trapArea s c h) 0) = v at *
  obtain ⟨vdev, vst⟩ := stores
  have vtri : v.triads = s.triads := by rw [vdev, freed]
  have vhas : v.Has c := by unfold State.Has; rw [vtri]; exact ok.started
  have vtriad : ∀ k, v.triad k = s.triad k := fun k => by rw [State.triad, vtri]; rfl
  have wdev := v.modTriad_device c fun t => t.entered h (trapPc s c h)
  have wsame := v.triad_modTriad c (fun t => t.entered h (trapPc s c h)) vhas
  have wne := fun k (hk : k ≠ c) => v.triad_modTriad_ne hk fun t => t.entered h (trapPc s c h)
  generalize v.modTriad c (fun t => t.entered h (trapPc s c h)) = w at *
  obtain ⟨xdev, xreads⟩ := dropReads_roles w c
  generalize roles.foldl (fun s r => dropReads s ⟨c, r⟩) w = x at *
  obtain ⟨tdev, tcalm, tother⟩ := wdogSettle_queues x (s.triad c).queue
  rw [← taken] at tdev tcalm tother
  generalize takeTrap s c = t at *
  have xq : x.queues = s.queues := by rw [xdev, wdev, vdev, freed]
  have ttr : ∀ k, t.triad k = w.triad k := fun k => by rw [tdev, xdev]; rfl
  have tmesh : t.meshes = (freeStalled s c).meshes := by rw [tdev, xdev, wdev, vdev]
  have tc : t.triad c = (s.triad c).entered h (trapPc s c h) := by rw [ttr, wsame, vtriad]
  have treads : t.fab.reads = x.fab.reads := by rw [tdev]
  have wreads : w.fab.reads = s.fab.reads := by rw [wdev, vdev, freed]
  refine ⟨?_, fun e => ?_, fun q => ?_, fun hf => ?_, fun q hq => ?_, fun k hk => ?_, ?_, fun p hp => ?_, fun q hq => ?_,
    trapArea s c h, length, ?_, ?_⟩
  · rw [tdev, xdev, wdev, vdev, freed]
  · rw [tmesh]
    exact tfind_freeStalled s c e
  · rw [treads, xreads, wreads]
  · rw [tcalm (by rw [State.queue, xq]; exact hf), xq]
  · rw [tother q hq, State.queue, xq]
    rfl
  · rw [ttr, wne k hk, vtriad]
  · rw [tc]
    exact entered_rest _ _ _
  · rw [tc, entered_handler, hp, trapPc, hp]
    rfl
  · rw [tc, entered_stopped _ hq]
  · refine vst.congr (fun a n k => (quiet.physRead a n k).symm) fun a n k => ?_
    rw [tdev, xdev, wdev]
    rfl
  · obtain ⟨header, vstat, eix, seed, sn, ptbase, tag, ptkey, records⟩ := area
    refine ⟨?_, vstat, eix, seed, sn, ptbase, tag, ptkey, fun q => records q⟩
    rw [header, Nat.mod_eq_of_lt ok.number]
    congr 2
    refine ite_congr (propext ?_) (fun _ => rfl) fun _ => rfl
    cases ((s.triad c).role h).trap <;> simp

end Sys2Proof.Machine
end

section
namespace Sys2Proof.Machine

/-! A role posts its trap (R349), and its triad enters the handler or its gang is killed (R348, R350). -/

/-- The triad once a role of it has posted a trap. -/
def Triad.posted (t : Triad) (r : Role) (p : TrapPost) : Triad :=
  { t.setRole r { t.role r with trap := some p, tile := .none } with trapper := t.trapper <|> some r }

theorem role_posted (t : Triad) (r q : Role) (p : TrapPost) :
    (t.posted r p).role q = if q = r then { t.role r with trap := some p, tile := .none } else t.role q := by
  cases r <;> cases q <;> rfl

theorem posted_rest (t : Triad) (r : Role) (p : TrapPost) : t.posted r p = { t with
    loader := (t.posted r p).loader, computer := (t.posted r p).computer, storer := (t.posted r p).storer,
    trapper := t.trapper <|> some r } := by
  cases r <;> rfl

/-- What a trap does not change of a role. -/
structure SameRole (r r' : RoleState) : Prop where
  stall : r'.stall = r.stall
  halted : ∀ p, r'.halted p = r.halted p
  record : ∀ post w at_, RoleRecord r' post w at_ ↔ RoleRecord r post w at_

theorem sameRole_posted (t : Triad) (r q : Role) (p : TrapPost) : SameRole (t.role q) ((t.posted r p).role q) := by
  rw [role_posted]
  split
  · next h =>
    subst h
    exact ⟨rfl, fun _ => rfl, fun _ _ _ => Iff.rfl⟩
  · exact ⟨rfl, fun _ => rfl, fun _ _ _ => Iff.rfl⟩

/-- Entering the handler is told alike from before the trap was posted. -/
theorem EntersHandler.of_posted {s v t : State} {c : Nat} {r h : Role} {p : TrapPost} {posts : Role → Option TrapPost}
    (e : EntersHandler v t c h posts) (hv : v = { s with triads := v.triads }) (hc : v.triad c = (s.triad c).posted r p)
    (ho : ∀ k, k ≠ c → v.triad k = s.triad k) : EntersHandler s t c h posts := by
  have same := sameRole_posted (s.triad c) r (p := p)
  have rest := posted_rest (s.triad c) r p
  have took : ∀ e, (v.triad c).tookMesh e ↔ (s.triad c).tookMesh e := fun e => by
    unfold Triad.tookMesh
    simp only [hc, (same _).stall]
  have core : (v.triad c).core = (s.triad c).core ∧ (v.triad c).queue = (s.triad c).queue ∧ (v.triad c).traprec = (s.triad c).traprec := by
    rw [hc, rest]
    exact ⟨rfl, rfl, rfl⟩
  have dev : v.cores = s.cores ∧ v.queues = s.queues ∧ v.meshes = s.meshes ∧ v.fab = s.fab := by
    rw [hv]
    exact ⟨rfl, rfl, rfl, rfl⟩
  obtain ⟨hcore, hqueue, harea⟩ := core
  obtain ⟨dcore, dqueue, dmesh, dfab⟩ := dev
  have reads : ∀ a n k, physRead s a n k = physRead v a n k := fun a n k => by rw [hv]; rfl
  obtain ⟨device, meshes, ereads, calm, queues, others, triad, handler, stopped, bs, length, stores, words⟩ := e
  refine ⟨?_, fun e => ?_, fun q => ?_, fun hf => ?_, fun q hq => ?_, fun k hk => ?_, ?_, fun p hp => ?_, fun q hq => ?_, bs, length, ?_, ?_⟩
  · rw [hv] at device
    exact device
  · rw [← took, ← dmesh]
    exact meshes e
  · rw [ereads, dfab]
  · rw [← dqueue]
    exact calm (by rw [hqueue, State.queue, dqueue]; exact hf)
  · rw [queues q (by rw [hqueue]; exact hq), State.queue, dqueue]
    rfl
  · rw [others k hk, ho k hk]
  · rw [triad, hc, rest]
  · rw [handler p hp, hcore, hc, (same h).halted, State.core, dcore]
    rfl
  · rw [stopped q hq, hc, (same q).halted]
  · rw [← harea]
    exact stores.congr reads fun _ _ _ => rfl
  · obtain ⟨header, vstat, eix, seed, sn, ptbase, tag, ptkey, records⟩ := words
    refine ⟨?_, ?_, fun i hi => ?_, ?_, ?_, ?_, ?_, ?_, fun q => ?_⟩
    · rw [header, hc, rest]
    · rw [vstat, hc, rest]
    · rw [eix i hi, hc, rest]
    · rw [seed, hc, rest]
    · rw [sn, hc, rest]
    · rw [ptbase, hc, rest]
    · rw [tag, hc, rest]
    · rw [ptkey, hc, rest]
    · have record : RoleRecord ((v.triad c).role q) (posts q) (wordIn bs) (0x100 + 0x400 * q.num) := records q
      rw [hc, (same q).record] at record
      exact record

/-! Raising. -/

theorem postTrap_eq {s : State} {t : Tid} (h : ((s.triad t.ctxn).role t.role).inHandler = false) (p : TrapPost) :
    postTrap s t p = s.modTriad t.ctxn fun n => n.posted t.role p := by
  unfold postTrap
  simp only [h, Bool.false_eq_true, if_false]
  rfl

theorem inFlight_posted {t : Triad} (h : ∀ q, inFlight (t.role q) = false) (r q : Role) (p : TrapPost) :
    inFlight ((t.posted r p).role q) = false := by
  rw [role_posted]
  split
  · rfl
  · exact h q

/-- A trap of a role of a triad that nothing keeps from its handler. -/
theorem entersHandler_post {s : State} {t : Tid} (ok : Stoppable s t.ctxn) (free : TrapFree s t.ctxn) (p : TrapPost) :
    EntersHandler s (takeTrap (postTrap s t p) t.ctxn) t.ctxn t.role fun q => if q = t.role then some p else none := by
  obtain ⟨started, number, bounded, plain, handler, area, near, unsealed, alone⟩ := ok
  obtain ⟨first, outside, untrapped⟩ := free
  rw [postTrap_eq (outside _)]
  have dev := s.modTriad_device t.ctxn fun n => n.posted t.role p
  have same := s.triad_modTriad t.ctxn (fun n => n.posted t.role p) started
  have other := fun k (hk : k ≠ t.ctxn) => s.triad_modTriad_ne hk fun n => n.posted t.role p
  have has : (s.modTriad t.ctxn fun n => n.posted t.role p).Has t.ctxn := (s.has_modTriad _ _ _).mpr started
  generalize s.modTriad t.ctxn (fun n => n.posted t.role p) = v at *
  have rest := posted_rest (s.triad t.ctxn) t.role p
  have trapped : Trapped v t.ctxn t.role := by
    refine ⟨has, number, ?_, fun q => ?_, fun f => ?_, ?_, ?_, ?_, ?_, ?_⟩
    · rw [same, rest]
      simp [first]
    · rw [same]
      exact inFlight_posted bounded _ _ _
    · rw [same]
      exact (sameRole_posted (s.triad t.ctxn) t.role .computer p).stall ▸ plain f
    · rw [same, rest, dev]
      exact handler
    · rw [same, rest]
      exact area
    · rw [same, rest]
      exact near
    · rw [same, rest, dev]
      exact unsealed
    · rw [dev]
      exact alone
  have posts : (fun q => ((v.triad t.ctxn).role q).trap) = fun q => if q = t.role then some p else none := by
    funext q
    rw [same, role_posted]
    split
    · rfl
    · exact untrapped q
  rw [← posts]
  exact (entersHandler_takeTrap trapped).of_posted dev same other

theorem entersHandler_raise {s : State} (ok : Stoppable s s.cur.ctxn) (free : TrapFree s s.cur.ctxn) (p : TrapPost) :
    EntersHandler s (s.raise p) s.cur.ctxn s.cur.role fun q => if q = s.cur.role then some p else none :=
  entersHandler_post ok free p

end Sys2Proof.Machine
end

section
namespace Sys2Proof.Machine

/-! What the killing of a gang does to the triads (R334). -/

/-- The gang of a state is no more, and none of its triads is. -/
def GangGone (s : State) (g : Nat) (t : State) : Prop :=
  tfind g t.gangs = none ∧ ∀ v, tfind g s.gangs = some v → ∀ k ∈ v.ctxns, (s.triad k).gang = g → ¬ t.Has k

theorem OnlyStores.triads {s t : State} (h : OnlyStores s t) : t.triads = s.triads := by
  unfold OnlyStores at h
  rw [h]

theorem abortTopo_triads (s : State) (c : Nat) : (abortTopo s c).triads = s.triads := by
  have head : ∀ (u : State) k, (abortHead u k).triads = u.triads := fun u k => by
    unfold abortHead
    split
    · exact (onlyStores_deviceStore _ _ _ _ _ _).triads.trans (onlyStores_deviceStore _ _ _ _ _ _).triads
    · rfl
  have word : ∀ (u : State) k, (abortWord u k).triads = u.triads := fun u k => (onlyStores_deviceStore _ _ _ _ _ _).triads
  have fold {f : State → TopoCmd → State} (hf : ∀ u k, (f u k).triads = u.triads) (l : List TopoCmd) (u : State) :
      (l.foldl f u).triads = u.triads :=
    List.foldlRecOn (motive := fun w : State => w.triads = u.triads) l f rfl fun _ h k _ => (hf _ k).trans h
  unfold abortTopo
  simp only []
  rw [fold word]
  exact fold head _ _

theorem dropTriad_triads (s : State) (c : Nat) : (dropTriad s c).triads = tdel c s.triads := by
  have h := freeStalled_device (releaseTiles s c) c
  unfold dropTriad
  generalize freeStalled (releaseTiles s c) c = u at *
  rw [h]
  rfl

/-- The triads that are dropped are no more, and the others are as they were. -/
theorem tfind_dropTriads (l : List Nat) (s : State) (k : Nat) :
    tfind k (l.foldl (fun s c => dropTriad (abortTopo s c) c) s).triads = if k ∈ l then none else tfind k s.triads := by
  induction l generalizing s with
  | nil => rfl
  | cons c l ih =>
    rw [List.foldl_cons, ih, dropTriad_triads, abortTopo_triads, tfind_tdel]
    by_cases h1 : k ∈ l <;> by_cases h2 : k = c <;> simp [h1, h2]

theorem finishInvocation_triads (s : State) (e : Nat) : (finishInvocation s e).triads = s.triads := by
  unfold finishInvocation
  split
  · rfl
  · next v _ =>
    simp only []
    split
    · have h (w : Word) : (writeCw s v.queue v.rcd w).triads = s.triads := by rw [writeCw_device]
      split <;> exact h _
    · rfl

theorem releaseCells_triads (l : List Nat) (g : Nat) (s : State) : (l.foldl (fun s c => releaseCells s c g) s).triads = s.triads :=
  List.foldlRecOn (motive := fun w : State => w.triads = s.triads) l _ rfl fun _ h _ _ => h

theorem wdogSettle_triads (s : State) (q : Nat) : (wdogSettle s q).triads = s.triads := by rw [(wdogSettle_queues s q).1]

/-- The killing of a gang takes its triads and leaves the others. -/
theorem tfind_killGang (s : State) (g k : Nat) : tfind k (killGang s g).triads =
    if (∃ v, tfind g s.gangs = some v ∧ k ∈ v.ctxns) ∧ (s.triad k).gang = g then none else tfind k s.triads := by
  cases hv : tfind g s.gangs with
  | none => rw [killGang_absent hv, if_neg]; simp
  | some v =>
    have triads : (killGang s g).triads = ((v.ctxns.filter fun c => (tfind c s.triads).any fun t => t.gang == g).foldl
        (fun s c => dropTriad (abortTopo s c) c) s).triads := by
      unfold killGang
      simp only [hv]
      split
      · rw [wdogSettle_triads, finishInvocation_triads]
        exact releaseCells_triads _ _ _
      · rw [finishInvocation_triads]
        exact releaseCells_triads _ _ _
    rw [triads, tfind_dropTriads]
    by_cases hk : s.Has k
    · have here := tfind_of_has hk
      refine ite_congr (propext ?_) (fun _ => rfl) fun _ => rfl
      simp [List.mem_filter, here]
    · have absent : tfind k s.triads = none := by simpa [State.Has] using hk
      rw [absent]
      simp

theorem gangGone_killGang (s : State) (g : Nat) : GangGone s g (killGang s g) := by
  refine ⟨?_, fun v hv k hk hg has => ?_⟩
  · rw [(killGang_books s g).1]
    cases h : tfind g s.gangs with
    | none => simpa using h
    | some v => simp
  · unfold State.Has at has
    rw [tfind_killGang, if_pos ⟨⟨v, hv, hk⟩, hg⟩] at has
    cases has

/-! A trap that kills (R348, R350). -/

/-- The device as an instruction leaves it for its trap: nothing that a trap looks at is changed. -/
structure LeftFor (s u : State) : Prop where
  started : u.Started
  cur : u.cur = s.cur
  gangs : u.gangs = s.gangs
  cores : u.cores = s.cores
  gang : ∀ k, (u.triad k).gang = (s.triad k).gang
  triad : u.tr.core = s.tr.core ∧ u.tr.traprec = s.tr.traprec ∧ u.tr.trapper = s.tr.trapper
  roles : ∀ q, (u.tr.role q).inHandler = (s.tr.role q).inHandler ∧ (inFlight (s.tr.role q) = false → inFlight (u.tr.role q) = false)

theorem LeftFor.refl {s : State} (h : s.Started) : LeftFor s s := ⟨h, rfl, rfl, rfl, fun _ => rfl, ⟨rfl, rfl, rfl⟩, fun _ => ⟨rfl, id⟩⟩

theorem leftFor_advance {s : State} (h : s.Started) : LeftFor s s.advance := by
  have tr : s.advance.tr = s.tr.setRole s.cur.role s.th.advance := s.tr_modTh _ h
  have other := fun k (hk : k ≠ s.cur.ctxn) => (onlyTriad_modTh s RoleState.advance).others k hk
  have rest : s.advance = { s with triads := s.advance.triads } := (onlyTriad_modTh s RoleState.advance).device
  have cur : s.advance.cur = s.cur := by rw [rest]
  refine ⟨started_modTh _ h, cur, by rw [rest], by rw [rest], fun k => ?_, ?_, fun q => ?_⟩
  · by_cases hk : k = s.cur.ctxn
    · subst hk
      have : s.advance.triad s.cur.ctxn = s.advance.tr := by rw [State.tr, cur]
      rw [this, tr]
      cases s.cur.role <;> rfl
    · exact congrArg Triad.gang (other k hk)
  · rw [tr]
    cases s.cur.role <;> exact ⟨rfl, rfl, rfl⟩
  · rw [tr]
    by_cases hq : q = s.cur.role
    · subst hq
      rw [Triad.role_setRole_same]
      refine ⟨rfl, fun _ => ?_⟩
      unfold inFlight
      simp [RoleState.advance, RoleState.settle]
    · rw [Triad.role_setRole_ne _ hq]
      exact ⟨rfl, id⟩

theorem GangGone.of_left {s u t : State} (h : GangGone u u.tr.gang t) (l : LeftFor s u) : GangGone s s.tr.gang t := by
  have gang : u.tr.gang = s.tr.gang := by rw [State.tr, l.cur, l.gang]; rfl
  rw [gang] at h
  refine ⟨h.1, fun v hv k hk hg => h.2 v (by rw [l.gangs]; exact hv) k hk (by rw [l.gang]; exact hg)⟩

/-- Where no handler or no area is set, a trap kills the gang. -/
theorem gangGone_unhandled {s : State} (started : s.Started) (p : TrapPost) (first : s.tr.trapper = none)
    (outside : s.th.inHandler = false) (bounded : ∀ q, inFlight (s.tr.role q) = false)
    (unset : (s.core s.tr.core).trapvec.getLsbD 63 = false ∨ s.tr.traprec.getLsbD 63 = false) : GangGone s s.tr.gang (s.raise p) := by
  have dev := s.modTriad_device s.cur.ctxn fun n => n.posted s.cur.role p
  have same := s.triad_modTriad s.cur.ctxn (fun n => n.posted s.cur.role p) started
  have other := fun k (hk : k ≠ s.cur.ctxn) => s.triad_modTriad_ne hk fun n => n.posted s.cur.role p
  have has : (s.modTriad s.cur.ctxn fun n => n.posted s.cur.role p).Has s.cur.ctxn := (s.has_modTriad _ _ _).mpr started
  have raised : s.raise p = takeTrap (s.modTriad s.cur.ctxn fun n => n.posted s.cur.role p) s.cur.ctxn :=
    congrArg (takeTrap · s.cur.ctxn) (postTrap_eq outside p)
  rw [raised]
  generalize s.modTriad s.cur.ctxn (fun n => n.posted s.cur.role p) = v at *
  have rest (n : Triad) (r : Role) : (n.posted r p).gang = n.gang ∧ (n.posted r p).core = n.core ∧ (n.posted r p).traprec = n.traprec := by
    cases r <;> exact ⟨rfl, rfl, rfl⟩
  have gang : ∀ k, (v.triad k).gang = (s.triad k).gang := fun k => by
    by_cases hk : k = s.cur.ctxn
    · subst hk
      rw [same]
      exact (rest _ _).1
    · rw [other k hk]
  have quiet : roles.any (fun r => inFlight ((v.triad s.cur.ctxn).role r)) = false := by
    rw [same]
    simp only [List.any_eq_false, Bool.not_eq_true]
    exact fun q _ => inFlight_posted bounded _ _ _
  have trapper : (v.triad s.cur.ctxn).trapper = some s.cur.role := by
    rw [same]
    rw [posted_rest]
    show (s.tr.trapper <|> some s.cur.role) = some s.cur.role
    rw [first]
    rfl
  have no : ((v.core (v.triad s.cur.ctxn).core).trapvec.getLsbD 63 && (v.triad s.cur.ctxn).traprec.getLsbD 63) = false := by
    have hc : (v.triad s.cur.ctxn).core = s.tr.core := by rw [same]; exact (rest _ _).2.1
    have hr : (v.triad s.cur.ctxn).traprec = s.tr.traprec := by rw [same]; exact (rest _ _).2.2
    have hk : v.core s.tr.core = s.core s.tr.core := by rw [dev]; rfl
    rw [hc, hr, hk]
    rcases unset with h | h <;> rw [h] <;> simp
  have killed : takeTrap v s.cur.ctxn = killGang v s.tr.gang := by
    unfold takeTrap
    simp only [tfind_of_has has, trapper, quiet, no, if_false, Bool.false_eq_true]
    rw [gang]
    rfl
  rw [killed]
  obtain ⟨g1, g2⟩ := gangGone_killGang v s.tr.gang
  refine ⟨g1, fun w hw k hk hg => g2 w (by rw [dev]; exact hw) k hk (by rw [gang]; exact hg)⟩

/-- A trap in a handler kills the gang. -/
theorem gangGone_nested {s : State} (p : TrapPost) (first : s.tr.trapper = none) (inside : s.th.inHandler = true) :
    GangGone s s.tr.gang (s.raise p) := by
  have posted : postTrap s s.cur p = killGang s s.tr.gang := by
    unfold postTrap
    simp only []
    exact if_pos inside
  have done : takeTrap (killGang s s.tr.gang) s.cur.ctxn = killGang s s.tr.gang := by
    unfold takeTrap
    split
    · rfl
    · next n hn =>
      rw [tfind_killGang] at hn
      split at hn
      · cases hn
      · have : n.trapper = none := by
          rw [← first, State.tr, State.triad, tget, hn]
          rfl
        rw [this]
  rw [State.raise, posted, done]
  exact gangGone_killGang s _

/-! Traps of instructions. -/

/-- The post of the current role, and of no other. -/
def State.only (s : State) (p : TrapPost) : Role → Option TrapPost := fun q => if q = s.cur.role then some p else none

/-- An instruction of s traps from the state u: it enters the handler, or kills the gang. -/
def Traps (s : State) (i : Instr) (u : State) (p : TrapPost) : Prop :=
  (Stoppable u s.cur.ctxn → TrapFree u s.cur.ctxn → Completes i s fun t => EntersHandler u t s.cur.ctxn s.cur.role (s.only p)) ∧
  (TrapFree s s.cur.ctxn → (∀ q, inFlight (s.tr.role q) = false) →
    (s.core s.tr.core).trapvec.getLsbD 63 = false ∨ s.tr.traprec.getLsbD 63 = false → Completes i s (GangGone s s.tr.gang)) ∧
  (s.th.inHandler = true → s.tr.trapper = none → Completes i s (GangGone s s.tr.gang))

theorem entersHandler_raised {s u : State} {i : Instr} {p : TrapPost} (cur : u.cur = s.cur) (he : exec i s = .next (u.raise p))
    (ok : Stoppable u s.cur.ctxn) (free : TrapFree u s.cur.ctxn) :
    Completes i s fun t => EntersHandler u t s.cur.ctxn s.cur.role (s.only p) := by
  refine ⟨_, he, ?_⟩
  have h := entersHandler_raise (s := u) (p := p) (by rw [cur]; exact ok) (by rw [cur]; exact free)
  rw [cur] at h
  exact h

theorem traps_of_raise {s u : State} {i : Instr} {p : TrapPost} (l : LeftFor s u) (he : exec i s = .next (u.raise p)) : Traps s i u p := by
  have th : u.th.inHandler = s.th.inHandler := by
    have := (l.roles s.cur.role).1
    rw [State.tr, l.cur] at this
    rw [State.th, State.thread, l.cur]
    exact this
  refine ⟨entersHandler_raised l.cur he, fun free bounded unset => ⟨_, he, ?_⟩, fun inside first => ⟨_, he, ?_⟩⟩
  · refine (gangGone_unhandled l.started p (l.triad.2.2.trans free.first) (th.trans (free.outside _)) (fun q => (l.roles q).2 (bounded q)) ?_).of_left l
    rw [l.triad.1, l.triad.2.1, State.core, l.cores]
    exact unset
  · exact (gangGone_nested p (l.triad.2.2.trans first) (th.trans inside)).of_left l

/-- An instruction that ends with a trap at its own word. -/
theorem traps_at {s : State} {i : Instr} {cls sub elem : Nat} {a : Word} (hs : s.Started) (he : exec i s = .next (s.trap cls sub elem a)) :
    Traps s i s { cls := cls, sub := sub, elem := elem, faddr := a, resume := s.th.pc } :=
  traps_of_raise (LeftFor.refl hs) he

end Sys2Proof.Machine
end

section
namespace Sys2Proof.Machine

/-! The instructions that trap (R62, R118, R125, R344, R350, R364). -/

theorem not_blockAligned {a : Word} (h : a.toNat % 128 ≠ 0) : blockAligned a = false := beq_eq_false_iff_ne.mpr h

section
variable {s : State} (hs : s.Started)
include hs

/-- TRAP completes, then traps CALL. -/
theorem traps_trap (f : FmtY) : Traps s (.trap f) s.advance { cls := 13, elem := f.imm8.toNat, resume := s.th.successor } := by
  have h : s.advance.th.pc = s.th.successor := by rw [s.advance_th hs]; rfl
  refine traps_of_raise (leftFor_advance hs) ?_
  rw [← h]
  rfl

/-- A privileged instruction in user mode. -/
theorem traps_priv {i : Instr} {k : State} (he : exec i s = .next (if !s.th.priv then s.trapPriv else k)) (hp : s.th.priv = false) :
    Traps s i s { cls := 2, faddr := 0, resume := s.th.pc } := by
  rw [hp] at he
  exact traps_at hs he

/-- A state register of the system in user mode. -/
theorem traps_sy {i : Instr} {n : Nat} {k : State} (he : exec i s = .next (if isSy n && !s.th.priv then s.trapPriv else k))
    (hp : s.th.priv = false) (hn : isSy n = true) : Traps s i s { cls := 2, faddr := 0, resume := s.th.pc } := by
  rw [hp, hn] at he
  exact traps_at hs he

/-- TRET and IDLE outside a handler. -/
theorem traps_outside {i : Instr} {k : State}
    (he : exec i s = .next (if !s.th.priv then s.trapPriv else if !s.th.inHandler then s.trapDecode else k)) (hp : s.th.priv = true)
    (hh : s.th.inHandler = false) : Traps s i s { cls := 1, faddr := 0, resume := s.th.pc } := by
  rw [hp, hh] at he
  exact traps_at hs he

/-- A transfer to an address where no block begins. -/
theorem traps_transfer {i : Instr} {a : Word} {k : State → State} (he : exec i s = .next (s.transfer a k)) (h : a.toNat % 128 ≠ 0) :
    Traps s i s { cls := 3, faddr := a, resume := s.th.pc } := by
  refine traps_at hs (he.trans ?_)
  rw [State.transfer, not_blockAligned h]
  rfl

theorem traps_bc {f : FmtJ} (h : (s.target f).toNat % 128 ≠ 0) : Traps s (.bc f) s { cls := 3, faddr := s.target f, resume := s.th.pc } := by
  refine traps_at hs ?_
  show execBc f s = _
  rw [execBc, not_blockAligned h]
  rfl

theorem traps_loop {f : FmtJ} (hx : f.xa ≠ 0#6) (h : (s.target f).toNat % 128 ≠ 0) :
    Traps s (.loop f) s { cls := 3, faddr := s.target f, resume := s.th.pc } := by
  refine traps_at hs ?_
  show execLoop f s = _
  rw [execLoop, if_neg hx, not_blockAligned h]
  rfl

theorem traps_loop_zero {f : FmtJ} (hx : f.xa = 0#6) : Traps s (.loop f) s { cls := 1, faddr := 0, resume := s.th.pc } := by
  refine traps_at hs ?_
  show execLoop f s = _
  rw [execLoop, if_pos hx]
  rfl

end

/-! Loads and stores that do not go through. -/

theorem exec_ld_stop {f : FmtM} {s u : State} (hf : f.scope.toNat ≠ 4) (h : loadBytes s (s.eaM f) (2 ^ segWm f) = .stop u) :
    exec (.ld f) s = .next u := by
  have scope : scopeBank f.scope.toNat = false := beq_eq_false_iff_ne.mpr hf
  show execLd f s = _
  simp only [execLd, scope, h, Bool.false_eq_true, if_false]

theorem exec_st_stop {f : FmtM} {s u : State} (hf : f.scope.toNat ≠ 4)
    (h : storeBytes s (s.eaM f) (natBytes (2 ^ segWm f) (s.x f.v).toNat) f.stream.toNat = .stop u) : exec (.st f) s = .next u := by
  have scope : scopeBank f.scope.toNat = false := beq_eq_false_iff_ne.mpr hf
  show execSt f s = _
  simp only [execSt, scope, h, Bool.false_eq_true, if_false]

/-- What a translation leaves alone of the threads. -/
theorem locate_threads {s u : State} {core : Nat} {c : Cred} {a : Word} {acc : Acc} {pull : Bool} {l : Loc}
    (h : locate s core c a acc pull = (l, u)) : u.cur = s.cur ∧ u.th = s.th ∧ u.triads = s.triads := by
  have o := onlyStores_locate s core c a acc pull
  rw [h] at o
  have cur : u.cur = s.cur := by
    have := congrArg State.cur o
    exact this
  have triads : u.triads = s.triads := o.triads
  refine ⟨cur, ?_, triads⟩
  rw [State.th, State.thread, State.triad, triads, cur]
  rfl

theorem loadBytes_fault {s u : State} {a : Word} {n cause : Nat} (ha : a.toNat % n = 0)
    (h : locate s s.tr.core s.cred a .ld true = (.fault cause, u)) : loadBytes s a n = .stop (u.trapPage cause a 0) := by
  simp only [loadBytes, ha, h, ne_eq, not_true_eq_false, if_false]

theorem storeBytes_fault {s u : State} {a : Word} {bs : List Byte} {stream cause : Nat} (ha : a.toNat % bs.length = 0)
    (h : locate s s.tr.core s.cred a .st true = (.fault cause, u)) : storeBytes s a bs stream = .stop (u.trapPage cause a 0) := by
  simp only [storeBytes, ha, h, ne_eq, not_true_eq_false, if_false]

/-- A load of data that is poisoned or uncorrectable (R119). -/
theorem loadBytes_bad {s u : State} {a : Word} {n pa key frame : Nat} (h : Finds s u a n .ld pa key frame) :
    (physQuality u pa n = .poisoned → loadBytes s a n = .stop (u.trap cPOISON 0 0 a)) ∧
    (physQuality u pa n = .uncorrectable → loadBytes s a n = .stop (u.trap cUE 0 0 a)) := by
  obtain ⟨aligned, found, free⟩ := h
  refine ⟨fun hq => ?_, fun hq => ?_⟩ <;>
    simp only [loadBytes, aligned, found, free, hq, ne_eq, not_true_eq_false, if_false, Bool.false_eq_true]

/-- A trap that an instruction meets after a translation. -/
theorem enters_after {s u : State} {core : Nat} {c : Cred} {a b : Word} {acc : Acc} {pull : Bool} {l : Loc} {i : Instr} {cls sub elem : Nat}
    (h : locate s core c a acc pull = (l, u)) (he : exec i s = .next (u.trap cls sub elem b)) (ok : Stoppable u s.cur.ctxn)
    (free : TrapFree u s.cur.ctxn) : Completes i s fun t => EntersHandler u t s.cur.ctxn s.cur.role
      (s.only { cls := cls, sub := sub, elem := elem, faddr := b, resume := s.th.pc }) := by
  obtain ⟨cur, th, -⟩ := locate_threads h
  rw [← th]
  exact entersHandler_raised cur he ok free

theorem traps_ld {s : State} (hs : s.Started) {f : FmtM} (hf : f.scope.toNat ≠ 4) (ha : (s.eaM f).toNat % 2 ^ segWm f ≠ 0) :
    Traps s (.ld f) s { cls := 3, faddr := s.eaM f, resume := s.th.pc } ∧
    Traps s (.st f) s { cls := 3, faddr := s.eaM f, resume := s.th.pc } := by
  refine ⟨traps_at hs (exec_ld_stop hf (if_pos ha)), traps_at hs (exec_st_stop hf (if_pos ?_))⟩
  rw [length_natBytes]
  exact ha

theorem enters_pageFault {s u : State} {f : FmtM} (hf : f.scope.toNat ≠ 4) (ha : (s.eaM f).toNat % 2 ^ segWm f = 0) {cause : Nat}
    (ok : Stoppable u s.cur.ctxn) (free : TrapFree u s.cur.ctxn) :
    (locate s s.tr.core s.cred (s.eaM f) .ld true = (.fault cause, u) → Completes (.ld f) s fun t =>
      EntersHandler u t s.cur.ctxn s.cur.role (s.only { cls := 4, sub := cause, faddr := s.eaM f, resume := s.th.pc })) ∧
    (locate s s.tr.core s.cred (s.eaM f) .st true = (.fault cause, u) → Completes (.st f) s fun t =>
      EntersHandler u t s.cur.ctxn s.cur.role (s.only { cls := 4, sub := cause, faddr := s.eaM f, resume := s.th.pc })) :=
  ⟨fun h => enters_after h (exec_ld_stop hf (loadBytes_fault ha h)) ok free,
    fun h => enters_after h (exec_st_stop hf (storeBytes_fault (by rw [length_natBytes]; exact ha) h)) ok free⟩

end Sys2Proof.Machine
end

section
namespace Sys2Proof.Machine

/-! The traps of R122, R136, R283, R307 and R358: vector instructions of a triad that does not own its slot, unbound windows, bad data and
unsealed objects. -/

/-- What an instruction that traps from s as it stands comes to. -/
theorem enters_at {s : State} {i : Instr} {cls sub elem : Nat} {a : Word} (he : exec i s = .next (s.trap cls sub elem a))
    (ok : Stoppable s s.cur.ctxn) (free : TrapFree s s.cur.ctxn) : Completes i s fun t =>
      EntersHandler s t s.cur.ctxn s.cur.role (s.only { cls := cls, sub := sub, elem := elem, faddr := a, resume := s.th.pc }) :=
  entersHandler_raised rfl he ok free

/-! VSWITCH. -/

section
variable {s : State} (plain : s.vpNow = none) (foreign : s.ownsVec = false)
include foreign

theorem exec_vcfg_foreign (f : FmtA) : exec (.vcfg f) s = .next (s.trap cVSWITCH 0 0 0) := by
  show execVcfg f s = _
  rw [execVcfg, foreign]
  rfl

theorem foreignResume_of_cont {m : Resume} (hm : s.th.resume = some m) (hc : m.cont = true) : s.foreignResume = true := by
  simp [State.foreignResume, State.resumedWait, hm, hc, foreign]

theorem exec_bsync_foreign (f : FmtY) {m : Resume} (hm : s.th.resume = some m) (hc : m.cont = true) :
    exec (.bsync f) s = .next (s.trap cVSWITCH 0 0 0) := by
  show execBsync f s = _
  rw [execBsync, foreignResume_of_cont foreign hm hc]
  rfl

theorem exec_vfbar_foreign {f : FmtY} (hf : f.scope.toNat ≠ 4) {m : Resume} (hm : s.th.resume = some m) (hc : m.cont = true) :
    exec (.vfbar f) s = .next (s.trap cVSWITCH 0 0 0) := by
  have scope : scopeBank f.scope.toNat = false := beq_eq_false_iff_ne.mpr hf
  show execVfbar f s = _
  rw [execVfbar, foreignResume_of_cont foreign hm hc, scope]
  rfl

theorem exec_vfetch_foreign (f : FmtJ) (hr : s.cur.role = .computer) {m : Resume} (hm : s.th.resume = some m) (hc : m.cont = true) :
    exec (.vfetch f) s = .next (s.trap cVSWITCH 0 0 0) := by
  show execVfetch f s = _
  simp only [execVfetch, hr, hm, hc, foreign, Option.any_some, ne_eq, not_true_eq_false, if_false, Bool.not_false, Bool.and_self, if_true]

include plain

/-- Step 2 of R136. -/
theorem vIssue_foreign {dec disp : Bool} (hd : dec = true) {reads writes : List Opnd} (go : State → State) :
    s.vIssue dec disp reads writes go = s.trap cVSWITCH 0 0 0 := by
  simp [State.vIssue, plain, hd, foreign]

theorem memIssue_foreign {f : FmtM} (hf : f.scope.toNat ≠ 4) {w : Nat} {disp : Bool} {dsts srcs : List VField}
    (hd : vDecode s.vec.cfg s.cur.role 1 dsts srcs = true) {reads writes : List Opnd} (go : State → State) :
    s.memIssue f true w disp dsts srcs reads writes go = s.trap cVSWITCH 0 0 0 := by
  have scope : scopeBank f.scope.toNat = false := beq_eq_false_iff_ne.mpr hf
  exact vIssue_foreign plain foreign (by simp [scope, hd]) go

end

/-- A vector load or store of a triad that does not own its slot. -/
theorem enters_memIssue {s : State} {i : Instr} {f : FmtM} {w : Nat} {disp : Bool} {dsts srcs : List VField} {reads writes : List Opnd}
    {go : State → State} (he : exec i s = .next (s.memIssue f true w disp dsts srcs reads writes go)) (plain : s.vpNow = none)
    (foreign : s.ownsVec = false) (hf : f.scope.toNat ≠ 4) (hd : vDecode s.vec.cfg s.cur.role 1 dsts srcs = true)
    (ok : Stoppable s s.cur.ctxn) (free : TrapFree s s.cur.ctxn) : Completes i s fun t =>
      EntersHandler s t s.cur.ctxn s.cur.role (s.only { cls := 9, faddr := 0, resume := s.th.pc }) :=
  enters_at (he.trans (congrArg _ (memIssue_foreign plain foreign hf hd go))) ok free

/-! LDW (R122, R233). -/

section
variable {s : State} {f : FmtB}

theorem exec_ldw_unaligned (h : (s.x f.xa + f.imm32.signExtend 64).toNat % (tWidth (if f.t = 15#4 then 7#4 else f.t) / 8) ≠ 0) :
    exec (.ldw f) s = .next (s.trap cALIGN 0 0 (s.x f.xa + f.imm32.signExtend 64)) :=
  congrArg Host.Outcome.next (if_pos h)

theorem exec_ldw_unbound (h : (s.x f.xa + f.imm32.signExtend 64).toNat % (tWidth (if f.t = 15#4 then 7#4 else f.t) / 8) = 0)
    (hw : (s.tr.win (f.opv.toNat % 8)).size = 0) : exec (.ldw f) s = .next (s.trap cPARAM 0 0 0) :=
  congrArg Host.Outcome.next ((if_neg (not_not_intro h)).trans (if_pos hw))

end

/-! Scalar atomics on bad data (R119, R121). -/

section
variable {s u : State} {a : Word} {pa key frame op : Nat} {t : BitVec 4} {b cmp : Word} {xd : BitVec 6}
  (h : Finds s u a (tWidth t / 8) .rmw pa key frame) (unsealed : inSealed u pa (tWidth t / 8) = false) (alone : shadowPort u = none)
include h unsealed alone

theorem atomicAt_bad :
    (physQuality u pa (tWidth t / 8) = .poisoned → atomicAt s a op t b cmp xd = u.trap cPOISON 0 0 a) ∧
    (physQuality u pa (tWidth t / 8) = .uncorrectable → atomicAt s a op t b cmp xd = u.trap cUE 0 0 a) := by
  obtain ⟨aligned, found, free⟩ := h
  have room : forwardRoom u pa (tWidth t / 8) = true := by simp [forwardRoom, alone]
  refine ⟨fun hq => ?_, fun hq => ?_⟩ <;>
    simp only [atomicAt, aligned, found, free, room, unsealed, hq, ne_eq, not_true_eq_false, if_false, Bool.not_true, Bool.false_eq_true]

end

/-- A scalar atomic that meets bad data. -/
theorem enters_atomic {s u : State} {i : Instr} {a : Word} {pa key frame op : Nat} {t : BitVec 4} {b cmp : Word} {xd : BitVec 6}
    (he : exec i s = .next (atomicAt s a op t b cmp xd)) (h : Finds s u a (tWidth t / 8) .rmw pa key frame)
    (unsealed : inSealed u pa (tWidth t / 8) = false) (ok : Stoppable u s.cur.ctxn) (free : TrapFree u s.cur.ctxn) :
    (physQuality u pa (tWidth t / 8) = .poisoned → Completes i s fun v =>
      EntersHandler u v s.cur.ctxn s.cur.role (s.only { cls := 6, faddr := a, resume := s.th.pc })) ∧
    (physQuality u pa (tWidth t / 8) = .uncorrectable → Completes i s fun v =>
      EntersHandler u v s.cur.ctxn s.cur.role (s.only { cls := 7, faddr := a, resume := s.th.pc })) := by
  obtain ⟨poisoned, uncorrectable⟩ := atomicAt_bad (op := op) (b := b) (cmp := cmp) (xd := xd) h unsealed ok.alone
  exact ⟨fun bad => enters_after h.found (he.trans (congrArg _ (poisoned bad))) ok free,
    fun bad => enters_after h.found (he.trans (congrArg _ (uncorrectable bad))) ok free⟩

theorem exec_amo {f : FmtA} {s : State} (hf : amoScope f ≠ 4) : exec (.amo f) s =
    .next (atomicAt s (s.x f.xa + f.imm16.signExtend 64) (f.opv.toNat % 16) f.t (s.x f.xb) 0 f.xd) := by
  have scope : scopeBank (amoScope f) = false := beq_eq_false_iff_ne.mpr hf
  show execAmo f s = _
  rw [execAmo, scope]
  rfl

theorem exec_cas {f : FmtA} {s : State} (hf : amoScope f ≠ 4) : exec (.cas f) s =
    .next (atomicAt s (s.x f.xa + f.imm16.signExtend 64) 8 f.t (s.x f.xb) (s.x f.xc) f.xd) := by
  have scope : scopeBank (amoScope f) = false := beq_eq_false_iff_ne.mpr hf
  show execCas f s = _
  rw [execCas, scope]
  rfl

/-! Mesh instructions whose handle names no sealed object (R307). -/

theorem memActive_plain {s : State} (hr : s.th.resume = none) (m : BitVec 4) (w : Nat) :
    s.memActive m w = s.vec.active m.toNat s.th.vl := by
  simp [State.memActive, State.memMask, hr]

theorem poisonAt_one {s : State} {act : List Nat} {o : Opnd} {w j : Nat} (h : ∀ e ∈ act, s.vec.opPois o j (egOf w e) = false) :
    s.poisonAt act [(o, w, j)] = none := by
  rw [State.poisonAt, List.findSome?_eq_none_iff]
  intro e he
  simp [h e he]

theorem meshRun_unnamed {s : State} {f : FmtM} {isFace : Bool} {dst : Opnd} {e : Nat} {es : List Nat} {l : Loc}
    (aligned : (s.x f.xbase).toNat % 4 = 0) (found : locate s s.tr.core s.cred (s.x f.xbase) .ld false = (l, s)) (sound : l.isFault = false)
    (unnamed : meshNamed s s.tr.core s.cred (s.x f.xbase) (some s.tr.tag) = (none, s)) :
    s.meshRun f isFace dst (e :: es) = s.trap cPARAM 1 e (s.x f.xbase) := by
  cases l with
  | fault c => cases sound
  | _ => simp only [State.meshRun, aligned, found, unnamed, ne_eq, not_true_eq_false, if_false]

theorem meshLoad_unnamed {s : State} {f : FmtM} {e : Nat} {es : List Nat} {l : Loc} (quiet : s.quiet) (hf : f.scope.toNat ≠ 4)
    (act : s.vec.active f.m.toNat s.th.vl = e :: es) (aligned : (s.x f.xbase).toNat % 4 = 0)
    (found : locate s s.tr.core s.cred (s.x f.xbase) .ld false = (l, s)) (sound : l.isFault = false)
    (unnamed : meshNamed s s.tr.core s.cred (s.x f.xbase) (some s.tr.tag) = (none, s))
    (clean : meshIdx f = true → ∀ k ∈ e :: es, s.vec.opPois (.reg f.xs.toNat) 0 (egOf 32 k) = false)
    (ready : VectorReady s (vDecode s.vec.cfg s.cur.role 1 [vField (meshRing f) f.v 1] (if meshIdx f then [vField false f.xs 1] else []))
      (s.vlOk 32) [] (if meshRing f then [opnd (meshRing f) f.v] else [])) (isFace : Bool) :
    s.meshLoad f isFace = s.trap cPARAM 1 e (s.x f.xbase) := by
  have scope : scopeBank f.scope.toNat = false := beq_eq_false_iff_ne.mpr hf
  have issue : VectorReady s (!scopeBank f.scope.toNat && true &&
      vDecode s.vec.cfg s.cur.role 1 [vField (meshRing f) f.v 1] (if meshIdx f then [vField false f.xs 1] else []))
      (true && s.vlOk 32) [] [opnd (meshRing f) f.v] := by
    obtain ⟨started, plain, decode, owns, dispatch, rings⟩ := ready
    refine ⟨started, plain, by simp [scope, decode], owns, by simp [dispatch], ?_⟩
    cases hr : meshRing f
    · rw [hr] at rings
      exact rings
    · rw [hr] at rings
      exact rings
  have noPoison : (if meshIdx f then s.poisonAt (e :: es) [(.reg f.xs.toNat, 32, 0)] else none) = none := by
    split
    · next hi => exact poisonAt_one (clean hi)
    · rfl
  unfold State.meshLoad State.memIssue
  simp only []
  rw [vIssue_ready issue, memActive_plain quiet.2.1, act, noPoison]
  exact meshRun_unnamed aligned found sound unnamed

end Sys2Proof.Machine
end

section
namespace Sys2Proof.Machine

/-! FPX: a scalar result that raises an enabled event traps after it is written (R59, R344). -/

theorem ev_none_add_zero (ev : Ev) : (Evs.none.add ev 0).ev = ev := by
  unfold Evs.add
  split <;> simp_all [Evs.none]

theorem ix_none_add_zero (ev : Ev) {c : Nat} (hc : c < 6) : (Evs.none.add ev 0).ix.getD c 0 = 0 := by
  obtain rfl | rfl | rfl | rfl | rfl | rfl : c = 0 ∨ c = 1 ∨ c = 2 ∨ c = 3 ∨ c = 4 ∨ c = 5 := by omega
  all_goals
    unfold Evs.add
    split <;> simp [nrange, Evs.none]

/-- The state to which a scalar floating-point word comes before it traps FPX. -/
def State.fpMerged (s : State) (d : BitVec 6) (bits : Nat) (ev : Ev) (sr : Bool) : State :=
  ((s.fpWrite d bits sr).merge (Evs.none.add ev 0)).advance

/-- The result, the events and SN are the same whether the events trap or not. -/
theorem fpResult_fpMerged {s : State} (h : s.Started) (d : BitVec 6) (bits : Nat) (ev : Ev) (sr : Bool) :
    FpResult s (s.fpMerged d bits ev sr) d bits ev sr := by
  obtain ⟨only, started, cur, th, tr⟩ := fpWrite_facts s d bits sr h
  have mstarted : ((s.fpWrite d bits sr).merge (Evs.none.add ev 0)).Started := started_modTr _ started
  have mtr : ((s.fpWrite d bits sr).merge (Evs.none.add ev 0)).tr = (s.fpWrite d bits sr).tr.merge (Evs.none.add ev 0) :=
    State.tr_modTr _ _ started
  have mth : ((s.fpWrite d bits sr).merge (Evs.none.add ev 0)).th = s.th.setXr d.toNat (BitVec.ofNat 64 bits) :=
    (State.th_modTr _ _ started fun t r => Triad.role_merge _ _ _).trans th
  have mcur : ((s.fpWrite d bits sr).merge (Evs.none.add ev 0)).cur = s.cur := (State.modTr_cur _ _).trans cur
  have monly : OnlyTriad s ((s.fpWrite d bits sr).merge (Evs.none.add ev 0)) := only.trans (onlyTriad_modTr _ _)
  obtain ⟨thread, stands⟩ := advances _ mstarted
  have tth := State.advance_th _ mstarted
  rw [mth] at tth
  unfold State.fpMerged
  generalize (s.fpWrite d bits sr).merge (Evs.none.add ev 0) = m at *
  have ttr : m.advance.tr = ((s.fpWrite d bits sr).tr.merge (Evs.none.add ev 0)).setRole s.cur.role m.advance.th := by
    rw [thread.triad, mtr, mcur]
  refine ⟨⟨(monly.trans thread.toOnlyTriad).device, (monly.trans thread.toOnlyTriad).others, (monly.trans thread.toOnlyTriad).bytes⟩,
    ⟨?_, fun n hn => ?_, ?_⟩, ?_, ?_, fun c hc => ?_⟩
  · rw [stands.pc, mth]
    simp
  · have hz : n.toNat ≠ d.toNat := fun e => hn (by simp [BitVec.eq_of_toNat_eq e])
    simp [State.x, tth, hz]
  · rw [tth]
    by_cases hd : d.toNat = 0 <;> simp [RoleState.advance, RoleState.settle, RoleState.setXr, hd]
  · by_cases hd : d = 0#6
    · simp [hd]
    · have hz : d.toNat ≠ 0 := fun e => hd (BitVec.eq_of_toNat_eq (by simpa using e))
      simp [State.x, tth, hd, hz]
  · rw [ttr]
    generalize m.advance.th = r
    rw [tr]
    cases s.cur.role <;> simp [Triad.merge, Triad.setRole, ev_none_add_zero]
  · have eix : m.advance.tr.eix = (s.tr.merge (Evs.none.add ev 0)).eix := by
      rw [ttr, tr]
      cases s.cur.role <;> rfl
    rw [eix]
    refine (eixMerge_get _ _ hc).trans ?_
    rw [ev_none_add_zero, ix_none_add_zero ev hc, eixMerge]
    generalize s.tr.eix.getD c 0 = w
    by_cases a : ev.getLsbD c <;> by_cases b : w.getLsbD 63 <;> simp_all

theorem fpDone_traps {s : State} (h : s.Started) (f : FmtA) (sr : Bool) (bits : Nat) {ev : Ev} (he : enabled s.tr.vstat &&& ev ≠ 0) :
    s.fpDone f sr bits ev = (s.fpMerged f.xd bits ev sr).raise { cls := 8, resume := s.th.successor } := by
  obtain ⟨-, started, -, -, tr⟩ := fpWrite_facts s f.xd bits sr h
  have vstat : (s.fpWrite f.xd bits sr).tr.vstat = s.tr.vstat := by
    rw [tr]
    cases s.cur.role <;> rfl
  have mtr : ((s.fpWrite f.xd bits sr).merge (Evs.none.add ev 0)).tr = (s.fpWrite f.xd bits sr).tr.merge (Evs.none.add ev 0) :=
    State.tr_modTr _ _ started
  have traps : enabled ((s.fpWrite f.xd bits sr).merge (Evs.none.add ev 0)).tr.vstat &&& (Evs.none.add ev 0).ev ≠ 0 := by
    rw [mtr, Triad.merge, ev_none_add_zero, enabled_merge, vstat]
    exact he
  have pc : (s.fpMerged f.xd bits ev sr).th.pc = s.th.successor := (fpResult_fpMerged h f.xd bits ev sr).pc
  rw [← pc]
  exact if_pos traps

theorem started_fpMerged {s : State} (h : s.Started) (d : BitVec 6) (bits : Nat) (ev : Ev) (sr : Bool) : (s.fpMerged d bits ev sr).Started :=
  started_modTh _ (started_modTr _ (fpWrite_facts s d bits sr h).2.1)

/-- A triad whose current role alone goes on is as ready for a trap as it was. -/
theorem ready_of_fpResult {s u : State} {d : BitVec 6} {bits : Nat} {ev : Ev} {sr : Bool} (r : FpResult s u d bits ev sr)
    (started : u.Started) (ok : Stoppable s s.cur.ctxn) (free : TrapFree s s.cur.ctxn) :
    u.cur = s.cur ∧ Stoppable u s.cur.ctxn ∧ TrapFree u s.cur.ctxn := by
  have cur : u.cur = s.cur := by rw [r.device]
  have here : u.triad s.cur.ctxn = u.tr := by rw [State.tr, cur]
  have role (q : Role) : u.tr.role q = if q = s.cur.role then u.th else s.tr.role q := by
    rw [r.triad]
    cases q <;> cases s.cur.role <;> rfl
  have rest : u.tr.core = s.tr.core ∧ u.tr.traprec = s.tr.traprec ∧ u.tr.trapper = s.tr.trapper := by
    rw [r.triad]
    cases s.cur.role <;> exact ⟨rfl, rfl, rfl⟩
  obtain ⟨rcore, rarea, rtrapper⟩ := rest
  have dev := r.device
  obtain ⟨-, number, bounded, plain, handler, area, near, unsealed, alone⟩ := ok
  obtain ⟨first, outside, untrapped⟩ := free
  have own : u.th.stall = none ∧ u.th.tile = none ∧ u.th.trap = s.th.trap ∧ u.th.inHandler = s.th.inHandler := by
    rw [r.role]
    exact ⟨rfl, rfl, rfl, rfl⟩
  obtain ⟨ostall, otile, otrap, ohandler⟩ := own
  refine ⟨cur, ⟨?_, number, fun q => ?_, fun f => ?_, ?_, ?_, ?_, ?_, ?_⟩, ⟨?_, fun q => ?_, fun q => ?_⟩⟩
  · rw [← cur]
    exact started
  · rw [here, role]
    split
    · simp [inFlight, ostall, otile]
    · exact bounded q
  · rw [here]
    show (u.tr.role .computer).stall ≠ _
    rw [role]
    split
    · simp [ostall]
    · exact plain f
  · rw [here, rcore, dev]
    exact handler
  · rw [here, rarea]
    exact area
  · rw [here, rarea]
    exact near
  · rw [here, rarea, dev]
    exact unsealed
  · rw [dev]
    exact alone
  · rw [here, rtrapper]
    exact first
  · rw [here, role]
    split
    · exact ohandler.trans (outside _)
    · exact outside q
  · rw [here, role]
    split
    · exact otrap.trans (untrapped _)
    · exact untrapped q

/-- A rounded scalar result with an enabled event. -/
theorem enters_fpRound {s : State} {i : Instr} {f : FmtA} {x : Val × Ev} (he : exec i s = .next (s.fpRound f x))
    (role : fpRm f = 5 → s.cur.role = .computer) (ok : Stoppable s s.cur.ctxn) (free : TrapFree s s.cur.ctxn) :
    let r := roundTo (fpFmt f.t) (s.fpCtx f) x.1
    enabled s.tr.vstat &&& (x.2 ||| r.2) ≠ 0 →
    Completes i s fun t => ∃ u, FpResult s u f.xd r.1 (x.2 ||| r.2) (fpRm f == 5) ∧
      EntersHandler u t s.cur.ctxn s.cur.role (s.only { cls := 8, resume := s.th.successor }) := by
  intro r traps
  have issued : s.fpRound f x = s.fpDone f (fpRm f == 5) r.1 (x.2 ||| r.2) := if_neg fun h => h.2 (role h.1)
  rw [issued, fpDone_traps ok.started f _ _ traps] at he
  have result := fpResult_fpMerged ok.started f.xd r.1 (x.2 ||| r.2) (fpRm f == 5)
  obtain ⟨cur, uok, ufree⟩ := ready_of_fpResult result (started_fpMerged ok.started ..) ok free
  obtain ⟨t, ht, entered⟩ := entersHandler_raised cur he uok ufree
  exact ⟨t, ht, _, result, entered⟩

end Sys2Proof.Machine
end

section
namespace Sys2Proof.Machine

/-! Parts of a vector load that stay on the device (R180, R282): where nothing waits, the lane groups go through their windows up to a
fault, and what they left is parted in the elements that can be loaded and those that cannot. -/

/-- A part whose accesses go to free local memory or meet a fault. -/
def Local (s : State) (p : Placed) : Prop :=
  ∀ x ∈ p.subs, match x.2.2 with
    | .here pa _ _ => markHolds s pa x.2.1 = false
    | .fault _ => True
    | _ => False

theorem farLines_local {s : State} {ps : List Placed} (h : ∀ p ∈ ps, Local s p) : farLines ps = [] := by
  rw [farLines, List.flatMap_eq_nil_iff]
  intro p hp
  rw [List.filterMap_eq_nil_iff]
  intro x hx
  have := h p hp x hx
  split
  · next hl =>
    rw [hl] at this
    exact this.elim
  · rfl

theorem waitFor_local {s : State} {m : Manner} (load : m.acc = .ld) {ps : List Placed} (h : ∀ p ∈ ps, Local s p) (used : Nat) :
    waitFor s m false used ps = none := by
  have here : linesHere s s.cur ((farLines ps).map (·.1)) = true := by rw [farLines_local h]; rfl
  simp only [waitFor, load, here, Bool.and_false, if_false, Bool.false_eq_true, if_true]
  rw [if_neg]
  rw [Bool.not_eq_true, List.any_eq_false]
  intro p hp
  rw [Bool.not_eq_true, List.any_eq_false]
  intro x hx
  have free := h p hp x hx
  split
  · next hl =>
    rw [hl] at free
    simp [free]
  · simp

/-- The windows gone through: those left hold every fault in element order, and with those performed every part. -/
structure Went (us : List Window) (g : Gone) : Prop where
  stopped : ∀ p ∈ g.stopped, p.2 = none
  sound : ∀ u ∈ g.perf, u.faulted = false
  faults : (g.rest.flatMap (·.parts)).filter Placed.faulted = (us.flatMap (·.parts)).filter Placed.faulted
  parts : (g.perf.flatMap (·.parts) ++ g.rest.flatMap (·.parts)).Perm (us.flatMap (·.parts))

theorem mem_tset {α : Type} {k : Nat} {x : α} {t : Tbl α} {p : Nat × α} (h : p ∈ tset k x t) : p = (k, x) ∨ p ∈ t := by
  induction t with
  | nil => exact .inl (List.mem_singleton.mp h)
  | cons q t ih =>
    unfold tset at h
    split at h
    · rcases List.mem_cons.mp h with h | h
      · exact .inl h
      · exact .inr (List.mem_cons_of_mem _ h)
    · split at h
      · exact (List.mem_cons.mp h).imp_right id
      · rcases List.mem_cons.mp h with h | h
        · exact .inr (h ▸ List.mem_cons_self)
        · exact (ih h).imp_right (List.mem_cons_of_mem _)

theorem filter_faulted_sound {u : Window} (h : u.faulted = false) : u.parts.filter Placed.faulted = [] := by
  rw [List.filter_eq_nil_iff]
  intro p hp
  unfold Window.faulted at h
  rw [List.any_eq_false] at h
  exact h p hp

theorem Went.left {us : List Window} {g : Gone} {u : Window} (h : Went us g) {stopped : Tbl (Option Stall)}
    (hs : ∀ p ∈ stopped, p.2 = none) : Went (us ++ [u]) { g with rest := g.rest ++ [u], stopped := stopped } where
  stopped := hs
  sound := h.sound
  faults := by simp [h.faults]
  parts := by
    have := h.parts.append_right u.parts
    simpa using this

theorem Went.performed {us : List Window} {g : Gone} {u : Window} (h : Went us g) (hu : u.faulted = false) (used : Nat) (count : Tbl Nat) :
    Went (us ++ [u]) { g with perf := g.perf ++ [u], used := used, count := count } where
  stopped := h.stopped
  sound := fun v hv => by
    rcases List.mem_append.mp hv with hv | hv
    · exact h.sound v hv
    · rw [List.mem_singleton.mp hv]
      exact hu
  faults := by simp [h.faults, filter_faulted_sound hu]
  parts := by
    have := h.parts.append_right u.parts
    simp only [List.flatMap_append, List.flatMap_singleton, List.append_assoc] at this ⊢
    exact (List.Perm.append_left _ List.perm_append_comm).trans this

theorem goWindow_went {s : State} {m : Manner} (load : m.acc = .ld) {us : List Window} {g : Gone} {u : Window} (h : Went us g)
    (hu : ∀ p ∈ u.parts, Local s p) : Went (us ++ [u]) (goWindow s m false (fun _ => none) g u) := by
  unfold goWindow
  simp only [waitFor_local load hu, Option.any_none, Bool.false_eq_true, if_false]
  split
  · exact h.left h.stopped
  · split
    · refine h.left fun p hp => ?_
      rcases mem_tset hp with rfl | hp
      · rfl
      · exact h.stopped p hp
    · next sound => exact h.performed (by simpa using sound) _ _

theorem goWindows_went {s : State} {m : Manner} (load : m.acc = .ld) (slip : s.slip = none) {us : List Window}
    (h : ∀ u ∈ us, ∀ p ∈ u.parts, Local s p) : Went us (goWindows s m false us) := by
  unfold goWindows
  have none_slip : slipOf s.slip ((us.head?.map (·.lane)).getD 0) = fun _ => none := by
    funext lane
    simp [slipOf, slip]
  rw [none_slip]
  clear none_slip
  induction us using List.reverseRecOn with
  | nil => exact ⟨fun _ h => (by cases h), fun _ h => (by cases h), rfl, .refl _⟩
  | append_singleton us u ih =>
    rw [List.foldl_append]
    exact goWindow_went load (ih (fun v hv => h v (by simp [hv]))) (h u (by simp))

theorem windowsOf_parts (m : Manner) (ps : List Placed) : (windowsOf m ps).flatMap (·.parts) = ps := by
  induction ps with
  | nil => rfl
  | cons p t ih =>
    unfold windowsOf
    simp only []
    split
    · next h =>
      rw [h] at ih
      simp [← ih]
    · next u us h =>
      rw [h] at ih
      split <;> simp [← ih]

theorem firstWait_went {us : List Window} {g : Gone} (h : Went us g) : firstWait g.stopped = none := by
  have : g.stopped.filterMap (·.2) = [] := List.filterMap_eq_nil_iff.mpr h.stopped
  simp [firstWait, this]

/-- Steps 5 and 6 of R180 for a load that only faults hold up: every part that can be loaded is, and the others make the batch (R282). -/
theorem vPlan_batched {s : State} {m : Manner} (load : m.acc = .ld) (unordered : m.ordered = false) (parted : m.whole = false)
    (slip : s.slip = none) {ops : List MOp} {ps : List Placed} (sound : ∀ p ∈ ops, ∀ x ∈ p.subs, subBad s s.tr.tag x = none)
    (located : locateOps s.tr.core s.cred .ld ops s = (ps, s)) (here : ∀ p ∈ ps, Local s p) (faults : ps.filter Placed.faulted ≠ [])
    (egs : List Nat) : ∃ perf cnt, perf.Perm (ps.filter fun p => !p.faulted) ∧
      s.vPlan m egs ops = .ready perf (.done (some ({ batchPost s (ps.filter Placed.faulted) with cnt := cnt },
        (ps.filter Placed.faulted).flatMap (·.es)))) false s := by
  have addresses : ops.findSome? (fun p => p.subs.findSome? fun x => (subBad s s.tr.tag x).map fun b => (p.es.headD 0, x.1, b)) = none := by
    rw [List.findSome?_eq_none_iff]
    intro p hp
    rw [List.findSome?_eq_none_iff]
    intro x hx
    rw [sound p hp x hx]
    rfl
  have went := goWindows_went (m := m) load slip (us := windowsOf m ps) fun u hu p hp => by
    refine here p ?_
    rw [← windowsOf_parts m ps]
    exact List.mem_flatMap_of_mem hu hp
  have wait := firstWait_went went
  obtain ⟨-, whole, left, parts⟩ := went
  rw [windowsOf_parts] at left parts
  generalize hg : goWindows s m false (windowsOf m ps) = g at wait whole left parts
  have nonempty : (g.rest.flatMap (·.parts)).isEmpty = false := by
    rw [List.isEmpty_eq_false_iff]
    intro h
    rw [h] at left
    exact faults left.symm
  have good : ∀ p ∈ (g.rest.flatMap (·.parts)).filter fun p => !p.faulted, Local s p := fun p hp =>
    here p (parts.subset (List.mem_append_right _ (List.mem_of_mem_filter hp)))
  have done : (g.perf.flatMap (·.parts)).filter (fun p => !p.faulted) = g.perf.flatMap (·.parts) := by
    rw [List.filter_eq_self]
    intro p hp
    obtain ⟨u, hu, hp⟩ := List.mem_flatMap.mp hp
    have sound := whole u hu
    rw [Window.faulted, List.any_eq_false] at sound
    simpa using sound p hp
  refine ⟨g.perf.flatMap (·.parts) ++ (g.rest.flatMap (·.parts)).filter fun p => !p.faulted,
    countersBut m egs ((ps.filter Placed.faulted).flatMap (·.es)), ?_, ?_⟩
  · have := parts.filter fun p => !p.faulted
    rwa [List.filter_append, done] at this
  · unfold State.vPlan
    simp only [addresses, load, located, farLines_local here, List.isEmpty_nil, Bool.not_true, Bool.and_false, askFor, ne_eq,
      not_true_eq_false, Bool.not_false, decide_false, Bool.or_true, if_true, parted, Bool.false_eq_true, if_false, hg,
      wait, nonempty, Manner.clear, Manner.behind, unordered, waitFor_local load good, left]

end Sys2Proof.Machine
end

section
namespace Sys2Proof.Machine

/-! A vector load of single elements some of which meet translation faults (R180, R182, R282). -/

/-- Where the element at an address goes. -/
def partOf (s : State) (n : Nat) (addr : Nat → Word) (e : Nat) : Placed :=
  ⟨[e], [(addr e, n, (locate s s.tr.core s.cred (addr e) .ld false).1)]⟩

/-- An element of n bytes at an aligned virtual address: its translation faults, or finds free local memory. -/
def LoadMeets (s : State) (n key : Nat) (addr : Nat → Word) (pa : Nat → Nat) (cause : Nat → Option Nat) (e : Nat) : Prop :=
  (addr e).toNat % n = 0 ∧ isVirt (addr e) = true ∧ match cause e with
    | some k => locate s s.tr.core s.cred (addr e) .ld false = (.fault k, s)
    | none => markHolds s (pa e) n = false ∧ ∃ frame, locate s s.tr.core s.cred (addr e) .ld false = (.here (pa e) key frame, s)

section
variable {s : State} {n key : Nat} {addr : Nat → Word} {pa : Nat → Nat} {cause : Nat → Option Nat}

theorem LoadMeets.fault {e k : Nat} (h : LoadMeets s n key addr pa cause e) (hc : cause e = some k) :
    locate s s.tr.core s.cred (addr e) .ld false = (.fault k, s) := by
  obtain ⟨-, -, h⟩ := h
  rw [hc] at h
  exact h

theorem LoadMeets.here {e : Nat} (h : LoadMeets s n key addr pa cause e) (hc : cause e = none) :
    markHolds s (pa e) n = false ∧ ∃ frame, locate s s.tr.core s.cred (addr e) .ld false = (.here (pa e) key frame, s) := by
  obtain ⟨-, -, h⟩ := h
  rw [hc] at h
  exact h

theorem LoadMeets.unchanged {e : Nat} (h : LoadMeets s n key addr pa cause e) : (locate s s.tr.core s.cred (addr e) .ld false).2 = s := by
  cases hc : cause e with
  | some k => rw [h.fault hc]
  | none =>
    obtain ⟨-, frame, found⟩ := h.here hc
    rw [found]

theorem LoadMeets.sound {e : Nat} (h : LoadMeets s n key addr pa cause e) (tag : Nat) : subBad s tag (addr e, n) = none := by
  obtain ⟨aligned, virt, -⟩ := h
  unfold isVirt at virt
  unfold subBad
  rw [if_neg (by simpa using aligned)]
  split at virt
  · next hv => simp only [hv]
  · cases virt

theorem LoadMeets.faulted {e : Nat} (h : LoadMeets s n key addr pa cause e) : (partOf s n addr e).faulted = (cause e).isSome := by
  cases hc : cause e with
  | some k => simp [Placed.faulted, partOf, h.fault hc, Loc.isFault]
  | none =>
    obtain ⟨-, frame, found⟩ := h.here hc
    simp [Placed.faulted, partOf, found, Loc.isFault]

theorem LoadMeets.isLocal {e : Nat} (h : LoadMeets s n key addr pa cause e) : Local s (partOf s n addr e) := by
  intro x hx
  rw [partOf, List.mem_singleton] at hx
  subst hx
  cases hc : cause e with
  | some k => simp [h.fault hc]
  | none =>
    obtain ⟨free, frame, found⟩ := h.here hc
    simpa [found] using free

theorem locateOps_parts {act : List Nat} (h : ∀ e ∈ act, LoadMeets s n key addr pa cause e) :
    locateOps s.tr.core s.cred .ld (act.map fun e => ⟨[e], [(addr e, n)]⟩) s = (act.map (partOf s n addr), s) := by
  induction act with
  | nil => rfl
  | cons e t ih =>
    have same := (h e (by simp)).unchanged
    simp only [List.map_cons, locateOps, locateSubs, same, ih fun d hd => h d (by simp [hd]), partOf]

theorem filter_parts {act : List Nat} (h : ∀ e ∈ act, LoadMeets s n key addr pa cause e) :
    (act.map (partOf s n addr)).filter Placed.faulted = (act.filter fun e => (cause e).isSome).map (partOf s n addr) ∧
    (act.map (partOf s n addr)).filter (fun p => !p.faulted) = (act.filter fun e => (cause e).isNone).map (partOf s n addr) := by
  rw [List.filter_map, List.filter_map]
  refine ⟨congrArg _ (List.filter_congr fun e he => (h e he).faulted), congrArg _ (List.filter_congr fun e he => ?_)⟩
  show (!(partOf s n addr e).faulted) = _
  rw [(h e he).faulted, Option.not_isSome]

/-! What is loaded. -/

theorem touch_settled (settled : Settled s s.tr.core) (acc : Acc) (a : Word) : s.touch acc a = s := by
  have no : (s.core s.tr.core).tlb.any (fun t => entMig t.ent.toNat == 1) = false := by
    rw [List.any_eq_false]
    intro t ht
    simpa [entMig] using settled.1 t ht
  unfold State.touch
  split
  · rw [no]
    rfl
  · rfl

theorem loadOps_parts (settled : Settled s s.tr.core) {es : List Nat}
    (h : ∀ e ∈ es, LoadMeets s n key addr pa cause e ∧ cause e = none) (seen : List (Nat × Nat)) :
    loadOps (es.map (partOf s n addr)) ⟨s, seen, false⟩ =
      (es.map fun e => ([e], [(numberAt s (pa e) n key, physQuality s (pa e) n != .clean)]), ⟨s, seen, false⟩) := by
  induction es with
  | nil => rfl
  | cons e t ih =>
    obtain ⟨meets, hc⟩ := h e (by simp)
    obtain ⟨-, frame, found⟩ := meets.here hc
    have one : loadSub (accKey (partOf s n addr e) 0) ⟨s, seen, false⟩ (addr e, n, .here (pa e) key frame) =
        ((numberAt s (pa e) n key, physQuality s (pa e) n != .clean), ⟨s, seen, false⟩) := by
      simp only [loadSub, Logged.touch, touch_settled settled, Bool.false_eq_true, if_false]
      rfl
    have subs : (partOf s n addr e).subs = [(addr e, n, .here (pa e) key frame)] := by rw [partOf, found]
    simp only [List.map_cons, loadOps, subs, loadSubs, one, ih fun d hd => h d (by simp [hd])]
    rfl

/-! The record of a batch (R282). -/

/-- The 64 KiB granule of an address. -/
def granuleOf (a : Word) : Nat := a.toNat / 65536 * 65536

/-- The granules of faulting elements with their causes, as a batch gathers them. -/
def batchGranules (addr : Nat → Word) (cause : Nat → Option Nat) (left : List Nat) : List (Nat × Nat) :=
  left.foldl (fun acc e => if acc.any (fun p => p.1 == granuleOf (addr e)) then acc
    else acc ++ [(granuleOf (addr e), (cause e).getD 0)]) []

theorem batchGranules_append (left : List Nat) (e : Nat) : batchGranules addr cause (left ++ [e]) =
    if (batchGranules addr cause left).any (fun p => p.1 == granuleOf (addr e)) then batchGranules addr cause left
    else batchGranules addr cause left ++ [(granuleOf (addr e), (cause e).getD 0)] := by
  rw [batchGranules, List.foldl_append]
  rfl

theorem batchGranules_cover (left : List Nat) (g : Nat) :
    (∃ p ∈ batchGranules addr cause left, p.1 = g) ↔ ∃ e ∈ left, granuleOf (addr e) = g := by
  induction left using List.reverseRecOn generalizing g with
  | nil => simp [batchGranules]
  | append_singleton left e ih =>
    have both : (∃ d ∈ left ++ [e], granuleOf (addr d) = g) ↔ (∃ d ∈ left, granuleOf (addr d) = g) ∨ granuleOf (addr e) = g := by
      simp [or_and_right, exists_or]
    rw [batchGranules_append, both, ← ih]
    split
    · next h =>
      rw [List.any_eq_true] at h
      obtain ⟨p, hp, hg⟩ := h
      exact ⟨.inl, fun h => h.elim id fun h => ⟨p, hp, (beq_iff_eq.mp hg).trans h⟩⟩
    · simp [or_and_right, exists_or]

/-- Each granule stands once, with the cause of its lowest element. -/
theorem batchGranules_lowest {left : List Nat} (sorted : left.Pairwise (· < ·)) (faults : ∀ e ∈ left, (cause e).isSome) :
    ((batchGranules addr cause left).map (·.1)).Nodup ∧ ∀ g k, (g, k) ∈ batchGranules addr cause left ↔
      ∃ e ∈ left, granuleOf (addr e) = g ∧ cause e = some k ∧ ∀ d ∈ left, d < e → granuleOf (addr d) ≠ g := by
  induction left using List.reverseRecOn with
  | nil => simp [batchGranules]
  | append_singleton left e ih =>
    obtain ⟨sorted, -, below⟩ := List.pairwise_append.mp sorted
    obtain ⟨distinct, lowest⟩ := ih sorted fun d hd => faults d (by simp [hd])
    have below : ∀ d ∈ left, d < e := fun d hd => below d hd e (by simp)
    obtain ⟨c, hc⟩ := Option.isSome_iff_exists.mp (faults e (by simp))
    have split_last : ∀ g k, (∃ d ∈ left ++ [e], granuleOf (addr d) = g ∧ cause d = some k ∧
          ∀ b ∈ left ++ [e], b < d → granuleOf (addr b) ≠ g) ↔
        (g, k) ∈ batchGranules addr cause left ∨ (granuleOf (addr e) = g ∧ c = k ∧ ∀ b ∈ left, granuleOf (addr b) ≠ g) := by
      intro g k
      rw [lowest]
      constructor
      · rintro ⟨d, hd, hg, hk, least⟩
        rcases List.mem_append.mp hd with hd | hd
        · exact .inl ⟨d, hd, hg, hk, fun b hb => least b (by simp [hb])⟩
        · rw [List.mem_singleton] at hd
          subst hd
          exact .inr ⟨hg, by simpa [hc] using hk, fun b hb => least b (by simp [hb]) (below b hb)⟩
      · rintro (⟨d, hd, hg, hk, least⟩ | ⟨hg, hk, least⟩)
        · refine ⟨d, by simp [hd], hg, hk, fun b hb hlt => ?_⟩
          rcases List.mem_append.mp hb with hb | hb
          · exact least b hb hlt
          · rw [List.mem_singleton] at hb
            have := below d hd
            omega
        · refine ⟨e, by simp, hg, by rw [hc, hk], fun b hb hlt => ?_⟩
          rcases List.mem_append.mp hb with hb | hb
          · exact least b hb
          · rw [List.mem_singleton] at hb
            omega
    have seen : (batchGranules addr cause left).any (fun p => p.1 == granuleOf (addr e)) = true ↔
        ∃ b ∈ left, granuleOf (addr b) = granuleOf (addr e) := by
      rw [← batchGranules_cover (cause := cause)]
      simp
    rw [batchGranules_append]
    split
    · next h =>
      refine ⟨distinct, fun g k => Iff.trans ⟨.inl, fun h' => h'.elim id ?_⟩ (split_last g k).symm⟩
      rintro ⟨rfl, -, least⟩
      obtain ⟨b, hb, hg⟩ := seen.mp h
      exact absurd hg (least b hb)
    · next h =>
      rw [seen] at h
      refine ⟨?_, fun g k => ?_⟩
      · rw [List.map_append, List.nodup_append]
        refine ⟨distinct, by simp, fun x hx y hy => ?_⟩
        obtain ⟨p, hp, rfl⟩ := List.mem_map.mp hx
        rw [List.map_singleton, List.mem_singleton] at hy
        intro hxy
        exact h ((batchGranules_cover (cause := cause) left _).mp ⟨p, hp, hxy.trans hy⟩)
      · rw [split_last, List.mem_append, List.mem_singleton, hc]
        refine or_congr Iff.rfl ⟨fun h' => ?_, fun ⟨hg, hk, _⟩ => by rw [hg, hk]; rfl⟩
        obtain ⟨rfl, rfl⟩ := Prod.mk.inj h'
        exact ⟨rfl, rfl, fun b hb hg => h ⟨b, hb, hg⟩⟩

/-- The fault of an access: its granule, its cause and its address. -/
def faultOf (x : Word × Nat × Loc) : Option (Nat × Nat × Word) :=
  match x.2.2 with
  | .fault c => some (granuleOf x.1, c, x.1)
  | _ => none

theorem faults_parts {left : List Nat} (h : ∀ e ∈ left, LoadMeets s n key addr pa cause e ∧ (cause e).isSome) :
    ((left.map (partOf s n addr)).flatMap fun p => p.subs.filterMap faultOf) =
      left.map fun e => (granuleOf (addr e), (cause e).getD 0, addr e) := by
  induction left with
  | nil => rfl
  | cons e t ih =>
    obtain ⟨meets, some⟩ := h e (by simp)
    obtain ⟨k, hk⟩ := Option.isSome_iff_exists.mp some
    have one : (partOf s n addr e).subs.filterMap faultOf = [(granuleOf (addr e), k, addr e)] := by
      rw [partOf, meets.fault hk]
      rfl
    rw [List.map_cons, List.flatMap_cons, one, ih fun d hd => h d (by simp [hd]), List.map_cons, hk]
    rfl

theorem batchPost_parts {e0 : Nat} {more : List Nat}
    (h : ∀ e ∈ e0 :: more, LoadMeets s n key addr pa cause e ∧ (cause e).isSome) : batchPost s ((e0 :: more).map (partOf s n addr)) =
      { cls := 4, sub := (cause e0).getD 0, elem := e0, faddr := addr e0, npage := (batchGranules addr cause (e0 :: more)).length,
        pages := (batchGranules addr cause (e0 :: more)).take 16, resume := s.th.pc, reissue := true } := by
  have gathered : batchPost s ((e0 :: more).map (partOf s n addr)) =
      let subs := ((e0 :: more).map (partOf s n addr)).flatMap fun p => p.subs.filterMap faultOf
      let pages := subs.foldl (fun (acc : List (Nat × Nat)) x => if acc.any (fun p => p.1 == x.1) then acc else acc ++ [(x.1, x.2.1)]) []
      { cls := cPGFAULT, sub := (subs.headD (0, 0, 0)).2.1, elem := e0, faddr := (subs.headD (0, 0, 0)).2.2, npage := pages.length,
        pages := pages.take 16, resume := s.th.pc, reissue := true } := rfl
  rw [gathered, faults_parts h]
  simp only [List.foldl_map]
  rfl

end

end Sys2Proof.Machine
end

section
namespace Sys2Proof.Machine

/-! The end of a batched vector load (R282): what it loaded stands, m15 has the others, and the triad enters its handler. -/

/-! Bits of m15. -/

theorem testBit_setBits (b : Bits) (n : Nat) (g : Nat → Bool) (i : Nat) :
    (((nrange 0 n).map fun e => (e, g e)).foldl (fun b r => setBit b r.1 r.2) b).testBit i = if i < n then g i else b.testBit i := by
  induction n with
  | zero => rfl
  | succ n ih =>
    rw [nrange_zero_succ, List.map_append, List.foldl_append]
    show (setBit _ n (g n)).testBit i = _
    rw [setBit, testBit_setBitsAt, ih]
    by_cases hi : i = n
    · subst hi
      cases g i <;> simp
    · rw [if_neg (by omega)]
      exact if_congr (by omega) rfl rfl

theorem maskBit_setM15 (v : VecState) {vl e : Nat} (h : e < vl) (left : List Nat) : (v.setM15 vl left).maskBit 15 e = left.contains e := by
  unfold VecState.maskBit VecState.setM15 VecState.putMask
  simp only [tget_tset_same, testBit_setBits, if_pos h]
  rfl

theorem mask_setM15 (v : VecState) (vl : Nat) (left : List Nat) {k : Nat} (h : k < 15) : (v.setM15 vl left).mask k = v.mask k := by
  unfold VecState.mask VecState.setM15 VecState.putMask
  rw [tget_tset_ne _ (by omega)]

/-! What holds of elements in one order holds in another. -/

theorem Elementwise.reorder {v v' : VecState} {act es : List Nat} {reads : List Opnd} {dst : Opnd} {g w : Nat} {val : Nat → Nat → Nat}
    {pois : Nat → Nat → Bool} (h : Elementwise v v' es reads dst g w val pois) (same : ∀ e, e ∈ es ↔ e ∈ act) :
    Elementwise v v' act reads dst g w val pois := by
  obtain ⟨result, poison, entry, registers, rings, rest⟩ := h
  simp only [egPoison, same] at result poison entry
  exact ⟨result, poison, entry, registers, rings, rest⟩

/-- The events that single elements raise, taken in any order. -/
theorem eventsOf_fold {es act : List Nat} (same : ∀ e, e ∈ es ↔ e ∈ act) (raised : Nat → Ev) :
    EventsOf (Evs.none.join (es.foldl (fun a e => a.add (raised e) e) Evs.none)) 1 0 act fun _ e => raised e := by
  have collected : ∀ c, c < 6 → Collects (es.foldl (fun a e => a.add (raised e) e) Evs.none)
      (raisedOf 1 es (fun _ e => (0, raised e, false)) fun j e => j * 0 + e) c := fun c hc => by
    have := Collects.fold hc (es.map fun e => (e, raised e)) [] _ collects_nil
    rw [List.foldl_map] at this
    simpa [raisedOf, nrange] using this
  have events := eventsOf_collects collected
  obtain ⟨jev, jix⟩ := join_none (es.foldl (fun a e => a.add (raised e) e) Evs.none)
  intro c hc
  rw [jev, jix c hc]
  have := events c hc
  simpa only [same, Bool.false_eq_true, if_false] using this

/-! The load. -/

section
variable {s : State} {f : FmtM} {key : Nat} {addr : Nat → Word} {pa : Nat → Nat} {cause : Nat → Option Nat}

/-- The element that a load takes from memory. -/
def loadedAt (s : State) (f : FmtM) (key : Nat) (pa : Nat → Nat) (e : Nat) : Nat × Ev :=
  fillConv (2 ^ segWm f) (2 ^ segWr f) (segS f) (numberAt s (pa e) (2 ^ segWm f) key)

/-- Whether the memory of an element is poisoned or uncorrectable. -/
def badAt (s : State) (f : FmtM) (pa : Nat → Nat) (e : Nat) : Bool := physQuality s (pa e) (2 ^ segWm f) != .clean

/-- The results of a load of single elements. -/
def loadPuts (s : State) (f : FmtM) (key : Nat) (pa : Nat → Nat) (es : List Nat) : List Put :=
  es.map fun e => ⟨e, (loadedAt s f key pa e).1, badAt s f pa e⟩

/-- The events that the elements of a load raise: a poisoned one raises none. -/
def loadEvs (s : State) (f : FmtM) (key : Nat) (pa : Nat → Nat) (es : List Nat) : Evs :=
  es.foldl (fun a e => a.add (if badAt s f pa e then 0 else (loadedAt s f key pa e).2) e) Evs.none

/-- The record of a batch whose lowest element is e0. -/
def batchRecord (s : State) (addr : Nat → Word) (cause : Nat → Option Nat) (e0 : Nat) (more cnt : List Nat) (ev : Evs) : TrapPost :=
  { cls := 4, sub := (cause e0).getD 0, elem := e0, faddr := addr e0, resume := s.th.pc, reissue := true,
    npage := (batchGranules addr cause (e0 :: more)).length, pages := (batchGranules addr cause (e0 :: more)).take 16, cnt := cnt,
    held := ev.ev, hix := ev.ix }

theorem es_parts (l : List Nat) (n : Nat) : (l.map (partOf s n addr)).flatMap (·.es) = l := by
  rw [List.flatMap_map]
  exact List.flatMap_singleton' l

theorem memEnd_batch (l : Logged) (p : TrapPost) (left : List Nat) (reads : List Opnd) (e : Evs) (hr : l.s.th.resume = none) :
    State.memEnd l (.done (some (p, left))) reads e = (l.s.modVec fun v => v.setM15 l.s.th.vl left).raise
      { p with held := (Evs.none.join e).ev, hix := (Evs.none.join e).ix } := by
  have held : l.s.heldEvs = Evs.none := by rw [State.heldEvs, hr]
  simp only [State.memEnd, held]

theorem memLoad_batched {act : List Nat} {e0 : Nat} {more : List Nat} (unordered : f.o = 0#1) (quiet : s.quiet)
    (settled : Settled s s.tr.core) (meets : ∀ e ∈ act, LoadMeets s (2 ^ segWm f) key addr pa cause e)
    (left : act.filter (fun e => (cause e).isSome) = e0 :: more) (k w : Nat) :
    ∃ es cnt : List Nat, es.Perm (act.filter fun e => (cause e).isNone) ∧ s.memLoad f (.reg k) 1 w w act addr =
      ((s.modVec fun v => v.putOp (.reg k) 0 w (loadPuts s f key pa es)).modVec fun v => v.setM15 s.th.vl (e0 :: more)).raise
        (batchRecord s addr cause e0 more cnt (Evs.none.join (loadEvs s f key pa es))) := by
  obtain ⟨faults, good⟩ := filter_parts meets
  rw [left] at faults
  have ops : (act.map fun e => (⟨[e], (nrange 0 1).map fun k => (addr e + BitVec.ofNat 64 (k * wmBytes f), wmBytes f)⟩ : MOp)) =
      act.map fun e => ⟨[e], [(addr e, 2 ^ segWm f)]⟩ := by
    refine List.map_congr_left fun e _ => ?_
    simp [nrange, wmBytes]
  obtain ⟨perf, cnt, perm, plan⟩ := vPlan_batched (m := s.manner f .ld w) rfl (by simp [State.manner, unordered]) rfl quiet.2.2
    (ops := act.map fun e => ⟨[e], [(addr e, 2 ^ segWm f)]⟩) (ps := act.map (partOf s (2 ^ segWm f) addr))
    (fun p hp x hx => by
      obtain ⟨e, he, rfl⟩ := List.mem_map.mp hp
      rw [List.mem_singleton.mp hx]
      exact (meets e he).sound _)
    (locateOps_parts meets)
    (fun p hp => by
      obtain ⟨e, he, rfl⟩ := List.mem_map.mp hp
      exact (meets e he).isLocal)
    (by rw [faults]; simp) (s.execEgs f.m w)
  rw [good] at perm
  have bad : ∀ e ∈ e0 :: more, LoadMeets s (2 ^ segWm f) key addr pa cause e ∧ (cause e).isSome := fun e he => by
    rw [← left, List.mem_filter] at he
    exact ⟨meets e he.1, he.2⟩
  rw [faults, batchPost_parts bad] at plan
  obtain ⟨es, rfl, esPerm⟩ : ∃ es : List Nat, perf = es.map (partOf s (2 ^ segWm f) addr) ∧ es.Perm (act.filter fun e => (cause e).isNone) := by
    refine ⟨perf.map fun p => p.es.headD 0, ?_, ?_⟩
    · rw [List.map_map]
      refine (List.map_id perf).symm.trans (List.map_congr_left fun p hp => ?_)
      obtain ⟨e, -, rfl⟩ := List.mem_map.mp (perm.subset hp)
      rfl
    · have := perm.map fun p => p.es.headD 0
      rw [List.map_map] at this
      exact this.trans (.of_eq (List.map_id _))
  have loaded := loadOps_parts settled (es := es) (fun e he => by
    have := esPerm.subset he
    rw [List.mem_filter, Option.isNone_iff_eq_none] at this
    exact ⟨meets e this.1, this.2⟩) s.th.logged
  refine ⟨es, cnt, esPerm, ?_⟩
  unfold State.memLoad
  simp only [wmBytes] at ops ⊢
  simp only [ops, plan, State.logging, loaded, es_parts]
  rw [memEnd_batch _ _ _ _ _ quiet.2.1]
  simp only [List.map_map, List.foldl_map, Function.comp_def, List.map_cons, List.map_nil, List.foldl_cons, List.foldl_nil, List.headD_cons]
  rfl

end

end Sys2Proof.Machine
end

section
namespace Sys2Proof.Machine

/-! The batched unit-stride and strided loads (R182, R282). -/

theorem wrBits_facts (f : FmtM) : 0 < wrBits f ∧ wrBits f ∣ 2048 := by
  have h : segWr f < 4 := Nat.mod_lt _ (by decide)
  unfold wrBits wrBytes
  obtain h | h | h | h : segWr f = 0 ∨ segWr f = 1 ∨ segWr f = 2 ∨ segWr f = 3 := by omega
  all_goals rw [h]; decide

theorem slot_modVec_modVec (s : State) (g h : VecState → VecState) (k : Nat) : ((s.modVec g).modVec h).slot k =
    if k = s.tr.slotKey then { s.slot k with vec := h (g s.vec) } else s.slot k := by
  have key : (s.modVec g).tr.slotKey = s.tr.slotKey := rfl
  rw [State.modVec, State.slot_modSlot, key]
  by_cases hk : k = s.tr.slotKey
  · subst hk
    rw [if_pos rfl, if_pos rfl, State.modVec, State.slot_modSlot, if_pos rfl]
    rfl
  · rw [if_neg hk, if_neg hk, State.modVec, State.slot_modSlot, if_neg hk]

section
variable {s : State} {f : FmtM}

theorem stridedLoad_ready (ready : VectorReady s (f.scope.toNat != 4 && vDecode s.vec.cfg s.cur.role 1 [vField false f.v 1] [])
    (s.vlOk (wrBits f)) [] []) (quiet : s.quiet) (strided : Bool) :
    s.stridedLoad f false strided = s.memLoad f (.reg f.v.toNat) 1 (wrBits f) (wrBits f) (s.vec.active f.m.toNat s.th.vl) fun e =>
      s.memBase f + (if strided then 0 else s.x f.xs) + BitVec.ofNat 64 e * if strided then s.x f.xs else BitVec.ofNat 64 (2 ^ segWm f) := by
  obtain ⟨started, plain, decode, owns, dispatch, rings⟩ := ready
  have issue : VectorReady s (!scopeBank f.scope.toNat && true && vDecode s.vec.cfg s.cur.role 1 [vField false f.v 1] [])
      (true && s.vlOk (wrBits f)) [] [dataOpnd false f] := ⟨started, plain, by rw [Bool.and_true]; exact decode, owns, dispatch, rings⟩
  unfold State.stridedLoad State.memIssue
  simp only []
  rw [vIssue_ready issue, memActive_plain quiet.2.1]
  rfl

theorem exec_vld_ready (ready : VectorReady s (f.scope.toNat != 4 && vDecode s.vec.cfg s.cur.role 1 [vField false f.v 1] [])
    (s.vlOk (wrBits f)) [] []) (quiet : s.quiet) : exec (.vld f) s =
    .next (s.memLoad f (.reg f.v.toNat) 1 (wrBits f) (wrBits f) (s.vec.active f.m.toNat s.th.vl) fun e =>
      s.x f.xbase + f.imm16.signExtend 64 + s.x f.xs + BitVec.ofNat 64 e * BitVec.ofNat 64 (2 ^ segWm f)) :=
  congrArg Host.Outcome.next (stridedLoad_ready ready quiet false)

theorem exec_vlds_ready (ready : VectorReady s (f.scope.toNat != 4 && vDecode s.vec.cfg s.cur.role 1 [vField false f.v 1] [])
    (s.vlOk (wrBits f)) [] []) (quiet : s.quiet) : exec (.vlds f) s =
    .next (s.memLoad f (.reg f.v.toNat) 1 (wrBits f) (wrBits f) (s.vec.active f.m.toNat s.th.vl) fun e =>
      s.x f.xbase + f.imm16.signExtend 64 + BitVec.ofNat 64 e * s.x f.xs) := by
  have load := stridedLoad_ready ready quiet true
  simp only [if_true, add_zero] at load
  exact congrArg Host.Outcome.next load

theorem badAt_eq (pa : Nat → Nat) : badAt s f pa = fun e => decide (physQuality s (pa e) (2 ^ segWm f) ≠ .clean) := by
  funext e
  unfold badAt
  cases physQuality s (pa e) (2 ^ segWm f) <;> rfl

/-- The record of a batch lists each granule once, with the cause of its lowest element (R282). -/
theorem batchRecord_granules (s : State) {addr : Nat → Word} {cause : Nat → Option Nat} {act : List Nat} (sorted : act.Pairwise (· < ·))
    {e0 : Nat} {more : List Nat} (left : act.filter (fun e => (cause e).isSome) = e0 :: more) (cnt : List Nat) (ev : Evs) :
    let p := batchRecord s addr cause e0 more cnt ev
    ∃ gs : List (Nat × Nat), p.npage = gs.length ∧ p.pages = gs.take 16 ∧ (gs.map (·.1)).Nodup ∧
      ∀ g k, (g, k) ∈ gs ↔ ∃ e ∈ act.filter fun e => (cause e).isSome, (addr e).toNat / 65536 * 65536 = g ∧ cause e = some k ∧
        ∀ d ∈ act.filter fun e => (cause e).isSome, d < e → (addr d).toNat / 65536 * 65536 ≠ g := by
  rw [left]
  have faults : ∀ e ∈ e0 :: more, (cause e).isSome = true := fun e he => by
    rw [← left] at he
    exact (List.mem_filter.mp he).2
  obtain ⟨distinct, lowest⟩ := batchGranules_lowest (addr := addr) (left ▸ sorted.filter _) faults
  exact ⟨_, rfl, rfl, distinct, lowest⟩

/-- A load of single elements with translation faults enters the handler with the others loaded. -/
theorem enters_batched {i : Instr} {key : Nat} {addr : Nat → Word} {pa : Nat → Nat} {cause : Nat → Option Nat} {e0 : Nat}
    {more : List Nat} (unordered : f.o = 0#1) (quiet : s.quiet) (settled : Settled s s.tr.core) (width : s.vlOk (wrBits f) = true)
    (he : exec i s = .next (s.memLoad f (.reg f.v.toNat) 1 (wrBits f) (wrBits f) (s.vec.active f.m.toNat s.th.vl) addr))
    (meets : ∀ e ∈ s.vec.active f.m.toNat s.th.vl, LoadMeets s (2 ^ segWm f) key addr pa cause e)
    (hl : (s.vec.active f.m.toNat s.th.vl).filter (fun e => (cause e).isSome) = e0 :: more)
    (ok : Stoppable s s.cur.ctxn) (free : TrapFree s s.cur.ctxn) :
    let left := (s.vec.active f.m.toNat s.th.vl).filter fun e => (cause e).isSome
    let good := (s.vec.active f.m.toNat s.th.vl).filter fun e => (cause e).isNone
    Completes i s fun t => ∃ u v ev p, u = { s with slots := u.slots } ∧
      u.slot s.tr.slotKey = { s.slot s.tr.slotKey with vec := v } ∧ (∀ k, k ≠ s.tr.slotKey → u.slot k = s.slot k) ∧
      (let bad := fun e => decide (physQuality s (pa e) (2 ^ segWm f) ≠ .clean)
       Elementwise s.vec { v with m := s.vec.m } good [] (.reg f.v.toNat) 1 (wrBits f) (fun _ e => (loadedAt s f key pa e).1)
          (fun _ e => bad e) ∧
       EventsOf ev 1 0 good fun _ e => if bad e then 0 else (loadedAt s f key pa e).2) ∧
      (∀ e, e < s.th.vl → (v.maskBit 15 e = true ↔ e ∈ left)) ∧ (∀ k, k < 15 → v.mask k = s.vec.mask k) ∧
      EntersHandler u t s.cur.ctxn s.cur.role (s.only p) ∧
      p = { cls := 4, sub := (cause e0).getD 0, elem := e0, faddr := addr e0, resume := s.th.pc, reissue := true, npage := p.npage,
            pages := p.pages, cnt := p.cnt, held := ev.ev, hix := ev.ix } ∧
      ∃ gs : List (Nat × Nat), p.npage = gs.length ∧ p.pages = gs.take 16 ∧ (gs.map (·.1)).Nodup ∧
        ∀ g k, (g, k) ∈ gs ↔ ∃ e ∈ left, (addr e).toNat / 65536 * 65536 = g ∧ cause e = some k ∧
          ∀ d ∈ left, d < e → (addr d).toNat / 65536 * 65536 ≠ g := by
  intro _ _
  obtain ⟨es, cnt, perm, loaded⟩ := memLoad_batched unordered quiet settled meets hl f.v.toNat (wrBits f)
  rw [loaded] at he
  have same : ∀ e, e ∈ es ↔ e ∈ (s.vec.active f.m.toNat s.th.vl).filter fun e => (cause e).isNone := fun e => perm.mem_iff
  obtain ⟨positive, divides⟩ := wrBits_facts f
  have elements := elementwise_putOp s.vec es [] (.reg f.v.toNat) (fun e => (loadedAt s f key pa e).1) (badAt s f pa) positive divides
    (perm.nodup_iff.mpr ((active_nodup _ _ _).filter _)) fun e h => by
      have := (same e).mp h
      rw [List.mem_filter, VecState.active, List.mem_filter, mem_nrange] at this
      exact egOf_lt width e (by omega)
  obtain ⟨v, hv⟩ : ∃ v, v = s.vec.putOp (.reg f.v.toNat) 0 (wrBits f) (loadPuts s f key pa es) := ⟨_, rfl⟩
  change Elementwise s.vec (s.vec.putOp (.reg f.v.toNat) 0 (wrBits f) (loadPuts s f key pa es)) es _ _ _ _ _ _ at elements
  rw [← hv] at elements
  obtain ⟨u, hu⟩ : ∃ u, u = (s.modVec fun v => v.putOp (.reg f.v.toNat) 0 (wrBits f) (loadPuts s f key pa es)).modVec fun v =>
      v.setM15 s.th.vl (e0 :: more) := ⟨_, rfl⟩
  have slots : ∀ k, u.slot k = if k = s.tr.slotKey then { s.slot k with vec := v.setM15 s.th.vl (e0 :: more) } else s.slot k := fun k => by
    rw [hu, slot_modVec_modVec, hv]
  have device : u = { s with slots := u.slots } := by rw [hu]; rfl
  rw [← hu] at he
  have rest : ({ v.setM15 s.th.vl (e0 :: more) with m := s.vec.m } : VecState) = v := by
    rw [← elements.rest.1]
    rfl
  refine ⟨_, he, u, v.setM15 s.th.vl (e0 :: more), Evs.none.join (loadEvs s f key pa es), batchRecord s addr cause e0 more cnt _, device,
    by rw [slots, if_pos rfl], fun k hk => by rw [slots, if_neg hk], ?_, fun e h => ?_, fun k hk => ?_, ?_, rfl, batchRecord_granules s (active_sorted _ _ _) hl cnt _⟩
  · rw [rest, ← badAt_eq]
    exact ⟨elements.reorder same, eventsOf_fold same _⟩
  · rw [maskBit_setM15 _ h, ← hl]
    exact List.contains_iff_mem
  · rw [mask_setM15 _ _ _ hk]
    exact congrArg (fun m => VecState.mask { s.vec with m := m } k) elements.rest.1
  · obtain ⟨started, number, bounded, plain, handler, area, near, unsealed, alone⟩ := ok
    obtain ⟨first, outside, untrapped⟩ := free
    have cur : u.cur = s.cur := by rw [device]
    have entered := entersHandler_raise (s := u) (p := batchRecord s addr cause e0 more cnt (Evs.none.join (loadEvs s f key pa es)))
      (by rw [device]; exact ⟨started, number, bounded, plain, handler, area, near, unsealed, alone⟩)
      (by rw [device]; exact ⟨first, outside, untrapped⟩)
    rw [cur] at entered
    exact entered

end

end Sys2Proof.Machine
end

section
namespace Sys2Proof.Machine

/-! O48. -/

/-- Settles O48: an instruction that traps from a state raises its post there, and a post of a role of a triad that nothing keeps from its
handler is taken at once. -/
theorem trapsEnterTheHandler : Obligations.TrapsEnterTheHandler := by
  refine ⟨fun s hs => ?_, fun s hs => ?_, fun f s quiet unordered => ?_⟩
  · refine ⟨traps_trap hs, fun op pl => traps_at hs rfl, fun user => ?_, fun priv outside => ⟨fun f => traps_outside hs rfl priv outside,
      fun f => traps_outside hs rfl priv outside⟩, fun f => ⟨fun ha => ⟨traps_bc hs ha, traps_transfer hs rfl ha, fun hx => traps_loop hs hx ha⟩,
      fun ha => ⟨traps_transfer hs rfl ha, traps_transfer hs rfl ha⟩, traps_loop_zero hs⟩,
      fun f hf => ⟨traps_ld hs hf, fun aligned cause u ok free => enters_pageFault hf aligned ok free⟩⟩
    exact ⟨fun f => traps_priv hs rfl user, fun f => traps_priv hs rfl user, fun f => traps_priv hs rfl user, fun f => traps_priv hs rfl user,
      fun f => traps_priv hs rfl user, fun f => traps_priv hs rfl user, fun f => traps_priv hs rfl user, fun f => traps_priv hs rfl user,
      fun f => traps_priv hs rfl user, fun f hn => ⟨traps_sy hs rfl user hn, traps_sy hs rfl user hn⟩, fun f => traps_priv hs rfl user,
      fun f => traps_priv hs rfl user, fun f => traps_priv hs rfl user, fun f => traps_priv hs rfl user, fun f => traps_priv hs rfl user⟩
  · refine ⟨fun plain foreign => ⟨fun f => enters_at (exec_vcfg_foreign foreign f), fun f hf => ?_, fun m hm cont => ⟨fun f =>
        ⟨enters_at (exec_bsync_foreign foreign f hm cont), fun hf => enters_at (exec_vfbar_foreign foreign hf hm cont)⟩,
        fun computer f => enters_at (exec_vfetch_foreign foreign f computer hm cont)⟩⟩,
      fun f => ⟨fun unaligned => enters_at (exec_ldw_unaligned unaligned), fun aligned unbound => enters_at (exec_ldw_unbound aligned unbound)⟩,
      fun f u pa key frame hf found => ?_, fun f u pa key frame hf found unsealed => ⟨fun bad => ?_, fun bad => ?_⟩,
      fun f e es at_ quiet hf act aligned found sound unnamed clean ready => ?_, fun f computer ok free => ?_⟩
    · exact ⟨fun dec => ⟨enters_memIssue rfl plain foreign hf dec, enters_memIssue rfl plain foreign hf dec⟩,
        fun dec => ⟨enters_memIssue rfl plain foreign hf dec, enters_memIssue rfl plain foreign hf dec⟩⟩
    · obtain ⟨poisoned, uncorrectable⟩ := loadBytes_bad found
      exact ⟨fun bad => enters_after found.found (exec_ld_stop hf (poisoned bad)),
        fun bad => enters_after found.found (exec_ld_stop hf (uncorrectable bad))⟩
    · exact ⟨fun ok free => (enters_atomic (exec_amo hf) found unsealed ok free).1 bad,
        fun ok free => (enters_atomic (exec_cas hf) found unsealed ok free).1 bad⟩
    · exact ⟨fun ok free => (enters_atomic (exec_amo hf) found unsealed ok free).2 bad,
        fun ok free => (enters_atomic (exec_cas hf) found unsealed ok free).2 bad⟩
    · have traps := meshLoad_unnamed quiet hf act aligned found sound unnamed clean ready
      exact ⟨enters_at (congrArg Host.Outcome.next (traps false)), enters_at (congrArg Host.Outcome.next (traps true))⟩
    · exact ⟨enters_fpRound rfl computer ok free, enters_fpRound rfl computer ok free, enters_fpRound rfl computer ok free,
        enters_fpRound rfl computer ok free, enters_fpRound rfl computer ok free, enters_fpRound rfl computer ok free⟩
  · exact ⟨fun pa key cause e0 more meets hl settled ready ok free =>
        enters_batched unordered quiet settled ready.dispatch (exec_vld_ready ready quiet) meets hl ok free,
      fun pa key cause e0 more meets hl settled ready ok free =>
        enters_batched unordered quiet settled ready.dispatch (exec_vlds_ready ready quiet) meets hl ok free⟩

end Sys2Proof.Machine
end

section
namespace Sys2Proof.Machine

/-! One change of the current thread after another. -/

@[simp] theorem Triad.setRole_setRole (t : Triad) (r : Role) (v w : RoleState) : (t.setRole r v).setRole r w = t.setRole r w := by
  cases r <;> rfl

theorem OnlyThread.trans {s t u : State} (h : OnlyThread s t) (k : OnlyThread t u) : OnlyThread s u where
  toOnlyTriad := h.toOnlyTriad.trans k.toOnlyTriad
  triad := by rw [k.triad, h.triad, h.toOnlyTriad.cur, Triad.setRole_setRole]

/-! Conditions, links and the words of a block (R61, R62, R67, R125). -/

/-- A condition between the low bits of two registers, as the model evaluates it on numbers. -/
theorem condHolds_iff (t : BitVec 4) (c : Nat) (a b : Word) :
    condHolds c (tWidth t) a.toNat b.toNat = true ↔ holdsAt t c (lowOf t a) (lowOf t b) := by
  have low (v : Word) : v.toNat % 2 ^ tWidth t = (lowOf t v).toNat := (BitVec.toNat_setWidth ..).symm
  have signed (v : Word) : sextNat (tWidth t) (lowOf t v).toNat = (lowOf t v).toInt := by
    rw [sextNat_eq _ _ (tWidth_bounds t).1, BitVec.ofNat_toNat, BitVec.setWidth_eq]
  unfold condHolds holdsAt
  simp only [low]
  split
  · simp [BitVec.toNat_inj]
  · simp [BitVec.toNat_inj]
  · simp [signed]
  · simp [signed]
  · simp
  · simp
  · simp

theorem blockAligned_iff (a : Word) : blockAligned a = true ↔ a.toNat % 128 = 0 := beq_iff_eq

/-- `setX`, then `goto`: the register is written, the thread goes on at the target, and nothing else changes. -/
theorem links (s : State) (d : BitVec 6) (v a : Word) (h : s.Started) :
    OnlyThread s ((s.setX d v).goto a) ∧ StandsAt s ((s.setX d v).goto a) a [d] ∧
      ((s.setX d v).goto a).x d = if d = 0#6 then 0 else v := by
  have h' : (s.setX d v).Started := started_modTh _ h
  have th : ((s.setX d v).goto a).th = (s.th.setXr d.toNat v).goto a := by
    rw [State.goto_th _ a h']
    exact congrArg (·.goto a) (s.th_modTh _ h)
  have z (n : BitVec 6) (hn : n ≠ d) : n.toNat ≠ d.toNat := fun e => hn (BitVec.eq_of_toNat_eq e)
  refine ⟨(onlyThread_modTh s _ h).trans (onlyThread_modTh _ _ h'), ⟨?_, fun n hn => ?_, ?_⟩, ?_⟩
  · rw [th]; rfl
  · simp [State.x, th, z n (by simpa using hn)]
  · rw [th]
    by_cases hd : d.toNat = 0 <;> simp [RoleState.goto, RoleState.settle, RoleState.setXr, hd]
  · by_cases hd : d = 0#6
    · subst hd; simp
    · simp [State.x, th, hd, show d.toNat ≠ 0 from fun e => hd (BitVec.eq_of_toNat_eq e)]

section
variable {s : State} {f : FmtJ}

theorem transfer_aligned {a : Word} (ha : a.toNat % 128 = 0) (k : State → State) : s.transfer a k = (k s).goto a :=
  if_pos ((blockAligned_iff a).mpr ha)

theorem exec_bc_aligned (ha : (s.target f).toNat % 128 = 0) :
    exec (.bc f) s = .next (if condHolds f.cond.toNat 64 (s.x f.xa).toNat (s.x f.xb).toNat then s.goto (s.target f) else s.advance) := by
  show execBc f s = _
  simp [execBc, (blockAligned_iff _).mpr ha]

theorem exec_bal_aligned (ha : (s.target f).toNat % 128 = 0) :
    exec (.bal f) s = .next ((s.setX f.xa (nextBlock s.th.pc)).goto (s.target f)) :=
  congrArg Host.Outcome.next (transfer_aligned ha _)

theorem exec_jr_aligned (ha : (s.x f.xa + dispBytes f.disp40).toNat % 128 = 0) :
    exec (.jr f) s = .next (s.goto (s.x f.xa + dispBytes f.disp40)) :=
  congrArg Host.Outcome.next (transfer_aligned ha _)

theorem exec_jalr_aligned (ha : (s.x f.xa + dispBytes f.disp40).toNat % 128 = 0) :
    exec (.jalr f) s = .next ((s.setX f.xb (nextBlock s.th.pc)).goto (s.x f.xa + dispBytes f.disp40)) :=
  congrArg Host.Outcome.next (transfer_aligned ha _)

/-- LOOP with a counter: back to the target until the new count is 0. -/
theorem exec_loop_aligned (hd : f.xa ≠ 0#6) (ha : (s.target f).toNat % 128 = 0) :
    exec (.loop f) s = .next (if s.x f.xa = 1 then s.done f.xa 0 else (s.setX f.xa (s.x f.xa - 1)).goto (s.target f)) := by
  have aligned : ¬ (!blockAligned (s.target f)) = true := by rw [(blockAligned_iff _).mpr ha]; decide
  show execLoop f s = _
  rw [execLoop, if_neg hd, if_neg aligned]
  by_cases one : s.x f.xa = 1
  · rw [if_pos one, one]
    rfl
  · have left : s.x f.xa - 1#64 ≠ 0 := fun e => one (by bv_omega)
    exact congrArg _ ((if_pos left).trans (if_neg one).symm)

end

section
variable {r : RoleState} {k : Nat}

/-- The place in its block of a word that stands k words above the block's boundary. -/
theorem index_of_pc (hk : k < 16) (hp : r.pc = r.blkBase + BitVec.ofNat 64 (8 * k)) : (r.pc - r.blkBase).toNat / 8 = k := by
  have : r.pc - r.blkBase = BitVec.ofNat 64 (8 * k) := by rw [hp]; bv_omega
  rw [this, BitVec.toNat_ofNat]
  omega

/-- The block above a word of the block at a 128-byte boundary. -/
theorem nextBlock_of_pc {b : Word} (hb : b.toNat % 128 = 0) (hk : k < 16) :
    nextBlock (b + BitVec.ofNat 64 (8 * k)) = b + 128#64 := by
  have inside : (b + BitVec.ofNat 64 (8 * k)) / 128#64 = b / 128#64 := by
    apply BitVec.eq_of_toNat_eq
    simp only [BitVec.toNat_udiv, BitVec.toNat_add, BitVec.toNat_ofNat, Nat.reducePow, Nat.reduceMod]
    omega
  apply BitVec.eq_of_toNat_eq
  simp only [nextBlock, inside, BitVec.toNat_mul, BitVec.toNat_add, BitVec.toNat_udiv, BitVec.toNat_ofNat, Nat.reducePow, Nat.reduceMod]
  omega

theorem lastWord_of_index (h : (r.pc - r.blkBase).toNat / 8 = k) : r.lastWord = decide (r.blk.length ≤ k + 1) := by
  rw [RoleState.lastWord, h]

theorem advance_in_block (hk : k < 16) (hp : r.pc = r.blkBase + BitVec.ofNat 64 (8 * k)) (inside : k + 1 < r.blk.length) :
    r.successor = r.blkBase + BitVec.ofNat 64 (8 * (k + 1)) ∧ r.advance.blk = r.blk := by
  have last : r.lastWord = false := by rw [lastWord_of_index (index_of_pc hk hp)]; simpa using inside
  refine ⟨?_, by simp [RoleState.advance, last]⟩
  rw [RoleState.successor, last, if_neg Bool.false_ne_true, hp]
  bv_omega

theorem advance_past_block (hb : r.blkBase.toNat % 128 = 0) (hk : k < 16) (hp : r.pc = r.blkBase + BitVec.ofNat 64 (8 * k))
    (atEnd : k + 1 = r.blk.length) : r.successor = r.blkBase + 128#64 ∧ r.advance.blk = [] := by
  have last : r.lastWord = true := by rw [lastWord_of_index (index_of_pc hk hp)]; simp [atEnd]
  refine ⟨?_, by simp [RoleState.advance, last]⟩
  rw [RoleState.successor, last, if_pos rfl, hp, nextBlock_of_pc hb hk]

end

/-- Settles O6: each transfer is a register write, or none, and a `goto` or an `advance`. -/
theorem controlTransfers : Obligations.ControlTransfers := by
  unfold Obligations.ControlTransfers
  refine ⟨fun f s hs => ⟨fun plain y => ⟨_, ?nop, advances s hs⟩, fun ha => ⟨fun hc => ⟨_, ?taken, goes s _ hs⟩,
    fun hc => ⟨_, ?fallen, advances s hs⟩, ⟨_, exec_bal_aligned ha, links s _ _ _ hs⟩, fun hd hx => ⟨_, ?again, links s _ _ _ hs⟩,
    fun hd hx => ?through⟩, fun ha => ⟨⟨_, exec_jr_aligned ha, goes s _ hs⟩, ⟨_, exec_jalr_aligned ha, links s _ _ _ hs⟩⟩⟩,
    fun r k hb hk hl hp => ⟨fun inside => advance_in_block (by omega) hp inside, fun atEnd => advance_past_block hb (by omega) hp atEnd⟩⟩
  case nop =>
    show execNop y s = _
    rw [execNop, plain]
  case taken => exact (exec_bc_aligned ha).trans (congrArg _ (if_pos ((condHolds_iff 3#4 _ _ _).mpr hc)))
  case fallen => exact (exec_bc_aligned ha).trans (congrArg _ (if_neg fun h => hc ((condHolds_iff 3#4 _ _ _).mp h)))
  case again => exact (exec_loop_aligned hd ha).trans (congrArg _ (if_neg hx))
  case through =>
    have w := writes_done s f.xa 0 hs
    exact ⟨_, (exec_loop_aligned hd ha).trans (congrArg _ (if_pos hx)), w.toOnlyThread, w.toStandsAt, w.value⟩

end Sys2Proof.Machine
end

section
namespace Sys2Proof.Machine

/-! The words of a block (R61). -/

theorem length_lchunks_le {α : Type} (k n : Nat) (l : List α) : (lchunks k n l).length ≤ n := by
  induction n generalizing l with
  | zero => exact Nat.le_refl 0
  | succ n ih =>
    rw [lchunks]
    split
    · exact Nat.zero_le _
    · exact Nat.succ_le_succ (ih _)

theorem length_wordsOf_le (bs : List Byte) : (wordsOf bs).length ≤ 8 := by
  rw [wordsOf, List.length_map]
  exact length_lchunks_le 8 8 bs

/-- The words up to and with the first that carries E. -/
theorem upToE_some {l ws : List Word} (h : upToE l = some ws) :
    ∃ before w after, l = before ++ w :: after ∧ ws = before ++ [w] ∧ w.getLsbD 63 = true ∧ ∀ v ∈ before, v.getLsbD 63 = false := by
  induction l generalizing ws with
  | nil => cases h
  | cons v l ih =>
    rw [upToE] at h
    split at h
    case isTrue carries => exact ⟨[], v, l, rfl, (Option.some.inj h).symm, carries, by simp⟩
    case isFalse plain =>
      obtain ⟨ks, hks, rfl⟩ := Option.map_eq_some_iff.mp h
      obtain ⟨before, w, after, rfl, rfl, hw, hb⟩ := ih hks
      refine ⟨v :: before, w, after, rfl, rfl, hw, fun x hx => ?_⟩
      rcases List.mem_cons.mp hx with rfl | hx
      · simpa using plain
      · exact hb x hx

/-- A line holds eight words at most. -/
def CodeLine.Short (c : CodeLine) : Prop := ∀ ws, c = .ok ws → ws.length ≤ 8

theorem short_codeLine (s : State) (pa key : Nat) : (codeLine s pa key).Short := by
  intro ws h
  unfold codeLine at h
  split at h
  · cases h
  · cases h
  · injection h with h
    exact h ▸ length_wordsOf_le _

theorem short_farLine (s : State) (pa : Nat) : (farLine s pa).Short := by
  intro ws h
  unfold farLine at h
  split at h
  · cases h
  · injection h with h
    exact h ▸ length_wordsOf_le _

/-- A block that was fetched is the start of sixteen words up to E. -/
theorem blockOfLines_ok {a b : CodeLine} {ws : List Word} (ha : a.Short) (hb : b.Short) (h : blockOfLines a b = .ok ws) :
    ∃ l, l.length ≤ 16 ∧ upToE l = some ws := by
  unfold blockOfLines at h
  split at h
  · cases h
  next as =>
    have la := ha as rfl
    split at h
    next k hk =>
      injection h with h
      exact ⟨as, by omega, h ▸ hk⟩
    · split at h
      · cases h
      next bs =>
        have lb := hb bs rfl
        split at h
        next k hk =>
          injection h with h
          exact ⟨as ++ bs, by rw [List.length_append]; omega, h ▸ hk⟩
        · cases h

/-- A read of remote lines that the current thread asks for leaves its pc. -/
theorem askRun_thread {s : State} (hs : s.Started) (tag pa key lines slot : Nat) :
    (askRun s s.cur tag pa key lines slot).Started ∧ (askRun s s.cur tag pa key lines slot).th.pc = s.th.pc := by
  have kept (g : RoleState → RoleState) (hg : ∀ r, (g r).pc = r.pc) : (s.modTh g).Started ∧ (s.modTh g).th.pc = s.th.pc :=
    ⟨started_modTh g hs, by rw [s.th_modTh g hs, hg]⟩
  unfold askRun
  split
  · exact ⟨hs, rfl⟩
  · split
    · exact kept (fun r => { r with rbuf := _ }) fun _ => rfl
    · exact kept (fun r => { r with want := _ }) fun _ => rfl

/-- A block that was fetched, and the thread after the fetch (R61). -/
theorem fetchBlock_ok {s u : State} {base : Word} {ws : List Word} (hs : s.Started) (h : fetchBlock s base = (.ok ws, u)) :
    (∃ l, l.length ≤ 16 ∧ upToE l = some ws) ∧ u.Started ∧ u.th.pc = s.th.pc := by
  rcases found : locate s s.tr.core s.cred base .fetch true with ⟨loc, v⟩
  obtain ⟨cur, th, triads⟩ := locate_threads found
  have hv : v.Started := by
    unfold State.Started State.Has at *
    rw [cur, triads]
    exact hs
  rw [fetchBlock, found] at h
  cases loc with
  | fault c => cases h
  | denied frame => cases h
  | here pa key frame =>
    obtain ⟨ok, rfl⟩ := Prod.mk.inj h
    exact ⟨blockOfLines_ok (short_codeLine _ _ _) (short_codeLine _ _ _) ok, hv, by rw [th]⟩
  | far pa key =>
    obtain ⟨started, pc⟩ := askRun_thread hv v.tr.tag pa key 2 (pa / 64)
    simp only [] at h
    split at h
    · obtain ⟨ok, rfl⟩ := Prod.mk.inj h
      exact ⟨blockOfLines_ok (short_farLine _ _) (short_farLine _ _) ok, started, by rw [pc, th]⟩
    · cases h

/-- BLOCK_ENTRY of a block that was fetched and has a word at the pc. -/
theorem exec_blockEntry_ok {s u : State} {ws : List Word} (h : fetchBlock s (blockOf s.th.pc) = (.ok ws, u)) (pc : u.th.pc = s.th.pc)
    (inside : (s.th.pc - blockOf s.th.pc).toNat / 8 < ws.length) :
    exec .blockEntry s =
      .next (u.modTh fun r => { r with blkBase := blockOf s.th.pc, blk := ws, stall := none, rbuf := [], want := [] }) := by
  show execBlockEntry s = _
  simp only [execBlockEntry, h, pc, Nat.not_le.mpr inside, if_false]

/-! Roles that wait for what cannot come (R88, R91). -/

/-- A role that has ended, or that stalls neither at a VCFG nor at a ring. -/
def RoleState.WaitsForNoRole (r : RoleState) : Prop :=
  r.ended = true ∨ ((∀ w d, r.stall ≠ some (.vcfg w d)) ∧ ∀ q wr, r.stall ≠ some (.ring q wr))

theorem orphaned_none {s : State} {r : Role} (h : (s.tr.role r).WaitsForNoRole) : s.orphaned r = none := by
  simp only [State.orphaned]
  split
  · rfl
  next running =>
    obtain ⟨vcfg, ring⟩ := h.resolve_left running
    split
    next w d e => exact absurd e (vcfg w d)
    next q wr e => exact absurd e (ring q wr)
    · rfl

theorem takeTrap_none {s : State} {c : Nat} (h : (s.triad c).trapper = none) : takeTrap s c = s := by
  unfold takeTrap
  split
  · rfl
  next t found =>
    have : s.triad c = t := by rw [State.triad, tget, found]; rfl
    rw [← this, h]

theorem trapOrphans_none {s : State} (h : ∀ r, s.orphaned r = none) (calm : s.tr.trapper = none) : s.trapOrphans = s := by
  have none_traps : s.trapOrphans = takeTrap s s.cur.ctxn := by
    simp only [State.trapOrphans, roles, List.foldl_cons, List.foldl_nil, h]
  rw [none_traps, takeTrap_none calm]

/-- The state after an EXIT for which no role waits. -/
def State.roleEnds (s : State) : State := s.advance.modTh fun r => { r with ended := true }

theorem roleEnds_th {s : State} (hs : s.Started) : s.roleEnds.th = { s.th.advance with ended := true } := by
  rw [State.roleEnds, s.advance.th_modTh _ (started_modTh _ hs), s.advance_th hs]

theorem onlyThread_roleEnds {s : State} (hs : s.Started) : OnlyThread s s.roleEnds :=
  (advances s hs).1.trans (onlyThread_modTh _ _ (started_modTh _ hs))

theorem trapper_setRole (t : Triad) (r : Role) (v : RoleState) : (t.setRole r v).trapper = t.trapper := by cases r <;> rfl

theorem exec_exit_free {s : State} (hs : s.Started) (calm : s.tr.trapper = none)
    (free : ∀ r, r ≠ s.cur.role → (s.tr.role r).WaitsForNoRole) (y : FmtY) :
    exec (.exit y) s = .next s.roleEnds := by
  have tr := (onlyThread_roleEnds hs).triad
  refine congrArg Host.Outcome.next (trapOrphans_none (s := s.roleEnds) (fun r => orphaned_none ?_) ?_)
  · rw [tr]
    by_cases hr : r = s.cur.role
    · subst hr
      rw [Triad.role_setRole_same, roleEnds_th hs]
      exact .inl rfl
    · rw [Triad.role_setRole_ne _ hr]
      exact free r hr
  · rw [tr, trapper_setRole, calm]

/-- Settles O7: the words of `upToE` from at most two lines of eight, and an EXIT that orphans no role. -/
theorem blocksAreEnteredAndRolesEnd : Obligations.BlocksAreEnteredAndRolesEnd := by
  unfold Obligations.BlocksAreEnteredAndRolesEnd
  refine ⟨fun s u ws hs fetched inside => ?_, fun y s hs calm free => ⟨_, exec_exit_free hs calm free y, onlyThread_roleEnds hs, ?_⟩⟩
  · obtain ⟨⟨l, short, upTo⟩, hu, pc⟩ := fetchBlock_ok hs fetched
    obtain ⟨before, w, after, rfl, rfl, hw, hb⟩ := upToE_some upTo
    have th := u.th_modTh (fun r => { r with blkBase := blockOf s.th.pc, blk := before ++ [w], stall := none, rbuf := [], want := [] }) hu
    refine ⟨?_, fun v hv => ?_, ?_, ⟨_, exec_blockEntry_ok fetched pc inside, onlyThread_modTh u _ hu, ?_⟩⟩
    · simp only [List.length_append, List.length_cons, List.length_nil] at short ⊢
      omega
    · rw [List.getLast?_concat] at hv
      exact Option.some.inj hv ▸ hw
    · rw [List.dropLast_concat]
      exact hb
    · simp [State.x, th, RoleState.xr]
  · simp [State.x, roleEnds_th hs, RoleState.xr, RoleState.advance, RoleState.settle]

end Sys2Proof.Machine
end

section
namespace Sys2Proof.Machine

/-! The spec's example words (R60, R65, R66, R69). -/

/-- Settles O57, by decoding each word. -/
theorem specWordsDecode : Obligations.SpecWordsDecode := by
  unfold Obligations.SpecWordsDecode
  exact ⟨⟨rfl, rfl, rfl, rfl⟩, ⟨rfl, rfl, rfl, rfl⟩, ⟨rfl, rfl, rfl, rfl⟩, ⟨rfl, rfl, rfl, rfl⟩, ⟨rfl, rfl, rfl, rfl⟩,
    ⟨rfl, rfl, rfl, rfl⟩, ⟨rfl, rfl, rfl, rfl⟩, ⟨rfl, rfl, rfl, rfl⟩, ⟨rfl, rfl, rfl, rfl, rfl, rfl⟩⟩

end Sys2Proof.Machine
end

section
namespace Sys2Proof.Machine

/-! The step of a thread (R60, R61, R77). -/

theorem nextOf_ok {w : Word} {i : Instr} (h : decode w = .ok i) : nextOf w = .row i := by rw [nextOf, h]

theorem nextOf_error {w : Word} {r : Reject} (h : decode w = .error r) : nextOf w = .illop := by rw [nextOf, h]

/-- A thread that nothing holds up goes on with its word. -/
theorem threadNext_free {u : State} (hu : u.Started) (due : trapDue u = false) (live : u.tr.live u.cur.role = true)
    (free : u.th.stall = none) : threadNext u = wordNext u := by
  obtain ⟨t, found⟩ := Option.isSome_iff_exists.mp (show (tfind u.cur.ctxn u.triads).isSome = true from hu)
  have here : u.tr = t := by rw [State.tr, State.triad, tget, found]; rfl
  rw [here] at live
  simp [threadNext, found, due, live, free]

theorem runThread_row {u : State} {i : Instr} (h : threadNext u = .row i) : runThread u = (u, some i) := by rw [runThread, h]

theorem runThread_illop {u : State} (h : threadNext u = .illop) : runThread u = (u.trapIllop, none) := by rw [runThread, h]

theorem schedule_run {s : State} {t : Tid} {rest : List Pick} (h : s.agenda = .run t :: rest) :
    schedule s = runThread { s with agenda := rest, cur := t } := by
  rw [schedule, h]

theorem schedule_event {s : State} {i : Instr} {o : Occasion} {rest : List Pick} (h : s.agenda = .event i o :: rest) :
    schedule s = ({ s with agenda := rest, occ := o }, some i) := by
  rw [schedule, h]

theorem schedule_tick {s : State} {n : Nat} {rest : List Pick} (h : s.agenda = .tick n :: rest) :
    schedule s = ({ s with agenda := rest }.tick n, none) := by
  rw [schedule, h]

theorem schedule_sweep {s : State} {rest : List Pick} (h : s.agenda = .sweep :: rest) :
    schedule s = (sweepStep { s with agenda := rest }, none) := by
  rw [schedule, h]

/-- A thread's turn in the round, where it has no word for the vector unit and waits for nothing. -/
theorem turnOf_run {s u : State} {t : Tid} (e : u = { s with cur := t }) (plain : vectorReady u t = false) (free : u.th.stall = none) :
    turnOf s t = runThread u := by
  subst e
  simp [turnOf, plain, free]

/-- The first number of a range for which a test succeeds. -/
theorem find?_nrange {p : Nat → Bool} {a n k : Nat} (above : a ≤ k) (below : k < a + n) (holds : p k = true)
    (before : ∀ j, a ≤ j → j < k → p j = false) : (nrange a n).find? p = some k := by
  obtain ⟨i, rfl⟩ := Nat.exists_eq_add_of_le above
  obtain ⟨m, rfl⟩ : ∃ m, n = i + (1 + m) := ⟨n - i - 1, by omega⟩
  have cut : nrange a (i + (1 + m)) = nrange a i ++ (a + i) :: nrange (a + i + 1) m := by
    rw [nrange_append, nrange_append]
    rfl
  refine List.find?_eq_some_iff_append.mpr ⟨holds, _, _, cut, fun j hj => ?_⟩
  obtain ⟨low, high⟩ := mem_nrange.mp hj
  rw [before j low high]
  rfl

/-- The first member of the round that can happen, where it is a thread, takes its turn. -/
theorem pick_run {s v : State} {t : Tid} {k : Nat} (e : v = { s with slip := none }) (serves : serving s = true) (above : s.turn ≤ k)
    (here : (round v)[k]? = some (.run t)) (before : ∀ j p, s.turn ≤ j → j < k → (round v)[j]? = some p → ready v p = false)
    (can : ready v (.run t) = true) : pick s = turnOf { v with turn := k + 1 } t := by
  have all : members v = round v := if_pos (by rw [e]; exact serves)
  have inside := (List.getElem?_eq_some_iff.mp here).1
  have first : (nrange s.turn ((round v).length - s.turn)).find? (fun k => ((round v)[k]?).any (ready v)) = some k := by
    refine find?_nrange above (by omega) (by rw [here]; exact can) fun j low high => ?_
    cases hj : (round v)[j]? with
    | none => rfl
    | some p => exact before j p low high hj
  subst e
  simp only [pick, all, first, here]

theorem schedule_pick {s : State} (quiet : s.agenda = []) (on : s.io.power ≠ 2) : schedule s = pick s := by
  simp only [schedule, quiet, on, if_false]

theorem power_of_serving {s : State} (h : serving s = true) : s.io.power = 0 := by
  unfold serving at h
  simp only [Bool.and_eq_true, beq_iff_eq] at h
  exact h.2

/-! What the device does by itself (R380, R397). -/

theorem step_scheduled {s t : State} (h : schedule s = (t, none)) : step s = .next t := by rw [step, h]

theorem step_row {s t : State} {i : Instr} (h : schedule s = (t, some i)) : step s = exec i t := by rw [step, h]

/-- A write that is held for its acknowledgement: all that the port adds to it is its numbers and its integrity tag (R374, R375). -/
theorem sendHeld_replay (s : State) (r : Replay) : ∃ num w crc,
    (sendHeld s r).fab.replay = s.fab.replay ++ [{ r with num := num, txn := { r.txn with wseq := w, crc := crc } }] := by
  unfold sendHeld
  split
  · exact ⟨_, _, _, rfl⟩
  · exact ⟨_, _, _, rfl⟩

/-- The transaction that sends a whole line to the replica (R380). -/
def lineTxn (n slot : Nat) (pois : Bool) (bs : List Byte) : Txn :=
  { Txn.none with addr := 64 * n, key := slot, nbyte := 64, data := bs, ben := List.replicate 64 true,
                  pmask := if pois then [0] else [], origPort := noPort }

theorem shadowLines_line (s : State) (port slot n : Nat) (pois : Bool) {bs : List Byte} (h : bs.length = 64) :
    shadowLines s port slot pois 1 (64 * n) bs = shadowSend s port (lineTxn n slot pois bs) := by
  have some_bytes : bs.isEmpty = false := by cases bs <;> simp_all
  have whole : min bs.length (64 - 64 * n % 64) = 64 := by omega
  simp only [shadowLines, some_bytes, Bool.false_eq_true, if_false, whole, List.take_of_length_le (Nat.le_of_eq h), lineTxn]

/-- What the sweep has sent: line n, in its place in memory, to the port p (R380). -/
def SendsLine (s : State) (n p : Nat) (r : Replay) : Prop :=
  r.lcn = 128 ∧ r.owner = none ∧ r.txn.kind = 8 ∧ r.txn.dport = p ∧ r.txn.addr = 64 * n ∧ r.txn.key = lineSlot s n ∧
    r.txn.data = physRead s (64 * n) 64 (lineSlot s n) ∧ (r.txn.pmask = [] ↔ physQuality s (64 * n) 64 = .clean)

theorem sweepStep_sends {s : State} {n p : Nat} (at_ : s.fab.sweep = some n) (left : n < 2 ^ 33) (port : shadowPort s = some p) :
    sweepStep s = { s with fab := (sweepStep s).fab } ∧ (sweepStep s).fab.sweep = some (n + 1) ∧
      ∃ r, (sweepStep s).fab.replay = s.fab.replay ++ [r] ∧ SendsLine s n p r := by
  have line := shadowLines_line s p (lineSlot s n) n (physQuality s (64 * n) 64 != .clean) (length_physRead s (64 * n) 64 (lineSlot s n))
  have sends : sweepStep s = (shadowSend s p (lineTxn n (lineSlot s n) (physQuality s (64 * n) 64 != .clean)
      (physRead s (64 * n) 64 (lineSlot s n)))).modFab fun f => { f with sweep := some (n + 1) } := by
    simp only [sweepStep, at_, port, line, if_pos (show n < hbmLines from left)]
  rw [sends]
  obtain ⟨num, w, crc, replay⟩ := sendHeld_replay s (Replay.of shadowKey _)
  refine ⟨?_, rfl, _, replay, rfl, rfl, rfl, rfl, rfl, rfl, rfl, ?_⟩
  · rw [shadowSend_device]
    rfl
  · show (if physQuality s (64 * n) 64 != .clean then [0] else []) = [] ↔ _
    cases physQuality s (64 * n) 64 <;> decide

/-- Before service, where nothing is under way, time passes (R394, R398). -/
theorem pick_waits {s : State} (out : serving s = false) (on : s.io.power = 0) (stage : s.io.stage ≠ 4) :
    ∃ n, 0 < n ∧ pick s = ({ ({ s with slip := none }).tick n with turn := 0 }, none) := by
  have nothing : members { s with slip := none } = [] := by
    have out' : serving { s with slip := none } = false := out
    simp [members, out', on, stage]
  refine ⟨if s.turn = 0 then idleNs else roundNs, by split <;> decide, ?_⟩
  simp only [pick, nothing]
  have range : nrange s.turn (([] : List Pick).length - s.turn) = [] := by simp [nrange]
  rw [range]
  rfl

/-- Settles O58: the turn is that of `schedule`, and a thread that nothing holds up goes on with its word. -/
theorem stepRunsTheDecodedInstruction : Obligations.StepRunsTheDecodedInstruction := by
  unfold Obligations.StepRunsTheDecodedInstruction
  refine ⟨fun s u i turn hu due live free => ?_, fun s => ⟨fun i o rest head => ?_, fun n rest head => ?_,
    fun n p rest head at_ left port => ?_, fun quiet off => ?_, fun quiet out on stage => ?_⟩⟩
  · have chosen : schedule s = runThread u := by
      rcases turn with ⟨t, rest, head, rfl⟩ | ⟨quiet, serves, k, t, above, here, before, can, e, plain⟩
      · exact schedule_run head
      · rw [schedule_pick quiet (by rw [power_of_serving serves]; decide), pick_run rfl serves above here before can]
        exact turnOf_run e plain free
    have next := threadNext_free hu due live free
    refine ⟨fun w hw ok => step_row (chosen.trans (runThread_row ?_)),
      fun w r hw err => step_scheduled (chosen.trans (runThread_illop ?_)), fun hw => step_row (chosen.trans (runThread_row ?_))⟩
    · rw [next, wordNext, hw]
      exact nextOf_ok ok
    · rw [next, wordNext, hw]
      exact nextOf_error err
    · rw [next, wordNext, hw]
  · exact step_row (schedule_event head)
  · exact ⟨_, step_scheduled (schedule_tick head), rfl, rfl, rfl, rfl⟩
  · obtain ⟨device, sweep, r, replay, sent⟩ := sweepStep_sends (s := { s with agenda := rest }) at_ left port
    refine ⟨_, step_scheduled (schedule_sweep head), ?_, ?_, ?_, sweep, r, replay, sent⟩ <;> rw [device]
  · exact step_scheduled (by simp only [schedule, quiet, off, if_true])
  · obtain ⟨n, pos, picked⟩ := pick_waits out on stage
    refine ⟨_, step_scheduled ((schedule_pick quiet (by rw [on]; decide)).trans picked), ?_, quiet, rfl, rfl⟩
    exact Nat.lt_add_of_pos_right pos

end Sys2Proof.Machine
end

section
namespace Sys2Proof.Machine

/-! Vector instructions that end without events, and registers written beside the vector state (R57, R136). -/

/-- Nothing is done yet. -/
theorem Holds.refl {s : State} (hs : s.Started) : Holds s s s.vec [] where
  device := rfl
  others _ _ := rfl
  slot := rfl
  slots _ _ := rfl
  started := hs
  triad := (holds_modVec s s.vec hs).triad
  regs _ _ := rfl
  role := rfl

theorem Holds.cur {s u : State} {v : VecState} {ds : List (BitVec 6)} (h : Holds s u v ds) : u.cur = s.cur := by rw [h.device]

theorem Holds.slotKey {s u : State} {v : VecState} {ds : List (BitVec 6)} (h : Holds s u v ds) : u.tr.slotKey = s.tr.slotKey := by
  rw [h.triad]
  cases s.cur.role <;> rfl

/-- A scalar register written besides. -/
theorem Holds.setX {s u : State} {v : VecState} {ds : List (BitVec 6)} (h : Holds s u v ds) (d : BitVec 6) (w : Word) :
    Holds s (u.setX d w) v (d :: ds) := by
  have only : OnlyTriad u (u.setX d w) := onlyTriad_modTh u _
  have th : (u.setX d w).th = u.th.setXr d.toNat w := u.th_modTh _ h.started
  have slot (k : Nat) : (u.setX d w).slot k = u.slot k := by rw [only.device]; rfl
  refine ⟨?_, fun c hc => ?_, (slot _).trans h.slot, fun k hk => (slot k).trans (h.slots k hk), started_modTh _ h.started, ?_,
    fun n hn => ?_, ?_⟩
  · rw [only.device, h.device]
  · rw [only.others c (by rwa [h.cur]), h.others c hc]
  · have tr : (u.setX d w).tr = u.tr.setRole u.cur.role (u.th.setXr d.toNat w) := u.tr_modTh _ h.started
    rw [tr, th, h.triad, h.cur, Triad.setRole_setRole]
  · obtain ⟨other, old⟩ := List.ne_and_not_mem_of_not_mem_cons hn
    exact (u.x_setX_ne w h.started other).trans (h.regs n old)
  · rw [th, h.role]
    by_cases hd : d.toNat = 0 <;> simp [RoleState.setXr, hd]

/-- The thread goes on without events (R57). -/
theorem Holds.advance {s u : State} {v : VecState} {ds : List (BitVec 6)} (h : Holds s u v ds) :
    VectorDone s u.advance v Evs.none 0 ds := by
  obtain ⟨only, stands⟩ := advances u h.started
  have slot (k : Nat) : u.advance.slot k = u.slot k := by rw [only.device]; rfl
  have tr : u.advance.tr = s.tr.setRole s.cur.role u.advance.th := by
    rw [only.triad, h.triad, h.cur, Triad.setRole_setRole]
  refine ⟨⟨?_, fun n hn => (stands.regs n (by simp)).trans (h.regs n hn), ?_⟩, ?_, fun c hc => ?_, (slot _).trans h.slot,
    fun k hk => (slot k).trans (h.slots k hk), ?_, fun c _ => ?_⟩
  · rw [stands.pc, h.role]
    rfl
  · have role := stands.role
    rw [h.role] at role
    exact role
  · rw [only.device, h.device]
  · rw [only.others c (by rwa [h.cur]), h.others c hc]
  · rw [tr]
    cases s.cur.role <;> simp [Triad.setRole, Evs.none]
  · rw [tr]
    cases s.cur.role <;> simp [Triad.setRole, Evs.none]

/-! SETVL (R103, R128). -/

/-- The width that a type suffix names (R67). -/
theorem tw_eq {t : BitVec 4} (h : t.toNat ≤ 11) :
    tw t = if t.toNat = 8 then 64 else if t.toNat = 9 then 32 else if 10 ≤ t.toNat then 16 else tWidth t := by
  revert h
  revert t
  decide

/-- The current thread with another VL. -/
def State.withVl (s : State) (n : Nat) : State := s.modTh fun r => { r with vl := n }

/-- SETVL sets VL, writes it to xd, and goes on. -/
theorem withVl_done {s : State} (hs : s.Started) (n : Nat) (d : BitVec 6) (w : Word) :
    let t := (s.withVl n).done d w
    OnlyThread s t ∧ t.th.vl = n ∧ t.th.pc = s.th.successor ∧ (∀ k, k ≠ d → t.x k = s.x k) ∧ (d ≠ 0#6 → t.x d = w) := by
  intro t
  have started : (s.withVl n).Started := started_modTh _ hs
  have th : (s.withVl n).th = { s.th with vl := n } := s.th_modTh _ hs
  have done : Writes (s.withVl n) t d w := writes_done _ d w started
  refine ⟨(onlyThread_modTh s _ hs).trans done.toOnlyThread, ?_, ?_, fun k hk => ?_, fun hd => ?_⟩
  · rw [done.role, th]
  · rw [done.pc, th]
    rfl
  · rw [done.regs k (by simpa using hk), State.x, th]
    rfl
  · rw [done.value, if_neg hd]

/-! VMOVX and VINSX (R148). -/

section
variable {f : FmtV} {s : State}

/-- The end of VMOVX: the ring is popped and the scalar register written. -/
def State.movxDone (s : State) (f : FmtV) (x : Word) : State :=
  ((s.modVec fun v => v.popRings (ringsOf [opnd f.qa f.va])).setX f.vd x).advance

theorem exec_vmovx_ready (ready : VectorReady s (f.grp == 0#2 && f.m == 0#4 && vDecode s.vec.cfg s.cur.role 1 [] [vField f.qa f.va 1])
    (s.vlOk (tw f.t)) [opnd f.qa f.va] []) :
    let k := (s.x f.vb).toNat
    let e := readElt s.vec (s.bound s.tr.core) Lg.plain (rawSrc f.qa f.va (tw f.t)) 0 k
    exec (.vmovx f) s = .next (if s.th.vl ≤ k then s.movxDone f 0
      else if e.pois then s.trapPoison ((opnd f.qa f.va).unit 0) k else s.movxDone f (extT f.t e.raw)) :=
  congrArg Host.Outcome.next (vIssue_ready ready _)

theorem movxDone_done (hs : s.Started) (x : Word) :
    ∃ v, VectorDone s (s.movxDone f x) v Evs.none 0 [f.vd] ∧ (f.vd ≠ 0#6 → (s.movxDone f x).x f.vd = x) ∧
      v = { s.vec with rings := v.rings } ∧ RingsTaken s.vec v [opnd f.qa f.va] (.reg 0) := by
  have held := holds_modVec s (s.vec.popRings (ringsOf [opnd f.qa f.va])) hs
  have written := held.setX f.vd x
  refine ⟨_, written.advance, fun hd => ?_, popRings_eq _ _, fun q _ => ?_⟩
  · exact ((advances _ written.started).2.regs _ (by simp)).trans (State.x_setX_same _ _ _ held.started hd)
  · rw [ring_popRings]
    simp only [not_mem_ringsOf]

/-- The vector state with element k of register n replaced. -/
def VecState.withElem (v : VecState) (n w k x : Nat) : VecState := { v with v := tset n (setElem (v.reg n) w k x) v.v }

theorem elemAt_withElem (v : VecState) (n w k x j e : Nat) :
    elemAt ((v.withElem n w k x).reg j) w e = if j = n ∧ e = k then x % 2 ^ w else elemAt (v.reg j) w e := by
  have reg : (v.withElem n w k x).reg j = if j = n then setElem (v.reg n) w k x else v.reg j := tget_tset ..
  rw [reg]
  by_cases hj : j = n
  · subst hj
    simp only [if_true, true_and]
    exact elemAt_setElem ..
  · simp only [hj, if_false, false_and]

theorem exec_vinsx_ready (ready : VectorReady s
    (f.grp == 0#2 && f.m == 0#4 && !f.qd && vDecode s.vec.cfg s.cur.role 1 [vField false f.vd 1] []) (s.vlOk (tw f.t)) [] []) :
    exec (.vinsx f) s = .next (if s.th.vl ≤ (s.x f.vb).toNat then s.advance
      else (s.modVec fun v => v.withElem f.vd.toNat (tw f.t) (s.x f.vb).toNat (s.x f.va).toNat).advance) :=
  congrArg Host.Outcome.next (vIssue_ready ready _)

end

/-- Settles O14: SETVL is a write of VL and of xd; VMOVX and VINSX are a write of a scalar register and of an element. -/
theorem setvlAndScalarElements : Obligations.SetvlAndScalarElements := by
  unfold Obligations.SetvlAndScalarElements
  refine ⟨fun f s hs ht => ?_, fun f s quiet ht => ⟨fun ready => ⟨fun inside clean => ?_, fun beyond => ?_⟩, fun ready => ?_⟩⟩
  · rw [← tw_eq ht]
    exact ⟨_, rfl, withVl_done hs _ f.xd _⟩
  · obtain ⟨raw, pois⟩ := readElt_rawSrc (v := s.vec) (slabs := s.bound s.tr.core) f.qa f.va (tw_cases f.t) (s.x f.vb).toNat
    obtain ⟨v, done, value, rest⟩ := movxDone_done (f := f) ready.started
      (extT f.t (elemAt (s.vec.opBits (opnd f.qa f.va) 0) (tw f.t) (s.x f.vb).toNat))
    refine ⟨_, ?_, v, done, value, rest⟩
    rw [exec_vmovx_ready ready]
    simp only [Nat.not_le.mpr inside, if_false, pois, clean, raw, Bool.false_eq_true]
  · obtain ⟨v, done, value, rest⟩ := movxDone_done (f := f) ready.started 0
    refine ⟨_, (exec_vmovx_ready ready).trans (congrArg _ (if_pos beyond)), v, done, ?_, rest⟩
    by_cases hd : f.vd = 0#6
    · rw [hd, State.x_zero]
    · exact value hd
  · by_cases beyond : s.th.vl ≤ (s.x f.vb).toNat
    · refine ⟨_, (exec_vinsx_ready ready).trans (congrArg _ (if_pos beyond)), _, (Holds.refl ready.started).advance, rfl, fun n e => ?_⟩
      rw [if_neg (by omega)]
    · refine ⟨_, (exec_vinsx_ready ready).trans (congrArg _ (if_neg beyond)), _, (holds_modVec s _ ready.started).advance, rfl,
        fun n e => (elemAt_withElem s.vec ..).trans ?_⟩
      simp only [Nat.not_le.mp beyond, and_true]

end Sys2Proof.Machine
end

section
namespace Sys2Proof.Machine

/-! VCFG and its rendezvous (R88). -/

theorem orphaned_none_of_running {s : State} (running : ∀ r, (s.tr.role r).ended = false)
    (noRing : ∀ r q w, (s.tr.role r).stall ≠ some (.ring q w)) (r : Role) : s.orphaned r = none := by
  simp only [State.orphaned, running r, Bool.false_eq_true, if_false]
  split
  · simp [running]
  next q w e => exact absurd e (noRing r q w)
  · rfl

/-- A role of the current triad after the current thread stalls. -/
theorem role_stallOn {s : State} (hs : s.Started) (w : Stall) (r : Role) :
    (s.stallOn w).tr.role r = if r = s.cur.role then { s.th with stall := some w } else s.tr.role r := by
  have tr : (s.stallOn w).tr = s.tr.setRole s.cur.role { s.th with stall := some w } := s.tr_modTh _ hs
  rw [tr]
  split
  next h => rw [h, Triad.role_setRole_same]
  next h => rw [Triad.role_setRole_ne _ h]

theorem exec_vcfg_owned {s : State} (hs : s.Started) (owns : s.ownsVec = true) (calm : s.tr.trapper = none)
    (running : ∀ r, (s.tr.role r).ended = false) (noRing : ∀ r q w, (s.tr.role r).stall ≠ some (.ring q w)) (f : FmtA) :
    exec (.vcfg f) s = .next (s.stallOn (.vcfg (s.x f.xa) f.xd.toNat)) := by
  have waits : exec (.vcfg f) s = .next (s.stallOn (.vcfg (s.x f.xa) f.xd.toNat)).trapOrphans :=
    congrArg Host.Outcome.next (if_neg (by simp [owns]))
  rw [waits, trapOrphans_none (orphaned_none_of_running (fun r => ?_) fun r q w => ?_)]
  · have only : OnlyThread s (s.stallOn (.vcfg (s.x f.xa) f.xd.toNat)) := onlyThread_modTh s _ hs
    rw [only.triad, trapper_setRole, calm]
  · rw [role_stallOn hs]
    split
    · exact running s.cur.role
    · exact running r
  · rw [role_stallOn hs]
    split
    · simp
    · exact noRing r q w

/-- Two words name one direction of a ring where their two bits for it agree (R87). -/
theorem ringDir_eq_iff (a b : Word) (q : Nat) :
    ringDir a q = ringDir b q ↔ nbits a.toNat (16 + 2 * q) 2 = nbits b.toNat (16 + 2 * q) 2 := by
  unfold ringDir
  have low (w : Word) : nbits w.toNat (16 + 2 * q) 2 < 4 := Nat.mod_lt _ (by decide)
  have ha := low a
  have hb := low b
  generalize nbits a.toNat (16 + 2 * q) 2 = i at *
  generalize nbits b.toNat (16 + 2 * q) 2 = j at *
  revert j
  revert i
  decide

theorem ring_setCfg (v : VecState) (w : Word) (q : Nat) :
    (v.setCfg w).ring q = if ringDir w q = ringDir v.cfg q then v.ring q else [] := by
  have kept := tfind_filter q (fun k => nbits v.cfg.toNat (16 + 2 * k) 2 == nbits w.toNat (16 + 2 * k) 2) v.rings
  have entries : (v.setCfg w).ring q = (if (nbits v.cfg.toNat (16 + 2 * q) 2 == nbits w.toNat (16 + 2 * q) 2) = true
    then tfind q v.rings else none).getD [] := congrArg (·.getD []) kept
  simp only [entries, beq_iff_eq, ringDir_eq_iff, eq_comm (a := nbits w.toNat _ _)]
  split <;> rfl

theorem goodCfg_of {w : Word} (low : w.toNat < 2 ^ 32) (reserved : w.getLsbD 15 = false) (fits : cfgNL w + cfgNC w + cfgNS w ≤ 64) :
    goodCfg w = true := by
  have bit : w.toNat / 2 ^ 15 % 2 ^ 1 = 0 := by
    rw [BitVec.getLsbD, Nat.testBit_eq_decide_div_mod_eq, decide_eq_false_iff_not] at reserved
    omega
  simp only [goodCfg, nbits, bit, Nat.div_eq_of_lt low, fits, Nat.zero_mod, beq_self_eq_true, decide_true, Bool.and_self]

/-- The roles of a triad go on after a VCFG, each with the old configuration word in its register (R88). -/
def Triad.endVcfg (t : Triad) (old : Word) (dl dc ds : Nat) : Triad :=
  { t with loader := (t.loader.setXr dl old).advance, computer := (t.computer.setXr dc old).advance,
           storer := (t.storer.setXr ds old).advance }

/-- The state after the rendezvous of the current triad (R88). -/
def State.endVcfg (s : State) (w : Word) (dl dc ds : Nat) : State :=
  (s.modVec fun v => v.setCfg w).modTr fun t => t.endVcfg s.vec.cfg dl dc ds

section
variable {s : State} {w : Word} {dl dc ds : Nat}

theorem exec_vcfgRendezvous_agreed (loader : s.tr.loader.stall = some (.vcfg w dl)) (computer : s.tr.computer.stall = some (.vcfg w dc))
    (storer : s.tr.storer.stall = some (.vcfg w ds)) (good : goodCfg w = true) :
    exec .vcfgRendezvous s = .next (s.endVcfg w dl dc ds) := by
  have waits {r : RoleState} {d : Nat} (h : r.stall = some (.vcfg w d)) : vcfgOf r = some (w, d) := by rw [vcfgOf, h]
  show execVcfgRendezvous s = _
  simp only [execVcfgRendezvous, waits loader, waits computer, waits storer, good, and_self, if_true]
  rfl

theorem tr_endVcfg (hs : s.Started) : (s.endVcfg w dl dc ds).tr = s.tr.endVcfg s.vec.cfg dl dc ds :=
  (s.modVec fun v => v.setCfg w).tr_modTr _ hs

theorem vec_endVcfg (hs : s.Started) : (s.endVcfg w dl dc ds).vec = s.vec.setCfg w := by
  have slot (k : Nat) : (s.endVcfg w dl dc ds).slot k = (s.modVec fun v => v.setCfg w).slot k := by
    unfold State.slot State.endVcfg
    rw [State.modTr_slots]
  rw [State.vec, tr_endVcfg hs, slot]
  exact s.vec_modVec fun v => v.setCfg w

theorem device_endVcfg : s.endVcfg w dl dc ds = { s with triads := (s.endVcfg w dl dc ds).triads, slots := (s.endVcfg w dl dc ds).slots } :=
  (onlyTriad_modTr (s.modVec fun v => v.setCfg w) _).device.trans (by rw [State.endVcfg, State.modTr_slots]; rfl)

end

/-! The arbitration of the vector unit (R92). -/

theorem lidx_eq_findIdx? {α : Type} (p : α → Bool) (l : List α) : lidx p l = l.findIdx? p := by
  induction l with
  | nil => rfl
  | cons a t ih => rw [lidx, List.findIdx?_cons, ih]

theorem lastIssue_of_index {hist : List Role} {r : Role} {n : Nat} (h : hist.findIdx? (· == r) = some n) : lastIssue hist r = n := by
  rw [lastIssue, lidx_eq_findIdx?, h]
  rfl

/-- The place in a history of a role that has issued of late. -/
theorem index_of_lastIssue {hist : List Role} {r : Role} (h : lastIssue hist r < 6) :
    hist.findIdx? (· == r) = some (lastIssue hist r) := by
  unfold lastIssue at *
  rw [lidx_eq_findIdx?] at *
  cases found : hist.findIdx? (· == r) with
  | none => simp [found] at h
  | some n => rfl

/-- What stands in a history within the issues that R92 looks at stays where it is. -/
theorem lastIssue_pushIssue {hist : List Role} {q r : Role} {n : Nat} (h : (r :: hist).findIdx? (· == q) = some n) (hn : n < 7) :
    lastIssue (pushIssue hist r) q = n := by
  refine lastIssue_of_index ?_
  rw [pushIssue, List.findIdx?_append, List.findIdx?_take, h]
  simp [Option.guard, hn]

theorem lastIssue_pushIssue_same (hist : List Role) (r : Role) : lastIssue (pushIssue hist r) r = 0 :=
  lastIssue_pushIssue (by simp [List.findIdx?_cons]) (by decide)

theorem lastIssue_pushIssue_ne {hist : List Role} {q r : Role} (hq : q ≠ r) (h : lastIssue hist q < 6) :
    lastIssue (pushIssue hist r) q = lastIssue hist q + 1 :=
  lastIssue_pushIssue (by simp [List.findIdx?_cons, Ne.symm hq, index_of_lastIssue h]) (by omega)

theorem head?_linsert {α : Type} (le : α → α → Bool) (v : α) (l : List α) :
    (linsert le v l).head? = some (match l.head? with
      | some a => if le a v then a else v
      | none => v) := by
  cases l with
  | nil => rfl
  | cons a t =>
    rw [linsert]
    split <;> simp_all

/-- A sorted list begins with the member that comes before every other. -/
theorem head?_lsort {α : Type} {le : α → α → Bool} {l : List α} {r : α} (mem : r ∈ l)
    (first : ∀ q ∈ l, q ≠ r → le q r = false ∧ le r q = true) : (lsort le l).head? = some r := by
  suffices gen : ∀ acc : List α, (∀ h, acc.head? = some h → h = r ∨ le h r = false) → r ∈ l ∨ acc.head? = some r →
      (l.foldl (fun acc a => linsert le a acc) acc).head? = some r from gen [] (by simp) (.inl mem)
  clear mem
  induction l with
  | nil => exact fun acc _ h => h.resolve_left (by simp)
  | cons a t ih =>
    intro acc later here
    have ha : a = r ∨ le a r = false := or_iff_not_imp_left.mpr fun h => (first a (by simp) h).1
    rw [List.foldl_cons]
    refine ih (fun q hq => first q (List.mem_cons_of_mem a hq)) _ (fun h hh => ?_) ?_
    · rw [head?_linsert] at hh
      cases hacc : acc.head? with
      | none => simp_all
      | some b =>
        have := later b hacc
        simp only [hacc, Option.some.injEq] at hh
        split at hh <;> simp_all
    · by_cases har : a = r
      · right
        subst har
        rw [head?_linsert]
        cases hacc : acc.head? with
        | none => rfl
        | some b =>
          have := later b hacc
          simp only [Option.some.injEq, ite_eq_right_iff]
          intro hb
          exact this.resolve_right (by simp [hb])
      · refine here.imp (fun h => (List.mem_cons.mp h).resolve_left (Ne.symm har)) fun h => ?_
        rw [head?_linsert, h]
        simp only [(first a (by simp) har).2, if_true]

/-- The rule of R92 for one slot: a role that has not issued for seven issues first, then the computer, then the one that has waited
longest. -/
theorem pickRole_eq {hist : List Role} {can : List Role} {r : Role} (hr : r ∈ can)
    (rule : (7 ≤ lastIssue hist r ∧ ∀ q, q ≠ r → q ∈ can → lastIssue hist q < lastIssue hist r) ∨
      ((∀ q ∈ can, lastIssue hist q < 7) ∧
        (r = .computer ∨ (.computer ∉ can ∧ ∀ q, q ≠ r → q ∈ can → lastIssue hist q < lastIssue hist r)))) :
    pickRole hist can = some r := by
  have oldest {l : List Role} (mem : r ∈ l) (sub : ∀ q ∈ l, q ∈ can)
      (older : ∀ q, q ≠ r → q ∈ can → lastIssue hist q < lastIssue hist r) :
      (lsort (fun a b => decide (lastIssue hist b ≤ lastIssue hist a)) l).head? = some r :=
    head?_lsort mem fun q hq ne => by
      have := older q ne (sub q hq)
      exact ⟨by simpa using this, by simpa using Nat.le_of_lt this⟩
  obtain ⟨stale, older⟩ | ⟨fresh, computer⟩ := rule
  · have mem : r ∈ can.filter fun q => decide (7 ≤ lastIssue hist q) := by simp [hr, stale]
    simp only [pickRole, oldest mem (fun q hq => (List.mem_filter.mp hq).1) older]
  · have none_stale : (can.filter fun q => decide (7 ≤ lastIssue hist q)) = [] := by
      simpa [List.filter_eq_nil_iff] using fresh
    have skip : pickRole hist can = if can.contains .computer then some .computer
        else (lsort (fun a b => decide (lastIssue hist b ≤ lastIssue hist a)) can).head? := by
      simp only [pickRole, none_stale]
      rfl
    rw [skip]
    obtain rfl | ⟨absent, older⟩ := computer
    · simp [hr]
    · rw [if_neg (by simpa using absent)]
      exact oldest hr (fun _ => id) older

section
variable {s : State} {core c d : Nat} {r : Role}

theorem mem_readyRoles {j : Nat} (h : slotTriad s core j = some c) (q : Role) :
    q ∈ readyRoles s core j ↔ vectorReady s ⟨c, q⟩ = true := by
  have all : q ∈ roles := by cases q <;> decide
  simp [readyRoles, h, all]

theorem readyRoles_nil {j : Nat} (h : ∀ e q, slotTriad s core j = some e → vectorReady s ⟨e, q⟩ = false) :
    readyRoles s core j = [] := by
  unfold readyRoles
  split
  next e found => simp [h e _ found]
  · rfl

/-- The slot that is served next is the first after the one served last whose triad has a ready role (R92). -/
theorem nextSlot_eq (low : 1 ≤ d) (high : d ≤ 4) (found : slotTriad s core (((s.core core).lastSlot + d) % 4) = some c)
    (can : vectorReady s ⟨c, r⟩ = true)
    (before : ∀ b, 1 ≤ b → b < d → ∀ e q, slotTriad s core (((s.core core).lastSlot + b) % 4) = some e → vectorReady s ⟨e, q⟩ = false) :
    nextSlot s core = some (((s.core core).lastSlot + d) % 4) := by
  have first : (nrange ((s.core core).lastSlot + 1) 4).find? ((fun j => !(readyRoles s core j).isEmpty) ∘ (· % 4)) =
      some ((s.core core).lastSlot + d) := by
    refine find?_nrange (by omega) (by omega) ?_ fun j above below => ?_
    · have := List.ne_nil_of_mem ((mem_readyRoles found r).mpr can)
      simpa [List.isEmpty_eq_false_iff] using this
    · obtain ⟨b, rfl⟩ := Nat.exists_eq_add_of_le (Nat.le_of_succ_le above)
      simp [readyRoles_nil (before b (by omega) (by omega))]
  rw [nextSlot, List.find?_map, first]
  rfl

/-- The state after role r of triad c, in slot j of a core, issues to the vector unit (R92, R130). -/
def State.issue (s : State) (core j c : Nat) (r : Role) : State :=
  let t := (s.modCore core fun k => { k with lastSlot := j }).modTriad c fun t => { t with issued := pushIssue t.issued r }
  { t with agenda := .run ⟨c, r⟩ :: t.agenda, slip := some (Config.freeValue t.fresh), fresh := t.fresh + 1 }

theorem exec_vectorIssue_of {j : Nat} (next : nextSlot s s.occ.n = some j) (found : slotTriad s s.occ.n j = some c)
    (picked : pickRole (s.triad c).issued (readyRoles s s.occ.n j) = some r) :
    exec .vectorIssue s = .next (s.issue s.occ.n j c r) := by
  show execVectorIssue s = _
  simp only [execVectorIssue, next, found, picked]
  rfl

theorem has_of_slotTriad {j : Nat} (h : slotTriad s core j = some c) : s.Has c := by
  obtain ⟨p, hp, rfl⟩ := Option.map_eq_some_iff.mp h
  exact (tfind_isSome _ _).mpr (List.mem_map_of_mem (List.mem_of_find?_eq_some hp))

theorem triad_issue {j : Nat} (has : s.Has c) (n : Nat) : (s.issue core j c r).triad n =
    if n = c then { s.triad c with issued := pushIssue (s.triad c).issued r } else s.triad n := by
  have same : (s.issue core j c r).triad n = ((s.modCore core fun k => { k with lastSlot := j }).modTriad c fun t =>
    { t with issued := pushIssue t.issued r }).triad n := rfl
  rw [same]
  split
  next h =>
    subst h
    exact State.triad_modTriad _ n _ has
  next h => exact State.triad_modTriad_ne _ h _

theorem core_issue (j n : Nat) : (s.issue core j c r).core n = if n = core then { s.core core with lastSlot := j } else s.core n := by
  have same : (s.issue core j c r).cores = (s.modCore core fun k => { k with lastSlot := j }).cores := State.modTriad_cores _ _ _
  simp only [State.core, same, State.modCore, tget_tset]

theorem device_issue (j : Nat) : s.issue core j c r =
    { s with cores := (s.issue core j c r).cores, triads := (s.issue core j c r).triads, agenda := .run ⟨c, r⟩ :: s.agenda,
             slip := (s.issue core j c r).slip, fresh := s.fresh + 1 } := by
  have device := (s.modCore core fun k => { k with lastSlot := j }).modTriad_device c fun t => { t with issued := pushIssue t.issued r }
  simp only [State.issue]
  rw [device]
  rfl

end

/-! What a vector instruction waits for (R91, R191). -/

theorem ringBlock_false {s : State} {reads : List Nat} {write : Option Nat}
    (full : ∀ q ∈ reads, ∃ e l, s.vec.ring q = e :: l ∧ e.open_ = false) (room : ∀ q, write = some q → (s.vec.ring q).length < 4) :
    s.ringBlock reads write = false := by
  rw [State.ringBlock, Bool.or_eq_false_iff]
  constructor
  · refine List.any_eq_false.mpr fun q hq => ?_
    obtain ⟨e, l, ring, closed⟩ := full q hq
    simp [State.ringFull, ring, closed]
  · cases write with
    | none => rfl
    | some q => simp [State.ringRoom, room q rfl]

theorem exec_ringWaitRelease_free {s : State} {reads : List Nat} {write : Option Nat} (stalled : s.th.stall = some (.ring reads write))
    (free : s.ringBlock reads write = false) : exec .ringWaitRelease s = .next (s.modTh fun r => { r with stall := none }) := by
  show execRingWaitRelease s = _
  simp only [execRingWaitRelease, stalled, free, Bool.false_eq_true, if_false]

theorem exec_vectorInstructionComplete_here {s : State} (stalled : s.th.stall = some .remote) (here : s.th.want = []) :
    exec .vectorInstructionComplete s = .next s.goOn := by
  show execVectorInstructionComplete s = _
  simp only [execVectorInstructionComplete, stalled, here, List.isEmpty_nil, if_true]

theorem goOn_th {s : State} (hs : s.Started) : s.goOn.th = { s.th with stall := none } := by
  unfold State.goOn
  split <;> exact s.th_modTh _ hs

theorem onlyThread_goOn {s : State} (hs : s.Started) :
    OnlyThread { s with agenda := if s.th.word.any (fun w => vectorOp (wordOp w).toNat) then .run s.cur :: s.agenda else s.agenda }
      s.goOn := by
  have only := onlyThread_modTh s (fun r => { r with stall := none }) hs
  unfold State.goOn
  split
  · exact ⟨⟨by rw [only.device], only.others, only.bytes⟩, only.triad⟩
  · exact only

/-- Settles O18: a rendezvous is one change of the slot's vector state and of the three roles; the arbiter's choice is the first slot in
turn and the head of its ready roles by age. -/
theorem configurationAndArbitration : Obligations.ConfigurationAndArbitration := by
  unfold Obligations.ConfigurationAndArbitration
  refine ⟨fun s hs => ⟨fun f owns calm running noRing => ?_, fun w dl dc ds loader computer storer low reserved fits => ?_⟩,
    fun s => ⟨fun d c r low high found can before rule => ?_, fun hs => ⟨fun reads write stalled full room => ?_,
      fun stalled here => ?_⟩⟩⟩
  · exact ⟨_, exec_vcfg_owned hs owns calm running noRing f, onlyThread_modTh s _ hs, s.th_modTh _ hs⟩
  · refine ⟨_, exec_vcfgRendezvous_agreed loader computer storer (goodCfg_of low reserved fits), device_endVcfg, ?_, fun q _ => ?_, ?_,
      tr_endVcfg hs⟩
    · rw [vec_endVcfg hs]
      rfl
    · rw [vec_endVcfg hs]
      exact ring_setCfg s.vec w q
    · rw [vec_endVcfg hs]
      rfl
  · have has := has_of_slotTriad found
    have picked := pickRole_eq (hist := (s.triad c).issued) ((mem_readyRoles found r).mpr can) (by
      simpa only [mem_readyRoles found, Bool.not_eq_true] using rule)
    refine ⟨_, exec_vectorIssue_of (nextSlot_eq low high found can before) found picked, device_issue _, fun n hn => ?_, ?_,
      fun n hn => ?_, ?_, ?_, fun q hq recent => ?_⟩
    · rw [core_issue, if_neg hn]
    · rw [core_issue, if_pos rfl]
    · rw [triad_issue has, if_neg hn]
    · rw [triad_issue has, if_pos rfl]
    · rw [triad_issue has, if_pos rfl, lastIssue_pushIssue_same]
    · rw [triad_issue has, if_pos rfl, lastIssue_pushIssue_ne hq recent]
  · exact ⟨_, exec_ringWaitRelease_free stalled (ringBlock_false full room), onlyThread_modTh s _ hs, s.th_modTh _ hs⟩
  · exact ⟨_, exec_vectorInstructionComplete_here stalled here, goOn_th hs, onlyThread_goOn hs⟩

end Sys2Proof.Machine
end

section
namespace Sys2Proof.Machine

/-! What a triad gives back when it retires (R85, R197, R255, R358). -/

/-- Two states in which triads, slots, tiles and cores hold the same. -/
structure SameHoldings (s t : State) : Prop where
  triads : t.triads = s.triads
  slots : t.slots = s.slots
  tiles : t.tiles = s.tiles
  cores : t.cores = s.cores

theorem SameHoldings.refl (s : State) : SameHoldings s s := ⟨rfl, rfl, rfl, rfl⟩

theorem SameHoldings.trans {s t u : State} (h : SameHoldings s t) (k : SameHoldings t u) : SameHoldings s u :=
  ⟨k.triads.trans h.triads, k.slots.trans h.slots, k.tiles.trans h.tiles, k.cores.trans h.cores⟩

theorem sameHoldings_writeCw (s : State) (q : Nat) (r : Rec) (w : Word) : SameHoldings s (writeCw s q r w) := by
  rw [writeCw_device]
  exact ⟨rfl, rfl, rfl, rfl⟩

theorem sameHoldings_wdogSettle (s : State) (q : Nat) : SameHoldings s (wdogSettle s q) := by
  rw [(wdogSettle_queues s q).1]
  exact ⟨rfl, rfl, rfl, rfl⟩

theorem sameHoldings_settleGang (s : State) (g : Nat) : SameHoldings s (settleGang s g) := by
  unfold settleGang
  simp only []
  split <;> exact ⟨rfl, rfl, rfl, rfl⟩

theorem sameHoldings_finishInvocation (s : State) (e : Nat) : SameHoldings s (finishInvocation s e) := by
  unfold finishInvocation
  split
  · exact .refl s
  next v found =>
    simp only []
    split
    · have h := sameHoldings_writeCw s v.queue v.rcd
        (statusWord false v.retired (if v.killedGangs ≠ 0 ∨ v.dropped then stKilled else topStatus v.fills))
      split <;> exact ⟨h.triads, h.slots, h.tiles, h.cores⟩
    · exact .refl s

/-- A value of a table whose values are all changed by a function that keeps the default. -/
theorem tget_map_values {α : Type} {f : Nat × α → Nat × α} (hf : ∀ p, (f p).1 = p.1) (d : α) (k : Nat) (hd : (f (k, d)).2 = d)
    (t : Tbl α) : tget d k (t.map f) = (f (k, tget d k t)).2 := by
  rw [tget, tget, tfind_map_values hf]
  cases tfind k t with
  | none => exact hd.symm
  | some v => rfl

/-- The tiles and the slots after a triad has given back what it holds. -/
theorem dropTriad_holdings (s : State) (c : Nat) :
    (dropTriad s c).tiles = (s.tiles.map fun p => if p.2.holder = some c then (p.1, { p.2 with holder := none, kept := none }) else p) ∧
      (dropTriad s c).slots = s.slots.map fun p => if p.2.owner = some c then (p.1, { p.2 with owner := none }) else p := by
  have device := freeStalled_device (releaseTiles s c) c
  unfold dropTriad
  generalize freeStalled (releaseTiles s c) c = u at *
  rw [device]
  exact ⟨rfl, rfl⟩

theorem tile_dropTriad (s : State) (c k : Nat) :
    (dropTriad s c).tile k = if (s.tile k).holder = some c then { s.tile k with holder := none, kept := none } else s.tile k := by
  rw [State.tile, (dropTriad_holdings s c).1, tget_map_values (fun p => by split <;> rfl) _ _ (by simp [Tile.init])]
  unfold State.tile
  split <;> rfl

theorem slot_dropTriad (s : State) (c k : Nat) :
    (dropTriad s c).slot k = if (s.slot k).owner = some c then { s.slot k with owner := none } else s.slot k := by
  rw [State.slot, (dropTriad_holdings s c).2, tget_map_values (fun p => by split <;> rfl) _ _ (by simp [Slot.init])]
  unfold State.slot
  split <;> rfl

/-- A gang without its triad c, which stood in the slot `at_`, and which it counts as retired. -/
def Gang.without (v : Gang) (c : Nat) (at_ : Nat × Nat) : Gang :=
  { v with retired := v.retired + 1, ctxns := v.ctxns.filter (· != c), slots := v.slots.filter (· != at_) }

/-- The state in which the triad c, which was tr, is no more and its gang counts it. -/
def State.without (s : State) (c : Nat) (tr : Triad) : State :=
  { dropTriad s c with gangs := (dropTriad s c).gangs.map fun p =>
      if p.1 = tr.gang then (p.1, p.2.without c (tr.core, tr.slot)) else p }

/-- The same once the barrier cells of its gang are gone with the last triad of the gang on the core. -/
def State.left (s : State) (c : Nat) (tr : Triad) : State := leaveCore (s.without c tr) tr.gang tr.core

theorem leaveCore_books (s : State) (g core : Nat) : SameBooks s (leaveCore s g core) := by
  unfold leaveCore
  split
  · split <;> exact ⟨rfl, rfl, rfl⟩
  · exact .refl s

theorem leaveCore_device (s : State) (g core : Nat) : leaveCore s g core = { s with cores := (leaveCore s g core).cores } := by
  unfold leaveCore
  split
  · split <;> rfl
  · rfl

/-- No cell of the gang is left on a core where none of its slots is. -/
theorem cells_leaveCore {s : State} {g core : Nat} {v : Gang} (hv : tfind g s.gangs = some v) (none : ∀ x ∈ v.slots, x.1 ≠ core) :
    ∀ p ∈ ((leaveCore s g core).core core).cells, p.2.gang ≠ g := by
  have empty : (v.slots.any (·.1 == core)) = false := List.any_eq_false.mpr fun x hx => by simpa using none x hx
  have cells : ((leaveCore s g core).core core).cells = (s.core core).cells.filter fun p => p.2.gang != g := by
    simp [leaveCore, hv, empty, releaseCells, State.core, State.modCore]
  intro p hp
  rw [cells] at hp
  simpa using (List.mem_filter.mp hp).2

section
variable {s : State} {tr : Triad} {c : Nat}

theorem left_device : s.left c tr = { s.without c tr with cores := (s.left c tr).cores } := leaveCore_device _ _ _

theorem left_triads : (s.left c tr).triads = tdel c s.triads :=
  (congrArg State.triads left_device).trans (dropTriad_triads s c)

theorem left_slot (k : Nat) : (s.left c tr).slot k = if (s.slot k).owner = some c then { s.slot k with owner := none } else s.slot k := by
  rw [left_device]
  exact slot_dropTriad s c k

theorem left_tile (k : Nat) : (s.left c tr).tile k =
    if (s.tile k).holder = some c then { s.tile k with holder := none, kept := none } else s.tile k := by
  rw [left_device]
  exact tile_dropTriad s c k

theorem without_gang {v : Gang} (hv : tfind tr.gang s.gangs = some v) :
    tfind tr.gang (s.without c tr).gangs = some (v.without c (tr.core, tr.slot)) := by
  have gangs : (dropTriad s c).gangs = s.gangs := (sameBooks_dropTriad s c).gangs
  rw [State.without, gangs, tfind_map_values (fun p => by split <;> rfl), hv]
  simp

theorem left_gang {v : Gang} (hv : tfind tr.gang s.gangs = some v) :
    tfind tr.gang (s.left c tr).gangs = some (v.without c (tr.core, tr.slot)) := by
  rw [State.left, (leaveCore_books _ _ _).gangs, without_gang hv]

theorem left_entries : (s.left c tr).entries = s.entries :=
  (leaveCore_books _ _ _).entries.trans (sameBooks_dropTriad s c).entries

theorem quiet_left : Quiet s (s.left c tr) := by
  have drop := quiet_dropTriad s c
  have without : Quiet s (s.without c tr) :=
    ⟨drop.mem, drop.keys, drop.io, drop.tlb, drop.meshes, drop.idle, drop.unwritten⟩
  refine without.trans ?_
  unfold State.left leaveCore
  split
  · split
    · exact .refl _
    · exact quiet_releaseCells _ _ _
  · exact .refl _

theorem left_cells {v : Gang} (hv : tfind tr.gang s.gangs = some v)
    (last : ∀ x ∈ v.slots, x ≠ (tr.core, tr.slot) → x.1 ≠ tr.core) :
    ∀ p ∈ ((s.left c tr).core tr.core).cells, p.2.gang ≠ tr.gang := by
  refine cells_leaveCore (without_gang hv) fun x hx => ?_
  obtain ⟨mem, other⟩ := List.mem_filter.mp hx
  exact last x mem (by simpa using other)

end

/-! The gang of a triad that has retired, and its invocation (R334). -/

/-- The state in which a gang is no more and its sheet units are free. -/
def State.gangFreed (s : State) (g : Nat) : State := releaseUnits { s with gangs := tdel g s.gangs }

/-- The state in which a gang of the invocation e at a key has retired (R334, R337). -/
def State.gangRetired (s : State) (g key : Nat) (e : Entry) : State :=
  progress { s.gangFreed g with entries := tset key { e with retired := e.retired + 1 } s.entries } e.queue

section
variable {s : State} {g : Nat} {v : Gang}

theorem retireGang_more (hv : tfind g s.gangs = some v) (more : v.retired ≠ v.k) : retireGang s g = settleGang s g := by
  simp only [retireGang, hv, more, ne_eq, not_false_eq_true, if_true]

theorem retireGang_last (hv : tfind g s.gangs = some v) (last : v.retired = v.k) {e : Entry} (he : tfind v.entry s.entries = some e) :
    retireGang s g = finishInvocation (s.gangRetired g v.entry e) v.entry := by
  have he' : tfind v.entry (releaseUnits { s with gangs := tdel g s.gangs }).entries = some e := he
  simp only [retireGang, hv, last, ne_eq, not_true_eq_false, if_false, he']
  rfl

theorem retireGang_gone (hv : tfind g s.gangs = some v) (last : v.retired = v.k) (he : tfind v.entry s.entries = none) :
    retireGang s g = s.gangFreed g := by
  have he' : tfind v.entry (releaseUnits { s with gangs := tdel g s.gangs }).entries = none := he
  simp only [retireGang, hv, last, ne_eq, not_true_eq_false, if_false, he']
  rfl

theorem sameHoldings_retireGang (hv : tfind g s.gangs = some v) : SameHoldings s (retireGang s g) := by
  by_cases last : v.retired = v.k
  · cases he : tfind v.entry s.entries with
    | none => rw [retireGang_gone hv last he]; exact ⟨rfl, rfl, rfl, rfl⟩
    | some e =>
      rw [retireGang_last hv last he]
      have freed : SameHoldings s (s.gangRetired g v.entry e) := ⟨rfl, rfl, rfl, rfl⟩
      exact freed.trans (sameHoldings_finishInvocation _ _)
  · rw [retireGang_more hv last]
    exact sameHoldings_settleGang s g

/-- A gang with triads left stays, but for its pre-emption (R365). -/
theorem settleGang_keeps (hv : tfind g s.gangs = some v) : (settleGang s g).mem = s.mem ∧
    ∃ w, tfind g (settleGang s g).gangs = some w ∧ w = { v with preempted := w.preempted } := by
  unfold settleGang
  simp only []
  split
  · refine ⟨rfl, { v with preempted := true }, ?_, rfl⟩
    simp only []
    rw [tfind_map_values (fun p => by split <;> rfl), hv]
    simp
  · exact ⟨rfl, v, hv, rfl⟩

theorem retireGang_takes (hv : tfind g s.gangs = some v) (last : v.retired = v.k) : tfind g (retireGang s g).gangs = none := by
  cases he : tfind v.entry s.entries with
  | none => rw [retireGang_gone hv last he]; exact tfind_tdel_same _ _
  | some e =>
    rw [retireGang_last hv last he, (finishInvocation_books _ _).1]
    exact tfind_tdel_same _ _

end

/-- The state after the triad c, which was tr, has retired. -/
def State.retired (s : State) (c : Nat) (tr : Triad) : State := wdogSettle (retireGang (s.left c tr) tr.gang) tr.queue

theorem exec_triadRetire_may {s : State} {tr : Triad} (here : tfind s.occ.n s.triads = some tr) (may : mayRetire s s.occ.n = true) :
    exec .triadRetire s = .next (s.retired s.occ.n tr) := by
  show execTriadRetire s = _
  simp only [execTriadRetire, here, may, Bool.not_true, Bool.false_eq_true, if_false]
  rfl

section
variable {s : State} {tr : Triad} {c : Nat} {v : Gang}

theorem retired_device : s.retired c tr = { retireGang (s.left c tr) tr.gang with queues := (s.retired c tr).queues } :=
  (wdogSettle_queues (retireGang (s.left c tr) tr.gang) tr.queue).1

variable (hv : tfind tr.gang s.gangs = some v)
include hv

theorem retired_holdings : SameHoldings (s.left c tr) (s.retired c tr) :=
  (sameHoldings_retireGang (left_gang hv)).trans (sameHoldings_wdogSettle _ tr.queue)

theorem retired_triads : (s.retired c tr).triads = tdel c s.triads := (retired_holdings hv).triads.trans left_triads

theorem retired_slot (k : Nat) :
    (s.retired c tr).slot k = if (s.slot k).owner = some c then { s.slot k with owner := none } else s.slot k :=
  (congrArg (tget Slot.init k) (retired_holdings hv).slots).trans (left_slot k)

theorem retired_tile (k : Nat) : (s.retired c tr).tile k =
    if (s.tile k).holder = some c then { s.tile k with holder := none, kept := none } else s.tile k :=
  (congrArg (tget Tile.init k) (retired_holdings hv).tiles).trans (left_tile k)

theorem retired_cells (last : ∀ x ∈ v.slots, x ≠ (tr.core, tr.slot) → x.1 ≠ tr.core) :
    ∀ p ∈ ((s.retired c tr).core tr.core).cells, p.2.gang ≠ tr.gang := by
  rw [State.core, (retired_holdings hv).cores]
  exact left_cells hv last

/-- While triads of it are left, the gang counts the one that has retired. -/
theorem retired_more (more : v.retired + 1 ≠ v.k) : (s.retired c tr).mem = s.mem ∧
    ∃ w, tfind tr.gang (s.retired c tr).gangs = some w ∧ w.retired = v.retired + 1 ∧ c ∉ w.ctxns ∧ (tr.core, tr.slot) ∉ w.slots := by
  obtain ⟨mem, w, found, kept⟩ := settleGang_keeps (left_gang (c := c) hv)
  rw [retired_device, retireGang_more (left_gang hv) more]
  refine ⟨mem.trans quiet_left.mem, w, found, ?_, ?_, ?_⟩
  · rw [kept]
    rfl
  · rw [kept]
    simp [Gang.without]
  · rw [kept]
    simp [Gang.without]

theorem retired_last (last : v.retired + 1 = v.k) : tfind tr.gang (s.retired c tr).gangs = none := by
  rw [retired_device]
  exact retireGang_takes (left_gang hv) last

end

theorem entryBusy_of_unwritten {s : State} {k : Nat} (h : s.Unwritten k) : entryBusy s k = false := by
  obtain ⟨bank, replay⟩ := h
  simp only [entryBusy, Bool.or_eq_false_iff, List.any_eq_false, beq_iff_eq, Bool.and_eq_true, Bool.not_eq_true', not_and]
  exact ⟨bank, fun r hr abandoned he => by simp [replay r hr he] at abandoned⟩

/-- An invocation whose gangs have all retired or been killed, and whose writes are performed, ends with its word (R334). -/
theorem finishInvocation_all {s : State} {k : Nat} {v : Entry} (hv : tfind k s.entries = some v)
    (all : v.retired + v.killedGangs = v.rcd.gangs) (unwritten : s.Unwritten k) (room : cwRoom s v.rcd = true) :
    let t := finishInvocation s k
    let w := writeCw s v.queue v.rcd
      (statusWord false v.retired (if v.killedGangs ≠ 0 ∨ v.dropped = true then stKilled else topStatus v.fills))
    tfind k t.entries = none ∧ t.mem = w.mem ∧ t.keys = w.keys ∧ t.io = w.io := by
  simp only [finishInvocation, hv, all, true_or, entryBusy_of_unwritten unwritten, room, Bool.not_false, and_self, if_true]
  split <;> exact ⟨tfind_tdel_same _ _, rfl, rfl, rfl⟩

theorem topStatus_lt (met : StatSet) : topStatus met < 256 := by
  have small : ∀ k ∈ statusOrder, k < 256 := by decide
  unfold topStatus
  cases h : statusOrder.find? fun k => met.contains k with
  | none => decide
  | some k => exact small k (List.mem_of_find?_eq_some h)

theorem natBytes_statusWord (count : Nat) {status : Nat} (h : status < 256) :
    natBytes 8 (statusWord false count status).toNat = natBytes 8 (count % 2 ^ 32 * 2 ^ 8 + status) := by
  congr 1
  simp only [statusWord, BitVec.toNat_ofNat, Bool.false_eq_true, if_false]
  omega

section
variable {s u : State} {g : Nat} {v : Gang} {e : Entry}

theorem quiet_gangRetired (g key : Nat) (e : Entry) : Quiet s (s.gangRetired g key e) :=
  ⟨rfl, rfl, rfl, rfl, fun _ h => h, id, fun _ => id⟩

/-- The last gang of an invocation retires: the entry is free, and the completion word says how the invocation ended (R334, R335). -/
theorem retireGang_ends (q : Quiet s u) (hv : tfind g u.gangs = some v) (last : v.retired = v.k) (he : tfind v.entry u.entries = some e)
    (all : e.retired + 1 + e.killedGangs = e.rcd.gangs) (unwritten : s.Unwritten v.entry) (takes : s.TakesWord e.rcd)
    (settled : Settled s 0) :
    tfind v.entry (retireGang u g).entries = none ∧ WordReads s (retireGang u g) e.rcd
      ((e.retired + 1) % 2 ^ 32 * 2 ^ 8 + if e.killedGangs ≠ 0 ∨ e.dropped = true then 8 else topStatus e.fills) := by
  have quiet : Quiet s (u.gangRetired g v.entry e) := q.trans (quiet_gangRetired g v.entry e)
  have found : tfind v.entry (u.gangRetired g v.entry e).entries = some { e with retired := e.retired + 1 } := tfind_tset_same _ _ _
  obtain ⟨free, mem, keys, io⟩ := finishInvocation_all found all (quiet.unwritten _ unwritten) (quiet.cwRoom settled takes)
  rw [retireGang_last hv last he]
  refine ⟨free, (quiet.wordReads settled takes _ _ (natBytes_statusWord _ ?_)).congr mem keys fun p =>
    congrArg (fun d : IoDie => d.port p) io⟩
  split
  · decide
  · exact topStatus_lt _

end

/-! The killing of the gangs of one queue (R338). -/

/-- The invariant of the killing of the gangs of an invocation e of s, which is the only one of its queue: it has ended, or n of its
gangs are left. -/
structure Closing (s u : State) (key : Nat) (e : Entry) (n : Nat) : Prop where
  idle : u.Idle
  phase : Pending s u key e n ∨ Ended s u key e

section
variable {s u w : State} {key g n : Nat} {e : Entry}

theorem Closing.of_quiet (h : Closing s u key e n) (q : Quiet u w) (same : w.entries = u.entries) : Closing s w key e n where
  idle := q.idle h.idle
  phase := h.phase.imp (fun o => ⟨o.quiet.trans q, by rw [same]; exact o.entry⟩)
    fun d => ⟨by rw [same]; exact d.free, d.word.congr q.mem q.keys fun _ => by rw [q.io]⟩

/-- A cleared gang of the invocation leaves one gang less of it. -/
theorem Closing.cleared {v : Gang} (hk : v.entry = key) (h : Closing s u key e (n + 1)) (c : Cleared u w g v) : Closing s w key e n := by
  have q := c.quiet h.idle
  have found : tfind key w.entries = (tfind key u.entries).map fun x => { x with killedGangs := x.killedGangs + 1 } := by
    rw [c.entries, tfind_map_values (oneKilled_key _)]
    simp [oneKilled, hk]
  refine ⟨q.idle h.idle, h.phase.imp (fun o => ⟨o.quiet.trans q, ?_⟩) fun d => ⟨by rw [found, d.free]; rfl, ?_⟩⟩
  · obtain ⟨x, hx, rcd, retired, dropped, placed⟩ := o.entry
    refine ⟨{ x with killedGangs := x.killedGangs + 1 }, by rw [found, hx]; rfl, rcd, retired, dropped, ?_⟩
    simp only []
    omega
  · exact d.word.congr q.mem q.keys fun _ => by rw [q.io]

variable (hs : Settled s 0) (hw : s.TakesWord e.rcd)
include hs hw

/-- The check whether the invocation has ended keeps the invariant. -/
theorem Closing.finish (h : Closing s u key e n) : Closing s (finishInvocation u key) key e n := by
  obtain o | d := h.phase
  · obtain ⟨v, hv, rcd, retired, dropped, -⟩ := o.entry
    rw [finishInvocation_dropped hv dropped]
    split
    · refine ⟨?_, .inr ⟨tfind_tdel_same _ _, ?_⟩⟩
      · show ∀ p ∈ (writeCw u _ _ _).topos, _
        rw [writeCw_device]
        exact h.idle
      · have word := o.quiet.wordReads hs hw v.queue (statusWord false v.retired stKilled) (natBytes_killed _)
        rw [retired, ← rcd] at *
        exact word.congr rfl rfl fun _ => rfl
    · exact h
  · rw [finishInvocation_free d.free]
    exact h

/-- The killing of a gang of the invocation leaves one gang less of it. -/
theorem Closing.kill {v : Gang} (hv : tfind g u.gangs = some v) (hk : v.entry = key) (h : Closing s u key e (n + 1)) :
    Closing s (killGang u g) key e n := by
  obtain ⟨a, clear, books, quiet⟩ := killGang_clears hv
  rw [hk] at books quiet
  exact ((h.cleared hk clear).finish hs hw).of_quiet quiet books.entries

/-- When every gang of the invocation has been killed, none is left. -/
theorem Closing.killAll {l : Tbl Gang} (distinct : (l.map (·.1)).Nodup)
    (here : ∀ p ∈ l, tfind p.1 u.gangs = some p.2 ∧ p.2.entry = key)
    (h : Closing s u key e l.length) : Closing s ((l.map (·.1)).foldl killGang u) key e 0 := by
  induction l generalizing u with
  | nil => exact h
  | cons p l ih =>
    rw [List.map_cons, List.nodup_cons] at distinct
    obtain ⟨hp, hk⟩ := here p List.mem_cons_self
    refine ih distinct.2 (fun q hq => ?_) (h.kill hs hw hp hk)
    obtain ⟨found, entry⟩ := here q (List.mem_cons_of_mem p hq)
    have other : q.1 ≠ p.1 := fun e => distinct.1 (e ▸ List.mem_map_of_mem hq)
    rw [(killGang_books u p.1).1, hp]
    exact ⟨(tfind_tdel_ne other _).trans found, entry⟩

/-- Once none of its gangs is left the invocation ends. -/
theorem Closing.finish_last (unwritten : s.Unwritten key) (h : Closing s u key e 0) :
    tfind key (finishInvocation u key).entries = none := by
  obtain o | d := h.phase
  · obtain ⟨v, hv, rcd, -, dropped, placed⟩ := o.entry
    rw [finishInvocation_dropped hv dropped, if_pos ⟨.inr placed.symm, entryBusy_of_unwritten (o.quiet.unwritten key unwritten),
      by rw [rcd]; exact o.quiet.cwRoom hs hw⟩]
    exact tfind_tdel_same _ _
  · exact finishInvocation_absent d.free key

/-- Looked at once or more, an invocation without gangs has ended. -/
theorem Closing.ended (unwritten : s.Unwritten key) (h : Closing s u key e 0) {es : List Nat} (some : key ∈ es)
    (only : ∀ k ∈ es, k = key) :
    Ended s (es.foldl finishInvocation u) key e := by
  have all : Closing s (es.foldl finishInvocation u) key e 0 :=
    List.foldlRecOn (motive := fun u => Closing s u key e 0) es finishInvocation h fun _ h k hk => by
      rw [only k hk]
      exact h.finish hs hw
  have free : tfind key (es.foldl finishInvocation u).entries = none := by
    cases es with
    | nil => cases some
    | cons k es =>
      rw [List.foldl_cons, only k List.mem_cons_self]
      exact finishAll_absent (h.finish_last hs hw unwritten) es
  obtain o | d := all.phase
  · obtain ⟨v, hv, -⟩ := o.entry
    rw [free] at hv
    cases hv
  · exact d

end

/-! The watchdog (R336 to R338). -/

/-- The keys of the invocations of a queue. -/
def State.entriesOf (s : State) (q : Nat) : List Nat := (s.entries.filter fun e => e.2.queue == q).map (·.1)

/-- The gangs of the invocations of a queue. -/
def State.gangsOf (s : State) (q : Nat) : Tbl Gang := s.gangs.filter fun g => (s.entriesOf q).contains g.2.entry

/-- The device with every invocation of a queue dropped. -/
def State.queueDropped (s : State) (q : Nat) : State :=
  { s with entries := s.entries.map fun (e : Nat × Entry) => if e.2.queue = q then (e.1, { e.2 with dropped := true }) else e }

/-- The device with every gang of a queue killed, and every invocation of it that can end ended. -/
def State.queueKilled (s : State) (q : Nat) : State :=
  (s.entriesOf q).foldl finishInvocation (((s.gangsOf q).map (·.1)).foldl killGang (s.queueDropped q))

section
variable {s : State} {q : Nat}

theorem killQueue_eq (s : State) (q : Nat) : killQueue s q =
    (s.queueKilled q).free.2.modQueue q fun k => { k with
      wdStage := 2, wdNs := 0, wdForced := none, state := 2, deficit := 0
      fault := (s.queueKilled q).free.1 &&& 0xFFFFFFFF000000FF#64 } := rfl

theorem queueKilled_gang {g : Nat} {v : Gang} {e : Entry} (hv : tfind g s.gangs = some v) (he : tfind v.entry s.entries = some e)
    (hq : e.queue = q) : tfind g (s.queueKilled q).gangs = none := by
  have entry : v.entry ∈ s.entriesOf q :=
    List.mem_map.mpr ⟨(v.entry, e), List.mem_filter.mpr ⟨mem_of_tfind he, by simpa using hq⟩, rfl⟩
  have gang : g ∈ (s.gangsOf q).map (·.1) :=
    List.mem_map.mpr ⟨(g, v), List.mem_filter.mpr ⟨mem_of_tfind hv, by simpa using entry⟩, rfl⟩
  exact List.foldlRecOn (motive := fun u : State => tfind g u.gangs = none) _ _ (killAll_gangs _ _ _ (.inl gang))
    fun _ h k _ => by rwa [(finishInvocation_books _ k).1]

theorem tfind_queueDropped {key : Nat} {e : Entry} (he : tfind key s.entries = some e) (hq : e.queue = q) :
    tfind key (s.queueDropped q).entries = some { e with dropped := true } := by
  have map := tfind_map_values (f := fun e : Nat × Entry => if e.2.queue = q then (e.1, { e.2 with dropped := true }) else e)
    (fun p => by split <;> rfl) key s.entries
  rw [he] at map
  exact map.trans (by simp [hq])

/-- The only invocation of a queue ends KILLED. -/
theorem queueKilled_ended {key : Nat} {e : Entry} (he : tfind key s.entries = some e) (hq : e.queue = q)
    (only : ∀ p ∈ s.entries, p.2.queue = q → p = (key, e)) (distinct : (s.gangs.map (·.1)).Nodup)
    (placed : e.placed = e.retired + e.killedGangs + s.gangs.countP fun g => g.2.entry == key) (unwritten : s.Unwritten key)
    (idle : s.Idle) (takes : s.TakesWord e.rcd) (settled : Settled s 0) : Ended s (s.queueKilled q) key e := by
  have here : key ∈ s.entriesOf q := List.mem_map.mpr ⟨(key, e), List.mem_filter.mpr ⟨mem_of_tfind he, by simpa using hq⟩, rfl⟩
  have alone : ∀ k ∈ s.entriesOf q, k = key := fun k hk => by
    obtain ⟨p, hp, rfl⟩ := List.mem_map.mp hk
    obtain ⟨mem, queue⟩ := List.mem_filter.mp hp
    rw [only p mem (by simpa using queue)]
  have gangs : s.gangsOf q = s.gangs.filter fun g => g.2.entry == key := by
    refine List.filter_congr fun g _ => ?_
    rw [Bool.eq_iff_iff, List.contains_iff_mem, beq_iff_eq]
    exact ⟨alone _, fun h => h ▸ here⟩
  have start : Closing s (s.queueDropped q) key e (s.gangsOf q).length := by
    rw [gangs, ← List.countP_eq_length_filter]
    exact ⟨idle, .inl ⟨⟨rfl, rfl, rfl, rfl, fun _ h => h, id, fun _ => id⟩, _, tfind_queueDropped he hq, rfl, rfl, rfl, placed⟩⟩
  have killed := start.killAll settled takes (List.Nodup.sublist (List.filter_sublist.map _) distinct) fun p hp => by
    have hp : p ∈ s.gangsOf q := hp
    rw [gangs] at hp
    obtain ⟨mem, entry⟩ := List.mem_filter.mp hp
    exact ⟨tfind_of_mem distinct mem, by simpa using entry⟩
  exact killed.ended settled takes unwritten here alone

end

/-- Every triad of a queue that is not parked is to be pre-empted (R338). -/
def wdogForced (q : Nat) (t : Nat × Triad) : Nat × Triad :=
  if t.2.queue = q ∧ !t.2.parked then (t.1, { t.2 with wdog := true }) else t

theorem wdogForced_key (q : Nat) (t : Nat × Triad) : (wdogForced q t).1 = t.1 := by
  unfold wdogForced
  split <;> rfl

section
variable {s : State} {q : Nat}

theorem forceQueue_eq (s : State) (q : Nat) : forceQueue s q =
    wdogSettle (({ s with triads := s.triads.map (wdogForced q) }).modQueue q fun k => { k with wdForced := some 0 }) q := rfl

theorem forceQueue_device : forceQueue s q = { s with triads := (forceQueue s q).triads, queues := (forceQueue s q).queues } := by
  rw [forceQueue_eq, (wdogSettle_queues _ q).1]
  rfl

theorem forceQueue_triads : (forceQueue s q).triads = s.triads.map (wdogForced q) := by
  rw [forceQueue_eq, wdogSettle_triads]
  rfl

theorem forceQueue_queue_ne {p : Nat} (h : p ≠ q) : (forceQueue s q).queue p = s.queue p := by
  rw [forceQueue_eq, (wdogSettle_queues _ q).2.2 p h]
  exact tget_tset_ne _ h _ _

/-- Whether a triad of the queue is still to stop, once all that are not parked have been forced. -/
theorem any_wdogForced (l : Tbl Triad) : ((l.map (wdogForced q)).any fun p => p.2.queue == q && p.2.wdog) =
    l.any fun p => p.2.queue == q && (p.2.wdog || !p.2.parked) := by
  rw [List.any_map]
  congr 1
  funext p
  obtain ⟨k, t⟩ := p
  by_cases hq : t.queue = q <;> cases hp : t.parked <;> simp [wdogForced, hq, hp]

theorem forceQueue_queue (q : Nat) : (forceQueue s q).queue q =
    if s.triads.any (fun p => p.2.queue == q && (p.2.wdog || !p.2.parked)) then { s.queue q with wdForced := some 0 }
    else { s.queue q with wdStage := 1, wdNs := 0, wdForced := none } := by
  have forced : (({ s with triads := s.triads.map (wdogForced q) }).modQueue q fun k => { k with wdForced := some 0 }).queue q =
      { s.queue q with wdForced := some 0 } := tget_tset_same _ _ _ _
  have left : (({ s with triads := s.triads.map (wdogForced q) }).modQueue q fun k => { k with wdForced := some 0 }).triads.any
      (fun p => p.2.queue == q && p.2.wdog) = s.triads.any fun p => p.2.queue == q && (p.2.wdog || !p.2.parked) := any_wdogForced _
  rw [forceQueue_eq, wdogSettle, forced, left]
  cases s.triads.any fun p => p.2.queue == q && (p.2.wdog || !p.2.parked)
  · simp [State.queue, State.modQueue]
  · exact forced

theorem exec_watchdogLimitExpiry_at {s : State} (on : (s.queue s.occ.n).wdEn = true) (resident : queueResident s s.occ.n = true)
    (limit : 1000 * (s.queue s.occ.n).wdLimit ≤ (s.queue s.occ.n).wdNs) (calm : (s.queue s.occ.n).wdForced = none) :
    exec .watchdogLimitExpiry s = .next (if (s.queue s.occ.n).wdStage = 1 then killQueue s s.occ.n
      else if (s.queue s.occ.n).wdStage = 0 then forceQueue s s.occ.n else s) := by
  show execWatchdogLimitExpiry s = _
  simp [execWatchdogLimitExpiry, on, resident, calm, Nat.not_lt.mpr limit]

theorem exec_watchdogGraceExpiry_at {s : State} {n : Nat} (forced : (s.queue s.occ.n).wdForced = some n)
    (on : (s.queue s.occ.n).wdEn = true) (grace : 1000 * (s.queue s.occ.n).wdGrace ≤ n)
    (running : ∃ p ∈ s.triads, p.2.queue = s.occ.n ∧ p.2.wdog = true) :
    exec .watchdogGraceExpiry s = .next (killQueue s s.occ.n) := by
  have any : (s.triads.any fun t => t.2.queue == s.occ.n && t.2.wdog) = true := by simpa [List.any_eq_true] using running
  show execWatchdogGraceExpiry s = _
  simp [execWatchdogGraceExpiry, forced, on, grace, any]

end

/-- Settles O47: a retirement is the drop of the triad and of what falls with it; the watchdog's killing by the invariant that the
invocation has ended or as many of its gangs are left as are still to be killed. -/
theorem triadsRetireAndTheWatchdogKills : Obligations.TriadsRetireAndTheWatchdogKills := by
  unfold Obligations.TriadsRetireAndTheWatchdogKills
  refine ⟨fun s tr v here may hv => ⟨_, exec_triadRetire_may here may, ?_, fun k hk => ?_, fun k => ?_, fun k => ?_, retired_tile hv,
    retired_cells hv, retired_more hv, fun last => ⟨retired_last hv last, fun e he all unwritten takes settled => ?_⟩⟩, fun s => ?watchdog⟩
  · simp [State.Has, retired_triads hv]
  · simp [State.triad, tget, retired_triads hv, hk]
  · rw [retired_slot hv]
    split <;> rfl
  · rw [retired_slot hv]
    split <;> rfl
  · have entry : tfind v.entry (s.left s.occ.n tr).entries = some e := by rw [left_entries, he]
    obtain ⟨free, word⟩ := retireGang_ends quiet_left (left_gang hv) last entry all unwritten takes settled
    rw [retired_device]
    exact ⟨free, word.congr rfl rfl fun _ => rfl⟩
  case watchdog =>
    intro q k Kills
    have kills {i : Instr} (run : exec i s = .next (killQueue s q)) : Kills i := by
      refine ⟨_, run, ?_, ?_, fun g v e hv he hq => queueKilled_gang hv he hq,
        fun key e he hq only distinct placed unwritten idle takes settled => ?_⟩
      · simp [killQueue_eq, State.queue, State.modQueue]
      · simp [killQueue_eq, State.queue, State.modQueue]
      · have ended := queueKilled_ended he hq only distinct placed unwritten idle takes settled
        exact ⟨ended.free, ended.word.congr rfl rfl fun _ => rfl⟩
    refine ⟨fun on resident limit calm => ⟨fun stage => kills ?_, fun stage => ⟨_, ?_, forceQueue_device,
        fun p hp => forceQueue_queue_ne hp, fun c tr found => ?_, fun running => ?_, fun parked => ?_⟩⟩,
      fun n forced on grace running => kills (exec_watchdogGraceExpiry_at forced on grace running)⟩
    · exact (exec_watchdogLimitExpiry_at on resident limit calm).trans (congrArg _ (if_pos stage))
    · refine (exec_watchdogLimitExpiry_at on resident limit calm).trans (congrArg _ ?_)
      rw [if_neg (by rw [stage]; decide), if_pos stage]
    · rw [forceQueue_triads, tfind_map_values (wdogForced_key q), found]
      simp only [Option.map_some, wdogForced, Bool.not_eq_true']
      split <;> rfl
    · obtain ⟨p, hp, queue, unparked⟩ := running
      rw [forceQueue_queue, if_pos]
      exact List.any_eq_true.mpr ⟨p, hp, by simp [queue, unparked]⟩
    · rw [forceQueue_queue, if_neg]
      rw [Bool.not_eq_true, List.any_eq_false]
      intro p hp
      by_cases queue : p.2.queue = q
      · simp [parked p hp queue]
      · simp [queue]

end Sys2Proof.Machine
end

section
namespace Sys2Proof.Machine

/-! A cohort issues one word (R94, R95). -/

/-- A vector state that holds the same VFETCH leaves the cohort that issues. -/
theorem vpNow_modVec (s : State) {w : VecState} (hw : w.vp = s.vec.vp) : (s.modVec fun _ => w).vpNow = s.vpNow := by
  have vec : (s.modVec fun _ => w).vec = w := s.vec_modVec _
  have cur : (s.modVec fun _ => w).cur = s.cur := rfl
  unfold State.vpNow
  rw [vec, cur, hw]

/-- A VP after the word of the cohort at pc. -/
theorem VpState.tfind_issued (v : VpState) (pc : Word) (dest : Nat → Option Word) (sr : Bool) (e : Evs) (k : Nat) :
    tfind k (v.issued pc dest sr e).vps = (tfind k v.vps).map fun p =>
      if p.live ∧ p.pc = pc then match dest k with
        | some a => { p with pc := a, sr := p.sr + if sr then 1 else 0 }
        | none => { p with live := false }
      else p := by
  unfold VpState.issued
  rw [tfind_map_values fun p => by split <;> rfl]
  congr 1
  funext p
  split <;> rfl

/-- The word of a cohort is complete once its slot holds the VPs that have issued it, and nothing else changes. -/
theorem cohortDone_of {s t : State} {v : VpState} {pc : Word} {w : VecState} {dest : Nat → Option Word} {sr : Bool} {e : Evs}
    (device : t = { s with slots := t.slots }) (slots : ∀ k, k ≠ s.tr.slotKey → t.slot k = s.slot k)
    (slot : t.slot s.tr.slotKey = { s.slot s.tr.slotKey with vec := { w with vp := some (v.issued pc dest sr e) } }) :
    CohortDone s t v pc w dest (if sr then 1 else 0) e.ev := by
  refine ⟨device, slots, _, slot, rfl, rfl, rfl, rfl, rfl, fun k p hp =>
    ⟨_, by rw [v.tfind_issued, hp]; rfl, fun at_ => ?_, fun away => if_neg away⟩⟩
  simp only [if_pos at_]
  exact ⟨fun a ha => by simp [ha, at_.1], fun none => by simp [none]⟩

/-- The cohort goes on without results. -/
theorem vpGo_cohort (s : State) (v : VpState) (pc : Word) (dest : Nat → Option Word) :
    CohortDone s (s.vpGo v pc dest) v pc s.vec dest 0 0 := by
  have key (k : Nat) := s.slot_modSlot s.tr.slotKey k fun x => { x with vec := { s.vec with vp := some (v.issued pc dest false Evs.none) } }
  exact cohortDone_of (sr := false) (e := Evs.none) rfl (fun k hk => (key k).trans (if_neg hk)) ((key _).trans (if_pos rfl))

/-- The cohort goes on after results `w` and events `e` (R57, R95). -/
theorem vFinish_cohort {s : State} {v : VpState} {pc : Word} (h : s.vpNow = some (v, pc)) {w : VecState} (hw : w.vp = s.vec.vp) (sr : Bool)
    (e : Evs) : CohortDone s ((s.modVec fun _ => w).vFinish sr e) v pc w (fun _ => some (v.next pc)) (if sr then 1 else 0) e.ev := by
  have now : (s.modVec fun _ => w).vpNow = some (v, pc) := (vpNow_modVec s hw).trans h
  have first (k : Nat) := s.slot_modSlot s.tr.slotKey k fun x => { x with vec := w }
  have key (k : Nat) := (s.modVec fun _ => w).slot_modSlot s.tr.slotKey k fun x =>
    { x with vec := { x.vec with vp := some (v.issued pc (fun _ => some (v.next pc)) sr e) } }
  unfold State.vFinish
  rw [now]
  refine cohortDone_of rfl (fun k hk => ?_) ?_
  · exact ((key k).trans (if_neg hk)).trans ((first k).trans (if_neg hk))
  · refine ((key _).trans (if_pos rfl)).trans ?_
    rw [show (s.modVec fun _ => w).slot s.tr.slotKey = _ from (first _).trans (if_pos rfl)]

/-- In VP mode a word goes on at once: it was checked when its block was entered (R73, R93). -/
theorem vIssue_cohort {s : State} {v : VpState} {pc : Word} (h : s.vpNow = some (v, pc)) (dec disp : Bool) (reads writes : List Opnd)
    (go : State → State) : s.vIssue dec disp reads writes go = go s := by
  unfold State.vIssue
  rw [h]
  rfl

/-- The elements on which a cohort's word acts: the VPs at its pc, each with its own SR count and its own number (R94, R150). -/
def VpState.run (v : VpState) (pc : Word) : VRun := ⟨v.at pc, fun _ e => (tget ⟨0, false, 0⟩ e v.vps).sr, fun _ e => e⟩

theorem vRun_cohort {s : State} {v : VpState} {pc : Word} (h : s.vpNow = some (v, pc)) (m : Nat) : s.vRun m = v.run pc := by
  unfold State.vRun
  rw [h]
  rfl

/-- Events whose index is the element alone. -/
theorem eventsOf_cohort {ev : Evs} {g : Nat} {act : List Nat} {res : Nat → Nat → Result}
    (h : ∀ c, c < 6 → Collects ev (raisedOf g act res fun _ e => e) c) :
    EventsOf ev g 0 act (fun j e => if (res j e).2.2 then 0 else (res j e).2.1) :=
  eventsOf_collects (by simpa only [Nat.mul_zero, Nat.zero_add] using h)

/-- An elementwise word of a cohort (R57, R94, R131, R134, R138). -/
theorem runElems_cohort {s : State} {v : VpState} {pc : Word} (h : s.vpNow = some (v, pc)) (m : Nat) (lg : Lg) (g : Nat) (srcs : List Src)
    (dst : BitVec 6) (w : Nat) (fn : VRun → EltFn) (sr : Bool) (hw : 0 < w) (hd : w ∣ 2048) (distinct : (v.at pc).Nodup)
    (hb : ∀ e ∈ v.at pc, egOf w e < 64) :
    let res := fun j e => fn (v.run pc) j e (srcs.map fun x => readElt s.vec (s.bound s.tr.core) lg x j e)
    ∃ u ev, CohortDone s (s.runElems m lg g srcs (.reg dst.toNat) w fn sr) v pc u (fun _ => some (v.next pc)) (if sr then 1 else 0) ev.ev ∧
      Elementwise s.vec u (v.at pc) (srcs.map (·.o)) (.reg dst.toNat) g w (fun j e => (res j e).1) (fun j e => (res j e).2.2) ∧
      EventsOf ev g 0 (v.at pc) (fun j e => if (res j e).2.2 then 0 else (res j e).2.1) := by
  intro res
  obtain ⟨elements, events⟩ := elementwise_spec s.vec (s.bound s.tr.core) (v.run pc) lg g srcs (.reg dst.toNat) w (fn (v.run pc)) hw hd
    distinct hb fun q hq => by cases hq
  refine ⟨_, _, ?_, elements, eventsOf_cohort events⟩
  unfold State.runElems
  rw [vRun_cohort h]
  exact vFinish_cohort h elements.rest.2.2 sr _

end Sys2Proof.Machine
end

section
namespace Sys2Proof.Machine

/-! Bit operations within a width, as bit vectors (R145). -/

theorem notNat_toNat {w : Nat} (a : BitVec w) : notNat w a.toNat = (~~~a).toNat := by
  rw [notNat, Nat.mod_eq_of_lt a.isLt, BitVec.toNat_not]

theorem sraNat_mod {w : Nat} (hw : 0 < w) (a : BitVec w) (k : Nat) : sraNat w a.toNat k % 2 ^ w = (a.sshiftRight k).toNat := by
  have shifted : (a.sshiftRight k).toInt = a.toInt / (2 ^ k : Nat) := by
    rw [BitVec.toInt_sshiftRight, Int.shiftRight_eq_div_pow]
  rw [sraNat, sextNat_eq _ _ hw, BitVec.ofNat_toNat, BitVec.setWidth_eq, ← shifted, ← BitVec.toNat_ofNat, ofNat_wrapInt,
    BitVec.ofInt_toInt]

theorem rotlNat_mod {w k : Nat} (hk : k < w) (a : BitVec w) : rotlNat w a.toNat k % 2 ^ w = (a.rotateLeft k).toNat := by
  have split : 2 ^ w = 2 ^ (w - k) * 2 ^ k := by rw [← Nat.pow_add]; congr 1; omega
  have high : a.toNat / 2 ^ (w - k) < 2 ^ k := Nat.div_lt_of_lt_mul (split ▸ a.isLt)
  have low : a.toNat <<< k % 2 ^ w = (a.toNat % 2 ^ (w - k)) <<< k := by
    rw [Nat.shiftLeft_eq, Nat.shiftLeft_eq, split, Nat.mul_mod_mul_right]
  have small : (a.toNat % 2 ^ (w - k)) <<< k + a.toNat / 2 ^ (w - k) < 2 ^ w := by
    rw [Nat.shiftLeft_add_eq_or_of_lt high, ← low]
    exact Nat.or_lt_two_pow (Nat.mod_lt _ (Nat.two_pow_pos _)) (Nat.lt_of_le_of_lt (Nat.div_le_self _ _) a.isLt)
  have top : a.toNat / 2 ^ (w - k) < 2 ^ w := Nat.lt_of_le_of_lt (Nat.div_le_self _ _) a.isLt
  rw [rotlNat, Nat.mod_mod, ← Nat.shiftLeft_eq, Nat.add_mod, low, Nat.mod_eq_of_lt top, Nat.mod_eq_of_lt small,
    BitVec.toNat_rotateLeft, Nat.mod_eq_of_lt hk, low, Nat.shiftRight_eq_div_pow, Nat.shiftLeft_add_eq_or_of_lt high]

theorem clzNat_mod {w : Nat} (a : BitVec w) :
    clzNat w a.toNat % 2 ^ w = (BitVec.ofNat w (if a = 0 then w else w - 1 - Nat.log2 a.toNat)).toNat := by
  have zero : a.toNat = 0 ↔ a = 0 := by simp [← BitVec.toNat_inj]
  simp only [clzNat, BitVec.toNat_ofNat, zero]

theorem popNat_mod {w : Nat} (a : BitVec w) :
    popNat w a.toNat % 2 ^ w = (BitVec.ofNat w ((List.range w).countP fun i => a.getLsbD i)).toNat := by
  rw [BitVec.toNat_ofNat, List.countP_eq_length_filter, popNat]
  simp [nrange]
  rfl

/-- Bits taken in reverse order. -/
theorem testBit_sum_rev (g : Nat → Bool) (n k : Nat) :
    (((nrange 0 n).map fun i => if g i then 2 ^ (n - 1 - i) else 0).sum).testBit k = (decide (k < n) && g (n - 1 - k)) := by
  induction n generalizing k with
  | zero => simp [nrange]
  | succ n ih =>
    have horner : ((nrange 0 (n + 1)).map fun i => if g i then 2 ^ (n + 1 - 1 - i) else 0).sum =
        2 * ((nrange 0 n).map fun i => if g i then 2 ^ (n - 1 - i) else 0).sum + (g n).toNat := by
      have double : ((nrange 0 n).map fun i => if g i then 2 ^ (n - i) else 0) =
          (nrange 0 n).map fun i => 2 * (if g i then 2 ^ (n - 1 - i) else 0) := by
        refine List.map_congr_left fun i hi => ?_
        have := mem_nrange.mp hi
        rw [show n - i = n - 1 - i + 1 by omega, Nat.pow_succ, Nat.mul_comm _ 2]
        split <;> rfl
      rw [nrange_zero_succ, List.map_append, List.sum_append, Nat.add_sub_cancel, double, List.sum_map_mul_left]
      cases hg : g n <;> simp [hg]
    rw [horner]
    cases k with
    | zero => cases hg : g n <;> simp [Nat.testBit_zero, hg, Nat.add_mod]
    | succ k =>
      have half : (2 * ((nrange 0 n).map fun i => if g i then 2 ^ (n - 1 - i) else 0).sum + (g n).toNat) / 2 =
          ((nrange 0 n).map fun i => if g i then 2 ^ (n - 1 - i) else 0).sum := by
        have := (g n).toNat_le
        omega
      rw [Nat.testBit_succ, half, ih, show n + 1 - 1 - (k + 1) = n - 1 - k by omega]
      simp

theorem revNat_toNat {w : Nat} (a : BitVec w) : revNat w a.toNat = a.reverse.toNat := by
  refine Nat.eq_of_testBit_eq fun k => ?_
  simp only [revNat, testBit_sum_rev, BitVec.testBit_toNat, BitVec.getLsbD_reverse, BitVec.getMsbD]

/-- A condition between two values of a width (R67). -/
theorem condHolds_ofNat {w : Nat} (hw : 0 < w) (c a b : Nat) :
    condHolds c w a b = true ↔
      match c with
      | 0 => BitVec.ofNat w a = BitVec.ofNat w b
      | 1 => BitVec.ofNat w a ≠ BitVec.ofNat w b
      | 2 => (BitVec.ofNat w a).toInt < (BitVec.ofNat w b).toInt
      | 3 => (BitVec.ofNat w b).toInt ≤ (BitVec.ofNat w a).toInt
      | 4 => (BitVec.ofNat w a).toNat < (BitVec.ofNat w b).toNat
      | 5 => (BitVec.ofNat w b).toNat ≤ (BitVec.ofNat w a).toNat
      | _ => True := by
  have signed (n : Nat) : sextNat w (n % 2 ^ w) = (BitVec.ofNat w n).toInt := by
    rw [sextNat_eq _ _ hw, ← BitVec.toNat_ofNat, BitVec.ofNat_toNat, BitVec.setWidth_eq]
  unfold condHolds
  simp only [signed]
  split <;> simp [← BitVec.toNat_inj]

/-- A run of mask bits put one after another. -/
theorem testBit_foldl_setBit (g : Nat → Bool) (act : List Nat) (b : Bits) (i : Nat) :
    ((act.map fun e => (e, g e)).foldl (fun b r => setBit b r.1 r.2) b).testBit i = if i ∈ act then g i else b.testBit i := by
  induction act using List.reverseRecOn with
  | nil => simp
  | append_singleton act e ih =>
    rw [List.map_append, List.foldl_append]
    show (setBit _ e (g e)).testBit i = _
    rw [setBit, testBit_setBitsAt, ih]
    by_cases hi : i = e
    · subst hi
      cases g i <;> simp
    · rw [if_neg (by omega)]
      simp [hi]

end Sys2Proof.Machine
end

section
namespace Sys2Proof.Machine

section
variable {s : State} {v : VpState} {pc : Word}

/-! VPBR, VJOIN and NOP in VP mode (R73, R96, R97). -/

theorem exec_vpbr_cohort {f : FmtJ} (h : s.vpNow = some (v, pc)) (aligned : (pc + dispBytes f.disp40).toNat % 128 = 0)
    (clean : f.cond.toNat = 6 ∨ ∀ n, n = f.xa ∨ n = f.xb → ∀ e ∈ v.at pc, s.vec.opPois (.reg n.toNat) 0 (egOf v.ew e) = false) :
    exec (.vpbr f) s = .next (s.vpGo v pc fun e => some (if condHolds f.cond.toNat v.ew (elemAt (s.vec.reg f.xa.toNat) v.ew e)
      (elemAt (s.vec.reg f.xb.toNat) v.ew e) then pc + dispBytes f.disp40 else v.next pc)) := by
  have calm : (if f.cond = 6#3 then none else (v.at pc).find? fun e =>
      s.vec.opPois (.reg f.xa.toNat) 0 (egOf v.ew e) || s.vec.opPois (.reg f.xb.toNat) 0 (egOf v.ew e)) = none := by
    split
    · rfl
    · next other =>
      have clean := clean.resolve_left fun e => other (BitVec.eq_of_toNat_eq e)
      exact List.find?_eq_none.mpr fun e he => by simp [clean _ (.inl rfl) e he, clean _ (.inr rfl) e he]
  show execVpbr f s = _
  unfold execVpbr
  simp only [h, (blockAligned_iff _).mpr aligned, Bool.not_true, Bool.false_eq_true, if_false, calm]

theorem exec_vjoin_cohort (h : s.vpNow = some (v, pc)) (y : FmtY) : exec (.vjoin y) s = .next (s.vpGo v pc fun _ => none) := by
  show execVjoin y s = _
  rw [execVjoin, h]

theorem exec_nop_cohort (h : s.vpNow = some (v, pc)) (y : FmtY) :
    exec (.nop y) s = .next (s.vpGo v pc fun _ => some (v.next pc)) := by
  show execNop y s = _
  rw [execNop, h]

/-! Words with a legend (R140, R146, R156). -/

section
variable {f : FmtV} {lg : Lg}

/-- No ring stands in a word whose ring flags are 0. -/
theorem no_rings (plain : f.q = 0#4) : f.qd = false ∧ f.qa = false ∧ f.qb = false ∧ f.qc = false := by
  unfold FmtV.qd FmtV.qa FmtV.qb FmtV.qc
  rw [plain]
  decide

/-- The cohort has issued an arithmetic word of n sources whose result is `res` (R94, R140, R150). -/
def ArithDone (s : State) (v : VpState) (pc : Word) (f : FmtV) (lg : Lg) (n : Nat) (res : RCtx → Elt → Elt → Elt → Nat × Ev)
    (t : State) : Prop :=
  ∃ w ev,
    let x (n : BitVec 6) (fm : Fmt) (j e : Nat) : Elt := readElt s.vec (s.bound s.tr.core) lg (lgSrc lg f.g false n fm) j e
    let pois := fun j e => (x f.va lg.fa j e).pois || (decide (2 ≤ n) && (x f.vb lg.fb j e).pois) ||
      (decide (3 ≤ n) && (x f.vc lg.fc j e).pois)
    let out := fun j e => res (lg.at (tget ⟨0, false, 0⟩ e v.vps).sr e) (x f.va lg.fa j e) (x f.vb lg.fb j e) (x f.vc lg.fc j e)
    CohortDone s t v pc w (fun _ => some (v.next pc)) (if lg.sr then 1 else 0) ev.ev ∧
    Elementwise s.vec w (v.at pc) (vOpnds f n) (.reg f.vd.toNat) f.g lg.fd.width (fun j e => (out j e).1) pois ∧
    EventsOf ev f.g 0 (v.at pc) (fun j e => if pois j e then 0 else (out j e).2)

/-- An arithmetic word gives each VP of the cohort the result of its kind. -/
theorem arith_cohort (h : s.vpNow = some (v, pc)) (plain : f.q = 0#4) (distinct : (v.at pc).Nodup)
    (hb : ∀ e ∈ v.at pc, egOf v.ew e < 64) (op : AOp) (res : RCtx → Elt → Elt → Elt → Nat × Ev)
    (hres : ∀ r a b c, op.elt lg (f.opv.getLsbD 0) r a (if 2 ≤ op.nsrc then b else Elt.zero) (if 3 ≤ op.nsrc then c else Elt.zero) =
      res r a b c)
    (legend : s.arithLg op f = some lg) (width : lg.fd.width = v.ew) :
    ArithDone s v pc f lg op.nsrc res (s.arith op f) := by
  let x (n : BitVec 6) (fm : Fmt) (j e : Nat) : Elt := readElt s.vec (s.bound s.tr.core) lg (lgSrc lg f.g false n fm) j e
  obtain ⟨qd, qa, qb, qc⟩ := no_rings plain
  have run : s.arith op f = s.runElems f.m.toNat lg f.g (lgSrcs lg f (op.srcFmts lg)) (.reg f.vd.toNat) lg.fd.width
      (op.fn lg (f.opv.getLsbD 0)) lg.sr := by
    unfold State.arith
    rw [vIssue_cohort h, legend, qd]
    rfl
  have value (j e : Nat) : op.fn lg (f.opv.getLsbD 0) (v.run pc) j e
      ((lgSrcs lg f (op.srcFmts lg)).map fun x => readElt s.vec (s.bound s.tr.core) lg x j e) =
        (let r := res (lg.at (tget ⟨0, false, 0⟩ e v.vps).sr e) (x f.va lg.fa j e) (x f.vb lg.fb j e) (x f.vc lg.fc j e)
        (r.1, r.2, (x f.va lg.fa j e).pois || (decide (2 ≤ op.nsrc) && (x f.vb lg.fb j e).pois) ||
          (decide (3 ≤ op.nsrc) && (x f.vc lg.fc j e).pois))) := by
    obtain ⟨h0, h1, h2, h3⟩ := lgSrcs_elts lg f op fun x => readElt s.vec (s.bound s.tr.core) lg x j e
    simp only [AOp.fn, h0, h1, h2, h3, hres, qa, qb, qc]
    rfl
  have cohort := runElems_cohort h f.m.toNat lg f.g (lgSrcs lg f (op.srcFmts lg)) f.vd lg.fd.width (op.fn lg (f.opv.getLsbD 0)) lg.sr
    lg.fd.width_pos lg.fd.width_dvd distinct (width ▸ hb)
  simp only [value, lgSrcs_opnds] at cohort
  exact run ▸ cohort

/-- One element of VCVT under a legend, as `execVcvt` computes it. -/
def Lg.cvt (lg : Lg) (run : VRun) : EltFn := fun j e xs =>
  let x := xs.getD 0 Elt.zero
  let r := roundTo lg.fd (lg.at (run.lane j e) e) x.val
  (r.1, sigEv [x.val] ||| r.2, x.pois)

/-- VCVT rounds each element of the cohort (R94, R156). -/
theorem vcvt_cohort (h : s.vpNow = some (v, pc)) (plain : f.q = 0#4) (distinct : (v.at pc).Nodup)
    (hb : ∀ e ∈ v.at pc, egOf v.ew e < 64) (legend : s.cvtLg f = some lg) (width : lg.fd.width = v.ew) :
    let x (j e : Nat) : Elt := readElt s.vec (s.bound s.tr.core) lg (lgSrc lg f.g false f.va lg.fa) j e
    let r := fun j e => roundTo lg.fd (lg.at (tget ⟨0, false, 0⟩ e v.vps).sr e) (x j e).val
    Completes (.vcvt f) s fun t => ∃ w ev, CohortDone s t v pc w (fun _ => some (v.next pc)) (if lg.sr then 1 else 0) ev.ev ∧
      Elementwise s.vec w (v.at pc) (vOpnds f 1) (.reg f.vd.toNat) f.g lg.fd.width (fun j e => (r j e).1) (fun j e => (x j e).pois) ∧
      EventsOf ev f.g 0 (v.at pc) (fun j e => if (x j e).pois then 0 else (if (x j e).val.isSig then evIV else 0) ||| (r j e).2) := by
  intro x r
  obtain ⟨qd, qa, qb, qc⟩ := no_rings plain
  have srcs : lgSrcs lg f [lg.fa] = [lgSrc lg f.g false f.va lg.fa] := by rw [← qa]; rfl
  have reads : vOpnds f 1 = [(lgSrc lg f.g false f.va lg.fa).o] := by rw [← qa]; rfl
  have value (j e : Nat) : lg.cvt (v.run pc) j e
      ([lgSrc lg f.g false f.va lg.fa].map fun y => readElt s.vec (s.bound s.tr.core) lg y j e) =
        ((r j e).1, (if (x j e).val.isSig then evIV else 0) ||| (r j e).2, (x j e).pois) := by
    have signal : sigEv [(x j e).val] = if (x j e).val.isSig then evIV else 0 := by simp [sigEv]
    rw [← signal]
    rfl
  obtain ⟨w, ev, done, elements, events⟩ := runElems_cohort h f.m.toNat lg f.g [lgSrc lg f.g false f.va lg.fa] f.vd lg.fd.width lg.cvt
    lg.sr lg.fd.width_pos lg.fd.width_dvd distinct (width ▸ hb)
  simp only [value] at elements events
  refine ⟨_, congrArg Host.Outcome.next ?_, w, ev, done, reads ▸ elements, events⟩
  unfold State.transform
  rw [vIssue_cohort h, legend, qd]
  simp only [srcs]
  rfl

end

end

end Sys2Proof.Machine
end

section
namespace Sys2Proof.Machine

/-! VCMP in VP mode (R94, R146). -/

/-- The bit that a comparison gives is the one that R146 says. -/
theorem cmpElt_bit (c : Nat) (a b : Val) : CmpBit c a b (cmpElt c a b).1 := by
  unfold CmpBit cmpElt
  generalize cmpV a b = o
  refine ⟨?_, ?_, ?_, ?_, ?_, ?_, ?_⟩ <;> rintro rfl <;> cases o <;> simp

section
variable (s : State) (lg : Lg) (f : FmtV)

/-- The two elements that VCMP compares. -/
def cmpA (e : Nat) : Elt := readElt s.vec (s.bound s.tr.core) lg (lgSrc lg 1 false f.va lg.fa) 0 e
def cmpB (e : Nat) : Elt := readElt s.vec (s.bound s.tr.core) lg (lgSrc lg 1 false f.vb lg.fb) 0 e

/-- The bit and the events of VCMP for one element. -/
def cmpOut (e : Nat) : Bool × Ev := cmpElt (f.opv.toNat % 8) (cmpA s lg f e).val (cmpB s lg f e).val

/-- The vector state after VCMP of some elements. -/
def cmpVec (act : List Nat) : VecState := s.vec.putMask (f.vd.toNat % 16) (act.map fun e => (e, (cmpOut s lg f e).1))

/-- The events of VCMP of some elements. -/
def cmpEvs (act : List Nat) : Evs := (act.map fun e => (e, (cmpOut s lg f e).2)).foldl (fun x p => x.add p.2 p.1) Evs.none

theorem testBit_cmpVec (act : List Nat) (k e : Nat) : (tget 0 k (cmpVec s lg f act).m).testBit e =
    if k = f.vd.toNat % 16 ∧ e ∈ act then (cmpOut s lg f e).1 else (tget 0 k s.vec.m).testBit e := by
  show (tget 0 k (tset (f.vd.toNat % 16) _ s.vec.m)).testBit e = _
  rw [tget_tset]
  by_cases hk : k = f.vd.toNat % 16
  · subst hk
    simp only [if_true, true_and]
    exact testBit_foldl_setBit (fun e => (cmpOut s lg f e).1) ..
  · simp only [hk, if_false, false_and]

theorem eventsOf_cmpEvs (act : List Nat) : EventsOf (cmpEvs s lg f act) 1 0 act fun _ e => (cmpOut s lg f e).2 := by
  have events := eventsOf_cohort (ev := cmpEvs s lg f act) (g := 1) (act := act) (res := fun _ e => (0, (cmpOut s lg f e).2, false))
    fun k hk => by
      have fold := Collects.fold hk (act.map fun e => (e, (cmpOut s lg f e).2)) [] _ collects_nil
      simpa [raisedOf, nrange, cmpEvs] using fold
  simpa using events

end

section
variable {s : State} {v : VpState} {pc : Word} {f : FmtV} {lg : Lg}

theorem exec_vcmp_cohort (h : s.vpNow = some (v, pc)) (plain : f.q = 0#4) (legend : s.cmpLg f = some lg)
    (clean : ∀ e ∈ v.at pc, (cmpA s lg f e).pois = false ∧ (cmpB s lg f e).pois = false) :
    exec (.vcmp f) s = .next ((s.modVec fun _ => cmpVec s lg f (v.at pc)).vFinish lg.sr (cmpEvs s lg f (v.at pc))) := by
  obtain ⟨qd, qa, qb, qc⟩ := no_rings plain
  have calm : ((v.run pc).act.map fun e => (e, cmpA s lg f e, cmpB s lg f e)).find? (fun r => r.2.1.pois || r.2.2.pois) = none := by
    refine List.find?_eq_none.mpr fun r hr => ?_
    obtain ⟨e, he, rfl⟩ := List.mem_map.mp hr
    simp [clean e he]
  unfold cmpA cmpB at calm
  refine congrArg Host.Outcome.next ?_
  rw [vIssue_cohort h, legend]
  simp only [vRun_cohort h, qa, qb, calm]
  simp only [List.map_map, List.foldl_map, cmpEvs, vOpnds, qa, qb]
  rfl

/-- VCMP gives each VP of the cohort its mask bit (R94, R146). -/
theorem vcmp_cohort (h : s.vpNow = some (v, pc)) (plain : f.q = 0#4) (legend : s.cmpLg f = some lg)
    (clean : ∀ e ∈ v.at pc, (cmpA s lg f e).pois = false ∧ (cmpB s lg f e).pois = false) :
    Completes (.vcmp f) s fun t => ∃ w ev, CohortDone s t v pc w (fun _ => some (v.next pc)) (if lg.sr then 1 else 0) ev.ev ∧
      w = { s.vec with m := w.m } ∧
      (∀ k e, k ≠ f.vd.toNat % 16 ∨ e ∉ v.at pc → (tget 0 k w.m).testBit e = (tget 0 k s.vec.m).testBit e) ∧
      (∀ e ∈ v.at pc, CmpBit (f.opv.toNat % 8) (cmpA s lg f e).val (cmpB s lg f e).val ((tget 0 (f.vd.toNat % 16) w.m).testBit e)) ∧
      EventsOf ev 1 0 (v.at pc) (fun _ e => cmpRaises (f.opv.toNat % 8) (cmpA s lg f e).val (cmpB s lg f e).val) := by
  refine ⟨_, exec_vcmp_cohort h plain legend clean, cmpVec s lg f (v.at pc), cmpEvs s lg f (v.at pc),
    vFinish_cohort h (w := cmpVec s lg f (v.at pc)) rfl _ _, rfl, fun k e away => ?_, fun e he => ?_, eventsOf_cmpEvs s lg f _⟩
  · rw [testBit_cmpVec, if_neg fun both => away.elim (· both.1) (· both.2)]
  · rw [testBit_cmpVec, if_pos ⟨rfl, he⟩]
    exact cmpElt_bit ..

end

/-! Bit patterns in VP mode (R94, R145, R147, R148). -/

/-- A bit pattern read whole from a register of a group. -/
theorem readElt_bits (u : VecState) (slabs : Nat) (r : BitVec 6) (t : BitVec 4) (j e : Nat) :
    let x := readElt u slabs Lg.plain (rawSrc false r (tw t)) j e
    x.raw = (BitVec.ofNat (tw t) (elemAt (u.reg (r.toNat + j)) (tw t) e)).toNat ∧ x.pois = u.opPois (.reg r.toNat) j (egOf (tw t) e) := by
  have width : (natFmt (tw t)).width = tw t ∧ (natFmt (tw t)).codeWidth = tw t := by
    rcases tw_cases t with h | h | h | h <;> rw [h] <;> decide
  simp only [readElt, rawSrc, width, Bool.or_false, BitVec.toNat_ofNat]
  exact ⟨rfl, rfl⟩

/-- Events of results that raise none. -/
theorem EventsOf.none {ev : Evs} {g vl : Nat} {act : List Nat} {raised : Nat → Nat → Ev} (h : EventsOf ev g vl act raised)
    (calm : ∀ j e, raised j e = 0) : ev.ev = 0 := by
  refine BitVec.eq_of_getLsbD_eq fun c hc => ?_
  refine Eq.trans (Bool.eq_false_iff.mpr fun raised => ?_) BitVec.getLsbD_zero.symm
  obtain ⟨j, _, e, _, raises⟩ := (h c hc).1.mp raised
  simp [calm] at raises

section
variable {s : State} {v : VpState} {pc : Word} {f : FmtV}

/-- The cohort has issued a word on bit patterns that gives `res` of its sources, with poison `pois` (R94, R138). -/
def BitsDone (s : State) (v : VpState) (pc : Word) (f : FmtV) (n : Nat)
    (res : Nat → BitVec (tw f.t) → BitVec (tw f.t) → BitVec (tw f.t) → BitVec (tw f.t))
    (pois : Nat → BitVec (tw f.t) → Bool → Bool → Bool → Bool) (t : State) : Prop :=
  ∃ w,
    let bits := fun (n : BitVec 6) j e => BitVec.ofNat (tw f.t) (elemAt (s.vec.reg (n.toNat + j)) (tw f.t) e)
    let bad := fun (n : BitVec 6) j e => s.vec.opPois (.reg n.toNat) j (egOf (tw f.t) e)
    CohortDone s t v pc w (fun _ => some (v.next pc)) 0 0 ∧
    Elementwise s.vec w (v.at pc) (vOpnds f n) (.reg f.vd.toNat) f.g (tw f.t)
      (fun j e => (res e (bits f.va j e) (bits f.vb j e) (bits f.vc j e)).toNat)
      (fun j e => pois e (bits f.vc j e) (bad f.va j e) (bad f.vb j e) (bad f.vc j e))

/-- The sources of a word on bit patterns. -/
def bitSrcs (f : FmtV) (n : Nat) : List Src := ([f.va, f.vb, f.vc].take n).map fun r => rawSrc false r (tw f.t)

/-- A word on bit patterns gives each VP of the cohort what its instruction says of its sources (R94). -/
theorem bitwise_cohort (h : s.vpNow = some (v, pc)) (plain : f.q = 0#4) (width : tw f.t = v.ew) (distinct : (v.at pc).Nodup)
    (hb : ∀ e ∈ v.at pc, egOf v.ew e < 64) {n : Nat} (dec : Bool) {fn : VRun → EltFn}
    {res : Nat → BitVec (tw f.t) → BitVec (tw f.t) → BitVec (tw f.t) → BitVec (tw f.t)}
    {pois : Nat → BitVec (tw f.t) → Bool → Bool → Bool → Bool}
    (gives : ∀ run j e (x y z : Elt) (a b c : BitVec (tw f.t)), x.raw = a.toNat → y.raw = b.toNat → z.raw = c.toNat →
      fn run j e ([x, y, z].take n) = ((res e a b c).toNat, 0, pois e c x.pois y.pois z.pois)) :
    BitsDone s v pc f n res pois (s.bitwise f n dec fn) := by
  let bits := fun (n : BitVec 6) j e => BitVec.ofNat (tw f.t) (elemAt (s.vec.reg (n.toNat + j)) (tw f.t) e)
  let bad := fun (n : BitVec 6) j e => s.vec.opPois (.reg n.toNat) j (egOf (tw f.t) e)
  obtain ⟨qd, qa, qb, qc⟩ := no_rings plain
  have hw : 0 < tw f.t ∧ tw f.t ∣ 2048 := by rcases tw_cases f.t with h | h | h | h <;> rw [h] <;> decide
  have run : s.bitwise f n dec fn = s.runElems f.m.toNat Lg.plain f.g (bitSrcs f n) (.reg f.vd.toNat) (tw f.t) fn false := by
    unfold State.bitwise bitSrcs
    simp only [vIssue_cohort h, qd, qa, qb, qc]
    rw [show [(false, f.va), (false, f.vb), (false, f.vc)] = [f.va, f.vb, f.vc].map (false, ·) from rfl, ← List.map_take, List.map_map]
    rfl
  have reads : (bitSrcs f n).map (·.o) = vOpnds f n := by
    unfold bitSrcs vOpnds
    rw [qa, qb, qc, List.map_map, List.map_take]
    rfl
  have value (j e : Nat) : fn (v.run pc) j e ((bitSrcs f n).map fun x => readElt s.vec (s.bound s.tr.core) Lg.plain x j e) =
      ((res e (bits f.va j e) (bits f.vb j e) (bits f.vc j e)).toNat, 0,
        pois e (bits f.vc j e) (bad f.va j e) (bad f.vb j e) (bad f.vc j e)) := by
    have elt (r : BitVec 6) := readElt_bits s.vec (s.bound s.tr.core) r f.t j e
    have given := gives (v.run pc) j e _ _ _ _ _ _ (elt f.va).1 (elt f.vb).1 (elt f.vc).1
    rw [(elt f.va).2, (elt f.vb).2, (elt f.vc).2] at given
    rw [← given, bitSrcs, List.map_map, List.map_take]
    rfl
  obtain ⟨w, ev, done, elements, events⟩ := runElems_cohort h f.m.toNat Lg.plain f.g (bitSrcs f n) f.vd (tw f.t) fn false hw.1 hw.2
    distinct (width ▸ hb)
  simp only [value, reads] at elements events
  have calm : ev.ev = 0 := events.none fun j e => ite_self 0
  exact ⟨w, run ▸ calm ▸ done, elements⟩

/-- A logic word of the cohort (R94, R145). -/
theorem logic_cohort (h : s.vpNow = some (v, pc)) (plain : f.q = 0#4) (width : tw f.t = v.ew) (distinct : (v.at pc).Nodup)
    (hb : ∀ e ∈ v.at pc, egOf v.ew e < 64) {n : Nat} (one_or_two : n = 1 ∨ n = 2) {op : Nat → Nat → Nat → Nat}
    {res : BitVec (tw f.t) → BitVec (tw f.t) → BitVec (tw f.t)}
    (gives : ∀ a b, op (tw f.t) a.toNat (if n = 1 then 0 else b.toNat) % 2 ^ tw f.t = (res a b).toNat) :
    BitsDone s v pc f n (fun _ a b _ => res a b) (fun _ _ p q _ => if n = 1 then p else p || q) (s.logic f n op) := by
  refine bitwise_cohort h plain width distinct hb true fun run j e x y z a b c hx hy hz => ?_
  rw [← gives a b]
  rcases one_or_two with rfl | rfl
  · simp [anyPois, hx, Elt.zero]
  · simp [anyPois, hx, hy]

end

end Sys2Proof.Machine
end

section
namespace Sys2Proof.Machine

section
variable {s : State} {v : VpState} {pc : Word} {f : FmtV}

/-- The vector instructions on bit patterns act on the VPs of the cohort (R94, R145, R147, R148). -/
theorem bitResults_cohort (h : s.vpNow = some (v, pc)) (plain : f.q = 0#4) (width : tw f.t = v.ew) (distinct : (v.at pc).Nodup)
    (hb : ∀ e ∈ v.at pc, egOf v.ew e < 64) :
    BitResults f (s.vec.maskBit (f.vc.toNat % 16)) fun i n _ res pois =>
      Completes i s (BitsDone s v pc f n res pois) := by
  have pos : 0 < tw f.t := by rcases tw_cases f.t with h | h | h | h <;> omega
  have whole (a : BitVec (tw f.t)) : a.toNat % 2 ^ tw f.t = a.toNat := Nat.mod_eq_of_lt a.isLt
  have one {i : Instr} {op : Nat → Nat → Nat → Nat} (hi : exec i s = .next (s.logic f 1 op)) (res : BitVec (tw f.t) → BitVec (tw f.t))
      (gives : ∀ a : BitVec (tw f.t), op (tw f.t) a.toNat 0 % 2 ^ tw f.t = (res a).toNat) :
      Completes i s (BitsDone s v pc f 1 (fun _ a _ _ => res a) fun _ _ p _ _ => p) :=
    ⟨_, hi, logic_cohort h plain width distinct hb (.inl rfl) (res := fun a _ => res a) fun a _ => gives a⟩
  have two {i : Instr} {op : Nat → Nat → Nat → Nat} (hi : exec i s = .next (s.logic f 2 op))
      (res : BitVec (tw f.t) → BitVec (tw f.t) → BitVec (tw f.t))
      (gives : ∀ a b : BitVec (tw f.t), op (tw f.t) a.toNat b.toNat % 2 ^ tw f.t = (res a b).toNat) :
      Completes i s (BitsDone s v pc f 2 (fun _ a b _ => res a b) fun _ _ p q _ => p || q) :=
    ⟨_, hi, logic_cohort h plain width distinct hb (.inr rfl) (res := res) gives⟩
  refine ⟨two rfl _ fun a b => ?_, two rfl _ fun a b => ?_, two rfl _ fun a b => ?_, one rfl _ fun a => ?_, two rfl _ fun a b => ?_,
    two rfl _ fun a b => ?_, two rfl _ fun a b => ?_, two rfl _ fun a b => ?_, two rfl _ fun a b => ?_, one rfl _ clzNat_mod,
    one rfl _ popNat_mod, one rfl _ fun a => ?_, ⟨_, rfl, bitwise_cohort h plain width distinct hb true ?_⟩,
    ⟨_, rfl, bitwise_cohort h plain width distinct hb true ?_⟩, ⟨_, rfl, bitwise_cohort h plain width distinct hb _ ?_⟩⟩
  · rw [← BitVec.toNat_and, whole]
  · rw [← BitVec.toNat_or, whole]
  · rw [← BitVec.toNat_xor, whole]
  · rw [notNat_toNat, whole]
  · rw [notNat_toNat, ← BitVec.toNat_and, whole]
  · rw [BitVec.toNat_shiftLeft, Nat.shiftLeft_eq]
  · rw [← Nat.shiftRight_eq_div_pow, ← BitVec.toNat_ushiftRight, whole]
  · exact sraNat_mod pos a _
  · exact rotlNat_mod (Nat.mod_lt _ pos) a
  · rw [revNat_toNat, whole]
  · rintro run j e x y z a b c hx hy hz
    simp [hx]
  · rintro run j e x y z a b c hx hy hz
    have zero : c.toNat = 0 ↔ c = 0#(tw f.t) := by simp [← BitVec.toNat_inj]
    by_cases hc : c = 0#(tw f.t)
    · simp [hy, hz, hc]
    · simp [hx, hz, zero, hc]
  · rintro run j e x y z a b c hx hy hz
    cases s.vec.maskBit (f.vc.toNat % 16) e <;> simp [hx, hy]

end

end Sys2Proof.Machine
end

section
namespace Sys2Proof.Machine

/-! A VFETCH begins, enters blocks, issues its cohorts and ends (R93 to R95). -/

/-- A fetch of a block leaves the current thread's place, the vector states and the current thread's slot. -/
theorem fetchBlock_keeps {s u : State} {base : Word} {ws : List Word} (hs : s.Started) (h : fetchBlock s base = (.ok ws, u)) :
    u.cur = s.cur ∧ u.slots = s.slots ∧ u.tr.slotKey = s.tr.slotKey := by
  have asked (x : State) (hx : x.Started) (tag pa key lines slot : Nat) :
      (askRun x x.cur tag pa key lines slot).cur = x.cur ∧ (askRun x x.cur tag pa key lines slot).slots = x.slots ∧
        (askRun x x.cur tag pa key lines slot).tr.slotKey = x.tr.slotKey := by
    have kept (g : RoleState → RoleState) : (x.modTh g).cur = x.cur ∧ (x.modTh g).slots = x.slots ∧
        (x.modTh g).tr.slotKey = x.tr.slotKey := by
      have only := onlyThread_modTh x g hx
      refine ⟨only.cur, by rw [only.device], ?_⟩
      rw [only.triad]
      cases x.cur.role <;> rfl
    unfold askRun
    split
    · exact ⟨rfl, rfl, rfl⟩
    · split
      · exact kept fun r => { r with rbuf := _ }
      · exact kept fun r => { r with want := _ }
  rcases found : locate s s.tr.core s.cred base .fetch true with ⟨loc, x⟩
  obtain ⟨cur, th, triads⟩ := locate_threads found
  have slots : x.slots = s.slots := by
    have only := onlyStores_locate s s.tr.core s.cred base .fetch true
    rw [found] at only
    have slots := congrArg State.slots only
    exact slots
  have key : x.tr.slotKey = s.tr.slotKey := by rw [State.tr, State.triad, triads, cur]; rfl
  have started : x.Started := by
    unfold State.Started State.Has at *
    rw [cur, triads]
    exact hs
  rw [fetchBlock, found] at h
  cases loc with
  | fault c => cases h
  | denied frame => cases h
  | here pa key' frame =>
    obtain ⟨_, rfl⟩ := Prod.mk.inj h
    exact ⟨cur, slots, key⟩
  | far pa key' =>
    obtain ⟨cur', slots', key'⟩ := asked x started x.tr.tag pa key' 2 (pa / 64)
    simp only [] at h
    split at h
    · obtain ⟨_, rfl⟩ := Prod.mk.inj h
      exact ⟨cur'.trans cur, slots'.trans slots, key'.trans key⟩
    · cases h

theorem vec_of_slots {s u : State} (slots : u.slots = s.slots) (key : u.tr.slotKey = s.tr.slotKey) : u.vec = s.vec := by
  unfold State.vec State.slot
  rw [slots, key]

/-- A change of the current slot's vector state. -/
theorem slot_modVec (s : State) (g : VecState → VecState) :
    (s.modVec g).slot s.tr.slotKey = { s.slot s.tr.slotKey with vec := g s.vec } ∧
      ∀ k, k ≠ s.tr.slotKey → (s.modVec g).slot k = s.slot k :=
  ⟨(s.slot_modSlot _ _ _).trans (if_pos rfl), fun _ hk => (s.slot_modSlot _ _ _).trans (if_neg hk)⟩

/-- The current thread has another VFETCH in its slot's vector state, and its own role has changed. -/
theorem modVec_modTh {s : State} (hs : s.Started) (g : VecState → VecState) (r : RoleState → RoleState) :
    let t := (s.modVec g).modTh r
    t = { s with triads := t.triads, slots := t.slots } ∧ (∀ c, c ≠ s.cur.ctxn → t.triad c = s.triad c) ∧
      t.th = r s.th ∧ t.tr = s.tr.setRole s.cur.role t.th ∧
      t.slot s.tr.slotKey = { s.slot s.tr.slotKey with vec := g s.vec } ∧ ∀ k, k ≠ s.tr.slotKey → t.slot k = s.slot k := by
  intro t
  have only : OnlyThread (s.modVec g) t := onlyThread_modTh (s.modVec g) r hs
  obtain ⟨here, others⟩ := slot_modVec s g
  have slot (k : Nat) : t.slot k = (s.modVec g).slot k := by rw [only.device]; rfl
  refine ⟨?_, only.others, (s.modVec g).th_modTh r hs, only.triad, (slot _).trans here, fun k hk => (slot k).trans (others k hk)⟩
  rw [only.device]
  rfl

/-! VFETCH. -/

section
variable {s u : State} {f : FmtJ} {ws : List Word}

/-- The VPs with which a VFETCH starts are those of its active elements. -/
theorem tfind_vps (act : List Nat) (p : Vp) (e : Nat) : tfind e (act.map fun e => (e, p)) = if e ∈ act then some p else none := by
  induction act with
  | nil => rfl
  | cons k t ih =>
    rw [List.map_cons, tfind, ih]
    by_cases h : k = e
    · simp [h]
    · simp [h, Ne.symm h]

/-- VFETCH after its checks (R93). -/
theorem exec_vfetch_checked (role : s.cur.role = .computer) (fresh : s.th.resume = none) (aligned : (s.target f).toNat % 128 = 0)
    (fetched : fetchBlock s (s.target f) = (.ok ws, u)) (decodes : vpBlockDecode u (s.target f) ws = none) (owns : u.ownsVec = true)
    (fits : u.vlOk (ewBits f) = true) (dispatches : vpBlockDispatch u (ewBits f) (s.target f) ws = none) :
    exec (.vfetch f) s = .next (if (u.vec.active f.xa.toNat u.th.vl).isEmpty then ((u.setX f.xb 0).bumpSn 1).advance
      else ((u.modVec fun v => { v with vp := some (vpStart (ewBits f) (u.vec.active f.xa.toNat u.th.vl) (s.target f) u.tr.sn ws) }).modTh
        fun r => { r with rbuf := [], want := [] }).stallOn (.vfetch f)) := by
  show execVfetch f s = _
  unfold execVfetch
  simp only [role, fresh, (blockAligned_iff _).mpr aligned, fetched, decodes, owns, fits, dispatches, Option.any_none, Bool.false_and,
    Bool.not_true, Bool.false_eq_true, ne_eq, not_true_eq_false, if_false]

/-- VFETCH without an active element. -/
theorem vfetch_none (hu : u.Started) (d : BitVec 6) :
    let t := ((u.setX d 0).bumpSn 1).advance
    OnlyTriad u t ∧ StandsAt u t u.th.successor [d] ∧ (d ≠ 0#6 → t.x d = 0) ∧
      t.tr = { u.tr.setRole u.cur.role t.th with sn := u.tr.sn + 1 } := by
  intro t
  have set : OnlyThread u (u.setX d 0) := onlyThread_modTh u _ hu
  have hset : (u.setX d 0).Started := started_modTh _ hu
  have hbump : ((u.setX d 0).bumpSn 1).Started := started_modTr _ hset
  obtain ⟨only, stands⟩ := advances _ hbump
  have th : ((u.setX d 0).bumpSn 1).th = u.th.setXr d.toNat 0 :=
    ((u.setX d 0).th_modTr _ hset fun t r => by cases r <;> rfl).trans (u.th_modTh _ hu)
  have bumped : ((u.setX d 0).bumpSn 1).tr = { (u.setX d 0).tr with sn := (u.setX d 0).tr.sn + 1 } := (u.setX d 0).tr_modTr _ hset
  have x (n : BitVec 6) : t.x n = (u.setX d 0).x n := by
    refine (stands.regs n (by simp)).trans ?_
    unfold State.x
    rw [th, show (u.setX d 0).th = u.th.setXr d.toNat 0 from u.th_modTh _ hu]
  refine ⟨(set.toOnlyTriad.trans (onlyTriad_modTr _ _)).trans only.toOnlyTriad, ⟨?_, fun n hn => ?_, ?_⟩, fun hd => ?_, ?_⟩
  · rw [stands.pc, th, RoleState.setXr]
    split <;> rfl
  · exact (x n).trans (u.x_setX_ne 0 hu (by simpa using hn))
  · have role := stands.role
    rw [th] at role
    rw [role]
    by_cases hd : d.toNat = 0 <;> simp [RoleState.setXr, hd]
  · exact (x d).trans (u.x_setX_same d 0 hu hd)
  · rw [only.triad, bumped, set.triad]
    have cur : ((u.setX d 0).bumpSn 1).cur = u.cur := (onlyTriad_modTr _ _).cur.trans set.cur
    rw [cur]
    cases u.cur.role <;> rfl

end

/-! VP_COHORT_ISSUE. -/

section
variable {s : State} {f : FmtJ} {v : VpState}

theorem mem_liveVps {e : Nat} : e ∈ v.liveVps ↔ ∃ p, (e, p) ∈ v.vps ∧ p.live = true := by
  unfold VpState.liveVps
  simp [List.mem_map, List.mem_filter]

/-- The VP that issues next is live, and comes after the one served last where any does (R94). -/
theorem nextVp_of_live (live : v.liveVps ≠ []) :
    ∃ e p, v.nextVp = some e ∧ (e, p) ∈ v.vps ∧ p.live = true ∧
      ((∃ i q, (i, q) ∈ v.vps ∧ q.live = true ∧ v.lastVp < i) → v.lastVp < e) := by
  cases after : v.liveVps.find? fun e => decide (v.lastVp < e) with
  | some e =>
    obtain ⟨p, hp, alive⟩ := mem_liveVps.mp (List.mem_of_find?_eq_some after)
    refine ⟨e, p, ?_, hp, alive, fun _ => by simpa using List.find?_some after⟩
    rw [VpState.nextVp, after]
    rfl
  | none =>
    obtain ⟨e, rest, cons⟩ := List.exists_cons_of_ne_nil live
    obtain ⟨p, hp, alive⟩ := mem_liveVps.mp (cons ▸ List.mem_cons_self : e ∈ v.liveVps)
    refine ⟨e, p, ?_, hp, alive, fun ⟨i, q, hi, hq, later⟩ => ?_⟩
    · rw [VpState.nextVp, after, cons]
      rfl
    · have := List.find?_eq_none.mp after i (mem_liveVps.mpr ⟨q, hi, hq⟩)
      exact absurd later (by simpa using this)

theorem nextPc_of {e : Nat} {p : Vp} (distinct : (v.vps.map (·.1)).Nodup) (next : v.nextVp = some e) (hp : (e, p) ∈ v.vps) :
    v.nextPc = some p.pc := by
  rw [VpState.nextPc, next, Option.map_some, tget, tfind_of_mem distinct hp]
  rfl

/-- A cohort whose word has been entered is chosen (R94). -/
theorem exec_vpCohortIssue_entered (role : s.cur.role = .computer) (stalled : s.th.stall = some (.vfetch f)) (vp : s.vec.vp = some v)
    (idle : v.cohort = none) {e : Nat} {pc : Word} (next : v.nextVp = some e) (nextPc : v.nextPc = some pc)
    (word : (v.wordAt pc).isSome = true) :
    exec .vpCohortIssue s = .next (s.modVec fun c => { c with vp := some { v with cohort := some pc, lastVp := e } }) := by
  show execVpCohortIssue s = _
  unfold execVpCohortIssue
  simp only [role, stalled, vp, idle, nextPc, word, next, if_true, Option.getD_some]

/-- A block that is entered for the first time is fetched and checked (R73, R93). -/
theorem exec_vpCohortIssue_enters {u : State} {ws : List Word} (role : s.cur.role = .computer) (stalled : s.th.stall = some (.vfetch f))
    (vp : s.vec.vp = some v) (idle : v.cohort = none) {pc : Word} (nextPc : v.nextPc = some pc)
    (absent : tfind (blockOf pc).toNat v.blocks = none) (fetched : fetchBlock s (blockOf pc) = (.ok ws, u))
    (decodes : vpBlockDecode u (blockOf pc) ws = none) (dispatches : vpBlockDispatch u v.ew (blockOf pc) ws = none) :
    exec .vpCohortIssue s = .next ((u.modVec fun c => { c with vp := c.vp.map fun v => { v with
      blocks := tset (blockOf pc).toNat ws v.blocks } }).modTh fun r => { r with rbuf := [], want := [] }) := by
  have word : v.wordAt pc = none := by rw [VpState.wordAt, tget, absent]; rfl
  show execVpCohortIssue s = _
  unfold execVpCohortIssue
  simp only [role, stalled, vp, idle, nextPc, word, absent, fetched, decodes, dispatches, Option.isSome_none, Bool.false_eq_true, if_false,
    HOrElse.hOrElse, OrElse.orElse, Option.orElse]

/-! VFETCH_COMPLETE. -/

/-- The vector state without its VFETCH. -/
def State.vpGone (s : State) : State := s.modVec fun c => { c with vp := none }

/-- What is complete after a change of the slot's vector state is complete. -/
theorem VectorDone.of_modVec {s t : State} {g : VecState → VecState} {w : VecState} {ev : Evs} {adv : Nat} {ds : List (BitVec 6)}
    (h : VectorDone (s.modVec g) t w ev adv ds) : VectorDone s t w ev adv ds := by
  obtain ⟨here, others⟩ := slot_modVec s g
  refine ⟨⟨h.pc, h.regs, h.role⟩, h.device, h.others, h.slot.trans ?_, fun k hk => (h.slots k hk).trans (others k hk), h.triad, h.capture⟩
  show { (s.modVec g).slot s.tr.slotKey with vec := w } = _
  rw [here]

/-- The end of a VFETCH whose VPs have all ended (R50, R57, R93). -/
theorem vfetchComplete_done (hs : s.Started) (quiet : s.quiet) (stalled : s.th.stall = some (.vfetch f)) (role : s.cur.role = .computer)
    (vp : s.vec.vp = some v) (idle : v.cohort = none) (ended : v.liveVps = []) :
    Completes .vfetchComplete s fun t => VectorDone s t { s.vec with vp := none } ⟨v.held, v.hix⟩ 1 [f.xb] ∧
      (f.xb ≠ 0#6 → t.x f.xb = BitVec.ofNat 64 v.total) := by
  have started : s.vpGone.Started := hs
  have calm : s.vpGone.quiet := quiet
  have vec : s.vpGone.vec = { s.vec with vp := none } := s.vec_modVec _
  have plain : s.vpGone.vpNow = none := by
    unfold State.vpNow
    rw [vec]
    split <;> rfl
  let written := s.vpGone.setX f.xb (BitVec.ofNat 64 v.total)
  have hw : written.Started := started_modTh _ started
  obtain ⟨wvec, wkey, wslots, wnow, wquiet⟩ := setX_vector started f.xb (BitVec.ofNat 64 v.total)
  have first := vectorDone_finish ((Holds.refl started).setX f.xb (BitVec.ofNat 64 v.total)) true ⟨v.held, v.hix⟩ plain calm rfl
  have second := vectorDone_finish (Holds.refl hw) true ⟨v.held, v.hix⟩ (wnow.trans plain) (wquiet calm) rfl
  have run : exec .vfetchComplete s = .next (written.vFinish true ⟨v.held, v.hix⟩) := by
    have before : s.heldEvs = written.heldEvs := by
      unfold State.heldEvs
      rw [quiet.2.1, (wquiet calm).2.1]
    have ends : written.vFinish true ⟨v.held, v.hix⟩ = (written.bumpSn 1).finish (s.heldEvs.join ⟨v.held, v.hix⟩) := by
      unfold State.vFinish
      rw [wnow.trans plain, before]
      rfl
    rw [ends]
    show execVfetchComplete s = _
    unfold execVfetchComplete
    simp only [role, stalled, vp, idle, ended]
    rfl
  refine ⟨_, run, ?_, fun hd => ?_⟩
  · rw [← vec]
    exact first.of_modVec
  · exact (second.regs f.xb (by simp)).trans (s.vpGone.x_setX_same _ _ started hd)

end

end Sys2Proof.Machine
end

section
namespace Sys2Proof.Machine

/-! VFETCH, its cohorts and their words together (R93 to R97). -/

section
variable {f : FmtJ} {s u : State} {ws : List Word}

/-- A VFETCH with active elements: each becomes a live VP at the target, and the thread waits (R93). -/
theorem vfetch_some (hs : s.Started) (fetched : fetchBlock s (s.target f) = (.ok ws, u)) {act : List Nat} {ew : Nat} :
    let key := s.tr.slotKey
    let t := ((u.modVec fun v => { v with vp := some (vpStart ew act (s.target f) u.tr.sn ws) }).modTh fun r =>
      { r with rbuf := [], want := [] }).stallOn (.vfetch f)
    ∃ v, t = { u with triads := t.triads, slots := t.slots } ∧ (∀ c, c ≠ s.cur.ctxn → t.triad c = u.triad c) ∧
      t.tr = u.tr.setRole u.cur.role t.th ∧ t.th = { u.th with stall := some (.vfetch f), rbuf := [], want := [] } ∧
      (t.slot key = { u.slot key with vec := { u.vec with vp := some v } } ∧ ∀ k, k ≠ key → t.slot k = u.slot k) ∧
      v.ew = ew ∧ v.total = act.length ∧ v.cohort = none ∧ v.held = 0 ∧ v.sn = u.tr.sn ∧
      ∀ e, tfind e v.vps = if e ∈ act then some ⟨s.target f, true, 0⟩ else none := by
  intro key t
  obtain ⟨cur, _, sameKey⟩ := fetchBlock_keeps hs fetched
  obtain ⟨_, hu, _⟩ := fetchBlock_ok hs fetched
  obtain ⟨device, others, th, tr, slot, slots⟩ := modVec_modTh hu
    (fun v => { v with vp := some (vpStart ew act (s.target f) u.tr.sn ws) }) fun r => { r with rbuf := [], want := [] }
  let m := (u.modVec fun v => { v with vp := some (vpStart ew act (s.target f) u.tr.sn ws) }).modTh fun r => { r with rbuf := [], want := [] }
  have hm : m.Started := started_modTh _ hu
  have mcur : m.cur = u.cur := by rw [show m = _ from device]
  have only : OnlyThread m t := onlyThread_modTh m _ hm
  have same (k : Nat) : t.slot k = m.slot k := by rw [only.device]; rfl
  have last : t.th = { m.th with stall := some (.vfetch f) } := m.th_modTh _ hm
  rw [sameKey] at slot slots
  refine ⟨vpStart ew act (s.target f) u.tr.sn ws, ?_, fun c hc => ?_, ?_, ?_, ⟨(same _).trans slot, fun k hk => (same k).trans (slots k hk)⟩,
    rfl, rfl, rfl, rfl, rfl, tfind_vps act _⟩
  · rw [only.device, show m = _ from device]
  · rw [only.others c (by rwa [mcur, cur]), others c (by rwa [cur])]
  · rw [only.triad, mcur, show m.tr = _ from tr, Triad.setRole_setRole]
  · rw [last, show m.th = _ from th]

end

section
variable {s : State} {v : VpState} {pc : Word}

/-- The arithmetic instructions act on the VPs of the cohort (R94, R140 to R144). -/
theorem arithResults_cohort (h : s.vpNow = some (v, pc)) {g : FmtV} {lg : Lg} (plain : g.q = 0#4) (distinct : (v.at pc).Nodup)
    (hb : ∀ e ∈ v.at pc, egOf v.ew e < 64) :
    ArithResults g lg fun i op n res => s.arithLg op g = some lg → lg.fd.width = v.ew →
      Completes i s (ArithDone s v pc g lg n res) := by
  unfold ArithResults
  intro rnd m prop
  have gives {i : Instr} (op : AOp) (hi : exec i s = .next (s.arith op g)) (res : RCtx → Elt → Elt → Elt → Nat × Ev)
      (hres : ∀ r a b c, op.elt lg prop r a (if 2 ≤ op.nsrc then b else Elt.zero) (if 3 ≤ op.nsrc then c else Elt.zero) = res r a b c)
      (legend : s.arithLg op g = some lg) (width : lg.fd.width = v.ew) : Completes i s (ArithDone s v pc g lg op.nsrc res) :=
    ⟨_, hi, arith_cohort h plain distinct hb op res hres legend width⟩
  have same {i : Instr} (op : AOp) (hi : exec i s = .next (s.arith op g)) := gives op hi _ fun _ _ _ _ => rfl
  exact ⟨same .add rfl, same .sub rfl, same .mul rfl, same .mulh rfl,
    fun float => gives .div rfl _ fun _ _ _ _ => if_neg (by simp [float]), fun int => gives .div rfl _ fun _ _ _ _ => if_pos int,
    same .rem rfl, same .min rfl, same .max rfl, same .abs rfl, same .neg rfl, same .fma rfl, same .fms rfl, same .fnma rfl,
    same .fnms rfl, same .sqrt rfl, same .rsqrt rfl, same .rcp rfl, same .avg rfl, same .clamp rfl, same .scalb rfl, same .logb rfl,
    same .class rfl⟩

end

/-- Settles O19: a VFETCH starts, issues and ends through its slot's vector state alone, and each word of a cohort is the same word on
the cohort's VPs. -/
theorem vfetchRunsItsVps : Obligations.VfetchRunsItsVps := by
  unfold Obligations.VfetchRunsItsVps
  intro f s hs role key Slot
  refine ⟨?_, fun v stalled vp idle distinct => ⟨fun live entered => ?_, fun pc ws u together live absent fetched decodes dispatches => ?_,
    fun ended quiet => vfetchComplete_done hs quiet stalled role vp idle ended⟩, fun v pc h => ?_⟩
  · intro ws u plain fresh aligned fetched ew act decodes owns fits dispatches
    obtain ⟨cur, _, _⟩ := fetchBlock_keeps hs fetched
    obtain ⟨_, hu, _⟩ := fetchBlock_ok hs fetched
    have run := exec_vfetch_checked role fresh aligned fetched decodes owns fits dispatches
    refine ⟨fun none => ⟨_, run.trans ?_, vfetch_none hu f.xb⟩, fun some => ⟨_, run.trans ?_, vfetch_some hs fetched⟩⟩
    · exact congrArg _ (if_pos (List.isEmpty_iff.mpr none))
    · exact congrArg _ (if_neg fun e => some (List.isEmpty_iff.mp e))
  · obtain ⟨e, p, next, hp, alive, later⟩ := nextVp_of_live live
    obtain ⟨ws, block, inside⟩ := entered e p hp alive
    have word : (v.wordAt p.pc).isSome = true := by
      rw [VpState.wordAt, tget, block]
      simpa using inside
    exact ⟨_, exec_vpCohortIssue_entered role stalled vp idle next (nextPc_of distinct next hp) word, e, p, hp, alive, later, rfl,
      slot_modVec s _⟩
  · obtain ⟨e, p, next, hp, alive, _⟩ := nextVp_of_live live
    have nextPc := nextPc_of distinct next hp
    rw [together e p hp alive] at nextPc
    obtain ⟨cur, slots, sameKey⟩ := fetchBlock_keeps hs fetched
    obtain ⟨_, hu, _⟩ := fetchBlock_ok hs fetched
    obtain ⟨device, _, th, tr, slot, others⟩ := modVec_modTh hu (fun c => { c with vp := c.vp.map fun v => { v with
      blocks := tset (blockOf pc).toNat ws v.blocks } }) fun r => { r with rbuf := [], want := [] }
    rw [vec_of_slots slots sameKey, vp, sameKey] at slot
    rw [sameKey] at others
    rw [th, cur, role] at tr
    refine ⟨_, exec_vpCohortIssue_enters role stalled vp idle nextPc absent fetched decodes dispatches, ?_, tr, ?_, others⟩
    · exact device
    · rw [vec_of_slots slots sameKey]
      exact slot
  · intro target elt clean holds
    refine ⟨fun pos small aligned ok => ?_, fun y => ⟨_, exec_vjoin_cohort h y, vpGo_cohort s v pc _⟩,
      fun y => ⟨_, exec_nop_cohort h y, vpGo_cohort s v pc _⟩, fun g lg plain _ distinct hb => ?_, fun g plain _ width distinct hb =>
        bitResults_cohort h plain width distinct hb⟩
    · have clean' : f.cond.toNat = 6 ∨ ∀ n, n = f.xa ∨ n = f.xb → ∀ e ∈ v.at pc, s.vec.opPois (.reg n.toNat) 0 (egOf v.ew e) = false :=
        ok.imp_right fun ⟨a, b⟩ n hn => hn.elim (fun e => e ▸ a) fun e => e ▸ b
      refine ⟨_, exec_vpbr_cohort h aligned clean', _, vpGo_cohort s v pc _, fun e => ?_⟩
      have iff := condHolds_ofNat pos f.cond.toNat (elt f.xa e) (elt f.xb e)
      refine ⟨fun yes => congrArg some (if_pos (iff.mpr ?_)), fun no => congrArg some (if_neg fun hc => no ?_)⟩
      · exact yes
      · exact iff.mp hc
    · exact ⟨arithResults_cohort h plain distinct hb, vcvt_cohort h plain distinct hb, fun legend => vcmp_cohort h plain legend⟩

end Sys2Proof.Machine
end

section
namespace Sys2Proof.Machine

/-! Integer arithmetic (R109 to R112). -/

theorem loT_le_hiT (t : BitVec 4) : loT t ≤ hiT t :=
  (intOf_bounds t 0).1.trans (intOf_bounds t 0).2

theorem lowOf_sub (t : BitVec 4) (a b : Word) : lowOf t (a - b) = lowOf t a - lowOf t b := by
  rw [BitVec.sub_eq_add_neg, lowOf_add, BitVec.sub_eq_add_neg]
  exact congrArg _ (BitVec.setWidth_neg_of_le (tWidth_bounds t).2)

/-- A sum, difference or product of the integers in two registers is, in its low bits, that of the registers (R109). -/
theorem ofInt_intOf_arith (t : BitVec 4) (a b : Word) :
    BitVec.ofInt (tWidth t) (intOf t a + intOf t b) = lowOf t (a + b) ∧
    BitVec.ofInt (tWidth t) (intOf t a - intOf t b) = lowOf t (a - b) ∧
    BitVec.ofInt (tWidth t) (intOf t a * intOf t b) = lowOf t (a * b) := by
  refine ⟨?_, ?_, ?_⟩
  · rw [BitVec.ofInt_add, ofInt_intOf, ofInt_intOf, lowOf_add]
  · rw [Int.sub_eq_add_neg, BitVec.ofInt_add, BitVec.ofInt_neg, ofInt_intOf, ofInt_intOf, lowOf_sub, BitVec.sub_eq_add_neg]
  · rw [BitVec.ofInt_mul, ofInt_intOf, ofInt_intOf, lowOf_mul]

/-- The end of ADD, SUB, MUL and ADDI without `sat` (R110). -/
theorem writes_fitT {s : State} (hs : s.Started) {t : BitVec 4} {sat : Bool} (wraps : sat = false) (d : BitVec 6) {i : Int}
    {v : Word} (low : BitVec.ofInt (tWidth t) i = lowOf t v) : Writes s (s.done d (fitT t sat i)) d (widen t (lowOf t v)) := by
  rw [fitT, wraps, if_neg Bool.false_ne_true]
  exact writes_wrapT s hs t d i _ low

/-- The end of ADD, SUB, MUL and ADDI with `sat` (R110). -/
theorem writesInt_fitT {s : State} (hs : s.Started) (t : BitVec 4) {sat : Bool} (clamps : sat = true) (d : BitVec 6) (i : Int) :
    WritesInt s (s.done d (fitT t sat i)) t d (max (loT t) (min (hiT t) i)) := by
  rw [fitT, clamps, if_pos rfl]
  exact writesInt_done s hs t d _ (le_max_left _ _) (max_le (loT_le_hiT t) (min_le_left _ _))

/-- The high half of a product of two integers of T is one of T (R110). -/
theorem mulh_bounds (t : BitVec 4) (a b : Word) :
    loT t ≤ intOf t a * intOf t b / (2 ^ tWidth t : Nat) ∧ intOf t a * intOf t b / (2 ^ tWidth t : Nat) ≤ hiT t := by
  have bounds_a := intOf_bounds t a
  have bounds_b := intOf_bounds t b
  have pos : (0 : Int) < (2 ^ tWidth t : Nat) := by exact_mod_cast Nat.two_pow_pos _
  have double := two_pow_tWidth t
  generalize intOf t a = x at *
  generalize intOf t b = y at *
  rw [Int.le_ediv_iff_mul_le pos, ← Int.lt_add_one_iff (b := hiT t), Int.ediv_lt_iff_lt_mul pos]
  cases signed : tSigned t with
  | true =>
    have half : 1 ≤ 2 ^ (tWidth t - 1) := Nat.one_le_two_pow
    simp only [loT, hiT, signed, if_true, double] at *
    generalize 2 ^ (tWidth t - 1) = h at *
    push_cast at *
    constructor <;> nlinarith
  | false =>
    simp only [loT, hiT, signed, Bool.false_eq_true, if_false] at *
    generalize 2 ^ tWidth t = h at *
    constructor <;> nlinarith

/-- The remainder lies between 0 and the dividend. -/
theorem tmod_between (a b : Int) : (0 ≤ a → 0 ≤ Int.tmod a b ∧ Int.tmod a b ≤ a) ∧ (a ≤ 0 → a ≤ Int.tmod a b ∧ Int.tmod a b ≤ 0) := by
  have up (x : Int) (hx : 0 ≤ x) : 0 ≤ Int.tmod x b ∧ Int.tmod x b ≤ x := by
    refine ⟨Int.tmod_nonneg b hx, ?_⟩
    have := Int.natAbs_tmod x b
    have := Nat.mod_le x.natAbs b.natAbs
    have := Int.tmod_nonneg b hx
    omega
  refine ⟨up a, fun ha => ?_⟩
  have := up (-a) (by omega)
  rw [Int.neg_tmod] at this
  omega

theorem loT_le_zero (t : BitVec 4) : loT t ≤ 0 ∧ 0 ≤ hiT t := by
  have half : 1 ≤ 2 ^ (tWidth t - 1) := Nat.one_le_two_pow
  have whole : 1 ≤ 2 ^ tWidth t := Nat.one_le_two_pow
  unfold loT hiT
  split <;> omega

theorem rem_bounds (t : BitVec 4) (a b : Word) :
    let r := if intOf t b = 0 then intOf t a else Int.tmod (intOf t a) (intOf t b)
    loT t ≤ r ∧ r ≤ hiT t := by
  obtain ⟨low, high⟩ := intOf_bounds t a
  obtain ⟨neg, pos⟩ := tmod_between (intOf t a) (intOf t b)
  have := loT_le_zero t
  dsimp only
  split <;> omega

/-- The quotient of two integers of T is one of T, but for the lowest value divided by -1 (R111). -/
theorem tdiv_bounds {t : BitVec 4} {a b : Int} (ha : loT t ≤ a ∧ a ≤ hiT t) (hb : loT t ≤ b) (corner : ¬ (a = loT t ∧ b = -1)) :
    loT t ≤ Int.tdiv a b ∧ Int.tdiv a b ≤ hiT t := by
  have size : (Int.tdiv a b).natAbs = a.natAbs / b.natAbs := Int.natAbs_tdiv a b
  have half : 1 ≤ 2 ^ (tWidth t - 1) := Nat.one_le_two_pow
  have zeros := loT_le_zero t
  obtain rfl | rfl | rfl | large : b = 0 ∨ b = 1 ∨ b = -1 ∨ 2 ≤ b.natAbs := by omega
  · simpa using zeros
  · simpa using ha
  · rw [Int.tdiv_neg, Int.tdiv_one]
    unfold loT hiT at *
    split_ifs at * <;> omega
  · have small : (Int.tdiv a b).natAbs ≤ a.natAbs / 2 := size ▸ Nat.div_le_div_left large (by omega)
    have positive : 0 ≤ a → 0 ≤ b → 0 ≤ Int.tdiv a b := Int.tdiv_nonneg
    unfold loT hiT at *
    split_ifs at * <;> omega

/-- Integers that differ by a multiple of 2^w wrap alike (R109). -/
theorem wrapT_congr {t : BitVec 4} {i j : Int} (h : ((2 ^ tWidth t : Nat) : Int) ∣ j - i) : wrapT t i = wrapT t j := by
  rw [wrapT, wrapT, wrapInt, wrapInt, (Int.modEq_iff_dvd.mpr h : i % _ = j % _)]

/-- DIV, with the results of R111 for a divisor 0 and for the lowest value divided by -1. -/
theorem writesInt_div {s : State} (hs : s.Started) (t : BitVec 4) (d : BitVec 6) (x y : Word) :
    let a := intOf t x
    let b := intOf t y
    WritesInt s (s.done d (wrapT t (divInt a b))) t d
      (if b = 0 then (if tSigned t then -1 else 2 ^ tWidth t - 1) else if a = loT t ∧ b = -1 then a else Int.tdiv a b) := by
  intro a b
  have ha : loT t ≤ a ∧ a ≤ hiT t := intOf_bounds t x
  have hb : loT t ≤ b ∧ b ≤ hiT t := intOf_bounds t y
  have half : 1 ≤ 2 ^ (tWidth t - 1) := Nat.one_le_two_pow
  have double := two_pow_tWidth t
  have cast : (2 : Int) ^ tWidth t = (2 ^ tWidth t : Nat) := (Nat.cast_pow 2 _).symm
  suffices same : ∃ j, wrapT t (divInt a b) = wrapT t j ∧ (loT t ≤ j ∧ j ≤ hiT t) ∧ j =
      if b = 0 then (if tSigned t then -1 else 2 ^ tWidth t - 1) else if a = loT t ∧ b = -1 then a else Int.tdiv a b by
    obtain ⟨j, wraps, ⟨low, high⟩, rfl⟩ := same
    rw [wraps]
    exact writesInt_done s hs t d _ low high
  refine ⟨_, ?_, ?_, rfl⟩
  · unfold divInt
    split_ifs with zero signed corner
    · rfl
    · exact wrapT_congr ⟨1, by omega⟩
    · obtain ⟨lowest, minus⟩ := corner
      rw [minus, Int.tdiv_neg, Int.tdiv_one]
      refine wrapT_congr ⟨-1, ?_⟩
      unfold loT at *
      split_ifs at * <;> omega
    · rfl
  · split_ifs with zero signed corner
    · simp only [loT, hiT, signed, if_true]; omega
    · simp only [loT, hiT, signed, Bool.false_eq_true, if_false]; omega
    · exact ha
    · exact tdiv_bounds ha hb.1 corner

/-- Settles O1: each result is an exact integer that T holds, or one whose low bits are those of the operation on the registers. -/
theorem integerArithmetic : Obligations.IntegerArithmetic := by
  unfold Obligations.IntegerArithmetic
  refine ⟨fun s hs => ⟨fun f _ => ⟨fun wraps => ?wraps, fun clamps => ?clamps⟩, fun f _ => ⟨fun wraps => ?wrapsImm, fun clamps => ?clampsImm⟩⟩,
    fun f s hs _ => ?exact⟩
  case wraps =>
    obtain ⟨sum, difference, product⟩ := ofInt_intOf_arith f.t (s.x f.xa) (s.x f.xb)
    exact ⟨⟨_, rfl, writes_fitT hs wraps f.xd sum⟩, ⟨_, rfl, writes_fitT hs wraps f.xd difference⟩,
      ⟨_, rfl, writes_fitT hs wraps f.xd product⟩⟩
  case clamps =>
    exact ⟨⟨_, rfl, writesInt_fitT hs f.t clamps f.xd _⟩, ⟨_, rfl, writesInt_fitT hs f.t clamps f.xd _⟩,
      ⟨_, rfl, writesInt_fitT hs f.t clamps f.xd _⟩⟩
  case wrapsImm => exact ⟨_, rfl, writes_fitT hs wraps f.xd (ofInt_intOf_arith f.t (s.x f.xa) (sext32 f.imm32)).1⟩
  case clampsImm => exact ⟨_, rfl, writesInt_fitT hs f.t clamps f.xd _⟩
  case exact =>
    intro a b
    have ha : loT f.t ≤ a ∧ a ≤ hiT f.t := intOf_bounds f.t (s.x f.xa)
    have hb : loT f.t ≤ b ∧ b ≤ hiT f.t := intOf_bounds f.t (s.x f.xb)
    have mulh := mulh_bounds f.t (s.x f.xa) (s.x f.xb)
    have rem := rem_bounds f.t (s.x f.xa) (s.x f.xb)
    exact ⟨⟨_, rfl, writesInt_done s hs f.t f.xd _ mulh.1 mulh.2⟩, ⟨_, rfl, writesInt_div hs f.t f.xd (s.x f.xa) (s.x f.xb)⟩,
      ⟨_, rfl, writesInt_done s hs f.t f.xd _ rem.1 rem.2⟩, ⟨_, rfl, writesInt_done s hs f.t f.xd (min a b) (le_min ha.1 hb.1) (min_le_of_left_le ha.2)⟩,
      ⟨_, rfl, writesInt_done s hs f.t f.xd (max a b) (le_max_of_le_left ha.1) (max_le ha.2 hb.2)⟩⟩

end Sys2Proof.Machine
end

section
namespace Sys2Proof.Machine

/-! Integer logic, shifts and counts (R110, R112). -/

theorem toNat_lowOf (t : BitVec 4) (v : Word) : (lowOf t v).toNat = v.toNat % 2 ^ tWidth t := BitVec.toNat_setWidth ..

/-- The end of an instruction on bit patterns whose number has the low bits of `b` (R109). -/
theorem writes_bits {s : State} (hs : s.Started) {t : BitVec 4} (d : BitVec 6) {n : Nat} {b : BitVec (tWidth t)}
    (low : n % 2 ^ tWidth t = b.toNat) : Writes s (s.done d (extT t n)) d (widen t b) :=
  writes_extT s hs t d n b (BitVec.eq_of_toNat_eq (by rw [BitVec.toNat_ofNat, low]))

section
variable {w : Nat} (a b : BitVec w)

theorem andNat_mod : (a.toNat &&& b.toNat) % 2 ^ w = (a &&& b).toNat := by
  rw [← BitVec.toNat_and, Nat.mod_eq_of_lt (a &&& b).isLt]

theorem orNat_mod : (a.toNat ||| b.toNat) % 2 ^ w = (a ||| b).toNat := by
  rw [← BitVec.toNat_or, Nat.mod_eq_of_lt (a ||| b).isLt]

theorem xorNat_mod : (a.toNat ^^^ b.toNat) % 2 ^ w = (a ^^^ b).toNat := by
  rw [← BitVec.toNat_xor, Nat.mod_eq_of_lt (a ^^^ b).isLt]

theorem shlNat_mod (k : Nat) : a.toNat * 2 ^ k % 2 ^ w = (a <<< k).toNat := by
  rw [BitVec.toNat_shiftLeft, Nat.shiftLeft_eq]

theorem shrNat_mod (k : Nat) : a.toNat / 2 ^ k % 2 ^ w = (a >>> k).toNat := by
  rw [← Nat.shiftRight_eq_div_pow, ← BitVec.toNat_ushiftRight, Nat.mod_eq_of_lt (a >>> k).isLt]

end

/-- The logic and shift instructions on the low bits of two registers. -/
theorem logic_completes {s : State} (hs : s.Started) (f : FmtA) :
    let a := lowOf f.t (s.x f.xa)
    let b := lowOf f.t (s.x f.xb)
    let k := b.toNat % tWidth f.t
    Completes (.and f) s (fun t => Writes s t f.xd (widen f.t (a &&& b))) ∧
    Completes (.or f) s (fun t => Writes s t f.xd (widen f.t (a ||| b))) ∧
    Completes (.xor f) s (fun t => Writes s t f.xd (widen f.t (a ^^^ b))) ∧
    Completes (.shl f) s (fun t => Writes s t f.xd (widen f.t (a <<< k))) ∧
    Completes (.shr f) s (fun t => Writes s t f.xd (widen f.t (a >>> k))) ∧
    Completes (.sra f) s (fun t => Writes s t f.xd (widen f.t (a.sshiftRight k))) ∧
    Completes (.rotl f) s (fun t => Writes s t f.xd (widen f.t (a.rotateLeft k))) := by
  intro a b k
  have ha : s.aBits f = a.toNat := (toNat_lowOf f.t _).symm
  have hb : s.bBits f = b.toNat := (toNat_lowOf f.t _).symm
  have hk : s.count f = k := by rw [State.count, hb]
  have pos := (tWidth_bounds f.t).1
  refine ⟨⟨_, rfl, writes_bits hs f.xd ?_⟩, ⟨_, rfl, writes_bits hs f.xd ?_⟩, ⟨_, rfl, writes_bits hs f.xd ?_⟩,
    ⟨_, rfl, writes_bits hs f.xd ?_⟩, ⟨_, rfl, writes_bits hs f.xd ?_⟩, ⟨_, rfl, writes_bits hs f.xd ?_⟩,
    ⟨_, rfl, writes_bits hs f.xd ?_⟩⟩
  · rw [ha, hb, andNat_mod]
  · rw [ha, hb, orNat_mod]
  · rw [ha, hb, xorNat_mod]
  · rw [ha, hk, shlNat_mod]
  · rw [ha, hk, shrNat_mod]
  · rw [ha, hk, sraNat_mod pos]
  · rw [ha, hk, rotlNat_mod (Nat.mod_lt _ pos)]

/-- The logic and shift instructions on the low bits of a register and an immediate. -/
theorem immediates_complete {s : State} (hs : s.Started) (f : FmtB) :
    let a := lowOf f.t (s.x f.xa)
    let i := lowOf f.t (f.imm32.signExtend 64)
    Completes (.andi f) s (fun t => Writes s t f.xd (widen f.t (a &&& i))) ∧
    Completes (.ori f) s (fun t => Writes s t f.xd (widen f.t (a ||| i))) ∧
    Completes (.xori f) s (fun t => Writes s t f.xd (widen f.t (a ^^^ i))) ∧
    Completes (.shli f) s (fun t => Writes s t f.xd (widen f.t (a <<< f.imm32.toNat))) ∧
    Completes (.shri f) s (fun t => Writes s t f.xd (widen f.t (a >>> f.imm32.toNat))) ∧
    Completes (.srai f) s (fun t => Writes s t f.xd (widen f.t (a.sshiftRight f.imm32.toNat))) := by
  intro a i
  have ha : s.aImm f = a.toNat := (toNat_lowOf f.t _).symm
  have hi : immBits f = i.toNat := (toNat_lowOf f.t _).symm
  refine ⟨⟨_, rfl, writes_bits hs f.xd ?_⟩, ⟨_, rfl, writes_bits hs f.xd ?_⟩, ⟨_, rfl, writes_bits hs f.xd ?_⟩,
    ⟨_, rfl, writes_bits hs f.xd ?_⟩, ⟨_, rfl, writes_bits hs f.xd ?_⟩, ⟨_, rfl, writes_bits hs f.xd ?_⟩⟩
  · rw [ha, hi, andNat_mod]
  · rw [ha, hi, orNat_mod]
  · rw [ha, hi, xorNat_mod]
  · rw [ha, shlNat_mod]
  · rw [ha, shrNat_mod]
  · rw [ha, sraNat_mod (tWidth_bounds f.t).1]

/-- The number of bits of T is a value of T that extension leaves alone, and so is every smaller number (R109). -/
theorem extT_small (t : BitVec 4) {n : Nat} (h : n ≤ tWidth t) : extT t n = BitVec.ofNat 64 n := by
  have width : tWidth t < 2 ^ (tWidth t - 1) := (by decide : ∀ t, tWidth t < 2 ^ (tWidth t - 1)) t
  have double := two_pow_tWidth t
  have low : n % 2 ^ tWidth t = n := Nat.mod_eq_of_lt (by omega)
  have pos := (tWidth_bounds t).1
  unfold extT sextNat
  rw [low]
  split
  · rw [if_neg (by omega), if_pos (by omega)]
    exact BitVec.ofInt_natCast 64 n
  · rfl

theorem writes_count {s : State} (hs : s.Started) (t : BitVec 4) (d : BitVec 6) {n : Nat} (h : n ≤ tWidth t) :
    Writes s (s.done d (extT t n)) d (BitVec.ofNat 64 n) := by
  rw [extT_small t h]
  exact writes_done s d _ hs

theorem leadingZeros_clzNat {w : Nat} (a : BitVec w) : LeadingZeros w (clzNat w a.toNat) a := by
  by_cases zero : a.toNat = 0
  · obtain rfl : a = 0 := BitVec.eq_of_toNat_eq zero
    simp [LeadingZeros, clzNat]
  · have top : a.toNat.log2 < w := (Nat.log2_lt zero).mpr a.isLt
    rw [clzNat, if_neg zero]
    refine ⟨by omega, fun i low _ => ?_, fun _ => ?_⟩
    · rw [← BitVec.testBit_toNat]
      exact Nat.testBit_lt_two_pow (Nat.lt_of_lt_of_le Nat.lt_log2_self (Nat.pow_le_pow_right (by omega) (by omega)))
    · rw [show w - 1 - (w - 1 - a.toNat.log2) = a.toNat.log2 by omega, ← BitVec.testBit_toNat]
      exact Nat.testBit_log2 zero

/-- The first 1 bit from place k on among f bits, or the place after them. -/
theorem ctzFrom_spec (a f k : Nat) : k ≤ ctzFrom a f k ∧ ctzFrom a f k ≤ k + f ∧
    (∀ i, k ≤ i → i < ctzFrom a f k → a.testBit i = false) ∧ (ctzFrom a f k < k + f → a.testBit (ctzFrom a f k) = true) := by
  induction f generalizing k with
  | zero => exact ⟨Nat.le_refl k, Nat.le_refl k, fun i _ _ => by simp only [ctzFrom] at *; omega, fun h => absurd h (Nat.lt_irrefl k)⟩
  | succ f ih =>
    rw [ctzFrom]
    split
    · next set => exact ⟨Nat.le_refl k, by omega, fun i _ _ => by omega, fun _ => set⟩
    · next clear =>
      obtain ⟨above, below, zeros, one⟩ := ih (k + 1)
      refine ⟨by omega, by omega, fun i _ hi => ?_, fun h => one (by omega)⟩
      obtain rfl | later : i = k ∨ k + 1 ≤ i := by omega
      · simpa using clear
      · exact zeros i later hi

theorem trailingZeros_ctzNat {w : Nat} (a : BitVec w) : TrailingZeros w (ctzNat w a.toNat) a := by
  obtain ⟨-, below, zeros, one⟩ := ctzFrom_spec a.toNat w 0
  rw [Nat.zero_add] at below one
  simp only [BitVec.testBit_toNat] at zeros one
  exact ⟨below, fun i hi => zeros i (Nat.zero_le i) hi, one⟩

theorem popNat_eq {w : Nat} (a : BitVec w) : popNat w a.toNat = (List.range w).countP fun i => a.getLsbD i := by
  rw [List.countP_eq_length_filter, popNat]
  simp [nrange]
  rfl

/-- CLZ, CTZ, POPC and BREV. -/
theorem counts_complete {s : State} (hs : s.Started) (f : FmtA) :
    let a := lowOf f.t (s.x f.xa)
    Completes (.clz f) s (fun t => ∃ n, LeadingZeros (tWidth f.t) n a ∧ Writes s t f.xd (BitVec.ofNat 64 n)) ∧
    Completes (.ctz f) s (fun t => ∃ n, TrailingZeros (tWidth f.t) n a ∧ Writes s t f.xd (BitVec.ofNat 64 n)) ∧
    Completes (.popc f) s (fun t =>
      Writes s t f.xd (BitVec.ofNat 64 ((List.range (tWidth f.t)).countP fun i => a.getLsbD i))) ∧
    Completes (.brev f) s (fun t => ∃ b, Writes s t f.xd (widen f.t b) ∧
      ∀ i, i < tWidth f.t → b.getLsbD i = a.getLsbD (tWidth f.t - 1 - i)) := by
  intro a
  have ha : s.aBits f = a.toNat := (toNat_lowOf f.t _).symm
  refine ⟨⟨_, rfl, _, leadingZeros_clzNat a, ?_⟩, ⟨_, rfl, _, trailingZeros_ctzNat a, ?_⟩, ⟨_, rfl, ?_⟩,
    ⟨_, rfl, a.reverse, writes_bits hs f.xd ?_, fun i hi => ?_⟩⟩
  · rw [ha]
    exact writes_count hs f.t f.xd (leadingZeros_clzNat a).1
  · rw [ha]
    exact writes_count hs f.t f.xd (trailingZeros_ctzNat a).1
  · rw [ha, popNat_eq]
    exact writes_count hs f.t f.xd (List.countP_le_length.trans (by simp))
  · rw [ha, revNat_toNat, Nat.mod_eq_of_lt a.reverse.isLt]
  · rw [BitVec.getLsbD_reverse, BitVec.getMsbD, decide_eq_true hi, Bool.true_and]

/-! Bit fields, compares, selects and moves (R112, R113). -/

theorem ofNat_nbits {w : Nat} (v : BitVec w) (pos len : Nat) : BitVec.ofNat len (nbits v.toNat pos len) = v.extractLsb' pos len := by
  apply BitVec.eq_of_toNat_eq
  rw [BitVec.toNat_ofNat, nbits, Nat.mod_mod, BitVec.extractLsb'_toNat, Nat.shiftRight_eq_div_pow]

/-- A field of a register, extended by its highest bit or by zeros. -/
theorem getLsbD_field (v : Word) {pos len : Nat} (some : 0 < len) (signed : Bool) {i : Nat} (hi : i < 64) :
    (if signed then BitVec.ofInt 64 (sextNat len (nbits v.toNat pos len)) else BitVec.ofNat 64 (nbits v.toNat pos len)).getLsbD i =
      if i < len then v.getLsbD (pos + i) else signed && v.getLsbD (pos + len - 1) := by
  have low : nbits v.toNat pos len = (v.extractLsb' pos len).toNat := by
    rw [← ofNat_nbits, BitVec.toNat_ofNat, nbits, Nat.mod_mod]
  cases signed with
  | true =>
    rw [if_pos rfl, sextNat_eq _ _ some, ofNat_nbits, ← BitVec.signExtend, BitVec.getLsbD_signExtend, BitVec.msb_eq_getLsbD_last,
      BitVec.getLsbD_extractLsb', BitVec.getLsbD_extractLsb']
    simp only [hi, decide_true, Bool.true_and, show len - 1 < len by omega, show pos + (len - 1) = pos + len - 1 by omega]
    split_ifs with inside
    · simp [inside]
    · rfl
  | false =>
    rw [if_neg Bool.false_ne_true, low, BitVec.ofNat_toNat, BitVec.getLsbD_setWidth, BitVec.getLsbD_extractLsb']
    by_cases inside : i < len <;> simp [inside, hi]

/-- BEXT and BINS. -/
theorem fields_complete {s : State} (hs : s.Started) (f : FmtA) :
    let pos := f.imm16.toNat % 64
    let len := f.imm16.toNat / 64 % 64 + 1
    Completes (.bext f) s (fun t => ∃ v, Writes s t f.xd v ∧ ∀ i, i < 64 →
      v.getLsbD i = if i < len then (s.x f.xa).getLsbD (pos + i) else f.opv.getLsbD 0 && (s.x f.xa).getLsbD (pos + len - 1)) ∧
    Completes (.bins f) s (fun t => ∃ v, Writes s t f.xd v ∧ ∀ i, i < 64 →
      v.getLsbD i = if pos ≤ i ∧ i < pos + len then (s.x f.xb).getLsbD (i - pos) else (s.x f.xa).getLsbD i) := by
  intro pos len
  have hpos : fieldPos f = pos := by simp [fieldPos, nbits, pos]
  have hlen : fieldLen f = len := rfl
  refine ⟨⟨_, rfl, _, writes_done s f.xd _ hs, fun i hi => ?_⟩, ⟨_, rfl, _, writes_done s f.xd _ hs, fun i hi => ?_⟩⟩
  · rw [hpos, hlen]
    exact getLsbD_field (s.x f.xa) (Nat.succ_pos _) _ hi
  · rw [BitVec.getLsbD_ofNat, testBit_setBitsAt, decide_eq_true hi, Bool.true_and, hpos, hlen]
    simp only [BitVec.testBit_toNat]

/-- 1 or 0 by a condition. -/
theorem writes_flag {s : State} (hs : s.Started) (d : BitVec 6) {c : Bool} {P : Prop} (h : c = true ↔ P) :
    ∃ v, Writes s (s.done d (if c then 1 else 0)) d v ∧ (v = 0 ∨ v = 1) ∧ (v = 1 ↔ P) := by
  refine ⟨_, writes_done s d _ hs, ?_⟩
  cases c with
  | true => exact ⟨.inr rfl, fun _ => h.mp rfl, fun _ => rfl⟩
  | false => exact ⟨.inl rfl, fun one => absurd one (by decide), fun p => absurd (h.mpr p) Bool.false_ne_true⟩

theorem condHolds_mod (c w a b : Nat) : condHolds c w (a % 2 ^ w) (b % 2 ^ w) = condHolds c w a b := by
  simp only [condHolds, Nat.mod_mod]

theorem exec_sel (f : FmtA) (s : State) :
    exec (.sel f) s = .next (s.done f.xd (if s.x f.xc ≠ 0 then s.x f.xa else s.x f.xb)) := rfl

theorem shiftLeft_eq_mul (v : Word) (k : Nat) : v <<< k = v * BitVec.ofNat 64 (2 ^ k) := by
  apply BitVec.eq_of_toNat_eq
  rw [BitVec.toNat_shiftLeft, Nat.shiftLeft_eq, BitVec.toNat_mul, BitVec.toNat_ofNat, Nat.mul_mod_mod]

/-- MOVHI's register, as a number. -/
theorem append_low (i : BitVec 32) (v : Word) : i ++ v.extractLsb' 0 32 = BitVec.ofNat 64 (i.toNat * 2 ^ 32 + v.toNat % 2 ^ 32) := by
  apply BitVec.eq_of_toNat_eq
  have low : (v.extractLsb' 0 32).toNat = v.toNat % 2 ^ 32 := by simp
  rw [BitVec.toNat_append, ← Nat.shiftLeft_add_eq_or_of_lt (v.extractLsb' 0 32).isLt, low, Nat.shiftLeft_eq, BitVec.toNat_ofNat]
  have := i.isLt
  omega

/-- Settles O2: results on bit patterns are those of the bit vectors of T's width, and the others are written as they stand. -/
theorem integerBitsComparesAndMoves : Obligations.IntegerBitsComparesAndMoves := by
  unfold Obligations.IntegerBitsComparesAndMoves
  refine ⟨fun s hs => ⟨fun f _ => logic_completes hs f, fun f _ => ?_⟩, fun f s hs => ⟨fun _ => counts_complete hs f, fun _ => fields_complete hs f⟩,
    fun s hs => ⟨fun f => ⟨fun _ => ⟨_, rfl, writes_flag hs f.xd ?cmp⟩, fun some => ⟨_, exec_sel f s, ?first⟩, fun none => ⟨_, exec_sel f s, ?second⟩,
      ⟨_, rfl, ?lea⟩⟩, fun f => ⟨fun _ => ⟨_, rfl, writes_flag hs f.xd ?cmpi⟩, ⟨_, rfl, writes_done s f.xd _ hs⟩, ⟨_, rfl, ?movhi⟩⟩⟩⟩
  · obtain ⟨and_, or_, xor_, shifts⟩ := immediates_complete hs f
    exact ⟨and_, or_, xor_, fun _ => shifts⟩
  case cmp =>
    rw [State.aBits, State.bBits, condHolds_mod]
    exact condHolds_iff f.t _ _ _
  case cmpi =>
    rw [State.aImm, immBits, condHolds_mod]
    exact condHolds_iff f.t _ _ _
  case first =>
    rw [if_pos some]
    exact writes_done s f.xd _ hs
  case second =>
    rw [if_neg (not_not_intro none)]
    exact writes_done s f.xd _ hs
  case lea =>
    rw [shiftLeft_eq_mul]
    exact writes_done s f.xd _ hs
  case movhi =>
    rw [append_low]
    exact writes_done s f.xd _ hs

end Sys2Proof.Machine
end

section
namespace Sys2Proof.Machine

/-! Scalar floating-point selections and comparisons (R115, R116). -/

/-- A word that only the computer may issue under SR goes on where it does (R45). -/
theorem fpIssue_runs {s : State} {f : FmtA} {ev : Ev} (runs : s.fpRuns f ev) (k : State) : s.fpIssue f k = k :=
  if_neg fun ⟨stochastic, role⟩ => role (runs.1 stochastic)

/-- What two operands raise for a signalling NaN among them (R31). -/
theorem sigEv_pair (a b : Val) : sigEv [a, b] = if a.isSig || b.isSig then evIV else 0 := by
  simp only [sigEv, List.any_cons, List.any_nil, Bool.or_false]

section
variable {f : FmtA} {s : State}

/-- FMIN and FMAX end in place with the bits of their selection. -/
theorem fpResult_fpSelect (hs : s.Started) {isMax : Bool} {bits : Nat} {ev : Ev}
    (selected : selMinMax (fpFmt f.t) isMax (fpSub f == 1) (s.fpVal f f.xa) (s.fpVal f f.xb) (fpBits f.t (s.x f.xa))
      (fpBits f.t (s.x f.xb)) = (bits, ev)) (runs : s.fpRuns f ev) :
    FpResult s (s.fpSelect f isMax) f.xd bits ev (fpRm f == 5) := by
  unfold State.fpSelect
  simp only [selected]
  rw [fpIssue_runs runs]
  exact fpResult_finish s f _ _ _ hs runs.2

end

section
variable {fm : Fmt} {a b : Val} {na nb : Nat}

/-- Two numbers: the smaller or the larger one's bits, the first's where they compare equal. -/
theorem selMinMax_numbers (prop : Bool) (ha : a.isNan = false) (hb : b.isNan = false) :
    selMinMax fm false prop a b na nb = (if cmpV a b = .gt then nb else na, sigEv [a, b]) ∧
    selMinMax fm true prop a b na nb = (if cmpV a b = .lt then nb else na, sigEv [a, b]) := by
  unfold selMinMax
  cases cmpV a b <;> simp [ha, hb]

/-- One NaN that does not propagate: the other operand's bits. -/
theorem selMinMax_number (isMax : Bool) (one : a.isNan ≠ b.isNan) :
    selMinMax fm isMax false a b na nb = (if a.isNan then nb else na, sigEv [a, b]) := by
  unfold selMinMax
  cases ha : a.isNan <;> cases hb : b.isNan <;> simp_all

/-- Two NaNs, or one that propagates: the canonical NaN. -/
theorem selMinMax_nan (hasNan : fm.hasNan = true) (isMax : Bool) {prop : Bool}
    (nan : a.isNan = true ∧ b.isNan = true ∨ (a.isNan = true ∨ b.isNan = true) ∧ prop = true) :
    selMinMax fm isMax prop a b na nb = (fm.qnan, sigEv [a, b]) := by
  unfold selMinMax
  cases ha : a.isNan <;> cases hb : b.isNan <;> simp_all

end

/-! The classes of codes (R30, R116). -/

/-- What a code of an IEEE format is: the sign of an infinity or a number is that of its code, and only numbers that are not 0 are
subnormal. -/
def Val.Fits (f : Fmt) (code : Nat) : Val → Prop
  | .nan _ => subnormalCode f code = false
  | .inf neg => neg = code.testBit f.signBit ∧ subnormalCode f code = false
  | .fin neg m => neg = code.testBit f.signBit ∧ m.Plain ∧ (m.num = 0 → subnormalCode f code = false)

theorem Mag.num_scale {m : Mag} (h : m.num ≠ 0) (k : Int) : (m.scale k).num ≠ 0 := by
  unfold Mag.scale
  simp only []
  generalize (if m.root = true then 2 * k else k) = n
  split
  · exact Nat.mul_ne_zero h (Nat.two_pow_pos _).ne'
  · exact h

theorem decodeF_fits {f : Fmt} (ieee : f.ieee = true) (px : f.isPx = false) (code : Nat) : (decodeF f code).Fits f code := by
  have sign : (code / 2 ^ f.signBit % 2 == 1) = code.testBit f.signBit := by
    rw [Nat.testBit_eq_decide_div_mod_eq, Bool.beq_eq_decide_eq]
  have e4m3 : (f == .e4m3) = false := by revert ieee; cases f <;> decide
  have top : 2 ^ f.ebits - 1 ≠ 0 := by revert ieee; cases f <;> decide
  have plain (n : Nat) : (Mag.mk n 1 false).Plain := ⟨rfl, one_ne_zero⟩
  unfold decodeF
  simp only [px, ieee, e4m3, Bool.false_eq_true, if_false, Bool.true_and, Bool.false_and, sign, beq_iff_eq]
  split_ifs with special zero subnormal
  · exact ⟨rfl, by simp [subnormalCode, special, top]⟩
  · show subnormalCode f code = false
    simp [subnormalCode, special, top]
  · refine ⟨rfl, (plain _).scale _, fun none => ?_⟩
    have : code % 2 ^ f.fbits = 0 := by
      by_contra some
      exact Mag.num_scale (m := ⟨code % 2 ^ f.fbits, 1, false⟩) some _ none
    simp [subnormalCode, this]
  · exact ⟨rfl, (plain _).scale _, fun none => absurd none (Mag.num_scale (m := ⟨_, 1, false⟩) (by positivity) _)⟩

/-- The place of the bit that FCLASS sets for a value, whose code is subnormal or is not (R116). -/
def classIndex (subnormal : Bool) : Val → Nat
  | .nan sig => if sig then 8 else 9
  | .inf neg => if neg then 0 else 7
  | .fin neg m =>
    if m.num = 0 then (if neg then 3 else 4) else if subnormal then (if neg then 2 else 5) else if neg then 1 else 6

theorem classOf_eq (f : Fmt) (code : Nat) : classOf f (.pow 0) code = 2 ^ classIndex (subnormalCode f code) (decodeF f code) := by
  have scaled : (EScale.pow 0 == EScale.nan) = false := rfl
  unfold classOf classIndex
  rw [scaled, if_neg Bool.false_ne_true]
  cases decodeF f code with
  | nan sig => cases sig <;> rfl
  | inf neg => cases neg <;> rfl
  | fin neg m => dsimp only; split_ifs <;> rfl

/-- What the place says of a value. -/
theorem classIndex_spec {f : Fmt} {code : Nat} {v : Val} (fits : v.Fits f code) :
    let k := classIndex (subnormalCode f code) v
    k ≤ 9 ∧ (k = 8 ↔ v = .nan true) ∧ (k = 9 ↔ v = .nan false) ∧ (k = 0 ↔ v = .inf true) ∧ (k = 7 ↔ v = .inf false) ∧
      (k = 3 ∨ k = 4 ↔ v.rat = some 0) ∧ (k = 2 ∨ k = 5 ↔ subnormalCode f code = true) ∧
      (k ≤ 7 → (k ≤ 3 ↔ code.testBit f.signBit = true)) := by
  cases v with
  | nan sig =>
    have normal : subnormalCode f code = false := fits
    cases sig <;> simp [classIndex, normal, Val.rat]
  | inf neg =>
    obtain ⟨sign, normal⟩ := fits
    rw [← sign]
    cases neg <;> simp [classIndex, normal, Val.rat]
  | fin neg m =>
    obtain ⟨sign, plain, zero⟩ := fits
    have number : (Val.fin neg m).rat = some 0 ↔ m.num = 0 := by
      rw [rat_fin neg plain, Mag.q]
      have := plain.den
      cases neg <;> simp [sgn, this]
    rw [← sign, number]
    by_cases none : m.num = 0
    · cases neg <;> simp [classIndex, none, zero none]
    · cases neg <;> cases subnormalCode f code <;> simp [classIndex, none]

/-! FCMP and FSGN (R116). -/

/-- The truth of a comparison by its code. -/
theorem fpCompare_spec (sub : Nat) (a b : Val) :
    let un := a.isNan || b.isNan
    let n := if (fpCompare sub a b).1 then 1 else 0
    (n = 0 ∨ n = 1) ∧
    (sub = 0 → (n = 1 ↔ un = false ∧ cmpV a b = .eq)) ∧
    (sub = 1 → (n = 1 ↔ un = false ∧ cmpV a b = .lt)) ∧
    (sub = 2 → (n = 1 ↔ un = false ∧ cmpV a b ≠ .gt)) ∧
    (sub = 3 → (n = 1 ↔ un = true)) ∧
    (sub = 4 → (n = 1 ↔ un = true ∨ cmpV a b ≠ .eq)) := by
  intro un n
  have truth : n = 1 ↔ (fpCompare sub a b).1 = true := by
    show (if _ then 1 else 0) = 1 ↔ _
    split <;> simp_all
  refine ⟨ite_eq_or_eq .. |>.symm, ?_, ?_, ?_, ?_, ?_⟩
  all_goals
    rintro rfl
    rw [truth]
    simp [fpCompare, un]

/-- The formats of the scalar floating-point types (R115). -/
theorem fpFmt_ieee {t : BitVec 4} (low : 8 ≤ t.toNat) (high : t.toNat ≤ 11) :
    (fpFmt t).ieee = true ∧ (fpFmt t).isPx = false ∧ (fpFmt t).hasNan = true ∧ (fpFmt t).width = (fpFmt t).signBit + 1 := by
  revert t
  decide

/-- A magnitude below a sign bit: its bits, and its size. -/
theorem testBit_signed {sb mag : Nat} (small : mag < 2 ^ sb) (sign : Bool) :
    sign.toNat * 2 ^ sb + mag < 2 ^ (sb + 1) ∧ (∀ i, i < sb → (sign.toNat * 2 ^ sb + mag).testBit i = mag.testBit i) ∧
      (sign.toNat * 2 ^ sb + mag).testBit sb = sign := by
  have bits (i : Nat) := Nat.testBit_two_pow_mul_add sign.toNat small i
  rw [Nat.mul_comm]
  refine ⟨?_, fun i hi => by rw [bits, if_pos hi], ?_⟩
  · have double : 2 ^ (sb + 1) = 2 ^ sb * 2 := Nat.pow_succ ..
    have := Nat.mul_le_mul_left (2 ^ sb) sign.toNat_le
    omega
  · rw [bits, if_neg (Nat.lt_irrefl sb), Nat.sub_self]
    cases sign <;> rfl

/-- The sign that FSGN gives, by its code and the signs of a and b. -/
def signOf (sub : Nat) (a b : Bool) : Bool :=
  match sub with
  | 0 => b
  | 1 => !b
  | _ => a != b

/-- The magnitude that FSGN reads of a code: that of a zero for a subnormal one under DAZ (R46). -/
def magOf (fm : Fmt) (daz : Bool) (n : Nat) : Nat := if daz && subnormalCode fm n then 0 else n % 2 ^ fm.signBit

theorem exec_fsgn (f : FmtA) (s : State) :
    let fm := fpFmt f.t
    let na := fpBits f.t (s.x f.xa)
    let nb := fpBits f.t (s.x f.xb)
    exec (.fsgn f) s = .next (s.fpDone f false
      ((signOf (fpSub f) (na.testBit fm.signBit) (nb.testBit fm.signBit)).toNat * 2 ^ fm.signBit + magOf fm (fpDaz f) na) 0) := by
  intro fm na nb
  have place (n : Nat) : n / 2 ^ fm.signBit % 2 = (n.testBit fm.signBit).toNat := by
    rw [Nat.testBit_eq_decide_div_mod_eq]
    obtain h | h := Nat.mod_two_eq_zero_or_one (n / 2 ^ fm.signBit) <;> simp [h]
  show execFsgn f s = _
  unfold execFsgn signOf
  simp only [show fpFmt f.t = fm from rfl, show fpBits f.t (s.x f.xa) = na from rfl, show fpBits f.t (s.x f.xb) = nb from rfl, place]
  generalize na.testBit fm.signBit = a
  generalize nb.testBit fm.signBit = b
  generalize fpSub f = sub
  congr 3
  rcases sub with _ | _ | sub <;> cases a <;> cases b <;> rfl

theorem magOf_spec (fm : Fmt) (daz : Bool) (n : Nat) : magOf fm daz n < 2 ^ fm.signBit ∧
    ∀ i, i < fm.signBit → (magOf fm daz n).testBit i = (n.testBit i && !(daz && subnormalCode fm n)) := by
  unfold magOf
  split
  · next zero => exact ⟨Nat.two_pow_pos _, fun i _ => by simp [zero]⟩
  · next keep => exact ⟨Nat.mod_lt _ (Nat.two_pow_pos _), fun i hi => by simp [keep, Nat.testBit_mod_two_pow, hi]⟩

/-- FSGN gives the bits of a below its sign bit, those of a zero for a subnormal a under DAZ, and the sign that OPV names. -/
theorem fsgn_completes {f : FmtA} {s : State} (hs : s.Started) (low : 8 ≤ f.t.toNat) (high : f.t.toNat ≤ 11) :
    let fm := fpFmt f.t
    let na := fpBits f.t (s.x f.xa)
    let nb := fpBits f.t (s.x f.xb)
    Completes (.fsgn f) s (fun t => ∃ n, FpResult s t f.xd n 0 false ∧ n < 2 ^ fm.width ∧
      (∀ i, i < fm.signBit → n.testBit i = (na.testBit i && !(fpDaz f && subnormalCode fm na))) ∧
      (fpSub f = 0 → n.testBit fm.signBit = nb.testBit fm.signBit) ∧
      (fpSub f = 1 → n.testBit fm.signBit = !nb.testBit fm.signBit) ∧
      (fpSub f = 2 → n.testBit fm.signBit = (na.testBit fm.signBit != nb.testBit fm.signBit))) := by
  intro fm na nb
  obtain ⟨-, -, -, width⟩ := fpFmt_ieee low high
  obtain ⟨small, mag⟩ := magOf_spec fm (fpDaz f) na
  obtain ⟨size, below, top⟩ := testBit_signed small (signOf (fpSub f) (na.testBit fm.signBit) (nb.testBit fm.signBit))
  refine ⟨_, exec_fsgn f s, _, fpResult_finish s f false _ 0 hs BitVec.and_zero, width ▸ size, fun i hi => (below i hi).trans (mag i hi), ?_⟩
  rw [top]
  exact ⟨fun h => by rw [h]; rfl, fun h => by rw [h]; rfl, fun h => by rw [h]; rfl⟩

/-! FCVT (R117), and all of these words together. -/

/-- FCVT ends in place with the code that it rounds to, or with the integer that T's register holds for it. -/
theorem fpResult_fcvt {f : FmtA} {s : State} (hs : s.Started) {ev : Ev} (runs : s.fpRuns f ev) (bits : Nat) :
    FpResult s (s.fpIssue f (s.fpDone f (fpRm f == 5) bits ev)) f.xd bits ev (fpRm f == 5) := by
  rw [fpIssue_runs runs]
  exact fpResult_finish s f _ _ _ hs runs.2

theorem fcvt_completes {f : FmtA} {s : State} (hs : s.Started) :
    let u := BitVec.ofNat 4 f.imm16.toNat
    let a := s.fpVal f f.xa
    let r := roundTo (fpFmt u) (s.fpCtx f) a
    let ev : Ev := (if a.isSig then evIV else 0) ||| r.2
    s.fpRuns f ev →
      (8 ≤ u.toNat → Completes (.fcvt f) s (fun t => FpResult s t f.xd r.1 ev (fpRm f == 5))) ∧
      (u.toNat ≤ 7 → Completes (.fcvt f) s (fun t => ∃ v : BitVec (tWidth u),
        v.toNat = r.1 % 2 ^ tWidth u ∧ FpResult s t f.xd (widen u v).toNat ev (fpRm f == 5))) := by
  intro u a r ev runs
  have signals : sigEv [a] = if a.isSig then evIV else 0 := by simp only [sigEv, List.any_cons, List.any_nil, Bool.or_false]
  have ends : exec (.fcvt f) s =
      .next (s.fpIssue f (s.fpDone f (fpRm f == 5) (if u.toNat ≤ 7 then (extT u r.1).toNat else r.1) ev)) := by
    show execFcvt f s = _
    simp only [execFcvt, show s.fpVal f f.xa = a from rfl, signals]
    rfl
  refine ⟨fun float => ?_, fun int => ?_⟩
  · rw [if_neg (by omega)] at ends
    exact ⟨_, ends, fpResult_fcvt hs runs _⟩
  · rw [if_pos int, extT_eq] at ends
    exact ⟨_, ends, _, BitVec.toNat_ofNat .., fpResult_fcvt hs runs _⟩

/-- Settles O5: the selections keep a source's bits, and the other words write what the model's functions on codes give. -/
theorem scalarFloatSelectionsAndConversions : Obligations.ScalarFloatSelectionsAndConversions := by
  unfold Obligations.ScalarFloatSelectionsAndConversions
  refine ⟨fun f s hs low high => ?_, fun f s hs => fcvt_completes hs⟩
  intro fm a b na nb sg Gives
  obtain ⟨ieee, px, hasNan, -⟩ := fpFmt_ieee low high
  have pair : sigEv [a, b] = sg := sigEv_pair a b
  have gives {bits : Nat} {isMax : Bool} {i : Instr} (hi : exec i s = .next (s.fpSelect f isMax))
      (selected : selMinMax fm isMax (fpSub f == 1) a b na nb = (bits, sigEv [a, b])) : Gives i bits :=
    fun runs => ⟨_, hi, fpResult_fpSelect hs (pair ▸ selected) runs⟩
  have both {bits : Nat} (selected : ∀ isMax, selMinMax fm isMax (fpSub f == 1) a b na nb = (bits, sigEv [a, b])) :
      Gives (.fmin f) bits ∧ Gives (.fmax f) bits := ⟨gives rfl (selected false), gives rfl (selected true)⟩
  have quiet (h : fpSub f ≠ 1) : (fpSub f == 1) = false := beq_eq_false_iff_ne.mpr h
  refine ⟨fun ha hb => ?_, fun ha hb h => both fun isMax => ?_, fun ha hb h => both fun isMax => ?_, fun ha hb => both fun isMax => ?_,
    fun nan h => both fun isMax => ?_, fun calm => ⟨_, rfl, _, fpResult_finish s f false _ _ hs calm, fpCompare_spec _ a b⟩,
    ⟨_, rfl, classIndex (subnormalCode fm na) (decodeF fm na), ?_⟩, fsgn_completes hs low high⟩
  · obtain ⟨smaller, larger⟩ := selMinMax_numbers (fm := fm) (na := na) (nb := nb) (fpSub f == 1) ha hb
    exact ⟨gives rfl smaller, gives rfl larger⟩
  · rw [quiet h, selMinMax_number isMax (by simp [ha, hb]), if_pos ha]
  · rw [quiet h, selMinMax_number isMax (by simp [ha, hb]), if_neg (by simp [ha])]
  · exact selMinMax_nan hasNan isMax (.inl ⟨ha, hb⟩)
  · exact selMinMax_nan hasNan isMax (.inr ⟨nan, beq_iff_eq.mpr h⟩)
  · obtain ⟨le, rest⟩ := classIndex_spec (decodeF_fits ieee px na)
    refine ⟨le, ?_, rest⟩
    rw [← classOf_eq]
    exact fpResult_finish s f false _ 0 hs BitVec.and_zero

end Sys2Proof.Machine
end

section
namespace Sys2Proof.Machine

/-! State registers (R107, R123): reads. -/

theorem nbits_low (v n : Nat) : nbits v 0 n = v % 2 ^ n := by
  rw [nbits, Nat.pow_zero, Nat.div_one]

/-- A thread may name a state register: it is no SY_ register, or the thread is privileged (R107). -/
def State.mayName (s : State) (n : Nat) : Prop := n < 0x800 ∨ s.th.priv = true

theorem not_traps_sy {s : State} {n : Nat} (may : s.mayName n) : ¬ (isSy n && !s.th.priv) = true := by
  rcases may with user | privileged
  · simp [isSy, user]
  · simp [privileged]

/-- MFSR writes what the register reads as. -/
theorem mfsr_reads {s : State} (hs : s.Started) {f : FmtB} {n : Nat} (number : stateRegNo f = n) (may : s.mayName n) {v : Word}
    (value : s.readSr n = v) : Completes (.mfsr f) s (fun t => Writes s t f.xd v) := by
  subst number value
  exact ⟨_, congrArg Host.Outcome.next (if_neg (not_traps_sy may)), writes_done s f.xd _ hs⟩

theorem readSr_eix (s : State) {c : Nat} (h : c < 6) : s.readSr (0x002 + c) = s.tr.eix.getD c 0 := by
  interval_cases c <;> rfl

theorem readSr_wmark (s : State) {k : Nat} (h : k < 16) : s.readSr (0x010 + k) = (s.tr.chan k).wmark := by
  interval_cases k <;> rfl

/-- What SY_VOWNER shows of a slot (R357). -/
def ownerField (owner : Option Nat) : Nat :=
  match owner with
  | some c => 2 ^ 15 + c % 4096
  | none => 0

theorem ownerField_lt (owner : Option Nat) : ownerField owner < 2 ^ 16 := by
  unfold ownerField
  split <;> omega

theorem fields_sum (d : Nat → Nat) :
    ((nrange 0 4).map fun j => d j * 2 ^ (16 * j)).sum = d 0 + d 1 * 2 ^ 16 + d 2 * 2 ^ 32 + d 3 * 2 ^ 48 := by
  simp only [nrange, List.range_succ, List.range_zero, List.map_append, List.map_nil, List.map_cons, List.sum_append, List.sum_cons,
    List.sum_nil, Nat.reduceMul, Nat.pow_zero, Nat.mul_one, Nat.add_zero, Nat.zero_add]

/-- Four fields of 16 bits side by side. -/
theorem nbits_fields {d : Nat → Nat} (h : ∀ j, d j < 2 ^ 16) {j : Nat} (hj : j < 4) :
    nbits (BitVec.ofNat 64 ((nrange 0 4).map fun j => d j * 2 ^ (16 * j)).sum).toNat (16 * j) 16 = d j := by
  rw [fields_sum, BitVec.toNat_ofNat, nbits]
  have h0 := h 0
  have h1 := h 1
  have h2 := h 2
  have h3 := h 3
  simp only [Nat.reducePow] at h0 h1 h2 h3 ⊢
  obtain rfl | rfl | rfl | rfl : j = 0 ∨ j = 1 ∨ j = 2 ∨ j = 3 := by omega
  all_goals
    simp only [Nat.reducePow, Nat.reduceMul]
    omega

theorem vowner_field (s : State) (core : Nat) {j : Nat} (hj : j < 4) :
    nbits (s.vowner core).toNat (16 * j) 16 = ownerField (s.slot (slotKey core j)).owner := by
  have same : s.vowner core =
      BitVec.ofNat 64 ((nrange 0 4).map fun j => ownerField (s.slot (slotKey core j)).owner * 2 ^ (16 * j)).sum := by
    rw [State.vowner]
    congr 2
    refine List.map_congr_left fun j _ => ?_
    unfold ownerField
    cases (s.slot (slotKey core j)).owner with
    | none => exact (Nat.zero_mul _).symm
    | some c => rfl
  rw [same]
  exact nbits_fields (fun j => ownerField_lt (s.slot (slotKey core j)).owner) hj

theorem nrange_zero (n : Nat) : nrange 0 n = List.range n := by
  simp [nrange]

/-- DENYLOG_READ of a privileged thread. -/
theorem exec_denylogRead {f : FmtB} {s : State} (privileged : s.th.priv = true) :
    exec (.denylogRead f) s = .next ({ s with deny := s.deny.tail }.done f.xd (s.deny.headD 0)) := by
  show execDenylogRead f s = _
  rw [execDenylogRead, privileged]
  rfl

/-- Settles O8: each register reads as its clause of `readSr` says. -/
theorem stateRegistersRead : Obligations.StateRegistersRead := by
  unfold Obligations.StateRegistersRead
  refine ⟨fun f s hs => ?_, fun f s hs privileged => ⟨fun none => ⟨_, exec_denylogRead privileged, ?_⟩,
    fun e l some => ⟨_, exec_denylogRead privileged, ?_⟩⟩⟩
  · intro n Reads
    have user {m : Nat} {v : Word} (below : m < 0x800) (value : s.readSr m = v) (number : n = m) : Reads v :=
      mfsr_reads hs number (.inl below) value
    refine ⟨user (by decide) rfl, user (by decide) rfl, fun c hc => user (by omega) (readSr_eix s hc), user (by decide) rfl,
      user (by decide) rfl, user (by decide) rfl, user (by decide) rfl, user (by decide) rfl, user (by decide) rfl,
      user (by decide) rfl, user (by decide) rfl, fun k hk => user (by omega) (readSr_wmark s hk), user (by decide) rfl,
      fun privileged => ?_⟩
    have system {m : Nat} {v : Word} (value : s.readSr m = v) (number : n = m) : Reads v :=
      mfsr_reads hs number (.inr privileged) value
    refine ⟨system rfl, system rfl, system rfl, system rfl, system rfl, system rfl, system rfl, system rfl, fun number => ?_, system ?_⟩
    · obtain ⟨t, run, writes⟩ := system rfl number
      refine ⟨t, run, s.vowner s.tr.core, writes, fun j hj => ?_⟩
      rw [vowner_field s s.tr.core hj]
      refine ⟨fun free => by rw [free]; rfl, fun c hc owned => ?_⟩
      rw [owned, ownerField, Nat.mod_eq_of_lt hc]
    · rw [← nrange_zero]
      rfl
  · have same : { s with deny := s.deny.tail } = s := by
      rw [none, List.tail_nil, ← none]
    rw [same, none]
    exact writes_done s f.xd 0 hs
  · rw [some]
    exact writes_done { s with deny := l } f.xd e hs

end Sys2Proof.Machine
end

section
namespace Sys2Proof.Machine

/-! State registers (R123, R347, R367): writes. -/

/-- What follows a change that keeps the current thread's triad as it was is as if nothing had been changed. -/
theorem OnlyThread.of_same {s u t : State} (only : OnlyTriad s u) (tr : u.tr = s.tr) (h : OnlyThread u t) : OnlyThread s t where
  toOnlyTriad := only.trans h.toOnlyTriad
  triad := by rw [h.triad, tr, only.cur]

theorem StandsAt.of_same {s u t : State} {a : Word} {ds : List (BitVec 6)} (th : u.th = s.th) (h : StandsAt u t a ds) : StandsAt s t a ds where
  pc := h.pc
  regs := fun n hn => (h.regs n hn).trans (by rw [State.x, State.x, th])
  role := by rw [h.role, th]

/-- MTSR writes the register and goes on. -/
theorem mtsr_sets {s : State} {f : FmtB} {n : Nat} (number : stateRegNo f = n) (may : s.mayName n) {u : State}
    (written : s.writeSr n (s.x f.xa) = u) (started : u.Started) (th : u.th = s.th) :
    Completes (.mtsr f) s (fun t => OnlyThread u t ∧ StandsAt u t s.th.successor []) := by
  subst number written
  refine ⟨_, congrArg Host.Outcome.next (if_neg (not_traps_sy may)), ?_⟩
  rw [← th]
  exact advances _ started

/-- A register whose write leaves everything as it was. -/
def keepsSr (n : Nat) : Prop := n = 0x000 ∨ (0x00A ≤ n ∧ n < 0x021) ∨ n = 0x805 ∨ n = 0x809 ∨ n = 0x80A

theorem writeSr_keeps {n : Nat} (h : keepsSr n) (s : State) (v : Word) : s.writeSr n v = s := by
  unfold keepsSr at h
  unfold State.writeSr
  split
  case h_12 => exact if_neg (by omega)
  all_goals omega

theorem writeSr_eix (s : State) (v : Word) {c : Nat} (h : c < 6) :
    s.writeSr (0x002 + c) v = s.modTr fun r => { r with eix := lset c (v &&& 0x80000000FFFFFFFF#64) r.eix } := by
  interval_cases c <;> rfl

theorem localHbm_areaOf (v : Word) : localHbm (areaOf v) = decide (areaOf v < 2 ^ 39) := rfl

/-- SY_TRAPREC takes an area in local HBM4E, and no other (R347). -/
theorem traprecWrite_near (old : Word) {v : Word} (near : areaOf v < 2 ^ 39) : traprecWrite old v = v &&& 0x800FFFFFFFFFF000#64 :=
  if_pos (decide_eq_true near)

theorem traprecWrite_far (old : Word) {v : Word} (far : 2 ^ 39 ≤ areaOf v) : traprecWrite old v = old :=
  if_neg fun near => absurd (of_decide_eq_true near) (Nat.not_lt.mpr far)

/-- SY_IDTAB: LCN and REP change while FEN is 0, and a changed FEN starts the port or takes it down (R367). -/
theorem idTab_write (t : IdTab) (v : Word) :
    (t.fen = false → v.getLsbD 63 = true →
      t.write v = { t with fen := true, fst := 1, rep := v.getLsbD 62, lcn := v.toNat % 128 }) ∧
    (t.fen = false → v.getLsbD 63 = false → t.write v = { t with rep := v.getLsbD 62, lcn := v.toNat % 128 }) ∧
    (t.fen = true → v.getLsbD 63 = true → t.write v = t) ∧
    (t.fen = true → v.getLsbD 63 = false → t.write v = { t with fen := false, fst := 0 }) := by
  have lcn : nbits v.toNat 0 7 = v.toNat % 128 := nbits_low ..
  unfold IdTab.write
  rw [lcn]
  refine ⟨fun off on => ?_, fun off on => ?_, fun off on => ?_, fun off on => ?_⟩ <;>
    simp only [off, on, Bool.false_eq_true, Bool.true_eq_false, if_false, if_true]

theorem writeSr_tag (s : State) (v : Word) : s.writeSr 0x801 v = s.modTr fun r => { r with tag := v.toNat % 4096 } := by
  show s.modTr _ = _
  rw [nbits_low]
  rfl

theorem writeSr_ptkey (s : State) (v : Word) : s.writeSr 0x802 v = s.modTr fun r => { r with ptkey := v.toNat % 128 } := by
  show s.modTr _ = _
  rw [nbits_low]
  rfl

theorem writeSr_wdog (s : State) (v : Word) : s.writeSr 0x806 v = s.modQueue s.tr.queue fun q =>
    { q with wdEn := v.getLsbD 63, wdGrace := v.toNat / 2 ^ 32 % 2 ^ 24, wdLimit := v.toNat % 2 ^ 32 } := by
  have written : s.writeSr 0x806 v = s.modQueue s.tr.queue fun q => q.setWdog v := rfl
  rw [written]
  simp only [Queue.setWdog, nbits_low]
  rfl

/-- Settles O9: each register's write is its clause of `writeSr`. -/
theorem stateRegistersWrite : Obligations.StateRegistersWrite := by
  unfold Obligations.StateRegistersWrite
  intro f s hs n v Sets
  -- A write of the current triad's registers leaves its roles alone.
  have triad {m : Nat} {g : Triad → Triad} (may : s.mayName m) (written : s.writeSr m v = s.modTr g)
      (roles : ∀ t r, (g t).role r = t.role r) (number : n = m) : Sets (s.modTr g) :=
    mtsr_sets number may written (started_modTr g hs) (s.th_modTr g hs roles)
  have same {t u : Triad} (l : u.loader = t.loader) (c : u.computer = t.computer) (st : u.storer = t.storer) (r : Role) :
      u.role r = t.role r := by cases r <;> assumption
  have keeps (h : keepsSr n) (may : s.mayName n) : Sets s := mtsr_sets rfl may (writeSr_keeps h s v) hs rfl
  refine ⟨triad (.inl (by decide)) rfl fun t r => same rfl rfl rfl r,
    fun c hc => triad (.inl (by omega)) (writeSr_eix s v hc) fun t r => same rfl rfl rfl r,
    triad (.inl (by decide)) rfl fun t r => same rfl rfl rfl r, triad (.inl (by decide)) rfl fun t r => same rfl rfl rfl r,
    fun h => keeps (by unfold keepsSr; omega) (.inl (by omega)), fun privileged => ?_⟩
  have may (m : Nat) : s.mayName m := .inr privileged
  have device {m : Nat} {u : State} (written : s.writeSr m v = u) (triads : u.triads = s.triads) (cur : u.cur = s.cur) (number : n = m) :
      Sets u := by
    have th : u.th = s.th := by rw [State.th, State.th, State.thread, State.thread, State.triad, State.triad, triads, cur]
    refine mtsr_sets number (may m) written ?_ th
    rw [State.Started, State.Has, triads, cur]
    exact hs
  obtain ⟨enable, stay, on, disable⟩ := idTab_write s.fab.idtab v
  have idtab {i : IdTab} (written : s.fab.idtab.write v = i) (number : n = 0x807) : Sets { s with fab := { s.fab with idtab := i } } :=
    device (congrArg (fun i => { s with fab := { s.fab with idtab := i } }) written) rfl rfl number
  refine ⟨triad (may _) rfl fun t r => same rfl rfl rfl r, triad (may _) (writeSr_tag s v) fun t r => same rfl rfl rfl r,
    triad (may _) (writeSr_ptkey s v) fun t r => same rfl rfl rfl r, device rfl rfl rfl, fun number near => ?_, fun number far => ?_,
    device (writeSr_wdog s v) rfl rfl, fun number off set => idtab (enable off set) number, fun number off clear => idtab (stay off clear) number,
    fun number fen set => idtab (on fen set) number, fun number fen clear => idtab (disable fen clear) number, device rfl rfl rfl,
    fun h => keeps (by unfold keepsSr; omega) (may _)⟩
  · refine triad (may 0x804) ?_ (fun t r => same rfl rfl rfl r) number
    show s.modTr _ = _
    simp only [traprecWrite_near _ near]
  · have tr : (s.writeSr 0x804 v).tr = s.tr := by
      show (s.modTr _).tr = s.tr
      rw [s.tr_modTr _ hs, traprecWrite_far _ far]
    have th : (s.writeSr 0x804 v).th = s.th := s.th_modTr _ hs fun t r => same rfl rfl rfl r
    obtain ⟨t, run, only, stands⟩ := mtsr_sets (f := f) number (may _) rfl (started_modTr _ hs) th
    exact ⟨t, run, only.of_same (onlyTriad_modTr s _) tr, stands.of_same th⟩

end Sys2Proof.Machine
end

section
namespace Sys2Proof.Machine

/-! Translation by a leaf (R275, R276, R289). -/

/-- Translation through a leaf of a page that does not migrate: its checks in their order, and the place (R275). -/
theorem translate_leaf {s u : State} {core va lvl e : Nat} {c : Cred} (found : lookup s core c va = (.leaf lvl e, u))
    (settled : nbits e 7 2 ≠ 1) (acc : Acc) (pull : Bool) :
    let frame := nbits e 16 36 * 65536
    translate s core c va acc pull =
      if entP e && !c.priv then (.fault 2, u)
      else if (acc == .st || acc == .rmw) && !entW e then (.fault 2, u)
      else if acc == .fetch && !entX e then (.fault 2, u)
      else if frame / 2 ^ 51 = 0 && encrypted u frame && slotEmpty u (entKey e) then (.fault 4, u)
      else if (entDom e != c.tag) && acc == .fetch then (.fault 6, u)
      else (.ok (frame + va % 2 ^ pageShift lvl) (entKey e) (entDom e) (entDom e != c.tag) lvl e, u) := by
  have still : ¬ entMig e = 1 := settled
  unfold translate
  rw [found]
  simp only [still, if_false, false_and]

theorem entry_bit (e k : Nat) : nbits e k 1 = 1 ↔ (e / 2 ^ k % 2 == 1) = true := by
  rw [nbits, Nat.pow_one, beq_iff_eq]

/-- The conditions of R275 that a leaf's page fault of cause 2 has. -/
theorem forbidden_iff (e : Nat) (c : Cred) (acc : Acc) :
    ((nbits e 4 1 = 1 ∧ c.priv = false) ∨ ((acc = .st ∨ acc = .rmw) ∧ nbits e 2 1 = 0) ∨ (acc = .fetch ∧ nbits e 3 1 = 0)) ↔
      (entP e && !c.priv) = true ∨ ((acc == .st || acc == .rmw) && !entW e) = true ∨ (acc == .fetch && !entX e) = true := by
  have zero (k : Nat) : nbits e k 1 = 0 ↔ (e / 2 ^ k % 2 == 1) = false := by
    rw [nbits, Nat.pow_one, beq_eq_false_iff_ne]
    omega
  rw [entry_bit, zero, zero]
  simp [entP, entW, entX]

/-- Checks made one after another, of which the first three give one answer. -/
theorem checks_in_order {α : Type} {a b c d : α} {P W X K F : Prop} [Decidable P] [Decidable W] [Decidable X] [Decidable K] [Decidable F] :
    let r := if P then a else if W then a else if X then a else if K then b else if F then c else d
    (P ∨ W ∨ X → r = a) ∧ (¬ (P ∨ W ∨ X) → K → r = b) ∧ (¬ (P ∨ W ∨ X) → ¬ K → F → r = c) ∧ (¬ (P ∨ W ∨ X) → ¬ K → ¬ F → r = d) := by
  intro r
  refine ⟨fun bad => ?_, fun fine k => ?_, fun fine k f => ?_, fun fine k f => ?_⟩
  · rcases bad with h | h | h <;> simp [r, h]
  all_goals
    obtain ⟨p, w, x⟩ := not_or.mp fine |>.imp_right not_or.mp
    simp [r, p, w, x, k]
  all_goals simp [f]

/-- What an access of a page that does not migrate finds. -/
theorem translate_checks {s u : State} {core va lvl e : Nat} {c : Cred} (found : lookup s core c va = (.leaf lvl e, u))
    (settled : nbits e 7 2 ≠ 1) (acc : Acc) (pull : Bool) :
    let frame := nbits e 16 36 * 65536
    let r := translate s core c va acc pull
    let forbidden := (nbits e 4 1 = 1 ∧ c.priv = false) ∨ ((acc = .st ∨ acc = .rmw) ∧ nbits e 2 1 = 0) ∨ (acc = .fetch ∧ nbits e 3 1 = 0)
    let keyless := frame < 2 ^ 51 ∧ encrypted u frame = true ∧ slotEmpty u (nbits e 9 7) = true
    let foreign := nbits e 52 12 ≠ c.tag
    (forbidden → r = (.fault 2, u)) ∧
    (¬ forbidden → keyless → r = (.fault 4, u)) ∧
    (¬ forbidden → ¬ keyless → foreign → acc = .fetch → r = (.fault 6, u)) ∧
    (¬ forbidden → ¬ keyless → ¬ (foreign ∧ acc = .fetch) →
      r = (.ok (frame + va % 2 ^ pageShift lvl) (nbits e 9 7) (nbits e 52 12) (nbits e 52 12 != c.tag) lvl e, u)) := by
  intro frame r forbidden keyless foreign
  have run : r = _ := translate_leaf found settled acc pull
  have empty : keyless ↔ (decide (frame / 2 ^ 51 = 0) && encrypted u frame && slotEmpty u (entKey e)) = true := by
    rw [Bool.and_eq_true, Bool.and_eq_true, decide_eq_true_eq, Nat.div_eq_zero_iff_lt (by decide), and_assoc]
    rfl
  have other : (foreign ∧ acc = .fetch) ↔ ((entDom e != c.tag) && acc == .fetch) = true := by
    rw [Bool.and_eq_true, bne_iff_ne, beq_iff_eq]
    rfl
  rw [show forbidden ↔ _ from forbidden_iff e c acc, empty, other, ← and_imp (a := foreign), other, run]
  exact checks_in_order

/-! Where an access goes, and what finding the place changes (R118, R170, R286). -/

/-- The state after a translation: that after the look at the page tables, or, on a migrating page, that after the pull of a line. -/
theorem translate_pulls (s : State) (core : Nat) (c : Cred) (va : Nat) (acc : Acc) (pull : Bool) :
    let u := (translate s core c va acc pull).2
    u = (lookup s core c va).2 ∨ ∃ lvl e key recAt newf oldf, (lookup s core c va).1 = .leaf lvl e ∧ nbits e 7 2 = 1 ∧
      u = pullLine (lookup s core c va).2 c.ptkey key recAt newf oldf va := by
  unfold translate
  obtain ⟨_ | ⟨lvl, e⟩, w⟩ := lookup s core c va
  · exact .inl rfl
  · by_cases mig : entMig e = 1
    · simp only [mig, if_true, true_and]
      cases migRecord w c.ptkey (nbits e 16 28 * 256) with
      | none => exact .inl rfl
      | some r =>
        obtain ⟨newf, oldf⟩ := r
        simp only [Option.isNone_some, Bool.false_eq_true, if_false]
        cases pull with
        | false =>
          simp only [Bool.false_eq_true, if_false]
          split_ifs <;> exact .inl rfl
        | true =>
          simp only [if_true]
          split_ifs
          iterate 5 exact .inl rfl
          exact .inr ⟨_, _, _, _, _, _, rfl, mig, rfl⟩
    · simp only [mig, if_false, false_and]
      split_ifs <;> exact .inl rfl

theorem locate_state (s : State) (core : Nat) (c : Cred) (a : Word) (acc : Acc) (pull : Bool) :
    (locate s core c a acc pull).2 = match classify a with
      | .virt va => (translate s core c va acc pull).2
      | _ => s := by
  unfold locate
  cases classify a with
  | noncanon => rfl
  | atlas n => rfl
  | virt va =>
    dsimp only
    generalize translate s core c va acc pull = r
    obtain ⟨_ | _, u⟩ := r <;> rfl

/-- What the device is after an access has found its place: as it was, or as the look at the page tables leaves it, or, on a migrating
page, as the pull of a line leaves that. -/
theorem locate_pulls (s : State) (core : Nat) (c : Cred) (a : Word) (acc : Acc) (pull : Bool) :
    let u := (locate s core c a acc pull).2
    u = s ∨ ∃ va, classify a = .virt va ∧ (u = (lookup s core c va).2 ∨ ∃ lvl e key recAt newf oldf,
      (lookup s core c va).1 = .leaf lvl e ∧ nbits e 7 2 = 1 ∧ u = pullLine (lookup s core c va).2 c.ptkey key recAt newf oldf va) := by
  intro u
  have state : u = _ := locate_state s core c a acc pull
  cases space : classify a with
  | noncanon => exact .inl (by rw [state, space])
  | atlas n => exact .inl (by rw [state, space])
  | virt va =>
    rw [space] at state
    exact .inr ⟨va, rfl, state ▸ translate_pulls s core c va acc pull⟩

/-- A look at the page tables changes the one core's cached leaves (R277). -/
theorem lookup_core (s : State) (core : Nat) (c : Cred) (va : Nat) :
    (∀ k, k ≠ core → (lookup s core c va).2.core k = s.core k) ∧ ((lookup s core c va).2.core core).trapvec = (s.core core).trapvec := by
  unfold lookup
  split
  · exact ⟨fun _ _ => rfl, rfl⟩
  · split
    · exact ⟨fun k hk => by simp [State.core, State.modCore, hk], by simp [State.core, State.modCore]⟩
    · exact ⟨fun _ _ => rfl, rfl⟩

theorem lookup_mem_fab (s : State) (core : Nat) (c : Cred) (va : Nat) :
    (lookup s core c va).2.mem = s.mem ∧ (lookup s core c va).2.fab = s.fab := by
  unfold lookup
  split
  · exact ⟨rfl, rfl⟩
  · split <;> exact ⟨rfl, rfl⟩

theorem wf_storeOwn {s : State} (w : s.mem.wf = true) (pa : Nat) (bs : List Byte) (slot : Nat) : (storeOwn s pa bs slot).mem.wf = true := by
  unfold storeOwn
  split
  · exact wf_physWrite w _ _ _
  · exact List.foldlRecOn (motive := fun t : State => t.mem.wf = true) _ _ w fun t wt _ _ => wf_physWrite wt _ _ _

theorem wf_pullLine {s : State} (w : s.mem.wf = true) (ptkey key recAt newf oldf va : Nat) :
    (pullLine s ptkey key recAt newf oldf va).mem.wf = true := by
  unfold pullLine
  simp only []
  split
  · exact w
  · refine wf_storeOwn ?_ _ _ _
    split
    · exact wf_storeOwn w _ _ _
    · exact wf_physPoison (wf_storeOwn w _ _ _) _ _ _

/-- Finding a place changes the device's cores, memory and fabric at most. -/
theorem locate_device {s u : State} {core : Nat} {c : Cred} {a : Word} {acc : Acc} {pull : Bool} {l : Loc}
    (found : locate s core c a acc pull = (l, u)) : u = { s with cores := u.cores, mem := u.mem, fab := u.fab } := by
  have stores : { u with cores := s.cores } = { s with mem := u.mem, fab := u.fab } := by
    have := onlyStores_locate s core c a acc pull
    rw [found] at this
    exact this
  exact congrArg (fun t : State => { t with cores := u.cores }) stores

theorem locate_cores {s u : State} {core : Nat} {c : Cred} {a : Word} {acc : Acc} {pull : Bool} {l : Loc}
    (found : locate s core c a acc pull = (l, u)) :
    (∀ k, k ≠ core → u.core k = s.core k) ∧ (u.core core).trapvec = (s.core core).trapvec := by
  have pulls := locate_pulls s core c a acc pull
  rw [found] at pulls
  rcases pulls with rfl | ⟨va, -, rfl | ⟨_, _, key, recAt, newf, oldf, -, -, rfl⟩⟩
  · exact ⟨fun _ _ => rfl, rfl⟩
  · exact lookup_core s core c va
  · have same := (onlyStores_pullLine (lookup s core c va).2 c.ptkey key recAt newf oldf va).cores
    simp only [State.core, same]
    exact lookup_core s core c va

theorem locate_wf {s u : State} {core : Nat} {c : Cred} {a : Word} {acc : Acc} {pull : Bool} {l : Loc}
    (found : locate s core c a acc pull = (l, u)) (w : s.mem.wf = true) : u.mem.wf = true := by
  have pulls := locate_pulls s core c a acc pull
  rw [found] at pulls
  rcases pulls with rfl | ⟨va, -, rfl | ⟨_, _, _, _, _, _, -, -, rfl⟩⟩
  · exact w
  · rwa [(lookup_mem_fab s core c va).1]
  · exact wf_pullLine (by rwa [(lookup_mem_fab s core c va).1]) _ _ _ _ _ _

theorem locate_settled {s u : State} {core : Nat} {c : Cred} {a : Word} {acc : Acc} {pull : Bool} {l : Loc}
    (found : locate s core c a acc pull = (l, u))
    (settled : ∀ va lvl e v, classify a = .virt va → lookup s core c va = (.leaf lvl e, v) → nbits e 7 2 ≠ 1) :
    u.mem = s.mem ∧ u.fab = s.fab := by
  have pulls := locate_pulls s core c a acc pull
  rw [found] at pulls
  rcases pulls with rfl | ⟨va, space, rfl | ⟨lvl, e, _, _, _, _, leaf, mig, -⟩⟩
  · exact ⟨rfl, rfl⟩
  · exact lookup_mem_fab s core c va
  · exact absurd mig (settled va lvl e _ space (Prod.ext leaf rfl))

/-- Settles O12: a leaf's checks are those of `translate`, and `locate` goes by the class of the address. -/
theorem addressesAndTranslation : Obligations.AddressesAndTranslation := by
  unfold Obligations.AddressesAndTranslation
  refine ⟨fun s u core c va acc pull lvl e found settled => translate_checks found settled acc pull, fun s u core c a acc pull l found => ?_⟩
  refine ⟨fun space => ?_, fun n space => ?_, locate_device found, (locate_cores found).1, (locate_cores found).2, locate_wf found,
    locate_settled found⟩
  · rw [locate, space] at found
    exact ⟨(congrArg Prod.fst found).symm, (congrArg Prod.snd found).symm⟩
  · rw [locate, space] at found
    have place : l = if atlasFault s c.tag n then .fault 7 else .here (atlasBase + n) 0 0 := (congrArg Prod.fst found).symm
    exact ⟨(congrArg Prod.snd found).symm, fun bad => place.trans (if_pos bad), fun fine => place.trans (if_neg (by simp [fine]))⟩

end Sys2Proof.Machine
end

section
namespace Sys2Proof.Machine

/-! Places of scalar accesses (R118, R170, R275). -/

/-- A page's frame is a multiple of 2^16, also that of a migrating page (R271, R285). -/
theorem migRecord_frame {s : State} {ptkey recAt newf oldf : Nat} (h : migRecord s ptkey recAt = some (newf, oldf)) : newf % 65536 = 0 := by
  unfold migRecord at h
  simp only [] at h
  split at h
  · next good =>
    simp only [Bool.and_eq_true, beq_iff_eq] at good
    obtain ⟨rfl, -⟩ := Prod.mk.inj (Option.some.inj h)
    tauto
  · cases h

theorem translate_place {s u : State} {core va : Nat} {c : Cred} {acc : Acc} {pull : Bool} {pa key dom lvl e : Nat} {d : Bool}
    (h : translate s core c va acc pull = (.ok pa key dom d lvl e, u)) :
    ∃ frame, frame % 65536 = 0 ∧ pa = frame + va % 2 ^ pageShift lvl := by
  unfold translate at h
  generalize lookup s core c va = r at h
  obtain ⟨_ | ⟨lvl', e'⟩, w⟩ := r
  · cases h
  simp only [] at h
  by_cases mig : entMig e' = 1
  · simp only [mig, if_true, true_and] at h
    cases found : migRecord w c.ptkey (nbits e' 16 28 * 256) with
    | none => simp [found] at h
    | some r =>
      obtain ⟨newf, oldf⟩ := r
      simp only [found, Option.isNone_some, Bool.false_eq_true, if_false] at h
      split_ifs at h
      all_goals simp only [Prod.mk.injEq, TRes.ok.injEq, reduceCtorEq, false_and] at h
      all_goals
        obtain ⟨⟨place, -, -, -, rfl, -⟩, -⟩ := h
        exact ⟨newf, migRecord_frame found, place.symm⟩
  · simp only [mig, if_false, false_and] at h
    split_ifs at h
    all_goals simp only [Prod.mk.injEq, TRes.ok.injEq, reduceCtorEq, false_and] at h
    obtain ⟨⟨place, -, -, -, rfl, -⟩, -⟩ := h
    exact ⟨_, Nat.mul_mod_left _ 65536, place.symm⟩

/-- An aligned address gives an aligned place. -/
theorem locate_aligned {s u : State} {core : Nat} {c : Cred} {a : Word} {acc : Acc} {pull : Bool} {pa key frame n : Nat}
    (found : locate s core c a acc pull = (.here pa key frame, u)) (hn : n ∣ 8) (aligned : a.toNat % n = 0) : pa % n = 0 := by
  have kept {x k : Nat} (h : 3 ≤ k) : x % 2 ^ k % n = x % n := Nat.mod_mod_of_dvd x (hn.trans (Nat.pow_dvd_pow 2 h))
  have whole {x k : Nat} (h : 3 ≤ k) (hx : x % 2 ^ k = 0) : x % n = 0 := by rw [← kept h, hx, Nat.zero_mod]
  unfold locate at found
  cases space : classify a with
  | noncanon => simp [space] at found
  | atlas t =>
    rw [space] at found
    have offset : t = a.toNat % 2 ^ 29 := by
      unfold classify at space
      simp only [] at space
      split_ifs at space
      exact (Space.atlas.inj space).symm
    simp only [Prod.mk.injEq] at found
    obtain ⟨place, -⟩ := found
    split_ifs at place
    obtain ⟨rfl, -, -⟩ := Loc.here.inj place
    have base : atlasBase % n = 0 := whole (k := 44) (by decide) rfl
    rw [Nat.add_mod, offset, kept (by decide), aligned, base, Nat.add_zero, Nat.zero_mod]
  | virt va =>
    rw [space] at found
    have same := toNat_of_classify space
    simp only [] at found
    generalize trans : translate s core c va acc pull = r at found
    obtain ⟨k | ⟨pa', key', dom, denied, lvl, e⟩, w⟩ := r
    · cases found
    simp only [Prod.mk.injEq] at found
    obtain ⟨place, -⟩ := found
    split_ifs at place
    obtain ⟨rfl, -, -⟩ := Loc.here.inj place
    obtain ⟨base, page, rfl⟩ := translate_place trans
    have shift : 3 ≤ pageShift lvl := by unfold pageShift; split <;> omega
    rw [Nat.add_mod, kept shift, ← same, aligned, whole (k := 16) (by decide) page, Nat.add_zero, Nat.zero_mod]

/-- Bytes that do not cross a multiple of 8 lie in one line, so they are encrypted alike. -/
theorem encrypted_aligned (s : State) {pa n x : Nat} (hn : n ∣ 8) (h : pa % n = 0) (hx : x / 64 ∈ linesOf pa n) :
    encrypted s x = encrypted s pa := by
  obtain ⟨some, low, high⟩ := mem_linesOf.mp hx
  have line : x / 64 = pa / 64 := by
    obtain ⟨q, rfl⟩ := Nat.dvd_of_mod_eq_zero h
    obtain rfl | rfl | rfl | rfl : n = 1 ∨ n = 2 ∨ n = 4 ∨ n = 8 := by
      have := Nat.le_of_dvd (by decide) hn
      interval_cases n <;> omega
    all_goals omega
  have hbm : inHbm x = inHbm pa := by simp only [inHbm, decide_eq_decide]; omega
  have port : portOf x = portOf pa := by
    have : x / 2 ^ 42 = pa / 2 ^ 42 := by omega
    rw [portOf, portOf, this]
  rw [encrypted, encrypted, inExpander, inExpander, hbm, port]

/-! Loads and stores that go through (R118, R119). -/

theorem started_of_locate {s u : State} {core : Nat} {c : Cred} {a : Word} {acc : Acc} {pull : Bool} {l : Loc}
    (found : locate s core c a acc pull = (l, u)) (hs : s.Started) : u.Started := by
  obtain ⟨cur, -, triads⟩ := locate_threads found
  rw [State.Started, State.Has, cur, triads]
  exact hs

theorem loadBytes_clean {s u : State} {a : Word} {n pa key frame : Nat} (h : Finds s u a n .ld pa key frame)
    (clean : physQuality u pa n = .clean) : loadBytes s a n = .ok (physRead u pa n key) u := by
  obtain ⟨aligned, found, free⟩ := h
  simp only [loadBytes, aligned, found, free, clean, ne_eq, not_true_eq_false, if_false, Bool.false_eq_true]

theorem storeBytes_open {s u : State} {a : Word} {bs : List Byte} {pa key frame : Nat} (h : Finds s u a bs.length .st pa key frame)
    (unsealed : inSealed u pa bs.length = false) (alone : shadowPort u = none) (stream : Nat) :
    storeBytes s a bs stream = .ok () (physWrite u pa bs key) := by
  obtain ⟨aligned, found, free⟩ := h
  have room : forwardRoom u pa bs.length = true := by simp [forwardRoom, alone]
  simp only [storeBytes, aligned, found, free, room, unsealed, ne_eq, not_true_eq_false, if_false, Bool.not_true, Bool.false_eq_true]

theorem thread_physWrite {u : State} (hu : u.Started) (alone : shadowPort u = none) (pa : Nat) (bs : List Byte) (key : Nat) :
    (physWrite u pa bs key).Started ∧ (physWrite u pa bs key).th = u.th := by
  rw [physWrite_alone alone pa bs key]
  exact ⟨hu, rfl⟩

/-- A store, and then a change of the current thread alone: memory and the thread's role are all that differs. -/
theorem onlyMemory_store {u t : State} {pa key : Nat} {bs : List Byte} (alone : shadowPort u = none)
    (only : OnlyThread (physWrite u pa bs key) t) : OnlyMemory u t := by
  have stored := physWrite_alone alone pa bs key
  generalize physWrite u pa bs key = w at *
  refine ⟨?_, fun c hc => ?_, ?_⟩
  · rw [only.device, stored]
  · rw [only.others c (by rwa [stored]), stored]
    rfl
  · rw [only.triad, stored]
    rfl

/-- What a store of aligned bytes did to memory still shows after a change of the current thread. -/
theorem stores_aligned {u t : State} {pa key : Nat} {bs : List Byte} (hn : bs.length ∣ 8) (aligned : pa % bs.length = 0)
    (reached : Reached u pa) (only : OnlyThread (physWrite u pa bs key) t) : Stores u t pa bs key := by
  have some : bs ≠ [] := by
    rintro rfl
    exact absurd (Nat.eq_zero_of_zero_dvd hn) (by decide)
  have device := only.device
  refine (stores_physWrite u pa bs key reached some fun x hx => encrypted_aligned u hn aligned hx).congr (fun _ _ _ => rfl) fun a n k => ?_
  generalize physWrite u pa bs key = w at *
  refine physRead_congr ?_ ?_ ?_ (fun p => ?_) a n k <;> rw [device]

/-! LD and ST (R118). -/

theorem bytesNat_lt (l : List Byte) : bytesNat l < 256 ^ l.length := by
  induction l with
  | nil => decide
  | cons b l ih =>
    have := b.isLt
    rw [bytesNat, List.length_cons, Nat.pow_succ]
    omega

theorem segWm_lt (f : FmtM) : segWm f < 4 := Nat.mod_lt _ (by decide)

theorem two_pow_segWm (f : FmtM) : 0 < 2 ^ segWm f ∧ 2 ^ segWm f ∣ 8 :=
  ⟨Nat.two_pow_pos _, Nat.pow_dvd_pow 2 (m := segWm f) (n := 3) (Nat.le_of_lt_succ (segWm_lt f))⟩

/-- A loaded number in a register, by S. -/
theorem extended_load {n v : Nat} (some : 0 < n) (small : v < 2 ^ (8 * n)) (signed : Bool) :
    (if signed then BitVec.ofInt 64 (sextNat (8 * n) v) else BitVec.ofNat 64 v : Word) =
      if signed then (BitVec.ofNat (8 * n) v).signExtend 64 else (BitVec.ofNat (8 * n) v).setWidth 64 := by
  cases signed with
  | true => rw [if_pos rfl, if_pos rfl, sextNat_eq _ _ (by omega), BitVec.signExtend]
  | false =>
    rw [if_neg Bool.false_ne_true, if_neg Bool.false_ne_true]
    apply BitVec.eq_of_toNat_eq
    rw [BitVec.toNat_setWidth, BitVec.toNat_ofNat, BitVec.toNat_ofNat, Nat.mod_eq_of_lt small]

theorem ld_completes {f : FmtM} {s u : State} {pa key frame : Nat} (hs : s.Started) (scope : f.scope.toNat ≠ 4)
    (finds : Finds s u (s.eaM f) (2 ^ segWm f) .ld pa key frame) (clean : physQuality u pa (2 ^ segWm f) = .clean) :
    Completes (.ld f) s (fun t =>
      let w : BitVec (8 * 2 ^ segWm f) := BitVec.ofNat _ (numberAt u pa (2 ^ segWm f) key)
      Writes u t f.v (if segS f then w.signExtend 64 else w.setWidth 64)) := by
  have loaded := loadBytes_clean finds clean
  have bank : scopeBank f.scope.toNat = false := beq_eq_false_iff_ne.mpr scope
  have small := bytesNat_lt (physRead u pa (2 ^ segWm f) key)
  rw [length_physRead, show 256 = 2 ^ 8 from rfl, ← Nat.pow_mul] at small
  refine ⟨u.done f.v _, ?_, writes_done u f.v _ (started_of_locate finds.found hs)⟩
  show execLd f s = _
  simp only [execLd, bank, loaded, Bool.false_eq_true, if_false, extended_load (two_pow_segWm f).1 small]
  rfl

theorem st_completes {f : FmtM} {s u : State} {pa key frame : Nat} (hs : s.Started) (scope : f.scope.toNat ≠ 4)
    (finds : Finds s u (s.eaM f) (2 ^ segWm f) .st pa key frame) (unsealed : inSealed u pa (2 ^ segWm f) = false)
    (reached : Reached u pa) (alone : shadowPort u = none) :
    Completes (.st f) s (fun t => OnlyMemory u t ∧ StandsAt u t u.th.successor [] ∧
      Stores u t pa (natBytes (2 ^ segWm f) (s.x f.v).toNat) key) := by
  have bank : scopeBank f.scope.toNat = false := beq_eq_false_iff_ne.mpr scope
  have aligned := locate_aligned finds.found (two_pow_segWm f).2 finds.aligned
  have whole := (two_pow_segWm f).2
  generalize bytes : natBytes (2 ^ segWm f) (s.x f.v).toNat = bs
  have length : bs.length = 2 ^ segWm f := by rw [← bytes, length_natBytes]
  rw [← length] at finds unsealed aligned whole
  have stored := storeBytes_open finds unsealed alone f.stream.toNat
  obtain ⟨started, th⟩ := thread_physWrite (started_of_locate finds.found hs) alone pa bs key
  obtain ⟨only, stands⟩ := advances _ started
  refine ⟨(physWrite u pa bs key).advance, ?_, onlyMemory_store alone only, ?_, stores_aligned whole aligned reached only⟩
  · show execSt f s = _
    simp only [execSt, bank, bytes, stored, Bool.false_eq_true, if_false]
  · rw [th] at stands
    exact stands.of_same th

/-! LDW (R122, R233, R234). -/

section
variable {s : State} {f : FmtB}

/-- The offset of LDW in its window. -/
def ldwOff (s : State) (f : FmtB) : Word := s.x f.xa + f.imm32.signExtend 64

/-- The type that LDW reads: 15 means .n64 (R122). -/
def ldwType (f : FmtB) : BitVec 4 := if f.t = 15#4 then 7#4 else f.t

/-- The end of LDW after its load. -/
def ldwEnd (f : FmtB) (r : Res (List Byte)) : State :=
  match r with
  | .stop s => s
  | .ok bs s => s.done f.xd (extT (ldwType f) (bytesNat bs))

variable (bound : (s.tr.win (f.opv.toNat % 8)).size ≠ 0) (aligned : (ldwOff s f).toNat % (tWidth (ldwType f) / 8) = 0)
include bound aligned

theorem exec_ldw_inside (inside : (ldwOff s f).toNat + tWidth (ldwType f) / 8 ≤ (s.tr.win (f.opv.toNat % 8)).size)
    (virt : isVirt ((s.tr.win (f.opv.toNat % 8)).base + ldwOff s f) = true) :
    exec (.ldw f) s =
      .next (ldwEnd f (loadBytes s ((s.tr.win (f.opv.toNat % 8)).base + ldwOff s f) (tWidth (ldwType f) / 8))) := by
  have named : ¬ (!isVirt ((s.tr.win (f.opv.toNat % 8)).base + ldwOff s f)) = true := by simp [virt]
  exact congrArg Host.Outcome.next ((if_neg (not_not_intro aligned)).trans ((if_neg bound).trans
    ((if_neg (Nat.not_lt.mpr inside)).trans (if_neg named))))

theorem exec_ldw_beyond (beyond : (s.tr.win (f.opv.toNat % 8)).size < (ldwOff s f).toNat + tWidth (ldwType f) / 8) :
    exec (.ldw f) s = .next ((s.pwoob (f.opv.toNat % 8)
      (max (ldwOff s f).toNat (s.tr.win (f.opv.toNat % 8)).size)).done f.xd 0) :=
  congrArg Host.Outcome.next ((if_neg (not_not_intro aligned)).trans ((if_neg bound).trans (if_pos beyond)))

/-- LDW within its window. -/
theorem ldw_inside (hs : s.Started) (inside : (ldwOff s f).toNat + tWidth (ldwType f) / 8 ≤ (s.tr.win (f.opv.toNat % 8)).size)
    {u : State} {pa key frame : Nat} (virt : isVirt ((s.tr.win (f.opv.toNat % 8)).base + ldwOff s f) = true)
    (finds : Finds s u ((s.tr.win (f.opv.toNat % 8)).base + ldwOff s f) (tWidth (ldwType f) / 8) .ld pa key frame)
    (clean : physQuality u pa (tWidth (ldwType f) / 8) = .clean) :
    Completes (.ldw f) s (fun t => Writes u t f.xd
      (widen (ldwType f) (BitVec.ofNat _ (numberAt u pa (tWidth (ldwType f) / 8) key)))) := by
  refine ⟨_, exec_ldw_inside bound aligned inside virt, ?_⟩
  rw [loadBytes_clean finds clean, ldwEnd, extT_eq]
  exact writes_done u f.xd _ (started_of_locate finds.found hs)

end

/-- The deny log takes entries and counts lost ones, and nothing else changes (R291). -/
theorem denyPush_device (s : State) (e : Word) :
    denyPush s e = { s with deny := (denyPush s e).deny, denyLost := (denyPush s e).denyLost } := by
  unfold denyPush
  simp only []
  split_ifs <;> rfl

/-- A log with room takes an entry. -/
theorem denyPush_room {s : State} (kept : s.denyLost = 0) (room : s.deny.length < 4096) (e : Word) :
    denyPush s e = { s with deny := s.deny ++ [e] } := by
  simp only [denyPush, kept, room, if_true]

/-- The fields of an entry of the deny log (R291). -/
theorem denyEntry_fields {kind role dom core slot payload : Nat} (hk : kind < 8) (hr : role < 4) (hd : dom < 4096) (hc : core < 128)
    (hs : slot < 4) (hp : payload < 2 ^ 36) :
    (denyEntry kind role dom core slot payload).toNat / 2 ^ 61 = kind ∧
      (denyEntry kind role dom core slot payload).toNat / 2 ^ 47 % 2 ^ 12 = dom ∧
      (denyEntry kind role dom core slot payload).toNat % 2 ^ 36 = payload := by
  simp only [denyEntry, BitVec.toNat_ofNat, Nat.reducePow] at *
  omega

theorem Role.num_lt (r : Role) : r.num < 4 := by cases r <;> decide

/-- A bit of VSTAT set and an entry put to the deny log, for the current thread (R291). -/
theorem orVstat_denyPush {s : State} (hs : s.Started) (w e : Word) :
    let u := denyPush (s.orVstat s.cur.ctxn w) e
    u.Started ∧ u.th = s.th ∧ u.tr.vstat = s.tr.vstat ||| w ∧ u.mem = s.mem ∧
      (s.denyLost = 0 → s.deny.length < 4096 → u.deny = s.deny ++ [e]) := by
  intro u
  have noted : s.orVstat s.cur.ctxn w = s.modTr fun t => { t with vstat := t.vstat ||| w } := rfl
  have started : (s.orVstat s.cur.ctxn w).Started := started_modTr _ hs
  have th : (s.orVstat s.cur.ctxn w).th = s.th := s.th_modTr _ hs fun t r => by cases r <;> rfl
  have tr : (s.orVstat s.cur.ctxn w).tr.vstat = s.tr.vstat ||| w := by rw [noted, s.tr_modTr _ hs]
  have device : u = _ := denyPush_device _ _
  refine ⟨?_, ?_, ?_, ?_, fun kept room => ?_⟩
  · rw [device]
    exact started
  · rw [device]
    exact th
  · rw [device]
    exact tr
  · rw [device]
    exact s.orVstat_mem _ _
  · have log := denyPush_room (s := s.orVstat s.cur.ctxn w) (by rwa [State.orVstat_denyLost]) (by rwa [State.orVstat_deny]) e
    rw [show u = _ from log, State.orVstat_deny]

theorem pwoob_logs {s : State} (hs : s.Started) (k off : Nat) :
    let u := s.pwoob k off
    u.Started ∧ u.th = s.th ∧ u.tr.vstat = s.tr.vstat ||| 0x10000#64 ∧ u.mem = s.mem ∧
      (s.denyLost = 0 → s.deny.length < 4096 → u.deny = s.deny ++
        [denyEntry kPwoob s.cur.role.num s.tr.tag s.tr.core s.tr.slot (k * 2 ^ 32 + off % 2 ^ 32)]) :=
  orVstat_denyPush hs _ _

/-- LDW at or beyond the bound size. -/
theorem ldw_beyond {s : State} {f : FmtB} (hs : s.Started) (tag : s.tr.tag < 4096) (core : s.tr.core < 128) (slot : s.tr.slot < 4)
    (bound : (s.tr.win (f.opv.toNat % 8)).size ≠ 0) (aligned : (ldwOff s f).toNat % (tWidth (ldwType f) / 8) = 0)
    (beyond : (s.tr.win (f.opv.toNat % 8)).size < (ldwOff s f).toNat + tWidth (ldwType f) / 8) :
    Completes (.ldw f) s (fun t => t.x f.xd = 0 ∧ t.th.pc = s.th.successor ∧ t.tr.vstat = s.tr.vstat ||| 0x10000#64 ∧ SameBytes s t ∧
      (s.denyLost = 0 → s.deny.length < 4096 → ∃ e, t.deny = s.deny ++ [e] ∧ e.toNat / 2 ^ 61 = 4 ∧
        e.toNat % 2 ^ 36 = f.opv.toNat % 8 * 2 ^ 32 + max (ldwOff s f).toNat (s.tr.win (f.opv.toNat % 8)).size % 2 ^ 32)) := by
  refine ⟨_, exec_ldw_beyond bound aligned beyond, ?_⟩
  have small : f.opv.toNat % 8 < 8 := Nat.mod_lt _ (by decide)
  generalize max (ldwOff s f).toNat (s.tr.win (f.opv.toNat % 8)).size = off
  generalize f.opv.toNat % 8 = k at *
  obtain ⟨started, th, vstat, mem, logs⟩ := pwoob_logs hs k off
  have writes := writes_done (s.pwoob k off) f.xd 0 started
  generalize s.pwoob k off = u at *
  generalize u.done f.xd 0 = t at *
  have deny : t.deny = u.deny := by rw [writes.device]
  refine ⟨writes.value.trans (ite_self 0), by rw [writes.pc, th], ?_, fun a => by rw [writes.bytes a, mem], fun kept room => ?_⟩
  · rw [writes.triad, ← vstat]
    cases u.cur.role <;> rfl
  · obtain ⟨kind, -, payload⟩ := denyEntry_fields (kind := kPwoob) (payload := k * 2 ^ 32 + off % 2 ^ 32) (by decide)
      s.cur.role.num_lt tag core slot (by omega)
    exact ⟨_, deny.trans (logs kept room), kind, payload⟩

/-- Settles O10: a scalar load or store whose place is found ends with the bytes there read or stored, and LDW beyond its window with 0. -/
theorem scalarLoadsStoresAndWindowReads : Obligations.ScalarLoadsStoresAndWindowReads := by
  unfold Obligations.ScalarLoadsStoresAndWindowReads
  refine ⟨fun f s u pa key frame hs scope => ⟨ld_completes hs scope, st_completes hs scope⟩, ?_⟩
  intro f s hs _ tag core slot k w o n bound aligned
  exact ⟨fun inside u pa key frame virt finds clean => ldw_inside bound aligned hs inside virt finds clean,
    fun beyond => ldw_beyond hs tag core slot bound aligned beyond⟩

end Sys2Proof.Machine
end

section
namespace Sys2Proof.Machine

/-! Scalar atomics (R121, R382). -/

/-- The new values of an atomic are, in T's bits, those of the operations on the bit vectors. -/
theorem atomicNew_bits (t : BitVec 4) (n b cmp : Nat) :
    let old : BitVec (tWidth t) := BitVec.ofNat _ n
    let v : BitVec (tWidth t) := BitVec.ofNat _ b
    let new (op : Nat) : BitVec (tWidth t) := BitVec.ofNat _ (atomicNew op t n b cmp)
    new 0 = old + v ∧ new 1 = old &&& v ∧ new 2 = old ||| v ∧ new 3 = old ^^^ v ∧
    new 4 = (if (if tSigned t then v.toInt < old.toInt else v.toNat < old.toNat) then v else old) ∧
    new 5 = (if (if tSigned t then old.toInt < v.toInt else old.toNat < v.toNat) then v else old) ∧
    new 6 = v ∧
    new 7 = BitVec.ofNat _ (roundTo (fpFmt t) ⟨.rne, false, false, 0⟩
      (addV .rne (plainVal (fpFmt t) false old.toNat) (plainVal (fpFmt t) false v.toNat)).1).1 ∧
    new 8 = (if old = BitVec.ofNat _ cmp then v else old) := by
  intro old v new
  have pos := (tWidth_bounds t).1
  have ho : n % 2 ^ tWidth t = old.toNat := (BitVec.toNat_ofNat ..).symm
  have hv : b % 2 ^ tWidth t = v.toNat := (BitVec.toNat_ofNat ..).symm
  have low (x : BitVec (tWidth t)) : BitVec.ofNat (tWidth t) x.toNat = x := by rw [BitVec.ofNat_toNat, BitVec.setWidth_eq]
  have signed (x : BitVec (tWidth t)) : sextNat (tWidth t) x.toNat = x.toInt := by rw [sextNat_eq _ _ pos, low]
  have choose (c : Prop) [Decidable c] (x y : BitVec (tWidth t)) :
      BitVec.ofNat (tWidth t) (if c then x.toNat else y.toNat) = if c then x else y := by split <;> rw [low]
  simp only [new, atomicNew, ho, hv, signed]
  refine ⟨?_, ?_, ?_, ?_, ?_, ?_, low v, rfl, ?_⟩
  · rw [← BitVec.toNat_add, low]
  · rw [← BitVec.toNat_and, low]
  · rw [← BitVec.toNat_or, low]
  · rw [← BitVec.toNat_xor, low]
  · rw [choose]
    cases tSigned t <;> simp
  · rw [choose]
    cases tSigned t <;> simp
  · rw [choose, ← BitVec.toNat_ofNat]
    simp only [BitVec.toNat_inj]

/-- The bytes of an operand of T. -/
theorem tBytes (t : BitVec 4) : 8 * (tWidth t / 8) = tWidth t ∧ tWidth t / 8 ∣ 8 := by
  revert t
  decide

/-- T's bytes of a number are those of its low bits. -/
theorem natBytes_tWidth (t : BitVec 4) (n : Nat) : natBytes (tWidth t / 8) n = natBytes (tWidth t / 8) (BitVec.ofNat (tWidth t) n).toNat := by
  rw [← natBytes_mod, show 256 = 2 ^ 8 from rfl, ← Nat.pow_mul, (tBytes t).1, BitVec.toNat_ofNat]

section
variable {s u : State} {a : Word} {t : BitVec 4} {pa key frame : Nat}
  (finds : Finds s u a (tWidth t / 8) .rmw pa key frame) (clean : physQuality u pa (tWidth t / 8) = .clean)
  (unsealed : inSealed u pa (tWidth t / 8) = false) (alone : shadowPort u = none)
include finds clean unsealed alone

/-- An atomic whose place is found: the new value stored, the old one in xd. -/
theorem atomicAt_clean (op : Nat) (b cmp : Word) (xd : BitVec 6) :
    atomicAt s a op t b cmp xd =
      (physWrite u pa (natBytes (tWidth t / 8) (atomicNew op t (numberAt u pa (tWidth t / 8) key) b.toNat cmp.toNat)) key).done xd
        (widen t (BitVec.ofNat _ (numberAt u pa (tWidth t / 8) key))) := by
  obtain ⟨aligned, found, free⟩ := finds
  have room : forwardRoom u pa (tWidth t / 8) = true := by simp [forwardRoom, alone]
  rw [← extT_eq]
  simp only [atomicAt, aligned, found, free, room, unsealed, clean, ne_eq, not_true_eq_false, if_false, Bool.not_true, Bool.false_eq_true]
  rfl

/-- What an atomic instruction does to memory and to the current thread, by its new value. -/
theorem atomic_swaps (hs : s.Started) (reached : Reached u pa) {i : Instr} {op : Nat} {b cmp : Word} {xd : BitVec 6}
    (run : exec i s = .next (atomicAt s a op t b cmp xd)) {new : BitVec (tWidth t)}
    (value : BitVec.ofNat _ (atomicNew op t (numberAt u pa (tWidth t / 8) key) b.toNat cmp.toNat) = new) :
    Completes i s (fun v => OnlyMemory u v ∧ StandsAt u v u.th.successor [xd] ∧
      (v.x xd = if xd = 0#6 then 0 else widen t (BitVec.ofNat _ (numberAt u pa (tWidth t / 8) key))) ∧
      Stores u v pa (natBytes (tWidth t / 8) new.toNat) key) := by
  have aligned := locate_aligned finds.found (tBytes t).2 finds.aligned
  have whole := (tBytes t).2
  rw [atomicAt_clean finds clean unsealed alone, natBytes_tWidth, value] at run
  refine ⟨_, run, ?_⟩
  have length : (natBytes (tWidth t / 8) new.toNat).length = tWidth t / 8 := length_natBytes ..
  generalize natBytes (tWidth t / 8) new.toNat = bs at *
  rw [← length] at aligned whole
  obtain ⟨started, th⟩ := thread_physWrite (started_of_locate finds.found hs) alone pa bs key
  have writes := writes_done (physWrite u pa bs key) xd (widen t (BitVec.ofNat _ (numberAt u pa (tWidth t / 8) key))) started
  have stands := writes.toStandsAt
  rw [th] at stands
  exact ⟨onlyMemory_store alone writes.toOnlyThread, stands.of_same th, writes.value, stores_aligned whole aligned reached writes.toOnlyThread⟩

end

theorem exec_ramo (f : FmtA) (s : State) : exec (.ramo f) s = .next (atomicAt s (s.x f.xa + f.imm16.signExtend 64) (f.opv.toNat % 16) f.t
    (s.x f.xb) (if f.opv.toNat % 16 = 8 then s.x f.xc else 0) f.xd) := rfl

/-- Settles O11: an atomic whose place is found stores what `atomicNew` gives, and xd takes what stood there. -/
theorem scalarAtomics : Obligations.ScalarAtomics := by
  unfold Obligations.ScalarAtomics
  intro f s u pa key frame hs _ n finds clean unsealed reached alone old b Swaps Both op fm swap
  have low (v : Word) : BitVec.ofNat (tWidth f.t) v.toNat = lowOf f.t v := ofNat_low f.t v
  have swaps {i : Instr} {k : Nat} {cmp : Word}
      (run : exec i s = .next (atomicAt s (s.x f.xa + f.imm16.signExtend 64) k f.t (s.x f.xb) cmp f.xd)) {new : BitVec (tWidth f.t)}
      (value : BitVec.ofNat _ (atomicNew k f.t (numberAt u pa n key) (s.x f.xb).toNat cmp.toNat) = new) : Swaps i new :=
    atomic_swaps finds clean unsealed alone hs reached run value
  have both {k : Nat} (named : op = k) {new : BitVec (tWidth f.t)}
      (value : ∀ cmp : Word, BitVec.ofNat _ (atomicNew k f.t (numberAt u pa n key) (s.x f.xb).toNat cmp.toNat) = new) : Both new := by
    subst named
    exact ⟨fun scope => swaps (exec_amo scope) (value 0), swaps (exec_ramo f s) (value _)⟩
  have bits (cmp : Word) := atomicNew_bits f.t (numberAt u pa n key) (s.x f.xb).toNat cmp.toNat
  simp only [low, forall_and] at bits
  obtain ⟨sum, and, or, xor, least, greatest, operand, float, swapped⟩ := bits
  refine ⟨fun _ named => both named float, fun named => both named sum, fun named => both named and, fun named => both named or,
    fun named => both named xor, fun named => both named operand, fun named => both named least, fun named => both named greatest,
    fun named => swaps ?_ (swapped (s.x f.xc)), fun scope => swaps (exec_cas scope) (swapped (s.x f.xc))⟩
  rw [exec_ramo, show f.opv.toNat % 16 = 8 from named, if_pos rfl]

end Sys2Proof.Machine
end
